-- ==== Sys2Proof/Word.lean ====
section
/-! DEFINITION. The word types of the GZ-144 and their plainest readings (spec/00_scope.md R5, R6). -/

namespace Sys2Proof

/-- One byte of any memory (R6). -/
abbrev Byte := BitVec 8
/-- A 64-bit register, address operand or instruction word (R62). -/
abbrev Word := BitVec 64
/-- A scalar register s0 to s31 (R161). -/
abbrev SWord := BitVec 32
/-- A vector register or queue item of 512 bytes (R161). -/
abbrev Vec := BitVec 4096
/-- A predicate register, one bit per 4-bit lane (R161). -/
abbrev Pred := BitVec 1024
/-- The number of a general register g0 to g31. -/
abbrev GReg := Fin 32

end Sys2Proof
end

