-- ==== Sys2Proof/Config.lean ====
section
/-! DEFINITION. What an implementation fixes and the values the spec leaves free. -/

namespace Sys2Proof

/-- The number of cores of a package: two dies of 72 (R1, R11). -/
def Config.cores : Nat := 144

/-- Cores per die (R11). -/
def Config.coresPerDie : Nat := 72

/-- The bytes of a package's Cellar (R15). -/
def Config.cellar : Nat := 3 * 2 ^ 39

/-- Whether a physical address lies in an Attic range of the package: the spec gives these ranges no addresses
(notes/assumptions/7.md). -/
opaque Config.atticPhysical : Nat → Bool

/-- The n-th value that the spec leaves open (notes/assumptions/2.md): nothing constrains it. -/
opaque Config.freeWord : Nat → Word

/-- The SM3 digest of a byte string as a number of 256 bits; the spec names the algorithm and gives no definition of its own
(notes/assumptions/3.md). -/
opaque Config.sm3 : List Byte → Nat

/-- Whether an SM2 signature over a message verifies under a key; the spec names the algorithm only (notes/assumptions/3.md). -/
opaque Config.sm2Verify : (key msg sig : List Byte) → Bool

/-- The SM2 signature of a message by a key held in the device (notes/assumptions/3.md). -/
opaque Config.sm2Sign : (key msg : List Byte) → List Byte

/-- Shoale's public release key, whose identifier is fused into the boot ROM (R338, R363). -/
opaque Config.releaseKey : List Byte

/-- The public half of the device identity key (R348, R364). -/
opaque Config.deviceKey : List Byte

/-- The stepping of the device (R334, R337, R364). -/
opaque Config.stepping : Nat

/-- The offset of the first operation of an IXCODE section that breaks its native entry in a way that R345 leaves to the entries (in MODS,
or in the operands of an address or an engine command), if one does (notes/assumptions/3.md). -/
opaque Config.ixiusOperands : List Byte → Option Nat

/-- The native code that the translator makes of an IXCODE section for this device (R346; notes/assumptions/3.md). -/
opaque Config.ixiusCode : List Byte → List Byte

/-- The banks that the translator chooses for a symbol of an IXCODE section (R344, R346; notes/assumptions/3.md). -/
opaque Config.ixiusBanks : List Byte → Nat → List Nat

/-- Whether the section's symbols fit the scratchpad under the translator's choices (R346). -/
opaque Config.ixiusFits : List Byte → Bool

/-- ELOG.BASE, whose offset is fixed and not stated (R355). -/
opaque Config.elogBase : Word

/-- The RESYNC sequence number of the first summary, which the spec does not state (R357). -/
opaque Config.resyncBase : Nat

end Sys2Proof
end

