-- ==== Sys2Proof/Syntax.lean ====
section
/-! DEFINITION. The instructions of the GZ-144 as data: one constructor of Instr per row of spec/opcode_table.json.
The rows that are instructions of the native set (spec/04_encoding.md R64, R75) come first, in the opcode map's order;
the rows that are operations and events of the device follow, with the data that the event brings. -/

namespace Sys2Proof

/-- The element types by their type codes 0 to 15 (R41, R42, R44, R45, R46). -/
inductive ElemTy where
  | i4 | i8 | i16 | i32 | n8 | n16 | n32 | e2m1 | e4m3 | e5m2 | sp2 | h16 | bf16 | fp32 | s16 | cx
  deriving DecidableEq, Repr

/-- The rounding mode codes 000 to 111 (R48). -/
inductive RM where
  | rne | rtz | rup | rdn | rna | rto | sr | dyn
  deriving DecidableEq, Repr

/-- The six data spaces (R76). -/
inductive Space where
  | sp | at | ra | cl | hs | pr
  deriving DecidableEq, Repr

/-- The integer sizes of SZ in the arithmetic forms: .D and .W (R64). -/
inductive ISize where
  | d | w
  deriving DecidableEq, Repr

/-- The comparison conditions of CMP, CMPI and MBR (R65). -/
inductive Cond where
  | eq | ne | lt | ge | ltu | geu
  deriving DecidableEq, Repr

/-- The condition of BR: always, or a comparison (R65). -/
inductive BCond where
  | always
  | cmp (c : Cond)
  deriving DecidableEq, Repr

/-- The sizes of a load (R137). -/
inductive LdSize where
  | b | bu | h | hu | w | wu | d
  deriving DecidableEq, Repr

/-- The sizes of a store (R137). -/
inductive StSize where
  | b | h | w | d
  deriving DecidableEq, Repr

/-- The address operand of format AM: base, index, scale code and displacement (R64, R77). -/
structure MemOp where
  base : GReg
  idx  : GReg
  sc   : Fin 4
  disp : BitVec 28
  deriving DecidableEq, Repr

/-- The path flags of FENCE (R100, R152). -/
structure FenceFlags where
  v  : Bool
  h  : Bool
  cl : Bool
  hs : Bool
  pr : Bool
  e  : Bool
  deriving DecidableEq, Repr

/-- The scopes of FENCE (R100, R152). -/
inductive Scope where
  | core | die | dev | sys
  deriving DecidableEq, Repr

/-- A source operand code of the X-pipe (R66, R67): a register, the popped or peeked head of a load queue, a scalar
register, or entry `0x80 + n` of the small-constant table. -/
inductive XOp where
  | v (n : Fin 64)
  | pop (q : Fin 8)
  | peek (q : Fin 8)
  | s (n : Fin 32)
  | k (n : Fin 59)
  deriving DecidableEq, Repr

/-- A destination operand code of the X-pipe (R66). -/
inductive XDst where
  | v (n : Fin 64)
  | sq (q : Fin 4)
  | s (n : Fin 32)
  deriving DecidableEq, Repr

/-- A rounding mode with the random source that the code SR reads (R48, R175); the source is v0, code 0x00, in every
other mode. -/
structure Rnd where
  rm  : RM
  src : XOp
  deriving DecidableEq, Repr

/-- The fields of a rounding two-operand floating-point form (R176). -/
structure FpBin where
  g : Fin 16
  ty : ElemTy
  rnd : Rnd
  sat : Bool
  d : XDst
  a : XOp
  b : XOp
  deriving DecidableEq, Repr

/-- The fields of a fused form (R176); RM 110 is not accepted. -/
structure FpFma where
  g : Fin 16
  ty : ElemTy
  rm : RM
  sat : Bool
  d : XDst
  a : XOp
  b : XOp
  c : XOp
  deriving DecidableEq, Repr

/-- A guarded two-source form that does not round and has no modifier. -/
structure XTwo where
  g : Fin 16
  ty : ElemTy
  d : XDst
  a : XOp
  b : XOp
  deriving DecidableEq, Repr

/-- A guarded one-source form that does not round. -/
structure XOne where
  g : Fin 16
  ty : ElemTy
  d : XDst
  a : XOp
  deriving DecidableEq, Repr

/-- A guarded one-source form that rounds: VSQRT (R176) and the special functions (R192). -/
structure FpUn where
  g : Fin 16
  ty : ElemTy
  rnd : Rnd
  sat : Bool
  d : XDst
  a : XOp
  deriving DecidableEq, Repr

/-- A two-source integer form with .SAT and .W (R179). -/
structure IntBin where
  g : Fin 16
  ty : ElemTy
  sat : Bool
  wide : Bool
  d : XDst
  a : XOp
  b : XOp
  deriving DecidableEq, Repr

/-- VIMAD (R179). -/
structure IntMad where
  g : Fin 16
  ty : ElemTy
  sat : Bool
  d : XDst
  a : XOp
  b : XOp
  c : XOp
  deriving DecidableEq, Repr

/-- VIABS (R179). -/
structure IntUn where
  g : Fin 16
  ty : ElemTy
  sat : Bool
  d : XDst
  a : XOp
  deriving DecidableEq, Repr

/-- The conditions of VCMP (R181). -/
inductive VCond where
  | eq | ne | lt | le | gt | ge | un
  deriving DecidableEq, Repr

/-- An element conversion (R184, R185): VCVT, VCVTW and, with .LOG, VCVTN. -/
structure CvtArgs where
  g : Fin 16
  ty : ElemTy
  src : ElemTy
  rnd : Rnd
  sat : Bool
  log : Bool
  d : XDst
  a : XOp
  deriving DecidableEq, Repr

/-- A block conversion (R184, R186, R187): VDQ and VQ, with the block code. -/
structure BlkArgs where
  g : Fin 16
  ty : ElemTy
  src : ElemTy
  rnd : Rnd
  sat : Bool
  blk : Fin 4
  d : XDst
  a : XOp
  b : XOp
  deriving DecidableEq, Repr

/-- SRND (R188), with the random-width code. -/
structure SrndArgs where
  g : Fin 16
  ty : ElemTy
  grid : ElemTy
  sat : Bool
  rw : Fin 4
  d : XDst
  a : XOp
  b : XOp
  deriving DecidableEq, Repr

/-- A permute of two sources and a third field (R189). -/
structure Perm3 where
  g : Fin 16
  ty : ElemTy
  d : XDst
  a : XOp
  b : XOp
  c : XOp
  deriving DecidableEq, Repr

/-- VZIP and VUNZIP, with HI or ODD (R189). -/
structure PermSel where
  g : Fin 16
  ty : ElemTy
  sel : Bool
  d : XDst
  a : XOp
  b : XOp
  deriving DecidableEq, Repr

/-- A reduction (R191). -/
structure RedArgs where
  g : Fin 16
  ty : ElemTy
  rm : RM
  sat : Bool
  d : XDst
  a : XOp
  b : XOp
  deriving DecidableEq, Repr

/-- SCVT (R194). -/
structure ScvtArgs where
  g : Fin 16
  ty : ElemTy
  src : ElemTy
  rnd : Rnd
  sat : Bool
  d : XDst
  a : XOp
  deriving DecidableEq, Repr

/-- The trip count of LOOP: the field, or a scalar register (R170). -/
inductive LoopCount where
  | imm (n : BitVec 16)
  | reg (s : Fin 32)
  deriving DecidableEq, Repr

/-- The hatch fields of an engine command (R64, R156). -/
structure Hatching where
  push : Option (Fin 16)
  pop  : Option (Fin 16)
  deriving DecidableEq, Repr

/-- Four operand registers and the hatch fields: the shape of the copy-class commands and of RESHARD. -/
structure ECmd where
  x : GReg
  y : GReg
  w : GReg
  z : GReg
  hk : Hatching
  deriving DecidableEq, Repr

/-- BFS (R248): `role` is 0 none, 1 begin, 2 continue, 3 end. -/
structure BfsArgs where
  e : ECmd
  n : Fin 64
  m : Fin 4
  sd : Fin 8
  t : Bool
  role : Fin 4
  rm : RM
  deriving DecidableEq, Repr

/-- BFA (R251). -/
structure BfaArgs where
  x : GReg
  y : GReg
  z : GReg
  hk : Hatching
  n : Fin 64
  m : Fin 4
  acc : Fin 8
  t : Bool
  deriving DecidableEq, Repr

/-- ADRAIN (R256). -/
structure AdrainArgs where
  y : GReg
  hk : Hatching
  n : Fin 64
  m : Fin 4
  acc : Fin 8
  raw : Bool
  sat : Bool
  rm : RM
  deriving DecidableEq, Repr

/-- The operation of an AMO (R142). -/
inductive AmoOp where
  | add | and | or | xor | min | max | minu | maxu | swap | cas
  deriving DecidableEq, Repr

/-- What a peer device asks of the Cellar of this one (R83, R105, R142). -/
inductive PrOp where
  | load (n : Nat)
  | store (bytes : List Byte)
  | amo (op : AmoOp) (w : Bool) (v n : Word)
  deriving DecidableEq, Repr

/-- The registers of the management window and of the slot table, apart from those whose writes are operations of their own (R91,
R316, R339, R352, R354, R355, R360, R361). -/
inductive HostReg where
  | hostCntThr | notifyBase | notifyHead | notifyTail | notifyLost
  | jobringBase | jobringTail | jobringHead | mboxCmd | mboxStat
  | hdmBase | elogBase | fabricId
  | route (i : Fin 256)
  | linkStat (p : Fin 24)
  | scrubCtl (n : Fin 8)
  | elogHead (n : Fin 8)
  | elogCe (n : Fin 8)
  | elogUe (n : Fin 8)
  | svnFuse
  | elogEntry (n : Fin 8) (i : Fin 512)
  | slotAct (core : Nat) (high : Bool)
  | slotStby (core : Nat) (high : Bool)
  | slotBerr (core : Nat)
  deriving DecidableEq, Repr

/-- A LOAD request: the reply buffer, the object's address in host memory, the job, one constant per slot, and what the Hearth supplies: for
each section by index the address at which it is placed, where there is room, the CRC-32C of a control store image, and the Cellar address
of a new translation-cache entry (R115, R342, R343, R348). -/
structure LoadReq where
  buf : Nat
  obj : Nat
  job : Nat
  consts : List Word
  place : List (Option Nat)
  crc : Nat
  cacheAt : Nat
  deriving DecidableEq, Repr

/-- The number of an entry of a table or list of State, or a package core index. -/
abbrev Index := Nat

/-- The instruction set and the device's own operations (spec/opcode_table.json, R75 and the rules it names). -/
inductive Instr where
  -- integer arithmetic (R132 to R134)
  | add (sz : ISize) (d a b : GReg)
  | sub (sz : ISize) (d a b : GReg)
  | mul (sz : ISize) (d a b : GReg)
  | mulh (sz : ISize) (d a b : GReg)
  | and (sz : ISize) (d a b : GReg)
  | or (sz : ISize) (d a b : GReg)
  | xor (sz : ISize) (d a b : GReg)
  | shl (sz : ISize) (d a b : GReg)
  | shr (sz : ISize) (d a b : GReg)
  | sra (sz : ISize) (d a b : GReg)
  | min (sz : ISize) (d a b : GReg)
  | max (sz : ISize) (d a b : GReg)
  | cmp (c : Cond) (d a b : GReg)
  | addi (sz : ISize) (d a : GReg) (imm : BitVec 32)
  | andi (sz : ISize) (d a : GReg) (imm : BitVec 32)
  | ori (sz : ISize) (d a : GReg) (imm : BitVec 32)
  | xori (sz : ISize) (d a : GReg) (imm : BitVec 32)
  | shli (sz : ISize) (d a : GReg) (sh : Fin 64)
  | shri (sz : ISize) (d a : GReg) (sh : Fin 64)
  | srai (sz : ISize) (d a : GReg) (sh : Fin 64)
  | cmpi (c : Cond) (d a : GReg) (imm : BitVec 32)
  | li (d : GReg) (imm : BitVec 32)
  -- control flow (R135, R136)
  | br (c : BCond) (a b : GReg) (off : BitVec 36)
  | call (a : GReg) (off : BitVec 36)
  | jr (a : GReg) (imm : BitVec 32)
  | callr (d a : GReg) (imm : BitVec 32)
  -- loads and stores (R137)
  | ldSp (sz : LdSize) (d : GReg) (m : MemOp)
  | ldAt (sz : LdSize) (acq : Bool) (d : GReg) (m : MemOp)
  | ldRa (sz : LdSize) (acq : Bool) (d : GReg) (m : MemOp)
  | ldCl (sz : LdSize) (acq : Bool) (d : GReg) (m : MemOp)
  | ldHs (sz : LdSize) (acq : Bool) (d : GReg) (m : MemOp)
  | ldPr (sz : LdSize) (acq : Bool) (d : GReg) (m : MemOp)
  | stSp (sz : StSize) (d : GReg) (m : MemOp)
  | stAt (sz : StSize) (ms : Bool) (d : GReg) (m : MemOp)
  | stRa (sz : StSize) (ms : Bool) (d : GReg) (m : MemOp)
  | stCl (sz : StSize) (ms : Bool) (d : GReg) (m : MemOp)
  | stHs (sz : StSize) (ms : Bool) (d : GReg) (m : MemOp)
  | stPr (sz : StSize) (ms : Bool) (d : GReg) (m : MemOp)
  -- atomic operations (R141)
  | amoAdd (spc : Space) (w acq : Bool) (d : GReg) (m : MemOp)
  | amoAnd (spc : Space) (w acq : Bool) (d : GReg) (m : MemOp)
  | amoOr (spc : Space) (w acq : Bool) (d : GReg) (m : MemOp)
  | amoXor (spc : Space) (w acq : Bool) (d : GReg) (m : MemOp)
  | amoMin (spc : Space) (w acq : Bool) (d : GReg) (m : MemOp)
  | amoMax (spc : Space) (w acq : Bool) (d : GReg) (m : MemOp)
  | amoMinu (spc : Space) (w acq : Bool) (d : GReg) (m : MemOp)
  | amoMaxu (spc : Space) (w acq : Bool) (d : GReg) (m : MemOp)
  | amoSwap (spc : Space) (w acq : Bool) (d : GReg) (m : MemOp)
  | amoCas (spc : Space) (w acq : Bool) (d n base : GReg) (disp : BitVec 28)
  -- streams and queues (R143, R145, R146)
  | strmIn (spc : Space) (q : Fin 8) (gi base : GReg) (disp : BitVec 28)
  | strmOut (spc : Space) (ms : Bool) (q : Fin 4) (gi base : GReg) (disp : BitVec 28)
  | strmStop (out : Bool) (q : Fin 8)
  | ldq (spc : Space) (q : Fin 8) (len : Fin 8) (acq : Bool) (m : MemOp)
  | stq (spc : Space) (q : Fin 4) (len : Fin 8) (ms : Bool) (m : MemOp)
  | ldsc (spc : Space) (cnt : Fin 16) (m : MemOp)
  -- synchronisation (R152 to R160)
  | fence (f : FenceFlags) (sc : Scope)
  | afence
  | bar
  | hbind (h : Fin 16) (w : BitVec 8)
  | hpush (h : Fin 16) (q : Option (Fin 4))
  | hpop (h : Fin 16) (q : Option (Fin 8))
  | waitRd (d a : GReg)
  | waitFin (d a : GReg)
  | waitLe (d a b : GReg)
  -- system and micro-forms (R118, R119, R128)
  | done
  | eret
  | rdsr (d : GReg) (n : BitVec 16)
  | wrsr (a : GReg) (n : BitVec 16)
  | icinv (a : GReg) (imm : BitVec 32)
  | trap (code : BitVec 32)
  | layer (kind : Fin 4) (entry : Fin 128)
  | mbr (c : Cond) (a b : GReg) (target : BitVec 13)
  | mloop (a : GReg) (uend : BitVec 13)
  | mbnd (fin : Bool)
  -- prefixes (R73, R74)
  | ximm (value : BitVec 50)
  | stamp (cycle : BitVec 32)
  -- vector floating point (R176)
  | vadd (f : FpBin)
  | vsub (f : FpBin)
  | vmul (f : FpBin)
  | vfma (f : FpFma)
  | vfms (f : FpFma)
  | vfnma (f : FpFma)
  | vdiv (f : FpBin)
  | vmin (f : XTwo)
  | vmax (f : XTwo)
  | vabs (f : XOne)
  | vneg (f : XOne)
  | vsqrt (f : FpUn)
  -- vector integer (R179)
  | viadd (f : IntBin)
  | visub (f : IntBin)
  | vimul (f : IntBin)
  | vimulh (f : IntBin)
  | vimad (f : IntMad)
  | vand (f : XTwo)
  | vor (f : XTwo)
  | vxor (f : XTwo)
  | vshl (f : XTwo)
  | vshr (f : XTwo)
  | vsra (f : XTwo)
  | vimin (f : XTwo)
  | vimax (f : XTwo)
  | viabs (f : IntUn)
  -- compare, select, predicates (R181 to R183)
  | vcmp (g : Fin 16) (ty : ElemTy) (c : VCond) (d : Fin 16) (a b : XOp)
  | vsel (g : Fin 16) (ty : ElemTy) (d : XDst) (a b : XOp) (p : Fin 16)
  | pand (g d a b : Fin 16)
  | por (g d a b : Fin 16)
  | pxor (g d a b : Fin 16)
  | pnot (g d a : Fin 16)
  -- conversions (R185 to R188)
  | vcvt (f : CvtArgs)
  | vcvtw (f : CvtArgs)
  | vcvtn (f : CvtArgs)
  | vdq (f : BlkArgs)
  | vq (f : BlkArgs)
  | srnd (f : SrndArgs)
  -- permutes (R190) and reductions (R191)
  | vperm (f : Perm3)
  | vrot (f : XTwo)
  | vbcast (f : XTwo)
  | vzip (f : PermSel)
  | vunzip (f : PermSel)
  | vslide (f : Perm3)
  | vrsum (f : RedArgs)
  | vrmax (f : RedArgs)
  | vrmin (f : RedArgs)
  | vriadd (f : RedArgs)
  -- special functions (R192)
  | vexp2 (f : FpUn)
  | vlog2 (f : FpUn)
  | vrcp (f : FpUn)
  | vrsqrt (f : FpUn)
  | vsin (f : FpUn)
  | vcos (f : FpUn)
  | vtanh (f : FpUn)
  | vsigm (f : FpUn)
  -- scalar (R194, R195)
  | sadd (f : FpBin)
  | ssub (f : FpBin)
  | smul (f : FpBin)
  | sfma (f : FpFma)
  | smov (f : XOne)
  | scvt (f : ScvtArgs)
  | sli (g : Fin 16) (d : Fin 32) (imm : BitVec 26)
  -- loops and rotation (R170, R171)
  | loop (count : LoopCount) (stages1 : Fin 8) (k1 : Fin 64)
  | rbset (b : Fin 32)
  | rbadv (d : Fin 32)
  | pstage (mask : BitVec 8)
  -- the Cupboard (R172)
  | cbstV (g : Fin 16) (ty : ElemTy) (a : XOp) (off : BitVec 16)
  | cbldV (g : Fin 16) (ty : ElemTy) (d : Fin 64) (off : BitVec 16)
  | cbstS (g : Fin 16) (a : Fin 32) (off : BitVec 16)
  | cbldS (g : Fin 16) (d : Fin 32) (off : BitVec 16)
  -- queue management (R197 to R199)
  | qskip (g : Fin 16) (q : Fin 8) (count : XOp)
  | qcount (g : Fin 16) (d : Fin 32) (q : Fin 12)
  | qflush (g : Fin 16) (d : Option (Fin 32)) (q : Fin 8)
  -- vector immediates (R200, R201)
  | vli (g : Fin 16) (ty : ElemTy) (d : Fin 64) (imm : BitVec 26)
  | vlix (g : Fin 16) (ty : ElemTy) (d : Fin 64) (base step : BitVec 13)
  -- the copy class (spec/11_copy_engine.md)
  | copy (c : ECmd)
  | copyF (c : ECmd)
  | fill (c : ECmd) (w : Fin 4)
  | gather (c : ECmd)
  | scatter (c : ECmd)
  | loft (c : ECmd)
  | reduce (c : ECmd)
  | reduceBin (c : ECmd)
  | migrate (x y w : GReg) (hk : Hatching)
  -- the butterfly class (spec/14_butterfly_instructions.md)
  | bfs (a : BfsArgs)
  | bfa (a : BfaArgs)
  | aclr (x : GReg) (acc : Fin 8) (hk : Hatching)
  | anorm (x : GReg) (acc : Fin 8) (hk : Hatching)
  | adrain (a : AdrainArgs)
  | aload (x : GReg) (n : Fin 64) (m : Fin 4) (acc : Fin 8) (hk : Hatching)
  | sdset (x : GReg) (sd : Fin 8) (hk : Hatching)
  | chdrain (y : GReg) (hk : Hatching)
  | chload (x : GReg) (hk : Hatching)
  | scdrain (y : GReg) (hk : Hatching)
  | scload (x : GReg) (hk : Hatching)
  | scclr (hk : Hatching)
  | mpack (c : ECmd)
  | mgen (x y : GReg) (hk : Hatching) (n : Fin 64) (g : Fin 2) (kc : Fin 4)
  -- the circuit class (R287 to R292)
  | cload (reg : Fin 16) (hk : Hatching)
  | eval (x y : GReg) (reg : Fin 16) (hk : Hatching)
  | pupd (x y : GReg) (hk : Hatching)
  | cewait (x : GReg) (clr : Bool)
  | ceout (x y : GReg) (reg : Fin 16) (mode : Fin 4) (hk : Hatching)
  -- the reshard class (R310, R311)
  | reshard (c : ECmd)
  | rswait (x : GReg)
  | rswaitRecv (x y : GReg)
  -- operations and events of the device, which no word encodes
  | rangeCheckerRelease (store : Bool) (i : Index)
  | accessDataReturn (i : Index)
  | ldqAccess (i : Index)
  | stqItemWrite (q : Fin 4)
  | streamItemFetch (delay : Index)
  | outputStreamWrite (q : Fin 4)
  | memorySideWriteComplete (i : Index)
  | barrierRelease (launch : Index)
  | copyCommandStart (outbound : Bool)
  | copyCommandRetire (outbound : Bool)
  | reduceBinExchange (others : List (Nat × Word × List Nat))
  | pageFetch (page : Index)
  | subTransfer (key gen sender ord : Index) (cells : List (Nat × Byte))
  | subTransferAck (ix : Index)
  | launchStart (graph launch : Index)
  | phaseBoundary (phase : Index) (skip : Bool)
  | differenceRecord (words : List Word)
  | slotStbyWrite (bind : BitVec 128)
  | aging (launch unit : Index)
  | checkpointInterval (job : Index)
  | softErrorReplay (xpipe : Bool)
  | machineCheck (fab : Option Index)
  | translationWalk (i : Index)
  | pageFault (resume : Bool) (repairs : List (Nat × Word))
  | transInv (part : Index) (spc : Space) (base len : Index)
  | prRequest (src part va : Index) (op : PrOp)
  | jobringTail (tail : Word)
  | load (req : LoadReq)
  | cancel (ctr : Index)
  | resync (buf : Index)
  | attest (buf : Index)
  | svnBump (msg sig : List Byte)
  | bbread (buf : Index)
  | partition (buf : Index)
  | release (ctr : Index)
  | tlbinv (part : Index) (spc : Space) (base len : Index)
  | hostMemAccess (addr n : Index) (data : Option (List Byte))
  | flit (port : Index) (bytes : List Byte)
  | linkDown (port : Index)
  | linkTraining (port : Index)
  | scrub (level core addr : Index) (found : Fin 3)
  | boot (image digest sig : List Byte) (svn : Index)
  | registerWrite (r : HostReg) (x : Word)
  | ldscAccess (i : Index)
  | linkReplay (port : Index)
  | instructionDispatch
  | landAt
  | butterflyCommandStart
  | butterflyCommandComplete
  | circuitCommandStart
  | circuitCommandRetire
  | reshardCommandStart
  | reshardCommandRetire
  | completionRaised
  | unitSwitch
  | slotCtlPre
  | slotCtlCancel
  | slotCtlEvict
  | preemptionSave
  | quantumExpiry
  | hatchDeadlock
  | macroNoBoundary
  | job
  | graph
  | phaseEnd
  | jobEnd
  | bbclear
  | thermalThrottle
  | throttleRestore
  | fatalError
  | sidePathCommandComplete
  deriving DecidableEq, Repr

end Sys2Proof
end

