-- ==== Sys2Proof/WellFormed.lean ====
section
/-! DEFINITION. Which instruction terms have an encoding: the checks on field values that R64 to R68, R79 and the
entries make beyond what the types of Sys2Proof.Syntax already say. -/

namespace Sys2Proof

/-- The width of an element in bits (R41, R42, R44, R45, R46). -/
def ElemTy.width : ElemTy → Nat
  | .i4 => 4 | .i8 => 8 | .i16 => 16 | .i32 => 32
  | .n8 => 8 | .n16 => 16 | .n32 => 32
  | .e2m1 => 4 | .e4m3 => 8 | .e5m2 => 8 | .sp2 => 8
  | .h16 => 16 | .bf16 => 16 | .fp32 => 32 | .s16 => 16 | .cx => 64

/-- Types 0 to 6. -/
def ElemTy.isInt : ElemTy → Bool
  | .i4 | .i8 | .i16 | .i32 | .n8 | .n16 | .n32 => true
  | _ => false

/-- Types 0 to 3. -/
def ElemTy.isSigned : ElemTy → Bool
  | .i4 | .i8 | .i16 | .i32 => true
  | _ => false

/-- Types 11 to 13: h16, BF16 and FP32, the types of vector arithmetic (R176). -/
def ElemTy.isFp : ElemTy → Bool
  | .h16 | .bf16 | .fp32 => true
  | _ => false

/-- A source code that the field accepts in type t (R66, R67): with CX no s code and no code 0xB0 to 0xB7. -/
def XOp.ok (t : ElemTy) : XOp → Bool
  | .s _ => t != .cx
  | .k n => !(t == .cx && 48 ≤ n.val && n.val ≤ 55)
  | _ => true

/-- A destination of a vector-class instruction (R66): no s code. -/
def XDst.vec : XDst → Bool
  | .s _ => false
  | _ => true

/-- A destination of a scalar-class instruction (R194): an s or an sq code. -/
def XDst.scalar : XDst → Bool
  | .v _ => false
  | _ => true

/-- The base of a register group of w registers, as a destination (R167). -/
def XDst.group (w : Nat) : XDst → Bool
  | .v n => n.val % w == 0
  | _ => false

/-- The base of a register group of w registers, as a source (R167). -/
def XOp.group (w : Nat) : XOp → Bool
  | .v n => n.val % w == 0
  | _ => false

/-- An amount operand of a permute (R189): an s code or a code from 0x80 to 0x8F. -/
def XOp.amount : XOp → Bool
  | .s _ => true
  | .k n => n.val < 16
  | _ => false

/-- Field C of a rounding form names a random source only under SR (R175). -/
def Rnd.ok (r : Rnd) : Bool := r.rm == .sr || r.src == .v 0

/-- A form that does not round on these types has RM 000: integer arithmetic, and a conversion between integer types (R68, R173;
notes/assumptions/29.md). -/
def Rnd.exactIf (r : Rnd) (int : Bool) : Bool := !int || r.rm == .rne

/-- The hatch binding word of HBIND (R155). -/
def bindingOk (w : BitVec 8) : Bool :=
  let v := w.toNat / 128
  let prod := w.toNat / 16 % 8
  let r := w.toNat / 8 % 2
  let cons := w.toNat % 8
  if v = 0 then w == 0 else r == 0 && prod != 0 && cons != 0 && prod != cons

/-- The type of the entry is one of the integer or floating types that VCMP accepts (R181). -/
def ElemTy.isCmp (t : ElemTy) : Bool := t.isInt || t.isFp

/-- The type codes of the scalar class: i32, n32 and FP32 (R194). -/
def ElemTy.isScalar : ElemTy → Bool
  | .i32 | .n32 | .fp32 => true
  | _ => false

/-- The type codes of SCVT: 2, 3, 5, 6 and 11 to 14 (R194). -/
def ElemTy.isScvt : ElemTy → Bool
  | .i16 | .i32 | .n16 | .n32 | .h16 | .bf16 | .fp32 | .s16 => true
  | _ => false

/-- The narrow formats of VDQ and VQ (R186). -/
def ElemTy.isBlock : ElemTy → Bool
  | .i4 | .i8 | .n8 | .e2m1 | .e4m3 | .e5m2 | .sp2 => true
  | _ => false

/-- The grid formats that SRND accepts for a TYPE (R188). -/
def srndGrid (t g : ElemTy) : Bool :=
  match t with
  | .fp32 => g == .bf16 || g == .h16 || g == .e5m2 || g == .e4m3 || g == .e2m1
  | .bf16 | .h16 => g == .e5m2 || g == .e4m3 || g == .e2m1
  | _ => false

def FpBin.wfV (f : FpBin) : Bool :=
  f.ty.isFp && f.rnd.ok && f.d.vec && f.a.ok f.ty && f.b.ok f.ty
def FpFma.wfV (f : FpFma) : Bool :=
  f.ty.isFp && f.rm != .sr && f.d.vec && f.a.ok f.ty && f.b.ok f.ty && f.c.ok f.ty
def FpUn.wf (f : FpUn) : Bool := f.ty.isFp && f.rnd.ok && f.d.vec && f.a.ok f.ty
/-- SADD, SSUB and SMUL (R194): .SAT for integers only. -/
def FpBin.wfS (f : FpBin) : Bool :=
  f.ty.isScalar && f.rnd.ok && f.rnd.exactIf f.ty.isInt && f.d.scalar && !(f.sat && f.ty == .fp32)
/-- VIADD, VISUB: no .W (R179). -/
def IntBin.wfPlain (f : IntBin) : Bool :=
  f.ty.isInt && !f.wide && f.d.vec && f.a.ok f.ty && f.b.ok f.ty
/-- VIMUL (R179, R167): .W takes types of at most 16 bits, no .SAT and a group of two registers. -/
def IntBin.wfMul (f : IntBin) : Bool :=
  f.ty.isInt && f.a.ok f.ty && f.b.ok f.ty &&
    (if f.wide then f.ty.width ≤ 16 && !f.sat && f.d.group 2 else f.d.vec)
/-- VIMULH: neither modifier (R179). -/
def IntBin.wfMulh (f : IntBin) : Bool := f.wfPlain && !f.sat
def XTwo.wfInt (f : XTwo) : Bool := f.ty.isInt && f.d.vec && f.a.ok f.ty && f.b.ok f.ty
def XTwo.wfFp (f : XTwo) : Bool := f.ty.isFp && f.d.vec && f.a.ok f.ty && f.b.ok f.ty
/-- VROT and VBCAST: B is an amount (R189). -/
def XTwo.wfAmt (f : XTwo) : Bool := f.d.vec && f.a.ok f.ty && f.b.amount
/-- VCVT: one width, two types (R185). -/
def CvtArgs.wfSame (f : CvtArgs) : Bool :=
  f.ty != f.src && f.ty.width == f.src.width && !f.log && f.rnd.ok && f.rnd.exactIf (f.ty.isInt && f.src.isInt) && f.d.vec && f.a.ok f.src
/-- VCVTW: a result of two or four times the width, in a group (R185). -/
def CvtArgs.wfWide (f : CvtArgs) : Bool :=
  (f.ty.width == 2 * f.src.width || f.ty.width == 4 * f.src.width) && !f.log && f.rnd.ok && f.rnd.exactIf (f.ty.isInt && f.src.isInt) &&
    f.d.group (f.ty.width / f.src.width) && f.a.ok f.src
/-- VCVTN: a source group of two or four registers; .LOG only from CX to FP32 (R185). -/
def CvtArgs.wfNarrow (f : CvtArgs) : Bool :=
  (f.src.width == 2 * f.ty.width || f.src.width == 4 * f.ty.width) && f.rnd.ok && f.rnd.exactIf (f.ty.isInt && f.src.isInt) && f.d.vec &&
    f.a.group (f.src.width / f.ty.width) && (!f.log || (f.src == .cx && f.ty == .fp32))
/-- VDQ (R186). -/
def BlkArgs.wfDq (f : BlkArgs) : Bool :=
  f.src.isBlock && f.ty.isFp && f.blk.val < 3 && f.rnd.ok &&
    (f.ty.width == 2 * f.src.width || f.ty.width == 4 * f.src.width) &&
    f.d.group (f.ty.width / f.src.width) && f.a.ok f.src && f.b.ok .s16
/-- VQ (R187). -/
def BlkArgs.wfQ (f : BlkArgs) : Bool :=
  f.src.isFp && f.ty.isBlock && f.blk.val < 3 && f.rnd.ok &&
    (f.src.width == 2 * f.ty.width || f.src.width == 4 * f.ty.width) &&
    f.d.vec && f.a.group (f.src.width / f.ty.width) && f.b.ok .s16
def SrndArgs.wf (f : SrndArgs) : Bool := srndGrid f.ty f.grid && f.d.vec && f.a.ok f.ty
/-- VPERM: no 4-bit elements, and C only for 8-bit ones (R190). -/
def Perm3.wfPerm (f : Perm3) : Bool :=
  f.ty.width != 4 && f.d.vec && f.a.ok f.ty && (f.ty.width == 8 || f.c == .v 0)
def Perm3.wfSlide (f : Perm3) : Bool := f.d.vec && f.a.ok f.ty && f.b.ok f.ty && f.c.amount
def PermSel.wf (f : PermSel) : Bool := f.d.vec && f.a.ok f.ty && f.b.ok f.ty
def RedArgs.wfSum (f : RedArgs) : Bool := f.ty.isFp && f.rm != .sr && !f.sat
def RedArgs.wfExt (f : RedArgs) : Bool :=
  ((f.ty.isInt && f.ty != .i4) || f.ty.isFp) && f.rm == .rne && !f.sat
def RedArgs.wfIadd (f : RedArgs) : Bool := f.ty.isInt && f.rm == .rne
def ScvtArgs.wf (f : ScvtArgs) : Bool :=
  f.ty.isScvt && f.src.isScvt && f.ty != f.src && f.rnd.ok && f.rnd.exactIf (f.ty.isInt && f.src.isInt) && f.d.scalar
/-- N and M of a command that uses them (R64). -/
def tileOk (n : Fin 64) (m : Fin 4) : Bool := n.val != 0 && m.val != 3
/-- A field that names a pair of registers is even (R205, R242). -/
def evenReg (r : GReg) : Bool := r.val % 2 == 0

/-- gW and gZ of COPY and REDUCE name pairs (R205). -/
def ECmd.pairs (c : ECmd) : Bool := evenReg c.w && evenReg c.z

/-- BFS (R248): the registers that a role requires to name g0. -/
def BfsArgs.wf (a : BfsArgs) : Bool :=
  tileOk a.n a.m && evenReg a.e.z &&
    (!(a.role.val == 2 || a.role.val == 3) || (a.e.x == 0 && !a.t)) &&
    (!(a.role.val == 1 || a.role.val == 2) || a.e.y == 0)
def BfaArgs.wf (a : BfaArgs) : Bool := tileOk a.n a.m && evenReg a.z
def AdrainArgs.wf (a : AdrainArgs) : Bool := tileOk a.n a.m && (!a.raw || (!a.sat && a.rm == .rne))

/-- The field values of the instruction are ones that its entry accepts (R79). The device's own events have no word and
no such check. -/
def Instr.wf : Instr → Bool
  | .add _ _ _ _ => true
  | .sub _ _ _ _ => true
  | .mul _ _ _ _ => true
  | .mulh _ _ _ _ => true
  | .and _ _ _ _ => true
  | .or _ _ _ _ => true
  | .xor _ _ _ _ => true
  | .shl _ _ _ _ => true
  | .shr _ _ _ _ => true
  | .sra _ _ _ _ => true
  | .min _ _ _ _ => true
  | .max _ _ _ _ => true
  | .cmp _ _ _ _ => true
  | .addi _ _ _ _ => true
  | .andi _ _ _ _ => true
  | .ori _ _ _ _ => true
  | .xori _ _ _ _ => true
  | .shli sz _ _ sh => sz == .d || sh.val < 32
  | .shri sz _ _ sh => sz == .d || sh.val < 32
  | .srai sz _ _ sh => sz == .d || sh.val < 32
  | .cmpi _ _ _ _ => true
  | .li _ _ => true
  | .br c a b _ => c != .always || (a == 0 && b == 0)
  | .call _ _ => true
  | .jr _ _ => true
  | .callr _ _ _ => true
  | .ldSp _ _ _ => true
  | .ldAt _ _ _ _ => true
  | .ldRa _ _ _ _ => true
  | .ldCl _ _ _ _ => true
  | .ldHs _ _ _ _ => true
  | .ldPr _ _ _ _ => true
  | .stSp _ _ _ => true
  | .stAt _ _ _ _ => true
  | .stRa _ _ _ _ => true
  | .stCl _ _ _ _ => true
  | .stHs _ _ _ _ => true
  | .stPr _ _ _ _ => true
  | .amoAdd spc _ _ _ _ => spc != .sp
  | .amoAnd spc _ _ _ _ => spc != .sp
  | .amoOr spc _ _ _ _ => spc != .sp
  | .amoXor spc _ _ _ _ => spc != .sp
  | .amoMin spc _ _ _ _ => spc != .sp
  | .amoMax spc _ _ _ _ => spc != .sp
  | .amoMinu spc _ _ _ _ => spc != .sp
  | .amoMaxu spc _ _ _ _ => spc != .sp
  | .amoSwap spc _ _ _ _ => spc != .sp
  | .amoCas spc _ _ _ _ _ _ => spc != .sp
  | .strmIn _ _ gi _ _ => gi.val % 2 == 0 && gi != 0
  | .strmOut spc ms _ gi _ _ => gi.val % 2 == 0 && gi != 0 && !(spc == .sp && ms)
  | .strmStop out q => !out || q.val < 4
  | .ldq spc _ _ acq _ => !(spc == .sp && acq)
  | .stq spc _ _ ms _ => !(spc == .sp && ms)
  | .ldsc spc _ _ => spc == .sp || spc == .at || spc == .cl
  | .fence _ _ => true
  | .afence => true
  | .bar => true
  | .hbind _ w => bindingOk w
  | .hpush _ _ => true
  | .hpop _ _ => true
  | .waitRd _ _ => true
  | .waitFin _ _ => true
  | .waitLe _ _ _ => true
  | .done => true
  | .eret => true
  | .rdsr _ _ => true
  | .wrsr _ _ => true
  | .icinv _ _ => true
  | .trap _ => true
  | .layer _ _ => true
  | .mbr _ _ _ _ => true
  | .mloop _ _ => true
  | .mbnd _ => true
  | .ximm _ => true
  | .stamp _ => true
  | .vadd f => f.wfV
  | .vsub f => f.wfV
  | .vmul f => f.wfV
  | .vdiv f => f.wfV
  | .vfma f => f.wfV
  | .vfms f => f.wfV
  | .vfnma f => f.wfV
  | .vmin f => f.wfFp
  | .vmax f => f.wfFp
  | .vabs f => f.ty.isFp && f.d.vec && f.a.ok f.ty
  | .vneg f => f.ty.isFp && f.d.vec && f.a.ok f.ty
  | .vsqrt f => f.wf
  | .viadd f => f.wfPlain
  | .visub f => f.wfPlain
  | .vimul f => f.wfMul
  | .vimulh f => f.wfMulh
  | .vimad f => f.ty.isInt && f.d.vec && f.a.ok f.ty && f.b.ok f.ty && f.c.ok f.ty
  | .vand f => f.wfInt
  | .vor f => f.wfInt
  | .vxor f => f.wfInt
  | .vshl f => f.wfInt
  | .vshr f => f.wfInt
  | .vsra f => f.wfInt
  | .vimin f => f.wfInt
  | .vimax f => f.wfInt
  | .viabs f => f.ty.isSigned && f.d.vec && f.a.ok f.ty
  | .vcmp _ ty c _ a b => ty.isCmp && !(c == .un && ty.isInt) && a.ok ty && b.ok ty
  | .vsel _ ty d a b _ => d.vec && a.ok ty && b.ok ty
  | .pand _ _ _ _ => true
  | .por _ _ _ _ => true
  | .pxor _ _ _ _ => true
  | .pnot _ _ _ => true
  | .vcvt f => f.wfSame
  | .vcvtw f => f.wfWide
  | .vcvtn f => f.wfNarrow
  | .vdq f => f.wfDq
  | .vq f => f.wfQ
  | .srnd f => f.wf
  | .vperm f => f.wfPerm
  | .vrot f => f.wfAmt
  | .vbcast f => f.wfAmt
  | .vzip f => f.wf
  | .vunzip f => f.wf
  | .vslide f => f.wfSlide
  | .vrsum f => f.wfSum && f.a.ok f.ty && f.b.ok f.ty
  | .vrmax f => f.wfExt
  | .vrmin f => f.wfExt
  | .vriadd f => f.wfIadd
  | .vexp2 f => f.wf
  | .vlog2 f => f.wf
  | .vrcp f => f.wf
  | .vrsqrt f => f.wf
  | .vsin f => f.wf
  | .vcos f => f.wf
  | .vtanh f => f.wf
  | .vsigm f => f.wf
  | .sadd f => f.wfS
  | .ssub f => f.wfS
  | .smul f => f.wfS
  | .sfma f => f.ty == .fp32 && f.rm != .sr && !f.sat && f.d.scalar
  | .smov f => f.ty.isScalar && f.d.scalar
  | .scvt f => f.wf
  | .sli _ _ _ => true
  | .loop _ _ _ => true
  | .rbset _ => true
  | .rbadv _ => true
  | .pstage _ => true
  | .cbstV _ ty a off => off.toNat % 512 == 0 && a.ok ty
  | .cbldV _ _ _ off => off.toNat % 512 == 0
  | .cbstS _ _ off => off.toNat % 4 == 0
  | .cbldS _ _ off => off.toNat % 4 == 0
  | .qskip _ _ c => match c with | .s _ => true | .k n => n.val ≤ 16 | _ => false
  | .qcount _ _ _ => true
  | .qflush _ _ _ => true
  | .vli _ _ _ _ => true
  | .vlix _ ty _ _ _ => ty.isInt
  | .copy c => c.pairs
  | .copyF c => c.pairs
  | .fill _ _ => true
  | .gather _ => true
  | .scatter _ => true
  | .loft _ => true
  | .reduce c => c.pairs
  | .reduceBin _ => true
  | .migrate _ _ _ _ => true
  | .bfs a => a.wf
  | .bfa a => a.wf
  | .aclr _ _ _ => true
  | .anorm _ _ _ => true
  | .adrain a => a.wf
  | .aload _ n m _ _ => tileOk n m
  | .sdset _ _ _ => true
  | .chdrain _ _ => true
  | .chload _ _ => true
  | .scdrain _ _ => true
  | .scload _ _ => true
  | .scclr _ => true
  | .mpack _ => true
  | .mgen _ _ _ n _ kc => n.val != 0 && kc.val != 3
  | .cload _ _ => true
  | .eval _ _ _ _ => true
  | .pupd _ _ _ => true
  | .cewait _ _ => true
  | .ceout _ _ _ mode _ => mode.val != 3
  | .reshard _ => true
  | .rswait _ => true
  | .rswaitRecv _ _ => true
  | .instructionDispatch => true
  | .rangeCheckerRelease _ _ => true
  | .landAt => true
  | .accessDataReturn _ => true
  | .ldqAccess _ => true
  | .stqItemWrite _ => true
  | .streamItemFetch _ => true
  | .outputStreamWrite _ => true
  | .memorySideWriteComplete _ => true
  | .barrierRelease _ => true
  | .copyCommandStart _ => true
  | .copyCommandRetire _ => true
  | .reduceBinExchange _ => true
  | .butterflyCommandStart => true
  | .butterflyCommandComplete => true
  | .circuitCommandStart => true
  | .circuitCommandRetire => true
  | .pageFetch _ => true
  | .reshardCommandStart => true
  | .reshardCommandRetire => true
  | .subTransfer _ _ _ _ _ => true
  | .subTransferAck _ => true
  | .completionRaised => true
  | .launchStart _ _ => true
  | .phaseBoundary _ _ => true
  | .unitSwitch => true
  | .differenceRecord _ => true
  | .slotStbyWrite _ => true
  | .slotCtlPre => true
  | .slotCtlCancel => true
  | .slotCtlEvict => true
  | .preemptionSave => true
  | .quantumExpiry => true
  | .aging _ _ => true
  | .checkpointInterval _ => true
  | .hatchDeadlock => true
  | .macroNoBoundary => true
  | .softErrorReplay _ => true
  | .machineCheck _ => true
  | .translationWalk _ => true
  | .pageFault _ _ => true
  | .transInv _ _ _ _ => true
  | .prRequest _ _ _ _ => true
  | .jobringTail _ => true
  | .job => true
  | .graph => true
  | .phaseEnd => true
  | .jobEnd => true
  | .load _ => true
  | .cancel _ => true
  | .resync _ => true
  | .attest _ => true
  | .svnBump _ _ => true
  | .bbread _ => true
  | .bbclear => true
  | .partition _ => true
  | .release _ => true
  | .tlbinv _ _ _ _ => true
  | .hostMemAccess _ _ _ => true
  | .flit _ _ => true
  | .linkDown _ => true
  | .linkTraining _ => true
  | .scrub _ _ _ _ => true
  | .thermalThrottle => true
  | .throttleRestore => true
  | .fatalError => true
  | .boot _ _ _ _ => true
  | .registerWrite _ _ => true
  | .ldscAccess _ => true
  | .linkReplay _ => true
  | .sidePathCommandComplete => true

end Sys2Proof
end

