-- ==== Sys2Proof/Decode.lean ====
section
/-! DEFINITION. From bytes to instructions and back (spec/04_encoding.md). A word is read as a natural number below
2^64; `Instr.word` places the fields of every instruction (R64, R75 and each entry), `parse` takes them out again, and
`decodeWord` accepts a word only when the fields fit the entry and every other bit is zero (R79, R368). -/

namespace Sys2Proof

/-- Why a word or a group is not an instruction; each is the precise ILLEGAL of R70, R79 or R170. -/
inductive DecodeErr where
  /-- a reserved major opcode (R79) -/
  | reservedMajor
  /-- a minor not listed for its major (R75) -/
  | unlistedMinor
  /-- a field value that the entry does not accept: operand, type, rounding, condition, SZ, M or N code (R79) -/
  | badField
  /-- a nonzero must-be-zero field (R64, R79) -/
  | mustBeZero
  /-- a prefix or COPY.F before a word that it may not govern (R70) -/
  | badGroup
  /-- fewer than eight bytes are left -/
  | short
  deriving DecidableEq, Repr

/-- Bits [lo+n-1 : lo] of a number. -/
def fld (w lo n : Nat) : Nat := w / 2 ^ lo % 2 ^ n

def Bool.bit (b : Bool) : Nat := if b then 1 else 0

/-! ### Codes of the field types -/

/-- The type code of R41 to R46. -/
def ElemTy.code : ElemTy → Nat
  | .i4 => 0 | .i8 => 1 | .i16 => 2 | .i32 => 3 | .n8 => 4 | .n16 => 5 | .n32 => 6 | .e2m1 => 7
  | .e4m3 => 8 | .e5m2 => 9 | .sp2 => 10 | .h16 => 11 | .bf16 => 12 | .fp32 => 13 | .s16 => 14 | .cx => 15

/-- The type of a 4-bit code; every code is a type. -/
def ElemTy.ofCode : Nat → ElemTy
  | 0 => .i4 | 1 => .i8 | 2 => .i16 | 3 => .i32 | 4 => .n8 | 5 => .n16 | 6 => .n32 | 7 => .e2m1
  | 8 => .e4m3 | 9 => .e5m2 | 10 => .sp2 | 11 => .h16 | 12 => .bf16 | 13 => .fp32 | 14 => .s16 | _ => .cx

/-- The RM code of R48. -/
def RM.code : RM → Nat
  | .rne => 0 | .rtz => 1 | .rup => 2 | .rdn => 3 | .rna => 4 | .rto => 5 | .sr => 6 | .dyn => 7

/-- The mode of a 3-bit RM code. -/
def RM.ofCode : Nat → RM
  | 0 => .rne | 1 => .rtz | 2 => .rup | 3 => .rdn | 4 => .rna | 5 => .rto | 6 => .sr | _ => .dyn

/-- The space number of R76. -/
def Space.code : Space → Nat
  | .sp => 0 | .at => 1 | .ra => 2 | .cl => 3 | .hs => 4 | .pr => 5

/-- The space of a number; 6 and 7 are none. -/
def Space.ofCode : Nat → Option Space
  | 0 => some .sp | 1 => some .at | 2 => some .ra | 3 => some .cl | 4 => some .hs | 5 => some .pr | _ => none

def ISize.code : ISize → Nat
  | .d => 0 | .w => 1

def ISize.ofCode : Nat → Option ISize
  | 0 => some .d | 1 => some .w | _ => none

/-- The condition codes of the SZ column of R65. -/
def Cond.code : Cond → Nat
  | .eq => 0 | .ne => 1 | .lt => 2 | .ge => 3 | .ltu => 4 | .geu => 5

def Cond.ofCode : Nat → Option Cond
  | 0 => some .eq | 1 => some .ne | 2 => some .lt | 3 => some .ge | 4 => some .ltu | 5 => some .geu | _ => none

/-- The condition codes of the COND column of R65. -/
def BCond.code : BCond → Nat
  | .always => 0 | .cmp c => c.code + 1

def BCond.ofCode : Nat → Option BCond
  | 0 => some .always
  | n + 1 => (Cond.ofCode n).map .cmp

def LdSize.code : LdSize → Nat
  | .b => 0 | .bu => 1 | .h => 2 | .hu => 3 | .w => 4 | .wu => 5 | .d => 6

def LdSize.ofCode : Nat → Option LdSize
  | 0 => some .b | 1 => some .bu | 2 => some .h | 3 => some .hu | 4 => some .w | 5 => some .wu | 6 => some .d
  | _ => none

def StSize.code : StSize → Nat
  | .b => 0 | .h => 2 | .w => 4 | .d => 6

def StSize.ofCode : Nat → Option StSize
  | 0 => some .b | 2 => some .h | 4 => some .w | 6 => some .d | _ => none

def VCond.code : VCond → Nat
  | .eq => 0 | .ne => 1 | .lt => 2 | .le => 3 | .gt => 4 | .ge => 5 | .un => 6

def VCond.ofCode : Nat → Option VCond
  | 0 => some .eq | 1 => some .ne | 2 => some .lt | 3 => some .le | 4 => some .gt | 5 => some .ge | 6 => some .un
  | _ => none

def Scope.code : Scope → Nat
  | .core => 0 | .die => 1 | .dev => 2 | .sys => 3

def Scope.ofCode : Nat → Scope
  | 0 => .core | 1 => .die | 2 => .dev | _ => .sys

/-- imm32[5:0] of FENCE (R152). -/
def FenceFlags.code (f : FenceFlags) : Nat :=
  Bool.bit f.v + 2 * Bool.bit f.h + 4 * Bool.bit f.cl + 8 * Bool.bit f.hs + 16 * Bool.bit f.pr + 32 * Bool.bit f.e

def bitAt (w i : Nat) : Bool := fld w i 1 == 1

def FenceFlags.ofCode (n : Nat) : FenceFlags :=
  ⟨bitAt n 0, bitAt n 1, bitAt n 2, bitAt n 3, bitAt n 4, bitAt n 5⟩

/-- The source operand codes of R66. -/
def XOp.code : XOp → Nat
  | .v n => n.val | .pop q => 64 + q.val | .peek q => 72 + q.val | .s n => 96 + n.val | .k n => 128 + n.val

/-- The source that an operand code names; the reserved and the destination codes name none (R66, R67). -/
def XOp.ofCode (c : Nat) : Option XOp :=
  if c < 64 then some (.v (Fin.ofNat 64 c))
  else if c < 72 then some (.pop (Fin.ofNat 8 (c - 64)))
  else if c < 80 then some (.peek (Fin.ofNat 8 (c - 72)))
  else if c < 96 then none
  else if c < 128 then some (.s (Fin.ofNat 32 (c - 96)))
  else if c < 187 then some (.k (Fin.ofNat 59 (c - 128)))
  else none

/-- The destination operand codes of R66. -/
def XDst.code : XDst → Nat
  | .v n => n.val | .sq q => 80 + q.val | .s n => 96 + n.val

def XDst.ofCode (c : Nat) : Option XDst :=
  if c < 64 then some (.v (Fin.ofNat 64 c))
  else if c < 80 then none
  else if c < 84 then some (.sq (Fin.ofNat 4 (c - 80)))
  else if c < 96 then none
  else if c < 128 then some (.s (Fin.ofNat 32 (c - 96)))
  else none

/-! ### The formats of R64 -/

/-- MAJ and MIN (R62). -/
def opc (maj min : Nat) : Nat := maj * 2 ^ 58 + min * 2 ^ 50
def fmtA3 (maj min d a b sz imm : Nat) : Nat :=
  opc maj min + d * 2 ^ 45 + a * 2 ^ 40 + b * 2 ^ 35 + sz * 2 ^ 32 + imm
def fmtAM (maj min d base idx sc md disp : Nat) : Nat :=
  opc maj min + d * 2 ^ 45 + base * 2 ^ 40 + idx * 2 ^ 35 + sc * 2 ^ 33 + md * 2 ^ 28 + disp
def fmtAB (maj min a b cond off : Nat) : Nat :=
  opc maj min + a * 2 ^ 45 + b * 2 ^ 40 + cond * 2 ^ 36 + off
def fmtXV (maj min g ty rm d a b c xmod : Nat) : Nat :=
  opc maj min + g * 2 ^ 46 + ty * 2 ^ 42 + rm * 2 ^ 39 + d * 2 ^ 31 + a * 2 ^ 23 + b * 2 ^ 15 + c * 2 ^ 7 + xmod
def fmtXI (maj min g ty d a imm : Nat) : Nat :=
  opc maj min + g * 2 ^ 46 + ty * 2 ^ 42 + d * 2 ^ 34 + a * 2 ^ 26 + imm
/-- PUSH.EN, PUSH.H, POP.EN and POP.H, bits [15:6] of format E. -/
def Hatching.code (h : Hatching) : Nat :=
  (match h.push with | some n => 2 ^ 15 + n.val * 2 ^ 11 | none => 0) +
  (match h.pop with | some n => 2 ^ 10 + n.val * 2 ^ 6 | none => 0)
def fmtE (maj min x y w z n m sd acc : Nat) (hk : Hatching) (flags : Nat) : Nat :=
  opc maj min + x * 2 ^ 45 + y * 2 ^ 40 + w * 2 ^ 35 + z * 2 ^ 30 + n * 2 ^ 24 + m * 2 ^ 22 + sd * 2 ^ 19 +
    acc * 2 ^ 16 + hk.code + flags
def fmtP (maj min payload : Nat) : Nat := opc maj min + payload
/-- A memory operand in format AM with a modifier bit at [28] and a field at [31:29]. -/
def MemOp.am (m : MemOp) (maj min d md : Nat) : Nat :=
  fmtAM maj min d m.base.val m.idx.val m.sc.val md m.disp.toNat
def ECmd.e (c : ECmd) (maj min flags : Nat) : Nat :=
  fmtE maj min c.x.val c.y.val c.w.val c.z.val 0 0 0 0 c.hk flags
/-- The word of an instruction, its fields placed by R64, R75 and its entry. An event of the device has no word: 0, which
is the word of no instruction (R79). -/
def Instr.word : Instr → Nat
  | .add sz d a b => fmtA3 0x01 0x00 d.val a.val b.val sz.code 0
  | .sub sz d a b => fmtA3 0x01 0x01 d.val a.val b.val sz.code 0
  | .mul sz d a b => fmtA3 0x01 0x02 d.val a.val b.val sz.code 0
  | .mulh sz d a b => fmtA3 0x01 0x03 d.val a.val b.val sz.code 0
  | .and sz d a b => fmtA3 0x01 0x04 d.val a.val b.val sz.code 0
  | .or sz d a b => fmtA3 0x01 0x05 d.val a.val b.val sz.code 0
  | .xor sz d a b => fmtA3 0x01 0x06 d.val a.val b.val sz.code 0
  | .shl sz d a b => fmtA3 0x01 0x07 d.val a.val b.val sz.code 0
  | .shr sz d a b => fmtA3 0x01 0x08 d.val a.val b.val sz.code 0
  | .sra sz d a b => fmtA3 0x01 0x09 d.val a.val b.val sz.code 0
  | .min sz d a b => fmtA3 0x01 0x0a d.val a.val b.val sz.code 0
  | .max sz d a b => fmtA3 0x01 0x0b d.val a.val b.val sz.code 0
  | .cmp c d a b => fmtA3 0x01 0x0C d.val a.val b.val c.code 0
  | .addi sz d a imm => fmtA3 0x02 0x00 d.val a.val 0 sz.code imm.toNat
  | .andi sz d a imm => fmtA3 0x02 0x04 d.val a.val 0 sz.code imm.toNat
  | .ori sz d a imm => fmtA3 0x02 0x05 d.val a.val 0 sz.code imm.toNat
  | .xori sz d a imm => fmtA3 0x02 0x06 d.val a.val 0 sz.code imm.toNat
  | .shli sz d a sh => fmtA3 0x02 0x07 d.val a.val 0 sz.code sh.val
  | .shri sz d a sh => fmtA3 0x02 0x08 d.val a.val 0 sz.code sh.val
  | .srai sz d a sh => fmtA3 0x02 0x09 d.val a.val 0 sz.code sh.val
  | .cmpi c d a imm => fmtA3 0x02 0x0C d.val a.val 0 c.code imm.toNat
  | .li d imm => fmtA3 0x02 0x10 d.val 0 0 0 imm.toNat
  | .br c a b off => fmtAB 0x03 0x00 a.val b.val c.code off.toNat
  | .call a off => fmtAB 0x04 0x00 a.val 0 0 off.toNat
  | .jr a imm => fmtA3 0x04 0x01 0 a.val 0 0 imm.toNat
  | .callr d a imm => fmtA3 0x04 0x02 d.val a.val 0 0 imm.toNat
  | .ldSp sz d m => m.am 0x05 sz.code d.val 0
  | .ldAt sz acq d m => m.am 0x07 sz.code d.val (Bool.bit acq)
  | .ldRa sz acq d m => m.am 0x09 sz.code d.val (Bool.bit acq)
  | .ldCl sz acq d m => m.am 0x0b sz.code d.val (Bool.bit acq)
  | .ldHs sz acq d m => m.am 0x0d sz.code d.val (Bool.bit acq)
  | .ldPr sz acq d m => m.am 0x0f sz.code d.val (Bool.bit acq)
  | .stSp sz d m => m.am 0x06 sz.code d.val 0
  | .stAt sz ms d m => m.am 0x08 sz.code d.val (Bool.bit ms)
  | .stRa sz ms d m => m.am 0x0a sz.code d.val (Bool.bit ms)
  | .stCl sz ms d m => m.am 0x0c sz.code d.val (Bool.bit ms)
  | .stHs sz ms d m => m.am 0x0e sz.code d.val (Bool.bit ms)
  | .stPr sz ms d m => m.am 0x10 sz.code d.val (Bool.bit ms)
  | .amoAdd spc w acq d m => m.am 0x11 (16 * spc.code + 0) d.val (Bool.bit acq + 2 * Bool.bit w)
  | .amoAnd spc w acq d m => m.am 0x11 (16 * spc.code + 1) d.val (Bool.bit acq + 2 * Bool.bit w)
  | .amoOr spc w acq d m => m.am 0x11 (16 * spc.code + 2) d.val (Bool.bit acq + 2 * Bool.bit w)
  | .amoXor spc w acq d m => m.am 0x11 (16 * spc.code + 3) d.val (Bool.bit acq + 2 * Bool.bit w)
  | .amoMin spc w acq d m => m.am 0x11 (16 * spc.code + 4) d.val (Bool.bit acq + 2 * Bool.bit w)
  | .amoMax spc w acq d m => m.am 0x11 (16 * spc.code + 5) d.val (Bool.bit acq + 2 * Bool.bit w)
  | .amoMinu spc w acq d m => m.am 0x11 (16 * spc.code + 6) d.val (Bool.bit acq + 2 * Bool.bit w)
  | .amoMaxu spc w acq d m => m.am 0x11 (16 * spc.code + 7) d.val (Bool.bit acq + 2 * Bool.bit w)
  | .amoSwap spc w acq d m => m.am 0x11 (16 * spc.code + 8) d.val (Bool.bit acq + 2 * Bool.bit w)
  | .amoCas spc w acq d n base disp => fmtAM 0x11 (16 * spc.code + 9) d.val base.val n.val 0 (Bool.bit acq + 2 * Bool.bit w) disp.toNat
  | .strmIn spc q gi base disp => fmtAM 0x12 spc.code q.val base.val gi.val 0 0 disp.toNat
  | .strmOut spc ms q gi base disp => fmtAM 0x12 (8 + spc.code) q.val base.val gi.val 0 (Bool.bit ms) disp.toNat
  | .strmStop out q => fmtAM 0x12 0x10 q.val 0 0 0 (Bool.bit out) 0
  | .ldq spc q len acq m => m.am 0x13 spc.code q.val (Bool.bit acq + 2 * len.val)
  | .stq spc q len ms m => m.am 0x13 (8 + spc.code) q.val (Bool.bit ms + 2 * len.val)
  | .ldsc spc cnt m => m.am 0x13 (16 + spc.code) cnt.val 0
  | .fence f sc => fmtA3 0x14 0x00 0 0 0 0 (f.code + sc.code * 2 ^ 8)
  | .afence => fmtA3 0x14 0x01 0 0 0 0 0
  | .bar => fmtA3 0x14 0x02 0 0 0 0 0
  | .hbind h w => fmtA3 0x14 0x03 0 0 0 0 (h.val * 2 ^ 12 + w.toNat)
  | .hpush h q => fmtA3 0x14 0x04 0 0 0 0 (h.val + match q with | some i => 2 ^ 8 + i.val * 2 ^ 4 | none => 0)
  | .hpop h q => fmtA3 0x14 0x05 0 0 0 0 (h.val + match q with | some i => 2 ^ 8 + i.val * 2 ^ 4 | none => 0)
  | .waitRd d a => fmtA3 0x14 0x06 d.val a.val 0 0 0
  | .waitFin d a => fmtA3 0x14 0x06 d.val a.val 0 0 1
  | .waitLe d a b => fmtA3 0x14 0x06 d.val a.val b.val 0 2
  | .done => fmtA3 0x15 0x00 0 0 0 0 0
  | .eret => fmtA3 0x15 0x01 0 0 0 0 0
  | .rdsr d n => fmtA3 0x15 0x02 d.val 0 0 0 n.toNat
  | .wrsr a n => fmtA3 0x15 0x03 0 a.val 0 0 n.toNat
  | .icinv a imm => fmtA3 0x15 0x04 0 a.val 0 0 imm.toNat
  | .trap code => fmtA3 0x15 0x05 0 0 0 0 code.toNat
  | .layer kind entry => fmtA3 0x16 0x00 0 0 0 kind.val entry.val
  | .mbr c a b target => fmtA3 0x16 0x01 0 a.val b.val c.code target.toNat
  | .mloop a uend => fmtA3 0x16 0x02 0 a.val 0 0 uend.toNat
  | .mbnd fin => fmtA3 0x16 0x03 0 0 0 0 (Bool.bit fin)
  | .ximm value => fmtP 0x17 0x00 value.toNat
  | .stamp cycle => fmtP 0x17 0x01 (cycle.toNat * 2 ^ 18)
  | .vadd f => fmtXV 0x20 0x00 f.g.val f.ty.code f.rnd.rm.code f.d.code f.a.code f.b.code f.rnd.src.code (Bool.bit f.sat * 64)
  | .vsub f => fmtXV 0x20 0x01 f.g.val f.ty.code f.rnd.rm.code f.d.code f.a.code f.b.code f.rnd.src.code (Bool.bit f.sat * 64)
  | .vmul f => fmtXV 0x20 0x02 f.g.val f.ty.code f.rnd.rm.code f.d.code f.a.code f.b.code f.rnd.src.code (Bool.bit f.sat * 64)
  | .vfma f => fmtXV 0x20 0x03 f.g.val f.ty.code f.rm.code f.d.code f.a.code f.b.code f.c.code (Bool.bit f.sat * 64)
  | .vfms f => fmtXV 0x20 0x04 f.g.val f.ty.code f.rm.code f.d.code f.a.code f.b.code f.c.code (Bool.bit f.sat * 64)
  | .vfnma f => fmtXV 0x20 0x05 f.g.val f.ty.code f.rm.code f.d.code f.a.code f.b.code f.c.code (Bool.bit f.sat * 64)
  | .vdiv f => fmtXV 0x20 0x06 f.g.val f.ty.code f.rnd.rm.code f.d.code f.a.code f.b.code f.rnd.src.code (Bool.bit f.sat * 64)
  | .vmin f => fmtXV 0x20 0x07 f.g.val f.ty.code 0 f.d.code f.a.code f.b.code 0 0
  | .vmax f => fmtXV 0x20 0x08 f.g.val f.ty.code 0 f.d.code f.a.code f.b.code 0 0
  | .vabs f => fmtXV 0x20 0x09 f.g.val f.ty.code 0 f.d.code f.a.code 0 0 0
  | .vneg f => fmtXV 0x20 0x0a f.g.val f.ty.code 0 f.d.code f.a.code 0 0 0
  | .vsqrt f => fmtXV 0x20 0x0b f.g.val f.ty.code f.rnd.rm.code f.d.code f.a.code 0 f.rnd.src.code (Bool.bit f.sat * 64)
  | .viadd f => fmtXV 0x21 0x00 f.g.val f.ty.code 0 f.d.code f.a.code f.b.code 0 (Bool.bit f.sat * 64 + Bool.bit f.wide)
  | .visub f => fmtXV 0x21 0x01 f.g.val f.ty.code 0 f.d.code f.a.code f.b.code 0 (Bool.bit f.sat * 64 + Bool.bit f.wide)
  | .vimul f => fmtXV 0x21 0x02 f.g.val f.ty.code 0 f.d.code f.a.code f.b.code 0 (Bool.bit f.sat * 64 + Bool.bit f.wide)
  | .vimulh f => fmtXV 0x21 0x03 f.g.val f.ty.code 0 f.d.code f.a.code f.b.code 0 (Bool.bit f.sat * 64 + Bool.bit f.wide)
  | .vimad f => fmtXV 0x21 0x04 f.g.val f.ty.code 0 f.d.code f.a.code f.b.code f.c.code (Bool.bit f.sat * 64)
  | .vand f => fmtXV 0x21 0x05 f.g.val f.ty.code 0 f.d.code f.a.code f.b.code 0 0
  | .vor f => fmtXV 0x21 0x06 f.g.val f.ty.code 0 f.d.code f.a.code f.b.code 0 0
  | .vxor f => fmtXV 0x21 0x07 f.g.val f.ty.code 0 f.d.code f.a.code f.b.code 0 0
  | .vshl f => fmtXV 0x21 0x08 f.g.val f.ty.code 0 f.d.code f.a.code f.b.code 0 0
  | .vshr f => fmtXV 0x21 0x09 f.g.val f.ty.code 0 f.d.code f.a.code f.b.code 0 0
  | .vsra f => fmtXV 0x21 0x0a f.g.val f.ty.code 0 f.d.code f.a.code f.b.code 0 0
  | .vimin f => fmtXV 0x21 0x0b f.g.val f.ty.code 0 f.d.code f.a.code f.b.code 0 0
  | .vimax f => fmtXV 0x21 0x0c f.g.val f.ty.code 0 f.d.code f.a.code f.b.code 0 0
  | .viabs f => fmtXV 0x21 0x0D f.g.val f.ty.code 0 f.d.code f.a.code 0 0 (Bool.bit f.sat * 64)
  | .vcmp g ty c d a b => fmtXV 0x22 0x00 g.val ty.code 0 d.val a.code b.code 0 c.code
  | .vsel g ty d a b p => fmtXV 0x22 0x01 g.val ty.code 0 d.code a.code b.code p.val 0
  | .pand g d a b => fmtXV 0x22 0x02 g.val 0 0 d.val a.val b.val 0 0
  | .por g d a b => fmtXV 0x22 0x03 g.val 0 0 d.val a.val b.val 0 0
  | .pxor g d a b => fmtXV 0x22 0x04 g.val 0 0 d.val a.val b.val 0 0
  | .pnot g d a => fmtXV 0x22 0x05 g.val 0 0 d.val a.val 0 0 0
  | .vcvt f => fmtXV 0x23 0x00 f.g.val f.ty.code f.rnd.rm.code f.d.code f.a.code 0 f.rnd.src.code (Bool.bit f.sat * 64 + Bool.bit f.log * 16 + f.src.code)
  | .vcvtw f => fmtXV 0x23 0x01 f.g.val f.ty.code f.rnd.rm.code f.d.code f.a.code 0 f.rnd.src.code (Bool.bit f.sat * 64 + Bool.bit f.log * 16 + f.src.code)
  | .vcvtn f => fmtXV 0x23 0x02 f.g.val f.ty.code f.rnd.rm.code f.d.code f.a.code 0 f.rnd.src.code (Bool.bit f.sat * 64 + Bool.bit f.log * 16 + f.src.code)
  | .vdq f => fmtXV 0x23 0x03 f.g.val f.ty.code f.rnd.rm.code f.d.code f.a.code f.b.code f.rnd.src.code (Bool.bit f.sat * 64 + f.blk.val * 16 + f.src.code)
  | .vq f => fmtXV 0x23 0x04 f.g.val f.ty.code f.rnd.rm.code f.d.code f.a.code f.b.code f.rnd.src.code (Bool.bit f.sat * 64 + f.blk.val * 16 + f.src.code)
  | .srnd f => fmtXV 0x23 0x05 f.g.val f.ty.code 6 f.d.code f.a.code f.b.code 0 (Bool.bit f.sat * 64 + f.rw.val * 16 + f.grid.code)
  | .vperm f => fmtXV 0x24 0x00 f.g.val f.ty.code 0 f.d.code f.a.code f.b.code f.c.code 0
  | .vrot f => fmtXV 0x24 0x01 f.g.val f.ty.code 0 f.d.code f.a.code f.b.code 0 0
  | .vbcast f => fmtXV 0x24 0x02 f.g.val f.ty.code 0 f.d.code f.a.code f.b.code 0 0
  | .vzip f => fmtXV 0x24 0x03 f.g.val f.ty.code 0 f.d.code f.a.code f.b.code 0 (Bool.bit f.sel)
  | .vunzip f => fmtXV 0x24 0x04 f.g.val f.ty.code 0 f.d.code f.a.code f.b.code 0 (Bool.bit f.sel)
  | .vslide f => fmtXV 0x24 0x05 f.g.val f.ty.code 0 f.d.code f.a.code f.b.code f.c.code 0
  | .vrsum f => fmtXV 0x25 0x00 f.g.val f.ty.code f.rm.code f.d.code f.a.code f.b.code 0 (Bool.bit f.sat * 64)
  | .vrmax f => fmtXV 0x25 0x01 f.g.val f.ty.code f.rm.code f.d.code f.a.code f.b.code 0 (Bool.bit f.sat * 64)
  | .vrmin f => fmtXV 0x25 0x02 f.g.val f.ty.code f.rm.code f.d.code f.a.code f.b.code 0 (Bool.bit f.sat * 64)
  | .vriadd f => fmtXV 0x25 0x03 f.g.val f.ty.code f.rm.code f.d.code f.a.code f.b.code 0 (Bool.bit f.sat * 64)
  | .vexp2 f => fmtXV 0x26 0x00 f.g.val f.ty.code f.rnd.rm.code f.d.code f.a.code 0 f.rnd.src.code (Bool.bit f.sat * 64)
  | .vlog2 f => fmtXV 0x26 0x01 f.g.val f.ty.code f.rnd.rm.code f.d.code f.a.code 0 f.rnd.src.code (Bool.bit f.sat * 64)
  | .vrcp f => fmtXV 0x26 0x02 f.g.val f.ty.code f.rnd.rm.code f.d.code f.a.code 0 f.rnd.src.code (Bool.bit f.sat * 64)
  | .vrsqrt f => fmtXV 0x26 0x03 f.g.val f.ty.code f.rnd.rm.code f.d.code f.a.code 0 f.rnd.src.code (Bool.bit f.sat * 64)
  | .vsin f => fmtXV 0x26 0x04 f.g.val f.ty.code f.rnd.rm.code f.d.code f.a.code 0 f.rnd.src.code (Bool.bit f.sat * 64)
  | .vcos f => fmtXV 0x26 0x05 f.g.val f.ty.code f.rnd.rm.code f.d.code f.a.code 0 f.rnd.src.code (Bool.bit f.sat * 64)
  | .vtanh f => fmtXV 0x26 0x06 f.g.val f.ty.code f.rnd.rm.code f.d.code f.a.code 0 f.rnd.src.code (Bool.bit f.sat * 64)
  | .vsigm f => fmtXV 0x26 0x07 f.g.val f.ty.code f.rnd.rm.code f.d.code f.a.code 0 f.rnd.src.code (Bool.bit f.sat * 64)
  | .sadd f => fmtXV 0x27 0x00 f.g.val f.ty.code f.rnd.rm.code f.d.code f.a.code f.b.code f.rnd.src.code (Bool.bit f.sat * 64)
  | .ssub f => fmtXV 0x27 0x01 f.g.val f.ty.code f.rnd.rm.code f.d.code f.a.code f.b.code f.rnd.src.code (Bool.bit f.sat * 64)
  | .smul f => fmtXV 0x27 0x02 f.g.val f.ty.code f.rnd.rm.code f.d.code f.a.code f.b.code f.rnd.src.code (Bool.bit f.sat * 64)
  | .sfma f => fmtXV 0x27 0x03 f.g.val f.ty.code f.rm.code f.d.code f.a.code f.b.code f.c.code (Bool.bit f.sat * 64)
  | .smov f => fmtXV 0x27 0x04 f.g.val f.ty.code 0 f.d.code f.a.code 0 0 0
  | .scvt f => fmtXV 0x27 0x05 f.g.val f.ty.code f.rnd.rm.code f.d.code f.a.code 0 f.rnd.src.code (Bool.bit f.sat * 64 + f.src.code)
  | .sli g d imm => fmtXI 0x27 0x10 g.val 0 (96 + d.val) 0 imm.toNat
  | .loop count st k => match count with
    | .imm n => fmtXI 0x28 0x00 0 0 0 0 (st.val * 2 ^ 23 + k.val * 2 ^ 16 + n.toNat)
    | .reg r => fmtXI 0x28 0x00 0 0 0 (96 + r.val) (st.val * 2 ^ 23 + 2 ^ 22 + k.val * 2 ^ 16)
  | .rbset b => fmtXI 0x28 0x01 0 0 0 0 b.val
  | .rbadv d => fmtXI 0x28 0x02 0 0 0 0 d.val
  | .pstage mask => fmtXI 0x28 0x03 0 0 0 0 mask.toNat
  | .cbstV g ty a off => fmtXI 0x29 0x00 g.val ty.code 0 a.code off.toNat
  | .cbldV g ty d off => fmtXI 0x29 0x01 g.val ty.code d.val 0 off.toNat
  | .cbstS g a off => fmtXI 0x29 0x02 g.val 0 0 (96 + a.val) off.toNat
  | .cbldS g d off => fmtXI 0x29 0x03 g.val 0 (96 + d.val) 0 off.toNat
  | .qskip g q c => fmtXV 0x2A 0x00 g.val 0 0 0 (64 + q.val) c.code 0 0
  | .qcount g d q => fmtXV 0x2A 0x01 g.val 0 0 (96 + d.val) 0 q.val 0 0
  | .qflush g d q => fmtXV 0x2A 0x02 g.val 0 0 (match d with | some r => 96 + r.val | none => 0) (64 + q.val) 0 0 0
  | .vli g ty d imm => fmtXI 0x2B 0x00 g.val ty.code d.val 0 imm.toNat
  | .vlix g ty d base step => fmtXI 0x2B 0x01 g.val ty.code d.val 0 (base.toNat + step.toNat * 2 ^ 13)
  | .copy c => c.e 0x30 0x00 0
  | .copyF c => c.e 0x30 0x00 32
  | .fill c w => c.e 0x30 0x01 w.val
  | .gather c => c.e 0x31 0x00 0
  | .scatter c => c.e 0x31 0x01 0
  | .loft c => c.e 0x32 0x00 0
  | .reduce c => c.e 0x33 0x00 0
  | .reduceBin c => c.e 0x33 0x01 0
  | .migrate x y w hk => fmtE 0x34 0x00 x.val y.val w.val 0 0 0 0 0 hk 0
  | .bfs a => fmtE 0x35 0x00 a.e.x.val a.e.y.val a.e.w.val a.e.z.val a.n.val a.m.val a.sd.val 0 a.e.hk
      (Bool.bit a.t * 32 + a.role.val * 8 + a.rm.code)
  | .bfa a => fmtE 0x36 0x00 a.x.val a.y.val 0 a.z.val a.n.val a.m.val 0 a.acc.val a.hk (Bool.bit a.t * 32)
  | .aclr x acc hk => fmtE 0x37 0x00 x.val 0 0 0 0 0 0 acc.val hk 0
  | .anorm x acc hk => fmtE 0x37 0x01 x.val 0 0 0 0 0 0 acc.val hk 0
  | .adrain a => fmtE 0x37 0x02 0 a.y.val 0 0 a.n.val a.m.val 0 a.acc.val a.hk (Bool.bit a.raw * 32 + Bool.bit a.sat * 16 + a.rm.code)
  | .aload x n m acc hk => fmtE 0x37 0x03 x.val 0 0 0 n.val m.val 0 acc.val hk 0
  | .sdset x sd hk => fmtE 0x38 0x00 x.val 0 0 0 0 0 sd.val 0 hk 0
  | .chdrain y hk => fmtE 0x38 0x01 0 y.val 0 0 0 0 0 0 hk 0
  | .chload x hk => fmtE 0x38 0x02 x.val 0 0 0 0 0 0 0 hk 0
  | .scdrain y hk => fmtE 0x39 0x00 0 y.val 0 0 0 0 0 0 hk 0
  | .scload x hk => fmtE 0x39 0x01 x.val 0 0 0 0 0 0 0 hk 0
  | .scclr hk => fmtE 0x39 0x02 0 0 0 0 0 0 0 0 hk 0
  | .mpack c => c.e 0x3A 0x00 0
  | .mgen x y hk n g kc => fmtE 0x3A 0x01 x.val y.val 0 0 n.val 0 0 0 hk (kc.val * 2 + g.val)
  | .cload reg hk => fmtE 0x3B 0x00 0 0 0 0 0 0 0 0 hk reg.val
  | .eval x y reg hk => fmtE 0x3B 0x01 x.val y.val 0 0 0 0 0 0 hk reg.val
  | .pupd x y hk => fmtE 0x3B 0x02 x.val y.val 0 0 0 0 0 0 hk 0
  | .cewait x clr => fmtE 0x3B 0x03 x.val 0 0 0 0 0 0 0 ⟨none, none⟩ (Bool.bit clr)
  | .ceout x y reg mode hk => fmtE 0x3B 0x04 x.val y.val 0 0 0 0 0 0 hk (mode.val * 16 + reg.val)
  | .reshard c => c.e 0x3C 0x00 0
  | .rswait x => fmtE 0x3D 0x00 x.val 0 0 0 0 0 0 0 ⟨none, none⟩ 0
  | .rswaitRecv x y => fmtE 0x3D 0x00 x.val y.val 0 0 0 0 0 0 ⟨none, none⟩ 1
  | .instructionDispatch => 0
  | .rangeCheckerRelease _ _ => 0
  | .landAt => 0
  | .accessDataReturn _ => 0
  | .ldqAccess _ => 0
  | .stqItemWrite _ => 0
  | .streamItemFetch _ => 0
  | .outputStreamWrite _ => 0
  | .memorySideWriteComplete _ => 0
  | .barrierRelease _ => 0
  | .copyCommandStart _ => 0
  | .copyCommandRetire _ => 0
  | .reduceBinExchange _ => 0
  | .butterflyCommandStart => 0
  | .butterflyCommandComplete => 0
  | .circuitCommandStart => 0
  | .circuitCommandRetire => 0
  | .pageFetch _ => 0
  | .reshardCommandStart => 0
  | .reshardCommandRetire => 0
  | .subTransfer _ _ _ _ _ => 0
  | .subTransferAck _ => 0
  | .completionRaised => 0
  | .launchStart _ _ => 0
  | .phaseBoundary _ _ => 0
  | .unitSwitch => 0
  | .differenceRecord _ => 0
  | .slotStbyWrite _ => 0
  | .slotCtlPre => 0
  | .slotCtlCancel => 0
  | .slotCtlEvict => 0
  | .preemptionSave => 0
  | .quantumExpiry => 0
  | .aging _ _ => 0
  | .checkpointInterval _ => 0
  | .hatchDeadlock => 0
  | .macroNoBoundary => 0
  | .softErrorReplay _ => 0
  | .machineCheck _ => 0
  | .translationWalk _ => 0
  | .pageFault _ _ => 0
  | .transInv _ _ _ _ => 0
  | .prRequest _ _ _ _ => 0
  | .jobringTail _ => 0
  | .job => 0
  | .graph => 0
  | .phaseEnd => 0
  | .jobEnd => 0
  | .load _ => 0
  | .cancel _ => 0
  | .resync _ => 0
  | .attest _ => 0
  | .svnBump _ _ => 0
  | .bbread _ => 0
  | .bbclear => 0
  | .partition _ => 0
  | .release _ => 0
  | .tlbinv _ _ _ _ => 0
  | .hostMemAccess _ _ _ => 0
  | .flit _ _ => 0
  | .linkDown _ => 0
  | .linkTraining _ => 0
  | .scrub _ _ _ _ => 0
  | .thermalThrottle => 0
  | .throttleRestore => 0
  | .fatalError => 0
  | .boot _ _ _ _ => 0
  | .registerWrite _ _ => 0
  | .ldscAccess _ => 0
  | .linkReplay _ => 0
  | .sidePathCommandComplete => 0

/-! ### Taking the fields out -/

def reg (w lo : Nat) : GReg := Fin.ofNat 32 (fld w lo 5)
def memOp (w : Nat) : MemOp :=
  ⟨reg w 40, reg w 35, Fin.ofNat 4 (fld w 33 2), BitVec.ofNat 28 (fld w 0 28)⟩
def imm32 (w : Nat) : BitVec 32 := BitVec.ofNat 32 (fld w 0 32)
def off36 (w : Nat) : BitVec 36 := BitVec.ofNat 36 (fld w 0 36)
def hatching (w : Nat) : Hatching :=
  ⟨if bitAt w 15 then some (Fin.ofNat 16 (fld w 11 4)) else none,
   if bitAt w 10 then some (Fin.ofNat 16 (fld w 6 4)) else none⟩
def eCmd (w : Nat) : ECmd := ⟨reg w 45, reg w 40, reg w 35, reg w 30, hatching w⟩

/-- A field value that no code names makes the word illegal by `badField`. -/
def need {α β : Type} (o : Option α) (f : α → β) : Except DecodeErr β :=
  match o with
  | some a => .ok (f a)
  | none => .error .badField

/-- The destination and the two sources of a word in XV. -/
def need3 {β : Type} (w : Nat) (f : XDst → XOp → XOp → β) : Except DecodeErr β :=
  match XDst.ofCode (fld w 31 8), XOp.ofCode (fld w 23 8), XOp.ofCode (fld w 15 8) with
  | some d, some a, some b => .ok (f d a b)
  | _, _, _ => .error .badField

/-- The destination and the three sources of a word in XV. -/
def need4 {β : Type} (w : Nat) (f : XDst → XOp → XOp → XOp → β) : Except DecodeErr β :=
  match XOp.ofCode (fld w 7 8) with
  | some c => need3 w fun d a b => f d a b c
  | none => .error .badField

def guard (w : Nat) : Fin 16 := Fin.ofNat 16 (fld w 46 4)
def etype (w : Nat) : ElemTy := ElemTy.ofCode (fld w 42 4)
def rmode (w : Nat) : RM := RM.ofCode (fld w 39 3)
def srcType (w : Nat) : ElemTy := ElemTy.ofCode (fld w 0 4)
def predAt (w lo : Nat) : Fin 16 := Fin.ofNat 16 (fld w lo 4)
def sreg (w lo : Nat) : Fin 32 := Fin.ofNat 32 (fld w lo 5)

def parseFpBin (w : Nat) (k : FpBin → Instr) : Except DecodeErr Instr :=
  need4 w fun d a b c => k ⟨guard w, etype w, ⟨rmode w, c⟩, bitAt w 6, d, a, b⟩
def parseFpFma (w : Nat) (k : FpFma → Instr) : Except DecodeErr Instr :=
  need4 w fun d a b c => k ⟨guard w, etype w, rmode w, bitAt w 6, d, a, b, c⟩
def parseTwo (w : Nat) (k : XTwo → Instr) : Except DecodeErr Instr :=
  need3 w fun d a b => k ⟨guard w, etype w, d, a, b⟩
def parseOne (w : Nat) (k : XOne → Instr) : Except DecodeErr Instr :=
  need3 w fun d a _ => k ⟨guard w, etype w, d, a⟩
def parseUn (w : Nat) (k : FpUn → Instr) : Except DecodeErr Instr :=
  need4 w fun d a _ c => k ⟨guard w, etype w, ⟨rmode w, c⟩, bitAt w 6, d, a⟩
def parseIntBin (w : Nat) (k : IntBin → Instr) : Except DecodeErr Instr :=
  need3 w fun d a b => k ⟨guard w, etype w, bitAt w 6, bitAt w 0, d, a, b⟩
def parseCvt (w : Nat) (k : CvtArgs → Instr) : Except DecodeErr Instr :=
  need4 w fun d a _ c => k ⟨guard w, etype w, srcType w, ⟨rmode w, c⟩, bitAt w 6, bitAt w 4, d, a⟩
def parseBlk (w : Nat) (k : BlkArgs → Instr) : Except DecodeErr Instr :=
  need4 w fun d a b c =>
    k ⟨guard w, etype w, srcType w, ⟨rmode w, c⟩, bitAt w 6, Fin.ofNat 4 (fld w 4 2), d, a, b⟩
def parsePerm (w : Nat) (k : Perm3 → Instr) : Except DecodeErr Instr :=
  need4 w fun d a b c => k ⟨guard w, etype w, d, a, b, c⟩
def parseSel (w : Nat) (k : PermSel → Instr) : Except DecodeErr Instr :=
  need3 w fun d a b => k ⟨guard w, etype w, bitAt w 0, d, a, b⟩
def parseRed (w : Nat) (k : RedArgs → Instr) : Except DecodeErr Instr :=
  need3 w fun d a b => k ⟨guard w, etype w, rmode w, bitAt w 6, d, a, b⟩
def parseReg3 (w : Nat) (k : ISize → GReg → GReg → GReg → Instr) : Except DecodeErr Instr :=
  need (ISize.ofCode (fld w 32 3)) fun sz => k sz (reg w 45) (reg w 40) (reg w 35)
def parseImm (w : Nat) (k : ISize → GReg → GReg → BitVec 32 → Instr) : Except DecodeErr Instr :=
  need (ISize.ofCode (fld w 32 3)) fun sz => k sz (reg w 45) (reg w 40) (imm32 w)
def parseShift (w : Nat) (k : ISize → GReg → GReg → Fin 64 → Instr) : Except DecodeErr Instr :=
  need (ISize.ofCode (fld w 32 3)) fun sz => k sz (reg w 45) (reg w 40) (Fin.ofNat 64 (fld w 0 6))

/-- MAJ 0x01 (R132, R133). -/
def parse01 (w : Nat) : Nat → Except DecodeErr Instr
  | 0x00 => parseReg3 w .add
  | 0x01 => parseReg3 w .sub
  | 0x02 => parseReg3 w .mul
  | 0x03 => parseReg3 w .mulh
  | 0x04 => parseReg3 w .and
  | 0x05 => parseReg3 w .or
  | 0x06 => parseReg3 w .xor
  | 0x07 => parseReg3 w .shl
  | 0x08 => parseReg3 w .shr
  | 0x09 => parseReg3 w .sra
  | 0x0a => parseReg3 w .min
  | 0x0b => parseReg3 w .max
  | 0x0c => need (Cond.ofCode (fld w 32 3)) fun c => .cmp c (reg w 45) (reg w 40) (reg w 35)
  | _ => .error .unlistedMinor
/-- MAJ 0x02 (R134). -/
def parse02 (w : Nat) : Nat → Except DecodeErr Instr
  | 0x00 => parseImm w .addi
  | 0x04 => parseImm w .andi
  | 0x05 => parseImm w .ori
  | 0x06 => parseImm w .xori
  | 0x07 => parseShift w .shli
  | 0x08 => parseShift w .shri
  | 0x09 => parseShift w .srai
  | 0x0c => need (Cond.ofCode (fld w 32 3)) fun c => .cmpi c (reg w 45) (reg w 40) (imm32 w)
  | 0x10 => .ok (.li (reg w 45) (imm32 w))
  | _ => .error .unlistedMinor
/-- MAJ 0x03 (R135). -/
def parse03 (w : Nat) : Nat → Except DecodeErr Instr
  | 0x00 => need (BCond.ofCode (fld w 36 4)) fun c => .br c (reg w 45) (reg w 40) (off36 w)
  | _ => .error .unlistedMinor
/-- MAJ 0x04 (R136). -/
def parse04 (w : Nat) : Nat → Except DecodeErr Instr
  | 0x00 => .ok (.call (reg w 45) (off36 w))
  | 0x01 => .ok (.jr (reg w 40) (imm32 w))
  | 0x02 => .ok (.callr (reg w 45) (reg w 40) (imm32 w))
  | _ => .error .unlistedMinor
/-- A load major (R137); .SP has no modifier bit. -/
def parseLd (w min : Nat) (k : LdSize → Bool → GReg → MemOp → Instr) : Except DecodeErr Instr :=
  match LdSize.ofCode min with
  | some sz => .ok (k sz (bitAt w 28) (reg w 45) (memOp w))
  | none => .error .unlistedMinor
/-- A store major (R137). -/
def parseSt (w min : Nat) (k : StSize → Bool → GReg → MemOp → Instr) : Except DecodeErr Instr :=
  match StSize.ofCode min with
  | some sz => .ok (k sz (bitAt w 28) (reg w 45) (memOp w))
  | none => .error .unlistedMinor
/-- MAJ 0x11: MIN = 16·space + op, with spaces 1 to 5 (R141). -/
def parseAmo (w min : Nat) : Except DecodeErr Instr :=
  match Space.ofCode (min / 16) with
  | none | some .sp => .error .unlistedMinor
  | some spc =>
    let wd := bitAt w 29
    let acq := bitAt w 28
    let d := reg w 45
    match min % 16 with
    | 0 => .ok (.amoAdd spc wd acq d (memOp w))
    | 1 => .ok (.amoAnd spc wd acq d (memOp w))
    | 2 => .ok (.amoOr spc wd acq d (memOp w))
    | 3 => .ok (.amoXor spc wd acq d (memOp w))
    | 4 => .ok (.amoMin spc wd acq d (memOp w))
    | 5 => .ok (.amoMax spc wd acq d (memOp w))
    | 6 => .ok (.amoMinu spc wd acq d (memOp w))
    | 7 => .ok (.amoMaxu spc wd acq d (memOp w))
    | 8 => .ok (.amoSwap spc wd acq d (memOp w))
    | 9 => .ok (.amoCas spc wd acq d (reg w 35) (reg w 40) (BitVec.ofNat 28 (fld w 0 28)))
    | _ => .error .unlistedMinor
/-- MAJ 0x12 (R146). -/
def parse12 (w min : Nat) : Except DecodeErr Instr :=
  let disp := BitVec.ofNat 28 (fld w 0 28)
  if min < 6 then
    need (Space.ofCode min) fun spc => .strmIn spc (Fin.ofNat 8 (fld w 45 3)) (reg w 35) (reg w 40) disp
  else if 8 ≤ min ∧ min < 14 then
    need (Space.ofCode (min - 8)) fun spc =>
      .strmOut spc (bitAt w 28) (Fin.ofNat 4 (fld w 45 2)) (reg w 35) (reg w 40) disp
  else if min = 0x10 then .ok (.strmStop (bitAt w 28) (Fin.ofNat 8 (fld w 45 3)))
  else .error .unlistedMinor
/-- MAJ 0x13 (R143, R145). -/
def parse13 (w min : Nat) : Except DecodeErr Instr :=
  let len : Fin 8 := Fin.ofNat 8 (fld w 29 3)
  if min < 6 then
    need (Space.ofCode min) fun spc => .ldq spc (Fin.ofNat 8 (fld w 45 3)) len (bitAt w 28) (memOp w)
  else if 8 ≤ min ∧ min < 14 then
    need (Space.ofCode (min - 8)) fun spc => .stq spc (Fin.ofNat 4 (fld w 45 2)) len (bitAt w 28) (memOp w)
  else match min with
    | 0x10 => .ok (.ldsc .sp (Fin.ofNat 16 (fld w 45 4)) (memOp w))
    | 0x11 => .ok (.ldsc .at (Fin.ofNat 16 (fld w 45 4)) (memOp w))
    | 0x13 => .ok (.ldsc .cl (Fin.ofNat 16 (fld w 45 4)) (memOp w))
    | _ => .error .unlistedMinor
/-- MAJ 0x14 (R152 to R160). -/
def parse14 (w : Nat) : Nat → Except DecodeErr Instr
  | 0x00 => .ok (.fence (FenceFlags.ofCode (fld w 0 6)) (Scope.ofCode (fld w 8 2)))
  | 0x01 => .ok .afence
  | 0x02 => .ok .bar
  | 0x03 => .ok (.hbind (Fin.ofNat 16 (fld w 12 4)) (BitVec.ofNat 8 (fld w 0 8)))
  | 0x04 => .ok (.hpush (Fin.ofNat 16 (fld w 0 4)) (if bitAt w 8 then some (Fin.ofNat 4 (fld w 4 2)) else none))
  | 0x05 => .ok (.hpop (Fin.ofNat 16 (fld w 0 4)) (if bitAt w 8 then some (Fin.ofNat 8 (fld w 4 3)) else none))
  | 0x06 => match fld w 0 2 with
    | 0 => .ok (.waitRd (reg w 45) (reg w 40))
    | 1 => .ok (.waitFin (reg w 45) (reg w 40))
    | 2 => .ok (.waitLe (reg w 45) (reg w 40) (reg w 35))
    | _ => .error .badField
  | _ => .error .unlistedMinor
/-- MAJ 0x15 (R128). -/
def parse15 (w : Nat) : Nat → Except DecodeErr Instr
  | 0x00 => .ok .done
  | 0x01 => .ok .eret
  | 0x02 => .ok (.rdsr (reg w 45) (BitVec.ofNat 16 (fld w 0 16)))
  | 0x03 => .ok (.wrsr (reg w 40) (BitVec.ofNat 16 (fld w 0 16)))
  | 0x04 => .ok (.icinv (reg w 40) (imm32 w))
  | 0x05 => .ok (.trap (imm32 w))
  | _ => .error .unlistedMinor
/-- MAJ 0x16 (R118, R119). -/
def parse16 (w : Nat) : Nat → Except DecodeErr Instr
  | 0x00 => if fld w 32 3 < 4 then .ok (.layer (Fin.ofNat 4 (fld w 32 3)) (Fin.ofNat 128 (fld w 0 7))) else .error .badField
  | 0x01 => need (Cond.ofCode (fld w 32 3)) fun c => .mbr c (reg w 40) (reg w 35) (BitVec.ofNat 13 (fld w 0 13))
  | 0x02 => .ok (.mloop (reg w 40) (BitVec.ofNat 13 (fld w 0 13)))
  | 0x03 => .ok (.mbnd (bitAt w 0))
  | _ => .error .unlistedMinor
/-- MAJ 0x17 (R73, R74). -/
def parse17 (w : Nat) : Nat → Except DecodeErr Instr
  | 0x00 => .ok (.ximm (BitVec.ofNat 50 (fld w 0 50)))
  | 0x01 => .ok (.stamp (BitVec.ofNat 32 (fld w 18 32)))
  | _ => .error .unlistedMinor
/-- MAJ 0x20 (R176). -/
def parse20 (w : Nat) : Nat → Except DecodeErr Instr
  | 0x00 => parseFpBin w .vadd
  | 0x01 => parseFpBin w .vsub
  | 0x02 => parseFpBin w .vmul
  | 0x03 => parseFpFma w .vfma
  | 0x04 => parseFpFma w .vfms
  | 0x05 => parseFpFma w .vfnma
  | 0x06 => parseFpBin w .vdiv
  | 0x07 => parseTwo w .vmin
  | 0x08 => parseTwo w .vmax
  | 0x09 => parseOne w .vabs
  | 0x0a => parseOne w .vneg
  | 0x0b => parseUn w .vsqrt
  | _ => .error .unlistedMinor
/-- MAJ 0x21 (R179). -/
def parse21 (w : Nat) : Nat → Except DecodeErr Instr
  | 0x00 => parseIntBin w .viadd
  | 0x01 => parseIntBin w .visub
  | 0x02 => parseIntBin w .vimul
  | 0x03 => parseIntBin w .vimulh
  | 0x04 => need4 w fun d a b c => .vimad ⟨guard w, etype w, bitAt w 6, d, a, b, c⟩
  | 0x05 => parseTwo w .vand
  | 0x06 => parseTwo w .vor
  | 0x07 => parseTwo w .vxor
  | 0x08 => parseTwo w .vshl
  | 0x09 => parseTwo w .vshr
  | 0x0a => parseTwo w .vsra
  | 0x0b => parseTwo w .vimin
  | 0x0c => parseTwo w .vimax
  | 0x0d => need3 w fun d a _ => .viabs ⟨guard w, etype w, bitAt w 6, d, a⟩
  | _ => .error .unlistedMinor
/-- MAJ 0x22 (R181 to R183). -/
def parse22 (w : Nat) : Nat → Except DecodeErr Instr
  | 0x00 => match VCond.ofCode (fld w 0 3), XOp.ofCode (fld w 23 8), XOp.ofCode (fld w 15 8) with
    | some c, some a, some b => .ok (.vcmp (guard w) (etype w) c (predAt w 31) a b)
    | _, _, _ => .error .badField
  | 0x01 => need3 w fun d a b => .vsel (guard w) (etype w) d a b (predAt w 7)
  | 0x02 => .ok (.pand (guard w) (predAt w 31) (predAt w 23) (predAt w 15))
  | 0x03 => .ok (.por (guard w) (predAt w 31) (predAt w 23) (predAt w 15))
  | 0x04 => .ok (.pxor (guard w) (predAt w 31) (predAt w 23) (predAt w 15))
  | 0x05 => .ok (.pnot (guard w) (predAt w 31) (predAt w 23))
  | _ => .error .unlistedMinor
/-- MAJ 0x23 (R184). -/
def parse23 (w : Nat) : Nat → Except DecodeErr Instr
  | 0x00 => parseCvt w .vcvt
  | 0x01 => parseCvt w .vcvtw
  | 0x02 => parseCvt w .vcvtn
  | 0x03 => parseBlk w .vdq
  | 0x04 => parseBlk w .vq
  | 0x05 => need3 w fun d a b => .srnd ⟨guard w, etype w, srcType w, bitAt w 6, Fin.ofNat 4 (fld w 4 2), d, a, b⟩
  | _ => .error .unlistedMinor
/-- MAJ 0x24 (R190). -/
def parse24 (w : Nat) : Nat → Except DecodeErr Instr
  | 0x00 => parsePerm w .vperm
  | 0x01 => parseTwo w .vrot
  | 0x02 => parseTwo w .vbcast
  | 0x03 => parseSel w .vzip
  | 0x04 => parseSel w .vunzip
  | 0x05 => parsePerm w .vslide
  | _ => .error .unlistedMinor
/-- MAJ 0x25 (R191). -/
def parse25 (w : Nat) : Nat → Except DecodeErr Instr
  | 0x00 => parseRed w .vrsum
  | 0x01 => parseRed w .vrmax
  | 0x02 => parseRed w .vrmin
  | 0x03 => parseRed w .vriadd
  | _ => .error .unlistedMinor
/-- MAJ 0x26 (R192). -/
def parse26 (w : Nat) : Nat → Except DecodeErr Instr
  | 0x00 => parseUn w .vexp2
  | 0x01 => parseUn w .vlog2
  | 0x02 => parseUn w .vrcp
  | 0x03 => parseUn w .vrsqrt
  | 0x04 => parseUn w .vsin
  | 0x05 => parseUn w .vcos
  | 0x06 => parseUn w .vtanh
  | 0x07 => parseUn w .vsigm
  | _ => .error .unlistedMinor
/-- MAJ 0x27 (R194, R195). -/
def parse27 (w : Nat) : Nat → Except DecodeErr Instr
  | 0x00 => parseFpBin w .sadd
  | 0x01 => parseFpBin w .ssub
  | 0x02 => parseFpBin w .smul
  | 0x03 => parseFpFma w .sfma
  | 0x04 => parseOne w .smov
  | 0x05 => need4 w fun d a _ c => .scvt ⟨guard w, etype w, srcType w, ⟨rmode w, c⟩, bitAt w 6, d, a⟩
  | 0x10 => if fld w 39 3 = 3 then .ok (.sli (guard w) (sreg w 34) (BitVec.ofNat 26 (fld w 0 26))) else .error .badField
  | _ => .error .unlistedMinor
/-- MAJ 0x28 (R170, R171). -/
def parse28 (w : Nat) : Nat → Except DecodeErr Instr
  | 0x00 => let st : Fin 8 := Fin.ofNat 8 (fld w 23 3)
    let k : Fin 64 := Fin.ofNat 64 (fld w 16 6)
    if bitAt w 22 then
      if fld w 31 3 = 3 then .ok (.loop (.reg (sreg w 26)) st k) else .error .badField
    else .ok (.loop (.imm (BitVec.ofNat 16 (fld w 0 16))) st k)
  | 0x01 => .ok (.rbset (sreg w 0))
  | 0x02 => .ok (.rbadv (sreg w 0))
  | 0x03 => .ok (.pstage (BitVec.ofNat 8 (fld w 0 8)))
  | _ => .error .unlistedMinor
/-- MAJ 0x29 (R172). -/
def parse29 (w : Nat) : Nat → Except DecodeErr Instr
  | 0x00 => need (XOp.ofCode (fld w 26 8)) fun a => .cbstV (guard w) (etype w) a (BitVec.ofNat 16 (fld w 0 16))
  | 0x01 => .ok (.cbldV (guard w) (etype w) (Fin.ofNat 64 (fld w 34 6)) (BitVec.ofNat 16 (fld w 0 16)))
  | 0x02 => if fld w 31 3 = 3 then .ok (.cbstS (guard w) (sreg w 26) (BitVec.ofNat 16 (fld w 0 16))) else .error .badField
  | 0x03 => if fld w 39 3 = 3 then .ok (.cbldS (guard w) (sreg w 34) (BitVec.ofNat 16 (fld w 0 16))) else .error .badField
  | _ => .error .unlistedMinor
/-- MAJ 0x2A (R197 to R199). -/
def parse2A (w : Nat) : Nat → Except DecodeErr Instr
  | 0x00 => if fld w 26 5 = 8 then
      need (XOp.ofCode (fld w 15 8)) fun c => .qskip (guard w) (Fin.ofNat 8 (fld w 23 3)) c
    else .error .badField
  | 0x01 => if fld w 36 3 = 3 ∧ fld w 15 8 < 12 then .ok (.qcount (guard w) (sreg w 31) (Fin.ofNat 12 (fld w 15 8)))
    else .error .badField
  | 0x02 => if fld w 26 5 = 8 then
      if fld w 31 8 = 0 then .ok (.qflush (guard w) none (Fin.ofNat 8 (fld w 23 3)))
      else if fld w 36 3 = 3 then .ok (.qflush (guard w) (some (sreg w 31)) (Fin.ofNat 8 (fld w 23 3)))
      else .error .badField
    else .error .badField
  | _ => .error .unlistedMinor
/-- MAJ 0x2B (R200, R201). -/
def parse2B (w : Nat) : Nat → Except DecodeErr Instr
  | 0x00 => .ok (.vli (guard w) (etype w) (Fin.ofNat 64 (fld w 34 6)) (BitVec.ofNat 26 (fld w 0 26)))
  | 0x01 => .ok (.vlix (guard w) (etype w) (Fin.ofNat 64 (fld w 34 6)) (BitVec.ofNat 13 (fld w 0 13)) (BitVec.ofNat 13 (fld w 13 13)))
  | _ => .error .unlistedMinor
def tileN (w : Nat) : Fin 64 := Fin.ofNat 64 (fld w 24 6)
def tileM (w : Nat) : Fin 4 := Fin.ofNat 4 (fld w 22 2)
def sdOf (w : Nat) : Fin 8 := Fin.ofNat 8 (fld w 19 3)
def accOf (w : Nat) : Fin 8 := Fin.ofNat 8 (fld w 16 3)
/-- MAJ 0x30 (R218): FLAGS[5] is F. -/
def parse30 (w : Nat) : Nat → Except DecodeErr Instr
  | 0x00 => .ok (if bitAt w 5 then .copyF (eCmd w) else .copy (eCmd w))
  | 0x01 => .ok (.fill (eCmd w) (Fin.ofNat 4 (fld w 0 2)))
  | _ => .error .unlistedMinor
/-- MAJ 0x31. -/
def parse31 (w : Nat) : Nat → Except DecodeErr Instr
  | 0x00 => .ok (.gather (eCmd w))
  | 0x01 => .ok (.scatter (eCmd w))
  | _ => .error .unlistedMinor
/-- MAJ 0x32. -/
def parse32 (w : Nat) : Nat → Except DecodeErr Instr
  | 0x00 => .ok (.loft (eCmd w))
  | _ => .error .unlistedMinor
/-- MAJ 0x33. -/
def parse33 (w : Nat) : Nat → Except DecodeErr Instr
  | 0x00 => .ok (.reduce (eCmd w))
  | 0x01 => .ok (.reduceBin (eCmd w))
  | _ => .error .unlistedMinor
/-- MAJ 0x34. -/
def parse34 (w : Nat) : Nat → Except DecodeErr Instr
  | 0x00 => .ok (.migrate (reg w 45) (reg w 40) (reg w 35) (hatching w))
  | _ => .error .unlistedMinor
/-- MAJ 0x35 (R248). -/
def parse35 (w : Nat) : Nat → Except DecodeErr Instr
  | 0x00 => .ok (.bfs ⟨eCmd w, tileN w, tileM w, sdOf w, bitAt w 5, Fin.ofNat 4 (fld w 3 2), RM.ofCode (fld w 0 3)⟩)
  | _ => .error .unlistedMinor
/-- MAJ 0x36 (R251). -/
def parse36 (w : Nat) : Nat → Except DecodeErr Instr
  | 0x00 => .ok (.bfa ⟨reg w 45, reg w 40, reg w 30, hatching w, tileN w, tileM w, accOf w, bitAt w 5⟩)
  | _ => .error .unlistedMinor
/-- MAJ 0x37 (R254, R256). -/
def parse37 (w : Nat) : Nat → Except DecodeErr Instr
  | 0x00 => .ok (.aclr (reg w 45) (accOf w) (hatching w))
  | 0x01 => .ok (.anorm (reg w 45) (accOf w) (hatching w))
  | 0x02 => .ok (.adrain ⟨reg w 40, hatching w, tileN w, tileM w, accOf w, bitAt w 5, bitAt w 4, RM.ofCode (fld w 0 3)⟩)
  | 0x03 => .ok (.aload (reg w 45) (tileN w) (tileM w) (accOf w) (hatching w))
  | _ => .error .unlistedMinor
/-- MAJ 0x38 (R259, R260). -/
def parse38 (w : Nat) : Nat → Except DecodeErr Instr
  | 0x00 => .ok (.sdset (reg w 45) (sdOf w) (hatching w))
  | 0x01 => .ok (.chdrain (reg w 40) (hatching w))
  | 0x02 => .ok (.chload (reg w 45) (hatching w))
  | _ => .error .unlistedMinor
/-- MAJ 0x39 (R263). -/
def parse39 (w : Nat) : Nat → Except DecodeErr Instr
  | 0x00 => .ok (.scdrain (reg w 40) (hatching w))
  | 0x01 => .ok (.scload (reg w 45) (hatching w))
  | 0x02 => .ok (.scclr (hatching w))
  | _ => .error .unlistedMinor
/-- MAJ 0x3A (R264, R266). -/
def parse3A (w : Nat) : Nat → Except DecodeErr Instr
  | 0x00 => .ok (.mpack (eCmd w))
  | 0x01 => .ok (.mgen (reg w 45) (reg w 40) (hatching w) (tileN w) (Fin.ofNat 2 (fld w 0 1)) (Fin.ofNat 4 (fld w 1 2)))
  | _ => .error .unlistedMinor
/-- MAJ 0x3B (R287 to R292). -/
def parse3B (w : Nat) : Nat → Except DecodeErr Instr
  | 0x00 => .ok (.cload (Fin.ofNat 16 (fld w 0 4)) (hatching w))
  | 0x01 => .ok (.eval (reg w 45) (reg w 40) (Fin.ofNat 16 (fld w 0 4)) (hatching w))
  | 0x02 => .ok (.pupd (reg w 45) (reg w 40) (hatching w))
  | 0x03 => .ok (.cewait (reg w 45) (bitAt w 0))
  | 0x04 => .ok (.ceout (reg w 45) (reg w 40) (Fin.ofNat 16 (fld w 0 4)) (Fin.ofNat 4 (fld w 4 2)) (hatching w))
  | _ => .error .unlistedMinor
/-- MAJ 0x3C (R310). -/
def parse3C (w : Nat) : Nat → Except DecodeErr Instr
  | 0x00 => .ok (.reshard (eCmd w))
  | _ => .error .unlistedMinor
/-- MAJ 0x3D (R311): FLAGS[0] is RECV. -/
def parse3D (w : Nat) : Nat → Except DecodeErr Instr
  | 0x00 => .ok (if bitAt w 0 then .rswaitRecv (reg w 45) (reg w 40) else .rswait (reg w 45))
  | _ => .error .unlistedMinor
/-- The fields of a word, by its major opcode (R75). -/
def parse (w : Nat) : Except DecodeErr Instr :=
  let min := fld w 50 8
  match fld w 58 6 with
  | 0x01 => parse01 w min
  | 0x02 => parse02 w min
  | 0x03 => parse03 w min
  | 0x04 => parse04 w min
  | 0x05 => parseLd w min fun sz _ d m => .ldSp sz d m
  | 0x06 => parseSt w min fun sz _ d m => .stSp sz d m
  | 0x07 => parseLd w min .ldAt
  | 0x08 => parseSt w min .stAt
  | 0x09 => parseLd w min .ldRa
  | 0x0a => parseSt w min .stRa
  | 0x0b => parseLd w min .ldCl
  | 0x0c => parseSt w min .stCl
  | 0x0d => parseLd w min .ldHs
  | 0x0e => parseSt w min .stHs
  | 0x0f => parseLd w min .ldPr
  | 0x10 => parseSt w min .stPr
  | 0x11 => parseAmo w min
  | 0x12 => parse12 w min
  | 0x13 => parse13 w min
  | 0x14 => parse14 w min
  | 0x15 => parse15 w min
  | 0x16 => parse16 w min
  | 0x17 => parse17 w min
  | 0x20 => parse20 w min
  | 0x21 => parse21 w min
  | 0x22 => parse22 w min
  | 0x23 => parse23 w min
  | 0x24 => parse24 w min
  | 0x25 => parse25 w min
  | 0x26 => parse26 w min
  | 0x27 => parse27 w min
  | 0x28 => parse28 w min
  | 0x29 => parse29 w min
  | 0x2a => parse2A w min
  | 0x2b => parse2B w min
  | 0x30 => parse30 w min
  | 0x31 => parse31 w min
  | 0x32 => parse32 w min
  | 0x33 => parse33 w min
  | 0x34 => parse34 w min
  | 0x35 => parse35 w min
  | 0x36 => parse36 w min
  | 0x37 => parse37 w min
  | 0x38 => parse38 w min
  | 0x39 => parse39 w min
  | 0x3a => parse3A w min
  | 0x3b => parse3B w min
  | 0x3c => parse3C w min
  | 0x3d => parse3D w min
  | _ => .error .reservedMajor

/-- The instruction of a word, or why the word takes ILLEGAL (R79): the entry accepts every field, and the word has no bit
set outside the fields that its instruction uses. -/
def decodeWord (w : Nat) : Except DecodeErr Instr :=
  match parse w with
  | .error e => .error e
  | .ok i => if i.wf then (if i.word = w then .ok i else .error .mustBeZero) else .error .badField

/-- A little-endian number (R6, R62). -/
def leNat : List Byte → Nat
  | [] => 0
  | b :: bs => b.toNat + 256 * leNat bs

/-- The n bytes of a number, little-endian. -/
def leBytes : Nat → Nat → List Byte
  | 0, _ => []
  | n + 1, w => BitVec.ofNat 8 w :: leBytes n (w / 256)

/-- The first instruction of a byte string and the bytes after it; total on any bytes (R62). -/
def decode (bs : List Byte) : Except DecodeErr (Instr × List Byte) :=
  if bs.length < 8 then .error .short
  else match decodeWord (leNat (bs.take 8)) with
    | .ok i => .ok (i, bs.drop 8)
    | .error e => .error e

/-- The bytes of an instruction as they lie in memory. -/
def encode (i : Instr) : List Byte := leBytes 8 i.word

/-- The instruction whose bits are w, the first word least significant; an instruction of this hardware is one 64-bit word
(R62). -/
def decodeTableWord (nbits w : Nat) : Option Instr :=
  match decode (leBytes 8 (w % 2 ^ nbits)) with
  | .ok (i, _) => some i
  | .error _ => none

/-! ### Groups of words (R69, R70, R170) -/

/-- The instruction accepts XIMM (R69, R134, R136, R143, R145, R146, R195, R200). -/
def Instr.acceptsXimm : Instr → Bool
  | .addi .. | .andi .. | .ori .. | .xori .. | .cmpi .. | .li .. | .jr .. | .callr .. => true
  | .ldSp .. | .ldAt .. | .ldRa .. | .ldCl .. | .ldHs .. | .ldPr .. => true
  | .stSp .. | .stAt .. | .stRa .. | .stCl .. | .stHs .. | .stPr .. => true
  | .amoAdd .. | .amoAnd .. | .amoOr .. | .amoXor .. | .amoMin .. | .amoMax .. | .amoMinu .. | .amoMaxu .. => true
  | .amoSwap .. | .amoCas .. | .ldq .. | .stq .. | .ldsc .. | .strmIn .. | .strmOut .. => true
  | .sli .. | .vli .. => true
  | _ => false

/-- The major opcode of an instruction. -/
def Instr.major (i : Instr) : Nat := fld i.word 58 6

/-- The long instructions of R69: every load of majors 0x05 to 0x10, AMO, STRM, LDQ, STQ, LDSC and the engine commands. -/
def Instr.isLong (i : Instr) : Bool :=
  let m := i.major
  (m == 0x05 || m == 0x07 || m == 0x09 || m == 0x0B || m == 0x0D || m == 0x0F) ||
    (0x11 ≤ m && m ≤ 0x13) || (0x30 ≤ m && m ≤ 0x3D)

/-- The instruction goes to the X-pipe: majors 0x20 to 0x2B (R16). -/
def Instr.isX (i : Instr) : Bool := let m := i.major; 0x20 ≤ m && m ≤ 0x2B

/-- The latency of an instruction (R164). -/
def Instr.latency (i : Instr) : Nat :=
  match i with
  | .vdiv _ | .vsqrt _ => 16
  | .vimul _ | .vimulh _ | .vimad _ => 4
  | .sfma _ => 4
  | _ =>
    match i.major with
    | 0x20 => 4 | 0x21 => 2 | 0x22 => 2 | 0x23 => 4 | 0x24 => 3 | 0x25 => 8 | 0x26 => 12 | 0x27 => 2
    | _ => 1

def Instr.isPrefix : Instr → Bool
  | .ximm _ | .stamp _ => true
  | _ => false

/-- BFS or BFA, the commands that a COPY.F governs (R69). -/
def Instr.isStage : Instr → Bool
  | .bfs _ | .bfa _ => true
  | _ => false

/-- A kernel word of LOOP is of majors 0x20 to 0x27 or 0x29 to 0x2B (R170). -/
def Instr.kernelOk (i : Instr) : Bool :=
  let m := i.major
  (0x20 ≤ m && m ≤ 0x27) || (0x29 ≤ m && m ≤ 0x2B)

/-- VLI without XIMM accepts an immediate only when the bits above the element are zero, or are sign bits of an integer type
(R200). -/
def vliSoloOk (ty : ElemTy) (imm : BitVec 26) : Bool :=
  let w := ty.width
  let hi := imm.toNat / 2 ^ w
  if w ≤ 16 then
    hi == 0 || (ty.isInt && bitAt imm.toNat (w - 1) && hi == 2 ^ (26 - w) - 1)
  else true

/-- The instruction runs without a prefix (R200 asks it of VLI). -/
def Instr.soloOk : Instr → Bool
  | .vli _ ty _ imm => vliSoloOk ty imm
  | _ => true

end Sys2Proof
end

