-- ==== Sys2Proof/Machine/Bits.lean ====
section
/-! DEFINITION. Bit fields, sign extension, byte order and lanes: the small helpers of every other file (R6, R64). -/

namespace Sys2Proof.Machine

/-- The signed reading of an n-bit number. -/
def sint (n x : Nat) : Int := if x % 2 ^ n < 2 ^ (n - 1) then (x % 2 ^ n : Nat) else ((x % 2 ^ n : Nat) : Int) - 2 ^ n

/-- The n-bit pattern of an integer. -/
def wrap (n : Nat) (x : Int) : Nat := (x % (2 ^ n : Nat)).toNat

/-- A 64-bit word of an integer. -/
def word (x : Int) : Word := BitVec.ofInt 64 x

/-- Field [lo+n-1 : lo] of a word. -/
def wfld (w : Word) (lo n : Nat) : Nat := fld w.toNat lo n

/-- Bit i of a word. -/
def wbit (w : Word) (i : Nat) : Bool := w.getLsbD i

/-- A word with field [lo+n-1 : lo] replaced by x. -/
def setFld (w : Word) (lo n x : Nat) : Word :=
  BitVec.ofNat 64 (w.toNat - fld w.toNat lo n * 2 ^ lo + x % 2 ^ n * 2 ^ lo)

/-- Element i of width w of a packed value (R6). -/
def lane (w v i : Nat) : Nat := v / 2 ^ (w * i) % 2 ^ w

/-- The packed value of a list of w-bit elements, element 0 lowest (R6). -/
def pack (w : Nat) : List Nat → Nat
  | [] => 0
  | x :: xs => x % 2 ^ w + 2 ^ w * pack w xs

/-- The packed value of n elements given by index. -/
def tabulate (w n : Nat) (f : Nat → Nat) : Nat := pack w ((List.range n).map f)

/-- A vector register of n = 4096/w elements given by index (R173). -/
def vecOf (w : Nat) (f : Nat → Nat) : Vec := BitVec.ofNat 4096 (tabulate w (4096 / w) f)

/-- Elements per register (R173). -/
def lanesOf (w : Nat) : Nat := 4096 / w

/-- All lanes true. -/
def allTrue : Pred := BitVec.allOnes 1024

/-- A mask of 4-bit-lane bits widened to bits: each true lane gives four one bits. -/
def maskBits (p : Pred) : Nat := tabulate 4 1024 fun i => if p.getLsbD i then 15 else 0

/-- v with the lanes of the mask taken from x (R163). -/
def blend (p : Pred) (old new : Vec) : Vec :=
  if p = allTrue then new else
    let m := BitVec.ofNat 4096 (maskBits p)
    (new &&& m) ||| (old &&& ~~~ m)

/-- The bytes of a vector register, byte 0 first. -/
def vecBytes (v : Vec) : List Byte := leBytes 512 v.toNat

/-- A vector register from at most 512 bytes, the rest zero. -/
def vecOfBytes (bs : List Byte) : Vec := BitVec.ofNat 4096 (leNat bs)

/-- The first index of 0..n-1 that a test accepts. -/
def findIdx (n : Nat) (p : Nat → Bool) : Option Nat := (List.range n).find? p

/-- A list with its n-th element replaced; unchanged past the end. -/
def setAt {α : Type} (l : List α) (n : Nat) (x : α) : List α := l.set n x

/-- A list without its n-th element. -/
def dropAt {α : Type} : List α → Nat → List α
  | [], _ => []
  | _ :: xs, 0 => xs
  | x :: xs, n + 1 => x :: dropAt xs n

/-- Every element of a vector replaced by a function of its index and itself. -/
def vmap {α : Type} {n : Nat} (f : Fin n → α → α) (v : Vector α n) : Vector α n :=
  (List.finRange n).foldl (fun v i => v.set i.val (f i v[i])) v

/-- ⌈a / b⌉ for positive b. -/
def ceilDiv (a b : Nat) : Nat := (a + b - 1) / b

/-- One byte into the reflected CRC-32C register (polynomial 0x82F63B78, RFC 3720). -/
def crcByte (c : Nat) (b : Byte) : Nat :=
  (List.range 8).foldl (fun c _ => if c % 2 = 1 then Nat.xor (c / 2) 0x82F63B78 else c / 2) (Nat.xor c b.toNat)

/-- CRC-32C of a byte string (R115, R122). -/
def crc32c (bs : List Byte) : Nat := Nat.xor (bs.foldl crcByte 0xFFFFFFFF) 0xFFFFFFFF

end Sys2Proof.Machine
end

