-- ==== Sys2Proof/Machine/State.lean ====
section
/-! DEFINITION. The state of a GZ-144 package as plain data: one core that moves, the other cores, the package's memory and
tables, and the agenda of what the outside world does next. Each field cites the rule that gives it to the machine. -/

namespace Sys2Proof.Machine

/-- The trap causes (R124, R284, R309). -/
inductive Cause where
  | illegal | illegalOperand | bounds | porchFull | overrun | hatchDeadlock | gangRequired | software
  | sparseMeta | scaleQueueImbalance | scaleInvalid | bankConflict | headroom | cxFormat | cxRange
  | circuitObject | circuitNode | reshardLayout | reshardProgress | reshardLink
  | pageFault | machineCheck | macroNoBoundary | doubleTrap
  deriving DecidableEq, Repr

/-- Why a step has no next state. -/
inductive Fault where
  /-- An event of the device was named by a turn of the agenda although its enabling condition does not hold. Raised by the
  meanings of the events; safe: the hardware never performs such an event, and no claim follows from the stop. -/
  | notEnabled (event : String)
  deriving DecidableEq, Repr

/-- Why an instruction has no meaning in a state. -/
inductive Refusal where
  /-- The instruction of the opcode table is not modelled yet. Raised by the arms of Dispatch.lean alone; safe: the machine
  stops and nothing is claimed. -/
  | notModelled (mnemonic : String)
  deriving DecidableEq, Repr

/-- A byte memory in canonical form: addresses strictly rising, no entry equal to what an unlisted address reads as, which
is 0 (notes/assumptions/4.md). -/
abbrev Memory := List Host.Cell

/-! ### Dispatched words -/

/-- One dispatched group (R17, R69): the governed instruction, its addresses, its prefixes and, for LOOP, its kernel. -/
structure Slot where
  instr : Instr
  pc : Word
  next : Word
  ximm : Option (BitVec 50)
  stamp : Option (BitVec 32)
  follow : Option Instr
  kernel : List Instr
  paired : Bool
  upc : Option Nat
  seq : Nat
  redirected : Bool
  dead : Bool
  stk : Vector Word 4
  deriving DecidableEq, Repr

/-- The places in program order of two words that are dispatched one after the other differ by this much: the places between them are
those of a handler's accesses that stand before the resumed word (R20, R126). -/
def seqStep : Nat := 2 ^ 32

/-! ### X-pipe -/

/-- Where an X-pipe result lands (R163, R172). -/
inductive FlyDst where
  | v (n : Fin 64)
  | s (n : Fin 32)
  | p (n : Fin 16)
  | sq (q : Fin 4)
  | cupV (off : Nat)
  | cupS (off : Nat)
  | none
  deriving DecidableEq, Repr

/-- A result in flight (R163); `due` is its landing X-cycle, or REMAIN in a replay register (R165); `ord` is its place among the
X-pipe's writes of store queues, which tells the passes of a kernel apart (R158). -/
structure Fly where
  dst : FlyDst
  val : Vec
  mask : Pred
  due : Nat
  fl : BitVec 5
  seq : Nat
  ord : Nat
  pushes : List (Fin 16)
  deriving DecidableEq, Repr

/-! ### Queues, hatches, streams -/

/-- A load-queue slot (R144, R166, R196): reserved until its data arrives; `pops` are the attached hatch pops (R158). -/
structure LqItem where
  id : Nat
  data : Option Vec
  arrived : Nat
  ready : Option Nat
  pops : List (Fin 16)
  late : Bool
  deriving DecidableEq, Repr

/-- The shape of a stream (R147). -/
structure Shape where
  ilen : Nat
  c0 : Nat
  c1 : Nat
  c2 : Nat
  s0 : Int
  s1 : Int
  s2 : Int
  deriving DecidableEq, Repr

/-- A stream (R148): the items done so far count up to its end; `pops` go to its first item (R158). -/
structure Stream where
  spc : Space
  start : Word
  shape : Shape
  done : Nat
  ms : Bool
  seq : Nat
  pops : List (Fin 16)
  deriving DecidableEq, Repr

/-- What waits for the next item of a store queue: an STQ claim (R144) or an output stream (R148), in program order. -/
inductive SqTaker where
  | claim (spc : Space) (addr : Nat) (len : Nat) (keys : List Nat) (ms : Bool) (seq : Nat)
  | stream (st : Stream)
  deriving DecidableEq, Repr

/-- A hatch (R155): its live binding word and its tokens, oldest first, each with its ready time in Strict mode. -/
structure Hatch where
  bind : BitVec 8
  toks : List (Option Nat)
  deriving DecidableEq, Repr

/-- One entry of the scale queue (R145, R240, R262): the LDSC or SCLOAD that owns it, its place in program order, and its scale
once it is there. -/
structure ScaleEntry where
  owner : Nat
  seq : Nat
  val : Option (BitVec 16)
  deriving DecidableEq, Repr

/-! ### Memory accesses of the A-pipe -/

/-- What an outstanding access delivers to (R130, R138, R142, R144, R145). -/
inductive AccKind where
  | load (d : GReg) (sz : LdSize)
  | amo (d : GReg) (w : Bool)
  | ldq (q : Fin 8) (id : Nat) (len : Nat)
  | ldsc (owner n : Nat)
  deriving DecidableEq, Repr

/-- An A-pipe access that has issued and not yet finished. `data` is absent while it is held at the range checker or waits
for an earlier write (R212, R96) or for its memory-side write (R142). -/
structure Acc where
  kind : AccKind
  spc : Space
  addr : Nat
  len : Nat
  keys : List Nat
  acq : Bool
  data : Option (List Byte)
  seq : Nat
  ready : Option Nat
  deriving DecidableEq, Repr

/-- A scratchpad store held at the range checker (R212). -/
structure HeldStore where
  addr : Nat
  bytes : List Byte
  seq : Nat
  deriving DecidableEq, Repr

/-- What a memory-side write in flight does at its target (R97, R142). -/
inductive MsOp where
  | put (bytes : List Byte)
  | amo (op : AmoOp) (w : Bool) (v n : Word)
  deriving DecidableEq, Repr

/-- A memory-side write in flight (R97, R99): its location keys are physical, `path` names the path flag of R100. -/
structure MsWrite where
  op : MsOp
  keys : List Nat
  path : Nat
  seq : Nat
  deriving DecidableEq, Repr

/-- A byte held in a Porch entry: its value, the place in program order of the store that gave it, and its physical location
key at that store (R93, R103). -/
structure PorchCell where
  val : Byte
  seq : Nat
  key : Nat
  deriving DecidableEq, Repr

/-- A Porch entry (R93): one 64-byte chunk of a unit, named by its counter reference; its bytes by their place in the chunk and then
by the program order of their stores. An older byte stands beside a later one only while a load between the two waits (R94, R96). An entry that an STQ has reserved may hold none yet (R144). `vault` is the core of the vault of an .AT entry,
`origin` the core that stored it, `bindSeq` the place of the unit's first bind (R102, R328). -/
structure PorchEntry where
  unit : Nat
  job : Nat
  bindSeq : Nat
  spc : Space
  chunk : Nat
  vault : Nat
  origin : Nat
  cells : List (Nat × PorchCell)
  deriving DecidableEq, Repr

/-- A cached translation (R88, R89): a leaf of a space of a partition. -/
structure TlbEntry where
  part : Nat
  spc : Space
  vpage : Nat
  size : Nat
  leaf : Word
  entryAt : Nat
  count : Nat
  deriving DecidableEq, Repr

/-- A walk asked for by an access that missed (R89, R90). -/
structure WalkReq where
  spc : Space
  va : Nat
  write : Bool
  fetch : Bool
  deriving DecidableEq, Repr

/-! ### Engines -/

/-- How far an engine command has come (R203, R229, R282, R304). -/
inductive CmdSt where
  | waiting | running | done
  deriving DecidableEq, Repr

/-- A command in an engine queue or on a side path (R18): `ops` are the register values read at issue, `fmts` the bank formats
and other live registers resolved at issue, `foot` its footprint words (R210), `latched` that an EVAL has latched its
parameters (R279), `out` what a started command has computed and will report. -/
structure EngCmd where
  seq : Nat
  pc : Word
  instr : Instr
  ops : List Word
  rm : RM
  fmts : List ElemTy
  foot : List Word
  push : Option (Fin 16)
  pop : Option (Fin 16)
  cycle : Nat
  handler : Bool
  popped : Bool
  follow : Bool
  st : CmdSt
  latched : Bool
  out : List Word
  deriving DecidableEq, Repr

/-- An engine cause that is held or being handled (R126, R128): the queue it came from and its record. -/
structure EngCause where
  queue : Fin 5
  cause : Cause
  info : Word
  pc : Word
  foot : List Word
  seq : Nat
  deriving DecidableEq, Repr

/-! ### A core -/

/-- The register state of the pipes (R35, R161). -/
structure Regs where
  g : Vector Word 32
  s : Vector SWord 32
  v : Vector Vec 64
  p : Vector Pred 16
  gDirty : BitVec 32
  sDirty : BitVec 32
  vDirty : BitVec 64
  pDirty : BitVec 16
  gReady : Vector Nat 32
  gLat : Vector Nat 32
  rpl : List Fly
  fly : List Fly
  deriving DecidableEq, Repr

/-- The system registers of R129 and the live registers loaded from the plane (R121, R122). BANK.FMT holds TYPE 13 in every
bank that is not listed. -/
structure Sys where
  bankFmt : List (Nat × Word)
  rmode : Word
  fpFlags : Word
  frame : Word
  timingLate : Word
  timingCtl : Word
  timingPad : Vector Word 16
  loopState : Word
  mloopStk : Vector Word 4
  trapCause : Word
  trapPc : Word
  trapOpc : Word
  trapMpc : Word
  trapUpc : Word
  trapCpc : Word
  trapFoot : Vector Word 4
  trapQpos : Word
  trapInfo : Word
  trapVec : Word
  sd : Vector Word 8
  creg : Vector Word 16
  atticCache : Word
  deriving DecidableEq, Repr

/-- What a trap records (R125, R126). -/
structure TrapRec where
  pipe : Nat
  cause : Cause
  info : Word
  pc : Word
  opc : Word
  upc : Option Nat
  stk : Vector Word 4
  paired : Bool
  cpc : Word
  foot : List Word
  held : Option EngCause
  deriving DecidableEq, Repr

/-- What the sequencer keeps for the return from a trap (R126, R370). -/
structure Resume where
  pipe : Nat
  pc : Word
  opc : Word
  aq : List Slot
  xq : List Slot
  fetch : Word
  kernel : Option Slot
  utop : Option (Slot × Nat)
  held : Option EngCause
  stk : Vector Word 4
  seq0 : Nat
  upc : Option Nat
  deriving DecidableEq, Repr

/-- An active layer program of the control store (R116): the slot of its LAYER and the next micro-address. -/
structure MicroRun where
  layer : Slot
  upc : Nat
  deriving DecidableEq, Repr

/-- A skip that ERET began (R370): the pipe that does not issue its words at addresses from lo up to hi. -/
structure Skip where
  xpipe : Bool
  lo : Nat
  hi : Nat
  deriving DecidableEq, Repr

/-- What stops all issue of a unit (R29, R34, R36, R90, R127, R228); `fin` says that the suspended unit has issued its DONE, `fab`
names the device that a machine check could not reach (R329), `pipe` the pipe or engine that met the error (R223); `saving` that a
request has been taken and what has started still lands (R323), `restoring` that the switch brings back a parked unit (R316). -/
inductive UnitSt where
  | empty | running | suspended (fin : Bool) | checked (fab : Option Nat) (pipe : Nat) | ending | ended | switching | saving | restoring
  deriving DecidableEq, Repr

/-- The front end of a core (R16, R17, R112 to R128). `xowed` says that the X-cycle of the current cycle is still to open (R162),
`bndSeen` that an MBND has retired since the last request (R117), `fault` is what stopped a suspended unit (R90). A push of `hpushes`
has its place in program order and the cycle from which every earlier result is written (R131, R158). -/
structure Front where
  unit : UnitSt
  pc : Word
  cycle : Nat
  slot : Nat
  part : Nat
  hold : Nat
  xnow : Nat
  xdone : Bool
  xowed : Bool
  xahead : Nat
  aq : List Slot
  xq : List Slot
  cur : Slot
  kernel : Option Slot
  mac : Option MicroRun
  handler : Bool
  resume : Option Resume
  causes : List EngCause
  block : Bool
  serial : Bool
  aStall : Bool
  xStall : Bool
  stall : Nat
  aFrom : Nat
  adone : Bool
  sdone : Bool
  xWhy : Nat
  seq : Nat
  skip : List Skip
  waitOn : Option Word
  mark : Option Nat
  bnd : Bool
  bndSeen : Bool
  fault : Option TrapRec
  barrier : Option Nat
  preReq : Option Nat
  byPhys : Bool
  icache : List (Nat × List Byte)
  cstore : List (Nat × Word)
  sq0 : List (Nat × Fin 4)
  hpushes : List (Fin 16 × Nat × Nat)
  deriving DecidableEq, Repr

/-- Queues, hatches and streams of a core. -/
structure Queues where
  lq : Vector (List LqItem) 8
  lin : Vector (List Stream) 8
  lpop : Vector (List (Fin 16)) 8
  sq : Vector (List Vec) 4
  taker : Vector (List SqTaker) 4
  spush : Vector (List (Fin 16 × Nat)) 4
  h : Vector Hatch 16
  scale : List ScaleEntry
  deriving DecidableEq, Repr

/-- The A-pipe's accesses and the caches of a core. -/
structure Lsu where
  acc : List Acc
  heldSt : List HeldStore
  ms : List MsWrite
  porch : List PorchEntry
  utlb : List TlbEntry
  walks : List WalkReq
  attic : List (Nat × Nat × List Byte)
  deriving DecidableEq, Repr

/-- The engines' queues and their side path (R16, R224, R244); the queues are copy inbound, copy outbound, butterfly,
circuit and reshard, in the order of R125. -/
structure Eng where
  q : Vector (List EngCmd) 5
  side : List EngCmd
  deriving DecidableEq, Repr

/-- The memories of a core that no space names but .SP (R15, R86): each is a byte memory, an accumulator tile holding the raw
images of R47. -/
structure Mems where
  sp : Memory
  loft : Memory
  cup : Memory
  acc : Memory
  chain : Memory
  deriving DecidableEq, Repr

/-- The chain state (R227, R260): N and M are the codes of the E fields; all are 0 while no chain is open. -/
structure Chain where
  isOpen : Bool
  fmt : ElemTy
  n : Nat
  m : Nat
  deriving DecidableEq, Repr

/-- The circuit engine (R268): the resident registration word, the object's record count and the offset of its pages, the placement,
leaf and output maps, the live and the pending parameters where they are not CX zero, the dirty entries, the node pages in frames,
the most recently used first, the pages in flight, the leaf values of the running EVAL by leaf and lane, and CE.STATUS without
PEND. -/
structure Circuit where
  reg : Word
  nrec : Nat
  offPages : Nat
  place : List Nat
  leafMap : List Nat
  outMap : List Nat
  live : List (Nat × Nat)
  pend : List (Nat × Nat)
  dirty : List Nat
  frames : List (Nat × List Byte)
  flight : List Nat
  leaves : List (List Nat)
  status : Word
  deriving DecidableEq, Repr

/-- A layout record with its device table (R295 to R297): the element size, TYPE, the extents, the mesh, the axis of each dimension
(15: not split), the block sizes, the pitches, and the table's devices and bases. -/
structure Layout where
  esize : Nat
  ty : Nat
  ext : List Nat
  mesh : List Nat
  axis : List Nat
  blk : List Nat
  pitch : List Nat
  tab : List (Nat × Nat)
  deriving DecidableEq, Repr

/-- A RESHARD that runs (R304, R305): its layouts, the index of this device in the job's device table and its entries in the two
device tables, the key and the generation, whether it sends, the next sub-transfer to issue, the oldest that is not acknowledged,
later ones that are, the bytes acknowledged, and the device that a failed link has cut off. -/
structure Resh where
  src : Layout
  dst : Layout
  me : Nat
  ts : Option Nat
  td : Option Nat
  key : Nat
  gen : Nat
  sends : Bool
  next : Nat
  old : Nat
  acked : List Nat
  sent : Nat
  fail : Option Nat
  deriving DecidableEq, Repr

/-- A configuration plane: its words that are not zero, and its generation (R121, R122). -/
structure Plane where
  words : List (Nat × Word)
  gen : Nat
  deriving DecidableEq, Repr

/-- The slot registers of a core (R316, R317). -/
structure SlotRegs where
  act : BitVec 128
  stby : BitVec 128
  ctl : Word
  deriving DecidableEq, Repr

/-- One core (R11). `vuse` says that the unit has used its vault (R327); `prevJob` is the counter reference of the job of the unit
that ended here last (R35); `planeLog` holds the heads of the difference records that were rolled back (R122); `replayAt` is the
replay point of the last detected error of each pipe: the pipe, its place in program order, and LOOP.STATE (R127). -/
structure Core where
  idx : Nat
  regs : Regs
  sys : Sys
  fe : Front
  qs : Queues
  lsu : Lsu
  eng : Eng
  mems : Mems
  resident : Plane
  shadow : Plane
  slot : SlotRegs
  lhwm : Nat
  link : Chain
  circ : Circuit
  resh : Option Resh
  rsLast : Word
  vuse : Bool
  prevJob : Option Nat
  planeLog : List Word
  replayAt : List (Bool × Nat × Word)
  deriving DecidableEq, Repr

/-! ### The package -/

/-- An entry of the counter table (R25, R26): its fields, its parent's and its job's entries, and for a unit the place of its first
bind among all binds (R102). -/
structure Counter where
  live : Bool
  gen : Nat
  state : Nat
  level : Nat
  failed : Nat
  outstanding : Nat
  parent : Option Nat
  job : Nat
  bindSeq : Nat
  deriving DecidableEq, Repr

/-- A partition (R83, R87, R330, R356): its cores in rising package index, its translation roots, its quantum in microseconds, its
overflow block, and the vault index whose contents the overflow block holds (R331). -/
structure Partition where
  id : Nat
  cores : List Nat
  rootCl : Nat
  rootHs : Nat
  quantum : Nat
  ovf : Nat
  spilled : Option Nat
  deriving DecidableEq, Repr

/-- A job (R353): its counter, partition, device table (fabric number and partition of each device), class, the values its planes
carry, its checkpoint interval, its authority key, whether its JOB_END has been read, and whether it is the Hearth's own (R315). -/
structure Job where
  ctr : Nat
  part : Nat
  devs : List (Nat × Nat)
  cls : Nat
  strict : Bool
  pads : List Word
  attic : Word
  ckptMs : Nat
  auth : List Byte
  authKey : List Byte
  closed : Bool
  service : Bool
  deriving DecidableEq, Repr

/-- The notification ring's registers and the fault records it holds back (R91). -/
structure Notify where
  thr : Word
  base : Word
  head : Word
  tail : Word
  lost : Word
  pending : List Nat
  deriving DecidableEq, Repr

/-- What this device knows of a peer device (R83): its fabric number, its partitions' .CL roots, and for each partition the
fabric numbers in the device tables of its unfinished jobs. -/
structure Peer where
  fab : Nat
  roots : List (Nat × Nat)
  admits : List (Nat × Nat)
  deriving DecidableEq, Repr

/-- A receive side of the reshard engine (R294, R306): its key and generation, the partition and the address of its receive record,
the unit and the job it belongs to, and whether it has ended. -/
structure RsSide where
  key : Nat
  gen : Nat
  part : Nat
  record : Nat
  unit : Nat
  job : Nat
  ended : Bool
  deriving DecidableEq, Repr

/-- A sub-transfer in flight (R305): the core that sent it, its place in the plan, the receiver's index and fabric number, its key,
generation, sender and ordinal, its bytes by destination address, and whether a receiver on this device has counted it. -/
structure RsSend where
  core : Nat
  ix : Nat
  dev : Nat
  fab : Nat
  key : Nat
  gen : Nat
  sender : Nat
  ord : Nat
  cells : List (Nat × Byte)
  landed : Bool
  deriving DecidableEq, Repr

/-- A launch of a graph (R21, R318): its record, its state (0 not started, 1 started, 2 ended COMPLETE, 3 ended otherwise or never
to start), its counter reference once it has one, and the indices of its units that have been bound. -/
structure Launch where
  words : List Word
  st : Nat
  ref : Option Nat
  bound : List Nat
  deriving DecidableEq, Repr

/-- A graph (R352): its counter, job and phase, its launches, its edges, and whether it has ended. -/
structure Graph where
  ctr : Nat
  job : Nat
  phase : Nat
  launches : List Launch
  edges : List (Nat × Nat)
  deriving DecidableEq, Repr

/-- A phase (R21): its counter and job, whether its PHASE_END has been read, whether it has started, and whether its boundary waits
for the Hearth after a failed drain (R90). -/
structure Phase where
  ctr : Nat
  job : Nat
  closed : Bool
  started : Bool
  waiting : Bool
  deriving DecidableEq, Repr

/-- What a pre-emption keeps of a unit beside the images of R324: the words and queues that no layout of the spec holds. `parked`
says that the unit is not bound; `loc` is the core whose Attic took the save image, 255 when the checkpoint block did, and `held` says
that the save area there is still this unit's (HELD, R325); `home` is set when the unit used its vault (R327). -/
structure Parked where
  bind : Nat
  parked : Bool
  loc : Nat
  held : Bool
  home : Option Nat
  fe : Front
  qs : Queues
  lsu : Lsu
  eng : Eng
  circ : Circuit
  link : Chain
  rsLast : Word
  rpl : List Fly
  deriving DecidableEq, Repr

/-- The job ring's registers (R352). -/
structure JobRing where
  base : Word
  tail : Word
  head : Word
  deriving DecidableEq, Repr

/-- What a flit carries: one that is forwarded, a party's data of a REDUCE.BIN of a core, or the request of an access of a core, by its
place in program order, or of a sub-transfer of a core, by its place in the plan (R358). -/
inductive FlitFor where
  | forwarded
  | exchange (core : Nat)
  | access (core seq : Nat)
  | sub (core ix : Nat)
  deriving DecidableEq, Repr

/-- A flit in a replay buffer (R358): its SEQ, its bytes and what it carries. -/
structure Flit where
  seq : Nat
  bytes : List Byte
  use : FlitFor
  deriving DecidableEq, Repr

/-- A GZ link port (R358, R359): up, link-down events, the next SEQ to send and the next expected, the unacknowledged flits in the order
in which they were sent, how often the oldest has been replayed, and the payloads delivered in order. -/
structure Link where
  up : Bool
  downs : Nat
  snd : Nat
  rcv : Nat
  buf : List Flit
  tries : Nat
  inbox : List (List Byte)
  deriving DecidableEq, Repr

/-- The registers of one protection level (R360, R361): its scrub register, its log's counts, and its entries by place. -/
structure Level where
  scrub : Word
  head : Word
  ce : Word
  ue : Word
  log : List (Nat × Nat)
  deriving DecidableEq, Repr

/-- What a black-box event records (R362); its bytes are the device's. -/
inductive BbKind where
  | trap (c : Cause) | machineCheck | log (level kind : Nat) | bind | preempt | cancel | mailbox (op : Nat) | throttle (on : Bool)
  deriving DecidableEq, Repr

/-- An event of the black box (R362): what it records, its core, and the first of the four free values that its bytes are
(notes/assumptions/2.md). -/
structure BbEvent where
  kind : BbKind
  core : Nat
  val : Nat
  deriving DecidableEq, Repr

/-- The black box (R362): 4,096 events by place, the head index, and the frozen flag. -/
structure BlackBox where
  events : List (Nat × BbEvent)
  head : Nat
  frozen : Bool
  deriving DecidableEq, Repr

/-- A placed section of a loaded object: its type, address and size. -/
structure Placed where
  ty : Nat
  addr : Nat
  size : Nat
  deriving DecidableEq, Repr

/-- A unit of a loaded object (R335, R336): the address of its first instruction, its plane section, and its Loft image, if it has
one. -/
structure UnitImg where
  entry : Nat
  plane : Nat
  loft : Option Placed
  deriving DecidableEq, Repr

/-- A loaded object (R343): its job while the host holds it, its partition, the request that loaded it and the object's bytes, its sections
by index, its plane images by section, and its units. -/
structure LoadedObj where
  job : Nat
  part : Nat
  req : LoadReq
  bytes : List Byte
  secs : List (Nat × Placed)
  planes : List (Nat × List Word)
  units : List UnitImg
  deriving DecidableEq, Repr

/-- Where a translation-cache entry lies in the Cellar: its partition, its address, and the bytes of its head and code (R348). -/
structure CacheSlot where
  part : Nat
  addr : Nat
  size : Nat
  deriving DecidableEq, Repr

/-- Patched or unloaded code whose lines a service unit still invalidates (R350): the object's place in the list of loaded ones, whether
it is unloaded, the request that it is loaded by afterwards, the lines, the cores left, and whether the words have been written. -/
structure CodePatch where
  obj : Nat
  unload : Bool
  req : LoadReq
  lines : List Nat
  cores : List Nat
  wrote : Bool
  deriving DecidableEq, Repr

/-- The forms in which the device is delivered (R1). -/
inductive Form where
  | die | package | module
  deriving DecidableEq, Repr

/-- Figures that are stated per package apply to the GZ144-D form at half their value (R2, R14, R15). -/
def Form.cores (f : Form) : Nat := if f == .die then Config.coresPerDie else Config.cores
def Form.cellar (f : Form) : Nat := if f == .die then Config.cellar / 2 else Config.cellar
def Form.ports (f : Form) : Nat := if f == .die then 12 else 24

/-- A word that holds an error (R360): its level, its core (255 for none) and its address; for level 4 the structure and its index, as
an address of notes/assumptions/107.md. -/
structure Poison where
  level : Nat
  core : Nat
  addr : Nat
  deriving DecidableEq, Repr

/-- The barrier of a gang launch (R154): its generation and the counters of the units that have arrived at it. -/
structure Barrier where
  gen : Nat
  arrived : List Nat
  deriving DecidableEq, Repr

/-- The tables of the package: the counter table, partitions, translation caches, barriers, host pages migrated to the package, jobs,
the launch table, the notification ring, this device's fabric number and its peers, the reshard engine's receive sides and
sub-transfers in flight, phases, graphs, launches that wait for an entry (graph, launch) in the order in which they became ready (R26),
parked units, raised classes (launch, unit index, classes; R320), the launch bound last in each class of a partition (partition, class,
launch; R320), units that a machine check has stopped (bind record, and the
device whose route they wait for; R329), the number of first binds, plane rollbacks of which the Hearth has been
notified (core, head of the record; R122), the host's registers, the mailbox command in progress (R354), routes and links, the
protection levels, poisoned words, words whose error can be corrected, the black box, the fuses, the running firmware, the boot and
fatal states, throttling, the RESYNC count, loaded objects, code that is being patched (R350), the translation cache, and the form in
which the device is delivered (R1). -/
structure Package where
  counters : List (Nat × Counter)
  parts : List Partition
  dieTlb : Vector (List TlbEntry) 2
  bars : List (Nat × Barrier)
  hsPages : List (Nat × Nat)
  jobs : List Job
  launches : List (Nat × List Word)
  notify : Notify
  fabric : Word
  peers : List Peer
  rsSides : List RsSide
  rsFly : List RsSend
  phases : List Phase
  graphs : List Graph
  ready : List (Nat × Nat)
  parked : List Parked
  aged : List (Nat × Nat × Nat)
  lastBind : List (Nat × Nat × Nat)
  cutOff : List (Nat × Option Nat)
  binds : Nat
  rollbacks : List (Nat × Word)
  ring : JobRing
  mbox : Option Word
  mboxStat : Word
  hdmBase : Word
  routes : List (Nat × Word)
  links : Vector Link 24
  levels : Vector Level 8
  poison : List Poison
  weak : List Poison
  bbox : BlackBox
  svn : Nat
  firmware : List Byte
  booted : Bool
  bootFailed : Bool
  fatal : Bool
  throttled : Bool
  resyncs : Nat
  loaded : List LoadedObj
  patches : List CodePatch
  cache : List CacheSlot
  form : Form
  deriving DecidableEq, Repr

/-- One entry of the agenda: what happens next, where the machine itself does not fix it. `upset` is an error that a word takes, one that
its protection can correct or not (R360); `outOfReset` is a warm or cold reset (R362); `service` a launch of the Hearth's own job in a
partition (R315); `patch` and `unload` the re-specialisation and the unloading of a loaded object, and `icinv` its service unit on the
core that moves (R350); `repair` a write of the Hearth to the Cellar (R90). -/
inductive Turn where
  | outOfReset (cold : Bool)
  | service (part cls : Nat) (words : List Word)
  | patch (obj : Nat) (consts : List Word) (cell : Nat)
  | unload (obj : Nat)
  | icinv
  | repair (words : List (Nat × Word))
  | upset (p : Poison) (hard : Bool)
  | event (i : Instr)
  | step
  | issueX
  | tick
  | core (k : Nat)
  deriving DecidableEq, Repr

/-- The machine. `core` is the core that moves, `others` the rest in rising index; `free` counts the free values used
(notes/assumptions/2.md); the agenda is the interleaving and the outside world (notes/assumptions/5.md). -/
structure State where
  core : Core
  others : List Core
  mem : Memory
  pkg : Package
  agenda : List Turn
  free : Nat
  deriving DecidableEq, Repr

/-! ### Reset -/

def Regs.reset : Regs where
  g := Vector.replicate 32 0
  s := Vector.replicate 32 0
  v := Vector.replicate 64 0
  p := (Vector.replicate 16 0).set 0 allTrue
  gDirty := 0
  sDirty := 0
  vDirty := 0
  pDirty := 0
  gReady := Vector.replicate 32 0
  gLat := Vector.replicate 32 0
  rpl := []
  fly := []

def Sys.reset : Sys where
  bankFmt := []
  rmode := 0
  fpFlags := 0
  frame := 0
  timingLate := 0
  timingCtl := 0
  timingPad := Vector.replicate 16 0
  loopState := 0
  mloopStk := Vector.replicate 4 0
  trapCause := 0
  trapPc := 0
  trapOpc := 0
  trapMpc := 0
  trapUpc := 0
  trapCpc := 0
  trapFoot := Vector.replicate 4 0
  trapQpos := 0
  trapInfo := 0
  trapVec := 0
  sd := Vector.replicate 8 0
  creg := Vector.replicate 16 0
  atticCache := 0

/-- A slot that names no instruction; the group of nothing. -/
def Slot.idle : Slot where
  instr := .instructionDispatch
  pc := 0
  next := 0
  ximm := none
  stamp := none
  follow := none
  kernel := []
  paired := false
  upc := none
  seq := 0
  redirected := false
  dead := false
  stk := Vector.replicate 4 0

def Front.reset : Front where
  unit := .empty
  pc := 0
  cycle := 0
  slot := 0
  part := 0
  hold := 0
  xnow := 0
  xdone := false
  xowed := false
  xahead := 0
  aq := []
  xq := []
  cur := Slot.idle
  kernel := none
  mac := none
  handler := false
  resume := none
  causes := []
  block := false
  serial := false
  aStall := false
  xStall := false
  stall := 0
  aFrom := 0
  adone := false
  sdone := false
  xWhy := 0
  seq := seqStep
  skip := []
  waitOn := none
  mark := none
  bnd := false
  bndSeen := false
  fault := none
  barrier := none
  preReq := none
  byPhys := false
  icache := []
  cstore := []
  sq0 := []
  hpushes := []

def Queues.reset : Queues where
  lq := Vector.replicate 8 []
  lin := Vector.replicate 8 []
  lpop := Vector.replicate 8 []
  sq := Vector.replicate 4 []
  taker := Vector.replicate 4 []
  spush := Vector.replicate 4 []
  h := Vector.replicate 16 ⟨0, []⟩
  scale := []

def Lsu.reset : Lsu := ⟨[], [], [], [], [], [], []⟩
def Eng.reset : Eng := ⟨Vector.replicate 5 [], []⟩
def Mems.reset : Mems := ⟨[], [], [], [], []⟩

def Circuit.reset : Circuit := ⟨0, 0, 0, [], [], [], [], [], [], [], [], [], 0⟩

/-- A core right after reset (R35, R121, R316). -/
def Core.reset (k : Nat) : Core where
  idx := k
  regs := Regs.reset
  sys := Sys.reset
  fe := Front.reset
  qs := Queues.reset
  lsu := Lsu.reset
  eng := Eng.reset
  mems := Mems.reset
  resident := ⟨[], 0⟩
  shadow := ⟨[], 0⟩
  slot := ⟨0, 0, 0⟩
  lhwm := 0
  link := ⟨false, .i4, 0, 0⟩
  circ := Circuit.reset
  resh := none
  rsLast := 0
  vuse := false
  prevJob := none
  planeLog := []
  replayAt := []

def Package.reset : Package where
  counters := []
  parts := []
  dieTlb := Vector.replicate 2 []
  bars := []
  hsPages := []
  jobs := []
  launches := []
  notify := ⟨0, 8, 0, 0, 0, []⟩
  fabric := 0
  peers := []
  rsSides := []
  rsFly := []
  phases := []
  graphs := []
  ready := []
  parked := []
  aged := []
  lastBind := []
  cutOff := []
  binds := 0
  rollbacks := []
  ring := ⟨6, 0, 0⟩
  mbox := none
  mboxStat := 0
  hdmBase := 0
  routes := []
  links := Vector.replicate 24 ⟨false, 0, 0, 0, [], 0, []⟩
  levels := #v[⟨0x100000001, 0, 0, 0, []⟩, ⟨0x100000001, 0, 0, 0, []⟩, ⟨4000, 0, 0, 0, []⟩, ⟨8000, 0, 0, 0, []⟩,
    ⟨0, 0, 0, 0, []⟩, ⟨0, 0, 0, 0, []⟩, ⟨60000, 0, 0, 0, []⟩, ⟨0, 0, 0, 0, []⟩]
  poison := []
  weak := []
  bbox := ⟨[], 0, false⟩
  svn := 0
  firmware := []
  booted := false
  bootFailed := false
  fatal := false
  throttled := false
  resyncs := 0
  loaded := []
  patches := []
  cache := []
  form := .module

/-- A form of the device right after a cold reset: no unit, no partition, nothing in memory (R2, R8, R35). -/
def State.resetOf (f : Form) : State where
  core := Core.reset 0
  others := (List.range (f.cores - 1)).map fun k => Core.reset (k + 1)
  mem := []
  pkg := { Package.reset with form := f }
  agenda := []
  free := 0

/-- The machine right after a cold reset: the GZ144-M form, of which the GZ144-P form differs in no behaviour (R2;
notes/assumptions/51.md). -/
def State.reset : State := State.resetOf .module

end Sys2Proof.Machine
end

