-- ==== Sys2Proof/Machine/Memory.lean ====
section
/-! DEFINITION. Byte memories: reading, writing, and their canonical form. -/

namespace Sys2Proof.Machine

/-- What a byte that nothing has written reads as (notes/assumptions/4.md). -/
def memDefault : Byte := 0

/-- The byte at an address. -/
def Memory.read (m : Memory) (a : Nat) : Byte := ((m.find? fun c => c.1 == a).map (·.2)).getD memDefault

/-- The cells of consecutive bytes that differ from the default. -/
def cellsFrom (a : Nat) : List Byte → Memory
  | [] => []
  | b :: bs => if b = memDefault then cellsFrom (a + 1) bs else (a, b) :: cellsFrom (a + 1) bs

/-- Write consecutive bytes at an address. -/
def Memory.write (m : Memory) (a : Nat) (bs : List Byte) : Memory :=
  m.filter (fun c => c.1 < a) ++ cellsFrom a bs ++ m.filter (fun c => a + bs.length ≤ c.1)

/-- n consecutive bytes of a list of cells in rising order. -/
def takeBytes : Nat → Nat → Memory → List Byte
  | 0, _, _ => []
  | n + 1, a, [] => memDefault :: takeBytes n (a + 1) []
  | n + 1, a, c :: m => if c.1 = a then c.2 :: takeBytes n (a + 1) m else memDefault :: takeBytes n (a + 1) (c :: m)

/-- n consecutive bytes at an address. -/
def Memory.bytes (m : Memory) (a n : Nat) : List Byte :=
  takeBytes n a (m.filter fun c => a ≤ c.1 && c.1 < a + n)

/-- Fill a range with the default: the range's cells go. -/
def Memory.clear (m : Memory) (a n : Nat) : Memory := m.filter fun c => c.1 < a || a + n ≤ c.1

/-- n bytes of another memory at a copied to b. -/
def Memory.copyIn (m src : Memory) (a n b : Nat) : Memory :=
  m.filter (fun c => c.1 < b) ++ ((src.filter fun c => a ≤ c.1 && c.1 < a + n).map fun c => (c.1 - a + b, c.2)) ++
    m.filter (fun c => b + n ≤ c.1)

/-- The canonical form: addresses strictly rising from lo on, no entry equal to the default. -/
def wfFrom (lo : Nat) : Memory → Bool
  | [] => true
  | c :: m => lo ≤ c.1 && c.2 != memDefault && wfFrom (c.1 + 1) m

/-- The canonical form of a memory. -/
def Memory.wf (m : Memory) : Bool := wfFrom 0 m

/-- A little-endian value of n bytes (R6). -/
def Memory.le (m : Memory) (a n : Nat) : Nat := leNat (m.bytes a n)

/-- Write a little-endian value of n bytes. -/
def Memory.putLe (m : Memory) (a n x : Nat) : Memory := m.write a (leBytes n x)

/-- The value of a sparse table at an index. -/
def look {α : Type} (d : α) (l : List (Nat × α)) (k : Nat) : α := ((l.find? fun c => c.1 == k).map (·.2)).getD d

/-- A sparse table with one entry replaced, the entries in rising order. -/
def put {α : Type} (l : List (Nat × α)) (k : Nat) (x : α) : List (Nat × α) :=
  l.filter (fun c => c.1 < k) ++ (k, x) :: l.filter (fun c => k < c.1)

/-- A sparse table without an entry. -/
def del {α : Type} (l : List (Nat × α)) (k : Nat) : List (Nat × α) := l.filter fun c => c.1 != k

end Sys2Proof.Machine
end

