-- ==== Sys2Proof/Machine/Ops.lean ====
section
/-! DEFINITION. The named operations that the meanings share: reading and writing registers, waiting, the windows and the
translation of an address, the counters of the levels of work, taking a trap and returning from one. -/

namespace Sys2Proof.Machine

/-- The outcome of a step of this machine. -/
abbrev Out := Host.Outcome State Fault Refusal

/-! ### Updates of one part of the state -/

def State.withCore (s : State) (c : Core) : State := { s with core := c }
def State.regs (s : State) (f : Regs → Regs) : State := { s with core := { s.core with regs := f s.core.regs } }
def State.sys (s : State) (f : Sys → Sys) : State := { s with core := { s.core with sys := f s.core.sys } }
def State.fe (s : State) (f : Front → Front) : State := { s with core := { s.core with fe := f s.core.fe } }
def State.qs (s : State) (f : Queues → Queues) : State := { s with core := { s.core with qs := f s.core.qs } }
def State.lsu (s : State) (f : Lsu → Lsu) : State := { s with core := { s.core with lsu := f s.core.lsu } }
def State.eng (s : State) (f : Eng → Eng) : State := { s with core := { s.core with eng := f s.core.eng } }
def State.mems (s : State) (f : Mems → Mems) : State := { s with core := { s.core with mems := f s.core.mems } }
def State.pkgd (s : State) (f : Package → Package) : State := { s with pkg := f s.pkg }

/-! ### Registers -/

/-- g[r]; g0 reads as 0 (R130). -/
def State.g (s : State) (r : GReg) : Word := if r = 0 then 0 else s.core.regs.g[r]

/-- g[r] ← x, with the dirty bit and no ready time (R140); a write to g0 is discarded (R130, R161). -/
def State.setG (s : State) (r : GReg) (x : Word) : State :=
  if r = 0 then s
  else s.regs fun e => { e with g := e.g.set r.val x, gDirty := e.gDirty ||| BitVec.twoPow 32 r.val, gReady := e.gReady.set r.val 0 }

/-- The predicate register n; p0 is always true (R161). -/
def State.p (s : State) (n : Fin 16) : Pred := if n = 0 then allTrue else s.core.regs.p[n]

/-- The rotating base RB (R169). -/
def State.rb (s : State) : Nat := wfld s.core.sys.loopState 49 5

/-- The physical register that a v code names (R168). -/
def State.phys (s : State) (n : Fin 64) : Fin 64 :=
  if n.val < 32 then n else Fin.ofNat 64 (32 + (n.val - 32 + s.rb) % 32)

/-- The physical vector register. -/
def State.v (s : State) (n : Fin 64) : Vec := s.core.regs.v[n]

/-- Strict mode (R37). -/
def State.strict (s : State) : Bool := wbit s.core.sys.timingCtl 0

/-- TIMING.PAD[n] (R37). -/
def State.pad (s : State) (n : Nat) : Nat := ((s.core.sys.timingPad.toList.getD n 0).toNat) % 2 ^ 20

/-- BANK.FMT[b] (R85). -/
def State.bankFmt (s : State) (b : Nat) : Word := look 13 s.core.sys.bankFmt b

/-- The element type of a bank (R85). -/
def State.bankTy (s : State) (b : Nat) : ElemTy := ElemTy.ofCode (wfld (s.bankFmt b) 0 4)

/-- A value that the spec leaves open, fresh at each use (notes/assumptions/2.md). -/
def State.fresh (s : State) : Word × State := (Config.freeWord s.free, { s with free := s.free + 1 })

/-! ### The bound unit (R317) -/

def State.bind (s : State) : Nat := s.core.slot.act.toNat
def State.uctr (s : State) : Nat := fld s.bind 40 12
def State.lctr (s : State) : Nat := fld s.bind 52 12
def State.partId (s : State) : Nat := fld s.bind 117 4
def State.isGang (s : State) : Bool := bitAt s.bind 124
def State.isSvc (s : State) : Bool := bitAt s.bind 125

/-- The partition of the bound unit. -/
def State.part (s : State) : Option Partition := s.pkg.parts.find? fun p => p.id == s.partId

/-- A counter of the table; an absent entry is free (R25). -/
def Counter.none : Counter := ⟨false, 0, 0, 0, 0, 0, Option.none, 0, 0⟩
def Package.counter (p : Package) (k : Nat) : Counter := look Counter.none p.counters k
/-- A counter reference (R25). -/
def Package.ref (p : Package) (k : Nat) : Nat := k % 4096 + (p.counter k).gen * 4096
def Package.setCounter (p : Package) (k : Nat) (c : Counter) : Package := { p with counters := put p.counters k c }

/-- The counter reference of the bound unit. -/
def State.unitRef (s : State) : Nat := s.pkg.ref s.uctr

/-- The place of the unit's first bind, for the order of R102. -/
def State.bindSeq (s : State) : Nat := (s.pkg.counter s.uctr).bindSeq

/-- The entry is the current unit's: its counter entry, its generation, and its first bind, which no later unit shares (R24). -/
def State.ownEntry (s : State) (e : PorchEntry) : Bool := e.unit == s.unitRef && e.bindSeq == s.bindSeq

/-- The job of the bound unit (R21). -/
def State.job (s : State) : Option Job := s.pkg.jobs.find? fun j => j.ctr == (s.pkg.counter s.uctr).job

/-- The device table of the unit's job (R83, R353). -/
def State.devs (s : State) : List (Nat × Nat) := (s.job.map (·.devs)).getD []

/-- The cores of the unit's partition, in rising package core index (R83). -/
def State.cores (s : State) : List Nat := (s.part.map (·.cores)).getD []

/-! ### Windows (R83, R84, R106) -/

/-- The size of the Attic cache at the top of the user range: 0, 2, 4 or 8 MiB (R106, R121). -/
def State.atticSize (s : State) : Nat :=
  match wfld s.core.sys.atticCache 0 2 with
  | 0 => 0
  | 1 => 2 * 2 ^ 20
  | 2 => 4 * 2 ^ 20
  | _ => 8 * 2 ^ 20

/-- The end of the vault's user range. -/
def State.userEnd (s : State) : Nat := 0x1800000 - s.atticSize

/-- The byte address lies inside its space's window (R83). -/
def State.inWindow (s : State) (spc : Space) (a : Nat) : Bool :=
  match spc with
  | .sp => a < 2 ^ 22
  | .at => a < s.userEnd || (s.core.fe.handler && 0x1800000 ≤ a && a < 0x2000000)
  | .ra => fld a 40 24 == 0 && a < 2 ^ 64 && fld a 25 7 == 0 && fld a 32 8 < s.cores.length && fld a 0 25 < s.userEnd
  | .cl | .hs => a < 2 ^ 56
  | .pr => a < 2 ^ 64 && fld a 56 8 < s.devs.length

/-- A byte range [lo, hi) lies inside one part of the window of its space without gaps. -/
def State.spanIn (s : State) (spc : Space) (lo hi : Int) : Bool :=
  0 ≤ lo &&
    match spc with
    | .sp => hi ≤ 2 ^ 22
    | .at => hi ≤ s.userEnd
    | .ra => lo / 2 ^ 32 == (hi - 1) / 2 ^ 32 && lo / 2 ^ 32 < s.cores.length && lo % 2 ^ 32 < s.userEnd &&
        (hi - 1) % 2 ^ 32 < s.userEnd
    | .cl | .hs => hi ≤ 2 ^ 56
    | .pr => hi ≤ s.devs.length * 2 ^ 56

/-- The first byte of an access outside its window (R84). -/
def State.firstOut (s : State) (spc : Space) (a n : Nat) : Option Nat :=
  ((List.range n).find? fun i => !s.inWindow spc (a + i)).map (a + ·)

/-! ### Location keys: one number for every byte of every memory that translation reaches -/

/-- Key of a Cellar byte at a physical address. -/
def keyCl (pa : Nat) : Nat := pa
/-- Key of a vault byte. -/
def keyVault (core off : Nat) : Nat := 2 ^ 52 + core * 2 ^ 25 + off
/-- Key of a host byte. -/
def keyHost (pa : Nat) : Nat := 2 ^ 53 + pa
/-- Key of a byte of the Cellar of the device with a fabric number. -/
def keyPeer (fab pa : Nat) : Nat := 2 ^ 60 + fab * 2 ^ 52 + pa

/-! ### Translation (R87 to R90) -/

/-- Why a walk fails (R90, R91): the KIND codes 1, 2 and 3. -/
inductive WalkFail where
  | notValid | writeProtect | badEntry
  deriving DecidableEq, Repr

def WalkFail.kind : WalkFail → Nat
  | .notValid => 1 | .writeProtect => 2 | .badEntry => 3

/-- The levels of a table: the low index bit and the index width (R87). -/
def levels : List (Nat × Nat) := [(46, 10), (34, 12), (29, 5), (21, 8), (16, 5)]

/-- The must-be-zero bits of a leaf of 2^size bytes (R88). -/
def leafBad (spc : Space) (size : Nat) (e : Word) : Bool :=
  wfld e 52 6 != 0 ||
  wfld e 16 36 % 2 ^ (size - 16) != 0 ||
  (spc == .hs && wbit e 59) ||
  (!wbit e 58 && wfld e 0 16 != 0)

/-- Walk a table from its root; the entry's address, its word and the log of the page size (R87, R88). -/
def walkFrom (mem : Memory) (base : Nat) (spc : Space) (va : Nat) (table : Nat) :
    List (Nat × Nat) → Except WalkFail (Nat × Word × Nat)
  | [] => .error .badEntry
  | (lo, n) :: rest =>
    let a := base + table + 8 * fld va lo n
    let e : Word := BitVec.ofNat 64 (mem.le a 8)
    if !wbit e 63 then .error .notValid
    else if wbit e 62 then
      if lo = 46 || leafBad spc lo e then .error .badEntry else .ok (a, e, lo)
    else if rest.isEmpty || wfld e 52 10 != 0 || wfld e 0 16 != 0 then .error .badEntry
    else walkFrom mem base spc va (wfld e 16 36 * 2 ^ 16) rest

/-- A walk, with the write check of R90. -/
def walk (mem : Memory) (base : Nat) (spc : Space) (root va : Nat) (write : Bool) : Except WalkFail (Nat × Word × Nat) :=
  match walkFrom mem base spc va root levels with
  | .error f => .error f
  | .ok (a, e, size) => if write && !wbit e 61 then .error .writeProtect else .ok (a, e, size)

/-- The physical address of a virtual one under a leaf (R87). -/
def leafPa (e : Word) (size va : Nat) : Nat := wfld e 16 36 * 2 ^ 16 + va % 2 ^ size

/-- The root of a partition for .CL or .HS. -/
def Partition.root (p : Partition) (spc : Space) : Nat := if spc == .hs then p.rootHs else p.rootCl

/-- An entry of a translation cache that maps an address (R89). -/
def TlbEntry.hits (t : TlbEntry) (part : Nat) (spc : Space) (va : Nat) : Bool :=
  t.part == part && t.spc == spc && t.vpage == va / 2 ^ t.size

/-- What the translation of one byte gives; `cut` names a device to which no route is up (R355, R359). -/
inductive Xlate where
  | key (k : Nat)
  | miss
  | blocked
  | cut (fab : Nat)
  | fail (f : WalkFail)
  deriving DecidableEq, Repr

/-- A write to a page under WB waits; a write to a page without W fails (R90, R92). -/
def leafUse (e : Word) (size va : Nat) (base : Nat → Nat) (write : Bool) : Xlate :=
  if write && !wbit e 61 then .fail .writeProtect
  else if write && wbit e 60 then .blocked
  else .key (base (leafPa e size va))

/-- The port of the route to a fabric number (R355). -/
def Package.port (p : Package) (fab : Nat) : Option Nat :=
  let r := look 0 p.routes fab
  if wbit r 5 && wfld r 0 5 < p.form.ports then some (wfld r 0 5) else none

/-- A route to a fabric number is up (R355, R359). -/
def Package.routeUp (p : Package) (fab : Nat) : Bool :=
  match p.port fab with
  | some k => (p.links.toList[k]?).any (·.up)
  | none => false

/-- A device of a job's device table cannot be reached: it is another one, and no route to it is up (R359). -/
def Package.cutDev (p : Package) (devs : List (Nat × Nat)) (dev : Nat) : Option Nat :=
  match devs[dev]? with
  | some (fab, _) => if fab != p.fabric.toNat % 256 && !p.routeUp fab then some fab else none
  | none => none

/-- The peer of a device index of the job's device table: its fabric number and the root that translates there, when the
peer admits this device; this device is a peer of its own, which holds the job (R83, R353). -/
def State.peerRoot (s : State) (devs : List (Nat × Nat)) (dev : Nat) : Option (Nat × Nat) :=
  match devs[dev]? with
  | none => none
  | some (fab, part) =>
    if fab == s.pkg.fabric.toNat % 256 then (s.pkg.parts.find? fun p => p.id == part).map fun p => (fab, p.rootCl)
    else match s.pkg.peers.find? fun p => p.fab == fab with
    | none => none
    | some p =>
      match p.roots.find? fun r => r.1 == part with
      | none => none
      | some r => if p.admits.contains (part, s.pkg.fabric.toNat % 256) then some (fab, r.2) else none

/-- The key of a physical address under a leaf of .CL or .HS. A .HS leaf names host memory, or after a MIGRATE a page of the
package (notes/assumptions/7.md). -/
def State.keyOf (s : State) (spc : Space) (pa : Nat) : Nat :=
  if spc == .hs && !s.pkg.hsPages.any fun p => p.1 ≤ pa && pa < p.1 + p.2 then keyHost pa else keyCl pa

/-- Translate one byte of a .PR access on the peer (R83): a walk that fails there is for the peer's Hearth, and the access waits; on
this device it is this unit's own fault (R90; notes/assumptions/95.md). -/
def State.xlatePeer (s : State) (devs : List (Nat × Nat)) (a : Nat) (write : Bool) : Xlate :=
  match s.pkg.cutDev devs (fld a 56 8), s.peerRoot devs (fld a 56 8) with
  | some fab, _ => .cut fab
  | none, none => .fail .notValid
  | none, some (fab, root) =>
    let own := fab == s.pkg.fabric.toNat % 256
    match walk s.mem (if own then 0 else keyPeer fab 0) .cl root (fld a 0 56) write with
    | .error f => if own then .fail f else .blocked
    | .ok (_, e, size) =>
      match leafUse e size (fld a 0 56) (if own then keyCl else keyPeer fab) write with
      | .fail f => if own then .fail f else .blocked
      | x => x

/-- The die of this core (R11). -/
def State.die (s : State) : Nat := s.core.idx / Config.coresPerDie

/-- A cached translation of this core or its die (R89). -/
def State.cached (s : State) (spc : Space) (va : Nat) : Option TlbEntry :=
  match s.core.lsu.utlb.find? fun t => t.hits s.partId spc va with
  | some t => some t
  | none => (s.pkg.dieTlb.toList.getD s.die []).find? fun t => t.hits s.partId spc va

/-- Translate one byte for the A-pipe or the fetch: a miss asks for a walk (R89). -/
def State.xlate (s : State) (spc : Space) (a : Nat) (write : Bool) : Xlate :=
  match spc with
  | .sp => .key a
  | .at => .key (keyVault s.core.idx a)
  | .ra => .key (keyVault (s.cores.getD (fld a 32 8) 0) (fld a 0 25))
  | .pr => s.xlatePeer s.devs a write
  | _ =>
    match s.cached spc a with
    | some t => leafUse t.leaf t.size a (s.keyOf spc) write
    | none => .miss

/-- Translate one byte for an engine: on a miss the die's walkers walk at once, as part of the transfer (R89, R205). -/
def State.xlateWalk (s : State) (spc : Space) (a : Nat) (write : Bool) : Xlate :=
  match s.xlate spc a write with
  | .miss =>
    match s.part with
    | none => .fail .notValid
    | some p =>
      match walk s.mem 0 spc (p.root spc) a write with
      | .error f => .fail f
      | .ok (_, e, size) => leafUse e size a (s.keyOf spc) write
  | x => x

/-- The keys of consecutive bytes, or the first byte that has none and why. -/
inductive Keys where
  | ok (ks : List Nat)
  | stop (a : Nat) (x : Xlate)
  deriving DecidableEq, Repr

/-- Gather the keys of byte addresses through a translation. -/
def keysVia (f : Nat → Xlate) : List Nat → Keys
  | [] => .ok []
  | a :: rest =>
    match f a with
    | .key k => (match keysVia f rest with | .ok ks => .ok (k :: ks) | r => r)
    | x => .stop a x

/-- The addresses of n consecutive bytes. -/
def addrs (a n : Nat) : List Nat := (List.range n).map (a + ·)

/-- Every key of an A-pipe access. -/
def State.keys (s : State) (spc : Space) (a n : Nat) (write : Bool) : Keys := keysVia (fun b => s.xlate spc b write) (addrs a n)

/-- Every key of an access, by the tables as they are where no cache holds them. -/
def State.keysWalk (s : State) (spc : Space) (a n : Nat) (write : Bool) : Keys := keysVia (fun b => s.xlateWalk spc b write) (addrs a n)

/-- Write bytes at keys. -/
def putKeys (m : Memory) : List Nat → List Byte → Memory
  | k :: ks, b :: bs => putKeys (m.write k [b]) ks bs
  | _, _ => m

/-! ### Waiting -/

/-- The instruction of the current group does not issue yet: it stands again at the head of its pipe's queue (R16, R130). -/
def State.wait (s : State) : State :=
  let c := s.core.fe.cur
  if c.instr.isX then
    s.fe fun f => { f with xStall := true, xWhy := 2 ^ 17, xq := if f.kernel.isSome then f.xq else c :: f.xq, cur := { c with dead := true } }
  else s.fe fun f => { f with aStall := true, aq := c :: f.aq, cur := { c with dead := true } }

/-- What the machine did lets waiting heads try again, and resets the stall count (R159). -/
def State.progress (s : State) : State := s.fe fun f => { f with aStall := false, xStall := false, stall := 0 }

/-! ### Hatches (R155) -/

/-- A token is pushed; in Strict mode the token of an engine command has a ready time (R40). -/
def State.pushTok (s : State) (h : Fin 16) (t : Option Nat) : State :=
  s.qs fun q => { q with h := q.h.set h.val { q.h[h] with toks := q.h[h].toks ++ [t] } }

/-- The hatch holds its 16 tokens (R155). -/
def State.hatchFull (s : State) (h : Fin 16) : Bool := 16 ≤ s.core.qs.h[h].toks.length

/-! ### Landing (R163) -/

/-- The flags a result raises are set in its landing cycle (R55). -/
def State.raise (s : State) (f : BitVec 5) : State :=
  if f = 0 then s else s.sys fun y => { y with fpFlags := y.fpFlags ||| f.zeroExtend 64 }

/-- Insert a result into a list in order of landing and then of the program (R163). -/
def insertFly (r : Fly) : List Fly → List Fly
  | [] => [r]
  | x :: xs => if r.due < x.due || (r.due == x.due && r.seq ≤ x.seq) then r :: x :: xs else x :: insertFly r xs

/-- Results in order of landing and then of the program (R163, R165). -/
def sortFly (l : List Fly) : List Fly := l.foldr insertFly []

/-- One result reaches visible state. -/
def State.landOne (s : State) (r : Fly) : State :=
  let s := s.raise r.fl
  let s :=
    match r.dst with
    | .v n => s.regs fun e => { e with v := e.v.set n.val (blend r.mask e.v[n] r.val), vDirty := e.vDirty ||| BitVec.twoPow 64 n.val }
    | .s n => s.regs fun e =>
        { e with s := if r.mask.getLsbD 0 then e.s.set n.val (r.val.setWidth 32) else e.s, sDirty := e.sDirty ||| BitVec.twoPow 32 n.val }
    | .p n => if n = 0 then s else
        s.regs fun e => { e with p := e.p.set n.val ((e.p[n] &&& ~~~ r.mask) ||| (r.val.setWidth 1024 &&& r.mask)),
                                 pDirty := e.pDirty ||| BitVec.twoPow 16 n.val }
    | .sq q => s.qs fun u => { u with sq := u.sq.set q.val (u.sq[q] ++ [r.val]) }
    | .cupV off => s.mems fun m =>
        { m with cup := m.cup.write off (vecBytes (blend r.mask (vecOfBytes (m.cup.bytes off 512)) r.val)) }
    | .cupS off => if r.mask.getLsbD 0 then s.mems fun m => { m with cup := m.cup.write off (leBytes 4 r.val.toNat) } else s
    | .none => s
  r.pushes.foldl (fun s h => s.pushTok h none) s

/-- Results due up to the current X-cycle land, in order of landing and then of the program (R163). -/
def State.landDue (s : State) : State :=
  let now := s.core.fe.xnow
  let due := sortFly (s.core.regs.fly.filter fun r => r.due ≤ now)
  let s := s.regs fun e => { e with fly := e.fly.filter fun r => now < r.due }
  due.foldl State.landOne s

/-- The next X-cycle would land a push on a full hatch: the X-pipe stays before it (R156). -/
def State.xBlocked (s : State) : Bool :=
  s.core.regs.fly.any fun r => r.due ≤ s.core.fe.xnow + 1 && r.pushes.any s.hatchFull

/-- The next X-cycle begins: what is due in it lands, before anything issues in it (R162, R163). -/
def State.openX (s : State) : State :=
  (s.fe fun f => { f with xnow := f.xnow + 1, xdone := false, xowed := false }).landDue

/-- The results still in flight after X-cycle t, as replay registers with REMAIN = L − t, in order of landing and then of the
program (R165). -/
def flyToRpl (t : Nat) (fly : List Fly) : List Fly :=
  sortFly ((fly.filter fun r => t < r.due).map fun r => { r with due := r.due - t })

/-- What the unit has started still lands, and nothing of it starts: it is being saved, or waits for the Hearth after a machine check (R323,
R329). -/
def Front.settling (f : Front) : Bool :=
  match f.unit with
  | .saving | .checked _ _ => true
  | _ => false

/-- Nothing of the unit runs again: it has ended, or a machine check discards its core's state (R29, R329). -/
def Front.stopped (f : Front) : Bool :=
  match f.unit with
  | .ended | .checked _ _ => true
  | _ => false

/-! ### Counters (R25 to R28) -/

def stWaiting : Nat := 0
def stRunning : Nat := 1
def stComplete : Nat := 2
def stCancelling : Nat := 3
def stCancelled : Nat := 4
def stFaulted : Nat := 5
def stParked : Nat := 6
def stRetired : Nat := 7

/-- COMPLETE, CANCELLED and FAULTED are final (R27). -/
def stFinal (n : Nat) : Bool := n == stComplete || n == stCancelled || n == stFaulted

/-- The counter word (R25). -/
def Counter.word (c : Counter) : Word :=
  BitVec.ofNat 64 (c.state * 2 ^ 61 + c.level * 2 ^ 58 + min c.failed 0xFFFFFF * 2 ^ 25 + c.outstanding)

/-- The word of a reference whose instance has been released: STATE 7 and nothing else (R160). -/
def retiredWord : Word := BitVec.ofNat 64 (stRetired * 2 ^ 61)

/-- A child of an instance has ended in a final state: the parent's OUTSTANDING and FAILED follow, and a launch or a graph that
has none left ends and is released in turn (R26, R27). Phases end at their boundary and jobs at their last phase. -/
def childEnded (bad : Bool) : Nat → Nat → Package → Package
  | 0, _, p => p
  | fuel + 1, k, p =>
    let c := p.counter k
    let c := { c with outstanding := c.outstanding - 1, failed := if bad then min (c.failed + 1) 0xFFFFFF else c.failed }
    if c.outstanding = 0 && (c.level == 2 || c.level == 3) && !stFinal c.state then
      let fin := if c.state == stCancelling then stCancelled else if c.failed = 0 then stComplete else stFaulted
      let p := p.setCounter k { c with state := fin, live := false }
      match c.parent with
      | some up => childEnded (fin != stComplete) fuel up p
      | none => p
    else p.setCounter k c

/-- A started launch whose counter is final is known to its graph as ended (R22, R28). -/
def Launch.ended (p : Package) (l : Launch) : Launch :=
  match l.ref with
  | none => l
  | some r =>
    let c := p.counter (r % 4096)
    if l.st = 1 && c.level = 2 && c.gen % 4096 = r / 4096 && stFinal c.state then
      { l with st := if c.state = stComplete then 2 else 3 }
    else l

/-- Launches with an edge from one that did not end COMPLETE are not started (R28); the list after one round. -/
def skipLaunches (edges : List (Nat × Nat)) (ls : List Launch) : List Launch :=
  (ls.zip (List.range ls.length)).map fun p =>
    if p.1.st = 0 && edges.any (fun e => e.2 == p.2 && (ls[e.1]?).any fun l => l.st == 3) then { p.1 with st := 3 } else p.1

/-- Rounds until every launch that cannot start is marked. -/
def skipAll (edges : List (Nat × Nat)) : Nat → List Launch → List Launch
  | 0, ls => ls
  | n + 1, ls => skipAll edges n (skipLaunches edges ls)

/-- The number of launches that have been given up without a counter. -/
def unstarted (ls : List Launch) : Nat := (ls.filter fun l => l.st == 3 && l.ref.isNone).length

/-- A graph follows its launches: those that cannot start count as CANCELLED children (R28). -/
def settleGraph (p : Package) (g : Graph) : Package :=
  let ls := g.launches.map (Launch.ended p)
  let ls' := skipAll g.edges ls.length ls
  let p := { p with graphs := p.graphs.map fun x => if x.ctr == g.ctr then { g with launches := ls' } else x }
  (List.range (unstarted ls' - unstarted ls)).foldl (fun p _ => childEnded true 2 g.ctr p) p

/-- Every launch with an edge into launch i has ended COMPLETE (R22). -/
def Graph.ready (g : Graph) (i : Nat) : Bool :=
  g.edges.all fun e => e.2 != i || (g.launches[e.1]?).any fun l => l.st == 2

/-- Launch i of the graph may start: the graph runs, and the launch has not started (R22). -/
def Package.mayStart (p : Package) (g : Graph) (i : Nat) : Bool :=
  (p.counter g.ctr).state == stRunning && (g.launches[i]?).any (·.st == 0) && g.ready i

/-- The launches that may start, in the order in which they became ready; of those that become ready at once, in the order of the graphs
and of their launches (R26; notes/assumptions/109.md). -/
def Package.readied (p : Package) : Package :=
  let may := p.graphs.flatMap fun g => ((List.range g.launches.length).filter (p.mayStart g)).map fun i => (g.ctr, i)
  { p with ready := p.ready.filter may.contains ++ may.filter fun x => !p.ready.contains x }

/-- Every graph follows its launches. -/
def Package.settle (p : Package) : Package := (p.graphs.foldl settleGraph p).readied

/-- An ended unit's arrival leaves a barrier: it counts as arrived at every generation (R154). -/
def Barrier.leave (b : Barrier) (k : Nat) : Barrier := { b with arrived := b.arrived.filter (· != k) }

/-- A unit's counter takes its final state, its parents follow, and its entry is released (R26, R27). -/
def Package.endUnit (p : Package) (k fin : Nat) : Package :=
  let c := p.counter k
  if c.live && !stFinal c.state then
    let p := p.setCounter k { c with state := fin, outstanding := 0, live := false }
    let p := { p with parked := p.parked.filter fun x => fld x.bind 40 12 != k, bars := p.bars.map fun b => (b.1, b.2.leave k) }
    match c.parent with
    | some up => (childEnded (fin != stComplete) 3 up p).settle
    | none => p
  else p

/-! ### The black box (R362) -/

/-- An event enters the ring, unless it is frozen; what its 32 bytes hold the spec does not say (notes/assumptions/2.md). -/
def State.bb (s : State) (k : BbKind) : State :=
  let b := s.pkg.bbox
  if b.frozen then s
  else
    { s with pkg := { s.pkg with bbox := ⟨put b.events (b.head % 4096) ⟨k, s.core.idx, s.free⟩, b.head + 1, false⟩ }
             free := s.free + 4 }

/-! ### Error logs and machine checks (R127, R228, R360, R361) -/

/-- KIND codes of a log entry. -/
def kCorrected : Nat := 1
def kUncorrectable : Nat := 2
def kReplay : Nat := 3
def kSecond : Nat := 4
def kLinkReplay : Nat := 5
def kLinkDown : Nat := 6
def kLinkUp : Nat := 7

/-- An entry of an error log; TIME is a free value (notes/assumptions/2.md). -/
def elogEntry (kind src core addr time : Nat) : Nat :=
  addr % 2 ^ 64 * 2 ^ 64 + core % 256 * 2 ^ 56 + kind % 16 * 2 ^ 52 + src % 16 * 2 ^ 48 + time % 2 ^ 48

/-- The log of a level takes an entry, and the counts follow (R361). -/
def Level.add (l : Level) (kind entry : Nat) : Level :=
  { l with
    head := l.head + 1
    log := put l.log (l.head.toNat % 256) entry
    ce := if kind = kCorrected || kind = kReplay || kind = kLinkReplay then l.ce + 1 else l.ce
    ue := if kind = kUncorrectable || kind = kLinkDown then l.ue + 1 else l.ue }

/-- An error is logged at its level; levels 5 and 7 also in the black box (R361, R362). -/
def State.elog (s : State) (level kind src core addr : Nat) : State :=
  let (t, s) := s.fresh
  let e := elogEntry kind src core addr t.toNat
  let s := s.pkgd fun p => { p with levels := vmap (fun i l => if i.val = level then l.add kind e else l) p.levels }
  if level = 5 || level = 7 then s.bb (.log level kind) else s

/-- MACHINE_CHECK is raised to the Hearth, with the PIPE that met the error, and enters the black box (R362): nothing of the unit issues until the Hearth acts. Of a unit that has ended already the
command only stops (R29, R127, R228, R329). -/
def State.machineStop (s : State) (fab : Option Nat) (pipe : Nat) : State :=
  let s := (s.bb (.trap .machineCheck)).bb .machineCheck
  if s.core.fe.stopped then s else s.fe fun f => { f with unit := .checked fab pipe }

/-- The key of a poisoned word of the Attic or the Cellar (R360). -/
def Poison.key (p : Poison) : Option Nat :=
  if p.level = 3 then some (keyVault p.core p.addr) else if p.level = 6 then some (keyCl p.addr) else none

/-- A mark lies under one of the keys. -/
def Poison.under (p : Poison) (ks : List Nat) : Bool :=
  match p.key with
  | some b => ks.any fun k => b ≤ k && k < b + 8
  | none => false

/-- A mark of this core's memory of a level lies in a byte range. -/
def State.marked (s : State) (level a n : Nat) (p : Poison) : Bool :=
  p.level = level && p.core = s.core.idx && p.addr < a + n && a < p.addr + 8

/-- Words with an error that can be corrected are read: each is corrected and logged (R223, R228, R361). -/
def State.correct (s : State) (f : Poison → Bool) : State :=
  let s' : State := s.pkgd fun g => { g with weak := g.weak.filter fun p => !f p }
  (s.pkg.weak.filter f).foldl (fun s p => s.elog p.level kCorrected 0 p.core p.addr) s'

/-- The first read of a poisoned word: the error is logged, its mark goes, and the unit stops (R127, R228, R360). -/
def State.meetPoison (s : State) (pipe : Nat) (f : Poison → Bool) : State :=
  match s.pkg.poison.find? f with
  | none => s.correct f
  | some p =>
    ((s.pkgd fun g => { g with poison := g.poison.filter fun x => x != p }).elog p.level kUncorrectable 0 p.core p.addr).machineStop none pipe

/-! ### Ending a unit that stops early (R124, R126, R29) -/

/-- A REDUCE.BIN (R220). -/
def EngCmd.isBin (c : EngCmd) : Bool := match c.instr with | .reduceBin _ => true | _ => false

/-- A started command that waits for another device only, until it is cancelled: a REDUCE.BIN for its parties (R220), a RESHARD for its
receivers (R309). -/
def EngCmd.waitsOut (c : EngCmd) : Bool :=
  c.st == .running && match c.instr with | .reduceBin _ | .reshard _ => true | _ => false

/-- Commands that have not started are discarded, and those that wait for another device; the rest go on (R29, R220, R309). -/
def Eng.dropWaiting (e : Eng) : Eng :=
  { q := vmap (fun _ l => l.filter fun c => c.st != .waiting && !c.waitsOut) e.q
    side := e.side.filter fun c => c.st != .waiting }

/-- The core number of a sub-transfer whose command a cancel has stopped: it lands, and nobody waits for its acknowledgement (R29). -/
def noCore : Nat := 255

/-- Sub-transfers in flight of a core have no command any more: those to this device still land here. -/
def Package.orphan (p : Package) (core : Nat) : Package :=
  { p with rsFly := (p.rsFly.filter fun f => f.core != core || (f.fab == p.fabric.toNat % 256 && !f.landed)).map fun f =>
      if f.core = core then { f with core := noCore } else f }

/-- The command that a failed walk has stopped counts as not started; it keeps its progress (R90, R322). A page of the circuit's object
that was on its way is asked for again. -/
def State.backOut (s : State) : State :=
  match s.core.fe.fault with
  | none => s
  | some t =>
    let back (c : EngCmd) : EngCmd := if c.pc == t.cpc && c.st == .running then { c with st := .waiting, popped := true } else c
    if t.pipe < 3 || t.pipe = 7 then s
    else
      let s := s.eng fun e => { e with q := vmap (fun i l => if i.val + 3 = t.pipe then l.map back else l) e.q }
      if t.pipe = 6 then s.withCore { s.core with circ := { s.core.circ with flight := [] } } else s

/-- The unit ends in a final state without its completion: dispatch and issue stop, commands that have not started are
discarded, as are queue stores without their items and streams, and the counters follow (R27, R29, R124, R126). A unit stopped by a cancel also loses its Porch entries (R29, R30). -/
def State.endUnit (s : State) (fin : Nat) (dropPorch : Bool) : State :=
  let u := s.uctr
  let s := s.fe fun f =>
    { f with unit := .ended, aq := [], xq := [], mac := none, kernel := none, handler := false, resume := none, causes := [],
             block := true, cur := { f.cur with dead := true }, skip := [], waitOn := none, mark := none, barrier := none,
             preReq := none }
  let s := s.backOut.eng Eng.dropWaiting
  let s := s.fe fun f => { f with fault := none }
  let s := s.regs fun r => { r with fly := [], rpl := [] }
  let s := s.qs fun u => { u with lin := Vector.replicate 8 [], taker := Vector.replicate 4 [] }
  let s := s.withCore { s.core with prevJob := some (s.pkg.ref (s.pkg.counter u).job), resh := none }
  let s := if dropPorch then s.lsu fun l => { l with porch := l.porch.filter fun e => !s.ownEntry e } else s
  (s.pkgd fun p => p.orphan s.core.idx).pkgd fun p => p.endUnit u fin

/-! ### Taking a trap (R124 to R126) -/

/-- The code of a cause (R124, R284, R309). -/
def Cause.code : Cause → Nat
  | .illegal => 0x01 | .illegalOperand => 0x02 | .bounds => 0x03 | .porchFull => 0x04 | .overrun => 0x05
  | .hatchDeadlock => 0x06 | .gangRequired => 0x07 | .software => 0x08
  | .sparseMeta => 0x10 | .scaleQueueImbalance => 0x11 | .scaleInvalid => 0x12 | .bankConflict => 0x13
  | .headroom => 0x14 | .cxFormat => 0x15 | .cxRange => 0x16
  | .circuitObject => 0x18 | .circuitNode => 0x19 | .reshardLayout => 0x1A | .reshardProgress => 0x1B
  | .reshardLink => 0x1C
  | .pageFault => 0x20 | .machineCheck => 0x21 | .macroNoBoundary => 0x22 | .doubleTrap => 0x23

/-- TRAP.CAUSE (R125). -/
def causeWord (pipe : Nat) (inmac paired inloop : Bool) (code : Nat) : Word :=
  BitVec.ofNat 64 (pipe * 2 ^ 40 + Bool.bit inmac * 2 ^ 33 + Bool.bit paired * 2 ^ 32 + Bool.bit inloop * 2 ^ 31 + code)

/-- TRAP.QPOS: the commands of each queue that are not yet complete (R125). -/
def Eng.qpos (e : Eng) : Word :=
  BitVec.ofNat 64 (pack 8 (e.q.toList.map fun l => (l.filter fun c => c.st != .done).length))

/-- The resumption PC of the A-pipe: its first instruction not issued, or the next one fetched (R125, R126). -/
def Front.aPc (f : Front) : Word :=
  match f.aq with
  | c :: _ => c.pc
  | [] => match f.mac with | some m => m.layer.pc | none => f.pc

/-- The resumption PC of the X-pipe, when it holds an instruction that has not issued: inside a kernel, the header's (R169). -/
def Front.xPc? (f : Front) : Option Word :=
  match f.kernel with
  | some k => some k.pc
  | none => f.xq.head?.map (·.pc)

/-- Write the trap registers (R125). -/
def Sys.record (y : Sys) (t : TrapRec) (inloop : Bool) (qpos : Word) : Sys :=
  { y with
    trapCause := causeWord t.pipe t.upc.isSome t.paired inloop t.cause.code
    trapPc := t.pc
    trapOpc := t.opc
    trapMpc := if t.upc.isSome then t.pc else 0
    trapUpc := BitVec.ofNat 64 (t.upc.getD 0 % 8192)
    trapCpc := t.cpc
    trapFoot := (((Vector.replicate 4 (0 : Word)).set 0 (t.foot.getD 0 0)).set 1 (t.foot.getD 1 0)).set 2 (t.foot.getD 2 0) |>.set 3 (t.foot.getD 3 0)
    trapQpos := qpos
    trapInfo := t.info
    mloopStk := if t.upc.isSome then t.stk else y.mloopStk }

/-- TAKING A TRAP (R124, R126): the trap registers record it, the results in flight go to the replay registers, the words that
have not issued are kept for ERET, handler mode begins and fetch goes to TRAP.VEC. Without a handler the unit ends FAULTED with
the cause in its trap record; a synchronous cause in handler mode ends it FAULTED with DOUBLE_TRAP. `s` holds the stopped words
in its queues, the faulting one at the head of its own. -/
def State.takeTrap (s : State) (t : TrapRec) : State :=
  let s := if t.pipe != 2 && s.core.fe.xdone && !s.xBlocked then s.openX else s
  let f := s.core.fe
  if f.handler then
    let s := s.sys fun y => { y with trapCause := setFld y.trapCause 0 8 Cause.doubleTrap.code }
    (s.bb (.trap .doubleTrap)).endUnit stFaulted false
  else
    let stk := s.core.sys.mloopStk
    let s := s.sys fun y => y.record t f.kernel.isSome s.core.eng.qpos
    if !wbit s.core.sys.trapVec 0 then s.endUnit stFaulted false
    else
      let keep : Resume := ⟨t.pipe, t.pc, t.opc, f.aq, f.xq, f.pc, f.kernel, f.mac.map fun m => (m.layer, m.upc), t.held, stk, f.seq, t.upc⟩
      let s := s.regs fun r => { r with rpl := flyToRpl f.xnow r.fly, fly := [] }
      s.fe fun f =>
        { f with handler := true, resume := some keep, aq := [], xq := [], kernel := none, mac := none,
                 pc := s.core.sys.trapVec &&& ~~~ 7, block := false, serial := false, hold := 0, slot := 0, part := 0,
                 skip := [], waitOn := none, mark := none, aStall := false, xStall := false, xdone := false, xowed := false, xahead := 0,
                 cur := { f.cur with dead := true } }

/-- A synchronous trap at the current group (R126 step 1): the group stands again at the head of its pipe's queue. -/
def State.trapAt (s : State) (pipe : Nat) (cause : Cause) (info : Word) (foot : List Word) : State :=
  let c := s.core.fe.cur
  let s := s.fe fun f =>
    if pipe == 2 then { f with xq := if f.kernel.isSome then f.xq else c :: f.xq } else { f with aq := c :: f.aq }
  let f := s.core.fe
  let pc := if pipe == 2 then (f.kernel.map (·.pc)).getD c.pc else c.pc
  let opc := if pipe == 2 then (f.aq.head?.map (·.pc)).getD pc else f.xPc?.getD pc
  s.takeTrap ⟨pipe, cause, info, pc, if pipe == 0 then pc else opc, c.upc, c.stk, c.paired, 0, foot, none⟩

/-- A trap of the A-pipe (PIPE 1). -/
def State.aTrap (s : State) (cause : Cause) (info : Word) : Out := .next (s.trapAt 1 cause info [])

/-- A trap of the A-pipe whose TRAP.INFO the spec does not state: a free value (notes/assumptions/2.md). -/
def State.aTrapFree (s : State) (cause : Cause) : Out := let (w, s) := s.fresh; s.aTrap cause w

/-- What stops the pipes between two instructions records: the resumption PCs of R125, and the macro that the A-pipe's next word
belongs to. -/
def State.boundary (s : State) (pipe : Nat) (cause : Cause) (info : Word) : TrapRec :=
  let f := s.core.fe
  let pc := f.aPc
  let upc := match f.aq with | c :: _ => c.upc | [] => f.mac.map (·.upc)
  let stk := match f.aq with | c :: _ => c.stk | [] => s.core.sys.mloopStk
  ⟨pipe, cause, info, pc, f.xPc?.getD pc, upc, stk, (f.aq.head?).any (·.paired), 0, [], none⟩

/-- An engine cause taken by the pipes (R126 step 2): PIPE is 3 plus the queue's number, TRAP.PC the A-pipe's resumption PC. -/
def State.engTrap (s : State) (e : EngCause) : State :=
  s.takeTrap { s.boundary (3 + e.queue.val) e.cause e.info with paired := false, cpc := e.pc, foot := e.foot, held := some e }

end Sys2Proof.Machine
end

