-- ==== Sys2Proof/Machine/Operands.lean ====
section
/-! DEFINITION. Operand forms of the A-pipe: immediates, addresses, and when a group may issue (R73, R74, R77, R130, R140). -/

namespace Sys2Proof.Machine

/-- An immediate of width w: the sign-extended field, or the value under XIMM (R73). -/
def extend (w field : Nat) : Option (BitVec 50) → Word
  | none => word (sint w field)
  | some p => word (sint (50 + w) (p.toNat * 2 ^ w + field))

/-- The 32-bit immediate of the current group. -/
def State.imm (s : State) (i : BitVec 32) : Word := extend 32 i.toNat s.core.fe.cur.ximm

/-- The address operand of format AM (R77). -/
def State.am (s : State) (m : MemOp) : Word :=
  s.g m.base + s.g m.idx <<< m.sc.val + extend 28 m.disp.toNat s.core.fe.cur.ximm

/-- The address operand without an index: CAS and the streams (R141, R146). -/
def State.amBase (s : State) (base : GReg) (disp : BitVec 28) : Word :=
  s.g base + extend 28 disp.toNat s.core.fe.cur.ximm

/-- Whether a group may issue now, must wait, or meets its deadline without its data. -/
inductive Gate where
  | go | wait | overrun
  deriving DecidableEq, Repr

/-- The outstanding load or AMO that will write g[r] (R130). -/
def State.pending (s : State) (r : GReg) : Option Acc :=
  if r = 0 then none
  else s.core.lsu.acc.find? fun a => match a.kind with
    | .load d _ => d == r
    | .amo d _ => d == r
    | _ => false

/-- A g register of an instruction: a pending write holds every reader and writer; in Strict mode a reader waits to the ready
time, and data absent then is OVERRUN (R130, R140). -/
def State.regGate (s : State) (r : GReg) : Gate :=
  match s.pending r with
  | some a =>
    match a.ready with
    | some t => if t ≤ s.core.fe.cycle then .overrun else .wait
    | none => .wait
  | none => if r != 0 && (s.core.fe.cycle < s.core.regs.gReady[r] || s.core.fe.cycle < s.core.regs.gLat[r]) then .wait else .go

/-- The first gate of a list that is not open. -/
def firstGate : List Gate → Gate
  | [] => .go
  | .go :: gs => firstGate gs
  | g :: _ => g

/-- STAMP in Strict mode (R74). -/
def State.stampGate (s : State) : Gate :=
  match s.core.fe.cur.stamp with
  | some t =>
    if s.strict then
      let d := (t.toNat + 2 ^ 32 - wfld s.core.sys.frame 0 32) % 2 ^ 32
      if d = 0 then .go else if d < 2 ^ 31 then .wait else .overrun
    else .go
  | none => .go

/-- A g register that an instruction writes: a pending write holds it (R130). -/
def State.destGate (s : State) (r : GReg) : Gate :=
  if (s.pending r).isSome || (r != 0 && s.core.fe.cycle < s.core.regs.gLat[r]) then .wait else .go

/-- CEWAIT, RSWAIT and RSWAIT.RECV hold every later A-pipe instruction (R291, R311). -/
def holdsA : Instr → Bool
  | .cewait _ _ | .rswait _ | .rswaitRecv _ _ => true
  | _ => false

/-- The A-pipe waits for such a command; in Strict mode it resumes at a set cycle, and a command that has not finished then makes
the next instruction OVERRUN. A handler's instructions do not wait (R283). -/
def State.engGate (s : State) : Gate :=
  if s.core.fe.handler then .go
  else if s.core.fe.cycle < s.core.fe.aFrom then .wait
  else if (s.core.eng.q[(3 : Fin 5)] ++ s.core.eng.q[(4 : Fin 5)]).any fun c => holdsA c.instr && c.st != .done then
    (if s.strict then .overrun else .wait)
  else .go

/-- Whether the current group may issue on the A-pipe, given the g registers it reads and those it writes (R130). -/
def State.aGate (s : State) (rs ws : List GReg) : Gate :=
  firstGate (s.engGate :: rs.map s.regGate ++ ws.map s.destGate ++ [s.stampGate])

/-- Issue on the A-pipe, given the g registers read and written: wait, or take OVERRUN, or go on (R130, R140, R74). -/
def State.aIssue (s : State) (rs ws : List GReg) (k : State → Out) : Out :=
  match s.aGate rs ws with
  | .go => k s
  | .wait => .next s.wait
  | .overrun => s.aTrapFree .overrun

/-- An A-pipe group that completes at issue; the A-pipe has issued in this cycle (R130). -/
def done (s : State) : Out := .next (s.progress.fe fun f => { f with adone := true })

/-- The ready time of an access of class n that issues now (R40). -/
def State.readyAt (s : State) (n : Nat) : Option Nat := if s.strict then some (s.core.fe.cycle + s.pad n) else none

/-- The access class of a space (R38): a vault of the other die is class 3. -/
def State.accClass (s : State) (spc : Space) (a : Nat) : Nat :=
  match spc with
  | .sp => 0
  | .at => 1
  | .ra => if s.cores.getD (fld a 32 8) 0 / Config.coresPerDie == s.core.idx / Config.coresPerDie then 2 else 3
  | .cl => 4
  | .hs => 5
  | .pr => 6

end Sys2Proof.Machine
end

