-- ==== Sys2Proof/Machine/Notify.lean ====
section
/-! DEFINITION. The notification ring and the suspension of a unit on a failed walk (R90, R91). -/

namespace Sys2Proof.Machine

/-- A notification record without its WRAP bit (R91). -/
def noteRec (va count unit part core spc kind : Nat) : Nat :=
  va % 2 ^ 56 * 2 ^ 72 + count % 2 ^ 16 * 2 ^ 56 + unit % 2 ^ 12 * 2 ^ 44 + part % 16 * 2 ^ 40 + core % 256 * 2 ^ 32 +
    spc % 16 * 2 ^ 28 + kind % 16 * 2 ^ 24

/-- The records of the ring (R91). -/
def Notify.size (n : Notify) : Nat := 2 ^ wfld n.base 0 4

/-- The ring is full (R91). -/
def Notify.full (n : Notify) : Bool := n.size ≤ (n.head - n.tail).toNat

/-- Write one record at HEAD, its WRAP bit with it. -/
def State.pushNote (s : State) (r : Nat) : State :=
  let n := s.pkg.notify
  let i := n.head.toNat
  let a := wfld n.base 12 40 * 2 ^ 12 + 16 * (i % n.size)
  { s with mem := s.mem.putLe (keyCl a) 16 (r + i / n.size % 2)
           pkg := { s.pkg with notify := { n with head := n.head + 1 } } }

/-- Fault records that were held enter the ring while it has room (R91). -/
def State.flushNotes : Nat → State → State
  | 0, s => s
  | fuel + 1, s =>
    match s.pkg.notify.pending with
    | [] => s
    | r :: rest =>
      if s.pkg.notify.full then s
      else
        let s := s.pushNote r
        State.flushNotes fuel { s with pkg := { s.pkg with notify := { s.pkg.notify with pending := rest } } }

/-- A record is pushed: a full ring holds a fault record and drops a COUNTER record (R91). -/
def State.note (s : State) (r : Nat) (fault : Bool) : State :=
  let n := s.pkg.notify
  if n.full then
    if fault then { s with pkg := { s.pkg with notify := { n with pending := n.pending ++ [r] } } }
    else { s with pkg := { s.pkg with notify := { n with lost := n.lost + 1 } } }
  else s.pushNote r

/-- A failed walk suspends the whole unit, and its record is pushed (R90); `t` is what the unit's trap record will hold if the Hearth
ends it. -/
def State.pageFaultAt (s : State) (t : TrapRec) (spc : Space) (va : Nat) (f : WalkFail) : State :=
  let s := s.fe fun e => { e with
    unit := match e.unit with
      | .suspended f => .suspended f
      | u => .suspended (u == .ending)
    fault := match e.fault with
      | some r => some r
      | none => some t }
  (s.bb (.trap .pageFault)).note (noteRec va 0 s.uctr s.partId s.core.idx spc.code f.kind) true

/-- A failed walk of the A-pipe: at its next word, which a group reports as PAIRED (R71, R90). -/
def State.pageFault (s : State) (spc : Space) (va : Nat) (f : WalkFail) : State :=
  s.pageFaultAt (s.boundary 1 .pageFault 0) spc va f

/-- An entry enters the cache of a die; the oldest leaves a full one, and its access count is written back (R89, R91). -/
def State.fillDie (s : State) (die : Nat) (t : TlbEntry) : State :=
  let l := s.pkg.dieTlb.toList.getD die []
  let out := (l.drop 16383).filter fun x => wbit x.leaf 58
  let mem := out.foldl (fun m x => m.putLe x.entryAt 2 x.count) s.mem
  { s with mem := mem, pkg := { s.pkg with dieTlb := vmap (fun i l => if i.val == die then (t :: l).take 16384 else l) s.pkg.dieTlb } }

/-- The entry of a walk's leaf. -/
def leafEntry (part : Nat) (spc : Space) (va ea : Nat) (e : Word) (size : Nat) : TlbEntry := ⟨part, spc, va / 2 ^ size, size, e, ea, wfld e 0 16⟩

/-- An entry enters the micro-TLB of the core and the cache of its die (R89). -/
def State.fillTlb (s : State) (t : TlbEntry) : State :=
  (s.lsu fun l => { l with utlb := (t :: l.utlb).take 64 }).fillDie s.die t

/-- The pages of a transfer that no cache holds are walked, and the caches take their leaves (R89). -/
def State.fillWalks (s : State) (spc : Space) (a n : Nat) : State :=
  if spc == .cl || spc == .hs then
    ((List.range ((a + n - 1) / 2 ^ 16 - a / 2 ^ 16 + 1)).map fun k => max a ((a / 2 ^ 16 + k) * 2 ^ 16)).foldl (fun s va =>
      match s.cached spc va, s.part with
      | none, some p =>
        match walk s.mem 0 spc (p.root spc) va false with
        | .ok (ea, e, size) => s.fillTlb (leafEntry s.partId spc va ea e size)
        | .error _ => s
      | _, _ => s) s
  else s

/-- Translate a byte of a partition's space for what runs on no core, through the cache of a die (R89). -/
def State.dieXlate (s : State) (die : Nat) (p : Partition) (spc : Space) (va : Nat) (write : Bool) : Xlate × State :=
  match (s.pkg.dieTlb.toList.getD die []).find? fun t => t.hits p.id spc va with
  | some t => (leafUse t.leaf t.size va (s.keyOf spc) write, s)
  | none =>
    match walk s.mem 0 spc (p.root spc) va write with
    | .error f => (.fail f, s)
    | .ok (ea, e, size) => (leafUse e size va (s.keyOf spc) write, s.fillDie die (leafEntry p.id spc va ea e size))

/-- The keys of bytes of a partition's space, through the cache of a die. -/
def State.dieKeys (die : Nat) (p : Partition) (spc : Space) (write : Bool) : List Nat → State → Keys × State
  | [], s => (.ok [], s)
  | a :: rest, s =>
    match s.dieXlate die p spc a write with
    | (.key k, s) => (match State.dieKeys die p spc write rest s with | (.ok ks, s) => (.ok (k :: ks), s) | r => r)
    | (x, s) => (.stop a x, s)

/-- A walk of the page is under way: misses of one die to one page of a partition merge (R89). -/
def State.walkAsked (s : State) (spc : Space) (va : Nat) : Bool :=
  (s.core :: s.others).any fun c => c.idx / Config.coresPerDie == s.die && fld c.slot.act.toNat 117 4 == s.partId &&
    c.lsu.walks.any fun w => w.spc == spc && w.va / 2 ^ 16 == va / 2 ^ 16

/-- An access that missed asks a walker, unless one is walking for its page (R89). -/
def State.askWalk (s : State) (spc : Space) (va : Nat) (write fetch : Bool) : State :=
  if s.walkAsked spc va then s
  else s.lsu fun l => { l with walks := l.walks ++ [⟨spc, va, write, fetch⟩] }

/-- One count of the translation cache for a .HS access; when it reaches the threshold it is cleared and a COUNTER record is pushed
(R91). A count that stands above a threshold written later reaches it no more: the model's choice (notes/assumptions/106.md). -/
def State.countHs (s : State) (va : Nat) : State :=
  let thr := wfld s.pkg.notify.thr 0 16
  let tlb := s.pkg.dieTlb.toList.getD s.die []
  match tlb.find? fun t => t.hits s.partId .hs va with
  | some t =>
    if thr = 0 || !wbit t.leaf 58 then s
    else
      let n := t.count + 1
      let set (k : Nat) : List TlbEntry := tlb.map fun e => if e == t then { e with count := k } else e
      let put (k : Nat) (s : State) : State :=
        s.pkgd fun p => { p with dieTlb := vmap (fun i l => if i.val == s.die then set k else l) p.dieTlb }
      if n = thr then (put 0 s).note (noteRec (t.vpage * 2 ^ t.size) thr 0 s.partId s.core.idx Space.hs.code 4) false
      else put n s
  | none => s

end Sys2Proof.Machine
end

