-- ==== Sys2Proof/Machine/Footprint.lean ====
section
/-! DEFINITION. Footprints and the range checker (R210 to R212), and the order of accesses by location (R96, R150). -/

namespace Sys2Proof.Machine

/-! ### Footprint words (R210) -/

/-- The access codes of a footprint word: 1 read, 2 write, 3 both. -/
def footSp (acc lo hi : Nat) : Word := BitVec.ofNat 64 (2 ^ 62 + acc * 2 ^ 60 + hi % 2 ^ 22 * 2 ^ 22 + lo % 2 ^ 22)
def footLoft (acc s0 s1 o0 o1 : Nat) : Word :=
  BitVec.ofNat 64 (2 * 2 ^ 62 + acc * 2 ^ 60 + s0 % 128 * 2 ^ 53 + s1 % 128 * 2 ^ 46 + o1 % 2 ^ 16 * 2 ^ 16 + o0 % 2 ^ 16)
def footAcc (acc bits : Nat) : Word := BitVec.ofNat 64 (3 * 2 ^ 62 + acc * 2 ^ 60 + bits % 2 ^ 10)

/-- The intervals [a, b] and [c, d] meet. -/
def meets (a b c d : Nat) : Bool := a ≤ d && c ≤ b

/-- Two footprint words conflict (R212). -/
def wordsConflict (x y : Word) : Bool :=
  let k := wfld x 62 2
  k != 0 && k == wfld y 62 2 && (2 ≤ wfld x 60 2 || 2 ≤ wfld y 60 2) &&
    match k with
    | 1 => meets (wfld x 0 22) (wfld x 22 22) (wfld y 0 22) (wfld y 22 22)
    | 2 => meets (wfld x 53 7) (wfld x 46 7) (wfld y 53 7) (wfld y 46 7) &&
        meets (wfld x 0 16) (wfld x 16 16) (wfld y 0 16) (wfld y 16 16)
    | _ => wfld x 0 10 &&& wfld y 0 10 != 0

/-- Two footprints conflict (R212). -/
def footsConflict (xs ys : List Word) : Bool := xs.any fun x => ys.any (wordsConflict x)

/-! ### Streams (R147) -/

/-- The number of items. -/
def Shape.count (h : Shape) : Nat := (h.c0 + 1) * (h.c1 + 1) * (h.c2 + 1)

/-- The address of item k, which may lie outside every window (R147). -/
def Stream.itemAt (t : Stream) (k : Nat) : Int :=
  let h := t.shape
  let i0 := k % (h.c0 + 1)
  let i1 := k / (h.c0 + 1) % (h.c1 + 1)
  let i2 := k / (h.c0 + 1) / (h.c1 + 1)
  t.start.toNat + 4 * (i0 * h.s0 + i1 * h.s1 + i2 * h.s2)

/-- The items from k on, in order: does one of the next n satisfy f? -/
def anyItem (t : Stream) (f : Int → Bool) : Nat → Nat → Bool
  | 0, _ => false
  | n + 1, k => f (t.itemAt k) || anyItem t f n (k + 1)

/-- The hull of the items: its least byte and the byte after its greatest (R211). -/
def Stream.hull (t : Stream) : Int × Int :=
  let h := t.shape
  let lo (c : Nat) (s : Int) : Int := min 0 (c * s)
  let hi (c : Nat) (s : Int) : Int := max 0 (c * s)
  (t.start.toNat + 4 * (lo h.c0 h.s0 + lo h.c1 h.s1 + lo h.c2 h.s2),
   t.start.toNat + 4 * (hi h.c0 h.s0 + hi h.c1 h.s1 + hi h.c2 h.s2) + h.ilen)

/-- An item not yet done overlaps the n bytes at a (R150). -/
def Stream.touches (t : Stream) (a n : Nat) : Bool :=
  t.hull.1 < a + n && a < t.hull.2 &&
    anyItem t (fun x => x < a + n && a < x + t.shape.ilen) (t.shape.count - t.done) t.done

/-! ### Locations (R83, R103) -/

/-- The space and address by which a location is named: a .RA address in the issuing core's own vault is that of .AT. -/
def State.loc (s : State) (spc : Space) (a : Nat) : Nat × Nat :=
  if spc == .ra && s.cores[fld a 32 8]? == some s.core.idx then (Space.at.code, fld a 0 25) else (spc.code, a)

/-- Two ranges of locations overlap. -/
def State.overlap (s : State) (x : Space) (a n : Nat) (y : Space) (b m : Nat) : Bool :=
  let p := s.loc x a
  let q := s.loc y b
  p.1 == q.1 && p.2 < q.2 + m && q.2 < p.2 + n

/-- A stream's remaining items overlap a range of locations. -/
def State.streamOver (s : State) (t : Stream) (spc : Space) (a n : Nat) : Bool :=
  if t.spc == spc then t.touches a n
  else anyItem t (fun x => s.overlap t.spc x.toNat t.shape.ilen spc a n) (t.shape.count - t.done) t.done

/-- A place in program order belongs to the trap handler that runs, or to one that has returned: its places lie between two of the
unit's own (R126; `seqStep`). -/
def State.ofHandler (s : State) (seq : Nat) : Bool :=
  seq % seqStep != 0 || (s.core.fe.handler && (s.core.fe.resume.map (·.seq0)).getD 0 ≤ seq)

/-- An access x comes before one at `seq` in the same stream: a handler's come in order among themselves and before everything that the
unit issues after ERET (R20). Against the unit's own A-pipe accesses that were not performed when the trap was taken (held stores,
claims of queue stores, stream items) a handler's accesses are not ordered here: R20 names engine commands only, and the choice is the
model's (notes/assumptions/96.md). -/
def State.earlier (s : State) (seq x : Nat) : Bool := x < seq && (s.ofHandler x || !s.ofHandler seq)

/-- A command comes before an access or a command at `seq`: a handler's are ordered after the unit's running commands too, and free
of the held and waiting ones (R20, R224, R244). -/
def State.cmdEarlier (s : State) (seq : Nat) (c : EngCmd) : Bool :=
  c.seq < seq && (s.ofHandler c.seq || !s.ofHandler seq || c.st == .running)

/-- An access x comes before the start of a command at `seq`. What a handler has left in flight comes before every start after its
ERET, a held command's included (R20, R128, R244). -/
def State.beforeStart (s : State) (seq x : Nat) : Bool := s.earlier seq x || (s.ofHandler x && !s.core.fe.handler)

/-- Earlier queue stores and output-stream items that have not landed overlap a range (R96, R150). After AFENCE a claim is met by its
physical bytes too (R103). -/
def State.unlandedBy (s : State) (e : Nat → Bool) (spc : Space) (a n : Nat) (keys : List Nat) : Bool :=
  s.core.qs.taker.toList.any fun l => l.any fun t =>
    match t with
    | .claim x b m ks _ q => e q && (s.overlap x b m spc a n || (s.core.fe.byPhys && keys.any ks.contains))
    | .stream t => e t.seq && s.streamOver t spc a n

def State.unlanded (s : State) (spc : Space) (a n : Nat) (keys : List Nat) (seq : Nat) : Bool :=
  s.unlandedBy (s.earlier seq) spc a n keys

/-- Items that an earlier input stream has not fetched overlap a range (R150). -/
def State.unfetchedBy (s : State) (e : Nat → Bool) (spc : Space) (a n : Nat) : Bool :=
  s.core.qs.lin.toList.any fun l => l.any fun t => e t.seq && s.streamOver t spc a n

def State.unfetched (s : State) (spc : Space) (a n seq : Nat) : Bool := s.unfetchedBy (s.earlier seq) spc a n

/-! ### The range checker (R212) -/

/-- Every engine command of the core that has not completed. -/
def State.commands (s : State) : List EngCmd :=
  (s.core.eng.q.toList.flatMap id ++ s.core.eng.side).filter fun c => c.st != .done

/-- An earlier command conflicts with footprint words. -/
def State.cmdConflict (s : State) (foot : List Word) (seq : Nat) : Bool :=
  s.commands.any fun c => s.cmdEarlier seq c && footsConflict c.foot foot

/-- A-pipe accesses of a class that have not been performed conflict with a scratchpad range: a store or queue store that has not
landed, or, for a write, a load that has not read or a stream item that has not been fetched. -/
def State.pipeConflictBy (s : State) (e : Nat → Bool) (a n : Nat) (write : Bool) : Bool :=
  s.unlandedBy e .sp a n [] ||
  (s.core.lsu.heldSt.any fun h => e h.seq && h.addr < a + n && a < h.addr + h.bytes.length) ||
  (write && (s.unfetchedBy e .sp a n ||
    s.core.lsu.acc.any fun c => c.spc == .sp && c.data.isNone && e c.seq && c.addr < a + n && a < c.addr + c.len))

def State.pipeConflict (s : State) (a n : Nat) (write : Bool) (seq : Nat) : Bool := s.pipeConflictBy (s.earlier seq) a n write

/-- An A-pipe scratchpad access waits at the range checker (R212). -/
def State.spBlocked (s : State) (a n : Nat) (write : Bool) (seq : Nat) : Bool :=
  s.pipeConflict a n write seq ||
    s.cmdConflict [footSp (if write then 2 else 1) a (a + n - 1)] seq

end Sys2Proof.Machine
end

