-- ==== Sys2Proof/Machine/Access.lean ====
section
/-! DEFINITION. Accesses of the A-pipe to memory: the Porch, the Attic cache, memory-side writes, and the checks that loads,
stores, AMOs and queue forms share (R83, R84, R93 to R99, R106, R138, R139). -/

namespace Sys2Proof.Machine

/-! ### The Porch (R93, R94) -/

/-- Entries of a Porch and its spill range. -/
def porchMax : Nat := 17408

/-- The space by which an entry names a location, and the address in it. -/
def State.porchLoc (s : State) (spc : Space) (a : Nat) : Space × Nat :=
  if spc == .ra && s.cores[fld a 32 8]? == some s.core.idx then (.at, fld a 0 25) else (spc, a)

/-- The core of the vault of an .AT entry; 0 in other spaces. -/
def State.porchVault (s : State) (spc : Space) : Nat := if spc == .at then s.core.idx else 0

/-- The entry holds this chunk for the current unit. -/
def State.mine (s : State) (spc : Space) (chunk : Nat) (e : PorchEntry) : Bool :=
  s.ownEntry e && e.spc == spc && e.chunk == chunk && e.vault == s.porchVault spc

/-- The chunks that a range touches. -/
def chunksOf (a n : Nat) : List Nat := (List.range ((a + n - 1) / 64 - a / 64 + 1)).map (a / 64 + ·)

/-- The chunks of a range that the unit's Porch does not hold. -/
def State.porchNeed (s : State) (spc : Space) (a n : Nat) : List Nat :=
  let (spc, a) := s.porchLoc spc a
  (chunksOf a n).filter fun k => !s.core.lsu.porch.any (s.mine spc k)

/-- The Porch can take a range (R93). -/
def State.porchRoom (s : State) (spc : Space) (a n : Nat) : Bool :=
  s.core.lsu.porch.length + (s.porchNeed spc a n).length ≤ porchMax

/-- Entries for the chunks of a range that are missing (R144). -/
def State.porchReserve (s : State) (spc : Space) (a n : Nat) : State :=
  let x := (s.porchLoc spc a).1
  let new := (s.porchNeed spc a n).map fun k =>
    (⟨s.unitRef, (s.pkg.counter s.uctr).job, s.bindSeq, x, k, s.porchVault x, s.core.idx, []⟩ : PorchEntry)
  s.lsu fun l => { l with porch := l.porch ++ new }

/-- A byte takes its place among those of an entry: by its place in the chunk, then by the program order of its store. -/
def insertCell (off : Nat) (c : PorchCell) : List (Nat × PorchCell) → List (Nat × PorchCell)
  | [] => [(off, c)]
  | x :: xs => if off < x.1 || (off == x.1 && c.seq < x.2.seq) then (off, c) :: x :: xs else x :: insertCell off c xs

/-- A byte with a later one of the same location behind it goes, unless an access that still waits stands between them (R94, R96). -/
def pruneCells (hold : List Nat) : List (Nat × PorchCell) → List (Nat × PorchCell)
  | x :: y :: rest =>
    if x.1 == y.1 && x.2.seq ≤ y.2.seq && !(hold.any fun h => x.2.seq < h && h ≤ y.2.seq) then pruneCells hold (y :: rest)
    else x :: pruneCells hold (y :: rest)
  | l => l

/-- One byte enters an entry; a second byte of one store stands for the first, as of two items of a stream. `hold` are the places of the
accesses that wait for earlier stores. -/
def PorchEntry.putCell (e : PorchEntry) (hold : List Nat) (off : Nat) (c : PorchCell) : PorchEntry :=
  { e with cells := pruneCells hold (insertCell off c (e.cells.filter fun x => !(x.1 == off && x.2.seq == c.seq))) }

/-- The places of the unit's global reads that wait for earlier stores (R96). -/
def State.heldReads (s : State) : List Nat := (s.core.lsu.acc.filter fun a => a.spc != .sp && a.data.isNone).map (·.seq)

/-- The bytes of a store enter the Porch; entries for them are there or are made (R93). -/
def State.porchPut (s : State) (spc : Space) (a : Nat) (ks : List Nat) (bs : List Byte) (seq : Nat) : State :=
  let s := s.porchReserve spc a bs.length
  let (x, a) := s.porchLoc spc a
  let one (i : Nat) (e : PorchEntry) : PorchEntry :=
    if s.mine x ((a + i) / 64) e then e.putCell s.heldReads ((a + i) % 64) ⟨bs.getD i 0, seq, ks.getD i 0⟩ else e
  s.lsu fun l => { l with porch := (List.range bs.length).foldl (fun es i => es.map (one i)) l.porch }

/-- The later of two bytes of a location. -/
def laterCell (b : Option PorchCell) (c : PorchCell) : Option PorchCell :=
  match b with
  | none => some c
  | some d => if d.seq ≤ c.seq then some c else some d

/-- The unit's own Porch value of a byte for an access at a place in program order: the latest earlier store to its location, by virtual
address, or after AFENCE by physical address too (R94, R103). -/
def State.porchByte (s : State) (spc : Space) (a key seq : Nat) : Option Byte :=
  let (x, a) := s.porchLoc spc a
  let cells := s.core.lsu.porch.flatMap fun e =>
    if !s.ownEntry e then []
    else (e.cells.filter fun c =>
      c.2.seq < seq && ((s.mine x (a / 64) e && c.1 == a % 64) || (s.core.fe.byPhys && c.2.key == key))).map (·.2)
  (cells.foldl laterCell none).map (·.val)

/-! ### The Attic cache (R106) -/

/-- The line of a .CL address may be cached: its leaf has C = 1 and the core has a cache. -/
def State.cacheable (s : State) (va : Nat) : Bool :=
  s.atticSize != 0 && match s.cached .cl va with
    | some t => wbit t.leaf 59
    | none => false

/-- The line of a .CL address, if it is cached. -/
def State.line (s : State) (va : Nat) : Option (Nat × Nat × List Byte) :=
  s.core.lsu.attic.find? fun l => l.1 == va / 256 * 256

/-- Bring in the line of a byte with a known physical key, in place of an older copy; the oldest line leaves a full cache. -/
def State.fillLine (s : State) (va key : Nat) : State :=
  let base := key - va % 256
  let new := (va / 256 * 256, base, s.mem.bytes base 256)
  s.lsu fun l => { l with attic := (new :: l.attic.filter fun x => x.1 != va / 256 * 256).take (s.atticSize / 256) }

/-- Lines that a .CL load touches are brought in where they are absent, and anew under .ACQ (R106, R138). -/
def State.fillLines (s : State) (acq : Bool) (first : Nat) (pairs : List (Nat × Nat)) : State :=
  pairs.foldl (fun s p =>
    if s.cacheable p.1 && ((s.line p.1).isNone || (acq && (p.1 % 256 == 0 || p.1 == first))) then s.fillLine p.1 p.2 else s) s

/-- Lines that hold one of the keys leave a cache. -/
def dropLines (ks : List Nat) (l : Lsu) : Lsu :=
  { l with attic := l.attic.filter fun x => !ks.any fun k => x.2.1 ≤ k && k < x.2.1 + 256 }

/-! ### Reading (R94, R138) -/

/-- The value of a byte of a global space that a load at a place in program order returns. -/
def State.globalByte (s : State) (spc : Space) (a key : Nat) (acq : Bool) (seq : Nat) : Byte :=
  match s.porchByte spc a key seq with
  | some b => b
  | none =>
    match (if spc == .cl && !acq && s.cacheable a then s.line a else none) with
    | some l => l.2.2.getD (a % 256) 0
    | none => s.mem.read key

/-- The bytes of a load, performed now. -/
def State.perform (s : State) (spc : Space) (a n : Nat) (ks : List Nat) (acq : Bool) (seq : Nat) : List Byte × State :=
  if spc == .sp then (s.core.mems.sp.bytes a n, s.meetPoison 1 (s.marked 0 a n))
  else
    let pairs := (addrs a n).zip ks
    let s := if spc == .cl then s.fillLines acq a pairs else s
    (pairs.map fun p => s.globalByte spc p.1 p.2 acq seq, s.meetPoison 1 fun p => p.under ks)

/-! ### Memory-side writes (R97, R99, R100) -/

/-- The path flag of R100 of an access: 0 own vault, 1 other vaults, 2 .CL, 3 .HS, 4 .PR; 5 names none. -/
def State.pathOf (s : State) (spc : Space) (a : Nat) : Nat :=
  match spc with
  | .sp => 5
  | .at => 0
  | .ra => if s.cores[fld a 32 8]? == some s.core.idx then 0 else 1
  | .cl => 2
  | .hs => 3
  | .pr => 4

/-- A memory-side write takes its place in program order among those in flight. -/
def insertMs (w : MsWrite) : List MsWrite → List MsWrite
  | [] => [w]
  | x :: xs => if w.seq < x.seq then w :: x :: xs else x :: insertMs w xs

def State.pushMs (s : State) (w : MsWrite) : State := s.lsu fun l => { l with ms := insertMs w l.ms }

/-! ### Requests to other devices (R355, R358) -/

/-- A flit enters a port's replay buffer under its next SEQ; the CRC and the ACK are put in when it is sent. -/
def Link.send (l : Link) (b : List Byte) (use : FlitFor) : Link :=
  let head := leNat (b.take 8) % 2 ^ 52 + l.snd % 4096 * 2 ^ 52
  { l with buf := l.buf ++ [⟨l.snd, leBytes 8 head ++ b.drop 8, use⟩], snd := (l.snd + 1) % 4096 }

/-- A request of this device leaves on the port of its route as it is now (R355). What its payload holds the spec does not say
(notes/assumptions/73.md); flits beyond the first 256 of the buffer have not been sent yet. -/
def State.sendFlit (s : State) (fab : Nat) (use : FlitFor) : State :=
  match s.pkg.port fab with
  | none => s
  | some k =>
    let head := 2 ^ 36 + fab % 2 ^ 8 * 2 ^ 28 + s.pkg.fabric.toNat % 2 ^ 8 * 2 ^ 20
    let words := (List.range 31).map fun i => (Config.freeWord (s.free + i)).toNat
    let b := leBytes 8 head ++ words.flatMap (leBytes 8)
    { s with pkg := { s.pkg with links := vmap (fun i l => if i.val = k then l.send b use else l) s.pkg.links }, free := s.free + 31 }

/-- The request of an A-pipe access to another device. -/
def State.sendReq (s : State) (spc : Space) (a seq : Nat) : State :=
  if spc != .pr then s
  else match s.devs[fld a 56 8]? with
    | some (fab, _) => if fab = s.pkg.fabric.toNat % 256 then s else s.sendFlit fab (.access s.core.idx seq)
    | none => s

/-! ### Writing (R139) -/

/-- Bytes of a store of the A-pipe whose checks have passed reach the scratchpad, the Porch, or the memory side. -/
def State.write (s : State) (spc : Space) (a : Nat) (ks : List Nat) (bs : List Byte) (ms : Bool) (seq : Nat) : State :=
  if spc == .sp then s.mems fun m => { m with sp := m.sp.write a bs }
  else if ms then (s.pushMs ⟨.put bs, ks, s.pathOf spc a, seq⟩).sendReq spc a seq
  else s.porchPut spc a ks bs seq

/-! ### The checks at issue -/

/-- A trap of the A-pipe that records footprint words. -/
def State.aTrapFoot (s : State) (cause : Cause) (info : Word) (foot : List Word) : Out := .next (s.trapAt 1 cause info foot)

/-- BOUNDS: TRAP.INFO is the first byte outside the window (R138). The footprint of a scratchpad access that leaves the window
is not stated by the spec: a free value (notes/assumptions/2.md). -/
def State.boundsTrap (s : State) (spc : Space) (info : Word) : Out :=
  if spc == .sp then let (w, s) := s.fresh; s.aTrapFoot .bounds info [w] else s.aTrap .bounds info

/-- A unit that names its own vault has used it (R327). -/
def State.useVault (s : State) (spc : Space) (a : Nat) : State :=
  if (s.porchLoc spc a).1 == .at then s.withCore { s.core with vuse := true } else s

/-- The translation of an access: a miss asks for a walk and waits, a write-blocked page waits, a failed one suspends the unit, a
device that cannot be reached is a machine check; the instruction runs again (R89, R90, R92, R359). -/
def State.translated (s : State) (spc : Space) (a n : Nat) (write : Bool) (k : List Nat → State → Out) : Out :=
  match s.keys spc a n write with
  | .ok ks => k ks ((if spc == .hs then s.countHs a else s).useVault spc a)
  | .stop b .miss => .next ((s.wait).askWalk spc b write false)
  | .stop b (.fail f) => .next ((s.wait).pageFault spc b f)
  | .stop _ (.cut fab) => .next ((s.wait).machineStop (some fab) 1)
  | .stop _ _ => .next s.wait

/-- The window and the translation of an access of n bytes. -/
def State.access (s : State) (spc : Space) (a : Word) (n : Nat) (write : Bool) (k : List Nat → State → Out) : Out :=
  match s.firstOut spc a.toNat n with
  | some b => s.boundsTrap spc (BitVec.ofNat 64 b)
  | none => s.translated spc a.toNat n write k

/-- Fewer than 32 loads, AMOs, LDQs and LDSCs are outstanding (R130). -/
def State.accRoom (s : State) : Bool := s.core.lsu.acc.length < 32

/-- A read access of the A-pipe begins: it is performed at once, unless it is held at the range checker or by the landing check
(R96, R138, R212). One behind an AMO.ACQ that has not returned is performed at once too: that "after the acquire" in R98 means after
the acquire's data has come is the model's reading (notes/assumptions/97.md). -/
def State.beginRead (s : State) (kind : AccKind) (spc : Space) (a n : Nat) (ks : List Nat) (acq : Bool) (ready : Option Nat) : State :=
  let seq := s.core.fe.cur.seq
  let held := if spc == .sp then s.spBlocked a n false seq else s.unlanded spc a n ks seq
  let (data, s) := if held then (none, s) else let (b, s) := s.perform spc a n ks acq seq; (some b, s)
  (s.lsu fun l => { l with acc := l.acc ++ [⟨kind, spc, a, n, ks, acq, data, seq, ready⟩] }).sendReq spc a seq

end Sys2Proof.Machine
end

