-- ==== Sys2Proof/Machine/LoadStore.lean ====
section
/-! DEFINITION. Loads and stores of the A-pipe, majors 0x05 to 0x10 (R137 to R140). -/

namespace Sys2Proof.Machine

/-- Bytes of a load. -/
def ldBytes : LdSize → Nat
  | .b | .bu => 1
  | .h | .hu => 2
  | .w | .wu => 4
  | .d => 8

/-- Bytes of a store. -/
def stBytes : StSize → Nat
  | .b => 1 | .h => 2 | .w => 4 | .d => 8

/-- The value of a load from its bytes: signed forms sign-extend (R138). -/
def ldValue (sz : LdSize) (bs : List Byte) : Word :=
  let x := leNat bs
  match sz with
  | .b => word (sint 8 x)
  | .h => word (sint 16 x)
  | .w => word (sint 32 x)
  | _ => BitVec.ofNat 64 x

/-- A load into g[d] (R138): the access begins, and its data comes back later. -/
def State.loadG (s : State) (spc : Space) (sz : LdSize) (acq : Bool) (d : GReg) (m : MemOp) : Out :=
  s.aIssue [m.base, m.idx] [d] fun s =>
    if !s.accRoom then .next s.wait
    else
      let a := s.am m
      s.access spc a (ldBytes sz) false fun ks s =>
        done (s.beginRead (.load d sz) spc a.toNat (ldBytes sz) ks acq (s.readyAt (s.accClass spc a.toNat)))

/-- A store of the low bytes of g[d] (R139). The window is judged first, then the translation, then the room in the Porch: the spec
gives no order of the last two (notes/assumptions/98.md). -/
def State.storeG (s : State) (spc : Space) (sz : StSize) (ms : Bool) (d : GReg) (m : MemOp) : Out :=
  s.aIssue [d, m.base, m.idx] [] fun s =>
    let a := s.am m
    let n := stBytes sz
    let seq := s.core.fe.cur.seq
    let bs := leBytes n (s.g d).toNat
    if s.unfetched spc a.toNat n seq then .next s.wait
    else
      s.access spc a n true fun ks s =>
        if spc == .sp then
          if s.spBlocked a.toNat n true seq then done (s.lsu fun l => { l with heldSt := l.heldSt ++ [⟨a.toNat, bs, seq⟩] })
          else done (s.write .sp a.toNat ks bs false seq)
        else if !ms && !s.porchRoom spc a.toNat n then s.aTrapFree .porchFull
        else done (s.write spc a.toNat ks bs ms seq)

def execLdSp (sz : LdSize) (d : GReg) (m : MemOp) (s : State) : Out := s.loadG .sp sz false d m
def execLdAt (sz : LdSize) (acq : Bool) (d : GReg) (m : MemOp) (s : State) : Out := s.loadG .at sz acq d m
def execLdRa (sz : LdSize) (acq : Bool) (d : GReg) (m : MemOp) (s : State) : Out := s.loadG .ra sz acq d m
def execLdCl (sz : LdSize) (acq : Bool) (d : GReg) (m : MemOp) (s : State) : Out := s.loadG .cl sz acq d m
def execLdHs (sz : LdSize) (acq : Bool) (d : GReg) (m : MemOp) (s : State) : Out := s.loadG .hs sz acq d m
def execLdPr (sz : LdSize) (acq : Bool) (d : GReg) (m : MemOp) (s : State) : Out := s.loadG .pr sz acq d m
def execStSp (sz : StSize) (d : GReg) (m : MemOp) (s : State) : Out := s.storeG .sp sz false d m
def execStAt (sz : StSize) (ms : Bool) (d : GReg) (m : MemOp) (s : State) : Out := s.storeG .at sz ms d m
def execStRa (sz : StSize) (ms : Bool) (d : GReg) (m : MemOp) (s : State) : Out := s.storeG .ra sz ms d m
def execStCl (sz : StSize) (ms : Bool) (d : GReg) (m : MemOp) (s : State) : Out := s.storeG .cl sz ms d m
def execStHs (sz : StSize) (ms : Bool) (d : GReg) (m : MemOp) (s : State) : Out := s.storeG .hs sz ms d m
def execStPr (sz : StSize) (ms : Bool) (d : GReg) (m : MemOp) (s : State) : Out := s.storeG .pr sz ms d m

end Sys2Proof.Machine
end

