-- ==== Sys2Proof/Machine/Amo.lean ====
section
/-! DEFINITION. Atomic memory operations, major 0x11 (R141, R142). -/

namespace Sys2Proof.Machine

/-- Bytes of an AMO. -/
def amoBytes (w : Bool) : Nat := if w then 4 else 8

/-- The new value of an AMO on values of n bytes, or none where nothing is written (R142). -/
def amoNew (op : AmoOp) (n old v new : Nat) : Option Nat :=
  let m := 2 ^ (8 * n)
  let sg (x : Nat) : Int := sint (8 * n) x
  match op with
  | .add => some ((old + v) % m)
  | .and => some (old &&& v)
  | .or => some (old ||| v)
  | .xor => some (old ^^^ v)
  | .min => some (if sg old ≤ sg v then old else v)
  | .max => some (if sg old ≤ sg v then v else old)
  | .minu => some (min old v)
  | .maxu => some (max old v)
  | .swap => some v
  | .cas => if old = v then some new else none

/-- An AMO at an address (R142): the window, the alignment and the translation are checked in this order; its read and write are
performed together at the memory side later. -/
def State.amoG (s : State) (op : AmoOp) (spc : Space) (w acq : Bool) (d n : GReg) (a : Word) : Out :=
  let len := amoBytes w
  let seq := s.core.fe.cur.seq
  if !s.accRoom || s.unfetched spc a.toNat len seq then .next s.wait
  else
    match s.firstOut spc a.toNat len with
    | some b => s.boundsTrap spc (BitVec.ofNat 64 b)
    | none =>
      if a.toNat % len != 0 then s.aTrap .illegalOperand a
      else
        s.translated spc a.toNat len true fun ks s =>
          let mask := 2 ^ (8 * len)
          let v := BitVec.ofNat 64 ((s.g d).toNat % mask)
          let nw := BitVec.ofNat 64 ((s.g n).toNat % mask)
          let s := (s.pushMs ⟨.amo op w v nw, ks, s.pathOf spc a.toNat, seq⟩).sendReq spc a.toNat seq
          done (s.lsu fun l => { l with acc := l.acc ++
            [⟨.amo d w, spc, a.toNat, len, ks, acq, none, seq, s.readyAt (s.accClass spc a.toNat)⟩] })

/-- The AMO forms other than CAS. -/
def State.amoM (s : State) (op : AmoOp) (spc : Space) (w acq : Bool) (d : GReg) (m : MemOp) : Out :=
  s.aIssue [d, m.base, m.idx] [d] fun s => s.amoG op spc w acq d 0 (s.am m)

def execAmoAdd (spc : Space) (w acq : Bool) (d : GReg) (m : MemOp) (s : State) : Out := s.amoM .add spc w acq d m
def execAmoAnd (spc : Space) (w acq : Bool) (d : GReg) (m : MemOp) (s : State) : Out := s.amoM .and spc w acq d m
def execAmoOr (spc : Space) (w acq : Bool) (d : GReg) (m : MemOp) (s : State) : Out := s.amoM .or spc w acq d m
def execAmoXor (spc : Space) (w acq : Bool) (d : GReg) (m : MemOp) (s : State) : Out := s.amoM .xor spc w acq d m
def execAmoMin (spc : Space) (w acq : Bool) (d : GReg) (m : MemOp) (s : State) : Out := s.amoM .min spc w acq d m
def execAmoMax (spc : Space) (w acq : Bool) (d : GReg) (m : MemOp) (s : State) : Out := s.amoM .max spc w acq d m
def execAmoMinu (spc : Space) (w acq : Bool) (d : GReg) (m : MemOp) (s : State) : Out := s.amoM .minu spc w acq d m
def execAmoMaxu (spc : Space) (w acq : Bool) (d : GReg) (m : MemOp) (s : State) : Out := s.amoM .maxu spc w acq d m
def execAmoSwap (spc : Space) (w acq : Bool) (d : GReg) (m : MemOp) (s : State) : Out := s.amoM .swap spc w acq d m
def execAmoCas (spc : Space) (w acq : Bool) (d n base : GReg) (disp : BitVec 28) (s : State) : Out :=
  s.aIssue [d, n, base] [d] fun s => s.amoG .cas spc w acq d n (s.amBase base disp)

end Sys2Proof.Machine
end

