-- ==== Sys2Proof/Machine/Integer.lean ====
section
/-! DEFINITION. Integer arithmetic of the A-pipe, majors 0x01 and 0x02 (R132 to R134). -/

namespace Sys2Proof.Machine

/-- The 64-bit result of a form: .W sign-extends its low 32 bits (R132). -/
def sized (sz : ISize) (x : Word) : Word :=
  match sz with
  | .d => x
  | .w => (x.setWidth 32).signExtend 64

/-- An operand read as signed, of the form's size. -/
def sIn (sz : ISize) (x : Word) : Int := (sized sz x).toInt

/-- An operand read as unsigned, of the form's size. -/
def uIn (sz : ISize) (x : Word) : Nat :=
  match sz with
  | .d => x.toNat
  | .w => (x.setWidth 32).toNat

/-- The shift amount: y mod 64, or y mod 32 in .W (R132). -/
def amt (sz : ISize) (y : Word) : Nat :=
  match sz with
  | .d => y.toNat % 64
  | .w => y.toNat % 32

/-- The width of a form in bits. -/
def szBits : ISize → Nat
  | .d => 64 | .w => 32

def addI (sz : ISize) (x y : Word) : Word := sized sz (x + y)
def subI (sz : ISize) (x y : Word) : Word := sized sz (x - y)
def mulI (sz : ISize) (x y : Word) : Word := sized sz (x * y)
def mulhI (sz : ISize) (x y : Word) : Word := sized sz (word (sIn sz x * sIn sz y / 2 ^ szBits sz))
def andI (sz : ISize) (x y : Word) : Word := sized sz (x &&& y)
def orI (sz : ISize) (x y : Word) : Word := sized sz (x ||| y)
def xorI (sz : ISize) (x y : Word) : Word := sized sz (x ^^^ y)
def shlI (sz : ISize) (x y : Word) : Word := sized sz (x <<< amt sz y)
def shrI (sz : ISize) (x y : Word) : Word := sized sz (BitVec.ofNat 64 (uIn sz x / 2 ^ amt sz y))
def sraI (sz : ISize) (x y : Word) : Word := sized sz (word (sIn sz x / 2 ^ amt sz y))
def minI (sz : ISize) (x y : Word) : Word := sized sz (if sIn sz x ≤ sIn sz y then x else y)
def maxI (sz : ISize) (x y : Word) : Word := sized sz (if sIn sz x ≤ sIn sz y then y else x)

/-- A comparison of two 64-bit values (R65, R133). -/
def condHolds (c : Cond) (x y : Word) : Bool :=
  match c with
  | .eq => x == y
  | .ne => x != y
  | .lt => x.toInt < y.toInt
  | .ge => y.toInt ≤ x.toInt
  | .ltu => x.toNat < y.toNat
  | .geu => y.toNat ≤ x.toNat

/-- The word 1 or 0. -/
def bitWord (b : Bool) : Word := if b then 1 else 0

/-- g[d] ← a result whose write is pending for n cycles from issue (R130). -/
def State.setLate (s : State) (d : GReg) (x : Word) (n : Nat) : State :=
  (s.setG d x).regs fun e => { e with gLat := e.gLat.set d.val (s.core.fe.cycle + n) }

/-- A register form. -/
def State.intReg (s : State) (f : Word → Word → Word) (d a b : GReg) : Out :=
  s.aIssue [a, b] [d] fun s => done (s.setLate d (f (s.g a) (s.g b)) 1)

/-- An immediate form. -/
def State.intImm (s : State) (f : Word → Word → Word) (d a : GReg) (y : Word) : Out :=
  s.aIssue [a] [d] fun s => done (s.setLate d (f (s.g a) y) 1)

def execAdd (sz : ISize) (d a b : GReg) (s : State) : Out := s.intReg (addI sz) d a b
def execSub (sz : ISize) (d a b : GReg) (s : State) : Out := s.intReg (subI sz) d a b
def execMul (sz : ISize) (d a b : GReg) (s : State) : Out :=
  s.aIssue [a, b] [d] fun s => done (s.setLate d (mulI sz (s.g a) (s.g b)) 3)
def execMulh (sz : ISize) (d a b : GReg) (s : State) : Out :=
  s.aIssue [a, b] [d] fun s => done (s.setLate d (mulhI sz (s.g a) (s.g b)) 3)
def execAnd (sz : ISize) (d a b : GReg) (s : State) : Out := s.intReg (andI sz) d a b
def execOr (sz : ISize) (d a b : GReg) (s : State) : Out := s.intReg (orI sz) d a b
def execXor (sz : ISize) (d a b : GReg) (s : State) : Out := s.intReg (xorI sz) d a b
def execShl (sz : ISize) (d a b : GReg) (s : State) : Out := s.intReg (shlI sz) d a b
def execShr (sz : ISize) (d a b : GReg) (s : State) : Out := s.intReg (shrI sz) d a b
def execSra (sz : ISize) (d a b : GReg) (s : State) : Out := s.intReg (sraI sz) d a b
def execMin (sz : ISize) (d a b : GReg) (s : State) : Out := s.intReg (minI sz) d a b
def execMax (sz : ISize) (d a b : GReg) (s : State) : Out := s.intReg (maxI sz) d a b
def execCmp (c : Cond) (d a b : GReg) (s : State) : Out := s.intReg (fun x y => bitWord (condHolds c x y)) d a b

def execAddi (sz : ISize) (d a : GReg) (i : BitVec 32) (s : State) : Out := s.intImm (addI sz) d a (s.imm i)
def execAndi (sz : ISize) (d a : GReg) (i : BitVec 32) (s : State) : Out := s.intImm (andI sz) d a (s.imm i)
def execOri (sz : ISize) (d a : GReg) (i : BitVec 32) (s : State) : Out := s.intImm (orI sz) d a (s.imm i)
def execXori (sz : ISize) (d a : GReg) (i : BitVec 32) (s : State) : Out := s.intImm (xorI sz) d a (s.imm i)
def execShli (sz : ISize) (d a : GReg) (sh : Fin 64) (s : State) : Out :=
  s.intImm (shlI sz) d a (BitVec.ofNat 64 sh.val)
def execShri (sz : ISize) (d a : GReg) (sh : Fin 64) (s : State) : Out :=
  s.intImm (shrI sz) d a (BitVec.ofNat 64 sh.val)
def execSrai (sz : ISize) (d a : GReg) (sh : Fin 64) (s : State) : Out :=
  s.intImm (sraI sz) d a (BitVec.ofNat 64 sh.val)
def execCmpi (c : Cond) (d a : GReg) (i : BitVec 32) (s : State) : Out :=
  s.intImm (fun x y => bitWord (condHolds c x y)) d a (s.imm i)
def execLi (d : GReg) (i : BitVec 32) (s : State) : Out := s.intImm (fun _ y => y) d 0 (s.imm i)

end Sys2Proof.Machine
end

