-- ==== Sys2Proof/Machine/Branch.lean ====
section
/-! DEFINITION. Branches, calls and register jumps, majors 0x03 and 0x04 (R113, R135, R136). -/

namespace Sys2Proof.Machine

/-- The target of an AB offset: (PC + 8·off36) mod 2^64 (R135). -/
def abTarget (pc : Word) (off : BitVec 36) : Word := pc + off.signExtend 64 <<< 3

/-- Fetch goes on at a target, and nothing dispatches for n cycles after this one (R113). -/
def State.redirect (s : State) (t : Word) (n : Nat) : State :=
  s.fe fun f => { f with pc := t, block := false, hold := n + 1, slot := 2, part := 0 }

/-- The PC of the branch word itself: the last word of its group. -/
def State.wordPc (s : State) : Word := s.core.fe.cur.next - 8

def execBr (c : BCond) (a b : GReg) (off : BitVec 36) (s : State) : Out :=
  match c with
  | .always =>
    s.aIssue [] [] fun s => done (if s.core.fe.cur.redirected then s else s.redirect (abTarget s.wordPc off) 2)
  | .cmp c =>
    s.aIssue [a, b] [] fun s =>
      done (s.redirect (if condHolds c (s.g a) (s.g b) then abTarget s.wordPc off else s.core.fe.cur.next) 4)

def execCall (a : GReg) (off : BitVec 36) (s : State) : Out :=
  s.aIssue [] [a] fun s =>
    let t := abTarget s.wordPc off
    let s := s.setLate a s.core.fe.cur.next 1
    done (if s.core.fe.cur.redirected then s else s.redirect t 2)

/-- A register jump: a target with bits [2:0] other than zero takes ILLEGAL_OPERAND (R63, R136). -/
def State.jumpTo (s : State) (t : Word) (k : State → Out) : Out :=
  if wfld t 0 3 != 0 then s.aTrapFree .illegalOperand else k (s.redirect t 4)

def execJr (a : GReg) (i : BitVec 32) (s : State) : Out :=
  s.aIssue [a] [] fun s => s.jumpTo (s.g a + s.imm i) done

def execCallr (d a : GReg) (i : BitVec 32) (s : State) : Out :=
  s.aIssue [a] [d] fun s =>
    let next := s.core.fe.cur.next
    s.jumpTo (s.g a + s.imm i) fun s => done (s.setLate d next 1)

end Sys2Proof.Machine
end

