-- ==== Sys2Proof/Machine/Numbers.lean ====
section
/-! DEFINITION. Number formats, rounding and conversions (spec/03_numbers.md R41 to R61). Values are exact: a sign and a
quotient of naturals times a power of two; a result that is no such quotient (a square root, a special function) is given
by its scaled floors. Every rounding of the machine goes through `roundMag`. -/

namespace Sys2Proof.Machine

/-- FP.FLAGS[4:0]: NV, DZ, OF, UF, NX from high to low (R55). -/
abbrev Flags := BitVec 5
def fNX : Flags := 1
def fUF : Flags := 2
def fOF : Flags := 4
def fDZ : Flags := 8
def fNV : Flags := 16

/-- An exact finite value ±num/den·2^e; num = 0 is a zero with its sign. -/
structure Ex where
  neg : Bool
  num : Nat
  den : Nat
  e   : Int
  deriving DecidableEq, Repr

/-- A decoded element: a NaN (signalling or quiet), an infinity or an exact value (R43). -/
inductive Val where
  | nan (sig : Bool)
  | inf (neg : Bool)
  | num (x : Ex)
  deriving DecidableEq, Repr

def Ex.zero : Ex := ⟨false, 0, 1, 0⟩
def Ex.ofInt (x : Int) : Ex := ⟨x < 0, x.natAbs, 1, 0⟩
def Ex.isZero (x : Ex) : Bool := x.num == 0
def Ex.negate (x : Ex) : Ex := { x with neg := !x.neg }

/-- The exact product. -/
def Ex.mul (x y : Ex) : Ex := ⟨x.neg != y.neg, x.num * y.num, x.den * y.den, x.e + y.e⟩
/-- The exact quotient by a nonzero y. -/
def Ex.div (x y : Ex) : Ex := ⟨x.neg != y.neg, x.num * y.den, x.den * y.num, x.e - y.e⟩

/-- The signed numerator of x over the exponent e0 ≤ x.e and the denominator d, a multiple of x.den. -/
def Ex.over (x : Ex) (e0 : Int) (d : Nat) : Int :=
  let n : Int := (x.num * (d / x.den) * 2 ^ (x.e - e0).toNat : Nat)
  if x.neg then -n else n

/-- The exact sum; a zero sum is given as +0, and the caller applies R59. -/
def Ex.add (x y : Ex) : Ex :=
  if x.num = 0 then (if y.num = 0 then ⟨x.neg && y.neg, 0, 1, 0⟩ else y)
  else if y.num = 0 then x
  else
    let e0 := min x.e y.e
    let d := x.den * y.den
    let s := x.over e0 d + y.over e0 d
    ⟨s < 0, s.natAbs, d, e0⟩

/-- −1, 0 or 1 as x is below, equal to or above y; −0 = +0. -/
def Ex.cmp (x y : Ex) : Int := let s := x.add y.negate; if s.num = 0 then 0 else if s.neg then -1 else 1

/-- ⌊log2 (num/den)⌋ for a positive quotient. -/
def ilog2 (num den : Nat) : Int :=
  let k : Int := (Nat.log2 num : Int) - Nat.log2 den
  if num * 2 ^ (-k).toNat < den * 2 ^ k.toNat then k - 1 else k

/-- A positive real number as its binary exponent k = ⌊log2 a⌋ and its scaled floors: `scaled s` is ⌊a·2^s⌋ and whether
a·2^s is no integer. -/
structure Mag where
  k : Int
  scaled : Int → Nat × Bool

/-- The magnitude of a nonzero exact value. -/
def Ex.mag (x : Ex) : Mag where
  k := ilog2 x.num x.den + x.e
  scaled s :=
    let t := x.e + s
    if t ≥ 0 then
      let n := x.num * 2 ^ t.toNat
      (n / x.den, n % x.den != 0)
    else if (-t).toNat > Nat.log2 x.num + 1 then (0, true)
    else
      let d := x.den * 2 ^ (-t).toNat
      (x.num / d, x.num % d != 0)

/-- The largest r with r·r ≤ n, found bit by bit from bit b down. -/
def isqrtFrom (n : Nat) : Nat → Nat → Nat
  | 0, acc => if (acc + 1) * (acc + 1) ≤ n then acc + 1 else acc
  | b + 1, acc => isqrtFrom n b (if (acc + 2 ^ (b + 1)) * (acc + 2 ^ (b + 1)) ≤ n then acc + 2 ^ (b + 1) else acc)
def isqrt (n : Nat) : Nat := isqrtFrom n (Nat.log2 n / 2 + 1) 0

/-- The magnitude of √x for a positive exact value x. -/
def Ex.sqrtMag (x : Ex) : Mag where
  k := (ilog2 x.num x.den + x.e) / 2
  scaled s :=
    let (n, inx) := x.mag.scaled (2 * s)
    let r := isqrt n
    (r, inx || r * r != n)

/-! ### Formats -/

/-- Exponent width, fraction width and bias of a floating-point format (R42). -/
structure Fmt where
  eb : Nat
  fb : Nat
  bias : Nat
  deriving DecidableEq, Repr

def fmtOf : ElemTy → Fmt
  | .fp32 => ⟨8, 23, 127⟩
  | .bf16 => ⟨8, 7, 127⟩
  | .h16 => ⟨5, 10, 15⟩
  | .e5m2 => ⟨5, 2, 15⟩
  | .e4m3 => ⟨4, 3, 7⟩
  | _ => ⟨2, 1, 1⟩

/-- Emin of R42. -/
def Fmt.emin (f : Fmt) : Int := 1 - f.bias

/-- The floating-point formats of R42. -/
def isFloat : ElemTy → Bool
  | .fp32 | .bf16 | .h16 | .e5m2 | .e4m3 | .e2m1 => true
  | _ => false

/-- The format has infinities (R42). -/
def hasInf : ElemTy → Bool
  | .fp32 | .bf16 | .h16 | .e5m2 => true
  | _ => false

/-- The exponent and the significand in quanta of the largest finite value (R42). -/
def topOf (t : ElemTy) : Int × Nat :=
  match t with
  | .e4m3 => (8, 14)
  | .e2m1 => (2, 3)
  | _ => let f := fmtOf t; (f.bias, 2 ^ (f.fb + 1) - 1)

/-- Sign, exponent field and fraction as a pattern. -/
def Fmt.enc (f : Fmt) (neg : Bool) (ef fr : Nat) : Nat :=
  (if neg then 2 ^ (f.eb + f.fb) else 0) + ef * 2 ^ f.fb + fr

/-- ±max (R42, R54). -/
def maxBits (t : ElemTy) (neg : Bool) : Nat :=
  let f := fmtOf t
  let (k, n) := topOf t
  f.enc neg (k + f.bias).toNat (n - 2 ^ f.fb)

/-- ±∞ of a format that has it (R42). -/
def infBits (t : ElemTy) (neg : Bool) : Nat := let f := fmtOf t; f.enc neg (2 ^ f.eb - 1) 0

/-- The canonical NaN (R43). -/
def nanBits : ElemTy → Nat
  | .fp32 => 0x7FC00000 | .bf16 => 0x7FC0 | .h16 => 0x7E00 | .e5m2 => 0x7E | .e4m3 => 0x7F | _ => 0

/-- CX zero: m = 0, e = 0x8000_0000 (R46). -/
def cxZero : Nat := 0x8000000000000000

/-- Zero of the format, −0 where the format has one and neg holds (R56). -/
def zeroBits (t : ElemTy) (neg : Bool) : Nat :=
  match t with
  | .sp2 => 0x77
  | .cx => cxZero
  | .fp32 | .bf16 | .h16 | .e5m2 | .e4m3 | .e2m1 => (fmtOf t).enc neg 0 0
  | _ => 0

/-- Min and Max of an integer format (R41). -/
def intRange : ElemTy → Int × Int
  | .i4 => (-8, 7) | .i8 => (-128, 127) | .i16 => (-32768, 32767) | .i32 => (-2147483648, 2147483647)
  | .n8 => (0, 255) | .n16 => (0, 65535) | _ => (0, 4294967295)

/-- A value clamped to the range of an integer format (R54). -/
def clampInt (t : ElemTy) (x : Int) : Int :=
  let (lo, hi) := intRange t
  if x < lo then lo else if hi < x then hi else x

/-- An S16 pattern that no consumer may read (R45). -/
def s16Bad (b : Nat) : Bool := fld b 8 8 == 255

/-- The exact value of an S16 scale with exponent below 255 (R45). -/
def s16Val (b : Nat) : Ex :=
  let e := fld b 8 8
  if e = 0 then Ex.zero else ⟨false, 256 + fld b 0 8, 1, (e : Int) - 135⟩

/-- m and e of a CX image (R46). -/
def cxM (b : Nat) : Int := sint 32 (fld b 0 32)
def cxE (b : Nat) : Int := sint 32 (fld b 32 32)
/-- A canonical CX image (R46). -/
def cxOk (b : Nat) : Bool :=
  let m := (cxM b).natAbs
  (2 ^ 30 ≤ m && m < 2 ^ 31 && cxE b != -2147483648) || fld b 0 64 == cxZero
def cxVal (b : Nat) : Ex := ⟨cxM b < 0, (cxM b).natAbs, 1, cxE b - 30⟩
/-- The CX image of sign, significand and exponent. -/
def cxEnc (neg : Bool) (m : Nat) (e : Int) : Nat := wrap 32 (if neg then -(m : Int) else m) + 2 ^ 32 * wrap 32 e

/-- The value of an SP2 pattern in units of 2^−6 (R44). -/
def sp2Units (b : Nat) : Int :=
  let term (s c : Nat) : Int := if c = 7 then 0 else if s = 1 then -(64 / 2 ^ c : Nat) else (64 / 2 ^ c : Nat)
  term (fld b 7 1) (fld b 4 3) + term (fld b 3 1) (fld b 0 3)

/-- Decode the pattern of an element (R41 to R46). An S16 pattern with exponent 255 and a non-canonical CX image are
refused by their consumers before this is asked. -/
def decodeElem (t : ElemTy) (b : Nat) : Val :=
  match t with
  | .i4 | .i8 | .i16 | .i32 => .num (Ex.ofInt (sint t.width b))
  | .n8 | .n16 | .n32 => .num (Ex.ofInt (b % 2 ^ t.width : Nat))
  | .sp2 => let u := sp2Units b; .num ⟨u < 0, u.natAbs, 1, -6⟩
  | .s16 => .num (s16Val b)
  | .cx => .num (cxVal b)
  | _ =>
    let f := fmtOf t
    let neg := fld b (f.eb + f.fb) 1 == 1
    let ef := fld b f.fb f.eb
    let fr := fld b 0 f.fb
    if hasInf t && ef == 2 ^ f.eb - 1 then
      if fr = 0 then .inf neg else .nan (fld fr (f.fb - 1) 1 == 0)
    else if t == .e4m3 && ef == 15 && fr == 7 then .nan false
    else if ef = 0 then .num ⟨neg, fr, 1, f.emin - f.fb⟩
    else .num ⟨neg, 2 ^ f.fb + fr, 1, (ef : Int) - f.bias - f.fb⟩

/-! ### Rounding -/

/-- What a rounding or a conversion gives: the pattern, the flags it raises, whether CX_RANGE applies, and whether a CX
result fell below the exponent range (R46). -/
structure Rd where
  bits : Nat
  fl : Flags := 0
  range : Bool := false
  under : Bool := false
  deriving DecidableEq, Repr

/-- Whether a significand rounds up (R50, R53): f17 and rest are the discarded part as ⌊f·2^17⌋ and whether bits remain
below; ρ and r are the random bits. -/
def roundUp (rm : RM) (neg : Bool) (n f17 : Nat) (rest : Bool) (rho r : Nat) : Bool :=
  let inexact := f17 != 0 || rest
  let half := 2 ^ 16
  match rm with
  | .rne | .dyn => f17 > half || (f17 == half && (rest || n % 2 == 1))
  | .rtz => false
  | .rup => inexact && !neg
  | .rdn => inexact && neg
  | .rna => f17 ≥ half
  | .rto => inexact && n % 2 == 0
  | .sr => f17 / 2 ^ (17 - r) + rho ≥ 2 ^ r

/-- Zero and the positive magnitudes of SP2 in units of 2^−6 (R44). -/
def sp2Mags : List Nat :=
  [0, 1, 2, 3, 4, 5, 6, 7, 8, 9, 10, 12, 14, 15, 16, 17, 18, 20, 24, 28, 30, 31, 32, 33, 34, 36, 40, 48, 56, 60, 62, 63,
   64, 65, 66, 68, 72, 80, 96, 128]

/-- The canonical SP2 pattern of a magnitude in units of 2^−6 (R44). -/
def sp2Enc (neg : Bool) (u : Nat) : Nat :=
  let t (c : Nat) : Nat := 64 / 2 ^ c
  let s : Nat := if neg then 1 else 0
  if u = 0 then 0x77 else
  match findIdx 7 fun c => t c == u with
  | some c => s * 128 + c * 16 + 7
  | none =>
    match findIdx 49 fun i => i / 7 ≤ i % 7 && t (i / 7) + t (i % 7) == u with
    | some i => s * 128 + (i / 7) * 16 + s * 8 + i % 7
    | none =>
      match findIdx 49 fun i => i / 7 < i % 7 && t (i / 7) - t (i % 7) == u with
      | some i => s * 128 + (i / 7) * 16 + (1 - s) * 8 + i % 7
      | none => 0x77

/-- RoundTo(SP2, rm, x) of a nonzero magnitude (R51). -/
def roundSp2 (rm : RM) (neg : Bool) (m : Mag) (rho r : Nat) : Rd :=
  let (x, rest) := m.scaled 28
  if m.k ≥ 2 || x > 128 * 2 ^ 22 || (x == 128 * 2 ^ 22 && rest) then ⟨sp2Enc neg 128, fOF ||| fNX, false, false⟩
  else
    let lo := (sp2Mags.filter fun u => u * 2 ^ 22 ≤ x).getLastD 0
    let hi := (sp2Mags.find? fun u => x < u * 2 ^ 22).getD 128
    let gap := hi - lo
    let d := x - lo * 2 ^ 22
    if d = 0 && !rest then ⟨sp2Enc neg lo, 0, false, false⟩
    else
      let f17 := d / (gap * 2 ^ 5)
      let rest' := rest || d % (gap * 2 ^ 5) != 0
      let up :=
        match rm with
        | .rne | .dyn =>
          f17 > 2 ^ 16 || (f17 == 2 ^ 16 && (rest' || !(fld (sp2Enc false lo) 0 3 > fld (sp2Enc false hi) 0 3)))
        | .rto => false
        | _ => roundUp rm neg 0 f17 rest' rho r
      ⟨sp2Enc neg (if up then hi else lo), fNX, false, false⟩

/-- R52 for a format with an exponent: what a rounded magnitude beyond Max gives. -/
def overflowBits (t : ElemTy) (rm : RM) (neg sat : Bool) : Nat :=
  if hasInf t then
    if sat then maxBits t neg
    else match rm with
      | .rtz | .rto => maxBits t neg
      | .rup => if neg then maxBits t true else infBits t false
      | .rdn => if neg then infBits t true else maxBits t false
      | _ => infBits t neg
  else if t == .e4m3 && !sat then nanBits .e4m3
  else maxBits t neg

/-- RoundTo(fmt, rm, x) of a nonzero magnitude with its sign, for every format but the integers (R50 to R53). -/
def roundMag (t : ElemTy) (rm : RM) (sat neg : Bool) (rho r : Nat) (m : Mag) : Rd :=
  let part (qe : Int) : Nat × Nat × Bool := let (x, rest) := m.scaled (17 - qe); (x / 2 ^ 17, x % 2 ^ 17, rest)
  match t with
  | .sp2 => roundSp2 rm neg m rho r
  | .cx =>
    let (n, f17, rest) := part (m.k - 30)
    let n1 := if rm == .rto then (if f17 != 0 || rest then (if n % 2 = 0 then n + 1 else n) else n)
      else if roundUp rm neg n f17 rest rho r then n + 1 else n
    let (n2, k2) := if n1 = 2 ^ 31 then (2 ^ 30, m.k + 1) else (n1, m.k)
    let inx : Flags := if f17 != 0 || rest then fNX else 0
    if k2 > 2147483647 then ⟨0, fOF, true, false⟩
    else if k2 < -2147483647 then ⟨cxZero, fNX, false, true⟩
    else ⟨cxEnc neg n2 k2, inx, false, false⟩
  | .s16 =>
    if neg then ⟨0, fNV, false, false⟩
    else
      let tiny := m.k < -126
      let (n, f17, rest) := part (if tiny then -126 else m.k - 8)
      let inexact := f17 != 0 || rest
      let n1 := if roundUp rm false n f17 rest rho r then n + 1 else n
      let fl : Flags := (if inexact then fNX else 0) ||| (if inexact && tiny then fUF else 0)
      if tiny then ⟨if n1 = 0 then 0 else 0x0100, fl, false, false⟩
      else
        let (n2, k2) := if n1 = 512 then (256, m.k + 1) else (n1, m.k)
        if k2 > 127 then ⟨0xFEFF, fOF ||| fNX, false, false⟩
        else ⟨(k2 + 127).toNat * 256 + (n2 - 256), fl, false, false⟩
  | _ =>
    let f := fmtOf t
    let k := max m.k f.emin
    let qe := k - f.fb
    let (n, f17, rest) := part qe
    let inexact := f17 != 0 || rest
    let n1 := if roundUp rm neg n f17 rest rho r then n + 1 else n
    let (n2, k2) := if n1 = 2 ^ (f.fb + 1) then (2 ^ f.fb, k + 1) else (n1, k)
    let top := topOf t
    if k2 > top.1 || (k2 == top.1 && n2 > top.2) then ⟨overflowBits t rm neg sat, fOF ||| fNX, false, false⟩
    else
      let fl : Flags := (if inexact then fNX else 0) ||| (if inexact && m.k < f.emin then fUF else 0)
      if n2 < 2 ^ f.fb then ⟨f.enc neg 0 n2, fl, false, false⟩
      else ⟨f.enc neg (k2 + f.bias).toNat (n2 - 2 ^ f.fb), fl, false, false⟩

/-- RoundTo on the integer grid: the rounded integer and whether it is inexact (R50). -/
def roundInt (rm : RM) (neg : Bool) (rho r : Nat) (m : Mag) : Int × Bool :=
  let (x, rest) := if m.k > 80 then (2 ^ 100, false) else m.scaled 17
  let n := x / 2 ^ 17
  let f17 := x % 2 ^ 17
  let n1 := if roundUp rm neg n f17 rest rho r then n + 1 else n
  (if neg then -(n1 : Int) else n1, f17 != 0 || rest)

/-- The nearest integer to x / 2^e, ties to even (Align, R54); beyond 2^64 only the sign and the excess matter to every
caller, and 2^65 stands for it. -/
def alignEx (x : Ex) (e : Int) : Int :=
  if x.num = 0 then 0
  else if x.mag.k - e > 64 then (if x.neg then -(2 ^ 65) else 2 ^ 65)
  else
    let (v, rest) := x.mag.scaled (17 - e)
    let n := v / 2 ^ 17
    let n1 := if roundUp .rne false n (v % 2 ^ 17) rest 0 0 then n + 1 else n
    if x.neg then -(n1 : Int) else n1

/-- The conversion of a value to a format (R56), in mode rm with the random bits ρ of width r. -/
def convert (t : ElemTy) (rm : RM) (sat : Bool) (rho r : Nat) (v : Val) : Rd :=
  match v with
  | .nan sig =>
    let fl : Flags := if sig then fNV else 0
    match t with
    | .fp32 | .bf16 | .h16 | .e5m2 | .e4m3 => ⟨nanBits t, fl, false, false⟩
    | .cx => ⟨0, 0, true, false⟩
    | _ => ⟨zeroBits t false, fNV, false, false⟩
  | .inf neg =>
    match t with
    | .fp32 | .bf16 | .h16 | .e5m2 => if sat then ⟨maxBits t neg, fOF, false, false⟩ else ⟨infBits t neg, 0, false, false⟩
    | .e4m3 => if sat then ⟨maxBits t neg, fOF, false, false⟩ else ⟨nanBits t, fNV, false, false⟩
    | .e2m1 => ⟨maxBits t neg, fOF, false, false⟩
    | .sp2 => ⟨sp2Enc neg 128, fOF, false, false⟩
    | .s16 => if neg then ⟨0, fNV, false, false⟩ else ⟨0xFEFF, fOF, false, false⟩
    | .cx => ⟨0, 0, true, false⟩
    | _ => let (lo, hi) := intRange t; ⟨wrap t.width (if neg then lo else hi), fNV, false, false⟩
  | .num x =>
    if x.num = 0 then ⟨zeroBits t x.neg, 0, false, false⟩
    else if t.isInt then
      let (n, inexact) := roundInt rm x.neg rho r x.mag
      let c := clampInt t n
      ⟨wrap t.width c, if c != n then fNV else if inexact then fNX else 0, false, false⟩
    else roundMag t rm sat x.neg rho r x.mag

/-- A conversion between integer formats (R57). -/
def convertInt (src dst : ElemTy) (sat : Bool) (b : Nat) : Rd :=
  let x : Int := if src.isSigned then sint src.width b else (b % 2 ^ src.width : Nat)
  if sat then let c := clampInt dst x; ⟨wrap dst.width c, if c != x then fOF else 0, false, false⟩
  else ⟨wrap dst.width x, 0, false, false⟩

/-- The conversion of an element pattern (R56, R57). -/
def convertElem (src dst : ElemTy) (rm : RM) (sat : Bool) (rho r : Nat) (b : Nat) : Rd :=
  if src.isInt && dst.isInt then convertInt src dst sat b else convert dst rm sat rho r (decodeElem src b)

/-- R174: with .SAT an infinite result becomes ±Max and sets OF. -/
def satFix (t : ElemTy) (sat : Bool) (r : Rd) : Rd :=
  if sat && (r.bits == infBits t false || r.bits == infBits t true) then
    { r with bits := maxBits t (r.bits == infBits t true), fl := r.fl ||| fOF }
  else r

/-- RoundTo of an exact value whose zero takes the sign zneg (R59, R177). -/
def roundEx (t : ElemTy) (rm : RM) (sat : Bool) (rho r : Nat) (x : Ex) (zneg : Bool) : Rd :=
  if x.num = 0 then ⟨zeroBits t zneg, 0, false, false⟩ else roundMag t rm sat x.neg rho r x.mag

/-! ### The small-constant table (R67) -/

/-- The smallest positive value of a type, and the smallest positive normal. -/
def minPos (t : ElemTy) : Nat :=
  match t with
  | .sp2 => sp2Enc false 1
  | .s16 => 0x0100
  | _ => 1
def minNormal (t : ElemTy) : Nat :=
  match t with
  | .fp32 | .bf16 | .h16 | .e5m2 | .e4m3 | .e2m1 => let f := fmtOf t; f.enc false 1 0
  | _ => minPos t

/-- Max(type) and Min(type) of Sat (R54) as patterns. -/
def satEnd (t : ElemTy) (top : Bool) : Nat :=
  if t.isInt then wrap t.width (if top then (intRange t).2 else (intRange t).1)
  else match t with
    | .sp2 => sp2Enc (!top) 128
    | .s16 => if top then 0xFEFF else 0
    | _ => maxBits t (!top)

/-- π, ln 2 and log2 e as quotients with 128 correct fraction bits, more than any format's rounding can see. -/
def piEx : Ex := ⟨false, 0x3243F6A8885A308D313198A2E03707344, 1, -128⟩
def ln2Ex : Ex := ⟨false, 0xB17217F7D1CF79ABC9E3B39803F2F6AF, 1, -128⟩
def log2eEx : Ex := ⟨false, 0x171547652B82FE1777D0FFDA0D23A7D11, 1, -128⟩

/-- Entry 0x80 + n of the small-constant table in type t (R67): a conversion by R56 with RNE and no flag. -/
def smallConst (t : ElemTy) (n : Nat) : Nat :=
  let c (v : Val) : Nat := (convert t .rne false 0 0 v).bits
  if n < 16 then c (.num (Ex.ofInt n))
  else if n < 32 then c (.num (Ex.ofInt ((n : Int) - 32)))
  else if n < 48 then c (.num ⟨false, 1, 1, (n : Int) - 40⟩)
  else match n with
    | 48 => c (.inf false)
    | 49 => c (.inf true)
    | 50 => c (.nan false)
    | 51 => satEnd t true
    | 52 => satEnd t false
    | 53 => if t.isInt then 1 else minNormal t
    | 54 => minPos t
    | 55 => c (.num ⟨true, 0, 1, 0⟩)
    | 56 => c (.num piEx)
    | 57 => c (.num ln2Ex)
    | _ => c (.num log2eEx)

end Sys2Proof.Machine
end

