-- ==== Sys2Proof/Machine/Flags.lean ====
section
/-! DEFINITION. FP.FLAGS (R55): the sticky status of X-pipe arithmetic. -/

namespace Sys2Proof.Machine

/-- A write of FP.FLAGS clears the bits written as 1 (R8, R55). -/
def clearFlags (old x : Word) : Word := old &&& ~~~ x

end Sys2Proof.Machine
end

