-- ==== Sys2Proof/Machine/Special.lean ====
section
/-! DEFINITION. The special functions of R192 as magnitudes: scaled floors of the exact mathematical value. A value is
enclosed by fixed-point sums, and the precision grows until both ends have the same floor; the values concerned are
irrational, so the enclosure always closes well within the last precision tried. -/

namespace Sys2Proof.Machine

/-- x·2^p rounded toward −∞, of a signed exact value with denominator 1. -/
def fixedOf (p : Nat) (x : Ex) : Int :=
  let t := x.e + p
  let n : Int := if x.neg then -(x.num : Int) else x.num
  if t ≥ 0 then n * 2 ^ t.toNat else n / 2 ^ (-t).toNat

/-- The sum of z^(2i+1)/(2i+1) with the sign of each term given by alt, all in p fraction bits. -/
def oddSeries (p : Nat) (alt : Bool) (z2 : Int) : Nat → Int → Nat → Int
  | 0, _, _ => 0
  | fuel + 1, zp, i =>
    if zp = 0 then 0
    else
      let term := zp / (2 * i + 1 : Nat)
      (if alt && i % 2 == 1 then -term else term) + oddSeries p alt z2 fuel (zp * z2 / 2 ^ p) (i + 1)

/-- atanh z or atan z for |z| ≤ 1/3, in p fraction bits. -/
def arcSeries (p : Nat) (alt : Bool) (z : Int) : Int := oddSeries p alt (z * z / 2 ^ p) (p + 8) z 0

/-- ln 2 = 2 atanh (1/3) in p fraction bits. -/
def ln2Fix (p : Nat) : Int := 2 * arcSeries p false (2 ^ p / 3)

/-- π = 16 atan (1/5) − 4 atan (1/239) in p fraction bits. -/
def piFix (p : Nat) : Int := 16 * arcSeries p true (2 ^ p / 5) - 4 * arcSeries p true (2 ^ p / 239)

/-- The sum of z^i/i!, in p fraction bits. -/
def expSeries (p : Nat) (z : Int) : Nat → Int → Nat → Int
  | 0, _, _ => 0
  | fuel + 1, t, i => if t = 0 then 0 else t + expSeries p z fuel (t * z / (2 ^ p * (i + 1 : Nat))) (i + 1)

/-- 2^f for 0 ≤ f < 1, in p fraction bits. -/
def exp2Frac (p : Nat) (f : Int) : Int := expSeries p (f * ln2Fix p / 2 ^ p) (p + 8) (2 ^ p) 0

/-- e^−w for w ≥ 0 given in p fraction bits, in p fraction bits. -/
def expNeg (p : Nat) (w : Int) : Int :=
  let t := w * 2 ^ p / ln2Fix p
  let i := t / 2 ^ p
  let f := t % 2 ^ p
  let g := exp2Frac p (2 ^ p - f)
  g / 2 ^ (i.toNat + 1)

/-- sin θ for 0 ≤ θ ≤ 2, by its series, in p fraction bits. -/
def sinSeries (p : Nat) (z2 : Int) : Nat → Int → Nat → Int
  | 0, _, _ => 0
  | fuel + 1, t, i => if t = 0 then 0 else t + sinSeries p z2 fuel (-(t * z2) / (2 ^ p * ((2 * i + 2) * (2 * i + 3) : Nat))) (i + 1)

/-- ⌊a·2^s⌋ of a positive irrational a from a fixed-point estimate with an error below 2^slack units in the last place; the
precisions are tried in turn. The last estimate stands if no enclosure closes. -/
def refine (est : Nat → Int) (slack : Nat) (s : Int) : List Nat → Nat
  | [] => 0
  | p0 :: ps =>
    let p := s.toNat + p0
    let v := est p
    let cut (x : Int) : Int := if (p : Int) ≥ s then x / 2 ^ (p - s).toNat else x * 2 ^ (s - p).toNat
    let lo := cut (v - 2 ^ slack)
    let hi := cut (v + 2 ^ slack)
    if lo == hi || ps.isEmpty then hi.toNat else refine est slack s ps

/-- The precisions tried beyond the scale asked for. -/
def precisions : List Nat := [64, 160, 420, 1000]

/-- The magnitude of a positive irrational below 2^8 from its estimates. -/
def irrational (est : Nat → Int) (slack : Nat) : Mag :=
  let fl (s : Int) : Nat := refine est slack s precisions
  let near := fl 40
  let far := fl 400
  { k := if near ≥ 2 then (Nat.log2 near : Int) - 40 else if far = 0 then -401 else (Nat.log2 far : Int) - 400
    scaled := fun s => (fl s, true) }

/-- A result: a special value, an exact value with its sign of zero, or a signed magnitude. -/
inductive FnVal where
  | bits (v : Val) (fl : Flags)
  | exact (x : Ex)
  | mag (neg : Bool) (m : Mag)

/-- A finite value is an integer. -/
def Ex.isInt (x : Ex) : Bool := x.num == 0 || x.e ≥ 0 || x.num % 2 ^ (-x.e).toNat == 0

/-- A magnitude just below 1. -/
def belowOne : Mag := ⟨-1, fun s => if s > 0 then (2 ^ s.toNat - 1, true) else (0, true)⟩
/-- A positive magnitude below every format's smallest value. -/
def tinyMag : Mag := ⟨-100000, fun _ => (0, true)⟩
/-- A magnitude above every format's largest value. -/
def hugeMag : Mag := ⟨100000, fun s => (2 ^ (100000 + s).toNat, true)⟩

def oneEx : Ex := ⟨false, 1, 1, 0⟩
def nanInv : FnVal := .bits (.nan false) fNV

/-- 2^x (R192, R193). -/
def fnExp2 (x : Ex) : FnVal :=
  if x.num = 0 then .exact oneEx
  else if x.mag.k ≥ 16 then .mag false (if x.neg then tinyMag else hugeMag)
  else
    let i := fixedOf 0 x
    let f := x.add (Ex.ofInt (-i))
    if f.num = 0 then .exact ⟨false, 1, 1, i⟩
    else
      let m := irrational (fun p => exp2Frac p (fixedOf p f)) 14
      .mag false ⟨i, fun s => m.scaled (s + i)⟩

/-- log2 of a positive exact value with denominator 1 (R56, R192). -/
def log2Of (x : Ex) : FnVal :=
  let k := x.mag.k
  let m : Ex := ⟨false, x.num, 1, x.e - k⟩
  if x.num == 2 ^ Nat.log2 x.num then .exact (Ex.ofInt k)
  else
    let est (p : Nat) : Int :=
      let v := fixedOf p m
      let z := (v - 2 ^ p) * 2 ^ p / (v + 2 ^ p)
      k * 2 ^ p + 2 * arcSeries p false z * 2 ^ p / ln2Fix p
    .mag (k < 0) (irrational (fun p => (est p).natAbs) (20 + Nat.log2 k.natAbs))

/-- sin πt for 0 < t < 1/2. -/
def sinPiMag (t : Ex) : Mag :=
  irrational (fun p => let th := fixedOf p t * piFix p / 2 ^ p; sinSeries p (th * th / 2 ^ p) (p + 8) th 0) 14

/-- sin πt for t in [0, 1), exact at 0 and 1/2. -/
def sinPiUnit (t : Ex) : FnVal :=
  if t.num = 0 then .exact Ex.zero
  else
    let half : Ex := ⟨false, 1, 1, -1⟩
    match t.cmp half with
    | 0 => .exact oneEx
    | -1 => .mag false (sinPiMag t)
    | _ => .mag false (sinPiMag (oneEx.add t.negate))

/-- sin πx of a finite x that is no integer: the parity of ⌊x⌋ gives the sign. -/
def sinPi (x : Ex) : FnVal :=
  let i := fixedOf 0 x
  match sinPiUnit (x.add (Ex.ofInt (-i))) with
  | .exact y => .exact { y with neg := i % 2 == 1 }
  | .mag _ m => .mag (i % 2 == 1) m
  | r => r

/-- tanh of a positive x. -/
def tanhMag (x : Ex) : Mag :=
  if x.mag.k ≥ 8 then belowOne
  else irrational (fun p => let u := expNeg p (2 * fixedOf p x); (2 ^ p - u) * 2 ^ p / (2 ^ p + u)) 16

/-- 1/(1 + e^−x) of a nonzero x. -/
def sigmMag (x : Ex) : Mag :=
  if x.mag.k ≥ 9 then (if x.neg then tinyMag else belowOne)
  else irrational (fun p =>
    let u := expNeg p (fixedOf p { x with neg := false })
    if x.neg then u * 2 ^ p / (2 ^ p + u) else 2 ^ (2 * p) / (2 ^ p + u)) 16

/-- The eight special functions. -/
inductive SpecFn where
  | exp2 | log2 | rcp | rsqrt | sin | cos | tanh | sigm
  deriving DecidableEq, Repr

/-- f(x) before rounding, with the special operands of R193. -/
def specialVal (f : SpecFn) (v : Val) : FnVal :=
  match v with
  | .nan sig => .bits (.nan false) (if sig then fNV else 0)
  | .inf neg =>
    match f with
    | .exp2 => if neg then .exact Ex.zero else .bits (.inf false) 0
    | .log2 => if neg then nanInv else .bits (.inf false) 0
    | .rcp => .exact ⟨neg, 0, 1, 0⟩
    | .rsqrt => if neg then nanInv else .exact Ex.zero
    | .sin | .cos => nanInv
    | .tanh => .exact ⟨neg, 1, 1, 0⟩
    | .sigm => .exact (if neg then Ex.zero else oneEx)
  | .num x =>
    match f with
    | .exp2 => fnExp2 x
    | .log2 =>
      if x.num = 0 then .bits (.inf true) fDZ else if x.neg then nanInv else log2Of x
    | .rcp => if x.num = 0 then .bits (.inf x.neg) fDZ else .exact (oneEx.div x)
    | .rsqrt =>
      if x.num = 0 then .bits (.inf x.neg) fDZ else if x.neg then nanInv else .mag false (oneEx.div x).sqrtMag
    | .sin => if x.isInt then .exact ⟨x.neg, 0, 1, 0⟩ else sinPi x
    | .cos =>
      if x.isInt then .exact ⟨fixedOf 0 x % 2 == 1, 1, 1, 0⟩
      else
        match sinPi (x.add ⟨false, 1, 1, -1⟩) with
        | .exact y => .exact (if y.num = 0 then Ex.zero else y)
        | r => r
    | .tanh => if x.num = 0 then .exact x else .mag x.neg (tanhMag { x with neg := false })
    | .sigm => if x.num = 0 then .exact ⟨false, 1, 1, -1⟩ else .mag false (sigmMag x)

/-- RoundTo of the function's value, with .SAT by R174 (R192, R193). -/
def specialElem (f : SpecFn) (t : ElemTy) (rm : RM) (sat : Bool) (rho r : Nat) (b : Nat) : Rd :=
  match specialVal f (decodeElem t b) with
  | .bits (.inf neg) fl => satFix t sat ⟨infBits t neg, fl, false, false⟩
  | .bits _ fl => ⟨nanBits t, fl, false, false⟩
  | .exact x => satFix t sat (roundEx t rm sat rho r x x.neg)
  | .mag neg m => satFix t sat (roundMag t rm sat neg rho r m)

/-- The log form of a CX image (R56): FP32, with whether the value is negative. -/
def cxLog (b : Nat) : Nat × Flags :=
  let x := cxVal b
  if x.num = 0 then (infBits .fp32 true, 0)
  else if x.neg then (nanBits .fp32, fNV)
  else match log2Of x with
    | .exact y => let r := roundEx .fp32 .rne false 0 0 y false; (r.bits, r.fl)
    | .mag neg m => let r := roundMag .fp32 .rne false neg 0 0 m; (r.bits, r.fl)
    | .bits _ fl => (nanBits .fp32, fl)

end Sys2Proof.Machine
end

