-- ==== Sys2Proof/Machine/Lanes.lean ====
section
/-! DEFINITION. What the X-pipe computes from operand values (spec/10_execute_instructions.md R173 to R201): pure functions
from lanes to lanes. Reading operands, waiting, landing and trapping are the pipe's affair (Sys2Proof.Machine.XPipe). -/

namespace Sys2Proof.Machine

/-- An operand's value as the pipe read it at issue: a register or queue item, a scalar register, or a constant of the table
(R66, R67). -/
inductive Opd where
  | full (v : Nat)
  | scal (x : Nat)
  | const (n : Nat)
  deriving DecidableEq, Repr

/-- The lanes of an operand in an element type (R66, R173). -/
def Opd.lane (t : ElemTy) (o : Opd) : Nat → Nat :=
  match o with
  | .full v => fun i => Machine.lane t.width v i
  | .scal x => fun _ => x % 2 ^ t.width
  | .const n => let c := smallConst t n; fun _ => c

/-- The value a scalar-class instruction reads, in the low bits of its type (R194). -/
def Opd.sc (t : ElemTy) (o : Opd) : Nat :=
  match o with
  | .full v => v % 2 ^ 32 % 2 ^ t.width
  | .scal x => x % 2 ^ t.width
  | .const n => smallConst t n

/-- The value-dependent faults of R174. -/
inductive XFault where
  | scaleInvalid | cxFormat | cxRange | illegalOperand
  deriving DecidableEq, Repr

/-- The registers a vector-class instruction writes, in group order, each with its lane mask, and the flags of the elements
written. -/
structure XOut where
  regs : List (Nat × Pred)
  fl : Flags
  deriving DecidableEq, Repr

/-- The lane mask of elements of width w (R174). -/
def elemMask (w : Nat) (gd : Nat → Bool) : Pred :=
  BitVec.ofNat 1024 (tabulate (w / 4) (4096 / w) fun i => if gd i then 2 ^ (w / 4) - 1 else 0)

/-- Guard bit of element i of width w (R174). -/
def guardOf (p : Pred) (w : Nat) (i : Nat) : Bool := p.getLsbD (i * w / 4)

/-- One register of results of width w, lanes with a false guard left zero, with the flags of the true ones. -/
def mapLanes (w : Nat) (gd : Nat → Bool) (f : Nat → Rd) : Nat × Flags :=
  let rs := (List.range (4096 / w)).map fun i => if gd i then f i else ⟨0, 0, false, false⟩
  (pack w (rs.map (·.bits)), rs.foldl (fun a r => a ||| r.fl) 0)

/-- An element-wise result in one register. -/
def single (t : ElemTy) (p : Pred) (f : Nat → Rd) : XOut :=
  let gd := guardOf p t.width
  let (v, fl) := mapLanes t.width gd f
  ⟨[(v, elemMask t.width gd)], fl⟩

/-! ### Floating point (R176 to R178) -/

/-- The arithmetic of major 0x20. -/
inductive FpOp where
  | add | sub | mul | fma | fms | fnma | div | min | max | abs | neg | sqrt
  deriving DecidableEq, Repr

/-- A term of a sum: NaN, infinite, or exact. -/
def Val.negate : Val → Val
  | .nan s => .nan s
  | .inf n => .inf (!n)
  | .num x => .num x.negate

def Val.isZero : Val → Bool
  | .num x => x.num == 0
  | _ => false

def Val.sign : Val → Bool
  | .inf n => n
  | .num x => x.neg
  | .nan _ => false

def Val.isSig : Val → Bool
  | .nan s => s
  | _ => false

def Val.isNan : Val → Bool
  | .nan _ => true
  | _ => false

/-- 0·∞ of either order, the invalid product of R178. -/
def badProduct (a b : Val) : Bool :=
  match a, b with
  | .inf _, .num y => y.num == 0
  | .num x, .inf _ => x.num == 0
  | _, _ => false

/-- The exact product of two values that are not NaN and not 0·∞. -/
def Val.mul (a b : Val) : Val :=
  match a, b with
  | .num x, .num y => .num (x.mul y)
  | .nan s, _ => .nan s
  | _, .nan s => .nan s
  | _, _ => .inf (a.sign != b.sign)

def nanRes (t : ElemTy) (inv : Bool) : Rd := ⟨nanBits t, if inv then fNV else 0, false, false⟩

/-- RoundTo of the exact sum of terms, with R59 and R178. -/
def sumElem (t : ElemTy) (rm : RM) (sat : Bool) (rho r : Nat) (terms : List Val) : Rd :=
  if terms.any Val.isNan then nanRes t (terms.any Val.isSig)
  else
    let infs := terms.filter fun v => match v with | .inf _ => true | _ => false
    if infs.any Val.sign && infs.any (fun v => !v.sign) then nanRes t true
    else match infs with
      | v :: _ => ⟨infBits t v.sign, 0, false, false⟩
      | [] =>
        let s := terms.foldl (fun a v => match v with | .num x => a.add x | _ => a) (⟨terms.all Val.sign, 0, 1, 0⟩ : Ex)
        let zneg := if terms.all Val.isZero && (terms.all Val.sign || terms.all (fun v => !v.sign)) then terms.all Val.sign
          else rm == .rdn
        roundEx t rm sat rho r s zneg

/-- Reading −0 as below +0: the order of VMIN, VMAX, VRMIN and VRMAX (R177, R191). -/
def valLt (a b : Val) : Bool :=
  match a, b with
  | .inf n, .inf m => n && !m
  | .inf n, _ => n
  | _, .inf m => !m
  | .num x, .num y => let c := x.cmp y; c < 0 || (c == 0 && x.num == 0 && x.neg && !y.neg)
  | _, _ => false

/-- One element of a floating-point instruction (R176, R177, R178), before .SAT of an infinity. -/
def fpElem0 (op : FpOp) (t : ElemTy) (rm : RM) (sat : Bool) (rho r : Nat) (pa pb pc : Nat) : Rd :=
  let a := decodeElem t pa
  let b := decodeElem t pb
  let c := decodeElem t pc
  let fused (a b c : Val) : Rd :=
    if badProduct a b then nanRes t true
    else if a.isNan || b.isNan || c.isNan then nanRes t (a.isSig || b.isSig || c.isSig)
    else sumElem t rm sat rho r [a.mul b, c]
  match op with
  | .add => sumElem t rm sat rho r [a, b]
  | .sub => sumElem t rm sat rho r [a, b.negate]
  | .mul =>
    if badProduct a b then nanRes t true
    else match a.mul b with
      | .nan _ => nanRes t (a.isSig || b.isSig)
      | .inf n => ⟨infBits t n, 0, false, false⟩
      | .num x => roundEx t rm sat rho r x x.neg
  | .fma => fused a b c
  | .fms => fused a b c.negate
  | .fnma => fused a.negate b c
  | .div =>
    if a.isNan || b.isNan then nanRes t (a.isSig || b.isSig)
    else match a, b with
      | .inf _, .inf _ => nanRes t true
      | .inf n, _ => ⟨infBits t (n != b.sign), 0, false, false⟩
      | _, .inf m => ⟨zeroBits t (a.sign != m), 0, false, false⟩
      | .num x, .num y =>
        if y.num = 0 then (if x.num = 0 then nanRes t true else ⟨infBits t (x.neg != y.neg), fDZ, false, false⟩)
        else let q := x.div y; roundEx t rm sat rho r q q.neg
      | _, _ => nanRes t false
  | .min => if a.isNan || b.isNan then nanRes t (a.isSig || b.isSig) else ⟨if valLt b a then pb else pa, 0, false, false⟩
  | .max => if a.isNan || b.isNan then nanRes t (a.isSig || b.isSig) else ⟨if valLt a b then pb else pa, 0, false, false⟩
  | .abs => if a.isNan then nanRes t a.isSig else ⟨pa % 2 ^ (t.width - 1), 0, false, false⟩
  | .neg => if a.isNan then nanRes t a.isSig else ⟨Nat.xor pa (2 ^ (t.width - 1)), 0, false, false⟩
  | .sqrt =>
    match a with
    | .nan s => nanRes t s
    | .inf n => if n then nanRes t true else ⟨infBits t false, 0, false, false⟩
    | .num x =>
      if x.num = 0 then ⟨zeroBits t x.neg, 0, false, false⟩
      else if x.neg then nanRes t true
      else roundMag t rm sat false rho r x.sqrtMag

/-- One element with .SAT by R174. -/
def fpElem (op : FpOp) (t : ElemTy) (rm : RM) (sat : Bool) (rho r : Nat) (pa pb pc : Nat) : Rd :=
  satFix t sat (fpElem0 op t rm sat rho r pa pb pc)

/-- A rounding needs the random lanes only under SR, with r = 16 (R175). -/
def rhoLane (rm : RM) (src : Opd) : Nat → Nat :=
  if rm == .sr then let l := src.lane .n16; fun i => l (i % 256) else fun _ => 0
def rWidth (rm : RM) : Nat := if rm == .sr then 16 else 0

/-- An element-wise floating-point instruction (R177). -/
def fpVec (op : FpOp) (t : ElemTy) (rm : RM) (sat : Bool) (rnd a b c : Opd) (p : Pred) : XOut :=
  let la := a.lane t
  let lb := b.lane t
  let lc := c.lane t
  let rho := rhoLane rm rnd
  single t p fun i => fpElem op t rm sat (rho i) (rWidth rm) (la i) (lb i) (lc i)

/-- A special function (R192). -/
def specVec (f : SpecFn) (t : ElemTy) (rm : RM) (sat : Bool) (rnd a : Opd) (p : Pred) : XOut :=
  let la := a.lane t
  let rho := rhoLane rm rnd
  single t p fun i => specialElem f t rm sat (rho i) (rWidth rm) (la i)

/-! ### Integers (R179, R180) -/

inductive IntOp where
  | add | sub | mul | mulh | mad | and | or | xor | shl | shr | sra | min | max | abs
  deriving DecidableEq, Repr

/-- An element read as signed or unsigned by its type (R179). -/
def intVal (t : ElemTy) (x : Nat) : Int := if t.isSigned then sint t.width x else (x % 2 ^ t.width : Nat)

/-- The exact value of an integer element operation (R179). -/
def intExact (op : IntOp) (t : ElemTy) (a b c : Nat) : Int :=
  let w := t.width
  let x := intVal t a
  let y := intVal t b
  let z := intVal t c
  match op with
  | .add => x + y
  | .sub => x - y
  | .mul => x * y
  | .mulh => x * y / (2 ^ w : Nat)
  | .mad => x * y + z
  | .and => (Nat.land (a % 2 ^ w) (b % 2 ^ w) : Nat)
  | .or => (Nat.lor (a % 2 ^ w) (b % 2 ^ w) : Nat)
  | .xor => (Nat.xor (a % 2 ^ w) (b % 2 ^ w) : Nat)
  | .shl => x * (2 ^ (b % w) : Nat)
  | .shr => (a % 2 ^ w / 2 ^ (b % w) : Nat)
  | .sra => sint w a / (2 ^ (b % w) : Nat)
  | .min => if y < x then y else x
  | .max => if x < y then y else x
  | .abs => if x < 0 then -x else x

/-- Reduction of the exact value (R180). -/
def intReduce (t : ElemTy) (sat : Bool) (x : Int) : Rd :=
  if sat then let c := clampInt t x; ⟨wrap t.width c, if c != x then fOF else 0, false, false⟩
  else ⟨wrap t.width x, 0, false, false⟩

def intVec (op : IntOp) (t : ElemTy) (sat : Bool) (a b c : Opd) (p : Pred) : XOut :=
  let la := a.lane t
  let lb := b.lane t
  let lc := c.lane t
  single t p fun i => intReduce t sat (intExact op t (la i) (lb i) (lc i))

/-- The registers of a group of w results: element i in register i mod w, slot i div w, governed by guard bit i of the
narrower width (R167, R174). -/
def group (tw sw : Nat) (p : Pred) (f : Nat → Rd) : XOut :=
  let w := tw / sw
  let one (k : Nat) : (Nat × Pred) × Flags :=
    let gd (j : Nat) : Bool := guardOf p sw (j * w + k)
    let (v, fl) := mapLanes tw gd fun j => f (j * w + k)
    ((v, elemMask tw gd), fl)
  let rs := (List.range w).map one
  ⟨rs.map (·.1), rs.foldl (fun a r => a ||| r.2) 0⟩

/-- VIMUL.W: the exact product of twice the width, in a group of two (R180). -/
def mulWide (t : ElemTy) (a b : Opd) (p : Pred) : XOut :=
  let la := a.lane t
  let lb := b.lane t
  group (2 * t.width) t.width p fun i => ⟨wrap (2 * t.width) (intVal t (la i) * intVal t (lb i)), 0, false, false⟩

/-! ### Compare, select (R181, R182) -/

/-- The condition on two elements and whether NV is set (R181). -/
def cmpElem (t : ElemTy) (c : VCond) (pa pb : Nat) : Bool × Flags :=
  let a := decodeElem t pa
  let b := decodeElem t pb
  if a.isNan || b.isNan then
    let ordered := c == .lt || c == .le || c == .gt || c == .ge
    (c == .ne || c == .un, if ordered || a.isSig || b.isSig then fNV else 0)
  else
    let o : Int :=
      match a, b with
      | .num x, .num y => x.cmp y
      | _, _ => if valLt a b then -1 else if valLt b a then 1 else 0
    (match c with
      | .eq => o == 0 | .ne => o != 0 | .lt => o < 0 | .le => o ≤ 0 | .gt => o > 0 | .ge => o ≥ 0 | .un => false, 0)

/-- The predicate image, its mask and the flags of VCMP (R181). -/
def cmpVec (t : ElemTy) (c : VCond) (a b : Opd) (p : Pred) : Pred × Pred × Flags :=
  let la := a.lane t
  let lb := b.lane t
  let gd := guardOf p t.width
  let rs := (List.range (lanesOf t.width)).map fun i => if gd i then cmpElem t c (la i) (lb i) else (false, 0)
  let bits := pack (t.width / 4) (rs.map fun r => if r.1 then 2 ^ (t.width / 4) - 1 else 0)
  (BitVec.ofNat 1024 bits, elemMask t.width gd, rs.foldl (fun f r => f ||| r.2) 0)

def plain (x : Nat) : Rd := ⟨x, 0, false, false⟩

def selVec (t : ElemTy) (a b : Opd) (sel p : Pred) : XOut :=
  let la := a.lane t
  let lb := b.lane t
  single t p fun i => plain (if guardOf sel t.width i then la i else lb i)

/-! ### Conversions (R185 to R188) -/

/-- The element source of a source group of w registers: element i in register i mod w, slot i div w (R167). -/
def groupLane (t : ElemTy) (w : Nat) (vs : List Nat) (i : Nat) : Nat := lane t.width (vs.getD (i % w) 0) (i / w)

/-- The checks a conversion makes on a guard-true source element before it rounds (R185). -/
def srcFault (src : ElemTy) (x : Nat) : Option XFault :=
  match src with
  | .cx => if cxOk x then none else some .cxFormat
  | .s16 => if s16Bad x then some .scaleInvalid else none
  | _ => none

/-- The first fault over the guard-true elements 0 to n−1. -/
def firstFault (n : Nat) (gd : Nat → Bool) (f : Nat → Option XFault) : Option XFault :=
  (List.range n).findSome? fun i => if gd i then f i else none

/-- CX_RANGE after the source checks (R56, R185). -/
def cvtFault (src dst : ElemTy) (rm : RM) (sat : Bool) (rho : Nat → Nat) (la : Nat → Nat) (i : Nat) : Option XFault :=
  match srcFault src (la i) with
  | some f => some f
  | none =>
    if dst == .cx && (convertElem src dst rm sat (rho i) (rWidth rm) (la i)).range then some .cxRange else none

/-- VCVT, VCVTW and VCVTN from the lanes of their source (R185). -/
def cvtVec (src dst : ElemTy) (rm : RM) (sat log : Bool) (rho la : Nat → Nat) (p : Pred) : Except XFault XOut :=
  let nw := min src.width dst.width
  match firstFault (lanesOf nw) (guardOf p nw) (cvtFault src dst rm sat rho la) with
  | some f => .error f
  | none =>
    let f (i : Nat) : Rd :=
      if log then let (b, fl) := cxLog (la i); ⟨b, fl, false, false⟩
      else convertElem src dst rm sat (rho i) (rWidth rm) (la i)
    .ok (if dst.width ≤ src.width then single dst p f else group dst.width src.width p f)

/-- Block size of the BLK code (R184). -/
def blkSize (c : Fin 4) : Nat := 16 * 2 ^ c.val

/-- One element of VDQ (R186). -/
def dqElem (src dst : ElemTy) (rm : RM) (sat : Bool) (rho r : Nat) (x s : Nat) : Rd :=
  let sc := s16Val s
  match decodeElem src x with
  | .nan sig => nanRes dst sig
  | .inf neg => if sc.num = 0 then nanRes dst true else satFix dst sat ⟨infBits dst neg, 0, false, false⟩
  | .num v => if sc.num = 0 then plain 0 else let y := v.mul sc; satFix dst sat (roundEx dst rm sat rho r y y.neg)

/-- VDQ (R186). -/
def dqVec (f : BlkArgs) (rm : RM) (rnd a b : Opd) (p : Pred) : Except XFault XOut :=
  let la := a.lane f.src
  let lb := b.lane .s16
  let sc (i : Nat) : Nat := lb (i / blkSize f.blk)
  let rho := rhoLane rm rnd
  match firstFault (lanesOf f.src.width) (guardOf p f.src.width) fun i => srcFault .s16 (sc i) with
  | some e => .error e
  | none => .ok (group f.ty.width f.src.width p fun i => dqElem f.src f.ty rm f.sat (rho i) (rWidth rm) (la i) (sc i))

/-- One element of VQ (R187). -/
def qElem (src dst : ElemTy) (rm : RM) (sat : Bool) (rho r : Nat) (x s : Nat) : Rd :=
  let sc := s16Val s
  if sc.num = 0 then plain (zeroBits dst false)
  else match decodeElem src x with
    | .num v => convert dst rm sat rho r (.num (v.div sc))
    | v => convert dst rm sat rho r v

/-- VQ (R187), its source lanes given by the group. -/
def qVec (f : BlkArgs) (rm : RM) (rnd b : Opd) (la : Nat → Nat) (p : Pred) : Except XFault XOut :=
  let lb := b.lane .s16
  let sc (i : Nat) : Nat := lb (i / blkSize f.blk)
  let rho := rhoLane rm rnd
  match firstFault (lanesOf f.ty.width) (guardOf p f.ty.width) fun i => srcFault .s16 (sc i) with
  | some e => .error e
  | none => .ok (single f.ty p fun i => qElem f.src f.ty rm f.sat (rho i) (rWidth rm) (la i) (sc i))

/-- One element of SRND (R188): round onto the grid by SR and write the value exactly in TYPE. -/
def srndElem (t grid : ElemTy) (sat : Bool) (rho r : Nat) (x : Nat) : Rd :=
  let exact (b : Nat) : Nat := (convertElem grid t .rne false 0 0 b).bits
  match decodeElem t x with
  | .nan sig => nanRes t sig
  | .inf neg => if sat then ⟨exact (maxBits grid neg), fOF, false, false⟩ else ⟨infBits t neg, 0, false, false⟩
  | .num v =>
    let y := convert grid .sr sat rho r (.num v)
    ⟨exact y.bits, y.fl, false, false⟩

def srndVec (f : SrndArgs) (a b : Opd) (p : Pred) : XOut :=
  let la := a.lane f.ty
  let lb := b.lane .n16
  let r := 2 ^ (f.rw.val + 1)
  single f.ty p fun i => srndElem f.ty f.grid f.sat (lb (i % 256) % 2 ^ r) r (la i)

/-! ### Permutes (R190) -/

def permVec (t : ElemTy) (a b c : Opd) (p : Pred) : XOut :=
  let n := lanesOf t.width
  let la := a.lane t
  let lb := b.lane .n16
  let lc := c.lane .n16
  single t p fun i =>
    let j := if t.width = 8 && i ≥ 256 then lc (i - 256) else lb i
    plain (if j ≥ n then 0 else la j)

def rotVec (t : ElemTy) (a : Opd) (k : Nat) (p : Pred) : XOut :=
  let la := a.lane t
  single t p fun i => plain (la ((i + k) % lanesOf t.width))

def bcastVec (t : ElemTy) (a : Opd) (k : Nat) (p : Pred) : XOut :=
  let x := a.lane t (k % lanesOf t.width)
  single t p fun _ => plain x

def zipVec (t : ElemTy) (hi : Bool) (a b : Opd) (p : Pred) : XOut :=
  let la := a.lane t
  let lb := b.lane t
  let off := if hi then lanesOf t.width else 0
  single t p fun i => let m := i + off; plain (if m % 2 = 0 then la (m / 2) else lb (m / 2))

/-- The concatenation u of A and B (R189). -/
def concatLane (t : ElemTy) (a b : Opd) : Nat → Nat :=
  let n := lanesOf t.width
  let la := a.lane t
  let lb := b.lane t
  fun m => if m < n then la m else lb (m - n)

def unzipVec (t : ElemTy) (odd : Bool) (a b : Opd) (p : Pred) : XOut :=
  let u := concatLane t a b
  single t p fun i => plain (u (2 * i + if odd then 1 else 0))

def slideVec (t : ElemTy) (a b : Opd) (k : Nat) (p : Pred) : XOut :=
  let u := concatLane t a b
  single t p fun i => plain (if i + k < 2 * lanesOf t.width then u (i + k) else 0)

/-! ### Reductions (R191) -/

/-- The guard-true elements of A, then element 0 of B. -/
def redTerms (t : ElemTy) (a b : Opd) (p : Pred) : List Nat :=
  let la := a.lane t
  ((List.range (lanesOf t.width)).filter (guardOf p t.width)).map la ++ [b.lane t 0]

def redSum (t : ElemTy) (rm : RM) (xs : List Nat) : Rd := sumElem t rm false 0 0 (xs.map (decodeElem t))

/-- The largest or smallest, −0 below +0; a NaN among floats gives the canonical NaN. -/
def redExt (t : ElemTy) (largest : Bool) (xs : List Nat) : Rd :=
  let vs := xs.map (decodeElem t)
  if vs.any Val.isNan then nanRes t (vs.any Val.isSig)
  else
    let better (x y : Nat) : Bool :=
      if largest then valLt (decodeElem t x) (decodeElem t y) else valLt (decodeElem t y) (decodeElem t x)
    match xs with
    | [] => plain 0
    | x :: rest => plain (rest.foldl (fun m y => if better m y then y else m) x)

/-- The 32-bit result type of VRIADD. -/
def iaddTy (t : ElemTy) : ElemTy := if t.isSigned then .i32 else .n32

def redIadd (t : ElemTy) (sat : Bool) (xs : List Nat) : Rd :=
  intReduce (iaddTy t) sat (xs.foldl (fun s x => s + intVal t x) 0)

/-- The broadcast of a value to every element of a register (R191). -/
def broadcast (w x : Nat) : Nat := tabulate w (4096 / w) fun _ => x

/-! ### Scalars (R194) -/

/-- SADD, SSUB, SMUL and SFMA on 32-bit values. -/
def scalElem (op : FpOp) (iop : IntOp) (t : ElemTy) (rm : RM) (sat : Bool) (rho a b c : Nat) : Rd :=
  if t == .fp32 then fpElem op .fp32 rm sat rho (rWidth rm) a b c
  else intReduce t sat (intExact iop t a b c)

end Sys2Proof.Machine
end

