-- ==== Sys2Proof/Machine/XPipe.lean ====
section
/-! DEFINITION. The X-pipe (spec/09_execute_pipe.md): X-cycles, landing, queue operands, issue and register groups. -/

namespace Sys2Proof.Machine

/-! ### Hatches (R155) -/

/-- The n-th token of a hatch can be taken now: it is there and its ready time has come (R40). -/
def State.tokAt (s : State) (h : Fin 16) (n : Nat) : Bool :=
  match s.core.qs.h[h].toks[n]? with
  | some (some t) => t ≤ s.core.fe.cycle
  | some none => true
  | none => false

/-- The oldest token is taken. -/
def State.popTok (s : State) (h : Fin 16) : State :=
  s.qs fun q => { q with h := q.h.set h.val { q.h[h] with toks := q.h[h].toks.drop 1 } }

def State.popToks (s : State) (hs : List (Fin 16)) : State := hs.foldl State.popTok s

/-- Every token of a list of pops is there (R158). -/
def State.toksThere (s : State) (hs : List (Fin 16)) : Bool :=
  hs.all fun h => s.tokAt h ((hs.filter (· == h)).length - 1)

/-! ### X-cycles (R162) -/

/-- The next X-cycle opens: that of the current cycle when it is still to open, and otherwise one ahead of its cycle. -/
def State.nextX (s : State) : State :=
  (if s.core.fe.xowed then s else s.fe fun f => { f with xahead := f.xahead + 1 }).openX

/-- The X-cycle in which an instruction issues: the current one, or the next when something has already issued in it. -/
def State.startX (s : State) : State := if s.core.fe.xdone then s.nextX else s

/-! ### Queue operands (R166, R196) -/

/-- Item j of a load queue is present: it and every item ahead of it arrived in an earlier cycle, in Strict mode with their
ready times reached (R196). -/
def presentAt (strict : Bool) (now : Nat) (items : List LqItem) (j : Nat) : Bool :=
  j < items.length && (items.take (j + 1)).all fun i =>
    i.data.isSome && i.arrived < now && (!strict || (i.ready.getD 0) ≤ now)

def State.present (s : State) (q : Fin 8) (j : Nat) : Bool :=
  presentAt s.strict s.core.fe.cycle s.core.qs.lq[q] j

/-- A pop or a peek of item j of a load queue (R40, R166). -/
def State.itemGate (s : State) (q : Fin 8) (j : Nat) : Gate :=
  if s.present q j then .go
  else if s.strict then
    match s.core.qs.lq[q][j]? with
    | none => .wait
    | some i => if s.core.fe.cycle < i.ready.getD 0 then .wait else .overrun
  else .wait

/-- The number of items that the sources pop from a queue. -/
def popCount (srcs : List XOp) (q : Fin 8) : Nat := (srcs.filter (· == .pop q)).length

/-- The attached hatch pops of the items that are taken, and of the heads that are peeked (R158, R166). -/
def State.neededToks (s : State) (srcs : List XOp) : List (Fin 16) :=
  (List.finRange 8).flatMap fun q =>
    let n := popCount srcs q
    let n := if n = 0 && srcs.contains (.peek q) then 1 else n
    (s.core.qs.lq[q].take n).flatMap (·.pops)

/-- Whether the sources can be read now. -/
def State.srcGate (s : State) (srcs : List XOp) : Gate :=
  let one (q : Fin 8) : List Gate :=
    let n := popCount srcs q
    (List.range (if srcs.contains (.peek q) then max n 1 else n)).map (s.itemGate q)
  match firstGate ((List.finRange 8).flatMap one) with
  | .go => if s.toksThere (s.neededToks srcs) then .go else .wait
  | g => g

/-- Results in flight to a store queue, those that a trap has set aside among them, whose slots stay reserved (R165, R166). -/
def State.flyTo (s : State) (q : Fin 4) : Nat := ((s.core.regs.fly ++ s.core.regs.rpl).filter fun r => r.dst == .sq q).length

/-- Whether a slot of the destination queue can be reserved now (R166). -/
def State.dstGate (s : State) : Option XDst → Gate
  | some (.sq q) =>
    if s.core.qs.sq[q].length + s.flyTo q < 16 then .go else if s.strict then .overrun else .wait
  | _ => .go

/-- Whether the current X-pipe instruction may issue (R39, R40, R166). -/
def State.xGate (s : State) (srcs : List XOp) (d : Option XDst) : Gate :=
  match firstGate [s.srcGate srcs, s.dstGate d] with
  | .go => if s.core.fe.xdone && s.xBlocked then .wait else .go
  | g => g

/-- The value of a source (R66); pops are numbered by how many of the queue the earlier sources took. -/
def State.readX (s : State) (before : List XOp) : XOp → Opd
  | .v n => .full (s.v (s.phys n)).toNat
  | .pop q => .full ((((s.core.qs.lq[q][popCount before q]?).bind (·.data)).getD 0).toNat)
  | .peek q => .full ((((s.core.qs.lq[q][0]?).bind (·.data)).getD 0).toNat)
  | .s n => .scal s.core.regs.s[n].toNat
  | .k n => .const n.val

/-- The values of the sources in the order A, B, C (R66). -/
def State.readAll (s : State) : List XOp → List XOp → List Opd
  | _, [] => []
  | before, o :: os => s.readX before o :: s.readAll (o :: before) os

/-- The items that the sources pop leave their queues, their tokens taken. -/
def State.takeItems (s : State) (srcs : List XOp) : State :=
  let toks := (List.finRange 8).flatMap fun q => (s.core.qs.lq[q].take (popCount srcs q)).flatMap (·.pops)
  let s := s.qs fun u => { u with lq := vmap (fun q l => l.drop (popCount srcs q)) u.lq }
  s.popToks toks

/-! ### Issue and results -/

/-- A precise trap of the X-pipe at the current instruction (PIPE 2), with TRAP.INFO left open by the spec. -/
def State.xTrap (s : State) (c : Cause) : Out := let (w, s) := s.fresh; .next (s.trapAt 2 c w [])

/-- The trap of a value-dependent fault (R174). -/
def XFault.cause : XFault → Cause
  | .scaleInvalid => .scaleInvalid | .cxFormat => .cxFormat | .cxRange => .cxRange | .illegalOperand => .illegalOperand

/-- The hatches as bits. -/
def hatchBits (hs : List (Fin 16)) : Nat := hs.foldl (fun b h => b ||| 2 ^ h.val) 0

/-- What holds an X-pipe instruction, in the bits of R159: hatches without a token or without room, and bit 17 for a queue. -/
def State.xHeldBy (s : State) (srcs : List XOp) (d : Option XDst) : Nat :=
  let toks := (s.neededToks srcs).filter fun h => !s.toksThere [h]
  let full := (s.core.regs.fly.flatMap (·.pushes)).filter s.hatchFull
  if s.srcGate srcs == .wait && !toks.isEmpty then hatchBits toks
  else if s.core.fe.xdone && s.xBlocked && s.srcGate srcs == .go && s.dstGate d == .go then hatchBits full
  else 2 ^ 17

/-- An X-pipe instruction waits (R39). -/
def State.xWait (s : State) (srcs : List XOp) (d : Option XDst) : State :=
  s.wait.fe fun f => { f with xWhy := s.xHeldBy srcs d }

/-- Issue on the X-pipe (R162): wait or take OVERRUN; otherwise open the X-cycle, read the sources, and go on. The continuation
gets the state before any pop, for a precise trap, and the state after the pops. -/
def State.xIssue (s : State) (srcs : List XOp) (d : Option XDst) (k : State → State → List Opd → Out) : Out :=
  match s.xGate srcs d with
  | .wait => .next (s.xWait srcs d)
  | .overrun => s.startX.xTrap .overrun
  | .go =>
    let s0 := s.startX
    let s1 := (s0.takeItems srcs).fe fun f => { f with xdone := true }
    k s0 s1.progress (s0.readAll [] srcs)

/-- A result is on its way: it lands after the latency of the current instruction (R163). -/
def State.send (s : State) (d : FlyDst) (val : Nat) (mask : Pred) (fl : Flags) : State :=
  let f := s.core.fe
  let att : List (Fin 16 × Nat) := match d with
    | .sq q => s.core.qs.spush[q].filter fun p => p.2 < f.cur.seq
    | _ => []
  let s := match d with
    | .sq q => (s.qs fun u => { u with spush := u.spush.set q.val (u.spush[q].filter fun p => !(p.2 < f.cur.seq)) }).fe
        fun f => { f with sq0 := f.sq0 ++ [(f.cur.seq, q)] }
    | _ => s
  s.regs fun e => { e with fly := e.fly ++
    [⟨d, BitVec.ofNat 4096 val, mask, f.xnow + f.cur.instr.latency, fl, f.cur.seq, f.sq0.length, att.map (·.1)⟩] }

/-- The physical destination of a vector-class result, register k of its group (R167, R168). -/
def State.vDst (s : State) (d : XDst) (k : Nat) : FlyDst :=
  match d with
  | .v n => .v (s.phys (Fin.ofNat 64 (n.val + k)))
  | .sq q => .sq q
  | .s n => .s n

/-- A vector-class result goes to its registers, or enters a store queue with its false lanes zero (R166, R167). -/
def State.sendOut (s : State) (d : XDst) (o : XOut) : State :=
  (o.regs.zip (List.range o.regs.length)).foldl
    (fun s r =>
      let fl := if r.2 = 0 then o.fl else 0
      s.send (s.vDst d r.2) r.1.1 r.1.2 fl) s

/-- A scalar result: written when lane 0 of the guard is true; in a store queue the item holds it in bytes 0 to 3 (R166, R194). -/
def State.sendScalar (s : State) (d : XDst) (g : Pred) (r : Rd) : State :=
  let on := g.getLsbD 0
  match d with
  | .sq q => s.send (.sq q) (if on then r.bits % 2 ^ 32 else 0) g (if on then r.fl else 0)
  | _ => s.send (s.vDst d 0) (r.bits % 2 ^ 32) g (if on then r.fl else 0)

/-- The rounding mode at issue: DYN reads RMODE (R48). -/
def State.mode (s : State) (rm : RM) : RM := if rm == .dyn then RM.ofCode (wfld s.core.sys.rmode 0 3) else rm

/-- The physical registers of a group of w registers at a v code. -/
def State.groupRegs (s : State) (w : Nat) (n : Fin 64) : List (Fin 64) :=
  (List.range w).map fun k => s.phys (Fin.ofNat 64 (n.val + k))

/-- R167: a source and a destination that share some registers but not all, or that are identical in an instruction of two
widths, take ILLEGAL_OPERAND. `same` says that the instruction is element-wise with one width. -/
def groupClash (same : Bool) (src dst : List (Fin 64)) : Bool :=
  let meet := src.any dst.contains
  let eq := src == dst
  (meet && !eq) || (eq && !same)

/-- The registers of a source group, or of a single source that a v code names. -/
def State.srcRegs (s : State) (w : Nat) : XOp → List (Fin 64)
  | .v n => s.groupRegs w n
  | _ => []

def State.dstRegs (s : State) (w : Nat) : XDst → List (Fin 64)
  | .v n => s.groupRegs w n
  | _ => []

/-- A vector-class instruction that only computes: read, compute, send (R173). -/
def State.xVec (s : State) (srcs : List XOp) (g : Fin 16) (d : XDst) (f : State → List Opd → Pred → XOut) : Out :=
  s.xIssue srcs (some d) fun s0 s1 os => .next (s1.sendOut d (f s0 os (s0.p g)))

/-- A vector-class instruction that may take a value-dependent fault: it is taken before anything is popped (R174). -/
def State.xVecTry (s : State) (srcs : List XOp) (g : Fin 16) (d : XDst)
    (f : State → List Opd → Pred → Except XFault XOut) : Out :=
  s.xIssue srcs (some d) fun s0 s1 os =>
    match f s0 os (s0.p g) with
    | .error e => s0.xTrap e.cause
    | .ok o => .next (s1.sendOut d o)

/-- Operand n of a list. -/
def opd (os : List Opd) (n : Nat) : Opd := os.getD n (.scal 0)

/-- The sources of a rounding form: its operands, and the random source only under SR (R175). -/
def State.withRnd (s : State) (r : Rnd) (ops : List XOp) : List XOp := if s.mode r.rm == .sr then ops ++ [r.src] else ops

end Sys2Proof.Machine
end

