-- ==== Sys2Proof/Machine/VectorInt.lean ====
section
/-! DEFINITION. Vector integers, compares, selects and predicate logic, majors 0x21 and 0x22 (R179 to R183) -/

namespace Sys2Proof.Machine

/-- A two-source integer form with .SAT (R179, R180). -/
def intBin (op : IntOp) (f : IntBin) (s : State) : Out :=
  s.xVec [f.a, f.b] f.g f.d fun _ os p => intVec op f.ty f.sat (opd os 0) (opd os 1) (.scal 0) p

/-- A two-source integer form without modifiers (R179, R180). -/
def intTwo (op : IntOp) (f : XTwo) (s : State) : Out :=
  s.xVec [f.a, f.b] f.g f.d fun _ os p => intVec op f.ty false (opd os 0) (opd os 1) (.scal 0) p

/-- A group and a source that meet take ILLEGAL_OPERAND before anything else (R167). -/
def State.unlessClash (s : State) (clash : Bool) (k : Out) : Out := if clash then s.startX.xTrap .illegalOperand else k

/-- Some source register of an instruction lies in its destination group, or the other way round (R167). -/
def State.clash (s : State) (src : List (Fin 64)) (d : XDst) (w : Nat) : Bool := src.any (s.dstRegs w d).contains

def execViadd (f : IntBin) (s : State) : Out := intBin .add f s
def execVisub (f : IntBin) (s : State) : Out := intBin .sub f s
def execVimulh (f : IntBin) (s : State) : Out := intBin .mulh f s
def execVimul (f : IntBin) (s : State) : Out :=
  if f.wide then
    s.unlessClash (s.clash (s.srcRegs 1 f.a ++ s.srcRegs 1 f.b) f.d 2)
      (s.xVec [f.a, f.b] f.g f.d fun _ os p => mulWide f.ty (opd os 0) (opd os 1) p)
  else intBin .mul f s
def execVimad (f : IntMad) (s : State) : Out :=
  s.xVec [f.a, f.b, f.c] f.g f.d fun _ os p => intVec .mad f.ty f.sat (opd os 0) (opd os 1) (opd os 2) p
def execVand (f : XTwo) (s : State) : Out := intTwo .and f s
def execVor (f : XTwo) (s : State) : Out := intTwo .or f s
def execVxor (f : XTwo) (s : State) : Out := intTwo .xor f s
def execVshl (f : XTwo) (s : State) : Out := intTwo .shl f s
def execVshr (f : XTwo) (s : State) : Out := intTwo .shr f s
def execVsra (f : XTwo) (s : State) : Out := intTwo .sra f s
def execVimin (f : XTwo) (s : State) : Out := intTwo .min f s
def execVimax (f : XTwo) (s : State) : Out := intTwo .max f s
def execViabs (f : IntUn) (s : State) : Out :=
  s.xVec [f.a] f.g f.d fun _ os p => intVec .abs f.ty f.sat (opd os 0) (.scal 0) (.scal 0) p

def execVcmp (g : Fin 16) (ty : ElemTy) (c : VCond) (d : Fin 16) (a b : XOp) (s : State) : Out :=
  s.xIssue [a, b] none fun s0 s1 os =>
    let (v, m, fl) := cmpVec ty c (opd os 0) (opd os 1) (s0.p g)
    .next (s1.send (.p d) v.toNat m fl)

def execVsel (g : Fin 16) (ty : ElemTy) (d : XDst) (a b : XOp) (p : Fin 16) (s : State) : Out :=
  s.xVec [a, b] g d fun s os gp => selVec ty (opd os 0) (opd os 1) (s.p p) gp

/-- A predicate result: bits whose guard bit is true (R183). -/
def predOp (g d : Fin 16) (f : State → Pred) (s : State) : Out :=
  s.xIssue [] none fun s0 s1 _ => .next (s1.send (.p d) (f s0).toNat (s0.p g) 0)

def execPand (g d a b : Fin 16) (s : State) : Out := predOp g d (fun s => s.p a &&& s.p b) s
def execPor (g d a b : Fin 16) (s : State) : Out := predOp g d (fun s => s.p a ||| s.p b) s
def execPxor (g d a b : Fin 16) (s : State) : Out := predOp g d (fun s => s.p a ^^^ s.p b) s
def execPnot (g d a : Fin 16) (s : State) : Out := predOp g d (fun s => ~~~ s.p a) s

end Sys2Proof.Machine
end

