-- ==== Sys2Proof/Machine/Convert.lean ====
section
/-! DEFINITION. Conversions, permutes and reductions, majors 0x23 to 0x25 (R184 to R191) -/

namespace Sys2Proof.Machine

/-- A group source needs a v code, whose registers are read; any other code is a single source (R167). -/
def State.groupVals (s : State) (w : Nat) (a : XOp) : List Nat := (s.srcRegs w a).map fun n => (s.v n).toNat

/-- VCVT, VCVTW and VCVTN (R185): `ws` and `wd` are the registers of the source and destination groups. -/
def convertForm (f : CvtArgs) (ws wd : Nat) (s : State) : Out :=
  let srcs := if ws = 1 then [f.a] else []
  let all := s.withRnd f.rnd srcs
  let used := s.srcRegs ws f.a ++ (s.withRnd f.rnd []).flatMap (s.srcRegs 1)
  s.unlessClash ((ws != 1 || wd != 1) && s.clash used f.d wd)
    (s.xVecTry all f.g f.d fun s os p =>
      let rnd := os.getD srcs.length (.scal 0)
      let la := if ws = 1 then (opd os 0).lane f.src else groupLane f.src ws (s.groupVals ws f.a)
      let rm := s.mode f.rnd.rm
      cvtVec f.src f.ty rm f.sat f.log (rhoLane rm rnd) la p)

def execVcvt (f : CvtArgs) (s : State) : Out := convertForm f 1 1 s
def execVcvtw (f : CvtArgs) (s : State) : Out := convertForm f 1 (f.ty.width / f.src.width) s
def execVcvtn (f : CvtArgs) (s : State) : Out := convertForm f (f.src.width / f.ty.width) 1 s

def execVdq (f : BlkArgs) (s : State) : Out :=
  let srcs := s.withRnd f.rnd [f.a, f.b]
  s.unlessClash (s.clash (srcs.flatMap (s.srcRegs 1)) f.d (f.ty.width / f.src.width))
    (s.xVecTry srcs f.g f.d fun s os p => dqVec f (s.mode f.rnd.rm) (opd os 2) (opd os 0) (opd os 1) p)

def execVq (f : BlkArgs) (s : State) : Out :=
  let w := f.src.width / f.ty.width
  let srcs := s.withRnd f.rnd [f.b]
  s.unlessClash (s.clash (s.srcRegs w f.a ++ srcs.flatMap (s.srcRegs 1)) f.d 1)
    (s.xVecTry srcs f.g f.d fun s os p =>
      qVec f (s.mode f.rnd.rm) (opd os 1) (opd os 0) (groupLane f.src w (s.groupVals w f.a)) p)

def execSrnd (f : SrndArgs) (s : State) : Out :=
  s.xVec [f.a, f.b] f.g f.d fun _ os p => srndVec f (opd os 0) (opd os 1) p

/-! ### Permutes (R189, R190) -/

def execVperm (f : Perm3) (s : State) : Out :=
  s.xVec (if f.ty.width = 8 then [f.a, f.b, f.c] else [f.a, f.b]) f.g f.d fun _ os p =>
    permVec f.ty (opd os 0) (opd os 1) (opd os 2) p

/-- An amount operand: an s code read as n32, or the integer of its code (R189). -/
def amount (o : Opd) : Nat := o.sc .n32

def execVrot (f : XTwo) (s : State) : Out :=
  s.xVec [f.a, f.b] f.g f.d fun _ os p => rotVec f.ty (opd os 0) (amount (opd os 1)) p
def execVbcast (f : XTwo) (s : State) : Out :=
  s.xVec [f.a, f.b] f.g f.d fun _ os p => bcastVec f.ty (opd os 0) (amount (opd os 1)) p
def execVzip (f : PermSel) (s : State) : Out :=
  s.xVec [f.a, f.b] f.g f.d fun _ os p => zipVec f.ty f.sel (opd os 0) (opd os 1) p
def execVunzip (f : PermSel) (s : State) : Out :=
  s.xVec [f.a, f.b] f.g f.d fun _ os p => unzipVec f.ty f.sel (opd os 0) (opd os 1) p
def execVslide (f : Perm3) (s : State) : Out :=
  s.xVec [f.a, f.b, f.c] f.g f.d fun _ os p => slideVec f.ty (opd os 0) (opd os 1) (amount (opd os 2)) p

/-! ### Reductions (R191) -/

/-- A reduced value of width w: broadcast to every element of a v register or item, or in an s register (R191). -/
def State.sendReduced (s : State) (d : XDst) (w : Nat) (r : Rd) : State :=
  match d with
  | .s _ => s.send (s.vDst d 0) r.bits allTrue r.fl
  | _ => s.send (s.vDst d 0) (broadcast w r.bits) allTrue r.fl

/-- A reduction: the guard selects the lanes that contribute (R191). -/
def reduceForm (f : RedArgs) (w : Nat) (k : RM → List Nat → Rd) (s : State) : Out :=
  s.xIssue [f.a, f.b] (some f.d) fun s0 s1 os =>
    .next (s1.sendReduced f.d w (k (s0.mode f.rm) (redTerms f.ty (opd os 0) (opd os 1) (s0.p f.g))))

def execVrsum (f : RedArgs) (s : State) : Out := reduceForm f f.ty.width (fun rm xs => redSum f.ty rm xs) s
def execVrmax (f : RedArgs) (s : State) : Out := reduceForm f f.ty.width (fun _ xs => redExt f.ty true xs) s
def execVrmin (f : RedArgs) (s : State) : Out := reduceForm f f.ty.width (fun _ xs => redExt f.ty false xs) s
def execVriadd (f : RedArgs) (s : State) : Out := reduceForm f 32 (fun _ xs => redIadd f.ty f.sat xs) s

end Sys2Proof.Machine
end

