-- ==== Sys2Proof/Machine/Cupboard.lean ====
section
/-! DEFINITION. The Cupboard, queue management and vector immediates, majors 0x29 to 0x2B (R172, R196 to R201) -/

namespace Sys2Proof.Machine

def execCbstV (g : Fin 16) (ty : ElemTy) (a : XOp) (off : BitVec 16) (s : State) : Out :=
  s.xIssue [a] none fun s0 s1 os =>
    let la := (opd os 0).lane ty
    .next (s1.send (.cupV off.toNat) (tabulate ty.width (lanesOf ty.width) la) (elemMask ty.width (guardOf (s0.p g) ty.width)) 0)

def execCbldV (g : Fin 16) (ty : ElemTy) (d : Fin 64) (off : BitVec 16) (s : State) : Out :=
  s.xIssue [] none fun s0 s1 _ =>
    .next ((s1.send (.v (s0.phys d)) (leNat (s0.core.mems.cup.bytes off.toNat 512))
      (elemMask ty.width (guardOf (s0.p g) ty.width)) 0).meetPoison 2 (s0.marked 1 off.toNat 512))

def execCbstS (g : Fin 16) (a : Fin 32) (off : BitVec 16) (s : State) : Out :=
  s.xIssue [.s a] none fun s0 s1 os => .next (s1.send (.cupS off.toNat) ((opd os 0).sc .n32) (s0.p g) 0)

def execCbldS (g : Fin 16) (d : Fin 32) (off : BitVec 16) (s : State) : Out :=
  s.xIssue [] none fun s0 s1 _ => .next ((s1.send (.s d) (s0.core.mems.cup.le off.toNat 4) (s0.p g) 0).meetPoison 2 (s0.marked 1 off.toNat 4))

/-! ### Queue management (R196 to R199) -/

/-- The number of leading items that are present (R196). -/
def State.presentCount (s : State) (q : Fin 8) : Nat :=
  ((List.range 16).takeWhile fun j => s.present q j).length

/-- In Strict mode an item whose ready time has come and that is not present is an OVERRUN (R196). -/
def State.lateItem (s : State) (q : Fin 8) : Bool :=
  s.strict && (match s.core.qs.lq[q][s.presentCount q]? with
    | some i => i.ready.getD 0 ≤ s.core.fe.cycle && !(i.data.isSome && i.arrived < s.core.fe.cycle)
    | none => false)

/-- QSKIP: count pops, the items discarded; the count of an s register is the one that the issue cycle sees (R197). -/
def execQskip (_g : Fin 16) (q : Fin 8) (count : XOp) (s : State) : Out :=
  let n := match count with
    | .s r => s.startX.core.regs.s[r].toNat
    | .k n => n.val
    | _ => 0
  if n > 16 then s.startX.xTrap .illegalOperand
  else s.xIssue (List.replicate n (.pop q)) none fun _ s1 _ => .next s1

def execQcount (g : Fin 16) (d : Fin 32) (q : Fin 12) (s : State) : Out :=
  let lq : Fin 8 := Fin.ofNat 8 q.val
  if q.val < 8 && s.lateItem lq then s.startX.xTrap .overrun
  else s.xIssue [] none fun s0 s1 _ =>
    let sq : Fin 4 := Fin.ofNat 4 (q.val - 8)
    let n := if q.val < 8 then s0.presentCount lq else s0.core.qs.sq[sq].length + s0.flyTo sq
    .next (s1.send (.s d) n (s0.p g) 0)

def execQflush (g : Fin 16) (d : Option (Fin 32)) (q : Fin 8) (s : State) : Out :=
  if s.lateItem q then s.startX.xTrap .overrun
  else
    let n := s.presentCount q
    s.xIssue (List.replicate n (.pop q)) none fun s0 s1 _ =>
      match d with
      | some r => .next (s1.send (.s r) n (s0.p g) 0)
      | none => .next s1

/-! ### Vector immediates (R200, R201) -/

/-- The pattern of VLI (R200). -/
def vliPattern (ty : ElemTy) (imm : BitVec 26) (x : Option (BitVec 50)) : Nat :=
  match x with
  | some _ => (extend 26 imm.toNat x).toNat % 2 ^ ty.width
  | none =>
    match ty with
    | .fp32 => imm.toNat * 2 ^ 6
    | .i32 | .n32 => wrap 32 (sint 26 imm.toNat)
    | .cx => (convert .cx .rne false 0 0 (.num (Ex.ofInt (sint 26 imm.toNat)))).bits
    | _ => imm.toNat % 2 ^ ty.width

def execVli (g : Fin 16) (ty : ElemTy) (d : Fin 64) (imm : BitVec 26) (s : State) : Out :=
  s.xVec [] g (.v d) fun s _ p => let x := vliPattern ty imm s.core.fe.cur.ximm; single ty p fun _ => plain x

def execVlix (g : Fin 16) (ty : ElemTy) (d : Fin 64) (base step : BitVec 13) (s : State) : Out :=
  s.xVec [] g (.v d) fun _ _ p =>
    single ty p fun i => plain (wrap ty.width (sint 13 base.toNat + i * sint 13 step.toNat))

end Sys2Proof.Machine
end

