-- ==== Sys2Proof/Machine/Loop.lean ====
section
/-! DEFINITION. Loops and rotation, major 0x28 (R168 to R171) -/

namespace Sys2Proof.Machine

/-- RB ← b (R169). -/
def State.setRb (s : State) (b : Nat) : State := s.sys fun y => { y with loopState := setFld y.loopState 49 5 b }

/-- The fields of LOOP.STATE (R169). -/
def loopWord (v stg klen rb slot pro remain : Nat) : Word :=
  BitVec.ofNat 64 (v * 2 ^ 63 + stg * 2 ^ 60 + klen * 2 ^ 54 + rb * 2 ^ 49 + slot * 2 ^ 43 + pro * 2 ^ 40 + remain)

/-- The stage predicate p(8+m) of the current pass: m ≤ q < N + m, read from STG, PRO and REMAIN (R168, R169). -/
def stageTrue (st : Word) (m : Nat) : Bool :=
  m ≤ wfld st 60 3 && m ≤ wfld st 40 3 && wfld st 60 3 < m + wfld st 0 32

/-- p8 to p15 take values, and their dirty bits are set (R161). -/
def State.setStages (s : State) (f : Nat → Bool) : State :=
  s.regs fun e => { e with
    p := vmap (fun i p => if i.val < 8 then p else if f (i.val - 8) then allTrue else 0) e.p
    pDirty := e.pDirty ||| 0xFF00 }

/-- The stage predicates are loaded for a pass, before its first X-cycle (R168). -/
def State.loadStages (s : State) : State := s.setStages (stageTrue s.core.sys.loopState)

/-- The guard of a kernel word, when it is a stage predicate (R168). -/
def squashed (st : Word) (g : Nat) : Bool := 8 ≤ g && !stageTrue st (g - 8)

/-- The guard field of an X-pipe word (R64). -/
def guardField (i : Instr) : Nat := fld i.word 46 4

/-- After the last word of a pass: rotate, count, and leave the loop after the last pass (R168). -/
def State.nextWord (s : State) : State :=
  let st := s.core.sys.loopState
  let slot := wfld st 43 6
  if slot < wfld st 54 6 then s.sys fun y => { y with loopState := setFld y.loopState 43 6 (slot + 1) }
  else
    let rb := (wfld st 49 5 + 31) % 32
    let pro := min (wfld st 40 3 + 1) (wfld st 60 3)
    let left := wfld st 0 32 - 1
    if left = 0 then
      let s := s.sys fun y => { y with loopState := loopWord 0 (wfld st 60 3) (wfld st 54 6) rb 0 pro 0 }
      let s := s.setStages fun _ => false
      s.fe fun f => { f with kernel := none }
    else (s.sys fun y => { y with loopState := loopWord 1 (wfld st 60 3) (wfld st 54 6) rb 0 pro left }).loadStages

/-- LOOP (R170). The trip count in an s register is the one that the issue cycle sees. -/
def execLoop (count : LoopCount) (stages1 : Fin 8) (k1 : Fin 64) (s : State) : Out :=
  s.xIssue [] none fun s0 s1 _ =>
    let n := match count with
      | .imm n => n.toNat
      | .reg r => s0.core.regs.s[r].toNat
    if 2 ^ 31 ≤ n then s0.xTrap .illegalOperand
    else if n = 0 then .next s1
    else
      let s := s1.sys fun y => { y with loopState := loopWord 1 stages1.val k1.val (s1.rb) 0 0 (n + stages1.val) }
      .next (s.loadStages.fe fun f => { f with kernel := some f.cur })

def execRbset (b : Fin 32) (s : State) : Out := s.xIssue [] none fun _ s1 _ => .next (s1.setRb b.val)
def execRbadv (d : Fin 32) (s : State) : Out := s.xIssue [] none fun _ s1 _ => .next (s1.setRb (s1.rb + 32 - d.val))

def execPstage (mask : BitVec 8) (s : State) : Out :=
  s.xIssue [] none fun _ s1 _ =>
    .next ((List.range 8).foldl
      (fun s m => s.send (.p (Fin.ofNat 16 (8 + m))) (if mask.getLsbD m then allTrue.toNat else 0) allTrue 0) s1)

end Sys2Proof.Machine
end

