-- ==== Sys2Proof/Machine/Queue.lean ====
section
/-! DEFINITION. Queue loads and stores, the scale queue and affine streams, majors 0x12 and 0x13 (R143 to R151). -/

namespace Sys2Proof.Machine

/-- Bytes of an item: the LEN and ILEN codes (R143, R147). -/
def itemBytes (len : Nat) : Nat := if len = 0 then 512 else 64 * len

/-- Hatch pops that wait for the next item of a load queue go to it (R158). -/
def State.takeLpop (s : State) (q : Fin 8) : List (Fin 16) × State :=
  (s.core.qs.lpop[q], s.qs fun u => { u with lpop := u.lpop.set q.val [] })

/-- LDQ (R144): a slot is reserved, and its access begins. -/
def execLdq (spc : Space) (q : Fin 8) (len : Fin 8) (acq : Bool) (m : MemOp) (s : State) : Out :=
  s.aIssue [m.base, m.idx] [] fun s =>
    if !s.accRoom || 16 ≤ s.core.qs.lq[q].length || !s.core.qs.lin[q].isEmpty then .next s.wait
    else
      let a := s.am m
      let n := itemBytes len.val
      s.access spc a n false fun ks s =>
        let seq := s.core.fe.cur.seq
        let ready := s.readyAt (s.accClass spc a.toNat)
        let (pops, s) := s.takeLpop q
        let s := s.qs fun u => { u with lq := u.lq.set q.val (u.lq[q] ++ [⟨seq, none, 0, ready, pops, false⟩]) }
        done (s.beginRead (.ldq q seq n) spc a.toNat n ks acq ready)

/-- A store queue has a stream that still takes items. -/
def isStream : SqTaker → Bool
  | .stream _ => true
  | _ => false

/-- STQ (R144): it claims the next item written into the queue; an ordinary one in a global space reserves its Porch entries. A failed
translation is judged before the room in the Porch (notes/assumptions/98.md). -/
def execStq (spc : Space) (q : Fin 4) (len : Fin 8) (ms : Bool) (m : MemOp) (s : State) : Out :=
  s.aIssue [m.base, m.idx] [] fun s =>
    let a := s.am m
    let n := itemBytes len.val
    let seq := s.core.fe.cur.seq
    if s.core.qs.taker[q].any isStream || s.unfetched spc a.toNat n seq then .next s.wait
    else
      s.access spc a n true fun ks s =>
        if spc != .sp && !ms && !s.porchRoom spc a.toNat n then s.aTrapFree .porchFull
        else
          let s := if spc != .sp && !ms then s.porchReserve spc a.toNat n else s
          done (s.qs fun u => { u with taker := u.taker.set q.val (u.taker[q] ++ [.claim spc a.toNat n ks ms seq]) })

/-- An SCLOAD earlier in program order has not yet appended its entries (R145, R263). -/
def State.scloadAhead (s : State) : Bool :=
  s.commands.any fun c => s.earlier s.core.fe.cur.seq c.seq &&
    match c.instr with | .scload _ _ => true | _ => false

/-- LDSC (R145): entries of the scale queue are reserved behind every earlier one, and the access begins. -/
def execLdsc (spc : Space) (cnt : Fin 16) (m : MemOp) (s : State) : Out :=
  s.aIssue [m.base, m.idx] [] fun s =>
    let n := 16 * (cnt.val + 1)
    if !s.accRoom || 256 < s.core.qs.scale.length + n || s.scloadAhead then .next s.wait
    else
      let a := s.am m
      s.access spc a (2 * n) false fun ks s =>
        let seq := s.core.fe.cur.seq
        let s := s.qs fun u => { u with scale := u.scale ++ List.replicate n ⟨seq, seq, none⟩ }
        done (s.beginRead (.ldsc seq n) spc a.toNat (2 * n) ks false none)

/-! ### Streams (R146 to R151) -/

/-- The shape in gI and gI+1, when no RSVD bit is set (R147). -/
def shapeOf (x y : Word) : Option Shape :=
  if wfld x 51 13 != 0 || wbit y 63 then none
  else some ⟨itemBytes (wfld x 48 3), wfld x 0 16, wfld x 16 16, wfld x 32 16,
    sint 21 (wfld y 0 21), sint 21 (wfld y 21 21), sint 21 (wfld y 42 21)⟩

/-- A byte range lies inside the space's window. -/
def State.rangeIn (s : State) (spc : Space) (a : Int) (n : Nat) : Bool :=
  0 ≤ a && (s.firstOut spc a.toNat n).isNone

/-- The first of the next n items, from k on, with a byte outside the window. -/
def State.badItem (s : State) (t : Stream) : Nat → Nat → Option Nat
  | 0, _ => none
  | n + 1, k => if s.rangeIn t.spc (t.itemAt k) t.shape.ilen then State.badItem s t n (k + 1) else some k

/-- A stream with an item in the unit's own vault uses it (R327). -/
def State.useStream (s : State) (t : Stream) : State :=
  if t.spc == .at || (t.spc == .ra && anyItem t (fun a => (s.porchLoc .ra a.toNat).1 == .at) t.shape.count 0) then
    s.withCore { s.core with vuse := true }
  else s

/-- The checks of a STRM at issue, in the order of R148, and the registers that it reads. -/
def State.strmCheck (s : State) (spc : Space) (ms : Bool) (gi base : GReg) (disp : BitVec 28) (k : Stream → State → Out) : Out :=
  let start := s.amBase base disp
  match shapeOf (s.g gi) (s.g (Fin.ofNat 32 (gi.val + 1))) with
  | none => s.aTrapFree .illegalOperand
  | some h =>
    if start.toNat % 4 != 0 then s.aTrapFree .illegalOperand
    else
      let t : Stream := ⟨spc, start, h, 0, ms, s.core.fe.cur.seq, []⟩
      match (if s.spanIn spc t.hull.1 t.hull.2 then none else s.badItem t h.count 0) with
      | some i => s.boundsTrap spc (word (t.itemAt i))
      | none => k t (s.useStream t)

/-- STRM.IN (R146 to R150): the stream stands behind every earlier item of its queue. -/
def execStrmIn (spc : Space) (q : Fin 8) (gi base : GReg) (disp : BitVec 28) (s : State) : Out :=
  s.aIssue [gi, Fin.ofNat 32 (gi.val + 1), base] [] fun s =>
    s.strmCheck spc false gi base disp fun t s =>
      if 2 ≤ s.core.qs.lin[q].length then .next s.wait
      else
        let (pops, s) := s.takeLpop q
        done (s.qs fun u => { u with lin := u.lin.set q.val (u.lin[q] ++ [{ t with pops := pops }]) })

/-- STRM.OUT (R146 to R150): it waits while its queue has an active and a pending stream. -/
def execStrmOut (spc : Space) (ms : Bool) (q : Fin 4) (gi base : GReg) (disp : BitVec 28) (s : State) : Out :=
  s.aIssue [gi, Fin.ofNat 32 (gi.val + 1), base] [] fun s =>
    s.strmCheck spc ms gi base disp fun t s =>
      if 2 ≤ (s.core.qs.taker[q].filter isStream).length then .next s.wait
      else done (s.qs fun u => { u with taker := u.taker.set q.val (u.taker[q] ++ [.stream t]) })

/-- STRM.STOP (R151). A pop attached to a stream that has placed no item waits for the next item instead (R158). -/
def execStrmStop (out : Bool) (q : Fin 8) (s : State) : Out :=
  s.aIssue [] [] fun s =>
    if out then
      let q4 : Fin 4 := Fin.ofNat 4 q.val
      let ts := s.core.qs.taker[q4]
      let ahead := (ts.takeWhile fun t => !isStream t).length
      if ts.any isStream && ahead < s.core.qs.sq[q4].length then .next s.wait
      else done (s.qs fun u => { u with taker := u.taker.set q4.val (ts.filter fun t => !isStream t) })
    else
      let back := (s.core.qs.lin[q]).flatMap fun t => if t.done = 0 then t.pops else []
      done (s.qs fun u => { u with lin := u.lin.set q.val [], lpop := u.lpop.set q.val (back ++ u.lpop[q]) })

end Sys2Proof.Machine
end

