-- ==== Sys2Proof/Machine/Sync.lean ====
section
/-! DEFINITION. Fences, the barrier, hatches and completion counters, major 0x14 (R152 to R160). -/

namespace Sys2Proof.Machine

/-! ### Fences (R100, R152, R153) -/

/-- The path flags that a FENCE names, by the number of the path; without any flag all of them (R100). -/
def fenceNames (f : FenceFlags) (path : Nat) : Bool :=
  f.code == 0 ||
    match path with
    | 0 => f.v | 1 => f.h | 2 => f.cl | 3 => f.hs | 4 => f.pr | _ => false

/-- .E is named (R100). -/
def fenceNamesE (f : FenceFlags) : Bool := f.code == 0 || f.e

/-- The paths that the items of a memory-side output stream can take. -/
def State.streamPaths (s : State) (t : Stream) : List Nat :=
  if t.spc == .ra then [0, 1] else [s.pathOf t.spc t.start.toNat]

/-- An earlier memory-side write of the A-pipe on a named path is not complete, a queue store or stream item that has not landed
among them (R100, R152). A handler's FENCE waits for the unit's writes in flight too, and not for its queue stores and stream items,
which the stopped X-pipe cannot land (notes/assumptions/99.md). -/
def State.msPending (s : State) (names : Nat → Bool) : Bool :=
  let seq := s.core.fe.cur.seq
  (s.core.lsu.ms.any fun w => w.seq < seq && names w.path) ||
  s.core.qs.taker.toList.any fun l => l.any fun t =>
    match t with
    | .claim x a _ _ ms q => ms && s.earlier seq q && names (s.pathOf x a)
    | .stream t => t.ms && s.earlier seq t.seq && (s.streamPaths t).any names

/-- FENCE (R100, R152); in handler mode .E waits for the handler's own commands only (R224). Completion at a scope is completion for every agent here (notes/assumptions/6.md). -/
def execFence (f : FenceFlags) (_sc : Scope) (s : State) : Out :=
  s.aIssue [] [] fun s =>
    if s.msPending (fenceNames f) || (fenceNamesE f && s.commands.any fun c => s.earlier s.core.fe.cur.seq c.seq) then .next s.wait
    else done s

/-- Every earlier load, store and stream item of the A-pipe has been performed or has entered the Porch (R153). -/
def State.allPerformed (s : State) : Bool :=
  let e := s.earlier s.core.fe.cur.seq
  !(s.core.lsu.acc.any fun a => a.data.isNone && e a.seq) && !(s.core.lsu.heldSt.any fun h => e h.seq) &&
  !(s.core.lsu.ms.any fun w => e w.seq) && !(s.core.qs.lin.toList.any fun l => l.any fun t => e t.seq) &&
  !(s.core.qs.taker.toList.any fun l => l.any fun t => match t with | .claim _ _ _ _ _ q => e q | .stream t => e t.seq)

/-- AFENCE (R103, R153): the Porch forwards by physical address from now on, and the core's Attic lines are dropped. A store issued after
the AFENCE is therefore seen through another alias without a second one: the model's choice (notes/assumptions/100.md). -/
def execAfence (s : State) : Out :=
  s.aIssue [] [] fun s =>
    if s.allPerformed then done ((s.fe fun f => { f with byPhys := true }).lsu fun l => { l with attic := [] })
    else .next s.wait

/-! ### The barrier (R101, R154) -/

/-- The barrier of the unit's launch. -/
def State.bar (s : State) : Barrier := look ⟨0, []⟩ s.pkg.bars s.lctr

/-- BAR (R32, R101, R154). -/
def execBar (s : State) : Out :=
  s.aIssue [] [] fun s =>
    if !s.isGang then s.aTrapFree .gangRequired
    else
      let b := s.bar
      match s.core.fe.barrier with
      | some g => if b.gen = g then .next s.wait else done (s.fe fun f => { f with barrier := none })
      | none =>
        if s.msPending fun _ => true then .next s.wait
        else
          let s := s.fe fun f => { f with barrier := some b.gen }
          .next ((s.pkgd fun p => { p with bars := put p.bars s.lctr ⟨b.gen, s.uctr :: b.arrived⟩ }).progress.wait)

/-! ### Hatches (R155 to R159) -/

/-- The producer of a hatch's live binding; 0 when it is not bound (R155). -/
def State.prod (s : State) (h : Fin 16) : Nat :=
  let b := s.core.qs.h[h].bind.toNat
  if bitAt b 7 then fld b 4 3 else 0

/-- The consumer of a hatch's live binding; 0 when it is not bound. -/
def State.cons (s : State) (h : Fin 16) : Nat :=
  let b := s.core.qs.h[h].bind.toNat
  if bitAt b 7 then fld b 0 3 else 0

/-- An earlier instruction or command still has a push or a pop of hN to do, attached ones included (R157). -/
def State.hatchBusy (s : State) (h : Fin 16) : Bool :=
  let e := s.earlier s.core.fe.cur.seq
  ((s.core.eng.q.toList.flatMap id ++ s.core.eng.side).any fun c => e c.seq && (c.push == some h || (c.pop == some h && !c.popped))) ||
  (s.core.fe.hpushes.any fun p => p.1 == h) ||
  (s.core.qs.spush.toList.any fun l => l.any fun p => p.1 == h) ||
  (s.core.regs.fly.any fun r => r.pushes.contains h) ||
  (s.core.qs.lpop.toList.any fun l => l.contains h) ||
  (s.core.qs.lq.toList.any fun l => l.any fun i => i.pops.contains h) ||
  (s.core.qs.lin.toList.any fun l => l.any fun t => t.pops.contains h)

/-- HBIND (R157). -/
def execHbind (h : Fin 16) (w : BitVec 8) (s : State) : Out :=
  s.aIssue [] [] fun s =>
    if s.hatchBusy h then .next s.wait
    else if !(s.core.qs.h[h].toks).isEmpty then s.aTrapFree .illegalOperand
    else done (s.qs fun u => { u with h := u.h.set h.val ⟨w, []⟩ })

/-- The first later X-pipe write of a store queue, when the X-pipe has already issued it: its place among the writes of store queues,
counted from n. The passes of a kernel share their place in program order (R158). -/
def firstWrite (seq : Nat) (q : Fin 4) : Nat → List (Nat × Fin 4) → Option Nat
  | _, [] => none
  | n, p :: ps => if seq < p.1 && p.2 == q then some n else firstWrite seq q (n + 1) ps

/-- Attach a push to a write of a store queue, if it has not landed. -/
def attachPush (h : Fin 16) (ord : Nat) (q : Fin 4) : List Fly → Option (List Fly)
  | [] => none
  | r :: rs =>
    if r.ord == ord && r.dst == .sq q then some ({ r with pushes := r.pushes ++ [h] } :: rs)
    else (attachPush h ord q rs).map (r :: ·)

/-- The cycle from which the result of every instruction that the A-pipe has issued is written (R131). -/
def State.allWritten (s : State) : Nat := s.core.regs.gLat.toList.foldl max 0

/-- HPUSH (R158): of the A-pipe it pushes when every earlier A-pipe instruction has retired; with a store queue its push goes to
the first later item written there. -/
def execHpush (h : Fin 16) (q : Option (Fin 4)) (s : State) : Out :=
  s.aIssue [] [] fun s =>
    let seq := s.core.fe.cur.seq
    match q with
    | none =>
      if s.prod h != 1 then s.aTrapFree .illegalOperand
      else done (s.fe fun f => { f with hpushes := f.hpushes ++ [(h, seq, s.allWritten)] })
    | some q =>
      if s.prod h != 2 then s.aTrapFree .illegalOperand
      else
        match firstWrite seq q 0 s.core.fe.sq0 with
        | none => done (s.qs fun u => { u with spush := u.spush.set q.val (u.spush[q] ++ [(h, seq)]) })
        | some w =>
          match attachPush h w q s.core.regs.fly with
          | some fly => done (s.regs fun r => { r with fly := fly })
          | none => if s.hatchFull h then .next s.wait else done (s.pushTok h none)

/-- HPOP (R158). -/
def execHpop (h : Fin 16) (q : Option (Fin 8)) (s : State) : Out :=
  s.aIssue [] [] fun s =>
    match q with
    | none =>
      if s.cons h != 1 then s.aTrapFree .illegalOperand
      else if s.tokAt h 0 then done (s.popTok h)
      else .next s.wait
    | some q =>
      if s.cons h != 2 then s.aTrapFree .illegalOperand
      else done (s.qs fun u => { u with lpop := u.lpop.set q.val (u.lpop[q] ++ [h]) })

/-- Every A-pipe instruction before a place in program order has retired, but for results that are still to be written: an item on its
way to its queue has not (R131). -/
def State.retiredTo (s : State) (seq : Nat) : Bool :=
  let e := s.earlier seq
  !(s.core.lsu.acc.any fun a => e a.seq) && !(s.core.lsu.heldSt.any fun h => e h.seq) &&
  !(s.core.lsu.ms.any fun w => e w.seq) && !(s.core.qs.lin.toList.any fun l => l.any fun t => e t.seq) &&
  !(s.core.qs.lq.toList.any fun l => l.any fun i => e i.id && (i.data.isNone || s.core.fe.cycle < i.arrived)) &&
  !(s.core.qs.taker.toList.any fun l => l.any fun t => match t with | .claim _ _ _ _ _ q => e q | .stream t => e t.seq)

/-- The A-pipe's pushes retire in program order; a full hatch holds them (R156, R158). -/
def State.retirePushes : Nat → State → State
  | 0, s => s
  | fuel + 1, s =>
    match s.core.fe.hpushes with
    | [] => s
    | (h, seq, from') :: rest =>
      if s.retiredTo seq && from' ≤ s.core.fe.cycle && !s.hatchFull h then
        State.retirePushes fuel ((s.fe fun f => { f with hpushes := rest }).pushTok h none).progress
      else s

/-! ### Completion counters (R160) -/

/-- The entry and those of the instances that contain it (R21). -/
def chainOf (p : Package) : Nat → Nat → List Nat
  | 0, _ => []
  | fuel + 1, k =>
    k :: match (p.counter k).parent with
      | some up => chainOf p fuel up
      | none => []

/-- What a WAIT finds. -/
inductive WaitSees where
  | word (w : Word)
  | wait
  | bad
  deriving DecidableEq, Repr

/-- WAIT on a reference (R160): `fin` says that it is FIN, `ready` whether the counter lets it end. -/
def State.waitSees (s : State) (ref : Word) (fin : Bool) (ready : Counter → Bool) : WaitSees :=
  let k := wfld ref 0 12
  let c := s.pkg.counter k
  if wfld ref 24 40 != 0 then .bad
  else if c.gen % 4096 != wfld ref 12 12 then .word retiredWord
  else if !c.live then (if s.core.fe.waitOn == some ref then .word c.word else .word retiredWord)
  else if c.job != (s.pkg.counter s.uctr).job then .bad
  else if fin && (chainOf s.pkg 5 s.uctr).contains k then .bad
  else if ready c then .word c.word
  else .wait

/-- The three modes. A wait that has begun returns the final word even though the entry is released with it (R160). -/
def State.waitOp (s : State) (d : GReg) (ref : Word) (fin : Bool) (ready : Counter → Bool) : Out :=
  match s.waitSees ref fin ready with
  | .bad => s.aTrapFree .illegalOperand
  | .wait => .next ((s.fe fun f => { f with waitOn := some ref }).wait)
  | .word w => done ((s.fe fun f => { f with waitOn := none }).setLate d w 1)

def execWaitRd (d a : GReg) (s : State) : Out :=
  s.aIssue [a] [d] fun s => s.waitOp d (s.g a) false fun _ => true
def execWaitFin (d a : GReg) (s : State) : Out :=
  s.aIssue [a] [d] fun s => s.waitOp d (s.g a) true fun c => stFinal c.state
def execWaitLe (d a b : GReg) (s : State) : Out :=
  s.aIssue [a, b] [d] fun s =>
    s.waitOp d (s.g a) false fun c => c.outstanding ≤ (s.g b).toNat || stFinal c.state

end Sys2Proof.Machine
end

