-- ==== Sys2Proof/Machine/System.lean ====
section
/-! DEFINITION. System instructions, layer programs and the words that govern others: majors 0x15 to 0x17 (R69 to R74, R116 to
R129, R370). -/

namespace Sys2Proof.Machine

/-- Dispatch stops behind these words until the A-pipe issues them: jumps that it resolves (R113), the words that direct a layer
program (R118, R119), a serialising write (R49, R128), and the ends of a stream (R36, R370). -/
def blocks : Instr → Bool
  | .br c _ _ _ => c != .always
  | .jr _ _ | .callr _ _ _ | .layer _ _ | .mbr _ _ _ _ | .mloop _ _ | .mbnd _ | .done | .eret | .wrsr _ _ => true
  | _ => false

/-- Dispatch goes on behind the current word, in the next cycle. -/
def State.unblock (s : State) : State := s.fe fun f => { f with block := false, slot := 2 }

/-! ### Prefixes (R69, R73, R74) -/

/-- XIMM: the value is held for the word that it governs. -/
def execXimm (v : BitVec 50) (s : State) : Out := .next (s.fe fun f => { f with cur := { f.cur with ximm := some v } })

/-- STAMP: the cycle is held for the word that it governs. -/
def execStamp (t : BitVec 32) (s : State) : Out := .next (s.fe fun f => { f with cur := { f.cur with stamp := some t } })

/-! ### System registers (R125, R129) -/

/-- The number of a system register, as a class and an index. -/
inductive SReg where
  | bankFmt (b : Nat) | rmode | fpFlags | frame | timingLate | timingCtl | timingPad (n : Fin 16) | loopState
  | mloopStk (n : Fin 4) | trapCause | trapPc | trapOpc | trapMpc | trapUpc | trapCpc | trapFoot (n : Fin 4) | trapQpos
  | trapInfo | trapVec
  deriving DecidableEq, Repr

/-- R129; every other number is unassigned. -/
def sregOf (n : Nat) : Option SReg :=
  if n < 0x100 then some (.bankFmt n)
  else if 0x110 ≤ n && n < 0x120 then some (.timingPad (Fin.ofNat 16 (n - 0x110)))
  else if 0x124 ≤ n && n < 0x128 then some (.mloopStk (Fin.ofNat 4 (n - 0x124)))
  else if 0x136 ≤ n && n < 0x13A then some (.trapFoot (Fin.ofNat 4 (n - 0x136)))
  else match n with
    | 0x100 => some .rmode | 0x101 => some .fpFlags | 0x102 => some .frame | 0x103 => some .timingLate
    | 0x104 => some .timingCtl | 0x120 => some .loopState | 0x130 => some .trapCause | 0x131 => some .trapPc
    | 0x132 => some .trapOpc | 0x133 => some .trapMpc | 0x134 => some .trapUpc | 0x135 => some .trapCpc
    | 0x13A => some .trapQpos | 0x13B => some .trapInfo | 0x13C => some .trapVec | _ => none

/-- The value of a system register. -/
def Sys.get (y : Sys) : SReg → Word
  | .bankFmt b => look 13 y.bankFmt b
  | .rmode => y.rmode | .fpFlags => y.fpFlags | .frame => y.frame | .timingLate => y.timingLate | .timingCtl => y.timingCtl
  | .timingPad n => y.timingPad[n] | .loopState => y.loopState | .mloopStk n => y.mloopStk[n]
  | .trapCause => y.trapCause | .trapPc => y.trapPc | .trapOpc => y.trapOpc | .trapMpc => y.trapMpc | .trapUpc => y.trapUpc
  | .trapCpc => y.trapCpc | .trapFoot n => y.trapFoot[n] | .trapQpos => y.trapQpos | .trapInfo => y.trapInfo
  | .trapVec => y.trapVec

/-- What a read of a system register gives. The loop stack counts down when the word at a body's end retires; dispatch has already
counted for the words that wait, so a read sees the stack as it stood at its own dispatch (R119). -/
def State.sysRead (s : State) (r : SReg) : Word :=
  match r with
  | .mloopStk n => if s.core.fe.cur.upc.isSome then s.core.fe.cur.stk[n] else s.core.sys.mloopStk[n]
  | r => s.core.sys.get r

/-- The RSVD bits of a system register (R37, R49, R55, R85, R120, R125, R169). -/
def SReg.rsvd : SReg → Word
  | .bankFmt _ => ~~~ 0x10F
  | .rmode => ~~~ 0x7
  | .fpFlags => ~~~ 0x1F
  | .timingCtl => ~~~ 0x1
  | .timingPad _ => ~~~ 0xFFFFF
  | .loopState => 0xFF00000000
  | .mloopStk _ => 0x7C00000000000000
  | .trapCause => ~~~ 0x707800000FF
  | .trapUpc => ~~~ 0x1FFF
  | .trapQpos => ~~~ 0xFFFFFFFFFF
  | .trapVec => 0x6
  | _ => 0

/-- The registers that WRSR reaches in handler mode only (R125, R169). -/
def SReg.handlerOnly : SReg → Bool
  | .loopState | .trapCause | .trapPc | .trapOpc | .trapMpc | .trapUpc | .trapCpc | .trapFoot _ | .trapQpos | .trapInfo
  | .trapVec => true
  | _ => false

/-- A write of a system register by its access codes: RO fields ignore it, FP.FLAGS clears (R8). -/
def Sys.put (y : Sys) (x : Word) : SReg → Sys
  | .bankFmt b => { y with bankFmt := if x = 13 then del y.bankFmt b else Machine.put y.bankFmt b x }
  | .rmode => { y with rmode := x }
  | .fpFlags => { y with fpFlags := clearFlags y.fpFlags x }
  | .loopState => { y with loopState := x }
  | .trapCause => { y with trapCause := x }
  | .trapPc => { y with trapPc := x }
  | .trapOpc => { y with trapOpc := x }
  | .trapMpc => { y with trapMpc := x }
  | .trapUpc => { y with trapUpc := x }
  | .trapVec => { y with trapVec := x }
  | _ => y

/-- A write is turned away: a RSVD bit (R9), a register of handler mode, a mode that RMODE does not hold (R49). -/
def State.srBad (s : State) (r : SReg) (x : Word) : Bool :=
  (r.handlerOnly && !s.core.fe.handler) || x &&& r.rsvd != 0 || (r == .rmode && 6 ≤ wfld x 0 3)

/-- The X-cycle up to which a read of FP.FLAGS waits: that in which the last result in flight at its first attempt lands. -/
def State.flagMark (s : State) : Nat :=
  match s.core.fe.mark with
  | some m => m
  | none => s.core.regs.fly.foldl (fun m r => max m r.due) 0

/-- RDSR (R55, R128). -/
def execRdsr (d : GReg) (n : BitVec 16) (s : State) : Out :=
  s.aIssue [] [d] fun s =>
    match sregOf n.toNat with
    | none => s.aTrapFree .illegalOperand
    | some r =>
      if r == .fpFlags && s.core.fe.xnow < s.flagMark then .next ((s.fe fun f => { f with mark := some s.flagMark }).wait)
      else done ((s.fe fun f => { f with mark := none }).setLate d (s.sysRead r) 1)

/-- A write of BANK.FMT[b] waits at the range checker as a write of bank b (R211). -/
def State.fmtBlocked (s : State) : SReg → Bool
  | .bankFmt b => s.spBlocked (b * 2 ^ 14) (2 ^ 14) true s.core.fe.cur.seq
  | _ => false

/-- WRSR (R49, R128): it is serialising, so both pipes have issued every earlier instruction. -/
def execWrsr (a : GReg) (n : BitVec 16) (s : State) : Out :=
  s.aIssue [a] [] fun s =>
    if !s.core.fe.xq.isEmpty || s.core.fe.kernel.isSome then .next s.wait
    else
      match sregOf n.toNat with
      | none => s.aTrapFree .illegalOperand
      | some r =>
        let x := s.g a
        if s.srBad r x then s.aTrapFree .illegalOperand
        else if s.fmtBlocked r then .next s.wait
        else done ((s.sys fun y => y.put x r).unblock)

/-- ICINV (R128). -/
def execIcinv (a : GReg) (i : BitVec 32) (s : State) : Out :=
  s.aIssue [a] [] fun s =>
    let line := (s.g a + s.imm i).toNat / 64
    done (s.fe fun f => { f with icache := f.icache.filter fun l => l.1 % 2 ^ 50 != line % 2 ^ 50 })

/-- TRAP (R128): SOFTWARE, with imm32 in TRAP.INFO. -/
def execTrap (code : BitVec 32) (s : State) : Out :=
  s.aIssue [] [] fun s => s.aTrap .software (code.setWidth 64)

/-! ### The end of a stream (R36, R128) -/

/-- The engine queues whose notify has not been reached: those that still hold commands (R25, R36). -/
def Eng.waitingQueues (e : Eng) : Nat := (e.q.toList.filter fun l => !l.isEmpty).length

/-- While a unit ends, its counter's OUTSTANDING is the number of its queues that have not reached their notify (R25). -/
def State.syncCounter (s : State) : State :=
  if s.core.fe.unit == .ending then
    s.pkgd fun p => p.setCounter s.uctr { p.counter s.uctr with outstanding := s.core.eng.waitingQueues }
  else s

/-- A command with DISCARD = 1 retires unexecuted, its push still to be made (R128). -/
def discardHeld (e : EngCause) (l : List EngCmd) : List EngCmd :=
  l.map fun c => if c.seq == e.seq then { c with st := .done, popped := true, out := [] } else c

def State.discard (s : State) (e : EngCause) : State :=
  s.eng fun g => { g with q := g.q.set e.queue.val (discardHeld e g.q[e.queue]) }

/-- The replay registers land again: REMAIN 1 at the start of the next X-cycle (R165). -/
def State.replay (s : State) : State :=
  let now := s.core.fe.xnow
  (s.regs fun r => { r with fly := sortFly (r.fly ++ r.rpl.map fun x => { x with due := x.due + now }), rpl := [] }).fe
    fun f => { f with xdone := true }

/-- The handler's DONE ends handler mode: the held command is discarded, held causes and the words kept for ERET are dropped,
results set aside by the trap land, and queue stores whose item can no longer come take none (R36, R128). That the command of a cause
that was held and never taken is discarded too, and does not run again, is the model's choice (notes/assumptions/101.md). -/
def State.leaveByDone (s : State) : State :=
  let held := s.core.fe.resume.bind (·.held)
  let s := match held with | some e => s.discard e | none => s
  let s := s.core.fe.causes.foldl State.discard s
  let seq0 := (s.core.fe.resume.map (·.seq0)).getD 0
  let lost (t : SqTaker) : Bool := match t with | .claim _ _ _ _ _ q => q < seq0 | .stream _ => false
  let sends := (s.core.regs.rpl ++ s.core.regs.fly).filterMap fun r => match r.dst with | .sq q => some q | _ => none
  let s := s.qs fun u => { u with taker := vmap (fun q l =>
    let keep := (u.sq[q]).length + (sends.filter (· == q)).length
    l.take keep ++ (l.drop keep).filter fun t => !lost t) u.taker }
  (s.replay).fe fun f => { f with handler := false, resume := none, causes := [], mac := none }

/-- DONE (R36, R128). -/
def execDone (s : State) : Out :=
  s.aIssue [] [] fun s =>
    if s.core.fe.handler && !s.core.eng.side.isEmpty then .next s.wait
    else
      let s := if s.core.fe.handler then s.leaveByDone else s
      done ((s.fe fun f => { f with unit := .ending, block := true }).syncCounter)

/-! ### ERET (R128, R165, R169, R370) -/

/-- LOOP.STATE fits a LOOP header (R370). -/
def loopFits (st : Word) : Instr → Bool
  | .loop _ s1 k1 =>
    wbit st 63 && wfld st 54 6 == k1.val && wfld st 60 3 == s1.val && wfld st 43 6 ≤ k1.val && wfld st 40 3 ≤ s1.val &&
      1 ≤ wfld st 0 32
  | _ => false

/-- Words at the head of the X-pipe's queue that a skip covers are dropped; whether the skip has ended (R370). -/
def skipHead (lo hi : Nat) : List Slot → List Slot × Bool
  | [] => ([], false)
  | c :: cs => if lo ≤ c.pc.toNat && c.pc.toNat < hi then skipHead lo hi cs else (c :: cs, true)

/-- The same of the A-pipe's queue, up to a transfer of control that was resolved at its dispatch: what was dispatched behind that does
not belong to the straight line, which goes on behind the word that is not issued. -/
def skipHeadA (lo hi : Nat) : List Slot → List Slot × Bool × Option Slot
  | [] => ([], false, none)
  | c :: cs =>
    if lo ≤ c.pc.toNat && c.pc.toNat < hi then (if c.redirected then ([], false, some c) else skipHeadA lo hi cs)
    else (c :: cs, true, none)

/-- The header that a kernel re-entry resumes: the active kernel's, or a LOOP at the head of the X-pipe's queue. -/
def Resume.header (r : Resume) (pcX : Word) : Option Slot :=
  match r.kernel with
  | some k => if k.pc == pcX then some k else none
  | none => match r.xq with
    | c :: _ => if c.pc == pcX then some c else none
    | [] => none

/-- The slot of a LAYER that runs, told from TRAP.MPC where the sequencer no longer holds it. -/
def Resume.layerSlot (r : Resume) (mpc : Word) : Slot :=
  match r.utop with
  | some u => u.1
  | none => { Slot.idle with instr := .layer 0 0, pc := mpc, next := mpc + 8 }

def notMicro (c : Slot) : Bool := c.upc.isNone

/-- What ERET resumes: the recorded and the written resumption PCs of the two pipes, MPC, UPC, and the bits of TRAP.CAUSE. -/
structure EretView where
  recA : Word
  recX : Word
  newA : Word
  newX : Word
  mpc : Word
  upc : Nat
  inmac : Bool
  inloop : Bool

def State.eretView (s : State) (r : Resume) : EretView :=
  let y := s.core.sys
  let x := r.pipe == 2
  ⟨if x then r.opc else r.pc, if x then r.pc else r.opc, if x then y.trapOpc else y.trapPc, if x then y.trapPc else y.trapOpc,
    y.trapMpc, wfld y.trapUpc 0 13, wbit y.trapCause 33, wbit y.trapCause 31⟩

def EretView.redirect (v : EretView) : Bool := v.newA == v.newX && (v.newA != v.recA || v.newX != v.recX)

/-- The checks of R370 fail. -/
def State.eretBad (s : State) (r : Resume) (v : EretView) : Bool :=
  let fits := match r.header v.newX with
    | some k => loopFits s.core.sys.loopState k.instr
    | none => false
  if v.redirect then v.inmac || v.inloop
  else v.newA.toNat < v.recA.toNat || v.newX.toNat < v.recX.toNat || (v.newX != v.recX && v.inloop) ||
    (v.newA != v.recA && v.inmac) || (v.inloop && !fits)

/-- Resume by a redirect: every dispatched word is discarded, and fetch restarts at the target (R370). -/
def State.eretRedirect (s : State) (t : Word) : State :=
  let s := s.sys fun y => { y with mloopStk := Vector.replicate 4 0, loopState := setFld y.loopState 63 1 0 }
  s.fe fun f => { f with aq := [], xq := [], kernel := none, mac := none, pc := t, skip := [], block := false }

/-- The macro goes on as it stood, at another UPC that has been written, or is abandoned at its LAYER (R370). -/
def State.eretMacro (s : State) (r : Resume) (v : EretView) : State :=
  if v.inmac then
    if r.upc == some v.upc then
      (s.sys fun y => { y with mloopStk := r.stk }).fe fun f =>
        { f with aq := r.aq, xq := r.xq, mac := r.utop.map fun m => ⟨m.1, m.2⟩, pc := r.fetch }
    else
      s.fe fun f => { f with aq := r.aq.filter notMicro, xq := r.xq.filter notMicro,
                             mac := some ⟨r.layerSlot v.mpc, v.upc⟩, pc := r.fetch }
  else if r.upc.isSome then
    let s := s.sys fun y => { y with mloopStk := Vector.replicate 4 0 }
    s.fe fun f => { f with aq := r.aq.filter notMicro, xq := r.xq.filter notMicro, mac := none,
                           pc := match r.utop with | some m => m.1.pc | none => r.fetch }
  else
    (s.sys fun y => { y with mloopStk := r.stk }).fe fun f =>
      { f with aq := r.aq, xq := r.xq, mac := r.utop.map fun m => ⟨m.1, m.2⟩, pc := r.fetch }

/-- The kernel is entered again from LOOP.STATE, or is abandoned at its header (R169, R370). -/
def State.eretLoop (s : State) (r : Resume) (v : EretView) : State :=
  if v.inloop then
    let xq := match r.kernel with | some _ => s.core.fe.xq | none => s.core.fe.xq.drop 1
    s.loadStages.fe fun f => { f with kernel := r.header v.newX, xq := xq }
  else
    match r.kernel with
    | some k =>
      (s.sys fun y => { y with loopState := setFld y.loopState 63 1 0 }).fe fun f => { f with xq := k :: f.xq, kernel := none }
    | none => s.fe fun f => { f with kernel := none }

/-- The A-pipe skips (R370). A branch or call that is skipped has not been taken: the words behind it are fetched anew from the straight
line. A skip that covers the LAYER of a macro that runs leaves the macro (notes/assumptions/102.md). -/
def State.eretSkipA (s : State) (lo hi : Nat) : State :=
  let (aq, ended, cut) := skipHeadA lo hi s.core.fe.aq
  let s := s.fe fun f => { f with aq := aq, skip := if ended then f.skip else ⟨false, lo, hi⟩ :: f.skip }
  let s := match cut with
    | some c => s.fe fun f => { f with xq := f.xq.filter fun x => x.seq < c.seq, pc := c.next }
    | none => s
  match s.core.fe.mac with
  | some m =>
    if lo ≤ m.layer.pc.toNat && m.layer.pc.toNat < hi then
      (s.sys fun y => { y with mloopStk := Vector.replicate 4 0 }).fe fun f => { f with mac := none, pc := m.layer.next }
    else s
  | none => s

/-- The X-pipe skips (R370). -/
def State.eretSkipX (s : State) (lo hi : Nat) : State :=
  let (xq, ended) := skipHead lo hi s.core.fe.xq
  s.fe fun f => { f with xq := xq, skip := if ended then f.skip else ⟨true, lo, hi⟩ :: f.skip }

/-- The skips of R370. -/
def State.eretSkip (s : State) (v : EretView) : State :=
  let s := if v.newA == v.recA then s else s.eretSkipA v.recA.toNat v.newA.toNat
  if v.newX == v.recX then s else s.eretSkipX v.recX.toNat v.newX.toNat

/-- A new place in program order for what a handler has left behind. -/
def Queues.retag (g : Nat → Nat) (u : Queues) : Queues :=
  { u with
    lq := vmap (fun _ l => l.map fun i => { i with id := g i.id }) u.lq
    lin := vmap (fun _ l => l.map fun t => { t with seq := g t.seq }) u.lin
    taker := vmap (fun _ l => l.map fun t => match t with
      | .claim a b n k m q => .claim a b n k m (g q)
      | .stream t => .stream { t with seq := g t.seq }) u.taker
    spush := vmap (fun _ l => l.map fun p => (p.1, g p.2)) u.spush }

def AccKind.retag (g : Nat → Nat) : AccKind → AccKind
  | .ldq q id n => .ldq q (g id) n
  | k => k

def Lsu.retag (g : Nat → Nat) (own : PorchEntry → Bool) (l : Lsu) : Lsu :=
  { l with
    acc := l.acc.map fun a => { a with kind := a.kind.retag g, seq := g a.seq }
    heldSt := l.heldSt.map fun a => { a with seq := g a.seq }
    ms := l.ms.map fun a => { a with seq := g a.seq }
    porch := l.porch.map fun e => if own e then { e with cells := e.cells.map fun c => (c.1, { c.2 with seq := g c.2.seq }) } else e }

/-- The places of a handler's accesses after its ERET: in their own order, between the last word that the unit's A-pipe has issued and
the next that it issues (R20, R126). -/
def handlerPlace (seq0 : Nat) (next : Option Slot) (q : Nat) : Nat :=
  match next with
  | some c => if seq0 ≤ q then c.seq - seqStep + q / seqStep else q
  | none => q

/-- What the handler's own instructions have left in flight comes before everything that the resumed A-pipe issues (R20); its
scale-queue entries come before every command of the resumed stream (R262). -/
def State.afterHandler (s : State) (seq0 : Nat) : State :=
  let g := handlerPlace seq0 s.core.fe.aq.head?
  let s := s.lsu (Lsu.retag g s.ownEntry)
  let s := s.qs fun u => { u.retag g with scale := u.scale.map fun e => if seq0 ≤ e.seq then { e with seq := 0 } else e }
  let s := s.fe fun f => { f with sq0 := f.sq0.map fun p => (g p.1, p.2), hpushes := f.hpushes.map fun p => (p.1, g p.2.1, p.2.2) }
  s.eng fun e => { e with q := vmap (fun _ l => l.map fun c => { c with seq := g c.seq, handler := false }) e.q }

/-- ERET (R370). -/
def execEret (s : State) : Out :=
  s.aIssue [] [] fun s =>
    match s.core.fe.resume with
    | none => s.aTrapFree .illegalOperand
    | some r =>
      if !s.core.fe.handler then s.aTrapFree .illegalOperand
      else if !s.core.eng.side.isEmpty || !s.core.fe.xq.isEmpty || s.core.fe.kernel.isSome || !s.core.regs.fly.isEmpty then
        .next s.wait
      else
        let v := s.eretView r
        if s.eretBad r v then s.aTrapFree .illegalOperand
        else
          let s := match r.held with
            | some e => if wbit s.core.sys.trapCause 34 then s.discard e else s
            | none => s
          let s := if v.redirect then s.eretRedirect v.newA else ((s.eretMacro r v).eretLoop r v).eretSkip v
          let s := s.afterHandler r.seq0
          let s := s.replay
          done (s.fe fun f => { f with handler := false, resume := none, hold := 0, slot := 0, part := 0, block := f.aq.any fun c => blocks c.instr })

/-! ### Layer programs (R114 to R120) -/

/-- The fields of a directory word (R114). -/
def dirOk (w : Word) (kind : Nat) : Bool := wbit w 63 && wfld w 61 2 == kind && 128 ≤ wfld w 0 13

/-- LAYER (R118). -/
def execLayer (kind : Fin 4) (entry : Fin 128) (s : State) : Out :=
  s.aIssue [] [] fun s =>
    let w := look 0 s.core.fe.cstore entry.val
    if dirOk w kind.val then
      let s := s.sys fun y => { y with mloopStk := Vector.replicate 4 0 }
      done (s.fe fun f => { f with mac := some ⟨f.cur, wfld w 0 13⟩, block := false })
    else s.aTrapFree .illegalOperand

/-- The word of a micro loop (R120). -/
def mloopWord (start fin remain : Nat) : Word := BitVec.ofNat 64 (2 ^ 63 + start * 2 ^ 45 + fin * 2 ^ 32 + remain)

/-- The active micro loops, the innermost first, each with its index. -/
def activeLoops (stk : Vector Word 4) : List (Nat × Word) :=
  ((stk.toList.zip (List.range 4)).filterMap fun p => if wbit p.1 63 then some (p.2, p.1) else none).reverse

/-- After a micro-word at address e retires, with `next` to follow: the loops that end there count down (R119). -/
def loopEnd (e : Nat) : List (Nat × Word) → Vector Word 4 → Nat → Nat × Vector Word 4
  | [], stk, next => (next, stk)
  | (i, w) :: rest, stk, next =>
    if wfld w 32 13 != e then (next, stk)
    else
      let n := wfld w 0 32 - 1
      if n != 0 then (wfld w 45 13, vmap (fun j x => if j.val = i then mloopWord (wfld w 45 13) e n else x) stk)
      else loopEnd e rest (vmap (fun j x => if j.val = i then 0 else x) stk) next

/-- Micro-fetch goes on at an address after the word at `e` has retired. -/
def State.microNext (s : State) (e next : Nat) : State :=
  let stk := s.core.sys.mloopStk
  let (n, stk) := loopEnd e (activeLoops stk) stk next
  (s.sys fun y => { y with mloopStk := stk }).fe fun f => { f with mac := f.mac.map fun m => { m with upc := n } }

/-- The micro-address of the current word. -/
def State.upc (s : State) : Nat := s.core.fe.cur.upc.getD 0

/-- MBR (R119). -/
def execMbr (c : Cond) (a b : GReg) (target : BitVec 13) (s : State) : Out :=
  s.aIssue [a, b] [] fun s =>
    let u := s.upc
    let t := target.toNat
    if condHolds c (s.g a) (s.g b) then
      let inBody := match activeLoops s.core.sys.mloopStk with
        | [] => true
        | (_, w) :: _ => wfld w 45 13 ≤ t && t ≤ wfld w 32 13
      if inBody && 128 ≤ t then done ((s.microNext u t).unblock) else s.aTrapFree .illegalOperand
    else done ((s.microNext u (u + 1)).unblock)

/-- MLOOP (R119). -/
def execMloop (a : GReg) (uend : BitVec 13) (s : State) : Out :=
  s.aIssue [a] [] fun s =>
    let u := s.upc
    let e := uend.toNat
    let n := s.g a
    let act := activeLoops s.core.sys.mloopStk
    let nests := match act with
      | [] => true
      | (_, w) :: _ => wfld w 45 13 ≤ u + 1 && e ≤ wfld w 32 13
    if wfld n 32 32 != 0 || e ≤ u || !nests || 4 ≤ act.length then s.aTrapFree .illegalOperand
    else if n = 0 then done ((s.fe fun f => { f with mac := f.mac.map fun m => { m with upc := e + 1 } }).unblock)
    else
      let s := s.sys fun y => { y with mloopStk := vmap (fun j x => if j.val = act.length then mloopWord (u + 1) e (wfld n 0 32) else x) y.mloopStk }
      done ((s.fe fun f => { f with mac := f.mac.map fun m => { m with upc := u + 1 } }).unblock)

/-- MBND (R117, R119). -/
def execMbnd (fin : Bool) (s : State) : Out :=
  s.aIssue [] [] fun s =>
    if fin then
      if !(activeLoops s.core.sys.mloopStk).isEmpty then s.aTrapFree .illegalOperand
      else
        let next := (s.core.fe.mac.map (·.layer.next)).getD s.core.fe.pc
        done ((s.fe fun f => { f with mac := none, pc := next, bnd := true, bndSeen := true }).unblock)
    else done (((s.microNext s.upc (s.upc + 1)).unblock).fe fun f => { f with bnd := true, bndSeen := true })

end Sys2Proof.Machine
end

