-- ==== Sys2Proof/Machine/Engine.lean ====
section
/-! DEFINITION. What the engines share: handing a command over, its start, engine causes, retirement, and the transfers of bytes
between spaces (R18, R126, R156, R203, R205 to R209, R369). -/

namespace Sys2Proof.Machine

/-! ### Handing over (R18, R156, R369) -/

/-- What the checks at issue give: footprint words, values resolved at issue, and the rounding mode. -/
structure Prep where
  ops : List Word
  foot : List Word
  fmts : List ElemTy
  rm : RM

/-- A failed check at issue: the cause, and TRAP.INFO where its rule states it. -/
abbrev Check (α : Type) := Except (Cause × Option Word) α

/-- What issue finds of a command: its footprint words, none for one that its operands do not make, and its checks. -/
structure Judged where
  foot : List (Option Word)
  check : Check Prep

/-- The words of a footprint that the operands make. -/
def someFoot (ws : List Word) : List (Option Word) := ws.map some

/-- What issue finds of a command whose footprint words its operands make; once its checks pass, every word is there. -/
def judge (ops : List Word) (foot : List (Option Word)) (fmts : List ElemTy) (rm : RM) (checks : Check Unit) : Judged :=
  ⟨foot, checks.map fun _ => ⟨ops, foot.filterMap id, fmts, rm⟩⟩

/-- One check more. -/
def Judged.and (j : Judged) (c : Check Unit) : Judged := { j with check := j.check.bind fun p => c.map fun _ => p }

/-- A scratchpad word of a range, where it lies in the scratchpad (R210). -/
def spFoot (acc lo hi : Nat) : Option Word := if hi < 2 ^ 22 then some (footSp acc lo hi) else none

def bad {α : Type} : Check α := .error (.illegalOperand, none)
def outside {α : Type} (info : Word) : Check α := .error (.bounds, some info)
def need (b : Bool) : Check Unit := if b then .ok () else bad

/-- The sizes of the engine queues (R16). -/
def queueSize (q : Fin 5) : Nat :=
  match q.val with
  | 3 => 8 | 4 => 4 | _ => 16

/-- A push or a pop whose binding does not match the queue (R156). -/
def State.hatchBad (s : State) (q : Fin 5) (hk : Hatching) : Bool :=
  (match hk.push with | some h => s.prod h != q.val + 3 | none => false) ||
  (match hk.pop with | some h => s.cons h != q.val + 3 | none => false)

/-- Footprint words with a free value for one that the operands do not make (notes/assumptions/2.md). -/
def fillFoot : List (Option Word) → State → List Word × State
  | [], s => ([], s)
  | some w :: ws, s => let (l, s) := fillFoot ws s; (w :: l, s)
  | none :: ws, s => let (w, s) := s.fresh; let (l, s) := fillFoot ws s; (w :: l, s)

/-- A fault of an engine command at issue (PIPE 1), which records the command's footprint (R125, R210). The word of a range that leaves
its memory has no encoding: a free value. -/
def State.eTrap (s : State) (c : Cause) (info : Option Word) (foot : List (Option Word)) : Out :=
  let (i, s) := match info with | some w => (w, s) | none => s.fresh
  let (ws, s) := fillFoot foot s
  s.aTrapFoot c i ws

/-- The commands of queues 0 to 2 that a handler issues run on the side path (R224, R244). -/
def State.sideOf (s : State) (q : Fin 5) : Bool := s.core.fe.handler && q.val < 3

/-- The queue, or the side path, has room. -/
def State.engRoom (s : State) (q : Fin 5) : Bool := s.sideOf q || (s.core.eng.q[q]).length < queueSize q

/-- The command record that issue hands over (R18). -/
def State.mkCmd (s : State) (i : Instr) (hk : Hatching) (p : Prep) (follow : Bool) : EngCmd :=
  let c := s.core.fe.cur
  { seq := c.seq, pc := c.pc, instr := i, ops := p.ops, rm := p.rm, fmts := p.fmts, foot := p.foot, push := hk.push, pop := hk.pop,
    cycle := s.core.fe.cycle, handler := s.core.fe.handler, popped := hk.pop.isNone, follow := follow, st := .waiting, latched := false, out := [] }

/-- The dispatcher appends a command to its queue (R18); `vault` says that it uses the unit's vault (R327). -/
def State.handOver (s : State) (q : Fin 5) (c : EngCmd) (vault : Bool) : State :=
  let s := if vault then s.withCore { s.core with vuse := true } else s
  s.eng fun e => if s.sideOf q then { e with side := e.side ++ [c] } else { e with q := e.q.set q.val (e.q[q] ++ [c]) }

/-- Issue of an engine command to a queue: the checks of its entry come before those of its hatches (R369). It waits for room; a
handler's command that fails its checks traps also where its queue is full, which may stand still till ERET (R283). -/
def State.issueCmd (s : State) (q : Fin 5) (i : Instr) (hk : Hatching) (vault : EngCmd → Bool) (judge : State → Judged) : Out :=
  let full := !s.engRoom q
  if full && !s.core.fe.handler then .next s.wait
  else
    let j := judge s
    match j.check with
    | .error (c, info) => s.eTrap c info j.foot
    | .ok p =>
      if s.hatchBad q hk then s.eTrap .illegalOperand none (someFoot p.foot)
      else if full then .next s.wait
      else let c := s.mkCmd i hk p false; done (s.handOver q c (vault c))

/-! ### Start and causes (R126, R203, R212) -/

/-- Replace the command of a place in program order. -/
def setCmd (q : Fin 5) (c : EngCmd) (e : Eng) : Eng :=
  if c.handler && q.val < 3 then { e with side := e.side.map fun x => if x.seq == c.seq && x.instr == c.instr then c else x }
  else { e with q := e.q.set q.val ((e.q[q]).map fun x => if x.seq == c.seq then c else x) }

def State.setCmd (s : State) (q : Fin 5) (c : EngCmd) : State := s.eng (Machine.setCmd q c)

/-- A queue whose head command a cause holds (R126). -/
def State.queueHeld (s : State) (q : Fin 5) : Bool :=
  s.core.fe.causes.any (·.queue == q) || (match s.core.fe.resume.bind (·.held) with | some e => e.queue == q | none => false)

/-- Units whose engines move: the whole unit is neither suspended nor being switched (R34, R90); what a stopped or a saved unit has
started still lands (R29, R323, R329). -/
def State.engActive (s : State) : Bool :=
  s.core.fe.unit == .running || s.core.fe.unit == .ending || s.core.fe.unit == .ended || s.core.fe.settling

/-- The range checker lets a command start (R212). -/
def State.edgesMet (s : State) (c : EngCmd) : Bool :=
  !s.cmdConflict c.foot c.seq &&
  c.foot.all fun w =>
    wfld w 62 2 != 1 || !s.pipeConflictBy (s.beforeStart c.seq) (wfld w 0 22) (wfld w 22 22 + 1 - wfld w 0 22) (2 ≤ wfld w 60 2)

/-- The hatch pop of a command can be taken, or has been (R156). -/
def State.popReady (s : State) (c : EngCmd) : Bool :=
  c.popped || match c.pop with | some h => s.tokAt h 0 | none => true

/-- The pop is taken before the command starts (R156). -/
def State.takePop (s : State) (c : EngCmd) : State :=
  if c.popped then s else match c.pop with | some h => s.popTok h | none => s

/-- An engine cause: it is held for the pipes, or, raised by a command of the handler, ends the unit with DOUBLE_TRAP (R126). Of a
unit that a cancel has stopped the command only stops (R29). -/
def State.raiseCause (s : State) (q : Fin 5) (c : EngCmd) (cause : Cause) (info : Word) : State :=
  if s.core.fe.unit == .ended then s.setCmd q { c with st := .done, out := [] }
  else if c.handler && s.core.fe.handler then
    let s := s.sys fun y => { y with trapCause := setFld y.trapCause 0 8 Cause.doubleTrap.code }
    (s.bb (.trap .doubleTrap)).endUnit stFaulted false
  else
    (s.setCmd q { c with st := .waiting, popped := true, out := [] }).fe fun f =>
      { f with causes := f.causes ++ [⟨q, cause, info, c.pc, c.foot, c.seq⟩] }

/-- A started command that goes no further: of a unit that has ended it is over, of one that a machine check has stopped it counts as not
started, and is discarded with the core's state (R29, R329). -/
def State.stopCmd (s : State) (q : Fin 5) (c : EngCmd) : State :=
  s.setCmd q (if s.core.fe.unit == .ended then { c with st := .done, out := [] } else { c with st := .waiting })

/-- A failed walk of a started command: the unit is suspended (R90); of a unit that a cancel or a machine check has stopped the command
stops (R29, R329). -/
def State.engFault (s : State) (q : Fin 5) (c : EngCmd) (spc : Space) (va : Nat) (f : WalkFail) : State :=
  if s.core.fe.stopped then s.stopCmd q c
  else
    let t := s.boundary (3 + q.val) .pageFault 0
    (s.setCmd q c).pageFaultAt { t with paired := false, cpc := c.pc, foot := c.foot } spc va f

/-- A started command meets a device that cannot be reached: a machine check; of a unit that has ended it only stops (R29, R359). -/
def State.engCut (s : State) (q : Fin 5) (c : EngCmd) (fab : Nat) : State :=
  (s.stopCmd q c).machineStop (some fab) (3 + q.val)

/-- The words that a command reads, by level, address and length: one that cannot be corrected is met, those that can be are corrected
and logged (R223, R228). -/
def State.dataCheck (s : State) (rs : List (Nat × Nat × Nat)) : Except Poison State :=
  let f (p : Poison) : Bool := rs.any fun r => s.marked r.1 r.2.1 r.2.2 p
  match s.pkg.poison.find? f with
  | some p => .error p
  | none => .ok (s.correct f)

/-- The storage of an engine's queue as a word of level 5 (R228, R268; notes/assumptions/107.md). -/
def queueWord (q : Fin 5) : Nat × Nat × Nat := (5, 8 * q.val, 8)

/-- A command meets uncorrectable data: the unit stops for a machine check, and the command writes nothing from it; of a unit that a
cancel has stopped the command only stops (R29, R228). -/
def State.meetData (s : State) (q : Fin 5) (c : EngCmd) (p : Poison) : State :=
  (s.stopCmd q c).meetPoison (3 + q.val) (· == p)

/-- The access class of a queue's commands (R38). -/
def engClass (q : Fin 5) : Nat := if q.val < 2 then 7 else 6 + q.val

/-- TIMING.LATE counts one late arrival (R40). -/
def State.countLate (s : State) : State :=
  s.sys fun y => { y with timingLate := if y.timingLate == BitVec.allOnes 64 then y.timingLate else y.timingLate + 1 }

/-- The token of a retired command, with its ready time in Strict mode (R40). A token is no item: TIMING.LATE counts items only
(notes/assumptions/12.md). -/
def State.pushCmd (s : State) (q : Fin 5) (c : EngCmd) : State :=
  match c.push with
  | none => s
  | some h =>
    s.pushTok h (if s.strict then some (c.cycle + s.pad (engClass q)) else none)

/-- The head of a queue has completed and its push finds room: it retires (R156, R203, R229, R282). -/
def State.retireHead (s : State) (q : Fin 5) : Option State :=
  match s.core.eng.q[q] with
  | c :: rest =>
    if c.st == .done && (match c.push with | some h => !s.hatchFull h | none => true) then
      let s := s.eng fun e => { e with q := e.q.set q.val rest }
      some ((s.pushCmd q c).syncCounter).progress
    else none
  | [] => none

/-! ### Boxes (R206, R207, R209) -/

/-- A side of a transfer: its runs begin at base + i1·t1 + i2·t2 + i3·t3. -/
structure Side where
  spc : Space
  base : Int
  len : Nat
  c1 : Nat
  c2 : Nat
  c3 : Nat
  t1 : Int
  t2 : Int
  t3 : Int
  deriving Repr

def Side.runs (d : Side) : Nat := (d.c1 + 1) * (d.c2 + 1) * (d.c3 + 1)

/-- The start of run k in transfer order (R209). -/
def Side.runAt (d : Side) (k : Nat) : Int :=
  let i1 := k % (d.c1 + 1)
  let i2 := k / (d.c1 + 1) % (d.c2 + 1)
  let i3 := k / (d.c1 + 1) / (d.c2 + 1)
  d.base + i1 * d.t1 + i2 * d.t2 + i3 * d.t3

/-- Does one of the next n runs, from k on, start at an address with f? -/
def anyRun (d : Side) (f : Int → Bool) : Nat → Nat → Bool
  | 0, _ => false
  | n + 1, k => f (d.runAt k) || anyRun d f n (k + 1)

/-- Hull (R209): the least byte and the greatest. -/
def Side.hull (d : Side) : Int × Int :=
  let lo (c : Nat) (t : Int) : Int := min 0 (c * t)
  let hi (c : Nat) (t : Int) : Int := max 0 (c * t)
  (d.base + lo d.c1 d.t1 + lo d.c2 d.t2 + lo d.c3 d.t3, d.base + d.len - 1 + hi d.c1 d.t1 + hi d.c2 d.t2 + hi d.c3 d.t3)

/-- The first byte of a run outside the window. -/
def State.runOut (s : State) (spc : Space) (a : Int) (n : Nat) : Option Word :=
  if a < 0 then some (word a) else (s.firstOut spc a.toNat n).map (BitVec.ofNat 64)

/-- The first byte of n runs from k on outside the window, in transfer order (R205). -/
def State.runsOut (s : State) (d : Side) : Nat → Nat → Option Word
  | 0, _ => none
  | n + 1, k =>
    match s.runOut d.spc (d.runAt k) d.len with
    | some w => some w
    | none => State.runsOut s d n (k + 1)

/-- The bounds check of a side (R205). -/
def State.sideCheck (s : State) (d : Side) : Check Unit :=
  if s.spanIn d.spc d.hull.1 (d.hull.2 + 1) then .ok ()
  else match s.runsOut d d.runs 0 with
    | some w => outside w
    | none => .ok ()

/-- The footprint word of a side (R211). -/
def Side.foot (d : Side) (acc : Nat) : List Word := if d.spc == .sp then [footSp acc d.hull.1.toNat d.hull.2.toNat] else []

/-- The footprint word of a side that may leave the scratchpad; then it is none. -/
def Side.footAt (d : Side) (acc : Nat) : List (Option Word) :=
  if d.spc == .sp then
    [if 0 ≤ d.hull.1 && d.hull.2 < 2 ^ 22 then some (footSp acc d.hull.1.toNat d.hull.2.toNat) else none]
  else []

/-- A run of a side lies in the unit's own vault (R327). -/
def State.sideVault (s : State) (d : Side) : Bool :=
  d.spc == .at || (d.spc == .ra && anyRun d (fun a => s.cores[fld a.toNat 32 8]? == some s.core.idx) d.runs 0)

/-- The banks that hold a byte of the runs k to k + n − 1. -/
def sideBanks (d : Side) : Nat → Nat → List Nat
  | 0, _ => []
  | n + 1, k =>
    let a := (d.runAt k).toNat
    (List.range ((a + d.len - 1) / 2 ^ 14 - a / 2 ^ 14 + 1)).map (a / 2 ^ 14 + ·) ++ sideBanks d n (k + 1)

/-- Every bank of a side has one TYPE (R213). -/
def State.oneType (s : State) (d : Side) (t : ElemTy) : Bool := (sideBanks d d.runs 0).all fun b => s.bankTy b == t

/-! ### Bytes of an engine (R204, R205) -/

/-- Why a transfer stops: a page under write-block, a device that cannot be reached, poisoned data, a failed walk, or an engine
cause. -/
inductive Halt where
  | blocked
  | cut (fab : Nat)
  | poison (p : Poison)
  | fault (spc : Space) (va : Nat) (f : WalkFail)
  | cause (c : Cause) (info : Word)
  deriving DecidableEq, Repr

/-- Bytes that an engine reads: no Porch entry is seen (R204); a word that cannot be corrected stops it, one that can is logged
(R223, R228). -/
def State.engRead (s : State) (spc : Space) (a n : Nat) : Except Halt (List Byte × State) :=
  if spc == .sp then
    match s.pkg.poison.find? (s.marked 0 a n) with
    | some p => .error (.poison p)
    | none => .ok (s.core.mems.sp.bytes a n, s.correct (s.marked 0 a n))
  else
    let s := s.fillWalks spc a n
    match s.keysWalk spc a n false with
    | .ok ks =>
      match s.pkg.poison.find? fun p => p.under ks with
      | some p => .error (.poison p)
      | none =>
        let s := s.correct fun p => p.under ks
        .ok (ks.map s.mem.read, if spc == .hs then (chunksOf a n).foldl (fun s k => s.countHs (64 * k)) s else s)
    | .stop b (.fail f) => .error (.fault spc b f)
    | .stop _ (.cut fab) => .error (.cut fab)
    | .stop _ _ => .error .blocked

/-- A write of package memory lands: cached lines of its bytes are dropped everywhere in the package (R97, R106). -/
def State.landKeys (s : State) (ks : List Nat) (bs : List Byte) : State :=
  let s := s.lsu (dropLines ks)
  { s with mem := putKeys s.mem ks bs
           others := s.others.map fun c => { c with lsu := dropLines ks c.lsu } }

/-- Bytes that an engine writes; in a global space a memory-side write (R204). -/
def State.engWrite (s : State) (spc : Space) (a : Nat) (bs : List Byte) : Except Halt State :=
  if spc == .sp then .ok (s.mems fun m => { m with sp := m.sp.write a bs })
  else
    let s := s.fillWalks spc a bs.length
    match s.keysWalk spc a bs.length true with
    | .ok ks =>
      let s := if spc == .hs then (chunksOf a bs.length).foldl (fun s k => s.countHs (64 * k)) s else s
      .ok (s.landKeys ks bs)
    | .stop b (.fail f) => .error (.fault spc b f)
    | .stop _ (.cut fab) => .error (.cut fab)
    | .stop _ _ => .error .blocked

/-- Run sub-transfers from progress n up to total; what stopped them. -/
def runXfer (total : Nat) (piece : State → Nat → Except Halt (State × Nat)) : Nat → State → Nat → State × Nat × Option Halt
  | 0, s, n => (s, n, none)
  | fuel + 1, s, n =>
    if total ≤ n then (s, n, none)
    else
      match piece s n with
      | .error h => (s, n, some h)
      | .ok (s, m) => runXfer total piece fuel s (n + max 1 m)

/-- The bytes of a run that lie in one destination chunk from an offset on (R205). -/
def pieceLen (dst : Int) (o len : Nat) : Nat := min (64 - (dst.toNat + o) % 64) (len - o)

/-- A command's work goes on from its progress: it completes, or stops at what it meets; none where nothing moves (R203, R223). -/
def State.runCmd (s : State) (q : Fin 5) (c : EngCmd) (total : Nat) (piece : State → Nat → Except Halt (State × Nat)) : Option State :=
  let at0 := match c.out with | w :: _ => w.toNat | [] => 0
  let first := c.st == .waiting
  let s := s.takePop c
  let c := { c with popped := true, st := .running }
  let (s, n, stop) := runXfer total piece total s at0
  match stop with
  | none => some (s.setCmd q { c with st := .done, out := [] })
  | some .blocked => if n = at0 && !first then none else some (s.setCmd q { c with out := [BitVec.ofNat 64 n] })
  | some (.cut fab) => some (s.engCut q { c with out := [BitVec.ofNat 64 n] } fab)
  | some (.poison p) => some (s.meetData q { c with out := [BitVec.ofNat 64 n] } p)
  | some (.fault spc va f) => some (s.engFault q { c with out := [BitVec.ofNat 64 n] } spc va f)
  | some (.cause k info) => some (s.raiseCause q c k info)

end Sys2Proof.Machine
end

