-- ==== Sys2Proof/Machine/Copy.lean ====
section
/-! DEFINITION. The copy engine: the commands of majors 0x30 to 0x34 at issue and in their queues (R202 to R224). -/

namespace Sys2Proof.Machine

/-! ### Operand words (R206 to R208) -/

/-- The shape word (R206). -/
structure Box where
  ssp : Nat
  dsp : Nat
  c1 : Nat
  c2 : Nat
  c3 : Nat
  l : Nat

def boxOf (w : Word) : Box := ⟨wfld w 61 3, wfld w 58 3, wfld w 16 16, wfld w 32 16, wfld w 48 8, wfld w 0 16⟩

/-- The RSVD field of a shape word is zero, and its space codes name spaces (R205, R206). -/
def boxOk (w : Word) : Bool := wfld w 56 2 = 0 && wfld w 61 3 ≤ 5 && wfld w 58 3 ≤ 5

def spaceOf (n : Nat) : Space := (Space.ofCode n).getD .cl

/-- The strides of a stride word, shifted (R207). -/
def strides (w : Word) : Int × Int × Int :=
  let sh : Int := 2 ^ wfld w 60 4
  (sint 20 (wfld w 0 20) * sh, sint 20 (wfld w 20 20) * sh, sint 20 (wfld w 40 20) * sh)

/-- A side over the box of a shape word. -/
def sideOf (spc : Space) (a : Word) (len : Nat) (b : Box) (st : Word) : Side :=
  let (t1, t2, t3) := strides st
  ⟨spc, a.toNat, len, b.c1, b.c2, b.c3, t1, t2, t3⟩

/-- Base and shifted strides are multiples of an element size (R214, R219). -/
def Side.aligned (d : Side) (n : Nat) : Bool := d.base % n == 0 && d.t1 % n == 0 && d.t2 % n == 0 && d.t3 % n == 0

/-- The control word's RSVD fields and its mode (R208). -/
def ctlOk (w : Word) : Bool := wfld w 16 48 = 0 && wfld w 0 4 = 0 && wfld w 4 3 != 6

/-- The bounds check of an operand's side; a space code that names no space has no window, and is for the check of the shape word
(R205, R369). -/
def State.boundsOf (s : State) (code : Nat) (d : Side) : Check Unit := if code ≤ 5 then s.sideCheck d else .ok ()

/-- Two hulls intersect. -/
def hullsMeet (x y : Side) : Bool := x.hull.1 ≤ y.hull.2 && y.hull.1 ≤ x.hull.2

/-- The mode of an RM field at issue (R208). -/
def State.rmAt (s : State) (n : Nat) : RM := s.mode (RM.ofCode n)

/-- The register after a register: the second of a pair (R205). -/
def pairOf (r : GReg) : GReg := Fin.ofNat 32 (r.val + 1)

/-- Routing by the destination space (R202). -/
def copyQueue (dsp : Nat) : Fin 5 := if dsp = 0 then 0 else 1

/-! ### COPY (R213 to R215) -/

/-- The two sides of a COPY as raw boxes. -/
def copySides (ops : List Word) (len : Nat) : Side × Side :=
  let w := ops.getD 2 0
  let b := boxOf w
  (sideOf (spaceOf b.ssp) (ops.getD 0 0) (b.l + 1) b (ops.getD 3 0), sideOf (spaceOf b.dsp) (ops.getD 1 0) len b (ops.getD 4 0))

/-- The destination run length of a converting COPY, when its rules hold (R214). -/
def convLen (l : Nat) (ts td : ElemTy) : Option Nat :=
  let bits := (l + 1) * 8
  if bits % ts.width != 0 then none
  else
    let out := bits / ts.width * td.width
    if out % 8 != 0 then none else some (out / 8)

/-- The destination run length of a COPY between two scratchpad boxes, taken from the formats of their first banks; where the conversion's
rules give none, that of the source (R213, R214; notes/assumptions/8.md). -/
def copyLen (l : Nat) (ts td : ElemTy) : Nat := if ts == td then l + 1 else (convLen l ts td).getD (l + 1)

/-- The formats of the first bank of each side (R213). -/
def State.copyFmts (s : State) (ops : List Word) : ElemTy × ElemTy :=
  (s.bankTy (wfld (ops.getD 0 0) 14 8), s.bankTy (wfld (ops.getD 1 0) 14 8))

/-- The two sides of a COPY at issue. -/
def State.copyBoxes (s : State) (ops : List Word) : Side × Side :=
  let b := boxOf (ops.getD 2 0)
  let (ts, td) := s.copyFmts ops
  copySides ops (if b.ssp = 0 && b.dsp = 0 then copyLen b.l ts td else b.l + 1)

/-- COPY at issue: the bounds of gX, the bounds of gY, the fields of gW and of gZ, then what concerns both sides (R205, R213 to R215,
R369). Operands: gX, gY, the shape, the source strides, the destination strides, the control word. -/
def State.prepCopy (s : State) (ops : List Word) (follow : Bool) : Judged :=
  let w := ops.getD 2 0
  let ctl := ops.getD 5 0
  let b := boxOf w
  let (ts, td) := s.copyFmts ops
  let (src, dst) := s.copyBoxes ops
  let inner := b.ssp = 0 && b.dsp = 0
  let conv := inner && ts != td
  judge ops (src.footAt 1 ++ dst.footAt 2) (if conv then [ts, td] else []) (s.rmAt (wfld ctl 4 3)) do
    s.boundsOf b.ssp src
    s.boundsOf b.dsp dst
    need (boxOk w && ctlOk ctl && wfld ctl 8 8 = 0)
    need (!inner || (s.oneType src ts && s.oneType dst td && !hullsMeet src dst))
    need (!conv || ((convLen b.l ts td).isSome &&
      (max ts.width td.width < 16 || (src.aligned (max 1 (ts.width / 8)) && dst.aligned (max 1 (td.width / 8))))))
    need (!follow || b.dsp = 0)

/-- A raw sub-transfer (R205, R209). -/
def copyPiece (src dst : Side) (s : State) (n : Nat) : Except Halt (State × Nat) :=
  let k := n / dst.len
  let o := n % dst.len
  let m := pieceLen (dst.runAt k) o dst.len
  match s.engRead src.spc ((src.runAt k).toNat + o) m with
  | .error h => .error h
  | .ok (bs, s) =>
    match s.engWrite dst.spc ((dst.runAt k).toNat + o) bs with
    | .error h => .error h
    | .ok s => .ok (s, m)

/-- The elements of a run of a converting COPY, or the first that cannot be converted (R214). -/
def convRun (ts td : ElemTy) (rm : RM) (sat : Bool) (x : Nat) : Nat → Nat → Except (Cause × Nat) (List Nat)
  | 0, _ => .ok []
  | n + 1, j =>
    let e := lane ts.width x j
    match srcFault ts e with
    | some f => .error (f.cause, j)
    | none =>
      let r := convertElem ts td rm sat 0 0 e
      if r.range then .error (.cxRange, j)
      else match convRun ts td rm sat x n (j + 1) with
        | .error f => .error f
        | .ok l => .ok (r.bits :: l)

/-- One run of a converting COPY; an element that cannot be converted stops it before anything of its run is written. -/
def convPiece (src dst : Side) (ts td : ElemTy) (rm : RM) (sat : Bool) (s : State) (n : Nat) : Except Halt (State × Nat) :=
  let k := n / dst.len
  let a := (src.runAt k).toNat
  match s.engRead .sp a src.len with
  | .error h => .error h
  | .ok (bs, s) =>
    match convRun ts td rm sat (leNat bs) (src.len * 8 / ts.width) 0 with
    | .error (c, j) => .error (.cause c (BitVec.ofNat 64 (a + j * ts.width / 8)))
    | .ok l => (s.engWrite .sp (dst.runAt k).toNat (leBytes dst.len (pack td.width l))).map fun s => (s, dst.len)

/-- COPY runs. -/
def State.runCopy (s : State) (q : Fin 5) (c : EngCmd) : Option State :=
  let b := boxOf (c.ops.getD 2 0)
  match c.fmts with
  | [ts, td] =>
    let (src, dst) := copySides c.ops ((convLen b.l ts td).getD 1)
    s.runCmd q c (dst.runs * dst.len) (convPiece src dst ts td c.rm (wbit (c.ops.getD 5 0) 7))
  | _ =>
    let (src, dst) := copySides c.ops (b.l + 1)
    s.runCmd q c (dst.runs * dst.len) (copyPiece src dst)

/-! ### FILL (R216) -/

/-- Operands: the pattern, gY, the shape, the destination strides. -/
def fillSide (ops : List Word) : Side :=
  let b := boxOf (ops.getD 2 0)
  sideOf (spaceOf b.dsp) (ops.getD 1 0) (b.l + 1) b (ops.getD 3 0)

/-- FILL at issue (R205, R216, R369). -/
def State.prepFill (s : State) (ops : List Word) (w : Nat) : Judged :=
  let sh := ops.getD 2 0
  let b := boxOf sh
  let dst := fillSide ops
  judge ops (dst.footAt 2) [] .rne do
    s.boundsOf b.dsp dst
    need (boxOk sh && b.ssp = 0 && (b.l + 1) % 2 ^ w = 0)

def fillPiece (x : Word) (w : Nat) (dst : Side) (s : State) (n : Nat) : Except Halt (State × Nat) :=
  let k := n / dst.len
  let o := n % dst.len
  let m := pieceLen (dst.runAt k) o dst.len
  let bs := (List.range m).map fun i => BitVec.ofNat 8 (wfld x (8 * ((o + i) % 2 ^ w)) 8)
  (s.engWrite dst.spc ((dst.runAt k).toNat + o) bs).map fun s => (s, m)

/-! ### GATHER and SCATTER (R217) -/

/-- The index width in bytes. -/
def idxBytes (z : Word) : Nat := if wfld z 22 2 = 0 then 2 else 4

/-- The contiguous side of a row command: rows of L + 1 bytes one behind the other. -/
def rowSide (spc : Space) (a : Word) (b : Box) : Side := ⟨spc, a.toNat, b.l + 1, b.c1, 0, 0, b.l + 1, 0, 0⟩

/-- The contiguous side and its space code. -/
def nearSide (ops : List Word) (gather : Bool) : Nat × Side :=
  let b := boxOf (ops.getD 2 0)
  if gather then (b.dsp, rowSide (spaceOf b.dsp) (ops.getD 1 0) b) else (b.ssp, rowSide (spaceOf b.ssp) (ops.getD 0 0) b)

/-- The base of the indexed side and its space code. -/
def farBase (ops : List Word) (gather : Bool) : Nat × Word :=
  let b := boxOf (ops.getD 2 0)
  if gather then (b.ssp, ops.getD 0 0) else (b.dsp, ops.getD 1 0)

/-- The index list. -/
def idxSide (ops : List Word) : Side :=
  let z := ops.getD 3 0
  ⟨.sp, wfld z 0 22, ((boxOf (ops.getD 2 0)).c1 + 1) * idxBytes z, 0, 0, 0, 0, 0, 0⟩

/-- GATHER and SCATTER at issue: the contiguous side belongs to gX or gY, the list to gZ (R205, R217, R369). A base of the indexed side
that lies outside the scratchpad leaves it no word (notes/assumptions/15.md). Operands: gX, gY, the shape, the index word. -/
def State.prepRows (s : State) (ops : List Word) (gather : Bool) : Judged :=
  let sh := ops.getD 2 0
  let z := ops.getD 3 0
  let b := boxOf sh
  let (code, flat) := nearSide ops gather
  let (far, base) := farBase ops gather
  let acc := if gather then 1 else 2
  let farFoot := if far = 0 && base.toNat < 2 ^ 22 then [footSp acc base.toNat 0x3FFFFF] else []
  judge ops ((idxSide ops).footAt 1 ++ flat.footAt (3 - acc) ++ someFoot farFoot) [] .rne do
    s.boundsOf code flat
    need (boxOk sh && b.c2 = 0 && b.c3 = 0)
    need (wfld z 24 8 = 0 && wfld z 22 2 < 2 && wfld z 0 22 % idxBytes z = 0)
    s.sideCheck (idxSide ops)

/-- The operand values followed by the indices of a list that has been read (R217). -/
def withList (ops : List Word) (list : List Byte) : List Word :=
  let w := idxBytes (ops.getD 3 0)
  ops.take 4 ++ (List.range ((boxOf (ops.getD 2 0)).c1 + 1)).map fun j => BitVec.ofNat 64 (lane (8 * w) (leNat list) j)

/-- The address of row j on the indexed side, from the list that the command has read. -/
def rowFar (ops : List Word) (gather : Bool) (j : Nat) : Int :=
  (farBase ops gather).2.toNat + (ops.getD (4 + j) 0).toNat * wfld (ops.getD 3 0) 32 32

/-- The first of n rows from j on that leaves the window (R217). -/
def State.rowBad (s : State) (ops : List Word) (gather : Bool) (spc : Space) (len : Nat) : Nat → Nat → Option Nat
  | 0, _ => none
  | n + 1, j =>
    if (s.runOut spc (rowFar ops gather j) len).isSome then some j else State.rowBad s ops gather spc len n (j + 1)

/-- The core of the own vault holds a row of the indexed side (R327). -/
def State.rowVault (s : State) (ops : List Word) (gather : Bool) : Bool :=
  spaceOf (farBase ops gather).1 == .ra &&
    (List.range ((boxOf (ops.getD 2 0)).c1 + 1)).any fun j => s.cores[fld (rowFar ops gather j).toNat 32 8]? == some s.core.idx

def rowPiece (ops : List Word) (gather : Bool) (s : State) (n : Nat) : Except Halt (State × Nat) :=
  let b := boxOf (ops.getD 2 0)
  let len := b.l + 1
  let j := n / len
  let o := n % len
  let far := (rowFar ops gather j).toNat
  let near := (if gather then ops.getD 1 0 else ops.getD 0 0).toNat + j * len
  let (sa, da) := if gather then (far, near) else (near, far)
  let m := pieceLen da o len
  match s.engRead (spaceOf b.ssp) (sa + o) m with
  | .error h => .error h
  | .ok (bs, s) => (s.engWrite (spaceOf b.dsp) (da + o) bs).map fun s => (s, m)

/-- GATHER and SCATTER start: the whole list is read and every row is checked before any byte moves; a command that starts again after
ERET reads the list again (R217, R128). -/
def State.startRows (s : State) (q : Fin 5) (c : EngCmd) (gather : Bool) : Option State :=
  let b := boxOf (c.ops.getD 2 0)
  let list := idxSide c.ops
  match s.engRead .sp list.base.toNat list.len with
  | .error (.poison p) => some ((s.takePop c).meetData q { c with popped := true } p)
  | .error _ => none
  | .ok (bs, s) =>
    let c := { c with ops := withList c.ops bs }
    match s.rowBad c.ops gather (spaceOf (farBase c.ops gather).1) (b.l + 1) (b.c1 + 1) 0 with
    | some j => some ((s.takePop c).raiseCause q c .bounds (BitVec.ofNat 64 j))
    | none =>
      let s := if s.rowVault c.ops gather then s.withCore { s.core with vuse := true } else s
      s.runCmd q c ((b.c1 + 1) * (b.l + 1)) (rowPiece c.ops gather)

/-- GATHER and SCATTER run. -/
def State.runRows (s : State) (q : Fin 5) (c : EngCmd) (gather : Bool) : Option State :=
  let b := boxOf (c.ops.getD 2 0)
  if c.st == .waiting then s.startRows q c gather else s.runCmd q c ((b.c1 + 1) * (b.l + 1)) (rowPiece c.ops gather)

/-! ### LOFT (R218) -/

/-- The Loft byte encoding of R205. -/
def loftInfo (slice off : Nat) : Word := BitVec.ofNat 64 (slice * 2 ^ 32 + off)

/-- The source runs of a LOFT: one per slice. -/
def loftSide (ops : List Word) : Side :=
  let b := boxOf (ops.getD 2 0)
  ⟨spaceOf b.ssp, (ops.getD 0 0).toNat, b.l + 1, b.c1, 0, 0, (ops.getD 3 0).toInt, 0, 0⟩

/-- The footprint word of a Loft range that lies in the Loft. -/
def loftFoot (acc s0 s1 o0 o1 : Nat) : List (Option Word) :=
  [if s1 < 128 && o1 < 2 ^ 16 then some (footLoft acc s0 s1 o0 o1) else none]

/-- LOFT at issue: the bounds of gX, the fields of gY and the Loft range that it describes, then gW (R205, R218, R369). Operands: gX, gY,
the shape, the slice stride. -/
def State.prepLoft (s : State) (ops : List Word) : Judged :=
  let sh := ops.getD 2 0
  let y := ops.getD 1 0
  let b := boxOf sh
  let s0 := wfld y 16 7
  let off := wfld y 0 16
  let src := loftSide ops
  judge ops (loftFoot 2 s0 (s0 + b.c1) off (off + b.l) ++ src.footAt 1) [] .rne do
    s.boundsOf b.ssp src
    need (wfld y 23 41 = 0)
    if 0xFFFF < off + b.l then outside (loftInfo s0 0x10000) else .ok ()
    if 128 < s0 + b.c1 + 1 then outside (loftInfo 128 off) else .ok ()
    need (boxOk sh && b.dsp = 0 && b.c2 = 0 && b.c3 = 0 && (b.ssp = 0 || b.ssp = 1 || b.ssp = 3))

/-- The location of a Loft byte. -/
def loftAt (slice off : Nat) : Nat := slice * 2 ^ 16 + off

/-- Bytes enter the Loft; the high-water mark rises (R245). -/
def State.loftWrite (s : State) (slice off : Nat) (bs : List Byte) : State :=
  let s := s.mems fun m => { m with loft := m.loft.write (loftAt slice off) bs }
  s.withCore { s.core with lhwm := max s.core.lhwm (off + bs.length) }

def loftPiece (ops : List Word) (s : State) (n : Nat) : Except Halt (State × Nat) :=
  let src := loftSide ops
  let y := ops.getD 1 0
  let k := n / src.len
  let o := n % src.len
  let m := pieceLen (wfld y 0 16) o src.len
  (s.engRead src.spc ((src.runAt k).toNat + o) m).map fun r => (r.2.loftWrite (wfld y 16 7 + k) (wfld y 0 16 + o) r.1, m)

/-! ### REDUCE (R219) -/

def reduceTy (ctl : Word) : Option ElemTy :=
  match wfld ctl 12 4 with
  | 3 => some .i32 | 6 => some .n32 | 11 => some .h16 | 12 => some .bf16 | 13 => some .fp32 | _ => none

/-- REDUCE at issue: alignment and bounds of gX, then of gY, then the fields of gW and gZ and the rules of both sides (R205, R219, R369).
The operands are those of COPY. -/
def State.prepReduce (s : State) (ops : List Word) : Judged :=
  let w := ops.getD 2 0
  let ctl := ops.getD 5 0
  let b := boxOf w
  let t := reduceTy ctl
  let e : Nat := match t with | some t => t.width / 8 | none => 1
  let (src, dst) := copySides ops (b.l + 1)
  judge ops (src.footAt 1) t.toList (s.rmAt (wfld ctl 4 3)) do
    need (src.base % e == 0)
    s.boundsOf b.ssp src
    need (dst.base % e == 0)
    s.boundsOf b.dsp dst
    need (boxOk w && ctlOk ctl && b.dsp != 0 && wfld ctl 8 4 < 3 && t.isSome)
    need ((b.l + 1) % e = 0 && src.aligned e && dst.aligned e)

/-- The new value of a destination element: SAT clamps an integer ADD alone, a floating ADD overflows by R52 (R208, R219). -/
def reduceElem (t : ElemTy) (op : Nat) (rm : RM) (sat : Bool) (x v : Nat) : Nat :=
  if t.isInt then
    let a := intVal t x
    let b := intVal t v
    match op with
    | 0 => if sat then wrap 32 (clampInt t (a + b)) else wrap 32 (a + b)
    | 1 => if b < a then v else x
    | _ => if a < b then v else x
  else
    let a := decodeElem t x
    let b := decodeElem t v
    match op with
    | 0 => (sumElem t rm false 0 0 [a, b]).bits
    | 1 => if a.isNan || b.isNan then nanBits t else if valLt b a then v else x
    | _ => if a.isNan || b.isNan then nanBits t else if valLt a b then v else x

/-- One 64-byte chunk is read, combined and written as one write. -/
def reducePiece (src dst : Side) (t : ElemTy) (op : Nat) (rm : RM) (sat : Bool) (s : State) (n : Nat) : Except Halt (State × Nat) :=
  let k := n / dst.len
  let o := n % dst.len
  let m := pieceLen (dst.runAt k) o dst.len
  let da := (dst.runAt k).toNat + o
  match s.engRead src.spc ((src.runAt k).toNat + o) m with
  | .error h => .error h
  | .ok (bs, s) =>
    match s.engRead dst.spc da m with
    | .error h => .error h
    | .ok (xs, s) =>
      let r := tabulate t.width (8 * m / t.width) fun i =>
        reduceElem t op rm sat (lane t.width (leNat xs) i) (lane t.width (leNat bs) i)
      (s.engWrite dst.spc da (leBytes m r)).map fun s => (s, m)

def State.runReduce (s : State) (q : Fin 5) (c : EngCmd) : Option State :=
  let ctl := c.ops.getD 5 0
  let b := boxOf (c.ops.getD 2 0)
  let (src, dst) := copySides c.ops (b.l + 1)
  s.runCmd q c (dst.runs * dst.len) (reducePiece src dst (c.fmts.getD 0 .fp32) (wfld ctl 8 4) c.rm (wbit ctl 7))

/-! ### REDUCE.BIN (R220, R221) -/

def binTy (z : Word) : Option ElemTy :=
  match wfld z 20 4 with
  | 11 => some .h16 | 12 => some .bf16 | 13 => some .fp32 | _ => none

def binSide (spc : Space) (a : Word) (b : Box) : Side := ⟨spc, a.toNat, b.l + 1, 0, 0, 0, 0, 0, 0⟩

/-- REDUCE.BIN at issue: gX and gY in turn, the shape, the group word, then the command as a whole (R220, R224, R369). Operands: gX, gY,
the shape, the group word. -/
def State.prepBin (s : State) (ops : List Word) : Judged :=
  let sh := ops.getD 2 0
  let z := ops.getD 3 0
  let b := boxOf sh
  let src := binSide (spaceOf b.ssp) (ops.getD 0 0) b
  let dst := binSide (spaceOf b.dsp) (ops.getD 1 0) b
  let size := match binTy z with | some t => t.width / 8 | none => 1
  judge ops (src.footAt 1 ++ dst.footAt 2) (binTy z).toList (s.rmAt (wfld z 17 3)) do
    s.boundsOf b.ssp src
    s.boundsOf b.dsp dst
    need (boxOk sh && b.c1 = 0 && b.c2 = 0 && b.c3 = 0)
    need (wfld z 0 17 = 0 && wfld z 17 3 != 6 && wfld z 36 12 ≤ 255 && wfld z 36 12 < s.devs.length && wfld z 24 12 ≤ wfld z 36 12 &&
      (s.devs.getD (wfld z 24 12) (256, 0)).1 == s.pkg.fabric.toNat % 256)
    need ((binTy z).isSome && (b.l + 1) % size = 0 && !s.core.fe.handler)

/-- The GROUP tag of a group word (R220). -/
def groupTag (z : Word) : Nat := wfld z 48 16

/-- A command in progress with a GROUP tag (R220). -/
def binRunning (g : Nat) (c : EngCmd) : Bool := c.st == .running && c.isBin && groupTag (c.ops.getD 3 0) == g

/-- A REDUCE.BIN of the tag is in progress on the device. -/
def State.groupBusy (s : State) (g : Nat) : Bool :=
  (s.core :: s.others).any fun c => c.eng.q.toList.any fun l => l.any (binRunning g)

/-- One block's sums from the parties' element values (R221). -/
def binBlock (t : ElemTy) (rm : RM) (cols : List (List Nat)) : List Nat :=
  let fin (x : Nat) : Option Ex := match decodeElem t x with | .num e => if e.num = 0 then none else some e | _ => none
  let es := (cols.flatMap fun c => c.filterMap fin).map fun e => e.mag.k
  let emax := es.foldl max (es.headD 0)
  cols.map fun c =>
    let vs := c.map (decodeElem t)
    let pos := vs.any fun v => match v with | .inf n => !n | _ => false
    let neg := vs.any fun v => match v with | .inf n => n | _ => false
    if vs.any Val.isNan || (pos && neg) then nanBits t
    else if pos then infBits t false
    else if neg then infBits t true
    else if es.isEmpty then zeroBits t false
    else
      let sum := (c.map fun x => match fin x with | some e => alignEx e (emax - 46) | none => 0).sum
      (roundEx t rm false 0 0 ⟨sum < 0, sum.natAbs, 1, emax - 46⟩ false).bits

/-- Split a list into blocks of 32. -/
def blocks32 : Nat → List (List Nat) → List (List (List Nat))
  | 0, _ => []
  | n + 1, l => if l.isEmpty then [] else l.take 32 :: blocks32 n (l.drop 32)

/-- The result elements from the parties' element lists (R221). -/
def binSums (t : ElemTy) (rm : RM) (parties : List (List Nat)) (n : Nat) : List Nat :=
  let cols := (List.range n).map fun i => parties.map fun p => p.getD i 0
  ((blocks32 n cols).map (binBlock t rm)).flatten

/-- What another party sends: its index, its group word, and its elements. -/
abbrev PartyData := Nat × Word × List Nat

/-- The command of this core that an exchange belongs to: the one in progress with the GROUP tag of the data that has come, or, without
data, one that is a party of its own (R220). -/
def State.binCmd (s : State) (others : List PartyData) : Option (Fin 5 × EngCmd) :=
  let mine (c : EngCmd) : Bool :=
    match others with
    | o :: _ => binRunning (groupTag o.2.1) c
    | [] => c.st == .running && c.isBin && wfld (c.ops.getD 3 0) 36 12 = 0
  let find (q : Fin 5) := ((s.core.eng.q[q]).find? mine).map fun c => (q, c)
  match find 0 with | some r => some r | none => find 1

/-- The group words agree but for PARTY (R220). -/
def sameGroup (x y : Word) : Bool := setFld x 24 12 0 == setFld y 24 12 0

/-- The data of each other party in the group of a word, each party once: data that is sent again counts no second time (R359). -/
def partyData (z : Word) (others : List PartyData) : List (Option PartyData) :=
  ((List.range (wfld z 36 12 + 1)).filter (· != wfld z 24 12)).map fun p =>
    others.find? fun o => o.1 == p && groupTag o.2.1 == groupTag z

/-- The exchange of a command, when every other party's data is there; it waits while a party cannot be reached (R220, R221, R359). -/
def State.exchange (s : State) (q : Fin 5) (c : EngCmd) (others : List PartyData) : Option State :=
  let z := c.ops.getD 3 0
  let b := boxOf (c.ops.getD 2 0)
  let t := c.fmts.getD 0 .fp32
  let n := (b.l + 1) / (t.width / 8)
  let found := partyData z others
  let all := found.filterMap id
  if found.any Option.isNone || all.any fun o => (s.pkg.cutDev s.devs o.1).isSome then none
  else if all.any fun o => !sameGroup o.2.1 z || o.2.2.length != n then some (s.raiseCause q c .illegalOperand 0)
  else
    s.runCmd q c 1 fun s _ =>
      match s.engRead (spaceOf b.ssp) (c.ops.getD 0 0).toNat (b.l + 1) with
      | .error h => .error h
      | .ok (bs, s) =>
        let mine := (List.range n).map (lane t.width (leNat bs))
        let r := pack t.width (binSums t c.rm (mine :: all.map (·.2.2)) n)
        (s.engWrite (spaceOf b.dsp) (c.ops.getD 1 0).toNat (leBytes (b.l + 1) r)).map fun s => (s, 1)

/-- REDUCE_BIN_EXCHANGE: the exchange of the command that the data belongs to. -/
def State.binExchange (s : State) (others : List PartyData) : Option State :=
  if !s.engActive then none
  else match s.binCmd others with
    | none => none
    | some (q, c) => s.exchange q c others

/-! ### MIGRATE (R92, R222) -/

/-- The log of the page size of a MIGRATE control word. -/
def migSize (w : Word) : Nat :=
  match wfld w 0 2 with
  | 0 => 16 | 1 => 21 | 2 => 29 | _ => 34

/-- Operands: gX, gY, the control word. -/
def State.prepMigrate (s : State) (ops : List Word) : Judged :=
  let w := ops.getD 2 0
  let x := (ops.getD 0 0).toNat
  let y := (ops.getD 1 0).toNat
  let n := 2 ^ migSize w
  judge ops [] [] .rne do
    need (x % n = 0 && y % n = 0 && wfld w 4 60 = 0 && wfld w 2 1 = 0)
    need (s.isSvc && !s.core.fe.handler && (y + n ≤ Config.cellar || Config.atticPhysical y))

/-- The cached translations that a predicate names leave every cache, their access counts written back (R89, R91). -/
def State.dropTlb (s : State) (f : TlbEntry → Bool) : State :=
  let old := (s.pkg.dieTlb.toList.flatMap id).filter fun t => f t && wbit t.leaf 58
  let mem := old.foldl (fun m t => m.putLe t.entryAt 2 t.count) s.mem
  let core (c : Core) : Core := { c with lsu := { c.lsu with utlb := c.lsu.utlb.filter fun t => !f t } }
  { s with mem := mem, core := core s.core, others := s.others.map core
           pkg := { s.pkg with dieTlb := vmap (fun _ l => l.filter fun t => !f t) s.pkg.dieTlb } }

/-- Writes that wait or are in flight to a page that moves land in its new copy (R92). -/
def moveKey (old n new k : Nat) : Nat := if old ≤ k && k < old + n then k - old + new else k

/-- Every location key that accesses, writes in flight, Porch entries and cached lines hold is renamed. -/
def Lsu.mapKeys (f : Nat → Nat) (l : Lsu) : Lsu :=
  { l with
    acc := l.acc.map fun a => { a with keys := a.keys.map f }
    ms := l.ms.map fun w => { w with keys := w.keys.map f }
    porch := l.porch.map fun e => { e with cells := e.cells.map fun c => (c.1, { c.2 with key := f c.2.key }) }
    attic := l.attic.map fun x => (x.1, f x.2.1, x.2.2) }

def Queues.mapKeys (f : Nat → Nat) (u : Queues) : Queues :=
  { u with taker := vmap (fun _ l => l.map fun t => match t with
    | .claim x a m ks ms q => .claim x a m (ks.map f) ms q
    | .stream t => .stream t) u.taker }

def State.mapKeys (s : State) (f : Nat → Nat) : State :=
  let g (c : Core) : Core := { c with lsu := c.lsu.mapKeys f, qs := c.qs.mapKeys f }
  { s with core := g s.core, others := s.others.map g
           pkg := { s.pkg with parked := s.pkg.parked.map fun x => { x with lsu := x.lsu.mapKeys f, qs := x.qs.mapKeys f } } }

/-- A byte lies in a page that a MIGRATE in progress has write-blocked: a write that has been translated before waits too (R92). -/
def EngCmd.moves (k : Nat) (c : EngCmd) : Bool :=
  c.st == .running &&
    match c.instr, c.out with
    | .migrate _ _ _ _, [_, old] => old.toNat ≤ k && k < old.toNat + 2 ^ migSize (c.ops.getD 2 0)
    | _, _ => false

/-- Some byte of a write lies in a page that moves. -/
def State.moving (s : State) (ks : List Nat) : Bool :=
  (s.core :: s.others).any fun c => (c.eng.q[1]).any fun x => ks.any x.moves

/-- The space of a MIGRATE. -/
def migSpace (w : Word) : Space := if wbit w 3 then .hs else .cl

/-- TRANS.INV of the page (R89). -/
def State.dropPage (s : State) (spc : Space) (va size : Nat) : State :=
  s.dropTlb fun t => t.part == s.partId && t.spc == spc && t.vpage * 2 ^ t.size == va && t.size == size

/-- MIGRATE, step 1 of R92: the leaf is write-blocked and its translations are dropped. A page that another MIGRATE moves is waited for
(notes/assumptions/50.md). -/
def State.migrateBlock (s : State) (q : Fin 5) (c : EngCmd) : Option State :=
  let w := c.ops.getD 2 0
  let va := (c.ops.getD 0 0).toNat
  let spc := migSpace w
  match s.part.map fun p => walk s.mem 0 spc (p.root spc) va false with
  | some (.ok (ea, e, size)) =>
    if size != migSize w || 2 ^ 56 ≤ va then some ((s.takePop c).raiseCause q c .illegalOperand 0)
    else
      let old := s.keyOf spc (leafPa e size va)
      if s.moving [old] then none
      else
        let s := (s.takePop c).dropPage spc va size
        let leaf := setFld (BitVec.ofNat 64 (s.mem.le ea 8)) 60 1 1
        let s := { s with mem := s.mem.putLe ea 8 leaf.toNat }
        some (s.setCmd q { c with popped := true, st := .running, out := [BitVec.ofNat 64 ea, BitVec.ofNat 64 old] })
  | _ => some ((s.takePop c).raiseCause q c .illegalOperand 0)

/-- MIGRATE, steps 3 to 5 of R92: the page is copied, its leaf names the new place without WB, its translations are dropped, the writes
that wait go to the new copy, and the record is pushed. The notification ring must have room for the record; a word of the page that
cannot be corrected stops the unit (R222, R223). -/
def State.migrateMove (s : State) (q : Fin 5) (c : EngCmd) (ea old : Nat) : Option State :=
  let w := c.ops.getD 2 0
  let va := (c.ops.getD 0 0).toNat
  let y := (c.ops.getD 1 0).toNat
  let n := 2 ^ migSize w
  let spc := migSpace w
  let inPage (p : Poison) : Bool := match p.key with | some k => old ≤ k && k < old + n | none => false
  match s.pkg.poison.find? inPage with
  | some p => some (s.meetData q c p)
  | none =>
    if s.pkg.notify.full then none
    else
      let s := (s.correct inPage).dropPage spc va (migSize w)
      let s := ({ s with mem := s.mem.copyIn s.mem old n y }).mapKeys (moveKey old n y)
      let s := if spc == .hs then s.pkgd fun g => { g with hsPages := (y, n) :: g.hsPages } else s
      let e : Word := BitVec.ofNat 64 (s.mem.le ea 8)
      let leaf := setFld (setFld e 16 36 (y / 2 ^ 16)) 60 1 0
      let s := { s with mem := s.mem.putLe ea 8 leaf.toNat }
      let s := s.note (noteRec va 0 s.uctr s.partId s.core.idx spc.code 5) true
      some (s.setCmd q { c with st := .done, out := [] })

def State.runMigrate (s : State) (q : Fin 5) (c : EngCmd) : Option State :=
  match c.st, c.out with
  | .running, [ea, old] => s.migrateMove q c ea.toNat old.toNat
  | _, _ => s.migrateBlock q c

/-! ### Issue -/

/-- The operand values of COPY and REDUCE: gX, gY, the pair gW, the pair gZ. -/
def State.copyOps (s : State) (c : ECmd) : List Word :=
  [s.g c.x, s.g c.y, s.g c.w, s.g (pairOf c.w), s.g c.z, s.g (pairOf c.z)]

def copyRegs (c : ECmd) : List GReg := [c.x, c.y, c.w, pairOf c.w, c.z, pairOf c.z]

/-- The queue that a shape word's destination space chooses (R202). -/
def State.shapeQueue (s : State) (w : GReg) : Fin 5 := copyQueue (boxOf (s.g w)).dsp

/-- A copy command names a byte of the unit's vault (R327); the indexed side of GATHER and SCATTER counts where its space is .AT, its rows
when the command reads its list. -/
def State.copyVault (s : State) (c : EngCmd) : Bool :=
  let b := boxOf (c.ops.getD 2 0)
  match c.instr with
  | .copy _ | .copyF _ | .reduce _ => let (x, y) := copySides c.ops (b.l + 1); s.sideVault x || s.sideVault y
  | .fill _ _ => s.sideVault (fillSide c.ops)
  | .gather _ => s.sideVault (nearSide c.ops true).2 || b.ssp = 1
  | .scatter _ => s.sideVault (nearSide c.ops false).2 || b.dsp = 1
  | .loft _ => s.sideVault (loftSide c.ops)
  | .reduceBin _ => s.sideVault (binSide (spaceOf b.ssp) (c.ops.getD 0 0) b) || s.sideVault (binSide (spaceOf b.dsp) (c.ops.getD 1 0) b)
  | _ => false

/-- The issue of a copy-class command; hatch fields on the side path take ILLEGAL_OPERAND (R224). -/
def State.issueCopy (s : State) (q : Fin 5) (i : Instr) (hk : Hatching) (prep : State → Judged) : Out :=
  s.issueCmd q i hk s.copyVault fun s =>
    (prep s).and (need (!(s.core.fe.handler && (hk.push.isSome || hk.pop.isSome))))

def execCopy (c : ECmd) (s : State) : Out :=
  s.aIssue (copyRegs c) [] fun s => s.issueCopy (s.shapeQueue c.w) (.copy c) c.hk fun s => s.prepCopy (s.copyOps c) false

def execFill (c : ECmd) (w : Fin 4) (s : State) : Out :=
  s.aIssue [c.x, c.y, c.w, c.z] [] fun s =>
    s.issueCopy (s.shapeQueue c.w) (.fill c w) c.hk fun s => s.prepFill [s.g c.x, s.g c.y, s.g c.w, s.g c.z] w.val

def execGather (c : ECmd) (s : State) : Out :=
  s.aIssue [c.x, c.y, c.w, c.z] [] fun s =>
    s.issueCopy (s.shapeQueue c.w) (.gather c) c.hk fun s => s.prepRows [s.g c.x, s.g c.y, s.g c.w, s.g c.z] true

def execScatter (c : ECmd) (s : State) : Out :=
  s.aIssue [c.x, c.y, c.w, c.z] [] fun s =>
    s.issueCopy (s.shapeQueue c.w) (.scatter c) c.hk fun s => s.prepRows [s.g c.x, s.g c.y, s.g c.w, s.g c.z] false

def execLoft (c : ECmd) (s : State) : Out :=
  s.aIssue [c.x, c.y, c.w, c.z] [] fun s =>
    s.issueCopy 0 (.loft c) c.hk fun s => s.prepLoft [s.g c.x, s.g c.y, s.g c.w, s.g c.z]

def execReduce (c : ECmd) (s : State) : Out :=
  s.aIssue (copyRegs c) [] fun s => s.issueCopy 1 (.reduce c) c.hk fun s => s.prepReduce (s.copyOps c)

def execReduceBin (c : ECmd) (s : State) : Out :=
  s.aIssue [c.x, c.y, c.w, c.z] [] fun s =>
    s.issueCopy (s.shapeQueue c.w) (.reduceBin c) c.hk fun s => s.prepBin [s.g c.x, s.g c.y, s.g c.w, s.g c.z]

def execMigrate (x y w : GReg) (hk : Hatching) (s : State) : Out :=
  s.aIssue [x, y, w] [] fun s =>
    s.issueCopy 1 (.migrate x y w hk) hk fun s => s.prepMigrate [s.g x, s.g y, s.g w]

/-! ### The queues (R203) -/

/-- The runs of a command's destination in a global space; those of a SCATTER that has not started by the list as it is. -/
def State.dstRuns (s : State) (c : EngCmd) : List (Space × Int × Nat) :=
  let b := boxOf (c.ops.getD 2 0)
  let side (d : Side) : List (Space × Int × Nat) :=
    if d.spc == .sp then [] else (List.range d.runs).map fun k => (d.spc, d.runAt k, d.len)
  match c.instr with
  | .copy _ | .copyF _ | .reduce _ => side (copySides c.ops (b.l + 1)).2
  | .fill _ _ => side (fillSide c.ops)
  | .gather _ => side (nearSide c.ops true).2
  | .scatter _ =>
    if b.dsp = 0 then []
    else
      let list := idxSide c.ops
      let ops := if c.st == .waiting then withList c.ops (s.core.mems.sp.bytes list.base.toNat list.len) else c.ops
      (List.range (b.c1 + 1)).map fun j => (spaceOf b.dsp, rowFar ops false j, b.l + 1)
  | .reduceBin _ => side (binSide (spaceOf b.dsp) (c.ops.getD 1 0) b)
  | _ => []

/-- The chunks of runs, by their locations and, where they can be translated, by their bytes. -/
def State.chunksOfRuns (s : State) (rs : List (Space × Int × Nat)) : List (Nat × Nat) :=
  rs.flatMap fun r =>
    let a := r.2.1.toNat
    (List.range ((a + r.2.2 - 1) / 64 - a / 64 + 1)).flatMap fun i =>
      let l := s.loc r.1 (64 * (a / 64 + i))
      (l.1, l.2 / 64) :: (match s.xlateWalk r.1 (64 * (a / 64 + i)) false with | .key k => [(6, k / 64)] | _ => [])

/-- Writes of one queue to one chunk take effect in queue order: a command waits while an earlier one in progress has still to write a
chunk that it writes too (R204). -/
def State.chunkWaits (s : State) (q : Fin 5) (c : EngCmd) : Bool :=
  let before := ((s.core.eng.q[q]).takeWhile fun x => x.seq != c.seq).filter fun x => x.st == .running
  !before.isEmpty &&
    (let mine := s.chunksOfRuns (s.dstRuns c)
     before.any fun x => (s.chunksOfRuns (s.dstRuns x)).any mine.contains)

/-- A command that can start, or go on: edges and pop for one that waits; a started REDUCE.BIN waits for its exchange. -/
def State.copyCanRun (s : State) (q : Fin 5) (c : EngCmd) : Bool :=
  match c.st with
  | .done => false
  | .running => !c.isBin && !s.chunkWaits q c
  | .waiting => s.popReady c && s.edgesMet c && (if c.isBin then !s.groupBusy (groupTag (c.ops.getD 3 0)) else !s.chunkWaits q c)

/-- A party of REDUCE.BIN sends its data to the others; of those that `f` names (R220, R359). -/
def State.binSend (s : State) (z : Word) (f : Nat → Bool) : State :=
  let fabs := ((List.range (wfld z 36 12 + 1)).filter (· != wfld z 24 12)).filterMap fun p => (s.devs[p]?).map (·.1)
  (fabs.filter f).foldl (fun s fab => s.sendFlit fab (.exchange s.core.idx)) s

/-- Run a copy-class command. -/
def State.runCopyCmd (s : State) (q : Fin 5) (c : EngCmd) : Option State :=
  match c.instr with
  | .copy _ | .copyF _ => s.runCopy q c
  | .fill _ w => s.runCmd q c ((fillSide c.ops).runs * (fillSide c.ops).len) (fillPiece (c.ops.getD 0 0) w.val (fillSide c.ops))
  | .gather _ => s.runRows q c true
  | .scatter _ => s.runRows q c false
  | .loft _ => s.runCmd q c ((loftSide c.ops).runs * (loftSide c.ops).len) (loftPiece c.ops)
  | .reduce _ => s.runReduce q c
  | .reduceBin _ => some (((s.takePop c).setCmd q { c with popped := true, st := .running }).binSend (c.ops.getD 3 0) fun _ => true)
  | .migrate _ _ _ _ => s.runMigrate q c
  | _ => none

/-- The next command of a copy queue that may start or go on: commands start in order, at most four in progress (R203). A unit whose
pre-emption is being taken starts none (R323). -/
def State.copyNext (s : State) (q : Fin 5) : Option EngCmd :=
  let l := s.core.eng.q[q]
  match l.find? fun c => c.st == .running && s.copyCanRun q c with
  | some c => some c
  | none =>
    if 4 ≤ (l.filter fun c => c.st == .running).length || s.core.fe.settling then none
    else match l.find? fun c => c.st == .waiting with
      | some c => if s.copyCanRun q c then some c else none
      | none => none

/-- A copy command starts, or a started one goes on; its queue is read for it (R203, R223). -/
def State.copyStart (s : State) (outbound : Bool) : Option State :=
  let q : Fin 5 := if outbound then 1 else 0
  if !s.engActive || s.queueHeld q then none
  else match s.copyNext q with
    | none => none
    | some c =>
      match s.dataCheck [queueWord q] with
      | .error p => some (s.meetData q c p)
      | .ok s => (s.runCopyCmd q c).map State.progress

def State.copyRetire (s : State) (outbound : Bool) : Option State := s.retireHead (if outbound then 1 else 0)

end Sys2Proof.Machine
end

