-- ==== Sys2Proof/Machine/Butterfly.lean ====
section
/-! DEFINITION. The butterfly engine's stages: tiles, Loft records, scales, sparsity, BFS and BFA (R227 to R253, R366, R367). -/

namespace Sys2Proof.Machine

/-! ### Tiles (R231) -/

/-- A tile in the scratchpad: the descriptor's fields, the number of rows and their length in bytes. -/
structure Tile where
  pb : Nat
  bank : Nat
  off : Nat
  rows : Nat
  len : Nat
  deriving DecidableEq, Repr

def tileOf (w : Word) (rows len : Nat) : Tile := ⟨wfld w 22 8, wfld w 14 8, wfld w 0 14, rows, len⟩

def Tile.bankOf (t : Tile) (r : Nat) : Nat := (t.bank + r * t.pb) % 256
def Tile.offOf (t : Tile) (r : Nat) : Nat := t.off + r / 256 * ((t.len + 63) / 64 * 64)
/-- The address of row r. -/
def Tile.row (t : Tile) (r : Nat) : Nat := t.bankOf r * 2 ^ 14 + t.offOf r

/-- The hull: the least byte and the greatest. -/
def Tile.hull (t : Tile) : Nat × Nat :=
  let as := (List.range t.rows).map t.row
  (as.foldl min (t.row 0), as.foldl max (t.row 0) + t.len - 1)

/-- Rows that share a bank have one offset where their numbers lie in one block of 256, and offsets a row apart otherwise: the rows
share a byte exactly where two rows of one block share a bank. Rows closer than `near` are left out: the array accesses them together,
and the command takes BANK_CONFLICT for them when it starts, as R232's table has it (notes/assumptions/14.md). -/
def Tile.selfMeets (t : Tile) (near : Nat) : Bool := (List.range (min t.rows 256)).any fun d => near ≤ d && d != 0 && d * t.pb % 256 == 0

/-- The element types a tile may have (R231). -/
def tileTypes : List ElemTy := [.e2m1, .e4m3, .e5m2, .sp2, .h16, .bf16, .fp32]

/-- The checks of R231 at issue, in the order of its table: RSVD, PB and OFF; the bounds; shared bytes; one TYPE of those allowed,
which a raw form does not ask. -/
def State.tileCheck (s : State) (w : Word) (t : Tile) (near : Nat) (types : Option (List ElemTy)) : Check Unit := do
  need (wfld w 30 34 = 0 && t.pb != 0 && t.off % 64 = 0)
  match (List.range t.rows).find? fun r => 2 ^ 14 < t.offOf r + t.len with
  | some r => outside (BitVec.ofNat 64 (t.bankOf r * 2 ^ 14 + max (t.offOf r) (2 ^ 14)))
  | none => pure ()
  need (!t.selfMeets near)
  match types with
  | none => pure ()
  | some l =>
    let ty := s.bankTy t.bank
    need (l.contains ty && (List.range t.rows).all fun r => s.bankTy (t.bankOf r) == ty)

/-- The packed value of row r. -/
def State.tileRow (s : State) (t : Tile) (r : Nat) : Nat := s.core.mems.sp.le (t.row r) t.len

/-- Two hulls intersect. -/
def hullMeets (x y : Nat × Nat) : Bool := x.1 ≤ y.2 && y.1 ≤ x.2

/-- The rows that the array accesses together share a bank: the lowest pair (R232). -/
def bankPair (t : Tile) : List Nat → Option (Nat × Nat)
  | [] => none
  | r :: rs =>
    match rs.find? fun q => t.bankOf q == t.bankOf r with
    | some q => some (r, q)
    | none => bankPair t rs

/-! ### Geometry (R233, R234) -/

/-- Rows of an M code. -/
def rowsOf (m : Nat) : Nat := 16 * 2 ^ m

/-- Formats whose elements carry S16 scales (R234). -/
def scaledTy : ElemTy → Bool
  | .e4m3 | .e5m2 | .e2m1 | .sp2 => true
  | _ => false

/-- The geometry of a stage: its format, G, its columns 16N and its rows M, and the sparsity MODE. -/
structure Geo where
  ty : ElemTy
  g : Nat
  cols : Nat
  rows : Nat
  mode : Nat

def Geo.k (e : Geo) : Nat := 512 / e.ty.width
def Geo.kv (e : Geo) : Nat := if e.mode = 1 || e.mode = 2 then e.k / 2 else e.k
def Geo.sb (e : Geo) : Nat := e.kv * e.ty.width / 8 + if scaledTy e.ty then 2 else 0
def Geo.rs (e : Geo) : Nat := e.g * e.sb
/-- Blocks of a BFS. -/
def Geo.nb (e : Geo) : Nat := e.cols / e.k
/-- The end of the Loft range from an offset. -/
def Geo.loftEnd (e : Geo) (off : Nat) : Nat := off + ceilDiv e.cols 128 * e.rs
/-- Metadata words of MODE 01. -/
def Geo.metaWords (e : Geo) : Nat := e.cols * e.g * e.k / 32

/-- The fields of the sparsity pair's word (R242). -/
def sparseOk (z : Word) : Bool :=
  wfld z 62 2 != 3 && wfld z 22 40 = 0 && (if wfld z 62 2 = 1 then wfld z 0 22 % 4 = 0 else wfld z 0 22 = 0)

/-- The metadata table's footprint range. -/
def Geo.metaHull (e : Geo) (z : Word) : Nat × Nat := (wfld z 0 22, wfld z 0 22 + 4 * e.metaWords - 1)

def hullUnion (x y : Nat × Nat) : Nat × Nat := (min x.1 y.1, max x.2 y.2)

/-! ### Issue of BFS (R248 to R250, R366) -/

/-- The X tile of a stage. -/
def xTile (w : Word) (ty : ElemTy) (bfs t : Bool) (cols rows : Nat) : Tile :=
  let c := if bfs then cols else 512 / ty.width
  if t then tileOf w c (rows * ty.width / 8) else tileOf w rows (c * ty.width / 8)

def yTile (w : Word) (ty : ElemTy) (cols rows : Nat) : Tile := tileOf w rows (cols * ty.width / 8)

/-- Columns of an N code. -/
def colsOf (n : Fin 64) : Nat := 16 * n.val
/-- The roles that read an X tile, and those that write a Y tile (R236). -/
def readsX (a : BfsArgs) : Bool := a.role.val < 2
def writesY (a : BfsArgs) : Bool := a.role.val = 0 || a.role.val = 3

/-- The bank format named by a descriptor. -/
def State.descTy (s : State) (w : Word) : ElemTy := s.bankTy (wfld w 14 8)

/-- The Loft word of a stage, where its range lies in the Loft (R234). -/
def Geo.loftFoot (e : Geo) (off : Nat) : List (Option Word) := Machine.loftFoot 1 0 (min 127 (e.cols - 1)) off (e.loftEnd off - 1)

/-- The word of a tile's hull. -/
def Tile.foot (t : Tile) (acc : Nat) : Option Word := spFoot acc t.hull.1 t.hull.2

/-- The rows of a stage's X tile that the array accesses together whatever the stride is (R232). -/
def nearRows (t : Bool) (k rows : Nat) : Nat := if t then k else rows

/-- The checks of a Loft descriptor at issue (R234). -/
def loftCheck (w : Word) (e : Geo) : Check Unit := do
  need (wfld w 16 48 = 0)
  if 0x10000 < e.loftEnd (wfld w 0 16) then outside (loftInfo 0 0x10000) else pure ()

/-- The checks of the sparsity pair at issue, its table's extent included (R242). -/
def metaCheck (z : Word) (e : Geo) : Check Unit := do
  need (sparseOk z && (e.mode = 0 || e.k != 16))
  if e.mode = 1 && 0x400000 ≤ (e.metaHull z).2 then outside 0x400000 else pure ()

/-- A BFS in role none or .CB. Operands: gX, gY, gW and the sparsity pair. -/
def State.prepBfsX (s : State) (a : BfsArgs) (ops : List Word) : Judged :=
  let x := ops.getD 0 0
  let y := ops.getD 1 0
  let w := ops.getD 2 0
  let z := ops.getD 3 0
  let ty := s.descTy x
  let yty := s.descTy y
  let e : Geo := ⟨ty, 2, (colsOf a.n), (rowsOf a.m.val), wfld z 62 2⟩
  let xt := xTile x ty true a.t (colsOf a.n) (rowsOf a.m.val)
  let yt := yTile y yty (colsOf a.n) (rowsOf a.m.val)
  let r := if e.mode = 1 then hullUnion xt.hull (e.metaHull z) else xt.hull
  let b8 := a.role.val = 1
  let b9 := scaledTy ty
  let k := if b8 || b9 then [some (footAcc (if b9 then 3 else 2) (Bool.bit b8 * 2 ^ 8 + Bool.bit b9 * 2 ^ 9))] else []
  let foot := spFoot 1 r.1 r.2 :: ((if writesY a then [yt.foot 2] else []) ++ e.loftFoot (wfld w 0 16) ++ k)
  judge ops foot [ty, yty] (s.mode a.rm) do
    s.tileCheck x xt (nearRows a.t e.k xt.rows) (some tileTypes)
    if writesY a then s.tileCheck y yt yt.rows (some tileTypes) else pure ()
    loftCheck w e
    metaCheck z e
    need ((a.role.val != 0 || a.rm != .sr) && (colsOf a.n) % e.k = 0 && !(writesY a && hullMeets xt.hull yt.hull) &&
      (!scaledTy ty || (rowsOf a.m.val) * e.nb ≤ 256))

/-- A BFS in role .CC or .CE: what does not depend on the chain's format is checked, and the footprint is the widest (R366). -/
def State.prepBfsC (s : State) (a : BfsArgs) (ops : List Word) : Judged :=
  let y := ops.getD 1 0
  let w := ops.getD 2 0
  let z := ops.getD 3 0
  let yty := s.descTy y
  let yt := yTile y yty (colsOf a.n) (rowsOf a.m.val)
  let mt := wfld z 0 22
  let foot := (if wfld z 62 2 = 1 then [spFoot 1 mt (min 0x3FFFFF (mt + 512 * a.n.val - 1))] else []) ++
    (if writesY a then [yt.foot 2] else []) ++
    [some (footLoft 1 0 (min 127 ((colsOf a.n) - 1)) (wfld w 0 16) 0xFFFF), some (footAcc (if a.role.val = 2 then 3 else 1) (2 ^ 8))]
  judge ops foot [.fp32, yty] (s.mode a.rm) do
    if writesY a then s.tileCheck y yt yt.rows (some tileTypes) else pure ()
    need (wfld w 16 48 = 0 && sparseOk z && (a.role.val != 3 || a.rm != .sr))

def State.prepBfs (s : State) (a : BfsArgs) (ops : List Word) : Judged :=
  if readsX a then s.prepBfsX a ops else s.prepBfsC a ops

/-- The checks of BFA at issue (R252). Operands: gX, gY, 0 and the sparsity pair. -/
def State.prepBfa (s : State) (a : BfaArgs) (ops : List Word) : Judged :=
  let x := ops.getD 0 0
  let w := ops.getD 1 0
  let z := ops.getD 3 0
  let ty := s.descTy x
  let e : Geo := ⟨ty, 1, (colsOf a.n), (rowsOf a.m.val), wfld z 62 2⟩
  let xt := xTile x ty false a.t (colsOf a.n) (rowsOf a.m.val)
  let r := if e.mode = 1 then hullUnion xt.hull (e.metaHull z) else xt.hull
  let k := some (footAcc 3 (2 ^ a.acc.val + Bool.bit (scaledTy ty) * 2 ^ 9))
  judge ops (spFoot 1 r.1 r.2 :: (e.loftFoot (wfld w 0 16) ++ [k])) [ty] .rne do
    s.tileCheck x xt xt.rows (some tileTypes)
    loftCheck w e
    metaCheck z e
    need ((colsOf a.n) ≤ 256)

/-- The sparsity pair: g0 makes W dense, and the SEED is read in MODE 10 only (R242). -/
def State.sparsePair (s : State) (z : GReg) (k : List Word → State → Out) : Out :=
  if z = 0 then k [0, 0] s
  else
    s.aIssue [z] [] fun s =>
      if wfld (s.g z) 62 2 = 2 then s.aIssue [pairOf z] [] fun s => k [s.g z, s.g (pairOf z)] s
      else k [s.g z, 0] s

/-- The g registers and the values of a stage's operands. -/
def State.bfsOps (s : State) (a : BfsArgs) (k : List Word → State → Out) : Out :=
  s.aIssue [a.e.x, a.e.y, a.e.w] [] fun s => s.sparsePair a.e.z fun z s => k ([s.g a.e.x, s.g a.e.y, s.g a.e.w] ++ z) s

def State.bfaOps (s : State) (a : BfaArgs) (k : List Word → State → Out) : Out :=
  s.aIssue [a.x, a.y] [] fun s => s.sparsePair a.z fun z s => k ([s.g a.x, s.g a.y, 0] ++ z) s

/-- Butterfly-class commands name no vault (R327). -/
def noVault (_ : EngCmd) : Bool := false

def execBfs (a : BfsArgs) (s : State) : Out :=
  s.bfsOps a fun ops s => s.issueCmd 2 (.bfs a) a.e.hk noVault fun s => s.prepBfs a ops

def execBfa (a : BfaArgs) (s : State) : Out :=
  s.bfaOps a fun ops s => s.issueCmd 2 (.bfa a) a.hk noVault fun s => s.prepBfa a ops

/-! ### COPY with F (R215) -/

/-- The group hands both commands over in one step: the COPY is checked first, then the matrix command. -/
def State.issueGroup (s : State) (c : ECmd) (b : Instr) (hk : Hatching) (prepB : State → Judged) : Out :=
  let side := s.core.fe.handler && (c.hk.push.isSome || c.hk.pop.isSome)
  let x := (s.prepCopy (s.copyOps c) true).and (need (!s.hatchBad 0 c.hk && !side))
  let y := (prepB s).and (need (!s.hatchBad 2 hk))
  let full := !s.engRoom 0 || !s.engRoom 2
  if full && !s.core.fe.handler then .next s.wait
  else
    match x.check, y.check with
    | .error (k, info), _ => s.eTrap k info x.foot
    | _, .error (k, info) => s.eTrap k info y.foot
    | .ok p, .ok q =>
      if full then .next s.wait
      else
        let m := s.mkCmd (.copyF c) c.hk p false
        done ((s.handOver 0 m (s.copyVault m)).handOver 2 (s.mkCmd b hk q true) false)

/-- A COPY with F, with the BFS or BFA that it governs. -/
def execCopyF (c : ECmd) (s : State) : Out :=
  s.aIssue (copyRegs c) [] fun s =>
    match s.core.fe.cur.follow with
    | some (.bfs a) => s.bfsOps a fun ops s => s.issueGroup c (.bfs a) a.e.hk fun s => s.prepBfs a ops
    | some (.bfa a) => s.bfaOps a fun ops s => s.issueGroup c (.bfa a) a.hk fun s => s.prepBfa a ops
    | _ => s.aTrapFree .illegal

/-! ### Engine causes of a stage (R367) -/

/-- An engine cause with its TRAP.INFO. -/
abbrev Eff (α : Type) := Except (Cause × Word) α

def effNeed (b : Bool) (c : Cause) (info : Nat) : Eff Unit := if b then .ok () else .error (c, BitVec.ofNat 64 info)

/-- The pairs of indices of the generator (R243). -/
def genPairs : Nat → Nat → List (Nat × Nat)
  | 0, _ => []
  | n + 1, z =>
    let z := Nat.xor z (z * 2 ^ 13) % 2 ^ 64
    let z := Nat.xor z (z / 2 ^ 7)
    let z := Nat.xor z (z * 2 ^ 17) % 2 ^ 64
    let c := z / 2 ^ 32 * 6 / 2 ^ 32
    [(0, 1), (0, 2), (0, 3), (1, 2), (1, 3), (2, 3)].getD c (0, 1) :: genPairs n z

/-- The generator from a seed. -/
def genFrom (seed n : Nat) : List (Nat × Nat) := genPairs n (if seed = 0 then 0x9E3779B97F4A7C15 else seed)

/-- Group g of metadata words (R242): index0 and index1. -/
def State.metaPair (s : State) (base g : Nat) : Nat × Nat :=
  let b := s.core.mems.sp.le (base + g / 2) 1 / 2 ^ (4 * (g % 2))
  (b % 4, b / 4 % 4)

/-- The first illegal group of n from g on (R242). -/
def State.badGroup (s : State) (base : Nat) : Nat → Nat → Option Nat
  | 0, _ => none
  | n + 1, g => let p := s.metaPair base g; if p.2 ≤ p.1 then some g else State.badGroup s base n (g + 1)

def State.metaEff (s : State) (e : Geo) (z : Word) : Eff Unit :=
  if e.mode = 1 then
    match s.badGroup (wfld z 0 22) (8 * e.metaWords) 0 with
    | some g => .error (.sparseMeta, BitVec.ofNat 64 (g / 8 + g % 8 * 2 ^ 32))
    | none => .ok ()
  else .ok ()

/-- The bank conflicts of groups of rows: the lowest pair of the whole command (R232, R367). -/
def pairMin (x y : Option (Nat × Nat)) : Option (Nat × Nat) :=
  match x, y with
  | none, y => y
  | x, none => x
  | some a, some b => if a.1 < b.1 || (a.1 == b.1 && a.2 ≤ b.2) then some a else some b

def bankEff (l : List (Tile × List Nat)) : Eff Unit :=
  match (l.map fun p => bankPair p.1 p.2).foldl pairMin none with
  | some (r, q) => .error (.bankConflict, BitVec.ofNat 64 (r + q * 2 ^ 16))
  | none => .ok ()

/-- The lower blocks of the pairs (R233). -/
def lowers (nb s : Nat) : List Nat := (List.range nb).filter fun b => b / s % 2 = 0

/-- The geometry of a started BFS: by the X tile, or by the chain (R366). -/
def State.bfsGeo (s : State) (a : BfsArgs) (c : EngCmd) : Geo :=
  ⟨if readsX a then c.fmts.getD 0 .fp32 else s.core.link.fmt, 2, (colsOf a.n), (rowsOf a.m.val), wfld (c.ops.getD 3 0) 62 2⟩

/-- The stride that a BFS reads when it starts (R233). -/
def State.bfsStride (s : State) (a : BfsArgs) : Nat := wfld s.core.sys.sd[a.sd] 0 16

def isPow2 (n : Nat) : Bool := n != 0 && 2 ^ Nat.log2 n == n

/-- The first four checks of R367 for a BFS. -/
def State.bfsStart (s : State) (a : BfsArgs) (c : EngCmd) : Eff Unit := do
  let h := s.core.link
  let z := c.ops.getD 3 0
  let e := s.bfsGeo a c
  effNeed (if readsX a then !h.isOpen else h.isOpen && h.n == a.n.val && h.m == a.m.val) .illegalOperand 1
  if readsX a then pure ()
  else
    let off := wfld (c.ops.getD 2 0) 0 16
    effNeed ((colsOf a.n) % e.k = 0) .illegalOperand 1
    effNeed (e.loftEnd off ≤ 0x10000) .bounds (loftInfo 0 0x10000).toNat
    effNeed (e.mode = 0 || e.k != 16) .illegalOperand 1
    effNeed (e.mode != 1 || (e.metaHull z).2 < 0x400000) .bounds 0x400000
  let st := s.bfsStride a
  effNeed (isPow2 st && e.nb % (2 * st) = 0) .illegalOperand 0
  let xs : List (Tile × List Nat) :=
    if !(readsX a) then []
    else
      let t := xTile (c.ops.getD 0 0) e.ty true a.t (colsOf a.n) (rowsOf a.m.val)
      if a.t then (lowers e.nb st).map fun j =>
        (t, (List.range e.k).map (j * e.k + ·) ++ (List.range e.k).map ((j + st) * e.k + ·))
      else [(t, List.range (rowsOf a.m.val))]
  let ys : List (Tile × List Nat) :=
    if writesY a then [(yTile (c.ops.getD 1 0) (c.fmts.getD 1 .fp32) (colsOf a.n) (rowsOf a.m.val), List.range (rowsOf a.m.val))] else []
  bankEff (xs ++ ys)
  s.metaEff e z

def bfaGeo (a : BfaArgs) (c : EngCmd) : Geo := ⟨c.fmts.getD 0 .fp32, 1, (colsOf a.n), (rowsOf a.m.val), wfld (c.ops.getD 3 0) 62 2⟩

def State.bfaStart (s : State) (a : BfaArgs) (c : EngCmd) : Eff Unit := do
  let e := bfaGeo a c
  let t := xTile (c.ops.getD 0 0) e.ty false a.t (colsOf a.n) (rowsOf a.m.val)
  bankEff [(t, List.range (if a.t then e.k else (rowsOf a.m.val)))]
  s.metaEff e (c.ops.getD 3 0)

/-! ### Scales (R240, R241) -/

/-- What the queue holds for a command. -/
inductive Scales where
  | wait
  | short (have' : Nat)
  | ok (l : List Nat)

/-- The first n scales, when the LDSCs before the command have brought them (R241). -/
def State.scalesFor (s : State) (n seq : Nat) : Scales :=
  let mine := s.core.qs.scale.filter fun e => e.seq < seq
  let front := mine.takeWhile (·.val.isSome)
  if n ≤ front.length then .ok ((front.take n).map fun e => (e.val.getD 0).toNat)
  else if mine.any (·.val.isNone) then .wait
  else .short mine.length

/-- The scales that a stage takes (R240). -/
def Geo.takes (e : Geo) (fromTile : Bool) : Nat :=
  if fromTile && scaledTy e.ty then e.rows * (if e.g = 2 then e.nb else 1) else 0

/-- A queue scale with exponent 255 (R241). -/
def badScale (l : List Nat) : Option Nat := (List.range l.length).find? fun i => s16Bad (l.getD i 0)

/-! ### Operands of a stage -/

/-- The Loft bytes of segment h of column o (R234). -/
def State.segBytes (s : State) (e : Geo) (off o h : Nat) : Nat :=
  s.core.mems.loft.le (loftAt (o % 128) (off + o / 128 * e.rs + h * e.sb)) e.sb

/-- The scale pattern behind the weights of a segment. -/
def Geo.segScale (e : Geo) (x : Nat) : Nat := fld x (e.kv * e.ty.width) 16

/-- The indices of group g of segment h of column o (R242, R243). -/
def State.pairOf (s : State) (e : Geo) (z : Word) (gen : List (Nat × Nat)) (o h g : Nat) : Nat × Nat :=
  let i := (o * e.g + h) * (e.k / 4) + g
  if e.mode = 1 then s.metaPair (wfld z 0 22) i else gen.getD i (0, 1)

/-- The K weights of a segment, zeros where sparsity leaves them out (R242). -/
def State.segWeights (s : State) (e : Geo) (z : Word) (gen : List (Nat × Nat)) (o h x : Nat) : List Val :=
  let at' (i : Nat) : Val := decodeElem e.ty (lane e.ty.width x i)
  if e.mode = 0 then (List.range e.k).map at'
  else (List.range (e.k / 4)).flatMap fun g =>
    let p := s.pairOf e z gen o h g
    (List.range 4).map fun j => if j = p.1 then at' (2 * g) else if j = p.2 then at' (2 * g + 1) else .num Ex.zero

/-- A segment: its scale and its weights. -/
abbrev Seg := Val × List Val

/-- The segments of every column, or the first Loft scale with exponent 255 (R241, R367). -/
def State.segsFrom (s : State) (e : Geo) (off : Nat) (z : Word) (gen : List (Nat × Nat)) : Nat → Nat → Eff (List Seg)
  | 0, _ => .ok []
  | n + 1, i =>
    let o := i / e.g
    let h := i % e.g
    let x := s.segBytes e off o h
    let sc := e.segScale x
    if scaledTy e.ty && s16Bad sc then .error (.scaleInvalid, BitVec.ofNat 64 (o + 2 ^ 16 + h * 2 ^ 17))
    else
      let w : Val := if scaledTy e.ty then .num (s16Val sc) else .num oneEx
      match State.segsFrom s e off z gen n (i + 1) with
      | .ok l => .ok ((w, s.segWeights e z gen o h x) :: l)
      | .error f => .error f

/-- The weights of a stage. -/
def State.segs (s : State) (e : Geo) (w z seed : Word) : Eff (List Seg) :=
  let gen := if e.mode = 2 then genFrom seed.toNat (e.cols * e.g * (e.k / 4)) else []
  s.segsFrom e (wfld w 0 16) z gen (e.cols * e.g) 0

/-- Row m of X, c elements (R233). -/
def State.xRow (s : State) (t : Tile) (ty : ElemTy) (tr : Bool) (c m : Nat) : List Val :=
  if tr then (List.range c).map fun i => decodeElem ty (fld (s.tileRow t i) (m * ty.width) ty.width)
  else let x := s.tileRow t m; (List.range c).map fun i => decodeElem ty (lane ty.width x i)

/-- The address of chain-buffer element (m, o). -/
def chainAt (m o : Nat) : Nat := 4032 * m + 4 * o

def State.chainRow (s : State) (c m : Nat) : List Val :=
  let x := s.core.mems.chain.le (chainAt m 0) (4 * c)
  (List.range c).map fun i => decodeElem .fp32 (lane 32 x i)

/-- A product in which 0·∞ and NaN give NaN. -/
def Val.times (a b : Val) : Val := if badProduct a b then .nan false else a.mul b

/-- The products of one segment with its block. -/
def segTerms (g : Seg) (xs : Val) (x : List Val) : List Val := (g.2.zip x).map fun p => ((p.1.times g.1).times p.2).times xs

/-- The sum of terms (R235): NaN, an infinity, or the exact sum. -/
def stageSum (l : List Val) : Val :=
  let pos := l.any fun v => match v with | .inf n => !n | _ => false
  let neg := l.any fun v => match v with | .inf n => n | _ => false
  if l.any Val.isNan || (pos && neg) then .nan false
  else if pos then .inf false
  else if neg then .inf true
  else .num (l.foldl (fun a v => match v with | .num x => a.add x | _ => a) Ex.zero)

/-- A written element: a zero result is +0 (R59). -/
def stageBits (t : ElemTy) (rm : RM) (v : Val) : Nat :=
  match v with
  | .num x => let r := (roundEx t rm false 0 0 x false).bits; if r == zeroBits t true then zeroBits t false else r
  | v => (convert t rm false 0 0 v).bits

/-- The scale of row m in block t (R240). -/
def scaleOf (xs : List Nat) (rows m t : Nat) : Val :=
  match xs[t * rows + m]? with
  | some x => .num (s16Val x)
  | none => .num oneEx

/-! ### Effects -/

/-- The output rows of a BFS, each packed (R235). -/
def bfsRows (e : Geo) (st : Nat) (xs : List Nat) (segs : List Seg) (x : Nat → List Val) (yty : ElemTy) (rm : RM) : List Nat :=
  (List.range e.rows).map fun m =>
    let row := x m
    pack yty.width ((List.range e.cols).map fun o =>
      let b := o / e.k
      let j := if b / st % 2 = 0 then b else b - st
      let half (h : Nat) : List Val :=
        let t := j + h * st
        segTerms (segs.getD (2 * o + h) (.num oneEx, [])) (scaleOf xs e.rows m t) ((row.drop (t * e.k)).take e.k)
      stageBits yty rm (stageSum (half 0 ++ half 1)))

/-- Write packed rows of a tile. -/
def State.putRows (s : State) (t : Tile) (rows : List Nat) : State :=
  (rows.zip (List.range rows.length)).foldl
    (fun s r => s.mems fun m => { m with sp := m.sp.write (t.row r.2) (leBytes t.len r.1) }) s

/-- Write packed rows of the chain buffer. -/
def State.putChain (s : State) (cols : Nat) (rows : List Nat) : State :=
  (rows.zip (List.range rows.length)).foldl
    (fun s r => s.mems fun m => { m with chain := m.chain.write (chainAt r.2 0) (leBytes (4 * cols) r.1) }) s

/-- The first n entries that precede a place in program order leave a scale queue. -/
def takeOut (seq : Nat) : Nat → List ScaleEntry → List ScaleEntry
  | _, [] => []
  | 0, l => l
  | n + 1, e :: es => if e.seq < seq then takeOut seq n es else e :: takeOut seq (n + 1) es

/-- The scales that a command has read leave the queue at its completion (R241). -/
def State.dropScales (s : State) (n seq : Nat) : State := s.qs fun u => { u with scale := takeOut seq n u.scale }

def closed : Chain := ⟨false, .i4, 0, 0⟩

/-- A BFS runs to its completion (R235, R236). -/
def State.bfsFinish (s : State) (a : BfsArgs) (c : EngCmd) (xs : List Nat) : Eff State := do
  let e := s.bfsGeo a c
  match badScale xs with
  | some i => .error (.scaleInvalid, BitVec.ofNat 64 i)
  | none => pure ()
  let segs ← s.segs e (c.ops.getD 2 0) (c.ops.getD 3 0) (c.ops.getD 4 0)
  let x (m : Nat) : List Val :=
    if readsX a then s.xRow (xTile (c.ops.getD 0 0) e.ty true a.t (colsOf a.n) (rowsOf a.m.val)) e.ty a.t (colsOf a.n) m else s.chainRow (colsOf a.n) m
  let yty := c.fmts.getD 1 .fp32
  let st := s.bfsStride a
  let s' := s.dropScales xs.length c.seq
  if writesY a then
    let s' := s'.putRows (yTile (c.ops.getD 1 0) yty (colsOf a.n) (rowsOf a.m.val)) (bfsRows e st xs segs x yty c.rm)
    pure (if a.role.val = 3 then s'.withCore { s'.core with link := closed } else s')
  else
    let s' := s'.putChain (colsOf a.n) (bfsRows e st xs segs x .fp32 .rto)
    pure (s'.withCore { s'.core with link := ⟨true, e.ty, a.n.val, a.m.val⟩ })

/-! ### The accumulator (R47, R237) -/

/-- The place of element (m, o) of a tile. -/
def accAt (tile m o : Nat) : Nat := tile * 131072 + (m * 256 + o) * 8

/-- A and E of a raw image. -/
def xaA (x : Nat) : Int := sint 48 (fld x 16 48)
def xaE (x : Nat) : Int := sint 16 (fld x 0 16)
def xaImage (a e : Int) : Nat := wrap 48 a * 2 ^ 16 + wrap 16 e
/-- The value A·2^(E − 31). -/
def xaVal (a e : Int) : Ex := ⟨a < 0, a.natAbs, 1, e - 31⟩

def State.acc (s : State) (tile m o : Nat) : Nat := s.core.mems.acc.le (accAt tile m o) 8
def State.setAcc (s : State) (tile m o x : Nat) : State := s.mems fun k => { k with acc := k.acc.putLe (accAt tile m o) 8 x }

/-- The elements of a region in row-major order. -/
def region (rows cols : Nat) : List (Nat × Nat) := (List.range rows).flatMap fun m => (List.range cols).map fun o => (m, o)

/-- Images for a region's elements, or the first cause (R367 step 7). -/
def accEach (f : Nat × Nat → Eff Nat) : List (Nat × Nat) → Eff (List (Nat × Nat × Nat))
  | [] => .ok []
  | p :: ps =>
    match f p with
    | .error e => .error e
    | .ok x => match accEach f ps with
      | .ok l => .ok ((p.1, p.2, x) :: l)
      | .error e => .error e

def State.putAcc (s : State) (tile : Nat) (l : List (Nat × Nat × Nat)) : State := l.foldl (fun s p => s.setAcc tile p.1 p.2.1 p.2.2) s

/-- A position in a tile as TRAP.INFO gives it. -/
def posInfo (p : Nat × Nat) : Word := BitVec.ofNat 64 (p.1 + p.2 * 2 ^ 16)

/-- The new image of one element (R237, R238). -/
def bfaElem (old : Nat) (terms : List Val) (p : Nat × Nat) : Eff Nat :=
  match stageSum terms with
  | .num v =>
    let a := xaA old + alignEx v (xaE old - 31)
    if a < -(2 ^ 47) || 2 ^ 47 ≤ a then .error (.headroom, posInfo p) else .ok (xaImage a (xaE old))
  | _ => .error (.illegalOperand, posInfo p)

/-! ### What a stage reads (R228, R360) -/

/-- The words of a tile's rows. -/
def Tile.reads (t : Tile) : List (Nat × Nat × Nat) := (List.range t.rows).map fun r => (0, t.row r, t.len)

/-- The words of a region of an accumulator tile; level 4 holds the tiles from address 0 on (notes/assumptions/107.md). -/
def accReads (tile rows cols : Nat) : List (Nat × Nat × Nat) := (List.range rows).map fun m => (4, accAt tile m 0, 8 * cols)

/-- The words of rows of the chain buffer, which level 4 holds behind the tiles. -/
def chainReads (rows cols : Nat) : List (Nat × Nat × Nat) := (List.range rows).map fun m => (4, 2 ^ 20 + chainAt m 0, 4 * cols)

/-- The Loft words of a stage's weights and scales. -/
def Geo.loftReads (e : Geo) (off : Nat) : List (Nat × Nat × Nat) :=
  (List.range (e.cols * e.g)).map fun i => (2, loftAt (i / e.g % 128) (off + i / e.g / 128 * e.rs + i % e.g * e.sb), e.sb)

/-- The metadata words of a stage. -/
def Geo.metaReads (e : Geo) (z : Word) : List (Nat × Nat × Nat) := if e.mode = 1 then [(0, wfld z 0 22, 4 * e.metaWords)] else []

/-- The storage of the scale queue, for a stage that takes scales. -/
def Geo.scaleReads (e : Geo) (fromTile : Bool) : List (Nat × Nat × Nat) := if e.takes fromTile = 0 then [] else [(5, 64, 8)]

/-- A BFA runs to its completion (R237, R238, R252). -/
def State.bfaFinish (s : State) (a : BfaArgs) (c : EngCmd) (xs : List Nat) : Eff State := do
  let e := bfaGeo a c
  match badScale xs with
  | some i => .error (.scaleInvalid, BitVec.ofNat 64 i)
  | none => pure ()
  let segs ← s.segs e (c.ops.getD 1 0) (c.ops.getD 3 0) (c.ops.getD 4 0)
  let t := xTile (c.ops.getD 0 0) e.ty false a.t (colsOf a.n) (rowsOf a.m.val)
  let rows := (List.range (rowsOf a.m.val)).map fun m => s.xRow t e.ty a.t e.k m
  let l ← accEach (fun p => bfaElem (s.acc a.acc.val p.1 p.2)
    (segTerms (segs.getD p.2 (.num oneEx, [])) (scaleOf xs (rowsOf a.m.val) p.1 0) (rows.getD p.1 [])) p) (region (rowsOf a.m.val) (colsOf a.n))
  pure ((s.dropScales xs.length c.seq).putAcc a.acc.val l)

end Sys2Proof.Machine
end

