-- ==== Sys2Proof/Machine/Accum.lean ====
section
/-! DEFINITION. The other commands of the butterfly class and the butterfly queue (R229, R244, R254 to R266). -/

namespace Sys2Proof.Machine

/-- Access of one accumulator tile (R230). -/
def tileFoot (code : Nat) (acc : Fin 8) : Word := footAcc code (2 ^ acc.val)

/-! ### ACLR and ANORM (R254, R255) -/

def accTile (tile : Nat) (img : Nat) (m : Memory) : Memory :=
  if img = 0 then m.clear (accAt tile 0 0) 131072
  else m.write (accAt tile 0 0) ((List.range 16384).flatMap fun _ => leBytes 8 img)

def prepGrid (x : Word) (code : Nat) (acc : Fin 8) : Judged :=
  judge [x] [some (tileFoot code acc)] [] .rne (need (-32768 ≤ x.toInt && x.toInt ≤ 32767))

def execAclr (x : GReg) (acc : Fin 8) (hk : Hatching) (s : State) : Out :=
  s.aIssue [x] [] fun s => s.issueCmd 2 (.aclr x acc hk) hk noVault fun s => prepGrid (s.g x) 2 acc

def execAnorm (x : GReg) (acc : Fin 8) (hk : Hatching) (s : State) : Out :=
  s.aIssue [x] [] fun s => s.issueCmd 2 (.anorm x acc hk) hk noVault fun s => prepGrid (s.g x) 3 acc

def State.aclrFinish (s : State) (acc : Nat) (e : Int) : State :=
  s.mems fun m => { m with acc := accTile acc (xaImage 0 e) m.acc }

/-- One element with floor exponent f (R255). -/
def normElem (f : Int) (old : Nat) (p : Nat × Nat) : Eff Nat :=
  let v := xaVal (xaA old) (xaE old)
  let e := if v.num = 0 then f else max f v.mag.k
  if 32767 < e then .error (.illegalOperand, posInfo p) else .ok (xaImage (alignEx v (e - 31)) e)

def State.anormFinish (s : State) (acc : Nat) (f : Int) : Eff State :=
  (accEach (fun p => normElem f (s.acc acc p.1 p.2) p) (region 64 256)).map (s.putAcc acc)

/-! ### ADRAIN and ALOAD (R256 to R258) -/

/-- The destination of ADRAIN, its element type by the bank of row 0. -/
def drainTile (a : AdrainArgs) (y : Word) (ty : ElemTy) : Tile :=
  tileOf y (rowsOf a.m.val) (colsOf a.n * (if a.raw then 64 else ty.width) / 8)

def State.prepAdrain (s : State) (a : AdrainArgs) (y : Word) : Judged :=
  let ty := s.descTy y
  let t := drainTile a y ty
  judge [y] [some (tileFoot 1 a.acc), t.foot 2] [ty] (s.mode a.rm) do
    s.tileCheck y t 0 (if a.raw then none else some (.i32 :: tileTypes))
    need (colsOf a.n ≤ 256 && (a.raw || a.rm != .sr))

def execAdrain (a : AdrainArgs) (s : State) : Out :=
  s.aIssue [a.y] [] fun s => s.issueCmd 2 (.adrain a) a.hk noVault fun s => s.prepAdrain a (s.g a.y)

/-- One drained element (R257). -/
def drainElem (ty : ElemTy) (rm : RM) (sat : Bool) (x : Nat) : Nat :=
  let v := xaVal (xaA x) (xaE x)
  if ty == .i32 then (convert .i32 rm true 0 0 (.num v)).bits
  else let r := (roundEx ty rm sat 0 0 v false).bits; if r == zeroBits ty true then zeroBits ty false else r

def State.adrainFinish (s : State) (a : AdrainArgs) (c : EngCmd) : State :=
  let ty := c.fmts.getD 0 .fp32
  let t := drainTile a (c.ops.getD 0 0) ty
  s.putRows t ((List.range t.rows).map fun m =>
    pack (if a.raw then 64 else ty.width) ((List.range (colsOf a.n)).map fun o =>
      let x := s.acc a.acc.val m o
      if a.raw then x else drainElem ty c.rm a.sat x))

def loadTile (n : Fin 64) (m : Fin 4) (x : Word) : Tile := tileOf x (rowsOf m.val) (colsOf n * 8)

def State.prepAload (s : State) (n : Fin 64) (m : Fin 4) (acc : Fin 8) (x : Word) : Judged :=
  let t := loadTile n m x
  judge [x] [t.foot 1, some (tileFoot 2 acc)] [] .rne do
    s.tileCheck x t 0 none
    need (colsOf n ≤ 256)

def execAload (x : GReg) (n : Fin 64) (m : Fin 4) (acc : Fin 8) (hk : Hatching) (s : State) : Out :=
  s.aIssue [x] [] fun s => s.issueCmd 2 (.aload x n m acc hk) hk noVault fun s => s.prepAload n m acc (s.g x)

def State.aloadFinish (s : State) (n : Fin 64) (m : Fin 4) (acc : Nat) (x : Word) : State :=
  let t := loadTile n m x
  s.putAcc acc ((region t.rows (colsOf n)).map fun p => (p.1, p.2, lane 64 (s.tileRow t p.1) p.2))

/-! ### SDSET (R259) -/

def execSdset (x : GReg) (sd : Fin 8) (hk : Hatching) (s : State) : Out :=
  s.aIssue [x] [] fun s =>
    s.issueCmd 2 (.sdset x sd hk) hk noVault fun s => judge [s.g x] [] [] .rne (need (wfld (s.g x) 16 48 = 0))

def State.sdsetFinish (s : State) (sd : Fin 8) (x : Word) : State := s.sys fun y => { y with sd := y.sd.set sd.val x }

/-! ### CHDRAIN and CHLOAD (R260, R261) -/

def chainBytes : Nat := 258112
/-- The bytes of the buffer: 64 rows of 1,008 FP32 elements. -/
def chainBuf : Nat := 258048

/-- An image at an address of the scratchpad (R261, R263). -/
def imageCheck (a : Word) (n : Nat) : Check Unit := do
  need (a.toNat % 64 = 0)
  if 0x400000 < a.toNat + n then outside (BitVec.ofNat 64 (max a.toNat 0x400000)) else pure ()

def imageFoot (code : Nat) (a : Word) (n : Nat) : Option Word := spFoot code a.toNat (a.toNat + n - 1)

/-- A command that moves an image between the scratchpad and what a KIND 11 word names. -/
def prepImage (a : Word) (n code kcode bits : Nat) : Judged := judge [a] [imageFoot code a n, some (footAcc kcode bits)] [] .rne (imageCheck a n)

/-- The state word of a chain image (R260). -/
def chainWord (h : Chain) : Nat := if h.isOpen then 2 ^ 15 + h.fmt.code * 2 ^ 11 + h.m * 2 ^ 6 + h.n else 0

def execChdrain (y : GReg) (hk : Hatching) (s : State) : Out :=
  s.aIssue [y] [] fun s =>
    s.issueCmd 2 (.chdrain y hk) hk noVault fun s => prepImage (s.g y) chainBytes 2 1 (2 ^ 8)

def execChload (x : GReg) (hk : Hatching) (s : State) : Out :=
  s.aIssue [x] [] fun s =>
    s.issueCmd 2 (.chload x hk) hk noVault fun s => prepImage (s.g x) chainBytes 1 2 (2 ^ 8)

def State.chdrainFinish (s : State) (a : Nat) : State :=
  s.mems fun m =>
    { m with sp := ((m.sp.clear a 64).putLe a 8 (chainWord s.core.link)).copyIn m.chain 0 chainBuf (a + 64) }

def State.chloadFinish (s : State) (a : Nat) : Eff State :=
  let w := s.core.mems.sp.le a 64
  let isOpen := bitAt w 15
  let fmt := ElemTy.ofCode (fld w 11 4)
  if w / 2 ^ 16 != 0 || fld w 8 3 != 0 || (isOpen && (!tileTypes.contains fmt || fld w 0 6 = 0 || fld w 6 2 = 3)) then
    .error (.illegalOperand, 2)
  else
    let s := s.mems fun m => { m with chain := m.chain.copyIn m.sp (a + 64) chainBuf 0 }
    .ok (s.withCore { s.core with link := if isOpen then ⟨true, fmt, fld w 0 6, fld w 6 2⟩ else closed })

/-! ### SCDRAIN, SCLOAD and SCCLR (R262, R263) -/

def scaleBytes : Nat := 576

def execScdrain (y : GReg) (hk : Hatching) (s : State) : Out :=
  s.aIssue [y] [] fun s =>
    s.issueCmd 2 (.scdrain y hk) hk noVault fun s => prepImage (s.g y) scaleBytes 2 3 (2 ^ 9)

def execScload (x : GReg) (hk : Hatching) (s : State) : Out :=
  s.aIssue [x] [] fun s =>
    s.issueCmd 2 (.scload x hk) hk noVault fun s => prepImage (s.g x) scaleBytes 1 3 (2 ^ 9)

def execScclr (hk : Hatching) (s : State) : Out :=
  s.aIssue [] [] fun s => s.issueCmd 2 (.scclr hk) hk noVault fun _ => judge [] [some (footAcc 3 (2 ^ 9))] [] .rne (.ok ())

/-- The entries that precede a command in program order (R262). -/
def State.scalesBefore (s : State) (seq : Nat) : List ScaleEntry := s.core.qs.scale.filter fun e => e.seq < seq

/-- An LDSC before a command has not brought its last scale. -/
def State.scalesWait (s : State) (seq : Nat) : Bool := (s.scalesBefore seq).any (·.val.isNone)

def State.clearScales (s : State) (seq : Nat) : State := s.qs fun u => { u with scale := u.scale.filter fun e => seq ≤ e.seq }

def State.scdrainFinish (s : State) (a seq : Nat) : State :=
  let l := (s.scalesBefore seq).map fun e => (e.val.getD 0).toNat
  (s.mems fun m => { m with sp := ((m.sp.clear a scaleBytes).putLe a 8 l.length).putLe (a + 64) (2 * l.length) (pack 16 l) }).clearScales seq

def State.scloadFinish (s : State) (a seq : Nat) : Eff State :=
  let w := s.core.mems.sp.le a 64
  let n := fld w 0 9
  if 256 < n || w / 2 ^ 9 != 0 || 256 < s.core.qs.scale.length + n then .error (.illegalOperand, 3)
  else
    let new := (List.range n).map fun i => (⟨seq, seq, some (BitVec.ofNat 16 (s.core.mems.sp.le (a + 64 + 2 * i) 2))⟩ : ScaleEntry)
    .ok (s.qs fun u => { u with scale := u.scale ++ new })

/-! ### MPACK (R264, R265) -/

/-- The sizes of the three regions: source, values and metadata. -/
def mpackSizes (ty : ElemTy) (ng : Nat) : Nat × Nat × Nat := (ng * 4 * ty.width / 8, ng * 2 * ty.width / 8, ceilDiv ng 8 * 4)

/-- The banks of a range of the scratchpad have one TYPE. -/
def State.banksAre (s : State) (a n : Nat) (ty : ElemTy) : Bool :=
  (List.range ((a + n - 1) / 2 ^ 14 - a / 2 ^ 14 + 1)).all fun i =>
    256 ≤ a / 2 ^ 14 + i || s.bankTy (a / 2 ^ 14 + i) == ty

/-- Two ranges meet. -/
def rangesMeet (a n b m : Nat) : Bool := a < b + m && b < a + n

def pastSp (a : Word) (n : Nat) : Check Unit :=
  if 0x400000 < a.toNat + n then outside (BitVec.ofNat 64 (max a.toNat 0x400000)) else .ok ()

/-- MPACK at issue: alignment and bounds of gX, of gY and of gW in turn, then gZ and what concerns several regions (R264, R369). A group
count out of range gives no region sizes: the regions are then taken for one group (notes/assumptions/8.md). Operands: gX, gY, gW, gZ. -/
def State.prepMpack (s : State) (ops : List Word) : Judged :=
  let x := ops.getD 0 0
  let y := ops.getD 1 0
  let w := ops.getD 2 0
  let z := (ops.getD 3 0).toNat
  let ngOk := 1 ≤ z && z ≤ 65536
  let ng := if ngOk then z else 1
  let ty := s.bankTy (x.toNat / 2 ^ 14 % 256)
  let (a, b, c) := mpackSizes ty ng
  let al := max 1 (ty.width / 8)
  let foot := [spFoot 1 x.toNat (x.toNat + a - 1), spFoot 2 y.toNat (y.toNat + b - 1), spFoot 2 w.toNat (w.toNat + c - 1)]
  judge ops foot [ty] .rne do
    need (x.toNat % al = 0)
    pastSp x a
    need (y.toNat % al = 0)
    pastSp y b
    need (w.toNat % 4 = 0)
    pastSp w c
    need (ngOk && tileTypes.contains ty && s.banksAre x.toNat a ty && s.banksAre y.toNat b ty)
    need (!rangesMeet x.toNat a y.toNat b && !rangesMeet x.toNat a w.toNat c && !rangesMeet y.toNat b w.toNat c)

def execMpack (c : ECmd) (s : State) : Out :=
  s.aIssue [c.x, c.y, c.w, c.z] [] fun s =>
    s.issueCmd 2 (.mpack c) c.hk noVault fun s => s.prepMpack [s.g c.x, s.g c.y, s.g c.w, s.g c.z]

/-- The magnitude of v is above that of w: NaN above ∞ (R265). -/
def magAbove (v w : Val) : Bool :=
  match v, w with
  | .nan _, .nan _ => false
  | .nan _, _ => true
  | .inf _, .num _ => true
  | .num x, .num y => ({ x with neg := false } : Ex).cmp { y with neg := false } > 0
  | _, _ => false

/-- The places of the two largest of four elements, the lower place first among equals (R265). -/
def twoLargest (vs : List Val) : Nat × Nat :=
  let above (i j : Nat) : Bool :=
    let v := vs.getD i (.num Ex.zero)
    let w := vs.getD j (.num Ex.zero)
    magAbove v w || (!magAbove w v && i < j)
  let rank (i : Nat) : Nat := ((List.range 4).filter fun j => j != i && above j i).length
  match (List.range 4).filter fun i => rank i < 2 with
  | [i, j] => (i, j)
  | _ => (0, 1)

def State.mpackFinish (s : State) (c : EngCmd) : State :=
  let ty := c.fmts.getD 0 .fp32
  let ng := (c.ops.getD 3 0).toNat
  let (a, b, n) := mpackSizes ty ng
  let src := s.core.mems.sp.le (c.ops.getD 0 0).toNat a
  let gs := (List.range ng).map fun g =>
    let xs := (List.range 4).map fun i => lane ty.width src (4 * g + i)
    let p := twoLargest (xs.map (decodeElem ty))
    (xs.getD p.1 0, xs.getD p.2 0, p.1 + 4 * p.2)
  let vals := pack ty.width (gs.flatMap fun g => [g.1, g.2.1])
  let nibs := gs.map (·.2.2) ++ List.replicate (2 * n - ng) 4
  s.mems fun m => { m with sp := (m.sp.putLe (c.ops.getD 1 0).toNat b vals).putLe (c.ops.getD 2 0).toNat n (pack 4 nibs) }

/-! ### MGEN (R266) -/

/-- The block size of a KC code. -/
def genK (kc : Fin 4) : Nat := 32 * 2 ^ kc.val

def genBytes (n : Fin 64) (g : Fin 2) (kc : Fin 4) : Nat := colsOf n * (g.val + 1) * genK kc / 8

def execMgen (x y : GReg) (hk : Hatching) (n : Fin 64) (g : Fin 2) (kc : Fin 4) (s : State) : Out :=
  s.aIssue [x, y] [] fun s =>
    s.issueCmd 2 (.mgen x y hk n g kc) hk noVault fun s =>
      let a := s.g y
      judge [s.g x, a] [spFoot 2 a.toNat (a.toNat + genBytes n g kc - 1)] [] .rne do
        need (a.toNat % 4 = 0)
        pastSp a (genBytes n g kc)

def State.mgenFinish (s : State) (seed : Word) (a : Nat) (n : Fin 64) (g : Fin 2) (kc : Fin 4) : State :=
  let len := genBytes n g kc
  let nibs := (genFrom seed.toNat (2 * len)).map fun p => p.1 + 4 * p.2
  s.mems fun m => { m with sp := m.sp.putLe a len (pack 4 nibs) }

/-! ### The queue (R229, R244) -/

/-- The checks that come before the wait for scales (R367). -/
def State.bfStart (s : State) (c : EngCmd) : Eff Unit :=
  match c.instr with
  | .bfs a => s.bfsStart a c
  | .bfa a => s.bfaStart a c
  | _ => .ok ()

/-- The words that a command reads when it starts, and those that it computes from (R228). -/
def State.bfReads (s : State) (c : EngCmd) : List (Nat × Nat × Nat) :=
  let x := (c.ops.getD 0 0).toNat
  let z := c.ops.getD 3 0
  match c.instr with
  | .bfs a =>
    let e := s.bfsGeo a c
    (if readsX a then (xTile (c.ops.getD 0 0) e.ty true a.t (colsOf a.n) (rowsOf a.m.val)).reads else chainReads e.rows e.cols) ++
      e.loftReads (wfld (c.ops.getD 2 0) 0 16) ++ e.metaReads z ++ e.scaleReads (readsX a)
  | .bfa a =>
    let e := bfaGeo a c
    (xTile (c.ops.getD 0 0) e.ty false a.t (colsOf a.n) (rowsOf a.m.val)).reads ++ accReads a.acc.val e.rows e.cols ++
      e.loftReads (wfld (c.ops.getD 1 0) 0 16) ++ e.metaReads z ++ e.scaleReads true
  | .anorm _ acc _ => accReads acc.val 64 256
  | .adrain a => accReads a.acc.val (rowsOf a.m.val) (colsOf a.n)
  | .aload _ n m _ _ => (loadTile n m (c.ops.getD 0 0)).reads
  | .chdrain _ _ => chainReads 64 1008
  | .chload _ _ => [(0, x, chainBytes)]
  | .scdrain _ _ => [(5, 64, 8)]
  | .scload _ _ => [(0, x, scaleBytes)]
  | .mpack _ => [(0, x, (mpackSizes (c.fmts.getD 0 .fp32) z.toNat).1)]
  | _ => []

/-- The metadata words that a stage reads when it starts (R242). -/
def State.bfMeta (s : State) (c : EngCmd) : List (Nat × Nat × Nat) :=
  match c.instr with
  | .bfs a => (s.bfsGeo a c).metaReads (c.ops.getD 3 0)
  | .bfa a => (bfaGeo a c).metaReads (c.ops.getD 3 0)
  | _ => []

/-- The work of a started command: it waits for scales, raises a cause, or completes. -/
inductive BfRes where
  | wait
  | poison (p : Poison)
  | cause (k : Cause) (info : Word)
  | ok (s : State)

def ofEff : Eff State → BfRes
  | .ok s => .ok s
  | .error (k, i) => .cause k i

/-- Go on when the scales are there (R241). -/
def State.withScales (s : State) (n seq : Nat) (k : List Nat → Eff State) : BfRes :=
  if n = 0 then ofEff (k [])
  else match s.scalesFor n seq with
    | .wait => .wait
    | .short have' => .cause .scaleQueueImbalance (BitVec.ofNat 64 (n + have' * 2 ^ 16))
    | .ok l => ofEff (k l)

def State.bfEffect (s : State) (c : EngCmd) : BfRes :=
  let x := c.ops.getD 0 0
  match c.instr with
  | .bfs a => s.withScales ((s.bfsGeo a c).takes (readsX a)) c.seq (s.bfsFinish a c)
  | .bfa a => s.withScales ((bfaGeo a c).takes true) c.seq (s.bfaFinish a c)
  | .aclr _ acc _ => .ok (s.aclrFinish acc.val x.toInt)
  | .anorm _ acc _ => ofEff (s.anormFinish acc.val x.toInt)
  | .adrain a => .ok (s.adrainFinish a c)
  | .aload _ n m acc _ => .ok (s.aloadFinish n m acc.val x)
  | .sdset _ sd _ => .ok (s.sdsetFinish sd x)
  | .chdrain _ _ => .ok (s.chdrainFinish x.toNat)
  | .chload _ _ => ofEff (s.chloadFinish x.toNat)
  | .scdrain _ _ => if s.scalesWait c.seq then .wait else .ok (s.scdrainFinish x.toNat c.seq)
  | .scload _ _ => ofEff (s.scloadFinish x.toNat c.seq)
  | .scclr _ => if s.scalesWait c.seq then .wait else .ok (s.clearScales c.seq)
  | .mpack _ => .ok (s.mpackFinish c)
  | .mgen _ _ _ n g kc => .ok (s.mgenFinish x (c.ops.getD 1 0).toNat n g kc)
  | _ => .wait

/-- The effect, from words that are good or have been corrected; nothing is computed from corrupt ones (R228). -/
def State.bfFinish (s : State) (c : EngCmd) : BfRes :=
  match s.dataCheck (s.bfReads c) with
  | .error p => match s.bfEffect c with | .wait => .wait | _ => .poison p
  | .ok t => t.bfEffect c

/-- The COPY of a group has moved its last byte (R215). -/
def State.copyDone (s : State) (c : EngCmd) : Bool :=
  !c.follow || !(s.core.eng.q[(0 : Fin 5)] ++ s.core.eng.side).any fun x =>
    x.seq == c.seq && x.st != .done && match x.instr with | .copyF _ => true | _ => false

/-- The range-checker edges of a matrix command of a group leave out its own COPY (R215). -/
def State.bfReady (s : State) (c : EngCmd) : Bool := s.popReady c && s.edgesMet c && s.copyDone c

/-- The first command of a queue that has not completed. -/
def firstOpen (l : List EngCmd) : Option EngCmd := l.find? fun c => c.st != .done

/-- BUTTERFLY_COMMAND_START (R229): the pop is taken, and the first checks are made. In handler mode nothing starts, nor in a unit that is
being saved (R244, R323). -/
def State.butterflyStart (s : State) : Option State :=
  if !s.engActive || s.queueHeld 2 || s.core.fe.handler || s.core.fe.settling then none
  else
    match firstOpen s.core.eng.q[(2 : Fin 5)] with
    | none => none
    | some c =>
      if c.st != .waiting || !s.bfReady c then none
      else
        match s.dataCheck (queueWord 2 :: s.bfMeta c) with
        | .error p => some (s.meetData 2 c p)
        | .ok s =>
          let s := s.takePop c
          match s.bfStart c with
          | .error (k, i) => some (s.raiseCause 2 c k i).progress
          | .ok _ => some (s.setCmd 2 { c with popped := true, st := .running }).progress

/-- BUTTERFLY_COMMAND_COMPLETE (R229): the running command takes its effect; then completed commands retire from the head. -/
def State.butterflyComplete (s : State) : Option State :=
  if !s.engActive then none
  else
    match firstOpen s.core.eng.q[(2 : Fin 5)] with
    | some c =>
      if c.st == .running then
        match s.bfFinish c with
        | .wait => s.retireHead 2
        | .poison p => some (s.meetData 2 c p)
        | .cause k i => some (s.raiseCause 2 c k i).progress
        | .ok s =>
          let s := (s.setCmd 2 { c with st := .done }).progress
          some ((s.retireHead 2).getD s)
      else s.retireHead 2
    | none => s.retireHead 2

/-! ### The side path (R224, R244) -/

def isCopyClass : Instr → Bool
  | .copy _ | .copyF _ | .fill _ _ | .gather _ | .scatter _ | .loft _ | .reduce _ | .reduceBin _ | .migrate _ _ _ _ => true
  | _ => false

/-- The array has stopped: no command of the unit's own queue runs. -/
def State.arrayStopped (s : State) : Bool := !(s.core.eng.q[(2 : Fin 5)]).any fun c => c.st == .running

/-- The head of the side path leaves it, its hatch push made (R224, R244). -/
def State.sideRetire (s : State) (c : EngCmd) : State :=
  let s := s.eng fun e => { e with side := e.side.drop 1 }
  ((s.pushCmd 2 c).syncCounter).progress

/-- The queue whose PIPE code a side-path command has (R125). -/
def sideQueue (c : EngCmd) : Fin 5 := if isCopyClass c.instr then copyQueue (boxOf (c.ops.getD 2 0)).dsp else 2

/-- SIDE_PATH_COMMAND_COMPLETE: the oldest command of the side path runs and completes, or raises a cause of the handler. -/
def State.sideComplete (s : State) : Option State :=
  match s.core.eng.side with
  | [] => none
  | c :: _ =>
    if !s.engActive || !s.popReady c || !s.edgesMet c then none
    else if isCopyClass c.instr then
      match s.runCopyCmd (sideQueue c) c with
      | none => none
      | some t =>
        match t.core.eng.side with
        | d :: _ => if d.st == .done then some (t.sideRetire d) else some t
        | [] => some t
    else if !s.arrayStopped || (match c.push with | some h => s.hatchFull h | none => false) then none
    else
      let s := s.takePop c
      match s.bfStart c with
      | .error (k, i) => some (s.raiseCause 2 c k i)
      | .ok _ =>
        match s.bfFinish c with
        | .wait => none
        | .poison p => some (s.meetData 2 c p)
        | .cause k i => some (s.raiseCause 2 c k i)
        | .ok s => some (s.sideRetire c)

end Sys2Proof.Machine
end

