-- ==== Sys2Proof/Machine/Circuit.lean ====
section
/-! DEFINITION. The circuit engine: CLOAD, EVAL, PUPD, CEWAIT and CEOUT, its pages and its queue (R268 to R292). -/

namespace Sys2Proof.Machine

def State.circ (s : State) (f : Circuit → Circuit) : State := { s with core := { s.core with circ := f s.core.circ } }

/-! ### Registrations and status (R269, R285) -/

def regV (w : Word) : Bool := wbit w 63
def regSpace (w : Word) : Space := if wbit w 62 then .cl else .at
def regPhi (w : Word) : Nat := wfld w 48 8
def regPlo (w : Word) : Nat := wfld w 40 8
def regBase (w : Word) : Nat := wfld w 0 40 * 2 ^ 16

/-- Registration k of the live registers. -/
def State.reg (s : State) (k : Fin 16) : Word := s.core.sys.creg[k]

/-- The placement range: bytes 16,384·PLO to 16,384·PHI + 16,383. -/
def placeHull (w : Word) : Nat × Nat := (regPlo w * 2 ^ 14, regPhi w * 2 ^ 14 + 16383)

/-- Every bank of the placement range has TYPE 15. -/
def State.placeCx (s : State) (w : Word) : Bool :=
  (List.range (regPhi w + 1 - regPlo w)).all fun i => s.bankTy (regPlo w + i) == .cx

/-- CE.STATUS (R285). -/
def Circuit.word (c : Circuit) : Word := c.status ||| (if c.dirty.isEmpty then 0 else 8)

/-- A circuit command in handler mode (R283). -/
def State.notHandler (s : State) : Check Unit := need (!s.core.fe.handler)

/-! ### CLOAD (R270, R271, R287) -/

/-- The header's fields. -/
structure Header where
  nrec : Nat
  nnodes : Nat
  npar : Nat
  nleaf : Nat
  nout : Nat
  offs : List Nat

def headerOf (h : Nat) : Header :=
  ⟨fld h 16 16, fld h 0 16, fld h 112 16, fld h 96 16, fld h 80 16, (List.range 5).map fun i => fld h (128 + 64 * i) 32⟩

/-- The header words that break R270. -/
def headerBad (h : Nat) : List Nat :=
  let d := headerOf h
  (if fld h 32 32 != 0x43580001 || d.nrec = 0 || d.nnodes = 0 || 16384 < d.nnodes then [0] else []) ++
  (if 4096 < d.npar || 4096 < d.nleaf || d.nout = 0 || 1024 < d.nout || fld h 64 16 != 0 then [1] else []) ++
  ((List.range 5).filter fun i => fld h (160 + 64 * i) 32 != 0 || d.offs.getD i 0 % 64 != 0).map (· + 2) ++
  (if fld h 448 64 != 0 then [7] else [])

/-- The sections: header word, start and length (R271). -/
def sections (d : Header) : List (Nat × Nat × Nat) :=
  let o (i : Nat) := d.offs.getD i 0
  [(2, o 0, 2 * d.nnodes), (3, o 1, 8 * d.npar), (4, o 2, 2 * d.nleaf), (5, o 3, 2 * d.nout), (6, o 4, 16 * d.nrec)]

/-- The header words that overlaps report: the later-starting of two sections, and a section that meets the header (R271). Of two
that start together the one named later is reported (notes/assumptions/9.md). -/
def overlapWords (d : Header) : List Nat :=
  let l := sections d
  (l.filter fun x => x.2.2 != 0 && x.2.1 < 64).map (·.1) ++
    l.flatMap fun x => (l.filter fun y => x.1 < y.1 && rangesMeet x.2.1 x.2.2 y.2.1 y.2.2).map fun y =>
      if y.2.1 < x.2.1 then x.1 else y.1

/-- The first entry of a table, from entry i on, that breaks R271, as its byte offset. -/
def badEntry (off w : Nat) (f : Nat → Bool) : List Nat → Nat → Option Nat
  | [], _ => none
  | x :: xs, i => if f x then some (off + w * i) else badEntry off w f xs (i + 1)

/-- What CLOAD finds; `s` has read the object. -/
inductive Loaded where
  | halt (h : Halt)
  | bad (s : State) (c : Cause) (info : Nat)
  | ok (s : State) (d : Header) (place par leaf out : List Nat)

/-- Entries of w bytes of a byte string. -/
def entries (w n : Nat) (bs : List Byte) : List Nat := let x := leNat bs; (List.range n).map (lane (8 * w) x)

/-- Parts of the object, by offset and length, are read. -/
def State.objParts (s : State) (reg : Word) : List (Nat × Nat) → Except Halt (List (List Byte) × State)
  | [] => .ok ([], s)
  | (off, n) :: rest =>
    match s.engRead (regSpace reg) (regBase reg + off) n with
    | .error h => .error h
    | .ok (bs, s) => (State.objParts s reg rest).map fun r => (bs :: r.1, r.2)

/-- The end of the object's window. -/
def State.objEnd (s : State) (reg : Word) : Nat := if wbit reg 62 then 2 ^ 56 else s.userEnd

/-- The least of a list of numbers. -/
def least : List Nat → Option Nat
  | [] => none
  | x :: xs => some (xs.foldl min x)

/-- The tables' first faulty entries (R271). -/
def tableBad (reg : Word) (d : Header) (place par leaf out : List Nat) : List Nat :=
  let o (i : Nat) := d.offs.getD i 0
  [badEntry (o 0) 2 (fun x => 16384 ≤ x || fld x 6 8 < regPlo reg || regPhi reg < fld x 6 8) place 0,
   badEntry (o 1) 8 (fun x => !cxOk x) par 0,
   badEntry (o 2) 2 (fun x => 4095 < x && x != 0xFFFF) leaf 0,
   badEntry (o 3) 2 (fun x => d.nnodes ≤ x) out 0].filterMap id

/-- CLOAD reads the header and the tables. Of several faults the lowest offset is reported (R284). A header that breaks R270 comes before
bytes outside the window, and these before overlaps and entries (notes/assumptions/22.md). -/
def State.readObject (s : State) (reg : Word) : Loaded :=
  let base := regBase reg
  let lim := s.objEnd reg
  if lim < base + 64 then .bad s .bounds (max base lim)
  else match s.objParts reg [(0, 64)] with
    | .error h => .halt h
    | .ok (hb, s) =>
      let h := leNat (hb.headD [])
      let d := headerOf h
      let outs := ((sections d).filter fun x => x.2.2 != 0 && lim < base + x.2.1 + x.2.2).map fun x => max lim (base + x.2.1)
      let words := (headerBad h ++ overlapWords d).map (8 * ·)
      match headerBad h, least outs with
      | _ :: _, some _ => .bad s .circuitObject ((least words).getD 0)
      | [], some a => .bad s .bounds a
      | _, none =>
        match s.objParts reg (((sections d).take 4).map (·.2)) with
        | .error h => .halt h
        | .ok (bs, s) =>
          let part (i w n : Nat) := entries w n (bs.getD i [])
          let place := part 0 2 d.nnodes
          let par := part 1 8 d.npar
          let leaf := part 2 2 d.nleaf
          let out := part 3 2 d.nout
          match least (words ++ tableBad reg d place par leaf out) with
          | some x => .bad s .circuitObject x
          | none => .ok s d place par leaf out

/-- CLOAD starts and completes: the tables are copied, and its first two pages are on their way (R277, R279, R287). The registration word
is the one that it read at issue (R269). -/
def State.runCload (s : State) (c : EngCmd) (k : Fin 16) : State :=
  let c := { c with popped := true }
  let s := s.circ fun e => { e with status := setFld e.status 4 5 0, frames := [], flight := [] }
  let reg := c.ops.getD 0 0
  match s.readObject reg with
  | .halt (.fault spc va f) => s.engFault 3 c spc va f
  | .halt (.poison p) => s.meetData 3 c p
  | .halt _ => s.setCmd 3 c
  | .bad s cause info => s.raiseCause 3 c cause (BitVec.ofNat 64 info)
  | .ok s d place par leaf out =>
    let ps := ((List.range d.npar).zip par).filter fun p => p.2 != cxZero
    let s := s.circ fun e =>
      { e with reg := reg, nrec := d.nrec, offPages := d.offs.getD 4 0, place := place, leafMap := leaf, outMap := out,
               live := ps, pend := ps, dirty := [], flight := if 1024 < d.nrec then [0, 1] else [0],
               status := setFld (setFld e.status 4 5 (16 + k.val)) 24 16 0 }
    s.setCmd 3 { c with st := .done }

/-- The object of a registration lies in the own vault (R269, R327). -/
def cloadVault (c : EngCmd) : Bool := !wbit (c.ops.getD 0 0) 62

def execCload (reg : Fin 16) (hk : Hatching) (s : State) : Out :=
  s.aIssue [] [] fun s =>
    s.issueCmd 3 (.cload reg hk) hk cloadVault fun s =>
      judge [s.reg reg] [] [] .rne do
        s.notHandler
        need (regV (s.reg reg))

/-! ### Nodes (R272 to R275) -/

/-- A record: OP, NARG, MORE, DEST, PBASE, whether its reserved and unused fields are zero, and its operands. -/
structure NodeRec where
  op : Nat
  narg : Nat
  more : Bool
  dest : Nat
  pbase : Nat
  clean : Bool
  args : List Nat

def nodeRec (x : Nat) : NodeRec :=
  let op := fld x 124 4
  let narg := fld x 121 3
  let cont := op = 15
  let max' := if cont then 7 else 5
  ⟨op, narg, bitAt x 120, fld x 106 14, fld x 94 12,
    (if cont then fld x 112 8 = 0 else fld x 80 14 = 0) && narg ≤ max' && x % 2 ^ (16 * max') / 2 ^ (16 * min narg max') = 0,
    (List.range (min narg max')).map fun j => fld x (16 * j) 16⟩

/-- A node: its head and all its operands, and how many records it has. -/
inductive Gather where
  | ok (h : NodeRec) (args : List Nat) (records : Nat)
  | page (p : Nat)
  | bad (record : Nat)

/-- The record r, when its page is in a frame. -/
def Circuit.record (c : Circuit) (r : Nat) : Option NodeRec :=
  (c.frames.find? fun f => f.1 == r / 1024).map fun f => nodeRec (leNat ((f.2.drop (r % 1024 * 16)).take 16))

/-- The continuation records from r on (R272, R275). -/
def Circuit.more (c : Circuit) (h : NodeRec) (head : Nat) : Nat → Nat → List Nat → Gather
  | 0, _, _ => .bad head
  | n + 1, r, args =>
    if c.nrec ≤ r then .bad (r - 1)
    else match c.record r with
      | none => .page (r / 1024)
      | some k =>
        if k.op != 15 || !k.clean || k.narg = 0 then .bad r
        else
          let args := args ++ k.args
          if 64 < args.length then .bad head
          else if k.more then Circuit.more c h head n (r + 1) args
          else .ok h args (r + 1 - head)

/-- An operand reference lies in range (R273). -/
def Circuit.refOk (c : Circuit) (a : Nat) : Bool :=
  (fld a 14 2 = 0 && fld a 0 14 < c.place.length) || (fld a 14 2 = 1 && fld a 0 14 < c.leafMap.length)

/-- The number of parameters of a node, and whether its operand count fits its OP (R274). -/
def opShape (op n : Nat) : Option Nat :=
  match op with
  | 0 | 1 | 2 => if 1 ≤ n then some 0 else none
  | 3 | 5 => if 1 ≤ n then some n else none
  | 4 => if n = 1 then some 1 else none
  | 6 => if n = 1 then some 0 else none
  | 7 => if n = 0 then some 1 else none
  | _ => none

/-- The node that begins at record r, checked (R275). -/
def Circuit.node (c : Circuit) (r : Nat) : Gather :=
  match c.record r with
  | none => .page (r / 1024)
  | some h =>
    let check (g : Gather) : Gather :=
      match g with
      | .ok h args n =>
        match opShape h.op args.length with
        | none => .bad r
        | some np =>
          if (np = 0 && h.pbase != 0) || 4096 < h.pbase + np || !args.all c.refOk || c.place.length ≤ h.dest then .bad r
          else .ok h args n
      | g => g
    if h.op = 15 || !h.clean then .bad r
    else if h.more then check (c.more h r 64 (r + 1) h.args)
    else check (.ok h h.args 1)

/-- The address of lane l of a node's slot (R271). -/
def Circuit.slotAt (c : Circuit) (d l : Nat) : Nat :=
  let e := c.place.getD d 0
  fld e 6 8 * 2 ^ 14 + 256 * fld e 0 6 + 8 * l

/-- The value of an operand in a lane: its CX image. -/
def State.operand (s : State) (a l : Nat) : Nat :=
  if fld a 14 2 = 1 then (s.core.circ.leaves.getD (fld a 0 14) []).getD l cxZero
  else s.core.mems.sp.le (s.core.circ.slotAt (fld a 0 14) l) 8

def exSum (l : List Ex) : Ex := l.foldl Ex.add Ex.zero

/-- The exact value of a node (R274). -/
def nodeValue (op : Nat) (p : Nat → Ex) (x : List Ex) : Ex :=
  let x0 := x.getD 0 Ex.zero
  match op with
  | 0 => exSum x
  | 1 => x.foldl Ex.mul oneEx
  | 2 => x.foldl (fun a b => if a.cmp b < 0 then b else a) x0
  | 3 => exSum ((x.zip (List.range x.length)).map fun q => (p q.2).mul q.1)
  | 4 => (p 0).mul x0
  | 5 => (p 0).mul (x0.add (exSum (((x.zip (List.range x.length)).drop 1).map fun q => (p q.2).mul q.1)))
  | 6 => x0
  | _ => p 0

/-- One node over lanes l to L − 1 (R275). -/
def State.nodeLanes (s : State) (r : Nat) (h : NodeRec) (args : List Nat) : Nat → Nat → Except (State × Cause × Word) State
  | 0, _ => .ok s
  | n + 1, l =>
    let xs := args.map fun a => s.operand a l
    let info := BitVec.ofNat 64 (r + l * 2 ^ 16)
    if !xs.all cxOk then .error (s, .cxFormat, info)
    else
      let v := nodeValue h.op (fun i => cxVal (look cxZero s.core.circ.live (h.pbase + i))) (xs.map cxVal)
      let q := roundEx .cx .rne false 0 0 v false
      if q.range then .error (s, .cxRange, info)
      else
        let s := if q.under then s.circ fun c => { c with status := c.status ||| 1 } else s
        let s := s.mems fun m => { m with sp := m.sp.putLe (s.core.circ.slotAt h.dest l) 8 q.bits }
        State.nodeLanes s r h args n (l + 1)

/-! ### What the circuit engine reads (R228, R268) -/

/-- The place of the circuit engine's structures in level 4 (notes/assumptions/107.md): the placement table, and behind it the leaf map,
the output map, the live and the pending parameters. -/
def cxStore : Nat := 2 ^ 21

/-- The words of entries of the leaf map, the output map, the live and the pending parameters. -/
def cxReads (off w i n : Nat) : List (Nat × Nat × Nat) := if n = 0 then [] else [(4, cxStore + off + w * i, w * n)]

/-- The placement entry of a node, and its slot's first lanes where they are read. -/
def Circuit.slotReads (c : Circuit) (d lanes : Nat) : List (Nat × Nat × Nat) :=
  cxReads 0 2 d 1 ++ if lanes = 0 then [] else [(0, c.slotAt d 0, 8 * lanes)]

/-- The words that a node reads: its operands' slots, its own placement and its parameters. -/
def Circuit.nodeReads (c : Circuit) (h : NodeRec) (args : List Nat) (lanes : Nat) : List (Nat × Nat × Nat) :=
  c.slotReads h.dest 0 ++ (args.filter fun a => fld a 14 2 = 0).flatMap (fun a => c.slotReads (fld a 0 14) lanes) ++
    cxReads 0x10000 8 h.pbase ((opShape h.op args.length).getD 0)

/-- The words of a page in a frame, in level 5 (notes/assumptions/107.md). -/
def frameAt (p : Nat) : Nat := 2 ^ 20 + 16384 * p

/-- A frame with an error is dropped, and the error logged; its page is fetched again when it is wanted (R268). -/
def State.dropFrames (s : State) : State :=
  s.core.circ.frames.foldl (fun s f =>
    let hit := s.marked 5 (frameAt f.1) 16384
    if (s.pkg.poison ++ s.pkg.weak).any hit then
      let s := s.circ fun c => { c with frames := c.frames.filter fun x => x.1 != f.1 }
      (s.pkgd fun g => { g with poison := g.poison.filter fun p => !hit p, weak := g.weak.filter fun p => !hit p }).elog 5 kCorrected 0
        s.core.idx (frameAt f.1)
    else s) s

/-! ### Pages (R277) -/

/-- A page that is neither in a frame nor in flight starts its fetch. -/
def Circuit.want (c : Circuit) (p : Nat) : Circuit :=
  if c.frames.any (·.1 == p) || c.flight.contains p || c.nrec ≤ 1024 * p then c else { c with flight := c.flight ++ [p] }

/-- A page in use becomes the most recently used, and the next one is asked for. -/
def Circuit.use (c : Circuit) (p : Nat) : Circuit :=
  let c := { c with frames := (c.frames.filter fun (f : Nat × List Byte) => f.1 == p) ++ c.frames.filter fun (f : Nat × List Byte) => f.1 != p }
  c.want (p + 1)

/-- A page takes a free frame, or that of the least recently used page other than the one being decoded. -/
def Circuit.arrive (c : Circuit) (p : Nat) (bs : List Byte) : Circuit :=
  let fs := if c.frames.length < 8 then c.frames else c.frames.take 7
  { c with frames := fs ++ [(p, bs)], flight := c.flight.filter (· != p) }

/-! ### EVAL (R276, R288, R289) -/

def laneL (y : Word) : Nat := wfld y 0 6
def laneRows (y : Word) : Nat := wfld y 16 12 + 1
def laneOk (y : Word) : Bool := wfld y 28 36 = 0 && wfld y 6 10 = 0 && 1 ≤ laneL y && laneL y ≤ 32

def leafTypes : List ElemTy := [.i32, .h16, .bf16, .fp32, .cx]

/-- A tile with rows of 32 lanes. -/
def laneTile (w : Word) (ty : ElemTy) (rows : Nat) : Tile := tileOf w rows (4 * ty.width)

/-- EVAL at issue: the tile, the lane word, and then what concerns both (R289, R369). The last operand is the registration word (R269). -/
def State.prepEval (s : State) (k : Fin 16) (x y : Word) : Judged :=
  let ty := s.descTy x
  let t := laneTile x ty (laneRows y)
  let reg := s.reg k
  let range := placeHull reg
  judge [x, y, reg] [t.foot 1, spFoot 3 range.1 range.2] [ty] .rne do
    s.notHandler
    s.tileCheck x t 0 (some leafTypes)
    need (laneOk y && regV reg && s.placeCx reg && !hullMeets t.hull range)

def execEval (x y : GReg) (reg : Fin 16) (hk : Hatching) (s : State) : Out :=
  s.aIssue [x, y] [] fun s => s.issueCmd 3 (.eval x y reg hk) hk noVault fun s => s.prepEval reg (s.g x) (s.g y)

/-- The resident object is that of the registration that a command read at issue. -/
def State.resident (s : State) (c : EngCmd) : Bool := wbit s.core.circ.status 8 && s.core.circ.reg == c.ops.getD 2 0

/-- The value of a leaf in a lane, or its fault (R276). -/
def leafValue (ty : ElemTy) (x : Nat) : Except Cause Nat :=
  if ty == .cx then (if cxOk x then .ok x else .error .cxFormat)
  else match decodeElem ty x with
    | .num v => .ok (roundEx .cx .rne false 0 0 v false).bits
    | _ => .error .cxRange

/-- The lanes of one leaf from lane l on. -/
def leafLanes (ty : ElemTy) (row i : Nat) : Nat → Nat → Except (Cause × Word) (List Nat)
  | 0, _ => .ok []
  | n + 1, l =>
    match leafValue ty (lane ty.width row l) with
    | .error c => .error (c, BitVec.ofNat 64 (i + l * 2 ^ 16 + 2 ^ 32))
    | .ok v => (leafLanes ty row i n (l + 1)).map (v :: ·)

/-- The values of the leaves from leaf i on. -/
def State.leavesFrom (s : State) (t : Tile) (ty : ElemTy) (lanes : Nat) : List Nat → Nat → Except (Cause × Word) (List (List Nat))
  | [], _ => .ok []
  | e :: es, i =>
    let here : Except (Cause × Word) (List Nat) :=
      if e = 0xFFFF then .ok (List.replicate lanes 0x40000000)
      else if t.rows ≤ e then .error (.illegalOperand, 5)
      else leafLanes ty (s.tileRow t e) i lanes 0
    match here with
    | .error x => .error x
    | .ok v => (State.leavesFrom s t ty lanes es (i + 1)).map (v :: ·)

/-- Where the nodes of an EVAL have come to. -/
inductive EvalRes where
  | done (s : State)
  | page (s : State) (record : Nat)
  | poison (s : State) (record : Nat) (p : Poison)
  | cause (s : State) (c : Cause) (info : Word)

/-- Nodes from record r on (R275, R277). -/
def evalNodes (lanes : Nat) : Nat → State → Nat → EvalRes
  | 0, s, _ => .done s
  | fuel + 1, s, r =>
    if s.core.circ.nrec ≤ r then .done s
    else
      let s := s.dropFrames
      let s := if s.core.circ.frames.any (·.1 == r / 1024) then s.circ (·.use (r / 1024)) else s.circ (·.want (r / 1024))
      match s.core.circ.node r with
      | .page p => .page (s.circ (·.want p)) r
      | .bad k => .cause s .circuitNode (BitVec.ofNat 64 k)
      | .ok h args n =>
        match s.dataCheck (s.core.circ.nodeReads h args lanes) with
        | .error p => .poison s r p
        | .ok s =>
          match s.nodeLanes r h args lanes 0 with
          | .error (s, c, i) => .cause s c i
          | .ok s => evalNodes lanes fuel s (r + n)

/-- A started EVAL goes on from a record. -/
def State.evalGo (s : State) (c : EngCmd) (r : Nat) : State :=
  match evalNodes (laneL (c.ops.getD 1 0)) (s.core.circ.nrec + 1) s r with
  | .done s =>
    let s := s.circ fun e => { e with status := setFld e.status 24 16 (wfld e.status 24 16 + 1), leaves := [] }
    s.setCmd 3 { c with st := .done, out := [] }
  | .page s r => s.setCmd 3 { c with st := .running, out := [BitVec.ofNat 64 r] }
  | .poison s r p => s.meetData 3 { c with st := .running, out := [BitVec.ofNat 64 r] } p
  | .cause s k i => s.raiseCause 3 c k i

/-- The dirty parameters become live (R279). -/
def Circuit.latch (c : Circuit) : Circuit :=
  { c with live := c.dirty.foldl (fun l i => let x := look cxZero c.pend i; if x = cxZero then del l i else put l i x) c.live,
           dirty := [] }

/-- What EVAL reads before its nodes: the dirty parameters, the leaf map, and the rows that it names. -/
def State.evalReads (s : State) (c : EngCmd) (t : Tile) (ty : ElemTy) (lanes : Nat) : List (Nat × Nat × Nat) :=
  let e := s.core.circ
  (if c.latched then [] else e.dirty.flatMap fun i => cxReads 0x18000 8 i 1) ++ cxReads 0x8000 2 0 e.leafMap.length ++
    (e.leafMap.filter (· < t.rows)).map fun r => (0, t.row r, lanes * ty.width / 8)

/-- EVAL starts (R289). -/
def State.runEval (s : State) (c : EngCmd) : State :=
  let c := { c with popped := true }
  let y := c.ops.getD 1 0
  let ty := c.fmts.getD 0 .cx
  let t := laneTile (c.ops.getD 0 0) ty (laneRows y)
  if !s.resident c then s.raiseCause 3 c .illegalOperand 4
  else match s.dataCheck (s.evalReads c t ty (laneL y)) with
    | .error p => s.meetData 3 c p
    | .ok s =>
      let s := if c.latched then s else s.circ Circuit.latch
      let c := { c with latched := true }
      match s.leavesFrom t ty (laneL y) s.core.circ.leafMap 0 with
      | .error (k, i) => s.raiseCause 3 c k i
      | .ok l => (s.circ fun e => { e with leaves := l }).evalGo c 0

/-- The EVAL that runs. -/
def State.evalRuns (s : State) : Option EngCmd := (s.core.eng.q[(3 : Fin 5)]).find? fun c => c.st == .running

/-- A page in flight that cannot be read leaves a unit that has been stopped, and its EVAL stops (R29, R329). -/
def State.pageLost (s : State) (p : Nat) : State :=
  let s := s.circ fun e => { e with flight := e.flight.filter (· != p) }
  match s.evalRuns with
  | some c => s.setCmd 3 { c with st := .done, out := [] }
  | none => s

/-- What a page fault of a fetch records: the EVAL that runs, if one does (R125). -/
def State.pageTrap (s : State) : TrapRec :=
  let t := { s.boundary 6 .pageFault 0 with paired := false }
  match s.evalRuns with
  | some c => { t with cpc := c.pc, foot := c.foot }
  | none => t

/-- PAGE_FETCH: a page in flight arrives, and the EVAL that runs goes on (R277, R278). -/
def State.pageFetch (s : State) (p : Nat) : Option State :=
  let c := s.core.circ
  let gone := s.core.fe.stopped
  if !s.engActive || !c.flight.contains p then none
  else
    match s.engRead (regSpace c.reg) (regBase c.reg + c.offPages + 16384 * p) (min 16384 (16 * c.nrec - 16384 * p)) with
    | .error (.fault spc va f) => some (if gone then s.pageLost p else s.pageFaultAt s.pageTrap spc va f)
    | .error (.poison x) => some ((if gone then s.pageLost p else s).meetPoison 6 (· == x))
    | .error _ => none
    | .ok (bs, s) =>
      let s := if regSpace c.reg == .at then s.withCore { s.core with vuse := true } else s
      let s := (s.circ fun e => e.arrive p bs).progress
      match s.evalRuns with
      | some c => some (s.evalGo c (c.out.getD 0 0).toNat)
      | none => some s

/-! ### PUPD (R279, R280, R290) -/

def execPupd (x y : GReg) (hk : Hatching) (s : State) : Out :=
  s.aIssue [x, y] [] fun s =>
    s.issueCmd 3 (.pupd x y hk) hk noVault fun s =>
      judge [s.g x, s.g y] [] [] .rne do
        s.notHandler
        need ((s.g x).toNat < 4096)
        if cxOk (s.g y).toNat then .ok () else .error (.cxFormat, none)

/-- The moment that R280 fixes: every earlier EVAL has started, every earlier CLOAD and PUPD has completed. -/
def pupdFree (c : EngCmd) : Bool :=
  c.st == .done || match c.instr with
    | .eval _ _ _ _ => c.st == .running || c.latched
    | .cload _ _ | .pupd _ _ _ => false
    | _ => true

def State.runPupd (s : State) (c : EngCmd) : State :=
  let i := (c.ops.getD 0 0).toNat
  let v := (c.ops.getD 1 0).toNat
  let s := s.circ fun e =>
    { e with pend := if v = cxZero then del e.pend i else put e.pend i v, dirty := if e.dirty.contains i then e.dirty else i :: e.dirty }
  s.setCmd 3 { c with popped := true, st := .done }

/-! ### CEWAIT (R291) -/

/-- g[X] ← CE.STATUS, and with CLR the sticky bits clear. -/
def State.readStatus (s : State) (x : GReg) (clr : Bool) : State :=
  let s := s.setG x s.core.circ.word
  if clr then s.circ fun e => { e with status := e.status &&& ~~~ 7 } else s

/-- CEWAIT: at once in handler mode, else through the queue; in Strict mode the A-pipe resumes at a set cycle. -/
def execCewait (x : GReg) (clr : Bool) (s : State) : Out :=
  s.aIssue [] [x] fun s =>
    if s.core.fe.handler then done (s.readStatus x clr)
    else if !s.engRoom 3 then .next s.wait
    else
      let s := s.handOver 3 (s.mkCmd (.cewait x clr) ⟨none, none⟩ ⟨[], [], [], .rne⟩ false) false
      done (if s.strict then s.fe fun f => { f with aFrom := f.cycle + s.pad 9 } else s)

/-! ### CEOUT (R292) -/

def ceoutTypes (mode : Nat) : List ElemTy := if mode = 2 then [.cx] else [.fp32]

/-- CEOUT at issue; the last operand is the registration word (R269, R292, R369). -/
def State.prepCeout (s : State) (k : Fin 16) (mode : Nat) (x y : Word) : Judged :=
  let ty := s.descTy y
  let t := laneTile y ty (laneRows x)
  let reg := s.reg k
  let range := placeHull reg
  judge [x, y, reg] [spFoot 1 range.1 range.2, t.foot 2] [ty] .rne do
    s.notHandler
    need (laneOk x)
    s.tileCheck y t 0 (some (ceoutTypes mode))
    need (regV reg && s.placeCx reg && !hullMeets t.hull range)

def execCeout (x y : GReg) (reg : Fin 16) (mode : Fin 4) (hk : Hatching) (s : State) : Out :=
  s.aIssue [x, y] [] fun s => s.issueCmd 3 (.ceout x y reg mode hk) hk noVault fun s => s.prepCeout reg mode.val (s.g x) (s.g y)

/-- One lane: what is written, and the sticky bits it sets (R292). -/
def ceoutLane (mode : Nat) (x : Nat) : Nat × Word :=
  match mode with
  | 0 =>
    let v := cxVal x
    let r := roundEx .fp32 .rne false 0 0 v false
    let b := if r.bits == zeroBits .fp32 true then 0 else r.bits
    let small := fld b 23 8 = 0 && (fld b 0 23 = 0 || (r.fl &&& fNX) != 0)
    (b, if v.num != 0 && small then 2 else 0)
  | 1 => ((cxLog x).1, if (cxVal x).neg && (cxVal x).num != 0 then 4 else 0)
  | _ => (x, 0)

/-- What CEOUT reads: the output map, and the slots that it names. -/
def State.ceoutReads (s : State) (lanes : Nat) : List (Nat × Nat × Nat) :=
  let e := s.core.circ
  cxReads 0xA000 2 0 e.outMap.length ++ e.outMap.flatMap fun d => e.slotReads d lanes

/-- The lanes of CEOUT are converted and written. -/
def State.putOuts (s : State) (c : EngCmd) (mode : Nat) (val : Nat → Nat → Nat) (cells : List (Nat × Nat)) : State :=
  let ty := c.fmts.getD 0 .fp32
  let t := laneTile (c.ops.getD 1 0) ty (laneRows (c.ops.getD 0 0))
  let n := ty.width / 8
  cells.foldl (fun s p =>
    let r := ceoutLane mode (val p.1 p.2)
    (s.mems fun m => { m with sp := m.sp.putLe (t.row p.1 + n * p.2) n r.1 }).circ fun e => { e with status := e.status ||| r.2 }) s

/-- CEOUT runs. A lane that holds no canonical value stops it before anything is written (notes/assumptions/10.md). -/
def State.runCeout (s : State) (c : EngCmd) (mode : Nat) : State :=
  let c := { c with popped := true }
  let x := c.ops.getD 0 0
  if !s.resident c then s.raiseCause 3 c .illegalOperand 4
  else if laneRows x != s.core.circ.outMap.length then s.raiseCause 3 c .illegalOperand 6
  else match s.dataCheck (s.ceoutReads (laneL x)) with
    | .error p => s.meetData 3 c p
    | .ok s =>
      let e := s.core.circ
      let val (j l : Nat) : Nat := s.core.mems.sp.le (e.slotAt (e.outMap.getD j 0) l) 8
      let cells := region (laneRows x) (laneL x)
      if mode != 2 && !cells.all fun p => cxOk (val p.1 p.2) then
        let (w, s) := s.fresh
        s.raiseCause 3 c .cxFormat w
      else (s.putOuts c mode val cells).setCmd 3 { c with st := .done }

/-! ### The queue (R282, R283) -/

/-- A PUPD, which waits for no completion (R280, R282). -/
def EngCmd.isPupd (c : EngCmd) : Bool := match c.instr with | .pupd _ _ _ => true | _ => false

/-- The commands of the queue that may start: a PUPD under R280, any other behind completed commands only. -/
def circuitNext : List EngCmd → List EngCmd → List EngCmd
  | _, [] => []
  | before, c :: cs =>
    let free := if c.isPupd then before.all pupdFree else before.all fun b => b.st == .done
    let rest := circuitNext (before ++ [c]) cs
    if c.st == .waiting && free then c :: rest else rest

/-- After a resumption whose reading of the object has failed the tables are still to be read (R283). -/
def Circuit.untold (c : Circuit) : Bool := wbit c.status 8 && c.place.isEmpty

/-- The engine reads the header and the tables of the resident object again, and keeps the parameters (R283). An object that is no longer
good leaves none resident (notes/assumptions/114.md). -/
def State.reloadCirc (s : State) : Except Halt State :=
  match s.readObject s.core.circ.reg with
  | .ok s d place _ leaf out =>
    .ok (s.circ fun e => { e with nrec := d.nrec, offPages := d.offs.getD 4 0, place := place, leafMap := leaf, outMap := out })
  | .bad s _ _ => .ok (s.circ fun e => { e with status := setFld e.status 4 5 0 })
  | .halt h => .error h

/-- A command's pop can be taken, its edges are met, and no cause holds its queue; a PUPD goes past what a cause holds (R282). -/
def State.circuitReady (s : State) (c : EngCmd) : Bool := (c.isPupd || !s.queueHeld 3) && s.popReady c && s.edgesMet c

/-- A command of the circuit queue runs. -/
def State.runCircuit (s : State) (c : EngCmd) : Option State :=
  match c.instr with
  | .cload k _ => some (s.runCload c k)
  | .eval _ _ _ _ => some (s.runEval c)
  | .pupd _ _ _ => some (s.runPupd c)
  | .cewait x clr => some ((s.readStatus x clr).setCmd 3 { c with st := .done })
  | .ceout _ _ _ mode _ => some (s.runCeout c mode.val)
  | _ => none

/-- CIRCUIT_COMMAND_START (R282): in handler mode nothing starts (R283), nor in a unit that is being saved (R323). -/
def State.circuitStart (s : State) : Option State :=
  if !s.engActive || s.core.fe.handler || s.core.fe.settling then none
  else
    match (circuitNext [] s.core.eng.q[(3 : Fin 5)]).find? s.circuitReady with
    | none => none
    | some c =>
      match s.dataCheck [queueWord 3] with
      | .error p => some (s.meetData 3 c p)
      | .ok s =>
        match (if s.core.circ.untold then s.reloadCirc else .ok s) with
        | .ok s => ((s.takePop c).runCircuit c).map State.progress
        | .error (.poison p) => some (s.meetData 3 c p)
        | .error (.fault spc va f) => some (s.engFault 3 c spc va f)
        | .error _ => none

def State.circuitRetire (s : State) : Option State := s.retireHead 3

end Sys2Proof.Machine
end

