-- ==== Sys2Proof/Machine/Fetch.lean ====
section
/-! DEFINITION. Fetch and dispatch: the instruction cache, the groups of R69, routing into the pipe queues, and the micro-words of
a layer program (R16, R17, R69 to R72, R79, R112, R113, R116). -/

namespace Sys2Proof.Machine

/-! ### The instruction cache (R112) -/

/-- The name of a cached line: the partition's translation gives it its bytes. -/
def State.lineKey (s : State) (line : Nat) : Nat := s.partId * 2 ^ 50 + line % 2 ^ 50

/-- What fetching a word finds. -/
inductive Fetched where
  | word (w : Nat)
  | fill (line key : Nat)
  | walk (va : Nat)
  | fail (va : Nat) (f : WalkFail)
  | out

/-- The bytes of a cached line. -/
def State.icLine (s : State) (line : Nat) : Option (List Byte) :=
  (s.core.fe.icache.find? fun l => l.1 == s.lineKey line).map (·.2)

/-- Look up the word at a code address: the line that it needs next, or its value. -/
def State.lookWord (s : State) (a : Nat) : Fetched :=
  let need (line : Nat) : Option Fetched :=
    match s.icLine line with
    | some _ => none
    | none =>
      match s.xlate .cl (line * 64) false with
      | .key k => some (.fill line k)
      | .fail f => some (.fail (line * 64) f)
      | _ => some (.walk (line * 64))
  if 2 ^ 56 ≤ a + 7 then .out
  else
    match need (a / 64), need ((a + 7) / 64) with
    | some f, _ => f
    | none, some f => f
    | none, none =>
      .word (leNat ((List.range 8).map fun i => ((s.icLine ((a + i) / 64)).getD []).getD ((a + i) % 64) 0))

/-- Fill a line; the oldest leaves a full cache of 1,024 lines. -/
def State.fillIc (s : State) (line key : Nat) : State :=
  s.fe fun f => { f with icache := ((s.lineKey line, s.mem.bytes key 64) :: f.icache).take 1024 }

/-! ### Groups (R69, R70, R79, R170) -/

/-- A word that has not been fetched yet, a word that is no instruction, or an instruction. -/
inductive Word1 where
  | stop (f : Fetched)
  | bad
  | ok (i : Instr)

/-- Where words come from: memory, or the control store; word k of the group. -/
abbrev Source := Nat → Word1

/-- What stands at the next address to dispatch: a group, none, or a word k that fetch has not got, of a kernel or not. -/
inductive Group where
  | stop (k : Nat) (kernel : Bool) (f : Fetched)
  | bad (paired : Bool)
  | ok (words : Nat) (instr : Instr) (ximm : Option (BitVec 50)) (stamp : Option (BitVec 32)) (follow : Option Instr)
      (kernel : List Instr)

/-- Kernel words k to k + n − 1 (R170). -/
def kernelWords (src : Source) : Nat → Nat → Except Group (List Instr)
  | 0, _ => .ok []
  | n + 1, k =>
    match src k with
    | .stop f => .error (.stop k true f)
    | .bad => .error (.bad false)
    | .ok i =>
      if !(i.kernelOk && i.soloOk) then .error (.bad false)
      else match kernelWords src n (k + 1) with
        | .ok is => .ok (i :: is)
        | .error g => .error g

/-- A governed word at place k of a group (R70): `f` says which instructions the words before it may govern. -/
def governed (src : Source) (k : Nat) (f : Instr → Bool) (g : Instr → Group) : Group :=
  match src k with
  | .stop x => .stop k false x
  | .bad => .bad true
  | .ok i => if f i then g i else .bad true

def isCopyF : Instr → Bool
  | .copyF _ => true
  | _ => false

/-- The group that begins at the next address (R69). -/
def groupAt (src : Source) : Group :=
  match src 0 with
  | .stop f => .stop 0 false f
  | .bad => .bad false
  | .ok (.ximm v) => governed src 1 (·.acceptsXimm) fun i => .ok 2 i (some v) none none []
  | .ok (.stamp t) =>
    governed src 1 (fun i => i.isLong || match i with | .ximm _ => true | _ => false) fun i =>
      match i with
      | .ximm v => governed src 2 (fun j => j.isLong && j.acceptsXimm) fun j => .ok 3 j (some v) (some t) none []
      | .copyF c => governed src 2 (·.isStage) fun b => .ok 3 (.copyF c) none (some t) (some b) []
      | i => .ok 2 i none (some t) none []
  | .ok (.copyF c) => governed src 1 (·.isStage) fun b => .ok 2 (.copyF c) none none (some b) []
  | .ok (.loop c s1 k1) =>
    match kernelWords src (k1.val + 1) 1 with
    | .ok ks => .ok (k1.val + 2) (.loop c s1 k1) none none none ks
    | .error g => g
  | .ok i => if i.soloOk then .ok 1 i none none none [] else .bad false

/-- Micro-forms, legal in the control store only (R78). -/
def isMicro : Instr → Bool
  | .mbr _ _ _ _ | .mloop _ _ | .mbnd _ => true
  | _ => false

/-- Words that a layer program may not hold (R116). -/
def notInMacro : Instr → Bool
  | .br _ _ _ _ | .call _ _ | .jr _ _ | .callr _ _ _ | .layer _ _ | .done | .eret => true
  | _ => false

/-- The words at a code address of memory. -/
def State.memSource (s : State) (pc : Nat) : Source := fun k =>
  match s.lookWord ((pc + 8 * k) % 2 ^ 64) with
  | .word w =>
    match decodeWord w with
    | .ok i => if isMicro i then .bad else .ok i
    | .error _ => .bad
  | f => .stop f

/-- The micro-words at a micro-address (R116). -/
def State.microSource (s : State) (u : Nat) : Source := fun k =>
  if 8192 ≤ u + k then .bad
  else
    match decodeWord (look 0 s.core.fe.cstore (u + k)).toNat with
    | .ok i => if notInMacro i then .bad else .ok i
    | .error _ => .bad

/-! ### Dispatch (R16, R17, R113) -/

/-- Entries of the X-pipe's queue that are in use: a LOOP and its K words take K, also while the kernel runs (R17). -/
def Front.xUsed (f : Front) : Nat :=
  (f.xq.map fun c => max 1 c.kernel.length).sum + (f.kernel.map fun c => c.kernel.length).getD 0

/-- The queue of an instruction has room. -/
def Front.roomFor (f : Front) (i : Instr) (kernel : List Instr) : Bool :=
  if i.isX then f.xUsed + max 1 kernel.length ≤ 64 else f.aq.length < 32

/-- Nothing that was dispatched has still to issue: the word at hand would issue next. -/
def Front.drained (f : Front) : Bool := f.aq.isEmpty && f.xq.isEmpty && f.kernel.isNone

/-- A word at the PC takes a precise trap of the sequencer (PIPE 0) when nothing is left to issue before it (R79, R112). -/
def State.seqTrap (s : State) (cause : Cause) (info : Word) (pc : Word) (upc : Option Nat) (paired : Bool) : State :=
  s.takeTrap ⟨0, cause, info, pc, pc, upc, s.core.sys.mloopStk, paired, 0, [], none⟩

/-- A skip of R370 covers a word of this pipe at an address. -/
def Front.skipped (f : Front) (pc : Nat) (xpipe : Bool) : Bool :=
  f.skip.any fun k => k.xpipe == xpipe && k.lo ≤ pc && pc < k.hi

/-- Skips end at the first word outside their range. -/
def Front.endSkips (f : Front) (pc : Nat) : Front := { f with skip := f.skip.filter fun k => k.lo ≤ pc && pc < k.hi }

/-- A group enters its queue. -/
def State.enqueue (s : State) (c : Slot) : State :=
  s.fe fun f =>
    let f := { f with seq := f.seq + seqStep, bnd := false }
    if c.instr.isX then { f with xq := f.xq ++ [c] } else { f with aq := f.aq ++ [c] }

/-- A group of memory words is dispatched: fetch goes on behind it, or at the target of a branch resolved here. -/
def State.dispatchMem (s : State) (c : Slot) (words : Nat) : State :=
  let s := s.enqueue c
  let s := s.fe fun f => { f with slot := f.slot + words - f.part, part := 0, pc := c.next, block := blocks c.instr }
  match c.instr with
  | .br .always _ _ off => s.redirect (abTarget (c.next - 8) off) 2
  | .call _ off => s.redirect (abTarget (c.next - 8) off) 2
  | _ => s

/-- Branches that are resolved at dispatch (R113). -/
def atDispatch : Instr → Bool
  | .br .always _ _ _ | .call _ _ => true
  | _ => false

/-- A group of micro-words is dispatched; the loops that end there count down here unless it directs the macro itself (R119). A skip of
the X-pipe that covers the LAYER covers them too (R370). -/
def State.dispatchMicro (s : State) (c : Slot) (words u : Nat) : State :=
  let skipped := c.instr.isX && s.core.fe.skipped c.pc.toNat true
  let s := if skipped then s else s.enqueue c
  let s := s.fe fun f => { f with slot := f.slot + words - f.part, part := 0, block := !skipped && blocks c.instr }
  if isMicro c.instr then s else s.microNext (u + words - 1) (u + words)

/-- Words of the group that the rest of this cycle's two slots cannot take wait for later cycles (R17). -/
def State.splitGroup (s : State) : State := s.fe fun f => { f with part := f.part + (2 - f.slot), slot := 2 }

/-- What a fetch of word k of a group asks for when the group would issue: a walk, or the fault at the group's first word, PAIRED when a
later word meets it (R71, R79, R90, R112). A kernel's word is reported at its LOOP, whose group no prefix makes (notes/assumptions/103.md). -/
def State.fetchStop (s : State) (k : Nat) (kernel : Bool) (f : Fetched) (pc : Word) : Option State :=
  let paired := k != 0 && !kernel
  match f with
  | .fill line key => some (s.fillIc line key)
  | .walk va => if s.core.fe.drained && !(s.core.lsu.walks.any fun w => w.fetch) then some (s.askWalk .cl va false true) else none
  | .fail va f =>
    if s.core.fe.drained then
      some (s.pageFaultAt { s.boundary 0 .pageFault 0 with pc := pc, opc := pc, upc := none, paired := paired } .cl va f)
    else none
  | .out => if s.core.fe.drained then some (s.seqTrap .bounds (pc + BitVec.ofNat 64 (8 * k)) pc none paired) else none
  | .word _ => none

/-- The next group, from memory or from the layer program, with its first address. -/
def State.nextGroup (s : State) : Group :=
  match s.core.fe.mac with
  | some m => groupAt (s.microSource m.upc)
  | none => groupAt (s.memSource s.core.fe.pc.toNat)

/-- The lines that the next group needs and that translate are brought in. -/
def State.fillGroup : Nat → State → State
  | 0, s => s
  | n + 1, s =>
    match s.nextGroup with
    | .stop _ _ (.fill line key) => State.fillGroup n (s.fillIc line key)
    | _ => s

/-- Words dispatch while the unit runs, and in a handler also after its DONE (R36, R126). -/
def Front.fetches (f : Front) : Bool := f.unit == .running || (f.unit == .ending && f.handler)

/-- One group at the next address is dispatched, or what holds it comes a step nearer; none where dispatch stands still. -/
def State.dispatch (s : State) : Option State :=
  let f := s.core.fe
  if !f.fetches || f.block || f.hold != 0 || 2 ≤ f.slot then none
  else
    let s := s.fillGroup 10
    let u := f.mac.map (·.upc)
    let pc := match f.mac with | some m => m.layer.pc | none => f.pc
    match s.nextGroup with
    | .stop k kernel x => s.fetchStop k kernel x pc
    | .bad paired =>
      -- A word that is no instruction is no pipe's own; the skip of the A-pipe passes it (notes/assumptions/102.md).
      if f.mac.isNone && f.skipped pc.toNat false then some (s.fe fun f => { f with pc := f.pc + 8, slot := f.slot + 1 })
      else if f.drained then let (w, s) := s.fresh; some (s.seqTrap .illegal w pc u paired)
      else none
    | .ok words i ximm stamp follow kernel =>
      let next := match f.mac with | some m => m.layer.next | none => pc + BitVec.ofNat 64 (8 * words)
      let s := if f.mac.isSome then s else s.fe fun f => f.endSkips pc.toNat
      if f.mac.isNone && s.core.fe.skipped pc.toNat i.isX then
        some (s.fe fun f => { f with pc := next, slot := f.slot + words })
      else if !f.roomFor i kernel then none
      else if 2 < f.slot + words - f.part then some s.splitGroup
      else
        let c : Slot := ⟨i, pc, next, ximm, stamp, follow, kernel, stamp.isSome || ximm.isSome || follow.isSome, u, f.seq,
          f.mac.isNone && atDispatch i, false, s.core.sys.mloopStk⟩
        match u with
        | some u => some (s.dispatchMicro c words u)
        | none => some (s.dispatchMem c words)

end Sys2Proof.Machine
end

