-- ==== Sys2Proof/Machine/Reshard.lean ====
section
/-! DEFINITION. The reshard engine: layout records, plans, progress, and the commands of majors 0x3C and 0x3D (R294 to R313). -/

namespace Sys2Proof.Machine

/-! ### Layout records (R295, R296) -/

def prod (l : List Nat) : Nat := l.foldl (· * ·) 1

/-- The words of a layout record as fields; lists run over all dimensions or axes. -/
structure LayRec where
  w : List Nat
  rank : Nat
  mrank : Nat
  ty : Nat

def layRec (w : List Nat) : LayRec := ⟨w, fld (w.getD 0 0) 45 3, fld (w.getD 0 0) 42 3, fld (w.getD 0 0) 38 4⟩

def LayRec.word (r : LayRec) (i : Nat) : Nat := r.w.getD i 0
def LayRec.order (r : LayRec) (k : Nat) : Nat := fld (r.word 1) (3 * k) 3
def LayRec.ext (r : LayRec) (d : Nat) : Nat := fld (r.word (2 + d)) 0 32
def LayRec.mesh (r : LayRec) (a : Nat) : Nat := fld (r.word 8) (16 * a) 16
def LayRec.axis (r : LayRec) (d : Nat) : Nat := fld (r.word 9) (4 * d) 4
def LayRec.blk (r : LayRec) (d : Nat) : Nat := fld (r.word (10 + d)) 0 32
def LayRec.pitch (r : LayRec) (d : Nat) : Nat := fld (r.word (17 + d)) 0 48
def LayRec.esize (r : LayRec) : Nat := (ElemTy.ofCode r.ty).width / 8
def LayRec.entries (r : LayRec) : Nat := prod ((List.range r.mrank).map r.mesh)

/-- The local extent of a dimension (R296). -/
def LayRec.local' (r : LayRec) (d : Nat) : Nat :=
  if r.axis d = 15 then r.ext d else ceilDiv (r.ext d) (r.blk d * r.mesh (r.axis d)) * r.blk d

/-- Word i of a record satisfies R295 and R296, the words before it being valid. -/
def LayRec.wordOk (r : LayRec) (i : Nat) : Bool :=
  let w := r.word i
  let dims := List.range r.rank
  if i = 0 then fld w 48 16 = 0x4C59 && 1 ≤ r.rank && r.rank ≤ 6 && 1 ≤ r.mrank && r.mrank ≤ 4 && r.ty != 0 && r.ty != 7 && fld w 0 38 = 0
  else if i = 1 then
    fld w 18 46 = 0 && (dims.all fun d => (dims.map r.order).contains d) && (List.range 6).all fun k => k < r.rank || r.order k = 0
  else if i < 8 then fld w 32 32 = 0 && (if i - 2 < r.rank then 1 ≤ r.ext (i - 2) else r.ext (i - 2) = 0)
  else if i = 8 then
    ((List.range 4).all fun a => if a < r.mrank then 1 ≤ r.mesh a && r.mesh a ≤ 256 else r.mesh a = 0) && r.entries ≤ 256
  else if i = 9 then
    fld w 24 40 = 0 && (List.range 6).all fun d =>
      r.axis d = 15 || (d < r.rank && r.axis d < r.mrank && (List.range d).all fun e => r.axis e != r.axis d)
  else if i < 16 then
    let d := i - 10
    fld w 32 32 = 0 && (if r.axis d = 15 then r.blk d = 0 else 1 ≤ r.blk d && r.blk d ≤ r.ext d)
  else if i = 16 then fld w 56 8 = 0 && w % 16 = 0
  else if i < 23 then
    let d := i - 17
    fld w 48 16 = 0 &&
      if d < r.rank then
        (List.range r.rank).all fun k =>
          r.order k != d || (if k = 0 then r.pitch d = r.esize else r.pitch (r.order (k - 1)) * r.local' (r.order (k - 1)) ≤ r.pitch d)
      else r.pitch d = 0
  else w = 0

/-- The byte offset of the first faulty word. -/
def LayRec.bad (r : LayRec) : Option Nat := ((List.range 32).find? fun i => !r.wordOk i).map (8 * ·)

/-- The layout of a valid record and its device table. -/
def LayRec.layout (r : LayRec) (tab : List (Nat × Nat)) : Layout :=
  let dims := List.range r.rank
  ⟨r.esize, r.ty, dims.map r.ext, (List.range r.mrank).map r.mesh, dims.map r.axis, dims.map r.blk, dims.map r.pitch, tab⟩

/-- The first faulty word of a device table of 16-byte entries (R297). -/
def tabBad (ndev esize : Nat) (w : List Nat) : Option Nat :=
  (List.range w.length).findSome? fun i =>
    let x := w.getD i 0
    let ok :=
      if i % 2 = 0 then
        fld x 11 53 = 0 && fld x 8 3 = 3 && fld x 0 8 < ndev &&
          (List.range (i / 2)).all fun t => fld (w.getD (2 * t) 0) 0 8 != fld x 0 8
      else fld x 56 8 = 0 && x % esize = 0
    if ok then none else some (8 * i)

def tabOf (w : List Nat) : List (Nat × Nat) :=
  (List.range (w.length / 2)).map fun t => (fld (w.getD (2 * t) 0) 0 8, fld (w.getD (2 * t + 1) 0) 0 56)

/-! ### Ownership and the plan (R298 to R301) -/

/-- The coordinate of table entry t (R297). -/
def coordOf : List Nat → Nat → List Nat
  | [], _ => []
  | m :: ms, t => t % m :: coordOf ms (t / m)

/-- A coordinate owns index g of dimension d (R298). -/
def Layout.owns (l : Layout) (c : List Nat) (d g : Nat) : Bool :=
  let a := l.axis.getD d 15
  a = 15 || g / l.blk.getD d 1 % l.mesh.getD a 1 = c.getD a 0

/-- The local index (R298). -/
def Layout.loc (l : Layout) (d g : Nat) : Nat :=
  let a := l.axis.getD d 15
  let b := l.blk.getD d 1
  if a = 15 then g else g / (b * l.mesh.getD a 1) * b + g % b

/-- The address of a global index at entry t. -/
def Layout.addr (l : Layout) (t : Nat) (g : List Nat) : Nat :=
  (l.tab.getD t (0, 0)).2 + ((List.range g.length).map fun d => l.loc d (g.getD d 0) * l.pitch.getD d 0).sum

/-- The entry of a device. -/
def Layout.entryOf (l : Layout) (dev : Nat) : Option Nat := (List.range l.tab.length).find? fun t => (l.tab.getD t (0, 0)).1 == dev

/-- An axis that no dimension names is replicated (R296). -/
def Layout.replicated (l : Layout) (a : Nat) : Bool := !l.axis.contains a

/-- An entry is a sender's (R299). -/
def Layout.sender (l : Layout) (t : Nat) : Bool :=
  let c := coordOf l.mesh t
  (List.range l.mesh.length).all fun a => !l.replicated a || c.getD a 0 = 0

/-- The indices of dimension d that a coordinate owns. -/
def Layout.owned (l : Layout) (c : List Nat) (d : Nat) : List Nat := (List.range (l.ext.getD d 0)).filter (l.owns c d)

/-- The product of lists, the last varying fastest. -/
def product {α : Type} : List (List α) → List (List α)
  | [] => [[]]
  | l :: ls => l.flatMap fun x => (product ls).map (x :: ·)

/-- The global indices of the elements that entry t holds. -/
def Layout.held (l : Layout) (t : Nat) : List (List Nat) :=
  product ((List.range l.ext.length).map (l.owned (coordOf l.mesh t)))

/-- The bytes that a destination entry expects (R301). -/
def Layout.expect (l : Layout) (t : Nat) : Nat :=
  l.esize * prod ((List.range l.ext.length).map fun d => (l.owned (coordOf l.mesh t) d).length)

/-- The cuts of a dimension: multiples of the block sizes that split it (R300). -/
def isCut (s d : Layout) (k g : Nat) : Bool :=
  g = 0 || (s.axis.getD k 15 != 15 && g % s.blk.getD k 1 = 0) || (d.axis.getD k 15 != 15 && g % d.blk.getD k 1 = 0)

/-- The segments of a dimension as index lists: cut at every multiple of the block sizes (R300). -/
def segments (s d : Layout) (k : Nat) : List (List Nat) :=
  (List.range (s.ext.getD k 0)).foldr (fun g l =>
    match l with
    | x :: xs => if isCut s d k (g + 1) then [g] :: x :: xs else (g :: x) :: xs
    | [] => [[g]]) []

/-- A sub-transfer of a plan: destination entry, box, byte within the box, ordinal, and the global indices of its elements. -/
structure Sub where
  t : Nat
  box : Nat
  byte : Nat
  ord : Nat
  elems : List (List Nat)
  deriving DecidableEq, Repr

/-- A list in pieces of q. -/
def pieces {α : Type} (q : Nat) : Nat → List α → List (List α)
  | 0, _ => []
  | fuel + 1, l => if l.isEmpty then [] else l.take q :: pieces q fuel (l.drop q)

/-- Number the sub-transfers of one destination. -/
def numbered (t q e : Nat) (boxes : List (List (List Nat))) : List Sub :=
  let raw := (boxes.zip (List.range boxes.length)).flatMap fun b =>
    let ps := pieces q (b.1.length + 1) b.1
    (ps.zip (List.range ps.length)).map fun p => (b.2, p.2 * q * e, p.1)
  (raw.zip (List.range raw.length)).map fun r => ⟨t, r.1.1, r.1.2.1, r.2, r.1.2.2⟩

/-- The boxes of a destination entry for a sender's entry (R300). -/
def boxesOf (s d : Layout) (ts t : Nat) : List (List (List Nat)) :=
  let cs := coordOf s.mesh ts
  let ct := coordOf d.mesh t
  let segs := (List.range s.ext.length).map fun k =>
    (segments s d k).filter fun g => s.owns cs k (g.headD 0) && d.owns ct k (g.headD 0)
  (product segs).map product

/-- The plan of a sender (R300). -/
def planOf (s d : Layout) (ts : Nat) : List Sub :=
  (List.range d.tab.length).flatMap fun t => numbered t (65536 / s.esize) s.esize (boxesOf s d ts t)

def Resh.plan (r : Resh) : List Sub := if r.sends then planOf r.src r.dst (r.ts.getD 0) else []

/-! ### Records in memory (R302, R303) -/

/-- A cause of R309: offset, side, table, region. -/
def layoutInfo (off side tab reg : Nat) : Word := BitVec.ofNat 64 (off % 2 ^ 16 + side * 2 ^ 16 + tab * 2 ^ 17 + reg * 2 ^ 18)

/-- Words of 8 bytes at a .CL address. -/
def State.clWords (s : State) (a n : Nat) : Except Halt (List Nat × State) := (s.engRead .cl a (8 * n)).map fun r => (entries 8 n r.1, r.2)

/-- Bytes of a list of words. -/
def wordBytes (l : List Nat) : List Byte := l.flatMap (leBytes 8)

/-- A layout record and its table: the layout, their bytes, and the state that has read them (R304 step 1). Of a table that leaves the window
the entries inside it are read, and the first faulty word is reported (R309). -/
def State.readLayout (s : State) (a side ndev : Nat) : Except Halt (Layout × List Byte × State) := do
  let (w, s) ← s.clWords a 32
  let r := layRec w
  match r.bad with
  | some off => .error (.cause .reshardLayout (layoutInfo off side 0 0))
  | none => pure ()
  let n := 2 * r.entries
  let within := min n ((2 ^ 56 - r.word 16) / 8)
  let (tw, s) ← s.clWords (r.word 16) within
  match tabBad ndev r.esize tw, decide (within < n) with
  | some off, _ => .error (.cause .reshardLayout (layoutInfo off side 1 0))
  | none, true => .error (.cause .reshardLayout (layoutInfo (8 * within) side 1 0))
  | none, false => pure (r.layout (tabOf tw), wordBytes w ++ wordBytes tw, s)

/-- The word of a progress record (R302) and its CRC. -/
def progressBytes (key gen st dcur bcur byte ord sent : Nat) : List Byte :=
  let l := [key * 2 ^ 32 + gen * 2 ^ 16 + st, dcur, bcur, byte, ord, sent, 0]
  let bs := wordBytes l
  bs ++ leBytes 8 (crc32c bs)

/-- The progress record as the cursors stand (R305). -/
def Resh.record (r : Resh) (fresh : Bool) : List Byte :=
  match r.plan[r.old]? with
  | some u => if fresh then progressBytes r.key r.gen 1 0 0 0 0 0 else progressBytes r.key r.gen 1 u.t u.box u.byte u.ord r.sent
  | none => progressBytes r.key r.gen 2 r.dst.tab.length 0 0 0 r.sent

/-- Nothing is left to send. -/
def Resh.over (r : Resh) : Bool := r.plan.length ≤ r.old

/-! ### Issue (R310, R311) -/

/-- An address of a record in .CL: its alignment and its bounds. -/
def recordCheck (a : Word) (n : Nat) : Check Unit := do
  need (a.toNat % 64 = 0)
  if 2 ^ 56 < a.toNat + n then outside (BitVec.ofNat 64 (max a.toNat (2 ^ 56))) else pure ()

def receiveBytes : Nat := 2112

def execReshard (c : ECmd) (s : State) : Out :=
  s.aIssue [c.x, c.y, c.w, c.z] [] fun s =>
    s.issueCmd 4 (.reshard c) c.hk noVault fun s =>
      judge [s.g c.x, s.g c.y, s.g c.w, s.g c.z] [] [] .rne do
        recordCheck (s.g c.x) 256
        recordCheck (s.g c.y) 256
        recordCheck (s.g c.w) 64
        if c.z = 0 then pure () else recordCheck (s.g c.z) receiveBytes
        s.notHandler

/-- RSWAIT and its RECV form enter the queue; in Strict mode the A-pipe resumes at a set cycle. -/
def State.waitCmd (s : State) (i : Instr) (ops : List Word) : Out :=
  if !s.engRoom 4 then .next s.wait
  else
    let s := s.handOver 4 (s.mkCmd i ⟨none, none⟩ ⟨ops, [], [], .rne⟩ false) false
    done (if s.strict then s.fe fun f => { f with aFrom := f.cycle + s.pad 10 } else s)

def execRswait (x : GReg) (s : State) : Out :=
  s.aIssue [] [x] fun s =>
    if s.core.fe.handler then done (s.setG x s.core.rsLast) else s.waitCmd (.rswait x) []

def execRswaitRecv (x y : GReg) (s : State) : Out :=
  s.aIssue [y] [x] fun s =>
    match recordCheck (s.g y) receiveBytes with
    | .error (c, info) => (match info with | some w => s.aTrap c w | none => s.aTrapFree c)
    | .ok _ =>
      if s.core.fe.handler then
        match s.clWords ((s.g y).toNat + 16) 1 with
        | .ok (w, s) => done (s.setG x (BitVec.ofNat 64 (w.getD 0 0)))
        | .error (.fault spc va f) => .next ((s.wait).pageFault spc va f)
        | .error _ => .next s.wait
      else s.waitCmd (.rswaitRecv x y) [s.g y]

/-! ### RESHARD starts (R304, R312) -/

/-- The index of this device in the job's device table. -/
def State.selfDev (s : State) : Option Nat :=
  (List.range s.devs.length).find? fun i => (s.devs.getD i (256, 0)).1 == s.pkg.fabric.toNat % 256

/-- The bytes of the local elements of an entry. -/
def Layout.bytesOf (l : Layout) (t : Nat) : List Nat := (l.held t).flatMap fun g => addrs (l.addr t g) l.esize

/-- R304 step 3: the own regions lie in the window and share no byte. -/
def regionBad (src dst : Layout) (ts td : Option Nat) : Option Word :=
  let a := match ts with | some t => src.bytesOf t | none => []
  let b := match td with | some t => dst.bytesOf t | none => []
  if a.any fun x => 2 ^ 56 ≤ x then some (layoutInfo 0 0 0 1)
  else if b.any fun x => 2 ^ 56 ≤ x then some (layoutInfo 0 1 0 1)
  else if a.any b.contains then some (layoutInfo 0 1 0 1)
  else none

/-- The receive side of a key and a generation becomes active, unless another unit or record holds it (R304, R306). -/
def State.activate (s : State) (key gen at0 : Nat) (fin : Bool) : Option State :=
  let mine : RsSide := ⟨key, gen, s.partId, at0, s.unitRef, (s.pkg.counter s.uctr).job, fin⟩
  if s.pkg.rsSides.any fun d => d.key == key && d.gen == gen && !d.ended && !(d.unit == mine.unit && d.record == at0) then none
  else some (s.pkgd fun p => { p with rsSides := mine :: p.rsSides.filter fun d => !(d.key == key && d.gen == gen) })

/-- The place in a plan that the cursors of a progress record name: a sub-transfer, or the end of a destination's boxes. -/
def cursorAt (plan : List Sub) (tabLen dcur bcur byte ord : Nat) : Option Nat :=
  match (List.range plan.length).find? fun i =>
      match plan[i]? with
      | some u => u.t == dcur && u.box == bcur && u.byte == byte && u.ord == ord
      | none => false with
  | some i => some i
  | none =>
    let mine := plan.filter fun u => u.t == dcur
    let boxes := mine.foldl (fun m u => max m (u.box + 1)) 0
    if dcur < tabLen && bcur = boxes && byte = 0 && ord = mine.length then
      some (plan.takeWhile fun u => u.t ≤ dcur).length
    else none

/-- The command has come to its end: SENT is kept for RSWAIT. -/
def State.reshDone (s : State) (c : EngCmd) (sent : Nat) : State :=
  let s := s.setCmd 4 { c with st := .done, out := [] }
  s.withCore { s.core with resh := none, rsLast := BitVec.ofNat 64 sent }

/-- The progress record is written, and the command completes when its plan is exhausted (R305, R312). -/
def State.reshWrite (s : State) (c : EngCmd) (r : Resh) (fresh : Bool) : Except Halt State :=
  match s.engWrite .cl (c.ops.getD 2 0).toNat (r.record fresh) with
  | .error h => .error h
  | .ok s =>
    if r.over then .ok (s.reshDone c r.sent)
    else
      let s := s.setCmd 4 { c with popped := true, st := .running }
      .ok (s.withCore { s.core with resh := some r })

/-- The header of a receive record: V with the key and generation, EXPECT and RECV. -/
def State.rsHeader (s : State) (a key gen : Nat) : Except Halt (Bool × Nat × Nat × State) :=
  (s.clWords a 3).map fun r =>
    (bitAt (r.1.getD 0 0) 0 && r.1.getD 0 0 / 2 ^ 16 == key * 2 ^ 16 + gen, r.1.getD 1 0, r.1.getD 2 0, r.2)

/-- Step 4 of R304 for STATE 0. -/
def State.reshFresh (s : State) (c : EngCmd) (r : Resh) (zAt : Nat) : Except Halt State := do
  let s ← match r.td with
    | none => pure s
    | some t =>
      let (held, ex, rcv, s) ← s.rsHeader zAt r.key r.gen
      let expect := r.dst.expect t
      let fin := if held then ex ≤ rcv else expect = 0
      match s.activate r.key r.gen zAt fin with
      | none => .error (.cause .reshardProgress 2)
      | some s' =>
        if held then pure s'
        else s'.engWrite .cl zAt (wordBytes ([r.key * 2 ^ 32 + r.gen * 2 ^ 16 + 1, expect] ++ List.replicate 262 0))
  s.reshWrite c r true

/-- Step 4 of R304 for STATE 1 with a valid record: resume at its cursors; the SENT of an empty plan is 0 (R312). -/
def State.reshResume (s : State) (c : EngCmd) (r : Resh) (zAt : Nat) (w : List Nat) : Except Halt State := do
  match cursorAt r.plan r.dst.tab.length (w.getD 1 0) (w.getD 2 0) (w.getD 3 0) (w.getD 4 0) with
  | none => .error (.cause .reshardProgress 0)
  | some i =>
    let s ← match r.td with
      | none => pure s
      | some _ =>
        let (held, ex, rcv, s) ← s.rsHeader zAt r.key r.gen
        if !held then .error (.cause .reshardProgress 1)
        else match s.activate r.key r.gen zAt (ex ≤ rcv) with
          | none => .error (.cause .reshardProgress 2)
          | some s' => pure s'
    let r := { r with next := i, old := i, sent := if r.plan.isEmpty then 0 else w.getD 5 0 }
    if r.over then s.reshWrite c r false
    else
      let s := s.setCmd 4 { c with popped := true, st := .running }
      pure (s.withCore { s.core with resh := some r })

/-- Step 4 of R304 for STATE 2: nothing is sent. -/
def State.reshAgain (s : State) (c : EngCmd) (r : Resh) (zAt : Nat) (w : List Nat) : Except Halt State := do
  let s ← match r.td with
    | none => pure s
    | some _ =>
      let (held, ex, rcv, s) ← s.rsHeader zAt r.key r.gen
      if !held then .error (.cause .reshardProgress 1)
      else if ex ≤ rcv then pure s
      else match s.activate r.key r.gen zAt false with
        | none => .error (.cause .reshardProgress 2)
        | some s' => pure s'
  pure (s.reshDone c (w.getD 5 0))

/-- R304 (R312). -/
def State.reshBegin (s : State) (c : EngCmd) (hasZ : Bool) : Except Halt State := do
  let (src, sb, s) ← s.readLayout (c.ops.getD 0 0).toNat 0 s.devs.length
  let (dst, db, s) ← s.readLayout (c.ops.getD 1 0).toNat 1 s.devs.length
  let n := src.ext.length
  if src.ty != dst.ty || n != dst.ext.length then .error (.cause .reshardLayout (layoutInfo 0 1 0 0)) else pure ()
  match (List.range n).find? fun d => src.ext.getD d 0 != dst.ext.getD d 0 with
  | some d => .error (.cause .reshardLayout (layoutInfo (8 * (2 + d)) 1 0 0))
  | none => pure ()
  let me := s.selfDev
  let ts := me.bind src.entryOf
  let td := me.bind dst.entryOf
  match regionBad src dst ts td with
  | some i => .error (.cause .reshardLayout i)
  | none => pure ()
  if ts.isNone && td.isNone then pure (s.reshDone c 0)
  else
    let (w, s) ← s.clWords (c.ops.getD 2 0).toNat 8
    let key := crc32c (sb ++ db)
    let w0 := w.getD 0 0
    let r : Resh := ⟨src, dst, me.getD 0, ts, td, key, fld w0 16 16, match ts with | some t => src.sender t | none => false, 0, 0, [], 0, none⟩
    let zAt := (c.ops.getD 3 0).toNat
    let ok := w0 / 2 ^ 32 == key
    if td.isSome && !hasZ then .error (.cause .reshardProgress 1)
    else if fld w0 0 2 = 0 then s.reshFresh c r zAt
    else if fld w0 0 2 = 1 && ok && w.getD 7 0 == crc32c (wordBytes (w.take 7)) then s.reshResume c r zAt w
    else if fld w0 0 2 = 2 && ok then s.reshAgain c r zAt w
    else .error (.cause .reshardProgress 0)

/-! ### Sending (R305, R308) -/

/-- Sub-transfers of this core in flight. -/
def State.inFlight (s : State) : List RsSend := s.pkg.rsFly.filter fun f => f.core == s.core.idx

/-- The bytes of a sub-transfer by destination address, read from the source elements. -/
def State.subCells (r : Resh) (t : Nat) : List (List Nat) → State → Except Halt (List (Nat × Byte) × State)
  | [], s => .ok ([], s)
  | g :: gs, s =>
    match s.engRead .cl (r.src.addr (r.ts.getD 0) g) r.src.esize with
    | .error h => .error h
    | .ok (bs, s) => (State.subCells r t gs s).map fun x => ((addrs (r.dst.addr t g) r.src.esize).zip bs ++ x.1, x.2)

/-- The next sub-transfer is read and sent, to another device over the link of its route (R305). -/
def State.reshSend (s : State) (r : Resh) (u : Sub) : Except Halt State :=
  (State.subCells r u.t u.elems s).map fun x =>
    let s := x.2
    let dev := (r.dst.tab.getD u.t (0, 0)).1
    let fab := (s.devs.getD dev (256, 0)).1
    let f : RsSend := ⟨s.core.idx, r.next, dev, fab, r.key, r.gen, r.me, u.ord, x.1, false⟩
    let s := s.pkgd fun p => { p with rsFly := p.rsFly ++ [f] }
    let s := s.withCore { s.core with resh := some { r with next := r.next + 1 } }
    if fab = s.pkg.fabric.toNat % 256 then s else s.sendFlit fab (.sub s.core.idx r.next)

/-- A running RESHARD issues one sub-transfer, none to a device that cannot be reached, or takes RESHARD_LINK once the others have
settled (R305, R308, R359). -/
def State.reshGo (s : State) (c : EngCmd) (r : Resh) : Option State :=
  match r.fail with
  | some d =>
    if s.inFlight.isEmpty then
      some ((s.withCore { s.core with resh := none }).raiseCause 4 c .reshardLink (BitVec.ofNat 64 d))
    else none
  | none =>
    if 4 ≤ r.next - r.old then none
    else match r.plan[r.next]? with
      | none => none
      | some u =>
        let dev := (r.dst.tab.getD u.t (0, 0)).1
        if (s.pkg.cutDev s.devs dev).isSome then some (s.withCore { s.core with resh := some { r with fail := some dev } })
        else
        match s.reshSend r u with
        | .ok s => some s
        | .error (.fault spc va f) => some (s.engFault 4 c spc va f)
        | .error (.poison p) => some (s.meetData 4 c p)
        | .error _ => none

/-- RSWAIT with RECV: the receive record as it is (R311). -/
def State.recvStart (s : State) (c : EngCmd) (x : GReg) : Option State :=
  match s.clWords (c.ops.getD 0 0).toNat 3 with
  | .ok (w, s) =>
    if bitAt (w.getD 0 0) 0 && w.getD 1 0 == w.getD 2 0 then
      some ((s.setG x (BitVec.ofNat 64 (w.getD 2 0))).setCmd 4 { c with st := .done })
    else none
  | .error (.fault spc va f) => some (s.engFault 4 c spc va f)
  | .error (.poison p) => some (s.meetData 4 c p)
  | .error _ => none

/-- RESHARD starts. -/
def State.reshStart (s : State) (c : EngCmd) (hasZ : Bool) : Option State :=
  let s := s.takePop c
  let c := { c with popped := true }
  match s.reshBegin c hasZ with
  | .ok s => some s
  | .error (.fault spc va f) => some (s.engFault 4 c spc va f)
  | .error (.cause k i) => some (s.raiseCause 4 c k i)
  | .error (.poison p) => some (s.meetData 4 c p)
  | .error _ => none

/-- RESHARD_COMMAND_START (R294, R304, R305, R311). In handler mode, and in a unit that is being saved, nothing starts and nothing is
issued (R308, R323). -/
def State.reshardStart (s : State) : Option State :=
  if !s.engActive || s.core.fe.handler || s.core.fe.settling || s.queueHeld 4 then none
  else
    match firstOpen s.core.eng.q[(4 : Fin 5)] with
    | none => none
    | some c =>
      if c.st == .running then (s.core.resh.bind (s.reshGo c)).map State.progress
      else if !s.popReady c then none
      else
        match s.dataCheck [queueWord 4], c.instr with
        | .error p, _ => some (s.meetData 4 c p)
        | .ok s, .rswait x => some ((s.setG x s.core.rsLast).setCmd 4 { c with st := .done }).progress
        | .ok s, .rswaitRecv x _ => (s.recvStart c x).map State.progress
        | .ok s, .reshard e => (s.reshStart c (e.z != 0)).map State.progress
        | .ok _, _ => none

def State.reshardRetire (s : State) : Option State := s.retireHead 4

/-- Acknowledged sub-transfers at the front of the plan are passed (R305). -/
def Resh.advance : Nat → Resh → Resh
  | 0, r => r
  | n + 1, r =>
    if r.acked.contains r.old then
      Resh.advance n { r with old := r.old + 1, acked := r.acked.filter (· != r.old),
                              sent := r.sent + r.src.esize * ((r.plan[r.old]?).map (·.elems.length)).getD 0 }
    else r

/-- The sub-transfers of this core in flight have no command that waits for them. -/
def State.reshDrop (s : State) : State := (s.withCore { s.core with resh := none }).pkgd fun p => p.orphan s.core.idx

/-- SUB_TRANSFER_ACK (R305): the acknowledgement of sub-transfer ix of this core's plan. One to this device itself has been counted
here first. An acknowledgement whose record write fails stands until the write can be made (R90); in a unit that is being saved the record
stays as it is then, and what it does not hold is sent again after the resumption (R308; notes/assumptions/117.md). -/
def State.subAck (s : State) (ix : Nat) : Option State :=
  match s.core.resh, firstOpen s.core.eng.q[(4 : Fin 5)], s.inFlight.find? fun f => f.ix == ix with
  | some r, some c, some f =>
    if !s.engActive || (f.fab == s.pkg.fabric.toNat % 256 && !f.landed) then none
    else
      let t := s.pkgd fun p => { p with rsFly := p.rsFly.filter fun x => !(x.core == f.core && x.ix == ix) }
      let r2 := { r with acked := ix :: r.acked }.advance 8
      if r2.old == r.old then some (t.withCore { t.core with resh := some r2 }).progress
      else match t.reshWrite c r2 false with
        | .ok t => some t.progress
        | .error (.fault spc va f) => some ((if s.core.fe.unit == .saving then s.reshDrop else s).engFault 4 c spc va f)
        | .error (.poison p) => some (s.meetData 4 c p)
        | .error _ => none
  | _, _, _ => none

/-! ### Receiving (R306) -/

/-- Keys of .CL bytes of a partition, through the cache of die 0 (notes/assumptions/108.md). -/
def State.partKeys (s : State) (part a n : Nat) (write : Bool) : Option (List Nat × State) :=
  match s.pkg.parts.find? fun p => p.id == part with
  | none => none
  | some p => match State.dieKeys 0 p .cl write (addrs a n) s with
    | (.ok ks, s) => some (ks, s)
    | _ => none

def State.partWord (s : State) (part a : Nat) : Option Nat := (s.partKeys part a 8 false).map fun r => leNat (r.1.map s.mem.read)

def State.partPut (s : State) (part a : Nat) (bs : List Byte) : Option State :=
  (s.partKeys part a bs.length true).map fun r => r.2.landKeys r.1 bs

/-- Every byte of a sub-transfer is written. -/
def State.putCells (s : State) (part : Nat) : List (Nat × Byte) → Option State
  | [] => some s
  | (a, b) :: l => match s.partPut part a [b] with
    | some s => State.putCells s part l
    | none => none

/-- NEXT and AHEAD after an ordinal has been counted (R306). -/
def countOrd : Nat → Nat → Nat → Nat × Nat
  | 0, next, ahead => (next, ahead)
  | n + 1, next, ahead => if ahead % 2 = 1 then countOrd n (next + 1) (ahead / 2) else (next, ahead)

/-- The entry word of a sender after ordinal k (R303, R306). -/
def entryAfter (e k : Nat) : Nat :=
  let next := e % 2 ^ 60
  let ahead := e / 2 ^ 60
  if k = next then
    -- the bit of NEXT + 1 comes down first
    let (n, a) := countOrd 4 (next + 1) ahead
    (a / 2) * 2 ^ 60 + n
  else e ||| 2 ^ (60 + (k - next - 1))

/-- A sub-transfer that arrives: key, generation, sender, ordinal and bytes (R306). Without a receive side it waits on its link; a job's
cancel ends its receive sides (R294). -/
def State.receive (s : State) (key gen sender ord : Nat) (cells : List (Nat × Byte)) : Option State :=
  match s.pkg.rsSides.find? fun d => d.key == key && d.gen == gen with
  | none => none
  | some d =>
    let at' := d.record + 64 + 8 * sender
    match s.partWord d.part at', s.partWord d.part (d.record + 16), s.partWord d.part (d.record + 8) with
    | some e, some rcv, some ex =>
      let next := e % 2 ^ 60
      let dup := ord < next || (next < ord && bitAt e (60 + (ord - next - 1)))
      match s.putCells d.part cells with
      | none => none
      | some s =>
        if dup then some s
        else match s.partPut d.part at' (leBytes 8 (entryAfter e ord)) with
          | none => none
          | some s =>
            match s.partPut d.part (d.record + 16) (leBytes 8 (rcv + cells.length)) with
            | none => none
            | some s =>
              some (if rcv + cells.length = ex then
                s.pkgd fun p => { p with rsSides := p.rsSides.map fun x => if x == d then { x with ended := true } else x }
              else s)
    | _, _, _ => none

/-- SUB_TRANSFER: one of this device's own in flight to itself, or one that another device has sent. One whose command a cancel has
stopped is no more in flight then. -/
def State.subTransfer (s : State) (x : Nat × Nat × Nat × Nat × List (Nat × Byte)) : Option State :=
  let (key, gen, sender, ord, cells) := x
  let same (f : RsSend) : Bool :=
    f.key == key && f.gen == gen && f.sender == sender && f.ord == ord && f.fab == s.pkg.fabric.toNat % 256 && !f.landed && f.cells == cells
  let mark (f : RsSend) : RsSend := if same f then { f with landed := true } else f
  (s.receive key gen sender ord cells).map fun s =>
    s.pkgd fun p => { p with rsFly := (p.rsFly.filter fun f => !(same f && f.core == noCore)).map mark }

end Sys2Proof.Machine
end

