-- ==== Sys2Proof/Machine/Pipeline.lean ====
section
/-! DEFINITION. The device's own operations inside a core: dispatch, the range checker, landings, data that returns, queue stores,
streams, memory-side writes, the engines, the stall count, and the cycle. -/

namespace Sys2Proof.Machine

/-- An operation of the device: it happens, or its enabling condition does not hold. -/
def event (name : String) : Option State → Out
  | some s => .next s
  | none => .fault (.notEnabled name)

def execInstructionDispatch (s : State) : Out := event "INSTRUCTION_DISPATCH" s.dispatch

/-! ### The range checker (R212) -/

/-- A held store is performed. -/
def State.releaseStore (s : State) (i : Nat) : Option State :=
  match s.core.lsu.heldSt[i]? with
  | none => none
  | some h =>
    if s.spBlocked h.addr h.bytes.length true h.seq then none
    else
      let s := s.lsu fun l => { l with heldSt := l.heldSt.eraseIdx i }
      some (s.mems fun m => { m with sp := m.sp.write h.addr h.bytes }).progress

/-- Access i of the list with its data. -/
def State.setData (s : State) (i : Nat) (b : List Byte) : State :=
  s.lsu fun l => { l with acc := (l.acc.zip (List.range l.acc.length)).map fun p => if p.2 == i then { p.1 with data := some b } else p.1 }

/-- A held scratchpad load reads. -/
def State.releaseLoad (s : State) (i : Nat) : Option State :=
  match s.core.lsu.acc[i]? with
  | none => none
  | some a =>
    if a.spc != .sp || a.data.isSome || s.spBlocked a.addr a.len false a.seq then none
    else
      let (b, s) := s.perform .sp a.addr a.len a.keys false a.seq
      some (s.setData i b).progress

def State.rangeRelease (s : State) (store : Bool) (i : Nat) : Option State := if store then s.releaseStore i else s.releaseLoad i

def execRangeCheckerRelease (store : Bool) (i : Index) (s : State) : Out := event "RANGE_CHECKER_RELEASE" (s.rangeRelease store i)

/-! ### Landings (R163) -/

/-- The next X-cycle has results to land. -/
def State.landsNext (s : State) : Bool := s.core.regs.fly.any fun r => r.due ≤ s.core.fe.xnow + 1

/-- The X-pipe holds an instruction that has not issued: the X-cycle in which it issues opens with its issue. -/
def Front.xHead (f : Front) : Bool := f.kernel.isSome || !f.xq.isEmpty

/-- The next X-cycle begins and its results land, where no instruction waits to issue in it and the X-pipe is not frozen (R162, R163). -/
def State.landAt (s : State) : Option State :=
  let f := s.core.fe
  if s.landsNext && (f.unit == .running || f.unit == .ending) && !f.xHead && !f.xStall && !s.xBlocked then some s.nextX.progress
  else none

def execLandAt (s : State) : Out := event "LAND_AT" s.landAt

/-! ### Data that returns (R138, R142, R144, R145) -/

/-- The data of an access, read now when the landing check held it and lets it go (R96). A scratchpad access is read when the
range checker releases it, an AMO at the memory side. -/
def State.accData (s : State) (a : Acc) : Option (List Byte × State) :=
  match a.data, a.kind with
  | some b, _ => some (b, s)
  | none, .amo _ _ => none
  | none, _ =>
    if a.spc == .sp || s.unlanded a.spc a.addr a.len a.keys a.seq then none
    else some (s.perform a.spc a.addr a.len a.keys a.acq a.seq)

def State.dropAcc (s : State) (i : Nat) : State := s.lsu fun l => { l with acc := l.acc.eraseIdx i }

/-- An arrival after its ready time is counted once (R40), also when its absence has raised an OVERRUN before: R40 counts every late
arrival, and that R37's "that caused no trap" leaves none of them out is the model's choice (notes/assumptions/104.md). -/
def State.arrive (s : State) (ready : Option Nat) : State :=
  match ready with
  | some t => if t < s.core.fe.cycle then s.countLate else s
  | none => s

/-- A register takes the data of its access: a reader waits for the ready time in Strict mode (R140). -/
def State.fillG (s : State) (d : GReg) (x : Word) (ready : Option Nat) : State :=
  let s := (s.arrive ready).setG d x
  if d = 0 then s else s.regs fun r => { r with gReady := r.gReady.set d.val (ready.getD 0) }

/-- The value that an access gives its register. -/
def accValue (k : AccKind) (b : List Byte) : Option (GReg × Word) :=
  match k with
  | .load d sz => some (d, ldValue sz b)
  | .amo d w => some (d, if w then word (sint 32 (leNat b)) else BitVec.ofNat 64 (leNat b))
  | _ => none

def State.dataReturn (s : State) (i : Nat) : Option State :=
  match s.core.lsu.acc[i]? with
  | none => none
  | some a =>
    match s.accData a with
    | none => none
    | some (b, s) =>
      match accValue a.kind b with
      | some (d, x) => some ((s.dropAcc i).fillG d x a.ready).progress
      | none => none

def execAccessDataReturn (i : Index) (s : State) : Out := event "ACCESS_DATA_RETURN" (s.dataReturn i)

/-- An item arrives in its slot. -/
def fillItem (id : Nat) (v : Vec) (now : Nat) (l : List LqItem) : List LqItem :=
  l.map fun t => if t.id == id && t.data.isNone then { t with data := some v, arrived := now } else t

def State.ldqReturn (s : State) (i : Nat) : Option State :=
  match s.core.lsu.acc[i]? with
  | none => none
  | some a =>
    match a.kind with
    | .ldq q id _ =>
      (s.accData a).map fun (b, s) =>
        let s := (s.dropAcc i).arrive a.ready
        (s.qs fun u => { u with lq := u.lq.set q.val (fillItem id (vecOfBytes b) s.core.fe.cycle u.lq[q]) }).progress
    | _ => none

def execLdqAccess (i : Index) (s : State) : Out := event "LDQ_ACCESS" (s.ldqReturn i)

/-- Scales enter the reserved entries of their owner, in address order. -/
def fillScales (owner : Nat) : List (BitVec 16) → List ScaleEntry → List ScaleEntry
  | x :: xs, e :: es => if e.owner == owner then { e with val := some x } :: fillScales owner xs es else e :: fillScales owner (x :: xs) es
  | _, es => es

def State.ldscReturn (s : State) (i : Nat) : Option State :=
  match s.core.lsu.acc[i]? with
  | none => none
  | some a =>
    match a.kind with
    | .ldsc owner n =>
      (s.accData a).map fun (b, s) =>
        let xs := (List.range n).map fun k => BitVec.ofNat 16 (leNat ((b.drop (2 * k)).take 2))
        ((s.dropAcc i).qs fun u => { u with scale := fillScales owner xs u.scale }).progress
    | _ => none

def execLdscAccess (i : Index) (s : State) : Out := event "LDSC_ACCESS" (s.ldscReturn i)

/-! ### Queue stores and streams (R144, R149, R150) -/

/-- The first item of a store queue leaves it. -/
def State.takeSq (s : State) (q : Fin 4) (taker : List SqTaker) : State :=
  s.qs fun u => { u with sq := u.sq.set q.val (u.sq[q].drop 1), taker := u.taker.set q.val taker }

/-- The streams of a unit move: it is neither suspended nor being saved or switched, and has not ended (R29, R90, R323). -/
def State.streaming (s : State) : Bool := s.core.fe.unit == .running || s.core.fe.unit == .ending

/-- The claimed item at the head of a store queue is written (R144); a unit that has ended has no claims left (R29). -/
def State.stqWrite (s : State) (q : Fin 4) : Option State :=
  match s.core.qs.taker[q], s.core.qs.sq[q] with
  | .claim spc a n ks ms seq :: rest, v :: _ =>
    if s.core.fe.unit == .ended then none
    else if spc == .sp && s.spBlocked a n true seq then none
    else some ((s.takeSq q rest).write spc a ks ((vecBytes v).take n) ms seq).progress
  | _, _ => none

def execStqItemWrite (q : Fin 4) (s : State) : Out := event "STQ_ITEM_WRITE" (s.stqWrite q)

/-- A stream after its next item, or none when that was the last one. -/
def Stream.step (t : Stream) : List Stream := if t.done + 1 < t.shape.count then [{ t with done := t.done + 1, pops := [] }] else []

/-- The A-pipe stops at what a stream item meets: PORCH_FULL, which the spec states for a store, is taken at the A-pipe's next
instruction (notes/assumptions/27.md). -/
def State.streamTrap (s : State) (cause : Cause) : State :=
  let t := s.boundary 1 cause (Config.freeWord s.free)
  s.fresh.2.takeTrap { t with paired := false }

/-- A translation of a stream item stops: a walk is asked for, or the unit is suspended. -/
def State.streamStop (s : State) (spc : Space) (b : Nat) (write : Bool) : Xlate → Option State
  | .miss => if s.walkAsked spc b then none else some (s.askWalk spc b write false)
  | .fail f => some (s.pageFault spc b f)
  | .cut fab => some (s.machineStop (some fab) 1)
  | _ => none

/-- An output stream writes the item at the head of its queue (R149). -/
def State.outWrite (s : State) (q : Fin 4) : Option State :=
  match s.core.qs.taker[q], s.core.qs.sq[q] with
  | .stream t :: rest, v :: _ =>
    let a := (t.itemAt t.done).toNat
    let n := t.shape.ilen
    if !s.streaming || s.unfetched t.spc a n t.seq || (t.spc == .sp && s.spBlocked a n true t.seq) then none
    else
      match s.keys t.spc a n true with
      | .stop b x => s.streamStop t.spc b true x
      | .ok ks =>
        if t.spc != .sp && !t.ms && !s.porchRoom t.spc a n then
          if s.core.fe.handler then none else some (s.streamTrap .porchFull)
        else
          let next := (t.step).map SqTaker.stream
          let s := (s.takeSq q (next ++ rest)).write t.spc a ks ((vecBytes v).take n) t.ms t.seq
          some (s.fe fun f => { f with sdone := true }).progress
  | _, _ => none

def execOutputStreamWrite (q : Fin 4) (s : State) : Out := event "OUTPUT_STREAM_WRITE" (s.outWrite q)

/-- The next item of an input stream can be fetched: earlier stores to it have landed, memory-side ones and AMOs among them (R150). -/
def State.itemFree (s : State) (t : Stream) : Bool :=
  let a := (t.itemAt t.done).toNat
  if t.spc == .sp then !s.spBlocked a t.shape.ilen false t.seq
  else
    let ks := match s.keys t.spc a t.shape.ilen false with | .ok ks => ks | .stop _ _ => []
    !s.unlanded t.spc a t.shape.ilen ks t.seq && !(s.core.lsu.ms.any fun w => s.earlier t.seq w.seq && w.keys.any ks.contains)

/-- The lowest-numbered load queue whose active stream may fetch (R149). -/
def State.fetchQueue (s : State) : Option (Fin 8 × Stream) :=
  (List.finRange 8).findSome? fun q =>
    match s.core.qs.lin[q] with
    | t :: _ => if s.core.qs.lq[q].length < 16 && s.itemFree t then some (q, t) else none
    | [] => none

/-- One item is fetched in a cycle; it arrives `delay` cycles later (R149). -/
def State.itemFetch (s : State) (delay : Nat) : Option State :=
  if s.core.fe.sdone || !s.streaming then none
  else
    match s.fetchQueue with
    | none => none
    | some (q, t) =>
      let a := (t.itemAt t.done).toNat
      let n := t.shape.ilen
      match s.keys t.spc a n false with
      | .stop b x => s.streamStop t.spc b false x
      | .ok ks =>
        let s := (if t.spc == .hs then s.countHs a else s).sendReq t.spc a t.seq
        let (b, s) := s.perform t.spc a n ks false t.seq
        let ready := s.readyAt (s.accClass t.spc a)
        let item : LqItem := ⟨t.seq, some (vecOfBytes b), s.core.fe.cycle + delay, ready, t.pops, false⟩
        let s := s.qs fun u => { u with lq := u.lq.set q.val (u.lq[q] ++ [item]), lin := u.lin.set q.val (t.step ++ u.lin[q].drop 1) }
        let s := if delay = 0 then s.arrive ready else s
        some (s.fe fun f => { f with sdone := true }).progress

def execStreamItemFetch (delay : Index) (s : State) : Out := event "STREAM_ITEM_FETCH" (s.itemFetch delay)

/-! ### Memory-side writes (R95, R97, R99) -/

/-- The chunks of an access, by their keys. -/
def chunkKeys (ks : List Nat) : List Nat := ks.map (· / 64)

/-- Some of the next n items of a stream, from k on, has a byte in one of the chunks. -/
def State.itemsMeet (s : State) (t : Stream) (chunks : List Nat) : Bool :=
  anyItem t (fun x => match s.keysWalk t.spc x.toNat t.shape.ilen true with
    | .ok ks => (chunkKeys ks).any chunks.contains
    | .stop _ _ => false) (t.shape.count - t.done) t.done

/-- An earlier write over the same path to one of the chunks is still in flight, or a queue store or stream item that comes before
(R99). -/
def State.msBehind (s : State) (i : Nat) (w : MsWrite) : Bool :=
  ((s.core.lsu.ms.take i).any fun x => x.path == w.path && (chunkKeys x.keys).any (chunkKeys w.keys).contains) ||
  s.core.qs.taker.toList.any fun l => l.any fun t =>
    match t with
    | .claim x a _ ks ms q => ms && s.earlier w.seq q && s.pathOf x a == w.path && (chunkKeys ks).any (chunkKeys w.keys).contains
    | .stream t => t.ms && s.earlier w.seq t.seq && (s.streamPaths t).contains w.path && s.itemsMeet t (chunkKeys w.keys)

/-- An AMO finds a value and leaves another (R142). -/
def State.amoLand (s : State) (op : AmoOp) (w : Bool) (v n : Word) (x : MsWrite) : State :=
  let old := x.keys.map s.mem.read
  let len := amoBytes w
  let s := match amoNew op len (leNat old) v.toNat n.toNat with
    | some r => s.landKeys x.keys (leBytes len r)
    | none => s
  s.lsu fun l => { l with acc := l.acc.map fun a =>
    match a.kind with
    | .amo _ _ => if a.seq == x.seq && a.data.isNone then { a with data := some old } else a
    | _ => a }

/-- Write i of the core's list lands and is complete for every agent (R97; notes/assumptions/6.md). One to a page that a MIGRATE moves
waits, and lands in its new copy (R92). An AMO that reads a poisoned word
writes nothing (R127, R360). -/
def State.msComplete (s : State) (i : Nat) : Option State :=
  match s.core.lsu.ms[i]? with
  | none => none
  | some w =>
    if s.msBehind i w || s.moving w.keys then none
    else
      let s := s.lsu fun l => { l with ms := l.ms.eraseIdx i }
      match w.op with
      | .put bs => some (s.landKeys w.keys bs).progress
      | .amo op word v n =>
        if s.pkg.poison.any (·.under w.keys) then some (s.meetPoison 1 (·.under w.keys))
        else some (s.amoLand op word v n w).progress

def execMemorySideWriteComplete (i : Index) (s : State) : Out := event "MEMORY_SIDE_WRITE_COMPLETE" (s.msComplete i)

/-! ### The barrier (R154) -/

/-- The unit counters of a launch that have not ended. -/
def Package.openUnits (p : Package) (launch : Nat) : List Nat :=
  (p.counters.filter fun c => c.2.live && c.2.level == 1 && c.2.parent == some launch && !stFinal c.2.state).map (·.1)

/-- Every unit of the gang has arrived or has ended: the generation advances (R154). -/
def State.barRelease (s : State) (launch : Nat) : Option State :=
  let b := look ⟨0, []⟩ s.pkg.bars launch
  let units := s.pkg.openUnits launch
  if !b.arrived.isEmpty && units.length = (s.pkg.counter launch).outstanding && units.all b.arrived.contains then
    some (s.pkgd fun p => { p with bars := put p.bars launch ⟨b.gen + 1, []⟩ }).progress
  else none

def execBarrierRelease (launch : Index) (s : State) : Out := event "BARRIER_RELEASE" (s.barRelease launch)

/-! ### The engines -/

def execCopyCommandStart (outbound : Bool) (s : State) : Out := event "COPY_COMMAND_START" (s.copyStart outbound)
def execCopyCommandRetire (outbound : Bool) (s : State) : Out := event "COPY_COMMAND_RETIRE" (s.copyRetire outbound)
def execReduceBinExchange (others : List (Nat × Word × List Nat)) (s : State) : Out :=
  event "REDUCE_BIN_EXCHANGE" (s.binExchange others)
def execButterflyCommandStart (s : State) : Out := event "BUTTERFLY_COMMAND_START" s.butterflyStart
def execButterflyCommandComplete (s : State) : Out := event "BUTTERFLY_COMMAND_COMPLETE" s.butterflyComplete
def execCircuitCommandStart (s : State) : Out := event "CIRCUIT_COMMAND_START" s.circuitStart
def execCircuitCommandRetire (s : State) : Out := event "CIRCUIT_COMMAND_RETIRE" s.circuitRetire
def execPageFetch (page : Index) (s : State) : Out := event "PAGE_FETCH" (s.pageFetch page)
def execReshardCommandStart (s : State) : Out := event "RESHARD_COMMAND_START" s.reshardStart
def execReshardCommandRetire (s : State) : Out := event "RESHARD_COMMAND_RETIRE" s.reshardRetire
def execSubTransfer (key gen sender ord : Index) (cells : List (Nat × Byte)) (s : State) : Out :=
  event "SUB_TRANSFER" (s.subTransfer (key, gen, sender, ord, cells))
def execSubTransferAck (ix : Index) (s : State) : Out := event "SUB_TRANSFER_ACK" (s.subAck ix)
def execSidePathCommandComplete (s : State) : Out := event "SIDE_PATH_COMMAND_COMPLETE" s.sideComplete

/-! ### Translation walks (R89 to R91) -/

/-- A walk for the fetch fails: the group that needs the word reports it, PAIRED when a later word does (R71, R90). -/
def State.fetchFault (s : State) (va : Nat) (f : WalkFail) : State :=
  let pc := match s.core.fe.mac with | some m => m.layer.pc | none => s.core.fe.pc
  let paired := match s.nextGroup with | .stop k kernel _ => k != 0 && !kernel | _ => false
  s.pageFaultAt { s.boundary 0 .pageFault 0 with pc := pc, opc := pc, upc := none, paired := paired } .cl va f

/-- A walk that the core has asked for ends: the caches take the leaf, or the unit is suspended (R90). -/
def State.walkDone (s : State) (i : Nat) : Option State :=
  match s.core.lsu.walks[i]?, s.part with
  | some w, some p =>
    let s := s.lsu fun l => { l with walks := l.walks.eraseIdx i }
    match walk s.mem 0 w.spc (p.root w.spc) w.va w.write with
    | .error f => some (if w.fetch then (s.fetchFault w.va f) else s.pageFault w.spc w.va f)
    | .ok (ea, e, size) =>
      some (s.fillTlb ⟨s.partId, w.spc, w.va / 2 ^ size, size, e, ea, wfld e 0 16⟩).progress
  | _, _ => none

def execTranslationWalk (i : Index) (s : State) : Out := event "TRANSLATION_WALK" (s.walkDone i)

/-! ### The stall count (R159) -/

/-- An access is held by the landing check or at the range checker, and is not outstanding in memory. -/
def State.accHeld (s : State) (a : Acc) : Bool :=
  a.data.isNone && match a.kind with
    | .amo _ _ => false
    | _ => a.spc == .sp || s.unlanded a.spc a.addr a.len a.keys a.seq

/-- A memory access of the core is outstanding, a stream item on its way to its queue among them. -/
def State.memOutstanding (s : State) : Bool :=
  (s.core.qs.lq.toList.any fun l => l.any fun i => i.data.isSome && s.core.fe.cycle < i.arrived) ||
  !s.core.lsu.ms.isEmpty || !s.core.lsu.walks.isEmpty || s.core.lsu.acc.any fun a => !s.accHeld a

/-- The hatch that holds the first open command of a queue, or the retirement of its head. -/
def State.heldHatch (s : State) (l : List EngCmd) : Option (Fin 16) :=
  match l with
  | c :: _ =>
    if c.st == .done then c.push
    else if c.st == .waiting && !s.popReady c then c.pop
    else none
  | [] => none

/-- Every engine queue is empty or held on a hatch. -/
def State.enginesHeld (s : State) : Bool := (s.core.eng.q.toList.all fun l => l.isEmpty || (s.heldHatch l).isSome) && s.core.eng.side.isEmpty

/-- A write of n bytes that waits for the items of an input stream waits for a landing (R150). -/
def State.streamHeld (s : State) (spc : Space) (a : Word) (n seq : Nat) : Nat := if s.unfetched spc a.toNat n seq then 2 ^ 16 else 0

/-- What the head of the A-pipe waits for, in the bits of TRAP.INFO. -/
def State.aHeldBy (s : State) : Nat :=
  match s.core.fe.aq with
  | [] => 0
  | c :: _ =>
    let s := s.fe fun f => { f with cur := c }
    match c.instr with
    | .hpop h none => 2 ^ h.val
    | .hbind _ _ | .fence _ _ => 2 ^ 18
    | .ldq _ _ _ _ _ | .strmIn _ _ _ _ _ | .strmOut _ _ _ _ _ _ | .ldsc _ _ _ => 2 ^ 17
    | .strmStop out q => if out && (s.core.qs.taker[(Fin.ofNat 4 q.val)]).any isStream then 2 ^ 17 else 0
    | .stq spc q len _ m =>
      if s.core.qs.taker[q].any isStream then 2 ^ 17 else s.streamHeld spc (s.am m) (itemBytes len.val) c.seq
    | .stSp sz _ m => s.streamHeld .sp (s.am m) (stBytes sz) c.seq
    | .stAt sz _ _ m => s.streamHeld .at (s.am m) (stBytes sz) c.seq
    | .stRa sz _ _ m => s.streamHeld .ra (s.am m) (stBytes sz) c.seq
    | .stCl sz _ _ m => s.streamHeld .cl (s.am m) (stBytes sz) c.seq
    | .stHs sz _ _ m => s.streamHeld .hs (s.am m) (stBytes sz) c.seq
    | .stPr sz _ _ m => s.streamHeld .pr (s.am m) (stBytes sz) c.seq
    | .amoAdd spc w _ _ m | .amoAnd spc w _ _ m | .amoOr spc w _ _ m | .amoXor spc w _ _ m | .amoMin spc w _ _ m | .amoMax spc w _ _ m
    | .amoMinu spc w _ _ m | .amoMaxu spc w _ _ m | .amoSwap spc w _ _ m => s.streamHeld spc (s.am m) (amoBytes w) c.seq
    | .amoCas spc w _ _ _ base disp => s.streamHeld spc (s.amBase base disp) (amoBytes w) c.seq
    | _ => 0

/-- TRAP.INFO of HATCH_DEADLOCK (R159): hatches in bits 15 to 0, a landing check, a queue, a FENCE or HBIND. -/
def State.stallInfo (s : State) : Nat :=
  let hs := (s.core.eng.q.toList.filterMap s.heldHatch) ++
    (match s.core.fe.hpushes with | (h, seq, _) :: _ => if s.retiredTo seq && s.hatchFull h then [h] else [] | [] => [])
  let x := if s.core.fe.xStall then s.core.fe.xWhy else 0
  let full := if s.xBlocked then (s.core.regs.fly.flatMap (·.pushes)).filter s.hatchFull else []
  let land := if s.core.lsu.acc.any s.accHeld || !s.core.lsu.heldSt.isEmpty then 2 ^ 16 else 0
  (s.aHeldBy ||| x) ||| (hatchBits (hs ++ full) ||| land)

/-- The X-pipe has issued in this cycle. -/
def Front.xIssued (f : Front) : Bool := f.xdone && !f.xowed

/-- This cycle counts as one of a stall. One in which a pipe waits on WAIT or BAR and the other on a queue or a hatch counts: that the
last sentence of R159 takes only the first wait out of the count is the model's choice (notes/assumptions/105.md). -/
def State.stalled (s : State) : Bool :=
  let f := s.core.fe
  (f.unit == .running || f.unit == .ending) && !f.adone && !f.xIssued && !f.sdone && s.enginesHeld && !s.memOutstanding && s.stallInfo != 0

/-- HATCH_DEADLOCK (R159): PIPE 0, with the next instructions of the two pipes. -/
def State.deadlock (s : State) : Option State :=
  if s.core.fe.stall < 2 ^ 20 || !s.streaming then none
  else
    let t := s.boundary 0 .hatchDeadlock (BitVec.ofNat 64 s.stallInfo)
    some ((s.fe fun f => { f with stall := 0 }).takeTrap { t with paired := false })

def execHatchDeadlock (s : State) : Out := event "HATCH_DEADLOCK" s.deadlock

/-! ### The cycle (R7, R37) -/

/-- Stream items whose arrival falls into the cycle that begins, after their ready time, are counted (R40). -/
def State.countArrivals (s : State) : State :=
  let now := s.core.fe.cycle
  let late := (s.core.qs.lq.toList.flatMap id).filter fun i => i.data.isSome && i.arrived == now && (match i.ready with | some t => t < now | none => false)
  late.foldl (fun s _ => s.countLate) s

/-- FRAME counts the cycles in which the unit is active and not in a handler (R37). -/
def State.countFrame (s : State) : State :=
  let f := s.core.fe
  if (f.unit == .running || f.unit == .ending) && !f.handler then s.sys fun y => { y with frame := y.frame + 1 } else s

/-- The X-pipe enters its next X-cycle, unless it is already ahead or frozen. Where an instruction waits to issue, its issue opens the
X-cycle: a cycle in which it cannot issue is none (R39, R162, R168). -/
def State.tickX (s : State) : State :=
  let f := s.core.fe
  let active := f.unit == .running || f.unit == .ending
  if f.xahead != 0 then s.fe fun f => { f with xahead := f.xahead - 1 }
  else if f.xHead || s.xBlocked || !active then
    let shut := f.xdone || (active && !f.xStall)
    s.fe fun f => { f with xdone := shut, xowed := shut }
  else s.openX

/-- A unit switch ends after its 64 cycles, that of a resumed unit too (R34, R316). -/
def Front.endSwitch (f : Front) : Front :=
  if (f.unit == .switching || f.unit == .restoring) && f.hold = 0 then { f with unit := .running } else f

/-- The next cycle begins. -/
def State.tick (s : State) : State :=
  let held := s.stalled
  let s := s.countFrame.tickX
  let s := s.fe fun f =>
    { f with cycle := f.cycle + 1, slot := 0, hold := f.hold - 1, adone := false, sdone := false, aStall := false, xStall := false,
             stall := if held then f.stall + 1 else f.stall }
  State.retirePushes 64 (s.fe Front.endSwitch).countArrivals

end Sys2Proof.Machine
end

