-- ==== Sys2Proof/Machine/Hearth.lean ====
section
/-! DEFINITION. The Hearth's levels of work: counter entries, launches, graphs, phases and jobs, cancel, and the phase boundary
(R21 to R33, R102). -/

namespace Sys2Proof.Machine

/-! ### The core that moves -/

/-- A core takes its place among the others, in rising index. -/
def insertCore (c : Core) (l : List Core) : List Core := l.filter (·.idx < c.idx) ++ c :: l.filter (c.idx < ·.idx)

/-- Core k becomes the core that moves. -/
def State.toCore (s : State) (k : Nat) : Option State :=
  if k = s.core.idx then some s
  else (s.others.find? fun c => c.idx == k).map fun c =>
    { s with core := c, others := insertCore s.core (s.others.filter fun d => d.idx != k) }

/-- Something is done on core k, and the core that moved before moves again. -/
def State.onCore (s : State) (k : Nat) (f : State → State) : State :=
  match s.toCore k with
  | none => s
  | some t => ((f t).toCore s.core.idx).getD s

/-- Every core of the package, the moving one first. -/
def State.allCores (s : State) : List Core := s.core :: s.others

/-- An update of every core. -/
def State.mapCores (s : State) (f : Core → Core) : State := { s with core := f s.core, others := s.others.map f }

/-- The Hearth runs verified firmware and no fatal error has stopped the package (R314, R362, R363). -/
def State.hearthUp (s : State) : Bool := s.pkg.booted && !s.pkg.fatal

/-! ### Bind records (R317) -/

def bindV (b : Nat) : Bool := bitAt b 127
def bindResume (b : Nat) : Bool := bitAt b 126
def bindGang (b : Nat) : Bool := bitAt b 124
def bindPrio (b : Nat) : Nat := fld b 121 3
def bindPart (b : Nat) : Nat := fld b 117 4
def bindGen (b : Nat) : Nat := fld b 96 16
def bindUidx (b : Nat) : Nat := fld b 64 24
def bindLctr (b : Nat) : Nat := fld b 52 12
def bindUctr (b : Nat) : Nat := fld b 40 12
def bindLgen (b : Nat) : Nat := fld b 28 12
def bindCkpt (b : Nat) : Nat := fld b 0 27 * 2 ^ 25
/-- A RSVD bit of a bind record is set. -/
def bindRsvd (b : Nat) : Bool := fld b 112 5 != 0 || fld b 88 8 != 0 || bitAt b 27

/-- A core holds a unit that has not ended. -/
def Core.busy (c : Core) : Bool :=
  match c.fe.unit with
  | .empty | .ended => false
  | _ => true

/-- A core whose unit has ended still has started commands or writes in flight (R29). -/
def Core.landing (c : Core) : Bool :=
  c.fe.unit == .ended && (!c.lsu.ms.isEmpty || (c.eng.q.toList.any fun l => l.any fun x => x.st == .running) ||
    c.eng.side.any fun x => x.st == .running)

/-! ### Counter entries (R26) -/

/-- Instances of the other levels, which share 3,808 entries; units share 288. -/
def Package.liveUnits (p : Package) : Nat := (p.counters.filter fun c => c.2.live && c.2.level == 1).length
def Package.liveOthers (p : Package) : Nat := (p.counters.filter fun c => c.2.live && c.2.level != 1).length

/-- A core's WAIT watches this entry: it keeps its final word until that core has seen it (R160). -/
def State.watched (s : State) (k : Nat) : Bool :=
  s.allCores.any fun c => match c.fe.waitOn with | some r => wfld r 0 12 == k | none => false

/-- The lowest free entry. -/
def State.freeEntry (s : State) : Option Nat := (List.range 4096).find? fun k => !(s.pkg.counter k).live && !s.watched k

/-- An instance takes an entry; the generation advances, and no barrier of an earlier instance is left (R26, R154). -/
def Package.allocAt (p : Package) (k state level outstanding : Nat) (parent : Option Nat) (job : Nat) : Package :=
  { p.setCounter k ⟨true, ((p.counter k).gen + 1) % 4096, state, level, 0, outstanding, parent, job, 0⟩ with bars := del p.bars k }

/-- The counter takes a state. -/
def Package.setState (p : Package) (k st : Nat) : Package := p.setCounter k { p.counter k with state := st }

/-- The counter takes a final state and its entry is released. -/
def Package.release (p : Package) (k fin : Nat) : Package := p.setCounter k { p.counter k with state := fin, outstanding := 0, live := false }

/-! ### Launch records (R318) -/

def Launch.word (l : Launch) (i : Nat) : Nat := (l.words.getD i 0).toNat
def Launch.gang (l : Launch) : Bool := bitAt (l.word 2) 50
def Launch.place (l : Launch) : Bool := bitAt (l.word 2) 51
/-- The extents of a SHAPE field (R35). -/
def shapeX (w : Nat) : Nat := fld w 0 16 + 1
def shapeY (w : Nat) : Nat := fld w 16 16 + 1
def shapeZ (w : Nat) : Nat := fld w 32 16 + 1
/-- The number of units. -/
def Launch.units (l : Launch) : Nat := shapeX (l.word 2) * shapeY (l.word 2) * shapeZ (l.word 2)

/-- The partition of a job. -/
def State.jobAt (s : State) (ctr : Nat) : Option Job := s.pkg.jobs.find? fun j => j.ctr == ctr
def State.partAt (s : State) (id : Nat) : Option Partition := s.pkg.parts.find? fun p => p.id == id
def State.jobCores (s : State) (ctr : Nat) : List Nat :=
  (((s.jobAt ctr).bind fun j => s.partAt j.part).map (·.cores)).getD []

/-! ### Starting (R22, R26, R27) -/

/-- A graph of a phase that runs starts. One without launches ends COMPLETE at once: the spec states no lower bound of their number
(R21), and the choice is the model's (notes/assumptions/110.md). -/
def Package.startGraph (p : Package) (k : Nat) : Package :=
  let p := p.setState k stRunning
  if (p.counter k).outstanding = 0 then
    let up := (p.counter k).parent
    let p := p.release k stComplete
    match up with | some u => childEnded false 1 u p | none => p
  else p

/-- A phase starts, and its graphs with it. -/
def Package.startPhase (p : Package) (k : Nat) : Package :=
  let p : Package := if (p.counter k).state = stWaiting then p.setState k stRunning else p
  let p : Package := { p with phases := p.phases.map fun f => if f.ctr == k then { f with started := true } else f }
  ((p.graphs.filter fun g => g.phase == k && (p.counter g.ctr).state == stWaiting).foldl (fun p g => p.startGraph g.ctr) p).readied

/-- A free entry among the 3,808 is there for launch i of a graph: where they are short, the launches take them in the order in which they
became ready (R26). -/
def Package.entryFor (p : Package) (gctr i : Nat) : Bool :=
  let l := p.readied.ready
  p.liveOthers < 3808 && (l.length ≤ 3808 - p.liveOthers || l.head? == some (gctr, i))

/-- LAUNCH_START: launch i of a running graph takes a counter entry, and its record enters the launch table (R22, R26, R318). -/
def State.launchStart (s : State) (gctr i : Nat) : Option State :=
  match s.pkg.graphs.find? fun g => g.ctr == gctr with
  | none => none
  | some g =>
    match g.launches[i]?, s.freeEntry with
    | some l, some k =>
      if !s.hearthUp || !s.pkg.mayStart g i || !s.pkg.entryFor gctr i then none
      else
        let fits := l.units ≤ (s.jobCores g.job).length
        let st := if l.gang then (if fits then stWaiting else stParked) else stRunning
        let p := s.pkg.allocAt k st 2 l.units (some gctr) g.job
        let l' := { l with st := 1, ref := some (p.ref k % 2 ^ 24) }
        let ls := (g.launches.zip (List.range g.launches.length)).map fun x => if x.2 == i then l' else x.1
        some { s with pkg := { p with graphs := p.graphs.map fun x => if x.ctr == gctr then { g with launches := ls } else x
                                      launches := put p.launches k l.words } }
    | _, _ => none

def execLaunchStart (graph launch : Index) (s : State) : Out := event "LAUNCH_START" (s.launchStart graph launch)

/-- The launch of a counter entry. -/
def State.launchOf (s : State) (k : Nat) : Option Launch :=
  s.pkg.graphs.findSome? fun g => g.launches.find? fun l => l.st == 1 && l.ref == some (s.pkg.ref k % 2 ^ 24)

/-! ### Completion (R36) -/

/-- The pipes have drained: nothing is left to issue, to land, or to take from a store queue. -/
def State.pipesDrained (s : State) : Bool :=
  let f := s.core.fe
  f.aq.isEmpty && f.xq.isEmpty && f.kernel.isNone && s.core.regs.fly.isEmpty && f.hpushes.isEmpty &&
  s.core.qs.sq.toList.all (·.isEmpty) && (s.core.qs.taker.toList.all fun l => l.all isStream) &&
  s.core.lsu.acc.isEmpty && s.core.lsu.heldSt.isEmpty && s.core.lsu.ms.isEmpty

/-- What a unit leaves behind ends with it: queues, scales, tokens, streams and cached walks (R36). -/
def Core.clearUnit (c : Core) (prev : Option Nat) : Core :=
  { c with
    qs := Queues.reset
    lsu := { c.lsu with acc := [], heldSt := [], ms := [], walks := [] }
    eng := Eng.reset
    fe := { Front.reset with unit := .empty, cycle := c.fe.cycle, icache := c.fe.icache, cstore := c.fe.cstore }
    slot := { c.slot with act := 0 }
    prevJob := prev
    vuse := false
    resh := none
    replayAt := [] }

/-- The unit's job, as a counter reference. -/
def State.jobRef (s : State) : Nat := s.pkg.ref (s.pkg.counter s.uctr).job

/-- COMPLETION_RAISED (R36). -/
def State.complete (s : State) : Option State :=
  if s.core.fe.unit == .ending && !s.core.fe.handler && s.pipesDrained && (s.core.eng.q.toList.all (·.isEmpty)) && s.core.eng.side.isEmpty then
    let u := s.uctr
    let j := s.jobRef
    let s := s.pkgd fun p => p.endUnit u stComplete
    some (s.withCore (s.core.clearUnit (some j)))
  else none

def execCompletionRaised (s : State) : Out := event "COMPLETION_RAISED" s.complete

/-! ### Cancel (R29, R30) -/

/-- The register region of a checkpoint block (R324). -/
def regRegion (ckpt : Nat) : Nat := keyCl (ckpt + 15 * 2 ^ 20)

/-- The checkpoint of a unit holds none any more: V of its resume record is 0 (R322). -/
def State.discardCkpt (s : State) (b : Nat) : State := { s with mem := s.mem.putLe (regRegion (bindCkpt b)) 8 0 }

/-- One unit is stopped: in its core, in a standby slot, or parked. Its checkpoint is discarded (R322). -/
def State.stopUnit (s : State) (k : Nat) : State :=
  match s.allCores.find? fun c => c.busy && bindUctr c.slot.act.toNat == k with
  | some c => (s.discardCkpt c.slot.act.toNat).onCore c.idx fun t => (t.bb .cancel).endUnit stCancelled true
  | none =>
    let s := match s.pkg.parked.find? fun x => bindUctr x.bind == k with
      | some x => s.discardCkpt x.bind
      | none => s
    let s := s.mapCores fun c => if bindV c.slot.stby.toNat && bindUctr c.slot.stby.toNat == k then { c with slot := { c.slot with stby := 0 } } else c
    (s.bb .cancel).pkgd fun p => p.endUnit k stCancelled

/-- A launch is cancelled: its units stop, those not bound never start (R29). -/
def State.cancelLaunch (s : State) (k : Nat) : State :=
  let c := s.pkg.counter k
  if !c.live || stFinal c.state then s
  else
    let units := s.pkg.openUnits k
    let s := s.pkgd fun p => p.setCounter k
      { c with state := stCancelling, outstanding := units.length, failed := min 0xFFFFFF (c.failed + (c.outstanding - units.length)) }
    if units.isEmpty then
      s.pkgd fun p =>
        let p := p.release k stCancelled
        (match c.parent with | some up => childEnded true 2 up p | none => p).settle
    else units.foldl State.stopUnit s

/-- A graph without launches that is cancelled ends CANCELLED (R29). -/
def Package.endEmpty (p : Package) (k : Nat) : Package :=
  let up := (p.counter k).parent
  let p := p.release k stCancelled
  match up with | some u => childEnded true 1 u p | none => p

/-- A graph is cancelled: launches that have not started never do (R29). -/
def State.cancelGraph (s : State) (k : Nat) : State :=
  match s.pkg.graphs.find? fun g => g.ctr == k with
  | none => s
  | some g =>
    if !(s.pkg.counter k).live || stFinal (s.pkg.counter k).state then s
    else
      let idle := (g.launches.filter fun l => l.st == 0).length
      let ls := g.launches.map fun l => if l.st = 0 then { l with st := 3 } else l
      let s := s.pkgd fun p => { p.setState k stCancelling with graphs := p.graphs.map fun x => if x.ctr == k then { g with launches := ls } else x }
      let s := (List.range idle).foldl (fun s _ => s.pkgd (childEnded true 2 k)) s
      let s := (g.launches.filterMap fun l => if l.st = 1 then l.ref else none).foldl (fun s r => s.cancelLaunch (r % 4096)) s
      if g.launches.isEmpty then s.pkgd fun p => p.endEmpty k else s

/-- A phase is cancelled; its boundary follows when every unit has stopped (R29). -/
def State.cancelPhase (s : State) (k : Nat) : State :=
  let s := s.pkgd fun p => p.setState k stCancelling
  (s.pkg.graphs.filter fun g => g.phase == k).foldl (fun s g => s.cancelGraph g.ctr) s

/-- Phases of a job that will not run are discarded, with their graphs: their counters end CANCELLED, and the job's FAILED does not count
them, since they have been discarded and have not ended (R29; notes/assumptions/111.md). -/
def Package.dropPhases (p : Package) (f : Phase → Bool) : Package :=
  let gone := p.phases.filter f
  let p := gone.foldl (fun p x => (p.graphs.filter fun g => g.phase == x.ctr).foldl (fun p g =>
    if (p.counter g.ctr).live then p.release g.ctr stCancelled else p) (p.release x.ctr stCancelled)) p
  { p with phases := p.phases.filter fun x => !f x
           graphs := p.graphs.filter fun g => !gone.any fun x => x.ctr == g.phase }

/-- A job is cancelled: its current phase, and every later one; its receive sides end (R29, R294). -/
def State.cancelJob (s : State) (k : Nat) : State :=
  let s := s.pkgd fun p => { (p.setState k stCancelling).dropPhases fun f => f.job == k && !f.started with
    rsSides := p.rsSides.filter fun d => d.job != k }
  match s.pkg.phases.find? fun f => f.job == k with
  | some f => s.cancelPhase f.ctr
  | none => s.pkgd fun p => p.setCounter k { p.counter k with state := stCancelled, outstanding := 0 }

/-- Cancel an instance of any level (R29). -/
def State.cancel (s : State) (k : Nat) : State :=
  match (s.pkg.counter k).level with
  | 1 => s.stopUnit k
  | 2 => s.cancelLaunch k
  | 3 => s.cancelGraph k
  | 4 => s.cancelPhase k
  | 5 => s.cancelJob k
  | _ => s

/-! ### The phase boundary (R102) -/

/-- One byte to drain: the order in which the bytes of a location stand, its entry, and its place and value in the chunk. -/
structure DrainCell where
  origin : Nat
  bindSeq : Nat
  seq : Nat
  entry : PorchEntry
  off : Nat
  val : Byte

def DrainCell.le (a b : DrainCell) : Bool :=
  a.origin < b.origin || (a.origin == b.origin && (a.bindSeq < b.bindSeq || (a.bindSeq == b.bindSeq && a.seq ≤ b.seq)))

def insertDrain (x : DrainCell) : List DrainCell → List DrainCell
  | [] => [x]
  | y :: ys => if x.le y then x :: y :: ys else y :: insertDrain x ys

/-- The bytes of a job's Porch entries, in the order of R102. -/
def State.drainCells (s : State) (job : Nat) : List DrainCell :=
  let es := (s.allCores.flatMap fun c => c.lsu.porch).filter fun e => e.job == job
  (es.flatMap fun e => e.cells.map fun c => ⟨e.origin, e.bindSeq, c.2.seq, e, c.1, c.2.val⟩).foldr insertDrain []

/-- The location of a drained byte, in its job's partition, through the cache of the die of the entry's origin core; a vault that a resize
has put into the overflow block is there (R89, R331). -/
def State.drainKey (s : State) (j : Job) (p : Partition) (c : DrainCell) : Xlate × State :=
  let a := 64 * c.entry.chunk + c.off
  let vault (k off : Nat) : Xlate := .key (if k < Config.cores then keyVault k off else keyCl (p.ovf + off))
  match c.entry.spc with
  | .sp => (.blocked, s)
  | .at => (vault c.entry.vault a, s)
  | .ra => (vault (p.cores.getD (fld a 32 8) Config.cores) (fld a 0 25), s)
  | .pr => (s.xlatePeer j.devs a true, s)
  | spc => s.dieXlate (c.entry.origin / Config.coresPerDie) p spc a true

/-- A drain that stops: at a failed walk, or waiting for a page under write-block or that a MIGRATE moves, or for a device that cannot be
reached. -/
structure DrainStop where
  spc : Space
  va : Nat
  fail : Option WalkFail

/-- The bytes drain in order; with `skip` the entries that do not translate are discarded (R90). The list names those. -/
def State.drainTo (j : Job) (p : Partition) (skip : Bool) : List DrainCell → State → List PorchEntry → Except DrainStop (State × List PorchEntry)
  | [], s, lost => .ok (s, lost)
  | c :: cs, s, lost =>
    if lost.contains c.entry then State.drainTo j p skip cs s lost
    else match s.drainKey j p c with
    | (.key k, s) =>
      if s.moving [k] then .error ⟨c.entry.spc, 64 * c.entry.chunk + c.off, none⟩
      else State.drainTo j p skip cs (s.landKeys [k] [c.val]) lost
    | (.fail f, s) => if skip then State.drainTo j p skip cs s (c.entry :: lost)
        else .error ⟨c.entry.spc, 64 * c.entry.chunk + c.off, some f⟩
    | _ => .error ⟨c.entry.spc, 64 * c.entry.chunk + c.off, none⟩

/-- Attic lines whose bytes in memory have changed are dropped (R102, R106). -/
def State.freshLines (s : State) (cores : List Nat) : State :=
  s.mapCores fun c => if cores.contains c.idx then
    { c with lsu := { c.lsu with attic := c.lsu.attic.filter fun l => s.mem.bytes l.2.1 256 == l.2.2 } } else c

/-- The job of the unit in a core's active slot. -/
def State.jobOfCore (s : State) (c : Core) : Option Nat :=
  if c.busy then some (s.pkg.counter (bindUctr c.slot.act.toNat)).job else c.prevJob.map (· % 4096)

/-- No unit of the job is bound, parked or still landing (R102 step 1). -/
def State.jobQuiet (s : State) (job : Nat) : Bool :=
  !(s.allCores.any fun c => (c.busy || c.landing) && s.jobOfCore c == some job) &&
  !(s.pkg.parked.any fun x => x.parked && (s.pkg.counter (bindUctr x.bind)).job == job)

/-- A job takes its final state; a service job of the Hearth leaves its entry with it (R26, R27, R315). -/
def Package.endJob (p : Package) (j fin : Nat) : Package :=
  if p.jobs.any fun x => x.ctr == j && x.service then { p.release j fin with jobs := p.jobs.filter fun x => x.ctr != j }
  else p.setCounter j { p.counter j with state := fin, outstanding := 0 }

/-- A job takes its final state when its last phase has ended and its submissions are closed (R21, R27). -/
def Package.jobDone (p : Package) (j : Nat) : Package :=
  let c := p.counter j
  let closed := (p.jobs.find? fun x => x.ctr == j).any (·.closed)
  if c.live && !stFinal c.state && c.level == 5 && closed && !(p.phases.any fun f => f.job == j) then
    p.endJob j (if c.failed = 0 then stComplete else stFaulted)
  else p

/-- The phase has ended in a state: its job goes on, or ends (R28, R29). -/
def Package.phaseEnded (p : Package) (k j fin : Nat) : Package :=
  let p := p.release k fin
  let p := { p with phases := p.phases.filter fun f => f.ctr != k, graphs := p.graphs.filter fun g => g.phase != k }
  let p := childEnded (fin != stComplete) 1 j p
  let stop := (p.counter j).state == stCancelling || fin == stFaulted
  if stop then
    let last := if (p.counter j).state == stCancelling then stCancelled else stFaulted
    (p.dropPhases fun f => f.job == j).endJob j last
  else
    match p.phases.find? fun f => f.job == j with
    | some f => p.startPhase f.ctr
    | none => p.jobDone j

/-- PHASE_BOUNDARY (R102). A drain that fails waits for the Hearth: after its repair of the table the drain runs again, and may find
another page that fails; with `skip` the Hearth has given the entries of a boundary that waits up (R90). -/
def State.phaseBoundary (s : State) (k : Nat) (skip : Bool) : Option State :=
  match s.pkg.phases.find? fun f => f.ctr == k with
  | none => none
  | some ph =>
    let c := s.pkg.counter k
    match s.jobAt ph.job with
    | none => none
    | some j =>
      match s.partAt j.part with
      | none => none
      | some part =>
        if !s.hearthUp || !ph.started || !(ph.closed || c.state == stCancelling) || c.outstanding != 0 || !s.jobQuiet ph.job || (skip && !ph.waiting) then none
        else
          match State.drainTo j part skip (s.drainCells ph.job) s [] with
          | .error e =>
            match e.fail with
            | none => none
            | some w =>
              if ph.waiting then none
              else
                let s := s.pkgd fun p => { p with phases := p.phases.map fun f => if f.ctr == k then { f with waiting := true } else f }
                some (s.note (noteRec e.va 0 k j.part 0xFF e.spc.code w.kind) true)
          | .ok (s, lost) =>
            let s := s.mapCores fun c => { c with lsu := { c.lsu with porch := c.lsu.porch.filter fun e => e.job != ph.job } }
            let s := s.freshLines part.cores
            let fin := if c.state == stCancelling then stCancelled else if !lost.isEmpty || c.failed != 0 then stFaulted else stComplete
            some (s.pkgd fun p => p.phaseEnded k ph.job fin)

/-- The Hearth writes words of the Cellar, to repair a table (R90). -/
def State.repair (s : State) (ws : List (Nat × Word)) : State :=
  { s with mem := ws.foldl (fun m w => m.putLe (keyCl w.1) 8 w.2.toNat) s.mem }

/-- The Hearth repairs a table that no unit waits for: boundaries that wait drain again (R90). -/
def State.repairTurn (s : State) (ws : List (Nat × Word)) : Option State :=
  if !s.hearthUp then none
  else some ((s.repair ws).pkgd fun p => { p with phases := p.phases.map fun f => { f with waiting := false } })

def execPhaseBoundary (phase : Index) (skip : Bool) (s : State) : Out := event "PHASE_BOUNDARY" (s.phaseBoundary phase skip)

end Sys2Proof.Machine
end

