-- ==== Sys2Proof/Machine/Policy.lean ====
section
/-! DEFINITION. Pre-emption requests and the policy of the Hearth's default firmware: which unit is bound next, and which is pre-empted
for it (R31, R117, R315, R320 to R322, R327, R329). -/

namespace Sys2Proof.Machine

/-! ### Requests (R322) -/

/-- A request for pre-emption reaches the unit, unless it has issued DONE or one is pending (R322). An MBND that retires from now on ends
the wait of R117. -/
def Core.requestPre (c : Core) : Core :=
  match c.fe.unit with
  | .running | .suspended false | .switching | .restoring =>
    if c.fe.preReq.isSome then c else { c with fe := { c.fe with preReq := some c.fe.cycle, bndSeen := false } }
  | _ => c

/-- The request reaches the unit of the core that moves, and with it every unit of its gang (R31, R322). -/
def State.requestPre (s : State) : State :=
  let b := s.core.slot.act.toNat
  if bindGang b then
    s.mapCores fun c => if c.busy && bindGang c.slot.act.toNat && bindLctr c.slot.act.toNat == bindLctr b then c.requestPre else c
  else s.withCore s.core.requestPre

def execSlotCtlPre (s : State) : Out :=
  event "SLOT_CTL_PRE" (if s.hearthUp then some (if s.core.busy then s.requestPre else s) else none)

/-- CHECKPOINT_INTERVAL (R329): every bound unit of the job is asked to stop; the Hearth binds it again at once. -/
def State.ckptInterval (s : State) (job : Nat) : Option State :=
  match s.jobAt job with
  | none => none
  | some j =>
    if !s.hearthUp || j.ckptMs = 0 then none
    else some (s.mapCores fun c =>
      if c.busy && (s.pkg.counter (bindUctr c.slot.act.toNat)).job == job then c.requestPre else c)

def execCheckpointInterval (job : Index) (s : State) : Out := event "CHECKPOINT_INTERVAL" (s.ckptInterval job)

/-- MACRO_NO_BOUNDARY (R117): a request has been pending for 2^20 cycles inside a macro, and no MBND has retired since it came. -/
def State.noBoundary (s : State) : Option State :=
  match s.core.fe.preReq with
  | none => none
  | some t =>
    if s.core.fe.mac.isSome && !s.core.fe.bndSeen && t + 2 ^ 20 ≤ s.core.fe.cycle then
      let s := s.sys fun y => { y with trapCause := setFld y.trapCause 0 8 Cause.macroNoBoundary.code }
      some ((s.bb (.trap .macroNoBoundary)).endUnit stFaulted true)
    else none

def execMacroNoBoundary (s : State) : Out := event "MACRO_NO_BOUNDARY" s.noBoundary

/-! ### Units that wait (R320) -/

/-- The class of a waiting unit: its job's, raised by its age (R320). -/
def State.classOf (s : State) (lctr i : Nat) : Nat :=
  let cls := ((s.jobAt (s.pkg.counter lctr).job).map (·.cls)).getD 7
  cls - ((s.pkg.aged.find? fun a => a.1 == lctr && a.2.1 == i).map (·.2.2)).getD 0

/-- The bind records of units that wait to be bound again: those that a pre-emption has parked, and those that a machine check has stopped
(R326, R329). -/
def Package.again (p : Package) : List Nat :=
  let parked := (p.parked.filter (·.parked)).map (·.bind)
  parked ++ (p.cutOff.map (·.1)).filter fun b => !parked.any fun x => bindUctr x == bindUctr b

/-- A unit is bound or about to be. -/
def State.bound (s : State) (k : Nat) : Bool :=
  s.allCores.any fun c => (c.busy && bindUctr c.slot.act.toNat == k) || (bindV c.slot.stby.toNat && bindUctr c.slot.stby.toNat == k)

/-- Units of a partition that wait unbound: those that have been bound before, and those of running launches that have not. -/
def State.waitingUnits (s : State) (part : Nat) : List (Nat × Nat) :=
  let again := (s.pkg.again.filter fun b => bindPart b == part && !s.bound (bindUctr b)).map fun b => (bindLctr b, bindUidx b)
  let fresh := s.pkg.graphs.flatMap fun g =>
    if (s.jobAt g.job).any fun j => j.part == part then
      g.launches.flatMap fun l =>
        match l.ref with
        | some r => if l.st = 1 then (((List.range l.units).filter fun i => !l.bound.contains i).map fun i => (r % 4096, i)) else []
        | none => []
    else []
  again ++ fresh

/-- The unit of a standby record. -/
def Core.standing (c : Core) : List (Nat × Nat) :=
  let b := c.slot.stby.toNat
  if bindV b then [(bindLctr b, bindUidx b)] else []

/-- Units that wait for a core of a partition: those that wait unbound, and those that stand by (R320). -/
def State.awaiting (s : State) (part : Nat) : List (Nat × Nat) :=
  s.waitingUnits part ++ (s.allCores.filter fun c => bindPart c.slot.stby.toNat == part).flatMap Core.standing

/-- The active slot is free: empty, or its unit has ended and landed (R29, R319). -/
def Core.slotFree (c : Core) : Bool := !c.busy && !c.landing

/-- The core that a unit must be bound on, if any: by PLACE, or by the vault that it has used before a pre-emption (R321, R327). -/
def State.mustCore (s : State) (b : Nat) (l : Launch) : Option Nat :=
  let cores := ((s.partAt (bindPart b)).map (·.cores)).getD []
  let home := (s.pkg.parked.find? fun x => bindUctr x.bind == bindUctr b).bind (·.home)
  if l.place then some (cores.getD (bindUidx b) 256)
  else home.map fun h => cores.getD h 256

/-! ### Who is bound next (R320, R321) -/

/-- The device whose route a unit waits for is cut off (R329). -/
def State.cutFrom (s : State) (k : Nat) : Bool :=
  s.pkg.cutOff.any fun x => bindUctr x.1 == k && x.2.any fun f => !s.pkg.routeUp f

/-- A waiting unit can be bound on this core. -/
def State.bindable (s : State) (part : Nat) (x : Nat × Nat) : Bool :=
  match s.launchOf x.1, s.pkg.again.find? fun b => bindLctr b == x.1 && bindUidx b == x.2 with
  | none, _ => false
  | some l, some b => !s.cutFrom (bindUctr b) && (match s.mustCore b l with | some c => c == s.core.idx | none => true)
  | some l, none =>
    s.pkg.liveUnits < 288 && (!l.place || (((s.partAt part).map (·.cores)).getD [])[x.2]? == some s.core.idx)

/-- The least of a list. -/
def leastOf : List Nat → Option Nat
  | [] => none
  | x :: xs => some (xs.foldl min x)

/-- The launches of a partition that have started, in the order of their submission. -/
def State.partLaunches (s : State) (part : Nat) : List Nat :=
  s.pkg.graphs.flatMap fun g => if (s.jobAt g.job).any fun j => j.part == part then (g.launches.filterMap (·.ref)).map (· % 4096) else []

/-- The launch of which this core binds a unit next: the highest class that waits, and within it the launches in turn, in the order of their
submission (R320). Which of a launch's units it is, the Hearth may choose (R22). -/
def State.nextLaunch (s : State) (part : Nat) : Option Nat :=
  let ws := (s.waitingUnits part).filter (s.bindable part)
  match leastOf (ws.map fun x => s.classOf x.1 x.2) with
  | none => none
  | some cls =>
    let mine := (ws.filter fun x => s.classOf x.1 x.2 == cls).map (·.1)
    let all := s.partLaunches part
    let last := (s.pkg.lastBind.find? fun x => x.1 == part && x.2.1 == cls).map (·.2.2)
    let turn := all.drop (match last.bind fun k => all.findIdx? (· == k) with | some i => i + 1 | none => 0) ++ all
    turn.find? mine.contains

/-- A core can take a unit of a class in a gang's binding: its active slot is free or holds a lower class, and its standby slot is free or
holds a unit of the gang (R321). -/
def Core.takesGang (c : Core) (lctr cls : Nat) : Bool :=
  (c.slotFree || cls < bindPrio c.slot.act.toNat) && (!bindV c.slot.stby.toNat || bindLctr c.slot.stby.toNat == lctr)

/-- A gang's units can be bound together: there are cores enough that can take them, with PLACE those of its indices (R31, R321). -/
def State.gangFits (s : State) (part lctr cls : Nat) (l : Launch) : Bool :=
  let cores := ((s.partAt part).map (·.cores)).getD []
  let takes (k : Nat) : Bool := s.allCores.any fun c => c.idx == k && c.takesGang lctr cls
  if l.place then (cores.take l.units).all takes else (s.pkg.counter lctr).outstanding ≤ (cores.filter takes).length

/-- The class of a job's units. -/
def State.ownClass (s : State) (lctr : Nat) : Nat := ((s.jobAt (s.pkg.counter lctr).job).map (·.cls)).getD 7

/-- A unit of the gang stands by already. -/
def State.gangBegun (s : State) (lctr : Nat) : Bool :=
  s.allCores.any fun c => bindV c.slot.stby.toNat && bindLctr c.slot.stby.toNat == lctr

/-- The code of the unit's object is being patched or unloaded: new binds are held (R350). -/
def State.patchHolds (s : State) (part : Nat) (l : Launch) : Bool :=
  s.pkg.patches.any fun p => (s.pkg.loaded[p.obj]?).any fun o => o.part == part && o.units.any fun u => u.entry == fld (l.word 0) 0 56

/-- The Hearth's policy binds this unit on this core: in its turn, with its own class as PRIO, SVC for the Hearth's own jobs alone, where the
unit may run, and a gang only where it can be bound whole (R315, R320, R321, R327, R329, R350; notes/assumptions/115.md). -/
def State.mayBind (s : State) (r : Nat) (l : Launch) : Bool :=
  let k := bindLctr r
  let cls := s.ownClass k
  bindPrio r == cls && ((s.jobAt (s.pkg.counter k).job).any fun j => j.service == bitAt r 125) &&
    !s.cutFrom (bindUctr r) && (match s.mustCore r l with | some c => c == s.core.idx | none => true) && !s.patchHolds (bindPart r) l &&
    (if l.gang then s.gangFits (bindPart r) k cls l && s.core.takesGang k cls && (s.gangBegun k || s.nextLaunch (bindPart r) == some k)
     else s.nextLaunch (bindPart r) == some k)

/-- The index is bound for the first time. -/
def Launch.bindUnit (l : Launch) (i : Nat) : Launch := { l with bound := i :: l.bound }

/-- Waiting classes of a bound unit are its own again (R320). -/
def Package.unage (p : Package) (lctr i : Nat) : Package := { p with aged := p.aged.filter fun a => !(a.1 == lctr && a.2.1 == i) }

/-- The launch has had its turn in a class. -/
def Package.tookTurn (p : Package) (part cls lctr : Nat) : Package :=
  { p with lastBind := (part, cls, lctr) :: p.lastBind.filter fun x => !(x.1 == part && x.2.1 == cls) }

/-- A unit's turn is taken: it waits no longer, and a unit of a lower class in the way of a gang is pre-empted first (R320, R321). -/
def State.claim (s : State) (r : Nat) (l : Launch) : State :=
  let cls := s.classOf (bindLctr r) (bindUidx r)
  let s := s.pkgd fun p =>
    { (p.unage (bindLctr r) (bindUidx r)).tookTurn (bindPart r) cls (bindLctr r) with
      cutOff := p.cutOff.filter fun x => bindUctr x.1 != bindUctr r }
  if l.gang && s.core.busy then s.requestPre else s

/-! ### Pre-emption by the policy (R320) -/

/-- QUANTUM_EXPIRY (R320): the active unit is pre-empted when a unit of the same or a higher class waits. -/
def State.quantumExpiry (s : State) : Option State :=
  let b := s.core.slot.act.toNat
  if !s.hearthUp || !s.core.busy then none
  else if (s.awaiting (bindPart b)).any fun x => s.classOf x.1 x.2 ≤ bindPrio b then some s.requestPre
  else some s

def execQuantumExpiry (s : State) : Out := event "QUANTUM_EXPIRY" s.quantumExpiry

/-- A core of the partition of this one's unit whose unit's class is higher, or as low and standing before it. -/
def Core.outranks (c d : Core) : Bool :=
  let p := bindPrio c.slot.act.toNat
  let q := bindPrio d.slot.act.toNat
  p < q || (p == q && c.idx < d.idx)

/-- A waiting unit of a higher class pre-empts the lowest-class active unit of the partition, without waiting for its quantum: this core's,
where no core of the partition is free and no unit of a lower class is active (R320). Of several it is the one on the highest core. A
unit that stands by waits so for its own core only (notes/assumptions/115.md). -/
def State.higherClass (s : State) : Option State :=
  let b := s.core.slot.act.toNat
  let mine := (((s.partAt (bindPart b)).map (·.cores)).getD [])
  let others := s.others.filter fun c => mine.contains c.idx
  let free (c : Core) : Bool := c.slotFree && !bindV c.slot.stby.toNat
  if s.hearthUp && s.core.fe.unit == .running && s.core.fe.preReq.isNone && !(others.any free) &&
      (others.all fun c => !c.busy || c.outranks s.core) && (others.all fun c => c.fe.preReq.isNone) &&
      ((s.waitingUnits (bindPart b) ++ s.core.standing).any fun x => s.classOf x.1 x.2 < bindPrio b) then some s.requestPre
  else none

/-- AGING (R320): a unit that waits rises one class, up to class 0. -/
def State.aging (s : State) (lctr i : Nat) : Option State :=
  match (s.jobAt (s.pkg.counter lctr).job) with
  | none => none
  | some j =>
    if !s.hearthUp || !(s.waitingUnits j.part).contains (lctr, i) then none
    else
      let n := ((s.pkg.aged.find? fun a => a.1 == lctr && a.2.1 == i).map (·.2.2)).getD 0
      some (s.pkgd fun p => { p.unage lctr i with aged := (lctr, i, min j.cls (n + 1)) :: (p.unage lctr i).aged })

def execAging (launch unit : Index) (s : State) : Out := event "AGING" (s.aging launch unit)

end Sys2Proof.Machine
end

