-- ==== Sys2Proof/Machine/Slot.lean ====
section
/-! DEFINITION. The slot table, the configuration planes, and the unit switch of a fresh unit (R34, R35, R121 to R123, R316 to R319). -/

namespace Sys2Proof.Machine

/-! ### Configuration planes (R121 to R123) -/

def Plane.word (p : Plane) (i : Nat) : Word := look 0 p.words i

/-- A plane word breaks the rules of its item (R37, R85, R106, R121, R125, R155, R259, R269). -/
def planeBad (i : Nat) (w : Word) : Bool :=
  if i < 256 then w &&& (SReg.bankFmt i).rsvd != 0
  else if i < 272 then wfld w 8 56 != 0 || !bindingOk (w.setWidth 8)
  else if i < 280 then wfld w 16 48 != 0
  else if i = 280 then w &&& SReg.timingCtl.rsvd != 0
  else if i < 297 then wfld w 20 44 != 0
  else if i = 297 then wfld w 2 62 != 0
  else if i < 314 then
    wfld w 56 6 != 0 || (wbit w 63 && wfld w 48 8 < wfld w 40 8) || (!wbit w 63 && w != 0) || (!wbit w 62 && wfld w 9 31 != 0)
  else if i = 314 then wfld w 1 2 != 0
  else w != 0

/-- The 4,096 bytes of a plane. -/
def Plane.bytes (p : Plane) : List Byte := (List.range 512).flatMap fun i => leBytes 8 (p.word i).toNat

/-- The pairs of a difference record. -/
def diffPairs : List Word → List (Word × Word)
  | i :: v :: rest => (i, v) :: diffPairs rest
  | _ => []

def applyPairs (ps : List (Word × Word)) (p : Plane) : Plane :=
  ps.foldl (fun (p : Plane) (x : Word × Word) => { p with words := if x.2 = 0 then del p.words (wfld x.1 0 9) else put p.words (wfld x.1 0 9) x.2 }) p

/-- DIFFERENCE_RECORD (R122, R123): the shadow plane takes the record's generation, or is restored, the event is logged, and the Hearth is
notified with PLANE_ROLLBACK. -/
def State.difference (s : State) (rec' : List Word) : Option State :=
  let head := rec'.headD 0
  let n := wfld head 48 16
  if !s.hearthUp || rec'.length != 2 * n + 1 || 512 < n then none
  else
    let ps := diffPairs (rec'.drop 1)
    let new := applyPairs ps s.core.shadow
    let ok := crc32c new.bytes == wfld head 0 32 && ps.all fun x => wfld x.1 9 55 = 0 && !planeBad (wfld x.1 0 9) x.2
    some (if ok then s.withCore { s.core with shadow := { new with gen := wfld head 32 16 } }
      else (s.withCore { s.core with shadow := s.core.resident, planeLog := s.core.planeLog ++ [head] }).pkgd fun p =>
        { p with rollbacks := p.rollbacks ++ [(s.core.idx, head)] })

def execDifferenceRecord (words : List Word) (s : State) : Out := event "DIFFERENCE_RECORD" (s.difference words)

/-- The live state is loaded from the resident plane (R122). A change of the Attic cache's size drops its lines and clears the
vault bytes whose role changes (R106). -/
def State.loadPlane (s : State) : State :=
  let p := s.core.resident
  let old := s.atticSize
  let s := s.sys fun y =>
    { y with
      bankFmt := (List.range 256).filterMap fun b => if p.word b = 13 then none else some (b, p.word b)
      sd := vmap (fun i _ => p.word (272 + i.val)) y.sd
      timingCtl := p.word 280
      timingPad := vmap (fun i _ => p.word (281 + i.val)) y.timingPad
      atticCache := p.word 297
      creg := vmap (fun i _ => p.word (298 + i.val)) y.creg
      trapVec := p.word 314 }
  let s := s.qs fun u => { u with h := vmap (fun i _ => ⟨(p.word (256 + i.val)).setWidth 8, []⟩) u.h }
  let new := s.atticSize
  if old = new then s
  else
    let lo := 0x1800000 - max old new
    let s := s.lsu fun l => { l with attic := [] }
    { s with mem := s.mem.clear (keyVault s.core.idx lo) (0x1800000 - min old new - lo) }

/-- A plane carries the job's timing mode, its pads and its Attic cache in words 280 to 297 (R37, R353). -/
def Plane.carries (p : Plane) (j : Job) : Bool :=
  p.word 280 == BitVec.ofNat 64 (Bool.bit j.strict) && ((List.range 16).all fun i => p.word (281 + i) == j.pads.getD i 0) &&
    p.word 297 == j.attic

/-- The planes flip when the bind record names the shadow's generation; the new shadow is a copy (R122). None while neither plane
holds it. Where the record names the resident's there is no flip, and the live state is loaded from the resident plane all the same, as R35
has it for a fresh unit: R122 says it of a flip only, and the choice is the model's (notes/assumptions/113.md). -/
def State.flip (s : State) (gen : Nat) : Option State :=
  if s.core.resident.gen = gen then some s.loadPlane
  else if s.core.shadow.gen = gen then some (s.withCore { s.core with resident := s.core.shadow }).loadPlane
  else none

/-! ### The slot registers (R316) -/

/-- SLOT.CTL as it reads: BERR, ASTATE and HELD. -/
def State.slotCtl (s : State) : Word :=
  let st : Nat := match s.core.fe.unit with
    | .empty => 0
    | .running | .suspended _ | .checked _ _ => if s.core.fe.preReq.isSome then 3 else 1
    | .switching => 2
    | .saving => 3
    | .restoring => 4
    | .ending | .ended => 5
  let held := s.pkg.parked.any fun x => x.held && x.loc == s.core.idx
  (s.core.slot.ctl &&& 0x100) ||| BitVec.ofNat 64 (st * 32 + Bool.bit held * 16)

/-- BERR is set. -/
def State.berr (s : State) : State := s.withCore { s.core with slot := { s.core.slot with ctl := s.core.slot.ctl ||| 0x100 } }

def State.setStby (s : State) (b : BitVec 128) : State := s.withCore { s.core with slot := { s.core.slot with stby := b } }

/-- The resume record of a checkpoint names this unit (R319). -/
def State.resumeOk (s : State) (b : Nat) : Bool :=
  let w := s.mem.le (regRegion (bindCkpt b)) 8
  bitAt w 63 && fld w 40 12 == bindUctr b

/-- A standby record that the dispatch hardware refuses (R319). -/
def State.bindBad (s : State) (b : Nat) : Bool :=
  let l := s.pkg.counter (bindLctr b)
  let u := s.pkg.counter (bindUctr b)
  let inPart (c : Counter) : Bool := c.live && (s.jobAt c.job).any fun j => j.part == bindPart b
  bindRsvd b || !((s.partAt (bindPart b)).any fun p => p.cores.contains s.core.idx) || !inPart l || !inPart u || l.level != 2 ||
    u.level != 1 || l.gen % 4096 != bindLgen b || (bindResume b && !s.resumeOk b)

/-- The Hearth binds a unit: fresh with a new counter entry, parked, or again after a machine check, in the order of its policy (R26, R315,
R316, R320, R321, R327, R329). A fresh unit's checkpoint block holds no checkpoint yet (notes/assumptions/116.md). -/
def State.bindUnit (s : State) (b : BitVec 128) (l : Launch) : Option State :=
  let r := b.toNat
  let k := bindUctr r
  let u := s.pkg.counter k
  let lst := (s.pkg.counter (bindLctr r)).state
  if l.gang != bindGang r || !(lst == stRunning || lst == stWaiting) || !s.mayBind r l then none
  else
    let s' := (s.claim r l).setStby b
    if u.live then
      if u.level == 1 && u.parent == some (bindLctr r) && !s.bound k && (bindResume r == s.resumeOk r) then some s' else none
    else if bindResume r || s.watched k || 288 ≤ s.pkg.liveUnits || l.units ≤ bindUidx r || l.bound.contains (bindUidx r) then none
    else
      let p := s'.pkg.allocAt k stWaiting 1 1 (some (bindLctr r)) (s.pkg.counter (bindLctr r)).job
      let f (x : Launch) : Launch := if x.ref == l.ref && x.st == 1 then x.bindUnit (bindUidx r) else x
      some { s' with pkg := { p with graphs := p.graphs.map fun g => { g with launches := g.launches.map f } }
                     mem := s'.mem.putLe (regRegion (bindCkpt r)) 8 0 }

/-- SLOT_STBY_WRITE (R316): a write while V = 1 is ignored; a record that R319 refuses is written as it is. -/
def State.stbyWrite (s : State) (b : BitVec 128) : Option State :=
  let r := b.toNat
  if !s.hearthUp then none
  else if bindV s.core.slot.stby.toNat then some s.berr
  else if !bindV r then some (s.setStby b)
  else
    match (if (s.pkg.counter (bindLctr r)).gen % 4096 == bindLgen r then s.launchOf (bindLctr r) else none) with
    | some l =>
      match s.bindUnit b l with
      | some t => some t
      | none => if (s.pkg.counter (bindUctr r)).live && s.bindBad r then some (s.setStby b) else none
    | none => some (s.setStby b)

/-- SLOT_CTL_CANCEL (R316): the unit in the active slot is stopped by R29. -/
def execSlotCtlCancel (s : State) : Out :=
  event "SLOT_CTL_CANCEL" (if s.hearthUp then some (if s.core.busy then s.stopUnit (bindUctr s.core.slot.act.toNat) else s) else none)

def execSlotStbyWrite (rec' : BitVec 128) (s : State) : Out := event "SLOT_STBY_WRITE" (s.stbyWrite rec')

/-! ### The unit switch of a fresh unit (R34, R35, R319) -/

/-- A unit stands in the standby slot of a core whose active slot is free. -/
def State.standsBy (s : State) (k : Nat) : Bool :=
  s.allCores.any fun c => bindV c.slot.stby.toNat && bindUctr c.slot.stby.toNat == k && c.slotFree

/-- Every unit of the gang that has not ended stands by, each before a free active slot: they are bound together or not at all (R31). -/
def State.gangTogether (s : State) (b : Nat) : Bool :=
  let k := bindLctr b
  !bindGang b || (s.pkg.openUnits k).length = (s.pkg.counter k).outstanding && (s.pkg.openUnits k).all s.standsBy

/-- g registers at the first issue (R35). -/
def freshG (b shape : Nat) : List Word :=
  let i := bindUidx b
  let x := i % shapeX shape
  let y := i / shapeX shape % shapeY shape
  let z := i / shapeX shape / shapeY shape
  [0, BitVec.ofNat 64 i, BitVec.ofNat 64 (x + y * 2 ^ 16 + z * 2 ^ 32), BitVec.ofNat 64 (shape % 2 ^ 50),
    BitVec.ofNat 64 (bindLctr b + bindLgen b * 2 ^ 12)]

/-- The registers of a fresh unit, every dirty bit set (R35, R161). -/
def freshRegs (b shape : Nat) : Regs :=
  { Regs.reset with g := vmap (fun i _ => (freshG b shape).getD i.val 0) Regs.reset.g
                    gDirty := BitVec.allOnes 32, sDirty := BitVec.allOnes 32, vDirty := BitVec.allOnes 64, pDirty := BitVec.allOnes 16 }

/-- The records of a Loft image (R336): slice, offset, bytes. -/
def loftRecords : Nat → List Byte → List (Nat × Nat × List Byte)
  | 0, _ => []
  | n + 1, bs =>
    if bs.length < 8 then []
    else
      let h := leNat (bs.take 8)
      let len := fld h 23 17
      (fld h 56 7, fld h 40 16, (bs.drop 8).take len) :: loftRecords n (bs.drop (8 + (len + 7) / 8 * 8))

/-- The Loft takes the image, and the high-water mark rises (R245, R336). -/
def Core.loftImage (c : Core) (rs : List (Nat × Nat × List Byte)) : Core :=
  rs.foldl (fun c r =>
    { c with mems := { c.mems with loft := c.mems.loft.write (r.1 * 2 ^ 16 + r.2.1) r.2.2 }, lhwm := max c.lhwm (r.2.1 + r.2.2.length) }) c

/-- The memories of a core for a unit of another job: all zero (R35). -/
def Core.wipe (c : Core) : Core := { c with mems := Mems.reset, lhwm := 0, link := ⟨false, .i4, 0, 0⟩ }

/-- The size of the Loft image at an address, which an object of the unit's job has (R336). -/
def State.loftSize (s : State) (la : Nat) : Nat :=
  let mine := s.pkg.loaded.filter fun o => o.job == (s.pkg.counter s.uctr).job
  ((mine.flatMap fun o => o.units.filterMap (·.loft)).find? fun x => x.addr == la).elim 0 (·.size)

/-- A fresh unit's core, from its launch record's words (R35); the circuit engine of a unit of the same job is as the unit before left it
(R268). -/
def State.freshUnit (s : State) (b : Nat) (words : List Word) : Option State :=
  let w (i : Nat) : Nat := (words.getD i 0).toNat
  let job := s.jobRef
  let same := s.core.prevJob == some job
  let c := if same then s.core else s.core.wipe
  let c := { c with
    regs := freshRegs b (w 2)
    qs := { Queues.reset with h := c.qs.h }
    lsu := { c.lsu with acc := [], heldSt := [], ms := [], walks := [] }
    eng := Eng.reset
    circ := if same then c.circ else Circuit.reset
    resh := none
    rsLast := 0
    vuse := false
    sys := { c.sys with rmode := 0, fpFlags := 0, frame := 0, timingLate := 0, loopState := 0, mloopStk := Vector.replicate 4 0, trapCause := 0,
                        trapPc := 0, trapOpc := 0, trapMpc := 0, trapUpc := 0, trapCpc := 0, trapFoot := Vector.replicate 4 0,
                        trapQpos := 0, trapInfo := 0 }
    fe := { Front.reset with unit := .switching, hold := 64, pc := BitVec.ofNat 64 (fld (w 0) 0 56), cycle := c.fe.cycle,
                             icache := c.fe.icache, cstore := c.fe.cstore } }
  let s := s.withCore c
  match s.engRead .cl (fld (w 1) 0 56) (fld (w 2) 52 9) with
  | .error _ => none
  | .ok (ps, s) =>
    let s := s.mems fun m => { m with cup := (m.cup.clear 0 256).write 0 ps }
    let la := fld (w 3) 0 56
    if la = 0 then some s
    else
      let size := s.loftSize la
      match s.engRead .cl la size with
      | .error _ => none
      | .ok (bs, s) => some (s.withCore (s.core.loftImage (loftRecords size bs)))

/-- The unit's first bind: its counter runs, takes its place in bind order, and the launch runs (R27, R102). -/
def Package.firstBind (p : Package) (b : Nat) : Package :=
  let u := p.counter (bindUctr b)
  let p := if u.bindSeq = 0 then
      { p.setCounter (bindUctr b) { u with state := stRunning, bindSeq := p.binds + 1 } with binds := p.binds + 1 }
    else p
  if (p.counter (bindLctr b)).state == stWaiting then p.setState (bindLctr b) stRunning else p

end Sys2Proof.Machine
end

