-- ==== Sys2Proof/Machine/Context.lean ====
section
/-! DEFINITION. The context of a unit: the pre-emption save, eviction, the restore, the unit switch, and what the Hearth does after a
page fault or a machine check (R31, R90, R225, R226, R245, R283, R308, R319, R322 to R329). -/

namespace Sys2Proof.Machine

/-! ### Where the images lie (R226, R324) -/

/-- The base of a save image: vault offset 0x180_0000 of a core, or its copy in the checkpoint block. -/
def imageBase (loc ckpt : Nat) : Nat := if loc = 255 then keyCl (ckpt + 8 * 2 ^ 20) else keyVault loc 0x1800000

def imgCup : Nat := 0x400000
def imgBar : Nat := 0x410000
def imgAcc : Nat := 0x420000
def imgChain : Nat := 0x520000
def imgScale : Nat := 0x560000
def imgToks : Nat := 0x560400
def imgCmds : Nat := 0x561000
def imgCirc : Nat := 0x563000

/-! ### Taking a request (R322, R323 steps 1 and 2) -/

/-- A request can be taken now: not in handler mode, inside a macro only right after an MBND, not once DONE has issued. -/
def State.preTakeable (s : State) : Bool :=
  let f := s.core.fe
  f.preReq.isSome && !f.handler && (f.mac.isNone || f.bnd) &&
    match f.unit with
    | .running | .suspended false => true
    | _ => false

/-- A RESHARD that runs stops between sub-transfers (R308); every other started command completes first (R323 step 2). -/
def reshardRuns (c : EngCmd) : Bool := match c.instr with | .reshard _ => c.st == .running | _ => false

/-- A RESHARD of this core runs. -/
def State.reshRuns (s : State) : Bool := (s.core.eng.q[(4 : Fin 5)]).any reshardRuns

/-- Accesses and started commands have landed, and a RESHARD's sub-transfers are acknowledged (R323 step 2). -/
def State.landed (s : State) : Bool :=
  s.core.lsu.ms.isEmpty && s.core.lsu.acc.all s.accHeld && !(s.core.eng.side.any fun c => c.st == .running) &&
  (!s.reshRuns || s.inFlight.isEmpty) && !s.core.eng.q.toList.any fun l => l.any fun c => c.st == .running && !reshardRuns c

/-- Results in flight enter the replay registers (R165, R323 step 1). -/
def State.freezeX (s : State) : State :=
  let s := if s.core.fe.xdone && !s.xBlocked then s.openX else s
  s.regs fun r => { r with rpl := flyToRpl s.core.fe.xnow r.fly, fly := [] }

/-- The request is taken: issue stops, results in flight enter the replay registers, and TRAP.CAUSE says whether a kernel is active (R169,
R322, R323 step 1). A suspension by a failed walk is merged with it: the command that met it is saved as not started, and meets the page
again after the resumption (R322; notes/assumptions/117.md). -/
def State.takePre (s : State) : State :=
  let s := s.freezeX.backOut
  let s := s.sys fun y => { y with trapCause := setFld y.trapCause 31 1 (Bool.bit s.core.fe.kernel.isSome) }
  s.fe fun f => { f with unit := .saving, fault := none, xdone := false, xowed := false, xahead := 0, hold := 0, slot := 0, part := 0,
                         aStall := false, xStall := false, waitOn := none, mark := none }

/-! ### The save (R323 to R325) -/

/-- Registers whose dirty bit is set, one after the other. -/
def putDirty (m : Memory) (base size : Nat) (dirty : Nat → Bool) (vals : List Nat) : Memory :=
  (vals.zip (List.range vals.length)).foldl (fun m x => if dirty x.2 then m.putLe (base + size * x.2) size x.1 else m) m

/-- The control word of a replay register (R165); a destination that has no code of R66 gives none. -/
def rplWord (f : Fly) (open' : Nat) : Nat :=
  let code := match f.dst with
    | .v n => XDst.code (.v n)
    | .s n => XDst.code (.s n)
    | .sq q => XDst.code (.sq q)
    | _ => open' % 256
  2 ^ 63 + f.due % 32 * 2 ^ 58 + code * 2 ^ 50

/-- The register region (R324). -/
def Core.saveRegs (c : Core) (b open' : Nat) (m : Memory) : Memory :=
  let r := c.regs
  let m := putDirty m (b + 0x40) 8 (r.gDirty.getLsbD ·) (r.g.toList.map (·.toNat))
  let m := putDirty m (b + 0x140) 4 (r.sDirty.getLsbD ·) (r.s.toList.map (·.toNat))
  let m := putDirty m (b + 0x200) 128 (r.pDirty.getLsbD ·) (r.p.toList.map (·.toNat))
  let m := putDirty m (b + 0x8000) 512 (r.vDirty.getLsbD ·) (r.v.toList.map (·.toNat))
  let m := (List.range 0x13D).foldl (fun m n => match sregOf n with
    | some x => m.putLe (b + 0x1000 + 8 * n) 8 (c.sys.get x).toNat
    | none => m) m
  let m := putDirty m (b + 0x2000) 8 (fun _ => true) (c.sys.sd.toList.map (·.toNat))
  let m := putDirty m (b + 0x2040) 8 (fun _ => true) (c.qs.h.toList.map (·.bind.toNat))
  let rp := c.regs.rpl
  (List.range 16).foldl (fun m k => match rp[k]? with
    | some f => ((m.putLe (b + 0x4000 + 1024 * k) 512 f.val.toNat).putLe (b + 0x4200 + 1024 * k) 128 f.mask.toNat).putLe
        (b + 0x4280 + 1024 * k) 8 (rplWord f open')
    | none => m.putLe (b + 0x4280 + 1024 * k) 8 0) m

/-- The banks that are saved (R85, R225). -/
def Sys.liveBanks (y : Sys) : List Nat := (List.range 256).filter fun b => wbit (look 13 y.bankFmt b) 8

/-- Dirty bits of the parameters, one bit each. -/
def dirtyBytes (c : Circuit) : List Byte := leBytes 512 (pack 1 ((List.range 4096).map fun i => if c.dirty.contains i then 1 else 0))

/-- A parameter copy as its words. -/
def paramBytes (l : List (Nat × Nat)) : List Byte := (List.range 4096).flatMap fun i => leBytes 8 (look cxZero l i)

/-- The barrier word of a unit (R225): V [63] and the generation at which it waits. How the spec's 64 KiB are divided it does not say; the
layout is the model's (notes/assumptions/45.md). -/
def barWord (b : Option Nat) : Nat := match b with | some g => 2 ^ 63 + g % 2 ^ 63 | none => 0

/-- A RESHARD that a pre-emption has stopped is one that has not started, as a RSWAIT is (R308, R313). -/
def savedCmd (c : EngCmd) : EngCmd := if reshardRuns c then { c with st := .waiting, popped := true } else c

/-- The commands that have not started, in queue order (R324). -/
def Eng.notStarted (e : Eng) : List EngCmd := (e.q.toList.flatMap id).filter fun c => c.st == .waiting

/-- The sixteen words of a command slot: the command's word, its PC, its place in program order, its cycle of issue, its operand values and
its footprint words. How the spec's 128 bytes are divided it does not say; the layout is the model's (notes/assumptions/45.md). -/
def cmdSlot (c : EngCmd) : List Nat :=
  let eight (l : List Word) (n : Nat) : List Nat := (List.range n).map fun i => (l.getD i 0).toNat
  [c.instr.word, c.pc.toNat, c.seq, c.cycle] ++ eight c.ops 8 ++ eight c.foot 4

/-- Words one after the other. -/
def putWords (m : Memory) (a : Nat) (ws : List Nat) : Memory :=
  (ws.zip (List.range ws.length)).foldl (fun m x => m.putLe (a + 8 * x.2) 8 x.1) m

/-- The command slots of the save image (R245, R324). -/
def Eng.saveCmds (e : Eng) (b : Nat) (m : Memory) : Memory :=
  putWords (m.clear b 0x2000) b ((e.notStarted.take 64).flatMap cmdSlot)

/-- The save image (R225, R226, R324). -/
def Core.saveImage (c : Core) (b : Nat) (m : Memory) : Memory :=
  let m := c.sys.liveBanks.foldl (fun m k => m.copyIn c.mems.sp (k * 2 ^ 14) (2 ^ 14) (b + k * 2 ^ 14)) m
  let m := m.copyIn c.mems.cup 0 (2 ^ 16) (b + imgCup)
  let m := (m.clear (b + imgBar) (2 ^ 16)).putLe (b + imgBar) 8 (barWord c.fe.barrier)
  let m := m.copyIn c.mems.acc 0 (2 ^ 20) (b + imgAcc)
  let m := (((m.clear (b + imgChain) 64).putLe (b + imgChain) 8 (chainWord c.link)).copyIn c.mems.chain 0 chainBuf (b + imgChain + 64))
  let sc := c.qs.scale.map fun e => (e.val.getD 0).toNat
  let m := ((m.clear (b + imgScale) 576).putLe (b + imgScale) 8 sc.length).putLe (b + imgScale + 64) (2 * sc.length) (pack 16 sc)
  let m := m.putLe (b + imgToks) 16 (pack 8 (c.qs.h.toList.map (·.toks.length)))
  let m := c.eng.saveCmds (b + imgCmds) m
  let m := m.write (b + imgCirc) (paramBytes c.circ.live ++ paramBytes c.circ.pend ++ dirtyBytes c.circ)
  (m.putLe (b + imgCirc + 0x10200) 8 c.circ.word.toNat).putLe (b + imgCirc + 0x10208) 8 c.circ.reg.toNat

/-- The Loft up to its high-water mark (R245). -/
def Core.saveLoft (c : Core) (ckpt : Nat) (m : Memory) : Memory :=
  if c.lhwm = 0 then m
  else (List.range 128).foldl (fun m k => m.copyIn c.mems.loft (k * 2 ^ 16) c.lhwm (keyCl ckpt + k * 2 ^ 16)) m

/-- The last word of an entry of the Porch image: the origin core [63:56], the space [54:52] and the virtual address's chunk [49:0]. R324
names these contents, and not where they stand in the sixteen bytes behind the data; the layout is the model's, in which the device index of
a .PR address has no room and stays in the parked record (notes/assumptions/45.md). -/
def porchWord (e : PorchEntry) : Nat := e.origin % 256 * 2 ^ 56 + e.spc.code % 8 * 2 ^ 52 + e.chunk % 2 ^ 50

/-- The latest byte at a place of an entry, if it holds one. -/
def PorchEntry.byteAt (e : PorchEntry) (i : Nat) : Option Byte := (((e.cells.filter fun c => c.1 == i).map (·.2)).foldl laterCell none).map (·.val)

/-- A Porch entry in the Porch image: its bytes, its byte mask, and what names it (R324, R328). -/
def putPorch (b : Nat) (e : PorchEntry) (m : Memory) : Memory :=
  let mask := ((List.range 64).filter fun i => (e.byteAt i).isSome).map (2 ^ ·)
  ((m.write b ((List.range 64).map fun i => (e.byteAt i).getD 0)).putLe (b + 64) 8 mask.sum).putLe (b + 72) 8 (porchWord e)

/-- The Porch entries of the unit in the core that moves. -/
def State.unitPorch (s : State) : List PorchEntry := s.core.lsu.porch.filter s.ownEntry

/-- The Porch image (R324, R328). -/
def savePorch (ckpt : Nat) (es : List PorchEntry) (m : Memory) : Memory :=
  (es.zip (List.range es.length)).foldl (fun m x => putPorch (keyCl (ckpt + 16 * 2 ^ 20) + 80 * x.2) x.1 m) m

/-- MPC, and the micro-address at which a macro goes on. -/
def Front.upc? (f : Front) : Option Nat := match f.aq with | c :: _ => c.upc | [] => f.mac.map (·.upc)
def Front.mpc (f : Front) : Word := match f.mac with | some m => m.layer.pc | none => 0

/-- The resume record (R324). -/
def State.resumeRecord (s : State) : List Nat :=
  let f := s.core.fe
  let home := (s.cores.findIdx? (· == s.core.idx)).getD 0
  [2 ^ 63 + s.uctr * 2 ^ 40, f.aPc.toNat, (f.xPc?.getD f.aPc).toNat, f.mpc.toNat,
    (f.upc?).getD 0 % 8192 + Bool.bit f.mac.isSome * 2 ^ 13 + Bool.bit f.kernel.isSome * 2 ^ 14 + Bool.bit s.core.vuse * 2 ^ 15 + home * 2 ^ 16,
    s.core.idx, s.unitPorch.length, s.core.lhwm]

/-- The held image of this core's save area goes to its unit's checkpoint block (R325). -/
def State.evict (s : State) : State :=
  match s.pkg.parked.find? fun x => x.held && x.loc == s.core.idx with
  | none => s
  | some x =>
    let ck := bindCkpt x.bind
    let m := s.mem.copyIn s.mem (keyVault s.core.idx 0x1800000) (7 * 2 ^ 20) (keyCl (ck + 8 * 2 ^ 20))
    let m := m.putLe (regRegion ck + 40) 8 0xFF
    { s with mem := m, pkg := { s.pkg with parked := s.pkg.parked.map fun y => if y == x then { x with loc := 255, held := false } else y } }

def execSlotCtlEvict (s : State) : Out := event "SLOT_CTL_EVICT" (if s.hearthUp then some s.evict else none)

/-- The record of a parked unit. -/
def State.parkRecord (s : State) : Parked where
  bind := s.bind
  parked := true
  loc := s.core.idx
  held := true
  home := if s.core.vuse then s.cores.findIdx? (· == s.core.idx) else none
  fe := s.core.fe
  qs := s.core.qs
  lsu := { s.core.lsu with ms := [], porch := s.unitPorch, utlb := [], walks := [], attic := [] }
  eng := s.core.eng
  circ := s.core.circ
  link := s.core.link
  rsLast := s.core.rsLast
  rpl := s.core.regs.rpl

/-- Steps 3 to 7 of R323: the unit is saved, and the active slot is empty. Its barrier wait goes on after the resumption (R322). -/
def State.save (s : State) : State :=
  let s := s.evict
  let s := s.eng fun e => { e with q := vmap (fun _ l => l.map savedCmd) e.q }
  let (w, s) := s.fresh
  let ck := bindCkpt s.bind
  let x := s.parkRecord
  let m := putWords s.mem (regRegion ck) s.resumeRecord
  let m := s.core.saveRegs (regRegion ck) w.toNat m
  let m := s.core.saveImage (imageBase s.core.idx ck) m
  let m := savePorch ck x.lsu.porch (s.core.saveLoft ck m)
  let job := s.jobRef
  let s := { s with mem := m, pkg := { s.pkg with parked := x :: s.pkg.parked.filter fun y => bindUctr y.bind != bindUctr x.bind } }
  let s := s.bb .preempt
  let c := { s.core with lsu := { s.core.lsu with porch := s.core.lsu.porch.filter fun e => !s.ownEntry e }
                         regs := { s.core.regs with gDirty := 0, sDirty := 0, vDirty := 0, pDirty := 0, rpl := [] } }
  s.withCore (c.clearUnit (some job))

/-- PREEMPTION_SAVE (R322, R323): a request is taken; what has started lands; then the unit is saved. -/
def State.preemptSave (s : State) : Option State :=
  let taken := s.preTakeable
  let s := if taken then s.takePre else s
  if s.core.fe.unit != .saving then none
  else if s.landed then some s.save
  else if taken then some s else none

def execPreemptionSave (s : State) : Out := event "PREEMPTION_SAVE" s.preemptSave

/-! ### The restore (R326) -/

/-- Times of the old core's clock on the new core's. -/
def shiftT (old new t : Nat) : Nat := t + new - old

/-- Tokens by their number in the image; those that were saved keep their ready times, on the new core's clock (R40;
notes/assumptions/54.md). -/
def restoreToks (o n : Nat) (toks : List (Option Nat)) (count : Nat) : List (Option Nat) :=
  (List.range count).map fun i => ((toks[i]?).getD none).map (shiftT o n)

def Queues.shift (o n : Nat) (u : Queues) : Queues :=
  { u with lq := vmap (fun _ l => l.map fun i => { i with arrived := shiftT o n i.arrived, ready := i.ready.map (shiftT o n) }) u.lq }

def Lsu.shift (o n : Nat) (l : Lsu) : Lsu := { l with acc := l.acc.map fun a => { a with ready := a.ready.map (shiftT o n) } }

def Eng.shift (o n : Nat) (e : Eng) : Eng := { e with q := vmap (fun _ l => l.map fun c => { c with cycle := shiftT o n c.cycle }) e.q }

/-- System registers from their words in the register region. -/
def Sys.restore (y : Sys) (w : Nat → Word) (sd : Nat → Word) : Sys :=
  { y with
    bankFmt := (List.range 256).filterMap fun b => if w b = 13 then none else some (b, w b)
    rmode := w 0x100, fpFlags := w 0x101, frame := w 0x102, timingLate := w 0x103, timingCtl := w 0x104
    timingPad := vmap (fun i _ => w (0x110 + i.val)) y.timingPad
    loopState := w 0x120
    mloopStk := vmap (fun i _ => w (0x124 + i.val)) y.mloopStk
    trapCause := w 0x130, trapPc := w 0x131, trapOpc := w 0x132, trapMpc := w 0x133, trapUpc := w 0x134, trapCpc := w 0x135
    trapFoot := vmap (fun i _ => w (0x136 + i.val)) y.trapFoot
    trapQpos := w 0x13A, trapInfo := w 0x13B, trapVec := w 0x13C
    sd := vmap (fun i _ => sd i.val) y.sd }

/-- The destination of a replay register: by its code in the control word, where that has one (R165, R172). -/
def rplDst (old : FlyDst) (code : Nat) : FlyDst :=
  match old, XDst.ofCode code with
  | .v _, some (.v n) | .s _, some (.v n) | .sq _, some (.v n) => .v n
  | .v _, some (.s n) | .s _, some (.s n) | .sq _, some (.s n) => .s n
  | .v _, some (.sq q) | .s _, some (.sq q) | .sq _, some (.sq q) => .sq q
  | d, _ => d

/-- A replay register as a result in flight with REMAIN, from its value, its guard mask and its control word; what no field of R165 holds
comes from the parked record. -/
def rplOf (m : Memory) (b : Nat) (old : Fly) : Option Fly :=
  let w := m.le (b + 0x280) 8
  if bitAt w 63 then
    some { old with val := BitVec.ofNat 4096 (m.le b 512), mask := BitVec.ofNat 1024 (m.le (b + 0x200) 128), due := fld w 58 5,
                    dst := rplDst old.dst (fld w 50 8) }
  else none

/-- A replay register that the parked record does not know: a result for v0 without flags or pushes. -/
def rplNone : Fly := ⟨.v 0, 0, 0, 0, 0, 0, 0, []⟩

/-- General, scalar, predicate, vector and replay registers from the register region, results beyond the sixteenth from the parked record
(notes/assumptions/34.md); every dirty bit is clear. -/
def restoreRegs (m : Memory) (b : Nat) (rpl : List Fly) : Regs :=
  { Regs.reset with
    g := vmap (fun i _ => BitVec.ofNat 64 (m.le (b + 0x40 + 8 * i.val) 8)) Regs.reset.g
    s := vmap (fun i _ => BitVec.ofNat 32 (m.le (b + 0x140 + 4 * i.val) 4)) Regs.reset.s
    p := vmap (fun i _ => BitVec.ofNat 1024 (m.le (b + 0x200 + 128 * i.val) 128)) Regs.reset.p
    v := vmap (fun i _ => BitVec.ofNat 4096 (m.le (b + 0x8000 + 512 * i.val) 512)) Regs.reset.v
    rpl := ((List.range 16).filterMap fun k => rplOf m (b + 0x4000 + 1024 * k) (rpl.getD k rplNone)) ++ rpl.drop 16 }

/-- A saved command with the operand values and the footprint words of its slot. -/
def cmdOf (m : Memory) (b : Nat) (c : EngCmd) : EngCmd :=
  let words (l : List Word) (n at' : Nat) : List Word :=
    (l.zip (List.range l.length)).map fun x => if x.2 < n then BitVec.ofNat 64 (m.le (b + at' + 8 * x.2) 8) else x.1
  { c with ops := words c.ops 8 32, foot := words c.foot 4 96 }

/-- The commands of a queue with what their slots hold, from slot k on; the number of the next slot. -/
def cmdsOf (m : Memory) (b : Nat) : Nat → List EngCmd → List EngCmd × Nat
  | k, [] => ([], k)
  | k, c :: cs =>
    if c.st == .waiting && k < 64 then
      let (l, n) := cmdsOf m b (k + 1) cs
      (cmdOf m (b + 128 * k) c :: l, n)
    else
      let (l, n) := cmdsOf m b k cs
      (c :: l, n)

/-- The saved commands re-enter their queues from the save image (R245, R326). -/
def Eng.restore (m : Memory) (b : Nat) (e : Eng) : Eng :=
  let go (q : Vector (List EngCmd) 5 × Nat) (i : Fin 5) : Vector (List EngCmd) 5 × Nat :=
    let (l, n) := cmdsOf m b q.2 q.1[i]
    (q.1.set i.val l, n)
  { e with q := ((List.finRange 5).foldl go (e.q, 0)).1 }

/-- A byte of a Porch entry under its mask: the image's, in place of the latest that was saved. -/
def cellsAt (m : Memory) (b i : Nat) (cells : List (Nat × PorchCell)) : List (Nat × PorchCell) :=
  if !bitAt (m.le (b + 64) 8) i then []
  else
    let v := BitVec.ofNat 8 (m.le (b + i) 1)
    match (cells.filter fun c => c.1 == i).reverse with
    | [] => [(i, ⟨v, 0, 0⟩)]
    | l :: before => before.reverse ++ [(i, { l.2 with val := v })]

/-- A Porch entry from its place in the Porch image (R328). -/
def porchOf (m : Memory) (b : Nat) (e : PorchEntry) : PorchEntry :=
  let w := m.le (b + 72) 8
  { e with
    cells := (List.range 64).flatMap fun i => cellsAt m b i e.cells
    origin := fld w 56 8, spc := (Space.ofCode (fld w 52 3)).getD e.spc, chunk := e.chunk / 2 ^ 50 * 2 ^ 50 + fld w 0 50 }

/-- An entry names a vault as the core that takes it does: its own as .AT, another by its index (R83, R328). -/
def PorchEntry.rehome (cores : List Nat) (k : Nat) (e : PorchEntry) : PorchEntry :=
  let a := 64 * e.chunk
  if e.spc == .ra && cores[fld a 32 8]? == some k then { e with spc := .at, chunk := fld a 0 25 / 64, vault := k }
  else if e.spc == .at && e.vault != k then
    match cores.findIdx? (· == e.vault) with
    | some i => { e with spc := .ra, chunk := (i * 2 ^ 32 + a) / 64, vault := 0 }
    | none => e
  else e

/-- The Porch entries of a unit from its Porch image, as its new core names their vaults (R326 step 1, R328). -/
def State.restorePorch (s : State) (ckpt : Nat) (es : List PorchEntry) : List PorchEntry :=
  ((es.zip (List.range es.length)).map fun x => porchOf s.mem (keyCl (ckpt + 16 * 2 ^ 20) + 80 * x.2) x.1).map (PorchEntry.rehome s.cores s.core.idx)

/-- The memories of a core from the save image and the Loft image; banks that are not LIVE and the Loft above its mark read as zero. -/
def restoreMems (m : Memory) (b ckpt hw : Nat) (live : List Nat) : Mems where
  sp := live.foldl (fun x k => x.copyIn m (b + k * 2 ^ 14) (2 ^ 14) (k * 2 ^ 14)) []
  loft := if hw = 0 then [] else (List.range 128).foldl (fun x k => x.copyIn m (keyCl ckpt + k * 2 ^ 16) hw (k * 2 ^ 16)) []
  cup := Memory.copyIn [] m (b + imgCup) (2 ^ 16) 0
  acc := Memory.copyIn [] m (b + imgAcc) (2 ^ 20) 0
  chain := Memory.copyIn [] m (b + imgChain + 64) chainBuf 0

/-- The chain state of an image's state word. -/
def linkOf (w : Nat) : Chain := if bitAt w 15 then ⟨true, ElemTy.ofCode (fld w 11 4), fld w 0 6, fld w 6 2⟩ else closed

/-- Parameters that are not CX zero, from their words. -/
def paramsOf (m : Memory) (b : Nat) : List (Nat × Nat) :=
  (List.range 4096).filterMap fun i => let x := m.le (b + 8 * i) 8; if x = cxZero then none else some (i, x)

/-- The circuit engine's saved state from the image: both parameter copies, their dirty bits, CE.STATUS and the registration. No page is in
a frame, and no table has been read (R283). -/
def savedCirc (m : Memory) (b : Nat) : Circuit :=
  { Circuit.reset with
    reg := BitVec.ofNat 64 (m.le (b + 0x10208) 8)
    live := paramsOf m b
    pend := paramsOf m (b + 0x8000)
    dirty := (List.range 4096).filter fun i => bitAt (m.le (b + 0x10000 + i / 8) 1) (i % 8)
    status := setFld (BitVec.ofNat 64 (m.le (b + 0x10200) 8)) 3 1 0 }

/-- The circuit engine after a restore: its saved state, and the header and tables of the object as they stand in memory (R283). A page that
fails suspends the unit, and the engine reads again before its next command (R90). -/
def State.restoreCirc (s : State) (b : Nat) : State :=
  let s := s.withCore { s.core with circ := savedCirc s.mem b }
  if !s.core.circ.untold then s
  else match s.reloadCirc with
    | .ok s => s
    | .error (.fault spc va f) => s.pageFaultAt s.pageTrap spc va f
    | .error (.poison p) => s.meetPoison 6 (· == p)
    | .error _ => s

/-- What a parked unit's sequencer had kept, and what its resume record says now: the pipes resume there as ERET has them resume (R326 step 8,
R370). -/
def State.resumeAt (s : State) (f : Front) (w : Nat → Nat) : State :=
  let pc (i : Nat) : Word := BitVec.ofNat 64 (w i)
  let x := f.xPc?.getD f.aPc
  let r : Resume := ⟨1, f.aPc, x, f.aq, f.xq, f.pc, f.kernel, f.mac.map fun m => (m.layer, m.upc), none, s.core.sys.mloopStk, f.seq, f.upc?⟩
  let v : EretView := ⟨f.aPc, x, pc 1, pc 2, pc 3, fld (w 4) 0 13, bitAt (w 4) 13, bitAt (w 4) 14⟩
  let s := if v.redirect then s.eretRedirect v.newA else ((s.eretMacro r v).eretLoop r v).eretSkip v
  s.fe fun f => { f with block := f.aq.any fun c => blocks c.instr }

/-- The front end of a unit that is restored at cycle n of its new core (R34, R326). -/
def Front.restored (f c : Front) (bar : Nat) : Front :=
  { f with
    unit := .restoring, hold := 64, cycle := c.cycle, icache := c.icache, cstore := c.cstore, preReq := none, bndSeen := false, aStall := false,
    xStall := false, stall := 0, adone := false, sdone := false, slot := 0, part := 0, xdone := false, xowed := false, xahead := 0, waitOn := none,
    mark := none, fault := none, barrier := if bitAt bar 63 then some (fld bar 0 63) else none, aFrom := shiftT f.cycle c.cycle f.aFrom }

/-- A parked unit is restored into this core, whose Porch must have room (R326, R328). -/
def State.restoreUnit (s : State) (b : Nat) : Option State :=
  match s.pkg.parked.find? fun x => bindUctr x.bind == bindUctr b with
  | none => none
  | some x =>
    let c := s.core
    if porchMax < c.lsu.porch.length + x.lsu.porch.length then none
    else
      let m := s.mem
      let ck := bindCkpt b
      let r := regRegion ck
      let w (i : Nat) : Nat := m.le (r + 8 * i) 8
      let loc := w 5 % 256
      let base := imageBase loc ck
      let sys := c.sys.restore (fun n => BitVec.ofNat 64 (m.le (r + 0x1000 + 8 * n) 8)) (fun i => BitVec.ofNat 64 (m.le (r + 0x2000 + 8 * i) 8))
      let o := x.fe.cycle
      let n := c.fe.cycle
      let q := x.qs.shift o n
      let sc := (q.scale.zip (List.range q.scale.length)).map fun e =>
        if e.1.val.isSome then { e.1 with val := some (BitVec.ofNat 16 (m.le (base + imgScale + 64 + 2 * e.2) 2)) } else e.1
      let l := x.lsu.shift o n
      let c := { c with
        regs := restoreRegs m r x.rpl
        sys := sys
        fe := x.fe.restored c.fe (m.le (base + imgBar) 8)
        qs := { q with
          scale := sc
          h := vmap (fun i h => ⟨BitVec.ofNat 8 (m.le (r + 0x2040 + 8 * i.val) 8), restoreToks o n h.toks (m.le (base + imgToks + i.val) 1)⟩) q.h }
        lsu := { c.lsu with acc := l.acc, heldSt := l.heldSt, ms := [], porch := c.lsu.porch ++ s.restorePorch ck l.porch, walks := [] }
        eng := (x.eng.restore m (base + imgCmds)).shift o n
        mems := restoreMems m base ck (w 7) sys.liveBanks
        lhwm := w 7
        link := linkOf (m.le (base + imgChain) 8)
        resh := none
        rsLast := x.rsLast
        vuse := bitAt (w 4) 15 }
      let s := ((s.withCore c).resumeAt x.fe w).replay
      let held := x.held && loc == s.core.idx
      let s := s.pkgd fun p => { p with parked := p.parked.map fun z => if z == x then { x with parked := false, held := held } else z }
      some (s.restoreCirc (base + imgCirc))

/-! ### The unit switch (R34, R319) -/

/-- The standby record becomes active: the planes flip to one that carries the values of the unit's job, and the unit is restored or starts
fresh (R34, R35, R122, R319, R353). -/
def State.switchIn (s : State) : Option State :=
  let b := s.core.slot.stby.toNat
  let s := if s.core.fe.unit == .ended then s.withCore (s.core.clearUnit s.core.prevJob) else s
  let words := look [] s.pkg.launches (bindLctr b)
  let s := s.withCore { s.core with slot := { s.core.slot with act := s.core.slot.stby, stby := 0 } }
  match s.flip (bindGen b) with
  | none => none
  | some s =>
    if !(s.job.any s.core.resident.carries) then none
    else match (if bindResume b then s.restoreUnit b else s.freshUnit b words) with
      | none => none
      | some s => some ((s.bb .bind).pkgd fun p => p.firstBind b)

/-- The standby records of several cores become active, and core `home` moves again. -/
def State.switchAll (home : Nat) : List Nat → State → Option State
  | [], s => s.toCore home
  | k :: ks, s => (s.toCore k).bind fun t => t.switchIn.bind (State.switchAll home ks)

/-- The cores in whose standby slots the units of a gang launch stand. -/
def State.gangCores (s : State) (lctr : Nat) : List Nat :=
  (s.allCores.filter fun c => bindV c.slot.stby.toNat && bindLctr c.slot.stby.toNat == lctr).map (·.idx)

/-- UNIT_SWITCH (R34, R319): the standby record is refused, or becomes active once its plane is there; the units of a gang become active
together (R31). -/
def State.unitSwitch (s : State) : Option State :=
  let b := s.core.slot.stby.toNat
  if !bindV b || !s.core.slotFree || s.pkg.fatal then none
  else if s.bindBad b then some (s.setStby 0).berr
  else if !s.gangTogether b then none
  else if bindGang b then State.switchAll s.core.idx (s.gangCores (bindLctr b)) s
  else s.switchIn

def execUnitSwitch (s : State) : Out := event "UNIT_SWITCH" s.unitSwitch

/-! ### What the Hearth does after a failed walk or a machine check (R90, R329) -/

/-- A fault record of the unit is still held for want of room in the ring: it stays suspended (R91). -/
def State.noteHeld (s : State) : Bool := s.pkg.notify.pending.any fun r => fld r 44 12 == s.uctr

/-- PAGE_FAULT (R90): the Hearth repairs the table and resumes the unit, or ends it FAULTED, with the trap record of what has met the
page. -/
def State.pageFaultDone (s : State) (resume : Bool) (ws : List (Nat × Word)) : Option State :=
  match s.core.fe.unit with
  | .suspended fin =>
    if !s.hearthUp || s.noteHeld then none
    else
      let s := s.repair ws
      if resume then some (s.fe fun f => { f with unit := if fin then .ending else .running, fault := none }).progress
      else
        let s := s.sys fun y => match s.core.fe.fault with
          | some t => y.record t s.core.fe.kernel.isSome s.core.eng.qpos
          | none => { y with trapCause := setFld y.trapCause 0 8 Cause.pageFault.code }
        some (s.endUnit stFaulted false)
  | _ => none

def execPageFault (resume : Bool) (repairs : List (Nat × Word)) (s : State) : Out := event "PAGE_FAULT" (s.pageFaultDone resume repairs)

/-- The core's state is discarded; the unit waits to be bound again, from its checkpoint when it has one; after a device could not be
reached, until a route to it is up (R329). The other units of its gang are pre-empted, to be bound again with it (R31). -/
def State.discardUnit (s : State) (fab : Option Nat) : State :=
  let b := s.bind
  let job := s.jobRef
  let s := if bindGang b then s.requestPre else s
  let s := s.pkgd fun p => { p.orphan s.core.idx with
    parked := p.parked.map fun x => if bindUctr x.bind == bindUctr b then { x with parked := true } else x
    cutOff := (b, fab) :: p.cutOff.filter fun x => bindUctr x.1 != bindUctr b }
  let c := { s.core with lsu := { s.core.lsu with porch := s.core.lsu.porch.filter fun e => !s.ownEntry e } }
  s.withCore (c.clearUnit (some job))

/-- MACHINE_CHECK (R127, R228, R329): the unit stops, what has started lands, and its core's state is discarded. -/
def State.machineCheck (s : State) (fab : Option Nat) : Option State :=
  if !s.hearthUp || !s.core.busy then none
  else match s.core.fe.unit with
    | .checked f _ => if f == fab && s.landed then some (s.discardUnit fab) else none
    | _ =>
      let s := s.machineStop fab 1
      some (if s.landed then s.discardUnit fab else s)

def execMachineCheck (fab : Option Index) (s : State) : Out := event "MACHINE_CHECK" (s.machineCheck fab)

end Sys2Proof.Machine
end

