-- ==== Sys2Proof/Machine/Ring.lean ====
section
/-! DEFINITION. The job ring: its doorbell and its entries, jobs, graphs and the ends of phases and jobs (R21, R26, R33, R35, R38,
R318, R352, R353). -/

namespace Sys2Proof.Machine

/-! ### Host memory -/

/-- Host memory at a host physical address, which has 52 bits. -/
def State.hostBytes (s : State) (a n : Nat) : List Byte := s.mem.bytes (keyHost (a % 2 ^ 52)) n
def State.hostPut (s : State) (a : Nat) (bs : List Byte) : State := { s with mem := s.mem.write (keyHost (a % 2 ^ 52)) bs }

/-- A little-endian field of a byte string. -/
def dle (b : List Byte) (i n : Nat) : Nat := leNat ((b.drop i).take n)
/-- Bytes lo to hi − 1 are zero. -/
def zeros (b : List Byte) (lo hi : Nat) : Bool := ((b.drop lo).take (hi - lo)).all (· == 0)
/-- The 32 bytes of an SM3 digest. -/
def digest (bs : List Byte) : List Byte := leBytes 32 (Config.sm3 bs)

/-! ### The ring (R352) -/

/-- log2 of the entries: a value below 6 is read as 6, one above 16 as 16. -/
def JobRing.log2 (r : JobRing) : Nat := min 16 (max 6 (wfld r.base 0 5))
/-- The host address of the entry at HEAD. -/
def JobRing.entry (r : JobRing) : Nat := wfld r.base 12 40 * 2 ^ 12 + 64 * (r.head.toNat % 2 ^ r.log2)

/-- JOBRING_TAIL: a doorbell that overfills the ring is ignored and sets OVR. -/
def State.ringTail (s : State) (tail : Word) : State :=
  let r := s.pkg.ring
  if 2 ^ r.log2 < (tail - r.head).toNat then s.pkgd fun p => { p with mboxStat := p.mboxStat ||| 0x200 }
  else s.pkgd fun p => { p with ring := { r with tail := tail } }

def execJobringTail (tail : Word) (s : State) : Out := event "JOBRING_TAIL" (if s.pkg.fatal then none else some (s.ringTail tail))

/-- Word i of the entry at HEAD. -/
def State.ringWord (s : State) (i : Nat) : Nat := leNat (s.hostBytes (s.pkg.ring.entry + 8 * i) 8)
def State.ringOp (s : State) : Nat := fld (s.ringWord 0) 56 8

/-- The Hearth may read the entry at HEAD. -/
def State.ringReady (s : State) : Bool := s.hearthUp && s.pkg.ring.head.toNat < s.pkg.ring.tail.toNat

/-- A must-be-zero bit of the entry is set. -/
def State.ringRsvd (s : State) : Bool :=
  fld (s.ringWord 0) 0 49 != 0 || fld (s.ringWord 1) 0 52 != 0 || s.ringWord 4 != 0 || s.ringWord 5 != 0 || s.ringWord 6 != 0

/-- Word 7 is written and HEAD passes the entry. -/
def State.ringDone (s : State) (status ctr : Nat) : State :=
  (s.hostPut (s.pkg.ring.entry + 56) (leBytes 8 (status * 2 ^ 56 + ctr * 2 ^ 44))).pkgd fun p =>
    { p with ring := { p.ring with head := p.ring.head + 1 } }

def stOk : Nat := 0
def stBadOp : Nat := 1
def stParkedCap : Nat := 2
def stTimingFloor : Nat := 3
def stRefused : Nat := 4

/-! ### Room in the counter table (R26) -/

/-- A running graph has a launch that waits for an entry. -/
def State.graphWaits (s : State) (g : Graph) : Bool := (List.range g.launches.length).any (s.pkg.mayStart g)

/-- The entries that a ring entry needs are there, and one more for every graph that waits for one. -/
def State.entryRoom (s : State) (n : Nat) : Bool := s.pkg.liveOthers + n + (s.pkg.graphs.filter s.graphWaits).length ≤ 3808

/-! ### JOB (R353) -/

/-- The floors of classes 0 to 10 (R38). -/
def padFloors : List Nat := [12, 164, 644, 1244, 1400, 4000, 6000, 1, 1, 1, 1]

/-- Entry i of a descriptor's device table. -/
def devEntry (d : List Byte) (i : Nat) : Nat := dle d (1024 + 8 * i) 8
def devCount (d : List Byte) : Nat := fld (dle d 152 8) 0 9
def devTable (d : List Byte) : List (Nat × Nat) :=
  (List.range (devCount d)).map fun i => (fld (devEntry d i) 32 8, fld (devEntry d i) 52 4)

/-- A field of the descriptor breaks its layout (R353). -/
def descRsvd (d : List Byte) : Bool :=
  fld (dle d 0 8) 56 8 != 1 || fld (dle d 0 8) 1 55 != 0 ||
  ((List.range 16).any fun i => fld (dle d (8 + 8 * i) 8) 20 44 != 0 || (11 ≤ i && dle d (8 + 8 * i) 8 != 0)) ||
  fld (dle d 136 8) 2 62 != 0 || 10000 < dle d 144 8 || fld (dle d 152 8) 9 55 != 0 || devCount d = 0 || 256 < devCount d ||
  !zeros d 256 1024 || !zeros d (1024 + 8 * devCount d) 4096 ||
  (List.range (devCount d)).any fun i => fld (devEntry d i) 56 8 != 128 || fld (devEntry d i) 40 12 != 0 || fld (devEntry d i) 0 32 != 0

/-- No fabric number stands twice. -/
def fabsDistinct : List (Nat × Nat) → Bool
  | [] => true
  | x :: xs => !(xs.any fun y => y.1 == x.1) && fabsDistinct xs

/-- The descriptor is refused (R353). -/
def State.descBad (s : State) (d : List Byte) (part : Nat) : Bool :=
  descRsvd d || !fabsDistinct (devTable d) || !(devTable d).contains (s.pkg.fabric.toNat % 256, part) ||
  (d.drop 160).take 32 != digest ((d.drop 192).take 64) || (s.partAt part).isNone

/-- A pad of a Strict job is below its floor (R38). -/
def padsLow (d : List Byte) : Bool :=
  bitAt (dle d 0 8) 0 && (List.range 11).any fun i => dle d (8 + 8 * i) 8 < padFloors.getD i 0

/-- The job of a descriptor. -/
def jobOf (k part cls : Nat) (d : List Byte) : Job where
  ctr := k
  part := part
  devs := devTable d
  cls := cls
  strict := bitAt (dle d 0 8) 0
  pads := (List.range 16).map fun i => BitVec.ofNat 64 (dle d (8 + 8 * i) 8)
  attic := BitVec.ofNat 64 (dle d 136 8)
  ckptMs := dle d 144 8
  auth := (d.drop 160).take 32
  authKey := (d.drop 192).take 64
  closed := false
  service := false

/-- JOB: the entry's descriptor is read, and the job takes its counter entry or is refused. An entry with an OP that names nothing ends
BAD_OP. -/
def State.readJob (s : State) : Option State :=
  let op := s.ringOp
  if !s.ringReady || (2 ≤ op && op ≤ 4) then none
  else if op != 1 then some (s.ringDone stBadOp 0)
  else
    let part := fld (s.ringWord 0) 52 4
    let d := s.hostBytes (s.ringWord 2) 4096
    if s.ringRsvd || s.ringWord 3 != dle d 160 8 || s.descBad d part then some (s.ringDone stRefused 0)
    else if padsLow d then some (s.ringDone stTimingFloor 0)
    else if !s.entryRoom 1 then none
    else (s.freeEntry).map fun k =>
      let p := s.pkg.allocAt k stRunning 5 0 none k
      ({ s with pkg := { p with jobs := p.jobs ++ [jobOf k part (fld (s.ringWord 0) 49 3) d] } }).ringDone stOk k

def execJob (s : State) : Out := event "JOB" s.readJob

/-! ### GRAPH (R21, R33, R352) -/

/-- A launch record breaks its layout or a limit of R21, R35, R318, R321. -/
def Launch.bad (l : Launch) : Bool :=
  let dims := fld (l.word 2) 48 2
  fld (l.word 0) 56 8 != 0 || l.word 0 % 8 != 0 || fld (l.word 1) 56 8 != 0 || fld (l.word 2) 61 3 != 0 || 256 < fld (l.word 2) 52 9 ||
  fld (l.word 3) 56 8 != 0 || l.word 3 % 64 != 0 || l.word 4 != 0 || l.word 5 != 0 || l.word 6 != 0 || l.word 7 != 0 ||
  dims = 0 || (dims < 2 && fld (l.word 2) 16 16 != 0) || (dims < 3 && fld (l.word 2) 32 16 != 0) || 2 ^ 24 < l.units ||
  (l.place && !l.gang)

/-- The edges over these launches have no cycle: launches that no remaining one precedes are taken away until none is left. -/
def acyclic (edges : List (Nat × Nat)) : Nat → List Nat → Bool
  | 0, l => l.isEmpty
  | n + 1, l => acyclic edges n (l.filter fun x => edges.any fun e => e.2 == x && l.contains e.1)

/-- The launches of a graph descriptor. -/
def State.descLaunches (s : State) (a : Nat) : List Launch :=
  (List.range (dle (s.hostBytes a 16) 0 2)).map fun i =>
    ⟨(List.range 8).map fun j => BitVec.ofNat 64 (leNat (s.hostBytes (a + 16 + 64 * i + 8 * j) 8)), 0, none, []⟩

/-- Its edges. -/
def State.descEdges (s : State) (a : Nat) : List (Nat × Nat) :=
  let n := dle (s.hostBytes a 16) 0 2
  (List.range (dle (s.hostBytes a 16) 2 2)).map fun i =>
    let e := leNat (s.hostBytes (a + 16 + 64 * n + 4 * i) 4)
    (fld e 0 16, fld e 16 16)

/-- A launch of a unit with a Loft image names its placed address in LOFT. The launch's unit is the one of its job whose first instruction
stands at ENTRY (R335, R336; notes/assumptions/118.md). -/
def Launch.withLoft (us : List UnitImg) (l : Launch) : Launch :=
  match (us.find? fun u => u.entry == fld (l.word 0) 0 56).bind (·.loft) with
  | some x => { l with words := (l.words.take 3) ++ BitVec.ofNat 64 x.addr :: l.words.drop 4 }
  | none => l

/-- The units of a job's loaded objects. -/
def Package.unitsOf (p : Package) (job : Nat) : List UnitImg := (p.loaded.filter fun o => o.job == job).flatMap (·.units)

/-- The graph breaks R21, R35 or R318. -/
def graphBad (ls : List Launch) (es : List (Nat × Nat)) : Bool :=
  4096 < ls.length || 16384 < es.length || ls.any Launch.bad || (es.any fun e => ls.length ≤ e.1 || ls.length ≤ e.2) ||
  !acyclic es ls.length (List.range ls.length)

/-- The job of a ring entry, when it takes further entries. -/
def State.ringJob (s : State) : Option Job :=
  let k := fld (s.ringWord 1) 52 12
  let c := s.pkg.counter k
  if c.live && c.level == 5 && c.state == stRunning then (s.jobAt k).filter fun j => !j.closed else none

/-- The phase of a job that takes graphs. -/
def Package.openPhase (p : Package) (j : Nat) : Option Phase := p.phases.find? fun f => f.job == j && !f.closed

/-- A phase takes its entry with its first graph; the first phase of a job starts at once (R22, R26). -/
def State.addPhase (s : State) (j : Nat) : Option State :=
  s.freeEntry.map fun k => s.pkgd fun p =>
    let first := !p.phases.any fun f => f.job == j
    let p := p.allocAt k (if first then stRunning else stWaiting) 4 0 (some j) j
    let c := p.counter j
    { p.setCounter j { c with outstanding := c.outstanding + 1 } with phases := p.phases ++ [⟨k, j, false, first, false⟩] }

/-- A graph takes its entry, and starts when its phase runs. -/
def State.addGraph (s : State) (f : Phase) (ls : List Launch) (es : List (Nat × Nat)) : Option (Nat × State) :=
  s.freeEntry.map fun k => (k, s.pkgd fun p =>
    let p := p.allocAt k stWaiting 3 ls.length (some f.ctr) f.job
    let c := p.counter f.ctr
    let p := p.setCounter f.ctr { c with outstanding := c.outstanding + 1 }
    let p := { p with graphs := p.graphs ++ [⟨k, f.job, f.ctr, ls.map (Launch.withLoft (p.unitsOf f.job)), es⟩] }
    if f.started then (p.startGraph k).readied else p)

/-- GRAPH: the descriptor is read, and the graph joins the job's open phase or is refused. -/
def State.readGraph (s : State) : Option State :=
  if !s.ringReady || s.ringOp != 2 then none
  else
    let ls := s.descLaunches (s.ringWord 2)
    let es := s.descEdges (s.ringWord 2)
    match s.ringJob with
    | none => some (s.ringDone stRefused 0)
    | some j =>
      let ph := s.pkg.openPhase j.ctr
      let full := match ph with
        | some f => 256 ≤ (s.pkg.graphs.filter fun g => g.phase == f.ctr).length || (s.pkg.counter f.ctr).state == stCancelling
        | none => false
      if s.ringRsvd || graphBad ls es || full then some (s.ringDone stRefused 0)
      else if ls.any fun l => l.gang && (s.jobCores j.ctr).length < l.units then some (s.ringDone stParkedCap 0)
      else if !s.entryRoom (if ph.isSome then 1 else 2) then none
      else
        match (if ph.isSome then some s else s.addPhase j.ctr) with
        | none => none
        | some s => ((s.pkg.openPhase j.ctr).bind fun f => s.addGraph f ls es).map fun x => x.2.ringDone stOk x.1

def execGraph (s : State) : Out := event "GRAPH" s.readGraph

/-! ### PHASE_END and JOB_END (R352) -/

/-- The open phase of a job takes no more graphs. -/
def Package.closePhase (p : Package) (j : Nat) : Package :=
  { p with phases := p.phases.map fun f => if f.job == j then { f with closed := true } else f }

/-- PHASE_END: the current phase takes no more graphs. -/
def State.readPhaseEnd (s : State) : Option State :=
  if !s.ringReady || s.ringOp != 3 then none
  else
    match s.ringJob with
    | some j => if s.ringRsvd then some (s.ringDone stRefused 0) else some ((s.pkgd fun p => p.closePhase j.ctr).ringDone stOk 0)
    | none => some (s.ringDone stRefused 0)

def execPhaseEnd (s : State) : Out := event "PHASE_END" s.readPhaseEnd

/-- JOB_END: the job takes no more entries; without a phase left it ends. -/
def State.readJobEnd (s : State) : Option State :=
  if !s.ringReady || s.ringOp != 4 then none
  else
    match s.ringJob with
    | some j =>
      if s.ringRsvd then some (s.ringDone stRefused 0)
      else
        let close (x : Job) : Job := if x.ctr == j.ctr then { x with closed := true } else x
        some ((s.pkgd fun p => Package.jobDone { p.closePhase j.ctr with jobs := p.jobs.map close } j.ctr).ringDone stOk 0)
    | none => some (s.ringDone stRefused 0)

/-! ### The Hearth's own jobs (R315) -/

/-- The job of a service unit: the Hearth's own in a partition, with no peers and Elastic timing. -/
def serviceJob (k part cls fab : Nat) : Job where
  ctr := k
  part := part
  devs := [(fab, part)]
  cls := cls
  strict := false
  pads := List.replicate 16 0
  attic := 0
  ckptMs := 0
  auth := []
  authKey := []
  closed := true
  service := true

/-- The Hearth submits a launch of its own: a job, its phase and its graph take their entries, and are closed at once (R26, R315). -/
def State.service (s : State) (part cls : Nat) (words : List Word) : Option State :=
  let l : Launch := ⟨words, 0, none, []⟩
  if !s.hearthUp || 8 ≤ cls || words.length != 8 || l.bad || (s.partAt part).isNone || !s.entryRoom 3 then none
  else
    s.freeEntry.bind fun k =>
      let p := s.pkg.allocAt k stRunning 5 0 none k
      let s : State := { s with pkg := { p with jobs := p.jobs ++ [serviceJob k part cls (p.fabric.toNat % 256)] } }
      (s.addPhase k).bind fun s => (s.pkg.openPhase k).bind fun f => (s.addGraph f [l] []).map fun x => x.2.pkgd fun p => p.closePhase k

def execJobEnd (s : State) : Out := event "JOB_END" s.readJobEnd

end Sys2Proof.Machine
end

