-- ==== Sys2Proof/Machine/Links.lean ====
section
/-! DEFINITION. The GZ links, scrubbing, detected errors, throttling and the fatal error (R127, R228, R308, R355, R358 to R362, R365). -/

namespace Sys2Proof.Machine

/-! ### Links (R358, R359) -/

def Package.link (p : Package) (k : Nat) : Option Link := p.links.toList[k]?
def State.setLink (s : State) (k : Nat) (l : Link) : State :=
  s.pkgd fun p => { p with links := vmap (fun i x => if i.val = k then l else x) p.links }

def flitSeq (b : List Byte) : Nat := fld (dle b 0 8) 52 12
def flitAck (b : List Byte) : Nat := fld (dle b 0 8) 40 12
def flitKind (b : List Byte) : Nat := fld (dle b 0 8) 36 4
def flitDest (b : List Byte) : Nat := fld (dle b 0 8) 28 8

/-- A flit passes its CRC; one of a reserved kind counts as failed (R358). -/
def flitOk (b : List Byte) : Bool := b.length = 256 && crc32c (b.take 248) == dle b 248 4 && flitKind b ≤ 4

/-- An ACK covers a SEQ: SEQ is not after it, in the window of 12-bit numbers. -/
def ackCovers (ack seq : Nat) : Bool := (ack + 4096 - seq) % 4096 < 2048

/-- Flits that the ACK covers leave the replay buffer; progress resets the count of replays. -/
def Link.ack (l : Link) (a : Nat) : Link :=
  let rest := l.buf.filter fun x => !ackCovers a x.seq
  { l with buf := rest, tries := if rest.isEmpty || rest.length < l.buf.length then 0 else l.tries }

/-- FLIT: a flit arrives at a port. A bad one, or one out of sequence, is dropped; a good one is acknowledged, and delivered here or
forwarded by its destination's route. Without a route that is up it fails (R355). -/
def State.flit (s : State) (k : Nat) (b : List Byte) : Option State :=
  match s.pkg.link k with
  | none => none
  | some l =>
    if !l.up || s.pkg.fatal then none
    else if !flitOk b || flitSeq b != l.rcv then some s
    else
      let l := { l.ack (flitAck b) with rcv := (l.rcv + 1) % 4096 }
      let dest := flitDest b
      if flitKind b = 0 || flitKind b = 4 then some (s.setLink k l)
      else if dest = s.pkg.fabric.toNat % 256 then some (s.setLink k { l with inbox := l.inbox ++ [(b.drop 8).take 240] })
      else
        let s := s.setLink k l
        match s.pkg.port dest with
        | none => some s
        | some o =>
          match s.pkg.link o with
          | none => some s
          | some out => if !out.up then some s else if 256 ≤ out.buf.length then none else some (s.setLink o (out.send b .forwarded))

def execFlit (port : Index) (bytes : List Byte) (s : State) : Out := event "FLIT" (s.flit port bytes)

/-- LINK_REPLAY: the sender goes back to the first flit that is not acknowledged, where there is one. -/
def State.linkReplay (s : State) (k : Nat) : Option State :=
  match s.pkg.link k with
  | none => none
  | some l =>
    if !l.up || l.buf.isEmpty || 8 ≤ l.tries then none
    else some ((s.setLink k { l with tries := l.tries + 1 }).elog 7 kLinkReplay 0 0xFF k)

def execLinkReplay (port : Index) (s : State) : Out := event "LINK_REPLAY" (s.linkReplay port)

/-- An access of the core is not complete: it has no data yet, or its data is on the way (R358). -/
def Core.awaits (c : Core) (seq : Nat) : Bool :=
  (c.lsu.acc.any fun a => a.seq == seq) || (c.lsu.ms.any fun w => w.seq == seq) ||
    c.qs.lq.toList.any fun l => l.any fun i => i.id == seq && c.fe.cycle < i.arrived

/-- The access of the core whose request a flit carries, if it is not complete. -/
def Core.carried (c : Core) (x : Flit) : Option Nat :=
  match x.use with
  | .access k seq => if k = c.idx && c.awaits seq then some seq else none
  | _ => none

/-- A flit carries a sub-transfer. -/
def Flit.carriesSub (x : Flit) (f : RsSend) : Bool := x.use == .sub f.core f.ix

/-- What the flits of a failed link do to a core: a RESHARD with a sub-transfer among them ends with RESHARD_LINK once the others have
settled (R308), and writes that had not been acknowledged are gone (R358). -/
def Core.linkLost (c : Core) (buf : List Flit) (fly : List RsSend) : Core :=
  let gone := fly.find? fun f => f.core == c.idx && buf.any (·.carriesSub f)
  let cut (r : Resh) : Resh :=
    match gone with
    | some f => { r with fail := some f.dev }
    | none => r
  let lost := buf.filterMap c.carried
  { c with resh := c.resh.map cut, lsu := { c.lsu with ms := c.lsu.ms.filter fun w => !lost.contains w.seq } }

/-- The .PR accesses and AMOs of a core among the flits of a failed link are a machine check of its unit, which names the device
(R127, R358). -/
def State.checkLost (buf : List Flit) (s : State) : State :=
  match buf.find? fun x => (s.core.carried x).isSome with
  | some x => if s.core.busy then s.machineStop (some (flitDest x.bytes)) 1 else s
  | none => s

/-- LINK_DOWN: a flit that has been replayed 8 times takes the link down; no flit of its buffer is delivered later. The requests that fail
are those that the port's buffer holds, whatever the routes are now (R355). -/
def State.linkDown (s : State) (k : Nat) : Option State :=
  match s.pkg.link k with
  | none => none
  | some l =>
    if !l.up || l.tries < 8 then none
    else
      let s := s.setLink k { l with up := false, downs := (l.downs + 1) % 2 ^ 32, buf := [], tries := 0 }
      let s := (s.allCores.map (·.idx)).foldl (fun s i => s.onCore i (State.checkLost l.buf)) s
      let s := s.mapCores fun c => c.linkLost l.buf s.pkg.rsFly
      let s := s.pkgd fun p => { p with rsFly := p.rsFly.filter fun f => !l.buf.any (·.carriesSub f) }
      some (s.elog 7 kLinkDown 0 0xFF k)

def execLinkDown (port : Index) (s : State) : Out := event "LINK_DOWN" (s.linkDown port)

/-- The REDUCE.BIN commands that a core runs. -/
def Core.exchanging (c : Core) : List EngCmd := (c.eng.q.toList.flatMap id).filter fun x => x.st == .running && x.isBin

/-- The copy engines of a core send the data of their current exchanges again, over the ports that `f` names (R359). -/
def State.resend (f : Nat → Bool) (s : State) : State := s.core.exchanging.foldl (fun s c => s.binSend (c.ops.getD 3 0) f) s

/-- LINK_TRAINING: a link that is down comes up, with SEQ and ACK at 0 and an empty buffer. -/
def State.linkTraining (s : State) (k : Nat) : Option State :=
  match s.pkg.link k with
  | none => none
  | some l =>
    if l.up || s.pkg.fatal || s.pkg.form.ports ≤ k then none
    else
      let s := s.setLink k { l with up := true, snd := 0, rcv := 0, buf := [], tries := 0 }
      let s := ((s.allCores.filter fun c => !c.exchanging.isEmpty).map (·.idx)).foldl (fun s i => s.onCore i (State.resend fun fab => s.pkg.port fab == some k)) s
      some (s.elog 7 kLinkUp 0 0xFF k)

def execLinkTraining (port : Index) (s : State) : Out := event "LINK_TRAINING" (s.linkTraining port)

/-! ### Scrubbing (R360) -/

/-- The bytes of a level's memory in a core, for the levels that are scrubbed. -/
def levelSize (n : Nat) : Nat :=
  match n with
  | 0 => 2 ^ 22
  | 1 => 2 ^ 16
  | 2 => 2 ^ 23
  | 3 => 2 ^ 25
  | _ => 0

/-- SCRUB: one word of a level has been read: it was good (0), corrected (1), or is uncorrectable (2) and is marked. A level with
IDLE is scrubbed while no unit is active on the core. -/
def State.scrub (s : State) (level core addr found : Nat) : Option State :=
  match s.pkg.levels.toList[level]? with
  | none => none
  | some l =>
    let here := if level = 6 then core = 255 else s.allCores.any fun c => c.idx == core && (!wbit l.scrub 32 || !c.busy)
    if s.pkg.fatal || wfld l.scrub 0 32 = 0 || addr % 8 != 0 || (if level = 6 then s.pkg.form.cellar else levelSize level) ≤ addr || !here then none
    else if found = 0 then some s
    else
      let s := s.elog level (if found = 1 then kCorrected else kUncorrectable) 1 core addr
      if found = 1 then some s else some (s.pkgd fun p => { p with poison := ⟨level, core, addr⟩ :: p.poison.filter (· != ⟨level, core, addr⟩) })

def execScrub (level core addr : Index) (found : Fin 3) (s : State) : Out := event "SCRUB" (s.scrub level core addr found.val)

/-! ### Detected errors (R127) -/

/-- SOFT_ERROR_REPLAY: an error at the issue of a pipe's next instruction. The first detection replays and is logged; a second one at
the same point raises MACHINE_CHECK. What the log names of level 5 is a free value (notes/assumptions/2.md). -/
def State.softError (s : State) (xpipe : Bool) : Option State :=
  let f := s.core.fe
  let head := if xpipe then (match f.kernel with | some k => some k.seq | none => f.xq.head?.map (·.seq)) else f.aq.head?.map (·.seq)
  match head with
  | none => none
  | some n =>
    if !(f.unit == .running || f.unit == .ending) then none
    else
      let at' := (xpipe, n, s.core.sys.loopState)
      let (w, s) := s.fresh
      if s.core.replayAt.contains at' then some ((s.elog 5 kSecond 0 s.core.idx w.toNat).machineStop none (if xpipe then 2 else 1))
      else some ((s.withCore { s.core with replayAt := at' :: s.core.replayAt.filter fun x => x.1 != xpipe }).elog 5 kReplay 0 s.core.idx w.toNat)

def execSoftErrorReplay (xpipe : Bool) (s : State) : Out := event "SOFT_ERROR_REPLAY" (s.softError xpipe)

/-! ### Power and the fatal error (R362, R365) -/

def execThermalThrottle (s : State) : Out :=
  event "THERMAL_THROTTLE" (if s.pkg.throttled || !s.hearthUp then none else some ((s.pkgd fun p => { p with throttled := true }).bb (.throttle true)))

def execThrottleRestore (s : State) : Out :=
  event "THROTTLE_RESTORE" (if s.pkg.throttled && s.hearthUp then some ((s.pkgd fun p => { p with throttled := false }).bb (.throttle false)) else none)

/-- Every unit stops where it is. -/
def Core.halt (c : Core) : Core :=
  if c.busy then { c with fe := { c.fe with unit := .ended, aq := [], xq := [], kernel := none, mac := none } } else c

/-- FATAL_ERROR: the black box is frozen and every unit stops. -/
def execFatalError (s : State) : Out :=
  event "FATAL_ERROR" (if s.pkg.fatal then none
    else some ((s.mapCores Core.halt).pkgd fun p => { p with fatal := true, bbox := { p.bbox with frozen := true } }))

end Sys2Proof.Machine
end

