-- ==== Sys2Proof/Machine/Host.lean ====
section
/-! DEFINITION. What the host and peers do: the management registers, the mailbox, accesses to the Cellar from outside, and boot (R8,
R26, R29, R30, R83, R89, R91, R105, R339, R351, R354, R355, R357, R362 to R364). -/

namespace Sys2Proof.Machine

/-! ### Registers (R8, R91, R316, R339, R352, R354, R355, R360, R361) -/

/-- Bits that a write reaches: the RW fields. -/
def hostRw : HostReg → Word
  | .hostCntThr => 0xFFFF
  | .notifyBase => 0x000FFFFFFFFFF00F
  | .notifyTail => BitVec.allOnes 64
  | .jobringBase => 0x000FFFFFFFFFF01F
  | .hdmBase => 0x000FFFFFC0000001
  | .fabricId => 0xFF
  | .route _ => 0x3F
  | .scrubCtl n => if n.val = 4 || n.val = 5 || n.val = 7 then 0 else 0x1FFFFFFFF
  | _ => 0

/-- A core's slot table entry changes. -/
def State.onSlot (s : State) (k : Nat) (f : SlotRegs → SlotRegs) : State :=
  s.mapCores fun c => if c.idx = k then { c with slot := f c.slot } else c

def State.setLevel (s : State) (n : Nat) (f : Level → Level) : State :=
  s.pkgd fun p => { p with levels := vmap (fun i l => if i.val = n then f l else l) p.levels }

/-- A write of MBOX.CMD: one that finds the mailbox busy is ignored and sets OVR, an OP that names no command ends BAD_OP, and another command
is in progress from now on (R354). -/
def State.writeCmd (s : State) (x : Word) : State :=
  let op := wfld x 56 8
  if s.pkg.mbox.isSome then s.pkgd fun p => { p with mboxStat := p.mboxStat ||| 0x200 }
  else if 1 ≤ op && op ≤ 10 then s.pkgd fun p => { p with mbox := some x, mboxStat := p.mboxStat ||| 0x100 }
  else (s.bb (.mailbox op)).pkgd fun p => { p with mboxStat := (p.mboxStat &&& 0x200) ||| 1 }

/-- A write to a register that has no operation of its own, by its access code: RO bits are ignored, W1C bits are cleared by ones
(R8). SLOT.STBY is written whole, by SLOT_STBY_WRITE. -/
def State.writeReg (s : State) (r : HostReg) (x : Word) : Option State :=
  let v := x &&& hostRw r
  let note (f : Notify → Notify) : State := s.pkgd fun p => { p with notify := f p.notify }
  match r with
  | .hostCntThr => some (note fun n => { n with thr := v })
  | .notifyBase => if wfld x 0 4 < 8 then some s else some (note fun n => { n with base := v })
  | .notifyTail => some (State.flushNotes s.pkg.notify.pending.length (note fun n => { n with tail := v }))
  | .notifyLost => some (note fun n => { n with lost := n.lost &&& ~~~ x })
  | .jobringBase => some (s.pkgd fun p => { p with ring := { p.ring with base := v } })
  | .jobringTail => some (s.ringTail x)
  | .mboxCmd => some (s.writeCmd x)
  | .mboxStat => some (s.pkgd fun p => { p with mboxStat := p.mboxStat &&& ~~~ (x &&& 0x200) })
  | .hdmBase => some (s.pkgd fun p => { p with hdmBase := v })
  | .fabricId => some (s.pkgd fun p => { p with fabric := v })
  | .route i => some (s.pkgd fun p => { p with routes := if v = 0 then del p.routes i.val else put p.routes i.val v })
  | .scrubCtl n => if hostRw r = 0 then some s else some (s.setLevel n.val fun l => { l with scrub := v })
  | .elogCe n => some (s.setLevel n.val fun l => { l with ce := l.ce &&& ~~~ x })
  | .elogUe n => some (s.setLevel n.val fun l => { l with ue := l.ue &&& ~~~ x })
  | .slotBerr k => some (s.onSlot k fun t => { t with ctl := t.ctl &&& ~~~ (x &&& 0x100) })
  | .slotStby _ _ => none
  | .notifyHead | .jobringHead | .elogBase | .linkStat _ | .elogHead _ | .elogEntry _ _ | .svnFuse | .slotAct _ _ => some s

/-- After a fatal error only the commands BBREAD and BBCLEAR are accepted (R362). -/
def fatalTakes (r : HostReg) (x : Word) : Bool := r == .mboxCmd && (wfld x 56 8 = 6 || wfld x 56 8 = 7)

def execRegisterWrite (r : HostReg) (x : Word) (s : State) : Out :=
  event "REGISTER_WRITE" (if s.pkg.fatal && !fatalTakes r x then none else s.writeReg r x)

/-- A half of a 128-bit register. -/
def half (x : BitVec 128) (high : Bool) : Word := (if high then x >>> 64 else x).setWidth 64

/-- What a read of a register returns; WO bits read as zero (R8). A 128-bit register and an entry of an error log are read by words. -/
def State.readReg (s : State) (r : HostReg) : Word :=
  let p := s.pkg
  let core (k : Nat) : Option Core := s.allCores.find? fun c => c.idx == k
  match r with
  | .hostCntThr => p.notify.thr
  | .notifyBase => p.notify.base
  | .notifyHead => p.notify.head
  | .notifyTail => p.notify.tail
  | .notifyLost => p.notify.lost
  | .jobringBase => (p.ring.base &&& 0x000FFFFFFFFFF000) ||| BitVec.ofNat 64 p.ring.log2
  | .jobringTail => p.ring.tail
  | .jobringHead => p.ring.head
  | .mboxCmd => 0
  | .mboxStat => p.mboxStat
  | .hdmBase => p.hdmBase
  | .elogBase => Config.elogBase &&& 0xFFFFFFFF
  | .fabricId => p.fabric
  | .route i => let v := look 0 p.routes i.val; if 24 ≤ wfld v 0 5 then setFld v 5 1 0 else v
  | .linkStat k => match p.link k.val with | some l => BitVec.ofNat 64 (l.downs * 2 ^ 32 + Bool.bit l.up) | none => 0
  | .scrubCtl n => (p.levels.toList[n.val]?).elim 0 (·.scrub)
  | .elogHead n => (p.levels.toList[n.val]?).elim 0 (·.head)
  | .elogEntry n i => (p.levels.toList[n.val]?).elim 0 fun l => half (BitVec.ofNat 128 (look 0 l.log (i.val / 2))) (i.val % 2 == 1)
  | .elogCe n => (p.levels.toList[n.val]?).elim 0 (·.ce)
  | .elogUe n => (p.levels.toList[n.val]?).elim 0 (·.ue)
  | .svnFuse => BitVec.ofNat 64 p.svn
  | .slotAct k high => (core k).elim 0 fun c => half c.slot.act high
  | .slotStby k high => (core k).elim 0 fun c => half c.slot.stby high
  | .slotBerr k => match s.toCore k with | some t => t.slotCtl | none => 0

/-! ### The mailbox (R354) -/

/-- The result of a command; OVR stays, and the mailbox is busy no more. -/
def State.setCode (s : State) (code : Nat) : State :=
  s.pkgd fun p => { p with mbox := none, mboxStat := (p.mboxStat &&& 0x200) ||| BitVec.ofNat 64 (code % 256) }

/-- The command is the one in progress, with its buffer where it has one; where none is, its CMD write is a part of the step
(notes/assumptions/119.md). A fatal error ends what was in progress (R362). -/
def State.mboxFor (s : State) (op : Nat) (buf : Option Nat) : Bool :=
  match s.pkg.mbox with
  | none => true
  | some w => s.pkg.fatal || (wfld w 56 8 == op && match buf with | some b => wfld w 6 46 == b % 2 ^ 46 | none => true)

def mbOk : Nat := 0
def mbFinal : Nat := 2
def mbDenied : Nat := 3
def mbNotFound : Nat := 4

/-- A command of the mailbox is done: it enters the black box, acts, and its result is written. -/
def State.mbox (s : State) (op : Nat) (f : State → Nat × State) : State :=
  let r := f (s.bb (.mailbox op))
  r.2.setCode r.1

/-- The address of a command's buffer (R354). -/
def bufAt (buf : Nat) : Nat := buf % 2 ^ 46 * 64

/-- CANCEL (R29, R30). -/
def State.mbCancel (s : State) (k : Nat) : Nat × State :=
  let c := s.pkg.counter k
  if c.level = 0 then (mbNotFound, s)
  else if !c.live || stFinal c.state then (mbFinal, s)
  else (mbOk, s.cancel k)

def execCancel (ctr : Index) (s : State) : Out :=
  event "CANCEL" (if s.hearthUp && s.mboxFor 2 none then some (s.mbox 2 fun s => s.mbCancel ctr) else none)

/-- RELEASE (R26, R354). -/
def State.mbRelease (s : State) (k : Nat) : Nat × State :=
  let c := s.pkg.counter k
  if !c.live || c.level != 5 then (mbNotFound, s)
  else if !stFinal c.state then (mbDenied, s)
  else
    let off (o : LoadedObj) : LoadedObj := if o.job == k then { o with job := 4096 } else o
    (mbOk, s.pkgd fun p =>
      { p.setCounter k { c with live := false } with jobs := (p.jobs.filter fun j => j.ctr != k), loaded := p.loaded.map off })

def execRelease (ctr : Index) (s : State) : Out :=
  event "RELEASE" (if s.hearthUp && s.mboxFor 9 none then some (s.mbox 9 fun s => s.mbRelease ctr) else none)

/-- The translations of a range of a partition's space leave every cache (R89). -/
def State.transInv (s : State) (part : Nat) (spc : Space) (base len : Nat) : State :=
  s.dropTlb fun t => t.part == part && t.spc == spc && t.vpage * 2 ^ t.size < base + len && base < (t.vpage + 1) * 2 ^ t.size

def execTransInv (part : Index) (spc : Space) (base len : Index) (s : State) : Out :=
  event "TRANS_INV" (if s.hearthUp then some (s.transInv part spc base len) else none)

/-- TLBINV; only .CL and .HS have translations (R354). -/
def State.mbTlbinv (s : State) (part : Nat) (spc : Space) (base len : Nat) : Nat × State :=
  if spc == .cl || spc == .hs then (mbOk, s.transInv part spc base len) else (mbDenied, s)

def execTlbinv (part : Index) (spc : Space) (base len : Index) (s : State) : Out :=
  event "TLBINV" (if s.hearthUp && s.mboxFor 10 none then some (s.mbox 10 fun s => s.mbTlbinv part spc base len) else none)

/-! ### RESYNC (R357) -/

/-- The commands in flight of a core, those of the side path among them: core, PIPE code, command word, PC. -/
def Core.flightRows (c : Core) : List (List Nat) :=
  let row (q : Fin 5) (e : EngCmd) : List Nat := [c.idx, 3 + q.val, e.instr.word, e.pc.toNat]
  ((List.finRange 5).flatMap fun q => ((c.eng.q[q]).filter fun e => e.st != .done).map (row q)) ++
    (c.eng.side.filter fun e => e.st != .done).map fun e => row (sideQueue e) e

/-- The row of a partition: the index range of its core mask, the counter index of its first unfinished job (0 for none), and its quantum.
R357 names these and not their bits: the layout is the model's (notes/assumptions/120.md). -/
def State.partRow (s : State) (q : Partition) : List Nat :=
  let job := s.pkg.jobs.find? fun j => j.part == q.id && !stFinal (s.pkg.counter j.ctr).state
  [q.cores.headD 0 + q.cores.getLastD 0 * 2 ^ 8 + (job.map (·.ctr)).getD 0 * 2 ^ 16 + q.quantum * 2 ^ 32, 0]

/-- The summary record. -/
def State.summary (s : State) : List Byte × State :=
  let p := s.pkg
  let ctrs := p.counters.filter fun c => c.2.live
  let rows := s.allCores.flatMap Core.flightRows
  let head := [0x5253 * 2 ^ 48 + 2 ^ 32 + (Config.resyncBase + p.resyncs) % 2 ^ 32,
    p.parts.length * 2 ^ 48 + ctrs.length * 2 ^ 32 + rows.length * 2 ^ 16 + 8,
    p.bbox.head + Bool.bit p.bbox.frozen * 2 ^ 63, 0, 0, 0, 0, 0]
  let cs := ctrs.flatMap fun c => [p.ref c.1 % 2 ^ 24, c.2.word.toNat]
  let errs := p.levels.toList.flatMap fun l => [l.ce.toNat, l.ue.toNat]
  ((head ++ p.parts.flatMap s.partRow ++ cs ++ rows.flatten ++ errs).flatMap (leBytes 8), { s with pkg := { p with resyncs := p.resyncs + 1 } })

def State.mbResync (s : State) (buf : Nat) : Nat × State :=
  let r := s.summary
  (mbOk, r.2.hostPut (bufAt buf) r.1)

def execResync (buf : Index) (s : State) : Out := event "RESYNC" (if s.hearthUp && s.mboxFor 3 buf then some (s.mbox 3 fun s => s.mbResync buf) else none)

/-! ### ATTEST and SVN_BUMP (R339, R364) -/

/-- The control store of a core as bytes. -/
def Core.cstoreBytes (c : Core) : List Byte := (List.range 8192).flatMap fun i => leBytes 8 (look 0 c.fe.cstore i).toNat

/-- Every core in rising index. -/
def State.inOrder (s : State) : List Core := insertCore s.core s.others

/-- The quote over a nonce. -/
def State.quote (s : State) (nonce : List Byte) : List Byte :=
  let body := nonce ++ digest s.pkg.firmware ++ digest (s.inOrder.flatMap Core.cstoreBytes) ++
    leBytes 8 (s.pkg.svn % 2 ^ 7 + Config.stepping % 2 ^ 16 * 2 ^ 16) ++ digest Config.deviceKey ++ List.replicate 56 0
  body ++ (Config.sm2Sign Config.deviceKey body ++ List.replicate 64 0).take 64

def State.mbAttest (s : State) (buf : Nat) : Nat × State :=
  (mbOk, s.hostPut (bufAt buf) (s.quote (s.hostBytes (bufAt buf) 32)))

def execAttest (buf : Index) (s : State) : Out := event "ATTEST" (if s.hearthUp && s.mboxFor 4 buf then some (s.mbox 4 fun s => s.mbAttest buf) else none)

/-- SVN_BUMP: the next fuse is blown on a request that the release key has signed. -/
def State.mbSvnBump (s : State) (msg sig : List Byte) : Nat × State :=
  if Config.sm2Verify Config.releaseKey msg sig then (mbOk, s.pkgd fun p => { p with svn := min 64 (p.svn + 1) }) else (mbDenied, s)

def execSvnBump (msg sig : List Byte) (s : State) : Out :=
  event "SVN_BUMP" (if s.hearthUp && s.mboxFor 5 none then some (s.mbox 5 fun s => s.mbSvnBump msg sig) else none)

/-! ### The black box (R362) -/

/-- The 32 bytes of an event: the free values that it took when it happened (notes/assumptions/2.md); a place that holds none is zero. -/
def BlackBox.bytesAt (b : BlackBox) (i : Nat) : List Byte :=
  match b.events.find? fun e => e.1 == i with
  | some e => (List.range 4).flatMap fun k => leBytes 8 (Config.freeWord (e.2.val + k)).toNat
  | none => List.replicate 32 0

/-- BBREAD: the ring, the head index and the frozen flag. -/
def State.mbBbread (s : State) (buf : Nat) : Nat × State :=
  let b := s.pkg.bbox
  (mbOk, s.hostPut (bufAt buf) ((List.range 4096).flatMap b.bytesAt ++ leBytes 8 b.head ++ leBytes 8 (Bool.bit b.frozen)))

/-- A fatal error leaves only BBREAD and BBCLEAR. -/
def execBbread (buf : Index) (s : State) : Out := event "BBREAD" (if s.pkg.booted && s.mboxFor 6 buf then some (s.mbox 6 fun s => s.mbBbread buf) else none)

/-- BBCLEAR: the black box is unfrozen and empty. -/
def State.mbBbclear (s : State) : Nat × State := (mbOk, s.pkgd fun p => { p with bbox := ⟨[], 0, false⟩ })

def execBbclear (s : State) : Out := event "BBCLEAR" (if s.pkg.booted && s.mboxFor 7 none then some (s.mbox 7 State.mbBbclear) else none)

/-! ### Accesses from outside (R83, R105, R351) -/

/-- The host's address lies in the range that maps the Cellar. -/
def State.hdmKey (s : State) (a n : Nat) : Option Nat :=
  let base := wfld s.pkg.hdmBase 30 22 * 2 ^ 30
  if wbit s.pkg.hdmBase 0 && base ≤ a && a + n ≤ base + s.pkg.form.cellar then some (keyCl (a - base)) else none

/-- HOST_MEM_ACCESS: a read, or a write of bytes, of the Cellar range; at another address the host uses its own memory. A write is a
memory-side write that drops no cached line (R105, R106); one to a page that a MIGRATE moves waits (R92, R351). -/
def State.hostAccess (s : State) (a n : Nat) (data : Option (List Byte)) : Option State :=
  if s.pkg.fatal || 2 ^ 52 < a + n then none
  else
    match data with
    | none => some s
    | some bs =>
      let k := (s.hdmKey a n).getD (keyHost a)
      if bs.length != n || s.moving (addrs k n) then none else some { s with mem := s.mem.write k bs }

def execHostMemAccess (addr n : Index) (data : Option (List Byte)) (s : State) : Out := event "HOST_MEM_ACCESS" (s.hostAccess addr n data)

/-- The bytes that a peer's request names. -/
def prSize : PrOp → Nat
  | .load n => n
  | .store bs => bs.length
  | .amo _ w _ _ => amoBytes w

/-- What a peer's request does at the translated bytes: a write drops no cached line (R106). -/
def State.prDo (s : State) (ks : List Nat) (op : PrOp) : State :=
  match op with
  | .load _ => s
  | .store bs => { s with mem := putKeys s.mem ks bs }
  | .amo o w v n =>
    match amoNew o (amoBytes w) (leNat (ks.map s.mem.read)) v.toNat n.toNat with
    | some r => { s with mem := putKeys s.mem ks (leBytes (amoBytes w) r) }
    | none => s

/-- The partition holds an unfinished job whose device table lists the fabric number (R83). -/
def State.admitsPeer (s : State) (src part : Nat) : Bool :=
  s.pkg.jobs.any fun j => j.part == part && !stFinal (s.pkg.counter j.ctr).state && j.devs.any (·.1 == src)

/-- PR_REQUEST: a peer's .PR access is rejected, or translated by the .CL root of the partition, through the cache of die 0
(notes/assumptions/108.md), and performed; a write to a page that a MIGRATE moves waits (R92). On a failed walk the record names no unit of
this device: free values in its UNITCTR and CORE (notes/assumptions/2.md). -/
def State.prRequest (s : State) (src part va : Nat) (op : PrOp) : Option State :=
  if s.pkg.fatal then none
  else
    match s.partAt part, s.admitsPeer src part with
    | some p, true =>
      let write := match op with | .load _ => false | _ => true
      match State.dieKeys 0 p .cl write (addrs va (prSize op)) s with
      | (.ok ks, s) => if write && s.moving ks then none else some (s.prDo ks op)
      | (.stop b (.fail f), s) => let (w, s) := s.fresh; some (s.note (noteRec b 0 w.toNat part (wfld w 12 8) Space.cl.code f.kind) true)
      | (.stop _ _, _) => none
    | _, _ => some s

def execPrRequest (src part va : Index) (op : PrOp) (s : State) : Out := event "PR_REQUEST" (s.prRequest src part va op)

/-! ### Reset and boot (R8, R363) -/

/-- A reset: everything is as it is after a cold one, but for the fuses, the black box, which keeps its record, and what does not belong to
this device (R362). A warm reset keeps the Cellar and the counts of link-down events too (R355; notes/assumptions/121.md). -/
def State.outOfReset (s : State) (cold : Bool) : State :=
  let t := State.resetOf s.pkg.form
  let kept (c : Nat × Byte) : Bool := 2 ^ 53 ≤ c.1 || (!cold && c.1 < 2 ^ 52)
  { t with
    mem := s.mem.filter kept
    pkg := { t.pkg with
      peers := s.pkg.peers, svn := s.pkg.svn, bbox := s.pkg.bbox
      links := if cold then t.pkg.links else vmap (fun i l => { l with downs := (s.pkg.links[i]).downs }) t.pkg.links }
    agenda := s.agenda, free := s.free }


/-- BOOT: the image's hash, signature and security version are checked; one that fails keeps the device in boot state. -/
def State.boot (s : State) (image dig sig : List Byte) (svn : Nat) : Option State :=
  if s.pkg.booted || s.pkg.bootFailed || s.pkg.fatal then none
  else if dig == digest image && Config.sm2Verify Config.releaseKey dig sig && s.pkg.svn ≤ svn then
    some (s.pkgd fun p => { p with booted := true, firmware := image })
  else some ((s.pkgd fun p => { p with bootFailed := true }).setCode mbDenied)

def execBoot (image dig sig : List Byte) (svn : Index) (s : State) : Out := event "BOOT" (s.boot image dig sig svn)

end Sys2Proof.Machine
end

