-- ==== Sys2Proof/Machine/Resize.lean ====
section
/-! DEFINITION. The PARTITION command: creating, resizing and deleting a partition (R33, R83, R330, R331, R356). -/

namespace Sys2Proof.Machine

/-! ### The request (R356) -/

/-- The fields of a request. -/
structure PartReq where
  id : Nat
  cores : List Nat
  quantum : Nat
  rootCl : Nat
  rootHs : Nat
  ovf : Nat

def partReq (b : List Byte) : PartReq where
  id := fld (dle b 0 8) 0 4
  cores := (List.range Config.cores).filter fun c => bitAt (dle b 8 18) c
  quantum := fld (dle b 32 8) 0 32
  rootCl := dle b 40 8
  rootHs := dle b 48 8
  ovf := dle b 56 8

/-- A must-be-zero bit is set, or a field is out of range. -/
def partReqBad (b : List Byte) : Bool :=
  let r := partReq b
  fld (dle b 0 8) 4 60 != 0 || !zeros b 26 32 || fld (dle b 32 8) 32 32 != 0 || r.quantum < 100 || 100000 < r.quantum ||
  r.rootCl % 2 ^ 16 != 0 || r.rootHs % 2 ^ 16 != 0 || r.ovf % 2 ^ 21 != 0 || 2 ^ 52 ≤ r.rootCl || 2 ^ 52 ≤ r.rootHs ||
  Config.cellar < r.ovf + 0x1800000

/-! ### Moving vaults (R331) -/

/-- The tag of a Porch entry whose vault lies in the overflow block. -/
def ovfTag : Nat := Config.cores

/-- User ranges move together, each from one key to another, and what waits for their bytes follows. -/
def State.moveVaults (s : State) (moves : List (Nat × Nat)) : State :=
  let f (k : Nat) : Nat := match moves.find? fun m => m.1 ≤ k && k < m.1 + 0x1800000 with
    | some m => k - m.1 + m.2
    | none => k
  ({ s with mem := moves.foldl (fun (m : Memory) (x : Nat × Nat) => m.copyIn s.mem x.1 0x1800000 x.2) s.mem }).mapKeys f

/-- Porch entries of .AT follow their vaults. -/
def Lsu.revault (f : Nat → Nat) (l : Lsu) : Lsu :=
  { l with porch := l.porch.map fun e => if e.spc == .at then { e with vault := f e.vault } else e }

def State.retag (s : State) (cores : List Nat) (f : Nat → Nat) : State :=
  s.mapCores fun c => if cores.contains c.idx then { c with lsu := c.lsu.revault f } else c

/-- The same in the parked units of a partition. -/
def State.retagParked (s : State) (part : Nat) (f : Nat → Nat) : State :=
  s.pkgd fun p => { p with parked := p.parked.map fun x => if bindPart x.bind == part then { x with lsu := x.lsu.revault f } else x }

/-- A core's place in a renaming of cores. -/
def renameCore (m : List (Nat × Nat)) (k : Nat) : Nat := ((m.find? fun x => x.1 == k).map (·.2)).getD k

/-- The key of a user range, which the overflow block has too. -/
def rangeKey (ovf k : Nat) : Nat := if k = ovfTag then keyCl ovf else keyVault k 0

/-- Vaults are renamed: their user ranges move, and everything that names them with them. -/
def State.renumber (s : State) (p : Partition) (cores : List Nat) (m : List (Nat × Nat)) : State :=
  let m := m.filter fun x => x.1 != x.2
  let s := s.mapCores fun c => if cores.contains c.idx then { c with lsu := { c.lsu with attic := [] } } else c
  let s := s.moveVaults (m.map fun x => (rangeKey p.ovf x.1, rangeKey p.ovf x.2))
  (s.retag cores (renameCore m)).retagParked p.id (renameCore m)

def State.setPart (s : State) (p : Partition) : State :=
  s.pkgd fun g => { g with parts := g.parts.map fun q => if q.id == p.id then p else q }

/-- The Porch entries left on a core move to another. -/
def State.movePorch (s : State) (r k : Nat) : State :=
  let es := ((s.allCores.find? fun c => c.idx == r).map (·.lsu.porch)).getD []
  s.mapCores fun c =>
    if c.idx = r then { c with lsu := { c.lsu with porch := [] } }
    else if c.idx = k then { c with lsu := { c.lsu with porch := c.lsu.porch ++ es } }
    else c

/-- A core leaves a partition (R331): the last vault goes to the overflow block, those above the core's come down by one index, save
areas held on it are evicted, and Porch entries left on it move to the lowest core that remains. -/
def State.removeCore (s : State) (id r : Nat) : State :=
  match s.partAt id with
  | none => s
  | some p =>
    let rest := p.cores.filter fun c => c != r
    let s := s.renumber p p.cores (p.cores.zip (rest ++ [ovfTag]))
    let s := s.onCore r State.evict
    let s := match rest with | k :: _ => s.movePorch r k | [] => s
    s.setPart { p with cores := rest, spilled := some (p.cores.length - 1) }

/-- A core joins a partition (R331, R356): every index keeps its contents under the renumbering, and an index that was in the overflow
block comes back. -/
def State.addCore (s : State) (id r : Nat) : State :=
  match s.partAt id with
  | none => s
  | some p =>
    let n := p.cores.length
    let all := (p.cores.filter fun c => c < r) ++ r :: p.cores.filter fun c => r < c
    let back := if p.spilled = some n then [(ovfTag, all.getD n 0)] else []
    let s := s.renumber p all (p.cores.zip all ++ back)
    s.setPart { p with cores := all, spilled := if p.spilled = some n then none else p.spilled }

/-! ### Gang launches after a resize (R33) -/

/-- A gang launch that no longer fits is parked; one that fits again waits. -/
def refit (n : Nat) (p : Package) (l : Launch) : Package :=
  match l.ref with
  | none => p
  | some r =>
    let k := r % 4096
    let c := p.counter k
    if l.st != 1 || !l.gang || !c.live then p
    else if n < l.units && (c.state == stWaiting || c.state == stRunning) then p.setState k stParked
    else if l.units ≤ n && c.state == stParked then p.setState k stWaiting
    else p

def State.refitAll (s : State) (id : Nat) : State :=
  match s.partAt id with
  | none => s
  | some q =>
    let gs := s.pkg.graphs.filter fun g => (s.jobAt g.job).any fun j => j.part == id
    s.pkgd fun p => (gs.flatMap (·.launches)).foldl (refit q.cores.length) p

/-! ### The command (R356) -/

/-- A job of the partition is unfinished. -/
def State.partBusy (s : State) (id : Nat) : Bool :=
  s.pkg.jobs.any fun j => j.part == id && !stFinal (s.pkg.counter j.ctr).state

/-- The command's verdict before anything changes. -/
def State.partDenied (s : State) (b : List Byte) : Bool :=
  let r := partReq b
  partReqBad b || s.pkg.form.cellar < r.ovf + 0x1800000 || (r.cores.any fun c => s.pkg.form.cores ≤ c) || (s.pkg.parts.any fun q => q.id != r.id && r.cores.any q.cores.contains) || (r.cores.isEmpty && s.partBusy r.id)

/-- Its effect: the partition is created, changed core by core, or deleted. -/
def State.partDo (s : State) (r : PartReq) : State :=
  match s.partAt r.id with
  | none =>
    if r.cores.isEmpty then s
    else s.pkgd fun p => { p with parts := p.parts ++ [⟨r.id, r.cores, r.rootCl, r.rootHs, r.quantum, r.ovf, none⟩] }
  | some q =>
    if r.cores.isEmpty then s.pkgd fun p => { p with parts := p.parts.filter fun x => x.id != r.id }
    else
      let s := s.setPart { q with rootCl := r.rootCl, rootHs := r.rootHs, quantum := r.quantum, ovf := r.ovf }
      let s := if q.rootCl = r.rootCl && q.rootHs = r.rootHs then s else s.dropTlb fun t => t.part == r.id
      let s := ((q.cores.filter fun c => !r.cores.contains c).reverse).foldl (fun s c => s.removeCore r.id c) s
      let s := (r.cores.filter fun c => !q.cores.contains c).foldl (fun s c => s.addCore r.id c) s
      s.refitAll r.id

/-- The reply: the partition's core count in the buffer. -/
def State.partReply (s : State) (buf id : Nat) : State :=
  s.hostPut (bufAt buf) (leBytes 8 (((s.partAt id).map (·.cores.length)).getD 0))

def State.mbPartition (s : State) (buf : Nat) : Nat × State :=
  let b := s.hostBytes (bufAt buf) 64
  let r := partReq b
  if s.partDenied b then (mbDenied, s.partReply buf r.id) else (mbOk, (s.partDo r).partReply buf r.id)

/-- The units of the partition have been suspended where its cores change (R323, R331). -/
def State.partQuiet (s : State) (b : List Byte) : Bool :=
  let r := partReq b
  match s.partAt r.id with
  | none => true
  | some q => s.partDenied b || q.cores == r.cores ||
      s.allCores.all fun c => !q.cores.contains c.idx || (c.slotFree && !bindV c.slot.stby.toNat)

def execPartition (buf : Index) (s : State) : Out :=
  event "PARTITION" (if s.hearthUp && s.mboxFor 8 buf && s.partQuiet (s.hostBytes (bufAt buf) 64) then some (s.mbox 8 fun s => s.mbPartition buf) else none)

end Sys2Proof.Machine
end

