-- ==== Sys2Proof/Machine/Ixius.lean ====
section
/-! DEFINITION. The shape of an IXCODE section: its tables and its body, with the operands of each operation (R344, R345, R347). The
translation is the device's (notes/assumptions/3.md). -/

namespace Sys2Proof.Machine

/-- The minors of a major that an Ixius body may use (R75, R345). -/
def ixMinors (maj : Nat) : List Nat :=
  match maj with
  | 0x01 => List.range 13
  | 0x02 => [0, 4, 5, 6, 7, 8, 9, 12, 16]
  | 0x05 | 0x07 | 0x09 | 0x0B | 0x0D | 0x0F => List.range 7
  | 0x06 | 0x08 | 0x0A | 0x0C | 0x0E | 0x10 => [0, 2, 4, 6]
  | 0x11 => (List.range 5).flatMap fun s => (List.range 10).map (16 * (s + 1) + ·)
  | 0x14 => [0, 1, 2, 6]
  | 0x15 => [0]
  | 0x20 => List.range 12
  | 0x21 => List.range 14
  | 0x22 => List.range 6
  | 0x23 => List.range 6
  | 0x24 => List.range 6
  | 0x25 => List.range 4
  | 0x26 => List.range 8
  | 0x27 => [0, 1, 2, 3, 4, 5, 16]
  | 0x2B => [0, 1]
  | 0x30 | 0x31 | 0x33 | 0x3A => [0, 1]
  | 0x32 | 0x34 | 0x35 | 0x36 | 0x3C | 0x3D => [0]
  | 0x37 => List.range 4
  | 0x38 | 0x39 => List.range 3
  | 0x3B => List.range 5
  | _ => []

/-- The head of an IXCODE section. -/
structure IxHead where
  major : Nat
  minor : Nat
  nreg : Nat
  nstrm : Nat
  nsym : Nat
  nops : Nat
  rsvd : Bool

def ixHead (b : List Byte) : IxHead :=
  let w := dle b 0 8
  let x := dle b 8 8
  ⟨fld w 56 8, fld w 48 8, fld w 32 16, fld w 16 16, fld w 0 16, fld x 32 32, fld x 0 32 != 0⟩

/-- Where the tables begin: symbols, streams, body. -/
def IxHead.syms (h : IxHead) : Nat := 16 + 4 * h.nreg
def IxHead.strms (h : IxHead) : Nat := h.syms + 16 * h.nsym
def IxHead.body (h : IxHead) : Nat := h.strms + 48 * h.nstrm

def ixClass (b : List Byte) (r : Nat) : Nat := fld (dle b (16 + 4 * r) 4) 29 3
def ixType (b : List Byte) (r : Nat) : Nat := fld (dle b (16 + 4 * r) 4) 25 4

/-- The first entry of the tables that breaks R344. -/
def ixTables (b : List Byte) (h : IxHead) : Option Nat :=
  let reg := (List.range h.nreg).findSome? fun i =>
    let a := 16 + 4 * i
    if 5 < ixClass b i || fld (dle b a 4) 0 25 != 0 then some a else none
  let sym := (List.range h.nsym).findSome? fun i =>
    let a := h.syms + 16 * i
    if fld (dle b a 8) 48 11 != 0 || dle b (a + 8) 8 != 0 then some a else none
  let strm := (List.range h.nstrm).findSome? fun i =>
    let a := h.strms + 48 * i
    let w := dle b a 8
    let n := fld w 0 32
    if 5 < fld w 61 3 || fld w 48 11 != 0 || h.nreg ≤ fld w 32 16 || ixClass b (fld w 32 16) != 0 || n < 4 || 512 < n || n % 4 != 0 ||
        fld (dle b (a + 16) 8) 32 32 != 0 then some a else none
  if b.length < h.body || h.rsvd then some 8 else (reg.orElse fun _ => sym).orElse fun _ => strm

/-! ### Operands (R345) -/

/-- What the check of a body carries: open loops and an open chain group by their offsets, and the open streams. -/
structure IxSt where
  loops : List Nat
  chain : Option Nat
  open' : List Nat

/-- The place of an operand: an A-side register, one or a literal, a literal, an engine's register or symbol, a predicate, a lane amount, a
scalar source and destination, a vector source and destination with the element type it is read in, and groups of n registers. -/
inductive IxRole where
  | g | gl | lit | e | p | amount | ss | sd
  | x (t : Option Nat)
  | d (t : Option Nat)
  | group (n : Nat) (t : Option Nat)
  | rd (t : Nat)

/-- The operands of an operation: those that it always has, those that may follow, the element types and the rounding modes it takes. -/
structure IxShape where
  need : List IxRole
  more : List IxRole
  types : List Nat
  rms : List Nat

/-- Modes of an operation that does not round, of one that does, and of one whose C is not the random source (R68, R175). -/
def rmNone : List Nat := [0]
def rmAny : List Nat := List.range 8
def rmNoSr : List Nat := [0, 1, 2, 3, 4, 5, 7]

/-- Fixed operands, then what may follow; the operation has no element type. -/
def ixA (need more : List IxRole) : IxShape := ⟨need, more, List.range 16, rmAny⟩

/-- An X-pipe operation: its operands, the random source when RM is SR, and the guard. -/
def ixX (rm : Nat) (need : List IxRole) (types rms : List Nat) : IxShape :=
  ⟨need ++ (if rm = 6 then [.x none] else []), [.p], types, rms⟩

/-- A group by the ratio of two element widths. -/
def ixWide (wide narrow : Nat) : IxRole := .group ((ElemTy.ofCode wide).width / (ElemTy.ofCode narrow).width) (some wide)

def ixFp : List Nat := [11, 12, 13]
def ixInt : List Nat := List.range 7
def ixAll : List Nat := List.range 16

/-- The shape of the conversions from SRC to TYPE (R184 to R188). -/
def ixConv (min' t src rm : Nat) : IxShape :=
  match min' with
  | 0 => ixX rm [.d (some t), .x (some src)] ixAll rmAny
  | 1 => ixX rm [ixWide t src, .x (some src)] ixAll rmAny
  | 2 => ixX rm [.d (some t), ixWide src t] ixAll rmAny
  | 3 => ixX rm [ixWide t src, .x (some src), .x none] ixFp rmAny
  | 4 => ixX rm [.d (some t), ixWide src t, .x none] [0, 1, 4, 7, 8, 9, 10] rmAny
  | _ => ixX 0 [.d (some t), .x (some t), .x none] ixFp [6]

/-- The shape of the vector and scalar operations by the entries of R176 to R201, where a trailing operand is the guard. -/
def ixXOp (maj min' t src rm mods : Nat) : IxShape :=
  let x : IxRole := .x (some t)
  let d : IxRole := .d (some t)
  match maj with
  | 0x20 =>
    if 3 ≤ min' && min' ≤ 5 then ixX 0 [d, x, x, x] ixFp rmNoSr
    else if min' = 7 || min' = 8 then ixX 0 [d, x, x] ixFp rmNone
    else if min' = 9 || min' = 10 then ixX 0 [d, x] ixFp rmNone
    else if min' = 11 then ixX rm [d, x] ixFp rmAny
    else ixX rm [d, x, x] ixFp rmAny
  | 0x21 =>
    let d := if bitAt mods 0 then .group 2 none else d
    ixX 0 (if min' = 13 then [d, x] else if min' = 4 then [d, x, x, x] else [d, x, x]) (if min' = 13 then [0, 1, 2, 3] else ixInt) rmNone
  | 0x22 =>
    match min' with
    | 0 => ixX 0 [.p, x, x] (ixInt ++ ixFp) rmNone
    | 1 => ixX 0 [d, x, x, .p] ixAll rmNone
    | 5 => ixX 0 [.p, .p] [0] rmNone
    | _ => ixX 0 [.p, .p, .p] [0] rmNone
  | 0x23 => ixConv min' t src rm
  | 0x24 =>
    match min' with
    | 0 => ixX 0 (if (ElemTy.ofCode t).width = 8 then [d, x, .x none, .x none] else [d, x, .x none]) ixAll rmNone
    | 1 | 2 => ixX 0 [d, x, .amount] ixAll rmNone
    | 5 => ixX 0 [d, x, x, .amount] ixAll rmNone
    | _ => ixX 0 [d, x, x] ixAll rmNone
  | 0x25 =>
    let tys := if min' = 0 then ixFp else if min' = 3 then ixInt else [1, 2, 3, 4, 5, 6] ++ ixFp
    ixX 0 [.rd t, x, x] tys (if min' = 0 then rmNoSr else rmNone)
  | 0x26 => ixX rm [d, x] ixFp rmAny
  | 0x27 =>
    match min' with
    | 3 => ixX 0 [.sd, .ss, .ss, .ss] [13] rmNoSr
    | 4 => ixX 0 [.sd, .ss] [3, 6, 13] rmNone
    | 5 => ixX rm [.sd, .ss] [2, 3, 5, 6, 11, 12, 13, 14] rmAny
    | 16 => ixX 0 [.sd, .lit] [0] rmNone
    | _ => ixX rm [.sd, .ss, .ss] [3, 6, 13] rmAny
  | _ => ixX 0 (if min' = 0 then [d, .lit] else [d, .lit, .lit]) (if min' = 0 then ixAll else ixInt) rmNone

/-- The shape of an operation. An address is its displacement, base, index and scale, as the entries write it; an engine command takes
registers and symbols. -/
def ixShape (maj min' t src rm mods : Nat) : IxShape :=
  match maj with
  | 0x01 => ixA [.g, .g, .g] []
  | 0x02 => if min' = 16 then ixA [.g, .lit] [] else ixA [.g, .g, .lit] []
  | 0x05 | 0x07 | 0x09 | 0x0B | 0x0D | 0x0F | 0x06 | 0x08 | 0x0A | 0x0C | 0x0E | 0x10 => ixA [.g, .gl] [.gl, .gl, .gl]
  | 0x11 => ixA [.g, .gl] [.gl, .gl, .gl, .gl]
  | 0x14 => if min' = 6 then ixA [.g, .g] [.g] else ixA [] [.lit, .lit]
  | 0x15 => ixA [] []
  | 0x20 | 0x21 | 0x22 | 0x23 | 0x24 | 0x25 | 0x26 | 0x27 | 0x2B => ixXOp maj min' t src rm mods
  | _ => ixA [] (List.replicate 16 .e)

/-- An operand that an operation of R345 can have names something that is there, in its direction, while its stream is open. -/
def ixOperand (b : List Byte) (h : IxHead) (st : IxSt) (w : Nat) : Bool :=
  let v := fld w 0 29
  let out (v : Nat) : Bool := bitAt (dle b (h.strms + 48 * v) 8) 60
  match fld w 29 3 with
  | 0 => v < h.nreg
  | 1 => st.open'.contains v && !out v
  | 2 => st.open'.contains v && out v
  | 3 => 0x80 ≤ v && v ≤ 0xBA
  | 4 => true
  | 5 => v < h.nsym
  | _ => false

/-- The operand is of the class and type that its place asks for. -/
def ixFits (b : List Byte) (w : Nat) (r : IxRole) : Bool :=
  let v := fld w 0 29
  let kind := fld w 29 3
  let reg (cls : List Nat) (t : Option Nat) : Bool :=
    kind = 0 && cls.contains (ixClass b v) && (match t with | some t => ixType b v = t | none => true)
  match r with
  | .g => reg [0] none
  | .gl => reg [0] none || kind = 4
  | .lit => kind = 4
  | .e => reg [0] none || kind = 4 || kind = 5
  | .p => reg [3] none
  | .amount => reg [1] none || (kind = 3 && v < 0x90)
  | .ss => reg [1, 2] none || kind = 1 || kind = 3
  | .sd => reg [1] none || kind = 2
  | .x t => reg [2] t || reg [1] none || kind = 1 || kind = 3
  | .d t => reg [2] t || kind = 2
  | .group n t => if n = 2 then reg [4] t else if n = 4 then reg [5] t else false
  | .rd t => reg [1] none || reg [2] (some t) || kind = 2

/-- The operands fill the places of a shape in order. -/
def ixFill (b : List Byte) : List IxRole → List IxRole → List Nat → Bool
  | r :: need, more, w :: ws => ixFits b w r && ixFill b need more ws
  | _ :: _, _, [] => false
  | [], _, [] => true
  | [], r :: more, w :: ws => ixFits b w r && ixFill b [] more ws
  | [], [], _ :: _ => false

/-- The operand names a stream, by a literal or as the input or output stream that it is (notes/assumptions/123.md). -/
def ixStream (b : List Byte) (h : IxHead) (w : Nat) : Option Nat :=
  let v := fld w 0 29
  let dir := Bool.bit (bitAt (dle b (h.strms + 48 * v) 8) 60)
  if v < h.nstrm && (fld w 29 3 = 4 || fld w 29 3 = 1 + dir) then some v else none

/-- A native operation (R345): its minor is listed, a SRC stands in conversions only, and its operands are there and fit. -/
def ixNative (b : List Byte) (h : IxHead) (st : IxSt) (w : Nat) (os : List Nat) : Bool :=
  let maj := fld w 58 6
  let min' := fld w 50 8
  let t := fld w 46 4
  let src := fld w 42 4
  let rm := fld w 39 3
  let sh := ixShape maj min' t src rm (fld w 32 7)
  (ixMinors maj).contains min' && (src = 0 || maj = 0x23 || (maj = 0x27 && min' = 5)) && sh.types.contains t && sh.rms.contains rm &&
    os.all (ixOperand b h st) && ixFill b sh.need sh.more os

/-- One operation (R345): the state after it, or none where it is invalid. -/
def ixOp (b : List Byte) (h : IxHead) (a : Nat) (st : IxSt) : Option IxSt :=
  let w := dle b a 8
  let n := fld w 24 8
  let os := (List.range n).map fun i => dle b (a + 8 + 4 * i) 4
  let o := os.headD 0
  if 16 < n || fld w 0 24 != 0 || b.length < a + 8 + 4 * n then none
  else
    match fld w 50 14 with
    | 0x3F00 => if n = 1 && ixOperand b h st o && ixFits b o .gl && st.loops.length < 4 then some { st with loops := a :: st.loops } else none
    | 0x3F01 => if n = 0 && !st.loops.isEmpty then some { st with loops := st.loops.drop 1 } else none
    | 0x3F02 => match (if n = 1 then ixStream b h o else none) with
      | some k => if st.open'.contains k then none else some { st with open' := k :: st.open' }
      | none => none
    | 0x3F03 => match (if n = 1 then ixStream b h o else none) with
      | some k => if st.open'.contains k then some { st with open' := st.open'.filter (· != k) } else none
      | none => none
    | 0x3F04 => if n = 0 then some { st with chain := if st.chain.isSome then none else some a } else none
    | _ => if ixNative b h st w os then some st else none

/-- The body from an offset on: the offset of the first operation that is invalid or not matched. -/
def ixBody (b : List Byte) (h : IxHead) : Nat → Nat → IxSt → Option Nat
  | 0, _, st => (st.loops.head?).orElse fun _ => st.chain
  | n + 1, a, st =>
    if b.length < a + 8 then some a
    else match ixOp b h a st with
      | none => some a
      | some st => ixBody b h n (a + 8 + 4 * fld (dle b a 8) 24 8) st

/-- The offset at which a section is invalid, if it is. -/
def ixInvalid (b : List Byte) : Option Nat :=
  let h := ixHead b
  match ixTables b h with
  | some a => some a
  | none =>
    match ixBody b h h.nops h.body ⟨[], none, []⟩, Config.ixiusOperands b with
    | some x, some y => some (min x y)
    | some x, none => some x
    | none, y => y

/-- The bytes of a section's symbols: ROWS rows of ROWBYTES each. -/
def ixSymBytes (b : List Byte) : Nat :=
  let h := ixHead b
  ((List.range h.nsym).map fun i => let w := dle b (h.syms + 16 * i) 8; fld w 32 16 * fld w 0 32).foldl (· + ·) 0

/-- The scratchpad banks of a section's symbols, as the translator places them, each with the BANK.FMT word of its symbol: TYPE, and LIVE
(R85, R344). -/
def ixBanks (b : List Byte) : List (Nat × Word) :=
  let h := ixHead b
  (List.range h.nsym).flatMap fun i =>
    let w := dle b (h.syms + 16 * i) 8
    (Config.ixiusBanks b i).map fun k => (k % 256, BitVec.ofNat 64 (Bool.bit (bitAt w 59) * 2 ^ 8 + fld w 60 4))

/-- The literals of a body in order: its constants (R344, R349). -/
def ixLiterals (b : List Byte) : Nat → Nat → List Nat
  | 0, _ => []
  | n + 1, a =>
    let k := fld (dle b a 8) 24 8
    (((List.range k).map fun i => dle b (a + 8 + 4 * i) 4).filter fun w => fld w 29 3 = 4) ++ ixLiterals b n (a + 8 + 4 * k)

end Sys2Proof.Machine
end

