-- ==== Sys2Proof/Machine/Object.lean ====
section
/-! DEFINITION. An .ixo object and the checks of its parts: header, sections, notes, units, planes, Loft images (R332 to R338). -/

namespace Sys2Proof.Machine

/-! ### Refusals (R343) -/

/-- A load ends early: refused with STATUS, SECT, DETAIL and the sections and notes skipped so far; or the Hearth would not have chosen the
addresses that were given. -/
inductive Refuse where
  | report (status sect detail : Nat) (skip : List Nat)
  | never

abbrev Ld (α : Type) := Except Refuse α

def noSect : Nat := 0xFFFF
def refuse {α : Type} (status sect detail : Nat) : Ld α := .error (.report status sect detail [])
/-- A later refusal also lists what has been skipped before (R334, R337). -/
def skipped {α : Type} (skip : List Nat) (x : Ld α) : Ld α :=
  match x with
  | .error (.report st se d more) => .error (.report st se d (skip ++ more))
  | x => x
/-- The load goes on when a condition holds. -/
def unless' (bad : Bool) (status sect detail : Nat) : Ld Unit := if bad then refuse status sect detail else .ok ()

def ldBadMagic : Nat := 0x01
def ldBadVersion : Nat := 0x02
def ldBadTable : Nat := 0x03
def ldUnknownSection : Nat := 0x04
def ldUnknownNote : Nat := 0x05
def ldSignature : Nat := 0x06
def ldSvnRevoked : Nat := 0x07
def ldRelocRange : Nat := 0x08
def ldRelocBad : Nat := 0x09
def ldSlotRange : Nat := 0x0A
def ldSlotMissing : Nat := 0x0B
def ldNoCode : Nat := 0x0C
def ldIxiusInvalid : Nat := 0x0D
def ldCstoreRefused : Nat := 0x0E
def ldPlaneInvalid : Nat := 0x0F
def ldNoSpace : Nat := 0x10

/-! ### Header and sections (R332, R333) -/

/-- An entry of the section table. -/
structure Sect where
  ty : Nat
  mand : Bool
  align : Nat
  off : Nat
  size : Nat
  param : Nat
  rsvd : Bool
  deriving Repr

/-- Section i of an object. -/
def sectAt (o : List Byte) (i : Nat) : Sect :=
  let a := dle o 16 8 + 32 * i
  let w := dle o a 8
  ⟨fld w 48 16, bitAt w 47, fld w 32 6, dle o (a + 8) 8, dle o (a + 16) 8, dle o (a + 28) 4, fld w 38 9 != 0 || fld w 0 32 != 0⟩

def sectCount (o : List Byte) : Nat := fld (dle o 0 8) 0 16
def sects (o : List Byte) : List Sect := (List.range (sectCount o)).map (sectAt o)
def objSvn (o : List Byte) : Nat := fld (dle o 8 8) 48 16
def objLen (o : List Byte) : Nat := dle o 24 8

/-- The bytes of a section. -/
def Sect.bytes (t : Sect) (o : List Byte) : List Byte := (o.drop t.off).take t.size

/-- The header (R332). -/
def checkHeader (o : List Byte) : Ld Unit := do
  let w := dle o 0 8
  unless' (fld w 32 32 != 0x49584F31) ldBadMagic noSect 0
  unless' (fld w 16 16 != 0x0100) ldBadVersion noSect (fld w 16 16)
  unless' (sectCount o = 0 || 4096 < sectCount o || fld (dle o 8 8) 0 48 != 0 || dle o 16 8 % 64 != 0 || !zeros o 32 64 || objLen o < 64 ||
    objLen o < dle o 16 8 + 32 * sectCount o) ldBadTable noSect 0

/-- The last section is the signature and ends the object. -/
def sigSect (o : List Byte) : Sect := sectAt o (sectCount o - 1)

/-- The signature (R338): the hash, and the release key's or the job's authority key's signature. -/
def sigOk (o : List Byte) (j : Job) : Bool :=
  let t := sigSect o
  let b := t.bytes o
  let h := (b.drop 32).take 32
  let by' (id key : List Byte) : Bool := b.take 32 == id && Config.sm2Verify key h (b.drop 64)
  t.ty = 14 && t.size = 128 && t.off + 128 = objLen o && h == digest (o.take t.off) &&
    (by' (digest Config.releaseKey) Config.releaseKey || by' j.auth j.authKey)

/-- The object's hash, bytes 32 to 63 of SIG. -/
def objHash (o : List Byte) : List Byte := (((sigSect o).bytes o).drop 32).take 32

/-- Two sections share a byte. -/
def Sect.shares (a b : Sect) : Bool := a.size != 0 && b.size != 0 && a.off < b.off + b.size && b.off < a.off + a.size

/-- Section i is as R333 and R334 ask; its index when it is skipped. -/
def checkSect (o : List Byte) (l : List Sect) (i : Nat) : Ld (List Nat) := do
  let t := sectAt o i
  unless' (t.rsvd || t.align < 3 || 34 < t.align || t.off % 8 != 0 || objLen o < t.off + t.size || ((l.take i).any t.shares) ||
    (t.ty = 14 && i + 1 != l.length)) ldBadTable i i
  if 1 ≤ t.ty && t.ty ≤ 14 then pure []
  else if t.mand then refuse ldUnknownSection i 0
  else pure [i]

def checkSects (o : List Byte) : Ld (List Nat) :=
  let l := sects o
  (List.range l.length).foldlM (fun skip i => do
    let more ← skipped skip (checkSect o l i)
    pure (skip ++ more)) []

/-! ### Notes (R337) -/

/-- A name of the STRTAB section, up to its zero byte. -/
def nameAt (o : List Byte) (l : List Sect) (k : Nat) : List Byte :=
  match l.find? fun t => t.ty = 13 with
  | some t => ((t.bytes o).drop k).takeWhile (· != 0)
  | none => []

def asciiBytes (s : String) : List Byte := s.toList.map fun c => BitVec.ofNat 8 c.toNat

def knownNotes : List (List Byte) := ["cstore.args", "ixius.pcmap", "build.tool"].map asciiBytes

/-- One note record, its section and offset: none where it is understood, its index where it is skipped. -/
def checkNote (name data : List Byte) (mand : Bool) (sec at' : Nat) : Ld Bool :=
  if name == asciiBytes "ixius.version" then
    if data == [1, 0] then pure true else refuse ldBadVersion sec (dle data 0 1 * 256 + dle data 1 1)
  else if name == asciiBytes "gz144.stepping" then
    if Config.stepping < dle data 0 2 then refuse ldNoCode sec at' else pure true
  else if knownNotes.contains name then pure true
  else if mand then refuse ldUnknownNote sec at'
  else pure false

/-- The records of a NOTES section from an offset on; the count of records so far and the skipped ones go through. -/
def checkNotes (o : List Byte) (l : List Sect) (sec : Nat) (b : List Byte) : Nat → Nat → Nat × List Nat → Ld (Nat × List Nat)
  | 0, _, r => pure r
  | fuel + 1, a, (n, skip) => do
    if b.length ≤ a then pure (n, skip)
    else
      let w := dle b a 8
      let len := fld w 0 16
      skipped skip (unless' (b.length < a + 8 + len || fld w 16 15 != 0) ldBadTable sec a)
      let known ← skipped skip (checkNote (nameAt o l (fld w 32 32)) ((b.drop (a + 8)).take len) (bitAt w 31) sec a)
      checkNotes o l sec b fuel (a + 8 + (len + 7) / 8 * 8) (n + 1, if known then skip else skip ++ [0x8000 + n])

def allNotes (o : List Byte) : Ld (List Nat) := do
  let l := sects o
  let r ← (List.range l.length).foldlM (fun (r : Nat × List Nat) i =>
    let t := sectAt o i
    if t.ty = 12 then checkNotes o l i (t.bytes o) (t.size + 1) 0 r else pure r) (0, [])
  pure r.2

/-! ### Units, planes and Loft images (R335, R336) -/

/-- The entries of the UNITS sections, in order: each one's section, and its index there. -/
def unitEntries (o : List Byte) : List (Nat × Nat) :=
  (List.range (sectCount o)).flatMap fun i =>
    if (sectAt o i).ty = 9 then (List.range ((sectAt o i).size / 32)).map fun k => (i, k) else []

/-- PARAM of a PLANE or LOFTIMG section names an entry that is there (R334; notes/assumptions/122.md). -/
def checkOwner (o : List Byte) (i : Nat) : Ld Unit := unless' ((unitEntries o).length ≤ (sectAt o i).param) ldBadTable i i

/-- Entry i of a UNITS section. -/
def checkUnit (o : List Byte) (l : List Sect) (sec i : Nat) : Ld Unit := do
  let b := (sectAt o sec).bytes o
  let w := dle b (32 * i) 8
  let entry := dle b (32 * i + 8) 8
  let some c := l[fld w 16 16]? | refuse ldBadTable sec i
  let some p := l[fld w 0 16]? | refuse ldBadTable sec i
  unless' ((c.ty != 1 && c.ty != 2) || p.ty != 8 || !zeros b (32 * i + 16) (32 * i + 32) || (c.ty = 1 && entry != 0) ||
    (c.ty = 2 && (c.size ≤ entry || entry % 8 != 0))) ldBadTable sec i
  unless' (c.ty = 2 && c.param != Config.stepping) ldNoCode sec i

/-- The words of a plane image. -/
def planeWords (b : List Byte) : List Word := (List.range 512).map fun i => BitVec.ofNat 64 (dle b (8 * i) 8)

/-- A PLANE section (R122). -/
def checkPlane (o : List Byte) (sec : Nat) : Ld Unit :=
  let t := sectAt o sec
  if t.size != 4096 then refuse ldBadTable sec sec
  else match (List.range 512).find? fun i => planeBad i ((planeWords (t.bytes o)).getD i 0) with
    | some i => refuse ldPlaneInvalid sec i
    | none => pure ()

/-- The records of a LOFTIMG section: none leaves its slice, and no two write one byte (R336). -/
def checkLoft (sec : Nat) (b : List Byte) : Nat → Nat → List (Nat × Nat × Nat) → Ld Unit
  | 0, _, _ => pure ()
  | fuel + 1, a, seen => do
    if b.length ≤ a then pure ()
    else
      let w := dle b a 8
      let len := fld w 23 17
      let r := (fld w 56 7, fld w 40 16, len)
      unless' (bitAt w 63 || fld w 0 23 != 0 || len = 0 || 65536 < r.2.1 + len || b.length < a + 8 + len ||
        seen.any fun x => x.1 = r.1 && x.2.1 < r.2.1 + len && r.2.1 < x.2.1 + x.2.2) ldBadTable sec a
      checkLoft sec b fuel (a + 8 + (len + 7) / 8 * 8) (r :: seen)

/-- Step 6 of R343. -/
def checkUnits (o : List Byte) : Ld Unit :=
  let l := sects o
  (List.range l.length).forM fun i =>
    let t := sectAt o i
    match t.ty with
    | 9 => do
      unless' (t.size % 32 != 0) ldBadTable i i
      (List.range (t.size / 32)).forM fun k => checkUnit o l i k
    | 8 => do
      checkOwner o i
      checkPlane o i
    | 7 => do
      checkOwner o i
      checkLoft i (t.bytes o) (t.size + 1) 0 []
    | _ => pure ()

end Sys2Proof.Machine
end

