-- ==== Sys2Proof/Machine/Loader.lean ====
section
/-! DEFINITION. The loader: placement, translation, relocation, specialisation slots, the control store, the report, the command,
and the patching and unloading of a loaded object (R115, R339 to R343, R346 to R350). -/

namespace Sys2Proof.Machine

/-! ### Placement (R334, R343 step 7) -/

/-- Sections that are placed in .CL; an IXCODE section's translation is placed too (R346). -/
def placedTy (t : Nat) : Bool := t = 2 || t = 3 || t = 4 || t = 5 || t = 7

/-- The alignment of a section. -/
def Sect.alignTo (t : Sect) : Nat := max (2 ^ t.align) (if t.ty = 4 then 2 ^ 16 else if t.ty = 5 || t.ty = 7 then 64 else 8)

/-- The ranges of two placed things meet. -/
def placesMeet (x y : Nat × Nat) : Bool := x.1 < y.1 + y.2 && y.1 < x.1 + x.2

/-- No two of the ranges meet. -/
def apart : List (Nat × Nat) → Bool
  | [] => true
  | x :: xs => !(xs.any (placesMeet x)) && apart xs

/-- The address of section i. -/
def addrOf (r : LoadReq) (i : Nat) : Option Nat := (r.place[i]?).join

/-- The image of section i as it is placed: its bytes, or its translation. -/
def imageOf (o : List Byte) (i : Nat) : List Byte :=
  let t := sectAt o i
  if t.ty = 1 then Config.ixiusCode (t.bytes o) else t.bytes o

/-- The ranges that the loaded objects of a partition take; one that is being unloaded keeps its own until its lines are gone (R350). -/
def Package.taken (p : Package) (part : Nat) : List (Nat × Nat) :=
  (p.loaded.filter fun o => o.part == part).flatMap fun o => o.secs.map fun x => (x.2.addr, x.2.size)

/-- Every section that takes an address has one, or there is no space for it; the addresses are the Hearth's choice, aligned, apart from
each other, from the object's sections placed before and from every loaded object, and writable through the partition's table. -/
def State.checkPlace (s : State) (part : Nat) (o : List Byte) (r : LoadReq) (ix : Bool) : Ld Unit := do
  let l := sects o
  let want := (List.range l.length).filter fun i => if ix then (sectAt o i).ty = 1 else placedTy (sectAt o i).ty
  want.forM fun i => unless' ((addrOf r i).isNone) ldNoSpace i 0
  let got := want.filterMap fun i => (addrOf r i).map fun a => (i, a)
  let size (i : Nat) : Nat := (imageOf o i).length
  let before := if ix then (List.range l.length).filterMap fun i => if placedTy (sectAt o i).ty then (addrOf r i).map fun a => (a, size i) else none
    else []
  let mine := got.map fun x => (x.2, size x.1)
  let clear := mine.all fun x => !((before ++ s.pkg.taken part).any (placesMeet x))
  let good := got.all fun x => x.2 % (sectAt o x.1).alignTo = 0 && x.2 + size x.1 ≤ 2 ^ 56 &&
    (s.partKeys part x.2 (size x.1) true).isSome
  if good && clear && apart mine then pure () else .error .never

/-! ### Ixius code and the translation cache (R343 step 8, R346 to R349) -/

/-- Every IXCODE section has the version that the device accepts, is valid, and fits. -/
def checkIxius (o : List Byte) : Ld Unit :=
  (List.range (sectCount o)).forM fun i => do
    let t := sectAt o i
    if t.ty = 1 then
      let b := t.bytes o
      let h := ixHead b
      unless' (h.major != 1 || h.minor != 0) ldBadVersion i (h.major * 256 + h.minor)
      match ixInvalid b with
      | some a => refuse ldIxiusInvalid i a
      | none => unless' (2 ^ 22 < ixSymBytes b || !Config.ixiusFits b) ldNoSpace i 0
    else pure ()

def hasIxius (o : List Byte) : Bool := (sects o).any fun t => t.ty = 1

/-- KHASH: the literals of the bodies and the slot constants, in order. -/
def khash (o : List Byte) (consts : List Word) : List Byte :=
  let lits := (sects o).flatMap fun t => if t.ty = 1 then ixLiterals (t.bytes o) (ixHead (t.bytes o)).nops (ixHead (t.bytes o)).body else []
  digest (lits.flatMap (leBytes 8) ++ consts.flatMap fun w => leBytes 8 w.toNat)

/-- The images of an object's sections, by index. -/
abbrev Images := List (List Byte)

/-- The native code of an object, which a cache entry keeps: its translations, and its native sections once they are re-specialised
(R348, R350). -/
def nativeOf (o : List Byte) (im : Images) (natives : Bool) : List Byte :=
  (List.range (sectCount o)).flatMap fun i =>
    if (sectAt o i).ty = 1 || (natives && (sectAt o i).ty = 2) then im.getD i [] else []

/-- Bytes 0 to 75 of an entry: OHASH, KHASH, STEP, SVN and SIZE (R348). -/
def entryHead (oh kh : List Byte) (svn size : Nat) : List Byte :=
  oh ++ kh ++ leBytes 2 Config.stepping ++ leBytes 2 svn ++ leBytes 8 size

/-- An entry: its head, the device identity key's signature over the head and the code, and the code (R348). -/
def entryBytes (oh kh : List Byte) (svn : Nat) (code : List Byte) : List Byte :=
  let h := entryHead oh kh svn code.length
  let sig := Config.sm2Sign Config.deviceKey (h ++ code)
  h ++ (sig ++ List.replicate 64 0).take 64 ++ code

/-- The bytes of a cache entry, which lie in the Cellar. -/
def State.entryOf (s : State) (c : CacheSlot) : List Byte := s.mem.bytes (keyCl c.addr) c.size

/-- OHASH, KHASH and STEP match (R349). -/
def entryFor (b oh kh : List Byte) : Bool := b.take 32 == oh && (b.drop 32).take 32 == kh && dle b 64 2 = Config.stepping

/-- The signature of an entry verifies. -/
def entrySigned (b : List Byte) : Bool :=
  dle b 68 8 + 140 = b.length && Config.sm2Verify Config.deviceKey (b.take 76 ++ b.drop 140) ((b.drop 76).take 64)

/-- A region of the Cellar that a new entry may take. -/
def State.cellFree (s : State) (a n : Nat) : Bool :=
  a + n ≤ s.pkg.form.cellar && s.pkg.cache.all fun c => !placesMeet (a, n) (c.addr, c.size)

/-- The cache after a load (R349): an entry whose SVN is below COUNT is invalidated when it is looked up; a miss writes a new one where the
Hearth chooses, which is none where no entry can lie. -/
def State.cacheLoad (s : State) (part : Nat) (o : List Byte) (consts : List Word) (code : List Byte) (cell : Nat) : Option State :=
  let oh := objHash o
  let kh := khash o consts
  let hit (c : CacheSlot) : Bool := c.part = part && entryFor (s.entryOf c) oh kh
  let kept := s.pkg.cache.filter fun c => !(hit c && dle (s.entryOf c) 66 2 < s.pkg.svn)
  let s := s.pkgd fun p => { p with cache := kept }
  if kept.any fun c => hit c && entrySigned (s.entryOf c) then some s
  else
    let b := entryBytes oh kh (objSvn o) code
    if s.cellFree cell b.length then
      some ((s.landKeys ((List.range b.length).map fun i => keyCl (cell + i)) b).pkgd fun p => { p with cache := ⟨part, cell, b.length⟩ :: p.cache })
    else none

/-! ### Relocation (R340, R341) -/

def putAt (b : List Byte) (a n x : Nat) : List Byte := b.take a ++ leBytes n x ++ b.drop (a + n)

/-- The minors of the majors whose forms use imm32, disp28 or imm26 (R64, R75; notes/assumptions/122.md). -/
def immMinors (maj : Nat) : List Nat :=
  match maj with
  | 0x02 => ixMinors 0x02
  | 0x04 => [1, 2]
  | 0x12 => [0, 1, 2, 3, 4, 5, 8, 9, 10, 11, 12, 13]
  | 0x13 => [0, 1, 2, 3, 4, 5, 8, 9, 10, 11, 12, 13, 16, 17, 19]
  | 0x14 => [0, 3, 4, 5, 6]
  | 0x15 => [2, 3, 4, 5]
  | 0x16 | 0x28 | 0x29 => [0, 1, 2, 3]
  | 0x27 => [16]
  | 0x2B => [0, 1]
  | m => if 0x05 ≤ m && m ≤ 0x11 then ixMinors m else []

/-- The width of the immediate field of a word, by its format, where its form uses it (R64, R73, R341). -/
def immWidth (w : Nat) : Option Nat :=
  let maj := fld w 58 6
  if !(immMinors maj).contains (fld w 50 8) then none
  else if 0x05 ≤ maj && maj ≤ 0x13 then some 28
  else if 0x27 ≤ maj then some 26
  else some 32

/-- The word is in format AB. -/
def isAb (w : Nat) : Bool := fld w 58 6 = 0x03 || (fld w 58 6 = 0x04 && fld w 50 8 = 0)

/-- A word's low n bits are replaced. -/
def lowBits (w n x : Nat) : Nat := w / 2 ^ n * 2 ^ n + x % 2 ^ n

/-- XIMM at a and its governed word take a value: PAYLOAD and the field (R73). -/
def ximmAt (b : List Byte) (a v : Nat) : Option (List Byte) :=
  let w := dle b (a + 8) 8
  match decodeWord (dle b a 8), decodeWord w, immWidth w with
  | .ok (.ximm _), .ok i, some n =>
    if i.acceptsXimm && a % 8 = 0 then
      some (putAt (putAt b a 8 (lowBits (dle b a 8) 50 (v / 2 ^ n))) (a + 8) 8 (lowBits w n (v % 2 ^ n)))
    else none
  | _, _, _ => none

/-- x fits in n signed bits. -/
def fitsSigned (n : Nat) (x : Int) : Bool := -(2 ^ (n - 1) : Int) ≤ x && x < 2 ^ (n - 1)

/-- The result of one relocation: the patched image, or RELOC_BAD, or RELOC_RANGE. -/
inductive Patch where
  | done (b : List Byte)
  | bad
  | range

def patchIf (fits : Bool) (b : List Byte) : Patch := if fits then .done b else .range

/-- One entry applied to the image of the section it patches; `here` is that section's type and placed address. -/
def relocate (b : List Byte) (kind a v ty : Nat) (here : Option Nat) : Patch :=
  let n := if kind = 2 then 4 else if kind = 6 then 16 else 8
  let w := dle b a 8
  if b.length < a + n || (4 ≤ kind && a % 8 != 0) then .bad
  else
    match kind with
    | 1 => .done (putAt b a 8 v)
    | 2 => patchIf (v < 2 ^ 32) (putAt b a 4 v)
    | 3 => patchIf (v < 2 ^ 56) (putAt b a 8 (lowBits w 56 v))
    | 4 => if immWidth w = some 32 then patchIf (fitsSigned 32 (sint 64 v)) (putAt b a 8 (lowBits w 32 (wrap 32 (sint 64 v)))) else .bad
    | 5 => if immWidth w = some 28 then patchIf (fitsSigned 28 (sint 64 v)) (putAt b a 8 (lowBits w 28 (wrap 28 (sint 64 v)))) else .bad
    | 6 => match ximmAt b a v with | some b => .done b | none => .bad
    | 7 =>
      match here with
      | some base =>
        let d : Int := sint 64 (wrap 64 ((v : Int) - base - a))
        if isAb w then patchIf (d % 8 = 0 && fitsSigned 36 (d / 8)) (putAt b a 8 (lowBits w 36 (wrap 36 (d / 8)))) else .bad
      | none => .bad
    | 8 =>
      if ty = 8 && 298 ≤ a / 8 && a / 8 < 314 then
        patchIf (v % 2 ^ 16 = 0 && v < 2 ^ 56) (putAt b a 8 (lowBits w 40 (v / 2 ^ 16)))
      else .bad
    | _ => .bad

/-- Entry i of RELOC section sec. -/
def relocEntry (o : List Byte) (r : LoadReq) (sec i : Nat) (im : Images) : Ld Images :=
  let b := (sectAt o sec).bytes o
  let w := dle b (16 * i) 8
  let x := dle b (16 * i + 8) 8
  let src := fld x 48 16
  let tgt := (sectAt o sec).param
  match (if placedTy (sectAt o src).ty && src < sectCount o then addrOf r src else none), im[tgt]? with
  | some base, some img =>
    if fld w 32 24 != 0 then refuse ldRelocBad sec i
    else
      let v := wrap 64 ((base : Int) + sint 48 (fld x 0 48))
      let here := if placedTy (sectAt o tgt).ty then addrOf r tgt else none
      match relocate img (fld w 56 8) (fld w 0 32) v (sectAt o tgt).ty here with
      | .done img => pure (im.set tgt img)
      | .bad => refuse ldRelocBad sec i
      | .range => refuse ldRelocRange sec i
  | _, _ => refuse ldRelocBad sec i

/-- Step 9: section order, then entry order. -/
def relocAll (o : List Byte) (r : LoadReq) (im : Images) : Ld Images :=
  (List.range (sectCount o)).foldlM (fun im i =>
    if (sectAt o i).ty = 10 then (List.range ((sectAt o i).size / 16)).foldlM (fun im k => relocEntry o r i k im) im else pure im) im

/-! ### Specialisation slots (R342) -/

/-- The constant read as its type: an integer's value in the type's range, any other type's bit pattern. -/
def constVal (ty : ElemTy) (c : Word) : Option Int :=
  let w := ty.width
  if ty.isInt then
    let x : Int := if ty.isSigned then c.toInt else (c.toNat : Int)
    let ok := if ty.isSigned then fitsSigned w x else x < 2 ^ w
    if ok then some x else none
  else if c.toNat < 2 ^ w then some (c.toNat : Int) else none

/-- The integer whose CX value is a pattern. -/
def intOfCx (c : Nat) : Option Int :=
  let m := sint 32 (fld c 0 32)
  let e := sint 32 (fld c 32 32)
  if c = cxZero then some 0
  else if 0 ≤ e && e ≤ 30 && m % 2 ^ (30 - e).toNat = 0 then some (m / 2 ^ (30 - e).toNat)
  else none

/-- imm26 of a constant: as the instruction reads it (R200), or in 26 signed bits. -/
def imm26Of (w : Nat) (ty : ElemTy) (x : Int) : Option Nat :=
  let signed (x : Int) : Option Nat := if fitsSigned 26 x then some (wrap 26 x) else none
  match decodeWord w with
  | .ok (.vli _ vt _ _) =>
    if vt.isInt && vt.width = 32 then (if x < 2 ^ 32 then signed (sint 32 (wrap 32 x)) else none)
    else if ty.isInt then signed x
    else if vt = .fp32 then (if x % 64 = 0 && x < 2 ^ 32 then some (x / 64).toNat else none)
    else if vt = .cx then (intOfCx x.toNat).bind signed
    else if vt.width ≤ 16 then (if x < 2 ^ vt.width then some x.toNat else none)
    else signed x
  | _ => signed x

/-- One slot applied to the image of its section. -/
def slotPatch (b : List Byte) (field a : Nat) (ty : ElemTy) (x : Int) : Option (List Byte) :=
  let w := dle b a 8
  if b.length < a + 8 || a % 8 != 0 then none
  else
    match field with
    | 1 => if immWidth w = some 32 && fitsSigned 32 x then some (putAt b a 8 (lowBits w 32 (wrap 32 x))) else none
    | 2 => if immWidth w = some 28 && fitsSigned 28 x then some (putAt b a 8 (lowBits w 28 (wrap 28 x))) else none
    | 3 => if immWidth w = some 26 then (imm26Of w ty x).map fun y => putAt b a 8 (lowBits w 26 y) else none
    | 4 => ximmAt b a (wrap 64 x)
    | _ => none

/-- Entry i of SLOTS section sec, the n-th slot of the object. -/
def slotEntry (o : List Byte) (r : LoadReq) (sec i n : Nat) (im : Images) : Ld Images :=
  let b := (sectAt o sec).bytes o
  let w := dle b (16 * i) 8
  let ty := ElemTy.ofCode (fld w 56 4)
  let tgt := fld w 32 16
  match r.consts[n]? with
  | none => refuse ldSlotMissing sec i
  | some c =>
    match constVal ty c, (if (sectAt o tgt).ty = 2 && tgt < sectCount o then im[tgt]? else none) with
    | some x, some img =>
      if fld w 48 8 != 0 || fld (dle b (16 * i + 8) 8) 0 32 != 0 then refuse ldSlotRange sec i
      else match slotPatch img (fld w 60 4) (fld w 0 32) ty x with
        | some img => pure (im.set tgt img)
        | none => refuse ldSlotRange sec i
    | _, _ => refuse ldSlotRange sec i

/-- Step 10, in entry order. -/
def slotAll (o : List Byte) (r : LoadReq) (im : Images) : Ld Images := do
  let x ← (List.range (sectCount o)).foldlM (fun (x : Nat × Images) i =>
    if (sectAt o i).ty = 11 then
      (List.range ((sectAt o i).size / 16)).foldlM (fun (x : Nat × Images) k => do
        let im ← slotEntry o r i k x.1 x.2
        pure (x.1 + 1, im)) x
    else pure x) (0, im)
  pure x.2

/-! ### The control store (R114, R115) -/

/-- A directory word is as R114 asks. -/
def dirWordOk (w : Nat) : Bool := fld w 13 48 = 0 && (!bitAt w 63 || 128 ≤ fld w 0 13)

/-- Step 11: an image of 64 KiB whose CRC-32C is the value that the Hearth supplies, and whose directory is good (R115). -/
def checkCstore (im : Images) (o : List Byte) (crc : Nat) : Ld Unit :=
  (List.range (sectCount o)).forM fun i =>
    if (sectAt o i).ty = 6 then
      let b := im.getD i []
      unless' (b.length != 65536 || crc32c b != crc || !(List.range 128).all fun k => dirWordOk (dle b (8 * k) 8)) ldCstoreRefused i 0
    else pure ()

/-- The words of a control store image that are not zero. -/
def cstoreWords (b : List Byte) : List (Nat × Word) :=
  (List.range 8192).filterMap fun k => let w := dle b (8 * k) 8; if w = 0 then none else some (k, BitVec.ofNat 64 w)

/-! ### The load (R343) -/

/-- The images of an object under a request: its sections or their translations, relocated and with their constants (steps 9 and 10). -/
def imagesOf (o : List Byte) (r : LoadReq) : Ld Images := do
  let im ← relocAll o r ((List.range (sectCount o)).map fun i => imageOf o i)
  slotAll o r im

/-- Steps 6 to 11: the images. -/
def State.checkParts (s : State) (j : Job) (o : List Byte) (r : LoadReq) : Ld Images := do
  checkUnits o
  s.checkPlace j.part o r false
  checkIxius o
  s.checkPlace j.part o r true
  let im ← imagesOf o r
  checkCstore im o r.crc
  pure im

/-- The checks of a load in their order: the images and the skipped sections and notes. -/
def State.checkLoad (s : State) (j : Job) (o : List Byte) (r : LoadReq) : Ld (Images × List Nat) := do
  checkHeader o
  unless' (!sigOk o j) ldSignature noSect 0
  unless' (objSvn o < s.pkg.svn) ldSvnRevoked noSect s.pkg.svn
  let skip ← checkSects o
  let notes ← skipped skip (allNotes o)
  let im ← skipped (skip ++ notes) (s.checkParts j o r)
  pure (im, skip ++ notes)

/-- A plane image with the job's timing and cache words (R353). -/
def jobPlane (j : Job) (ws : List Word) : List Word :=
  (ws.take 280) ++ [if j.strict then 1 else 0] ++ j.pads ++ [j.attic] ++ ws.drop 298

/-- Section i as it is placed. -/
def placedAt (o : List Byte) (r : LoadReq) (im : Images) (i : Nat) : Option Placed :=
  if placedTy (sectAt o i).ty || (sectAt o i).ty = 1 then (addrOf r i).map fun a => ⟨(sectAt o i).ty, a, (im.getD i []).length⟩ else none

/-- The word of entry k of UNITS section sec that names CODE and PLANE. -/
def unitWord (o : List Byte) (x : Nat × Nat) : Nat := dle ((sectAt o x.1).bytes o) (32 * x.2) 8

/-- Unit n of an object: the address of its first instruction, its plane, and its Loft image (R335, R336). -/
def unitImg (o : List Byte) (r : LoadReq) (im : Images) (n : Nat) (x : Nat × Nat) : UnitImg where
  entry := (addrOf r (fld (unitWord o x) 16 16)).getD 0 + dle ((sectAt o x.1).bytes o) (32 * x.2 + 8) 8
  plane := fld (unitWord o x) 0 16
  loft := ((List.range (sectCount o)).find? fun i => (sectAt o i).ty = 7 && (sectAt o i).param = n).bind (placedAt o r im)

def unitImgs (o : List Byte) (r : LoadReq) (im : Images) : List UnitImg :=
  (unitEntries o).zip (List.range (unitEntries o).length) |>.map fun x => unitImg o r im x.2 x.1

/-- Plane section i with the formats of the banks of its units' symbols (R344). -/
def symPlane (o : List Byte) (i : Nat) (ws : List Word) : List Word :=
  (unitEntries o).foldl (fun ws x =>
    let c := sectAt o (fld (unitWord o x) 16 16)
    if fld (unitWord o x) 0 16 = i && c.ty = 1 then (ixBanks (c.bytes o)).foldl (fun ws b => ws.set b.1 b.2) ws else ws) ws

/-- Launches of a job that have not started take the Loft images of its units (R336). -/
def Package.loftLaunches (p : Package) (job : Nat) : Package :=
  { p with graphs := p.graphs.map fun g =>
      if g.job == job then { g with launches := g.launches.map fun l => if l.st = 0 then l.withLoft (p.unitsOf job) else l } else g }

/-- The effect of a load that no step has refused; there is none where the Hearth would not have chosen the cache entry's place. -/
def State.loadDo (s : State) (j : Job) (o : List Byte) (r : LoadReq) (im : Images) : Option State :=
  let idx := List.range (sectCount o)
  let placed := idx.filterMap fun i => (placedAt o r im i).map fun x => (i, x)
  let planes := idx.filterMap fun i =>
    if (sectAt o i).ty = 8 then some (i, jobPlane j (symPlane o i (planeWords (im.getD i [])))) else none
  let s : State := placed.foldl (fun (s : State) (x : Nat × Placed) => (s.partPut j.part x.2.addr (im.getD x.1 [])).getD s) s
  let s : State := match idx.find? fun i => (sectAt o i).ty = 6 with
    | some i =>
      let cores := ((s.partAt j.part).map (·.cores)).getD []
      s.mapCores fun c => if cores.contains c.idx then { c with fe := { c.fe with cstore := cstoreWords (im.getD i []) } } else c
    | none => s
  let s : State := s.pkgd fun p =>
    Package.loftLaunches { p with loaded := p.loaded ++ [⟨j.ctr, j.part, r, o, placed, planes, unitImgs o r im⟩] } j.ctr
  if hasIxius o then s.cacheLoad j.part o r.consts (nativeOf o im false) r.cacheAt else some s

/-- The load report (R343). -/
def report (status sect detail : Nat) (skip : List Nat) : List Byte :=
  leBytes 8 (status * 2 ^ 56 + sect % 2 ^ 16 * 2 ^ 32 + detail % 2 ^ 32) ++ leBytes 8 (skip.length % 2 ^ 16 * 2 ^ 48) ++ skip.flatMap (leBytes 2)

/-- The object that a request names, its length taken from its header. -/
def State.objectAt (s : State) (a : Nat) : List Byte := s.hostBytes a (max 64 (leNat (s.hostBytes (a + 24) 8)))

/-- The cores whose control store a load writes hold no unit (R115). -/
def State.storeFree (s : State) (j : Job) (o : List Byte) : Bool :=
  let cores := ((s.partAt j.part).map (·.cores)).getD []
  !((sects o).any fun t => t.ty = 6) || s.allCores.all fun c => !cores.contains c.idx || c.slotFree

/-- The cache when an object's security version is revoked: every entry with its hash is invalidated (R349). -/
def State.dropHash (s : State) (oh : List Byte) : State :=
  let kept := s.pkg.cache.filter fun c => (s.entryOf c).take 32 != oh
  s.pkgd fun p => { p with cache := kept }

/-- LOAD: the object is loaded or refused, and the report is the reply; without such a job NOT_FOUND. -/
def State.load (s : State) (r : LoadReq) : Option State :=
  match s.jobAt r.job with
  | none => some (s.mbox 1 fun s => (mbNotFound, s))
  | some j =>
    let o := s.objectAt r.obj
    let reply (s : State) (b : List Byte) : State := s.mbox 1 fun s => (mbOk, s.hostPut (bufAt r.buf) b)
    match s.checkLoad j o r with
    | .error .never => none
    | .error (.report st se d skip) =>
      let s := if st = ldSvnRevoked then s.dropHash (objHash o) else s
      some (reply s (report st se d skip))
    | .ok (im, skip) =>
      if s.storeFree j o then (s.loadDo j o r im).map fun s => reply s (report 0 noSect 0 skip) else none

def execLoad (req : LoadReq) (s : State) : Out :=
  event "LOAD" (if s.hearthUp && s.mboxFor 1 req.buf then s.load req else none)

/-! ### Patching resident code (R350) -/

/-- A core is bound or about to be bound to a unit of the object. -/
def State.runsUnit (s : State) (o : LoadedObj) (c : Core) : Bool :=
  let of' (b : Nat) : Bool := bindPart b == o.part && (s.launchOf (bindLctr b)).any fun l => o.units.any fun u => u.entry == fld (l.word 0) 0 56
  (c.busy && of' c.slot.act.toNat) || (bindV c.slot.stby.toNat && of' c.slot.stby.toNat)

/-- Words of a placed image that differ from another's, with their addresses. -/
def diffWords (a : Nat) (x y : List Byte) : List (Nat × List Byte) :=
  (List.range ((y.length + 7) / 8)).filterMap fun i =>
    let w := (y.drop (8 * i)).take 8
    if (x.drop (8 * i)).take 8 == w then none else some (a + 8 * i, w)

/-- The patched words of an object under a new request, its native sections' (R350). -/
def LoadedObj.patched (o : LoadedObj) (r : LoadReq) : Option (List (Nat × List Byte)) :=
  match imagesOf o.bytes o.req, imagesOf o.bytes r with
  | .ok x, .ok y => some ((o.secs.filter fun z => z.2.ty = 2).flatMap fun z => diffWords z.2.addr (x.getD z.1 []) (y.getD z.1 []))
  | _, _ => none

/-- The 64-byte lines of addresses. -/
def linesOf (as : List Nat) : List Nat := (as.map (· / 64)).eraseDups

/-- The lines of an object. -/
def LoadedObj.lines (o : LoadedObj) : List Nat :=
  linesOf (o.secs.flatMap fun z => (List.range (z.2.size / 64 + 2)).map fun i => min (z.2.addr + 64 * i) (z.2.addr + z.2.size - 1))

/-- A patch or an unloading is begun: new binds of the object's units are held from here on. -/
def State.holdObj (s : State) (p : CodePatch) : State := s.pkgd fun g => { g with patches := g.patches ++ [p] }

/-- What is to be invalidated stands in the patch, with the cores of the partition. -/
def State.notePatch (s : State) (o : LoadedObj) (k : Nat) (lines : List Nat) : State :=
  let cores := ((s.partAt o.part).map (·.cores)).getD []
  s.pkgd fun g => { g with patches := g.patches.map fun p => if p.obj == k then { p with lines := lines, cores := cores, wrote := true } else p }

/-- One turn of a re-specialisation: binds are held; then, when no unit of the object is bound, the patched words are written as memory-side
writes (R350; notes/assumptions/124.md). -/
def State.patchTurn (s : State) (k : Nat) (consts : List Word) (cell : Nat) : Option State :=
  match s.pkg.loaded[k]? with
  | none => none
  | some o =>
    let r := { o.req with consts := consts, cacheAt := cell }
    match o.patched r with
    | none => none
    | some ws =>
      if !s.hearthUp || o.bytes.isEmpty then none
      else
        match s.pkg.patches.find? fun p => p.obj == k with
        | none => some (s.holdObj ⟨k, false, r, [], [], false⟩)
        | some p =>
          if p.unload || p.wrote || p.req != r || s.allCores.any (s.runsUnit o) then none
          else (ws.foldlM (fun (s : State) (w : Nat × List Byte) => s.partPut o.part w.1 w.2) s).map fun s =>
            s.notePatch o k (linesOf (ws.map (·.1)))

/-- One turn of an unloading: binds are held, then the object's lines are to be invalidated (R350). -/
def State.unloadTurn (s : State) (k : Nat) : Option State :=
  match s.pkg.loaded[k]? with
  | none => none
  | some o =>
    if !s.hearthUp || o.bytes.isEmpty then none
    else
      match s.pkg.patches.find? fun p => p.obj == k with
      | none => some (s.holdObj ⟨k, true, o.req, [], [], false⟩)
      | some p => if !p.unload || p.wrote || s.allCores.any (s.runsUnit o) then none else some (s.notePatch o k o.lines)

/-- The last core's lines are gone: the object is loaded by the new request, with a cache entry under its new KHASH, or is no longer there.
-/
def State.patchDone (s : State) (p : CodePatch) : Option State :=
  match s.pkg.loaded[p.obj]? with
  | none => none
  | some o =>
    let s := s.pkgd fun g =>
      { g with patches := g.patches.filter fun q => q.obj != p.obj
               loaded := g.loaded.set p.obj (if p.unload then ⟨o.job, o.part, o.req, [], [], [], []⟩ else { o with req := p.req }) }
    if p.unload then some s
    else match imagesOf o.bytes p.req with
      | .ok im => s.cacheLoad o.part o.bytes p.req.consts (nativeOf o.bytes im true) p.req.cacheAt
      | .error _ => none

/-- The service unit of a patch runs ICINV on each of its lines on this core, which holds no unit (R128, R350). -/
def State.icinvTurn (s : State) : Option State :=
  let k := s.core.idx
  match (if s.hearthUp && s.core.slotFree && !bindV s.core.slot.stby.toNat then s.pkg.patches.find? fun p => p.wrote && p.cores.contains k else none) with
  | none => none
  | some p =>
    let s := s.fe fun f => { f with icache := f.icache.filter fun l => !p.lines.any fun n => l.1 % 2 ^ 50 == n % 2 ^ 50 }
    let p := { p with cores := p.cores.filter (· != k) }
    let s := s.pkgd fun g => { g with patches := g.patches.map fun q => if q.obj == p.obj then p else q }
    if p.cores.isEmpty then s.patchDone p else some s

end Sys2Proof.Machine
end

