-- ==== Sys2Proof/Machine/Scalar.lean ====
section
/-! DEFINITION. Scalar operations, major 0x27 (R194, R195) -/

namespace Sys2Proof.Machine

/-- A rounding scalar form (R194); the random bits are [15:0] of the random source (R175). -/
def scalBin (op : FpOp) (iop : IntOp) (f : FpBin) (s : State) : Out :=
  s.xIssue (s.withRnd f.rnd [f.a, f.b]) (some f.d) fun s0 s1 os =>
    let rho := (opd os 2).sc .n16
    let r := scalElem op iop f.ty (s0.mode f.rnd.rm) f.sat rho ((opd os 0).sc f.ty) ((opd os 1).sc f.ty) 0
    .next (s1.sendScalar f.d (s0.p f.g) r)

def execSadd (f : FpBin) (s : State) : Out := scalBin .add .add f s
def execSsub (f : FpBin) (s : State) : Out := scalBin .sub .sub f s
def execSmul (f : FpBin) (s : State) : Out := scalBin .mul .mul f s

def execSfma (f : FpFma) (s : State) : Out :=
  s.xIssue [f.a, f.b, f.c] (some f.d) fun s0 s1 os =>
    let r := fpElem .fma .fp32 (s0.mode f.rm) false 0 0 ((opd os 0).sc .fp32) ((opd os 1).sc .fp32) ((opd os 2).sc .fp32)
    .next (s1.sendScalar f.d (s0.p f.g) r)

def execSmov (f : XOne) (s : State) : Out :=
  s.xIssue [f.a] (some f.d) fun s0 s1 os => .next (s1.sendScalar f.d (s0.p f.g) (plain ((opd os 0).sc f.ty)))

def execScvt (f : ScvtArgs) (s : State) : Out :=
  s.xIssue (s.withRnd f.rnd [f.a]) (some f.d) fun s0 s1 os =>
    let rm := s0.mode f.rnd.rm
    let x := (opd os 0).sc f.src
    let on := (s0.p f.g).getLsbD 0
    match (if on then srcFault f.src x else none) with
    | some e => s0.xTrap e.cause
    | none => .next (s1.sendScalar f.d (s0.p f.g) (convertElem f.src f.ty rm f.sat ((opd os 1).sc .n16) (rWidth rm) x))

def execSli (g : Fin 16) (d : Fin 32) (imm : BitVec 26) (s : State) : Out :=
  s.xIssue [] none fun s0 s1 _ =>
    .next (s1.send (.s d) (wfld (extend 26 imm.toNat s0.core.fe.cur.ximm) 0 32) (s0.p g) 0)

end Sys2Proof.Machine
end

