-- ==== Sys2Proof/Machine/VectorFp.lean ====
section
/-! DEFINITION. Vector floating point and special functions, majors 0x20 and 0x26 (R176 to R178, R192, R193) -/

namespace Sys2Proof.Machine

/-- A rounding two-operand form (R176, R177). -/
def fpBin (op : FpOp) (f : FpBin) (s : State) : Out :=
  s.xVec (s.withRnd f.rnd [f.a, f.b]) f.g f.d fun s os p =>
    fpVec op f.ty (s.mode f.rnd.rm) f.sat (opd os 2) (opd os 0) (opd os 1) (.scal 0) p

/-- A fused form (R176, R177). -/
def fpFma (op : FpOp) (f : FpFma) (s : State) : Out :=
  s.xVec [f.a, f.b, f.c] f.g f.d fun s os p =>
    fpVec op f.ty (s.mode f.rm) f.sat (.scal 0) (opd os 0) (opd os 1) (opd os 2) p

/-- VMIN and VMAX (R177). -/
def fpTwo (op : FpOp) (f : XTwo) (s : State) : Out :=
  s.xVec [f.a, f.b] f.g f.d fun _ os p => fpVec op f.ty .rne false (.scal 0) (opd os 0) (opd os 1) (.scal 0) p

/-- VABS and VNEG (R177). -/
def fpOne (op : FpOp) (f : XOne) (s : State) : Out :=
  s.xVec [f.a] f.g f.d fun _ os p => fpVec op f.ty .rne false (.scal 0) (opd os 0) (.scal 0) (.scal 0) p

/-- A special function (R192). -/
def fpSpecial (fn : SpecFn) (f : FpUn) (s : State) : Out :=
  s.xVec (s.withRnd f.rnd [f.a]) f.g f.d fun s os p =>
    specVec fn f.ty (s.mode f.rnd.rm) f.sat (opd os 1) (opd os 0) p

def execVadd (f : FpBin) (s : State) : Out := fpBin .add f s
def execVsub (f : FpBin) (s : State) : Out := fpBin .sub f s
def execVmul (f : FpBin) (s : State) : Out := fpBin .mul f s
def execVdiv (f : FpBin) (s : State) : Out := fpBin .div f s
def execVfma (f : FpFma) (s : State) : Out := fpFma .fma f s
def execVfms (f : FpFma) (s : State) : Out := fpFma .fms f s
def execVfnma (f : FpFma) (s : State) : Out := fpFma .fnma f s
def execVmin (f : XTwo) (s : State) : Out := fpTwo .min f s
def execVmax (f : XTwo) (s : State) : Out := fpTwo .max f s
def execVabs (f : XOne) (s : State) : Out := fpOne .abs f s
def execVneg (f : XOne) (s : State) : Out := fpOne .neg f s
def execVsqrt (f : FpUn) (s : State) : Out :=
  s.xVec (s.withRnd f.rnd [f.a]) f.g f.d fun s os p =>
    fpVec .sqrt f.ty (s.mode f.rnd.rm) f.sat (opd os 1) (opd os 0) (.scal 0) (.scal 0) p
def execVexp2 (f : FpUn) (s : State) : Out := fpSpecial .exp2 f s
def execVlog2 (f : FpUn) (s : State) : Out := fpSpecial .log2 f s
def execVrcp (f : FpUn) (s : State) : Out := fpSpecial .rcp f s
def execVrsqrt (f : FpUn) (s : State) : Out := fpSpecial .rsqrt f s
def execVsin (f : FpUn) (s : State) : Out := fpSpecial .sin f s
def execVcos (f : FpUn) (s : State) : Out := fpSpecial .cos f s
def execVtanh (f : FpUn) (s : State) : Out := fpSpecial .tanh f s
def execVsigm (f : FpUn) (s : State) : Out := fpSpecial .sigm f s

end Sys2Proof.Machine
end

