-- ==== Sys2Proof/Machine/Dispatch.lean ====
section
/-! DEFINITION. The meaning of every constructor of Instr, one arm each. -/

namespace Sys2Proof.Machine

def exec (i : Instr) (s : State) : Host.Outcome State Fault Refusal :=
  match i with
  | .add sz d a b => Sys2Proof.Machine.execAdd sz d a b s
  | .sub sz d a b => Sys2Proof.Machine.execSub sz d a b s
  | .mul sz d a b => Sys2Proof.Machine.execMul sz d a b s
  | .mulh sz d a b => Sys2Proof.Machine.execMulh sz d a b s
  | .and sz d a b => Sys2Proof.Machine.execAnd sz d a b s
  | .or sz d a b => Sys2Proof.Machine.execOr sz d a b s
  | .xor sz d a b => Sys2Proof.Machine.execXor sz d a b s
  | .shl sz d a b => Sys2Proof.Machine.execShl sz d a b s
  | .shr sz d a b => Sys2Proof.Machine.execShr sz d a b s
  | .sra sz d a b => Sys2Proof.Machine.execSra sz d a b s
  | .min sz d a b => Sys2Proof.Machine.execMin sz d a b s
  | .max sz d a b => Sys2Proof.Machine.execMax sz d a b s
  | .cmp c d a b => Sys2Proof.Machine.execCmp c d a b s
  | .addi sz d a imm => Sys2Proof.Machine.execAddi sz d a imm s
  | .andi sz d a imm => Sys2Proof.Machine.execAndi sz d a imm s
  | .ori sz d a imm => Sys2Proof.Machine.execOri sz d a imm s
  | .xori sz d a imm => Sys2Proof.Machine.execXori sz d a imm s
  | .shli sz d a sh => Sys2Proof.Machine.execShli sz d a sh s
  | .shri sz d a sh => Sys2Proof.Machine.execShri sz d a sh s
  | .srai sz d a sh => Sys2Proof.Machine.execSrai sz d a sh s
  | .cmpi c d a imm => Sys2Proof.Machine.execCmpi c d a imm s
  | .li d imm => Sys2Proof.Machine.execLi d imm s
  | .br c a b off => Sys2Proof.Machine.execBr c a b off s
  | .call a off => Sys2Proof.Machine.execCall a off s
  | .jr a imm => Sys2Proof.Machine.execJr a imm s
  | .callr d a imm => Sys2Proof.Machine.execCallr d a imm s
  | .ldSp sz d m => Sys2Proof.Machine.execLdSp sz d m s
  | .ldAt sz acq d m => Sys2Proof.Machine.execLdAt sz acq d m s
  | .ldRa sz acq d m => Sys2Proof.Machine.execLdRa sz acq d m s
  | .ldCl sz acq d m => Sys2Proof.Machine.execLdCl sz acq d m s
  | .ldHs sz acq d m => Sys2Proof.Machine.execLdHs sz acq d m s
  | .ldPr sz acq d m => Sys2Proof.Machine.execLdPr sz acq d m s
  | .stSp sz d m => Sys2Proof.Machine.execStSp sz d m s
  | .stAt sz ms d m => Sys2Proof.Machine.execStAt sz ms d m s
  | .stRa sz ms d m => Sys2Proof.Machine.execStRa sz ms d m s
  | .stCl sz ms d m => Sys2Proof.Machine.execStCl sz ms d m s
  | .stHs sz ms d m => Sys2Proof.Machine.execStHs sz ms d m s
  | .stPr sz ms d m => Sys2Proof.Machine.execStPr sz ms d m s
  | .amoAdd spc w acq d m => Sys2Proof.Machine.execAmoAdd spc w acq d m s
  | .amoAnd spc w acq d m => Sys2Proof.Machine.execAmoAnd spc w acq d m s
  | .amoOr spc w acq d m => Sys2Proof.Machine.execAmoOr spc w acq d m s
  | .amoXor spc w acq d m => Sys2Proof.Machine.execAmoXor spc w acq d m s
  | .amoMin spc w acq d m => Sys2Proof.Machine.execAmoMin spc w acq d m s
  | .amoMax spc w acq d m => Sys2Proof.Machine.execAmoMax spc w acq d m s
  | .amoMinu spc w acq d m => Sys2Proof.Machine.execAmoMinu spc w acq d m s
  | .amoMaxu spc w acq d m => Sys2Proof.Machine.execAmoMaxu spc w acq d m s
  | .amoSwap spc w acq d m => Sys2Proof.Machine.execAmoSwap spc w acq d m s
  | .amoCas spc w acq d n base disp => Sys2Proof.Machine.execAmoCas spc w acq d n base disp s
  | .strmIn spc q gi base disp => Sys2Proof.Machine.execStrmIn spc q gi base disp s
  | .strmOut spc ms q gi base disp => Sys2Proof.Machine.execStrmOut spc ms q gi base disp s
  | .strmStop out q => Sys2Proof.Machine.execStrmStop out q s
  | .ldq spc q len acq m => Sys2Proof.Machine.execLdq spc q len acq m s
  | .stq spc q len ms m => Sys2Proof.Machine.execStq spc q len ms m s
  | .ldsc spc cnt m => Sys2Proof.Machine.execLdsc spc cnt m s
  | .fence f sc => Sys2Proof.Machine.execFence f sc s
  | .afence => Sys2Proof.Machine.execAfence s
  | .bar => Sys2Proof.Machine.execBar s
  | .hbind h w => Sys2Proof.Machine.execHbind h w s
  | .hpush h q => Sys2Proof.Machine.execHpush h q s
  | .hpop h q => Sys2Proof.Machine.execHpop h q s
  | .waitRd d a => Sys2Proof.Machine.execWaitRd d a s
  | .waitFin d a => Sys2Proof.Machine.execWaitFin d a s
  | .waitLe d a b => Sys2Proof.Machine.execWaitLe d a b s
  | .done => Sys2Proof.Machine.execDone s
  | .eret => Sys2Proof.Machine.execEret s
  | .rdsr d n => Sys2Proof.Machine.execRdsr d n s
  | .wrsr a n => Sys2Proof.Machine.execWrsr a n s
  | .icinv a imm => Sys2Proof.Machine.execIcinv a imm s
  | .trap code => Sys2Proof.Machine.execTrap code s
  | .layer kind entry => Sys2Proof.Machine.execLayer kind entry s
  | .mbr c a b target => Sys2Proof.Machine.execMbr c a b target s
  | .mloop a uend => Sys2Proof.Machine.execMloop a uend s
  | .mbnd fin => Sys2Proof.Machine.execMbnd fin s
  | .ximm value => Sys2Proof.Machine.execXimm value s
  | .stamp cycle => Sys2Proof.Machine.execStamp cycle s
  | .vadd f => Sys2Proof.Machine.execVadd f s
  | .vsub f => Sys2Proof.Machine.execVsub f s
  | .vmul f => Sys2Proof.Machine.execVmul f s
  | .vfma f => Sys2Proof.Machine.execVfma f s
  | .vfms f => Sys2Proof.Machine.execVfms f s
  | .vfnma f => Sys2Proof.Machine.execVfnma f s
  | .vdiv f => Sys2Proof.Machine.execVdiv f s
  | .vmin f => Sys2Proof.Machine.execVmin f s
  | .vmax f => Sys2Proof.Machine.execVmax f s
  | .vabs f => Sys2Proof.Machine.execVabs f s
  | .vneg f => Sys2Proof.Machine.execVneg f s
  | .vsqrt f => Sys2Proof.Machine.execVsqrt f s
  | .viadd f => Sys2Proof.Machine.execViadd f s
  | .visub f => Sys2Proof.Machine.execVisub f s
  | .vimul f => Sys2Proof.Machine.execVimul f s
  | .vimulh f => Sys2Proof.Machine.execVimulh f s
  | .vimad f => Sys2Proof.Machine.execVimad f s
  | .vand f => Sys2Proof.Machine.execVand f s
  | .vor f => Sys2Proof.Machine.execVor f s
  | .vxor f => Sys2Proof.Machine.execVxor f s
  | .vshl f => Sys2Proof.Machine.execVshl f s
  | .vshr f => Sys2Proof.Machine.execVshr f s
  | .vsra f => Sys2Proof.Machine.execVsra f s
  | .vimin f => Sys2Proof.Machine.execVimin f s
  | .vimax f => Sys2Proof.Machine.execVimax f s
  | .viabs f => Sys2Proof.Machine.execViabs f s
  | .vcmp g ty c d a b => Sys2Proof.Machine.execVcmp g ty c d a b s
  | .vsel g ty d a b p => Sys2Proof.Machine.execVsel g ty d a b p s
  | .pand g d a b => Sys2Proof.Machine.execPand g d a b s
  | .por g d a b => Sys2Proof.Machine.execPor g d a b s
  | .pxor g d a b => Sys2Proof.Machine.execPxor g d a b s
  | .pnot g d a => Sys2Proof.Machine.execPnot g d a s
  | .vcvt f => Sys2Proof.Machine.execVcvt f s
  | .vcvtw f => Sys2Proof.Machine.execVcvtw f s
  | .vcvtn f => Sys2Proof.Machine.execVcvtn f s
  | .vdq f => Sys2Proof.Machine.execVdq f s
  | .vq f => Sys2Proof.Machine.execVq f s
  | .srnd f => Sys2Proof.Machine.execSrnd f s
  | .vperm f => Sys2Proof.Machine.execVperm f s
  | .vrot f => Sys2Proof.Machine.execVrot f s
  | .vbcast f => Sys2Proof.Machine.execVbcast f s
  | .vzip f => Sys2Proof.Machine.execVzip f s
  | .vunzip f => Sys2Proof.Machine.execVunzip f s
  | .vslide f => Sys2Proof.Machine.execVslide f s
  | .vrsum f => Sys2Proof.Machine.execVrsum f s
  | .vrmax f => Sys2Proof.Machine.execVrmax f s
  | .vrmin f => Sys2Proof.Machine.execVrmin f s
  | .vriadd f => Sys2Proof.Machine.execVriadd f s
  | .vexp2 f => Sys2Proof.Machine.execVexp2 f s
  | .vlog2 f => Sys2Proof.Machine.execVlog2 f s
  | .vrcp f => Sys2Proof.Machine.execVrcp f s
  | .vrsqrt f => Sys2Proof.Machine.execVrsqrt f s
  | .vsin f => Sys2Proof.Machine.execVsin f s
  | .vcos f => Sys2Proof.Machine.execVcos f s
  | .vtanh f => Sys2Proof.Machine.execVtanh f s
  | .vsigm f => Sys2Proof.Machine.execVsigm f s
  | .sadd f => Sys2Proof.Machine.execSadd f s
  | .ssub f => Sys2Proof.Machine.execSsub f s
  | .smul f => Sys2Proof.Machine.execSmul f s
  | .sfma f => Sys2Proof.Machine.execSfma f s
  | .smov f => Sys2Proof.Machine.execSmov f s
  | .scvt f => Sys2Proof.Machine.execScvt f s
  | .sli g d imm => Sys2Proof.Machine.execSli g d imm s
  | .loop count stages1 k1 => Sys2Proof.Machine.execLoop count stages1 k1 s
  | .rbset b => Sys2Proof.Machine.execRbset b s
  | .rbadv d => Sys2Proof.Machine.execRbadv d s
  | .pstage mask => Sys2Proof.Machine.execPstage mask s
  | .cbstV g ty a off => Sys2Proof.Machine.execCbstV g ty a off s
  | .cbldV g ty d off => Sys2Proof.Machine.execCbldV g ty d off s
  | .cbstS g a off => Sys2Proof.Machine.execCbstS g a off s
  | .cbldS g d off => Sys2Proof.Machine.execCbldS g d off s
  | .qskip g q count => Sys2Proof.Machine.execQskip g q count s
  | .qcount g d q => Sys2Proof.Machine.execQcount g d q s
  | .qflush g d q => Sys2Proof.Machine.execQflush g d q s
  | .vli g ty d imm => Sys2Proof.Machine.execVli g ty d imm s
  | .vlix g ty d base step => Sys2Proof.Machine.execVlix g ty d base step s
  | .copy c => Sys2Proof.Machine.execCopy c s
  | .copyF c => Sys2Proof.Machine.execCopyF c s
  | .fill c w => Sys2Proof.Machine.execFill c w s
  | .gather c => Sys2Proof.Machine.execGather c s
  | .scatter c => Sys2Proof.Machine.execScatter c s
  | .loft c => Sys2Proof.Machine.execLoft c s
  | .reduce c => Sys2Proof.Machine.execReduce c s
  | .reduceBin c => Sys2Proof.Machine.execReduceBin c s
  | .migrate x y w hk => Sys2Proof.Machine.execMigrate x y w hk s
  | .bfs a => Sys2Proof.Machine.execBfs a s
  | .bfa a => Sys2Proof.Machine.execBfa a s
  | .aclr x acc hk => Sys2Proof.Machine.execAclr x acc hk s
  | .anorm x acc hk => Sys2Proof.Machine.execAnorm x acc hk s
  | .adrain a => Sys2Proof.Machine.execAdrain a s
  | .aload x n m acc hk => Sys2Proof.Machine.execAload x n m acc hk s
  | .sdset x sd hk => Sys2Proof.Machine.execSdset x sd hk s
  | .chdrain y hk => Sys2Proof.Machine.execChdrain y hk s
  | .chload x hk => Sys2Proof.Machine.execChload x hk s
  | .scdrain y hk => Sys2Proof.Machine.execScdrain y hk s
  | .scload x hk => Sys2Proof.Machine.execScload x hk s
  | .scclr hk => Sys2Proof.Machine.execScclr hk s
  | .mpack c => Sys2Proof.Machine.execMpack c s
  | .mgen x y hk n g kc => Sys2Proof.Machine.execMgen x y hk n g kc s
  | .cload reg hk => Sys2Proof.Machine.execCload reg hk s
  | .eval x y reg hk => Sys2Proof.Machine.execEval x y reg hk s
  | .pupd x y hk => Sys2Proof.Machine.execPupd x y hk s
  | .cewait x clr => Sys2Proof.Machine.execCewait x clr s
  | .ceout x y reg mode hk => Sys2Proof.Machine.execCeout x y reg mode hk s
  | .reshard c => Sys2Proof.Machine.execReshard c s
  | .rswait x => Sys2Proof.Machine.execRswait x s
  | .rswaitRecv x y => Sys2Proof.Machine.execRswaitRecv x y s
  | .instructionDispatch => Sys2Proof.Machine.execInstructionDispatch s
  | .rangeCheckerRelease store ix => Sys2Proof.Machine.execRangeCheckerRelease store ix s
  | .landAt => Sys2Proof.Machine.execLandAt s
  | .accessDataReturn ix => Sys2Proof.Machine.execAccessDataReturn ix s
  | .ldqAccess ix => Sys2Proof.Machine.execLdqAccess ix s
  | .stqItemWrite q => Sys2Proof.Machine.execStqItemWrite q s
  | .streamItemFetch delay => Sys2Proof.Machine.execStreamItemFetch delay s
  | .outputStreamWrite q => Sys2Proof.Machine.execOutputStreamWrite q s
  | .memorySideWriteComplete ix => Sys2Proof.Machine.execMemorySideWriteComplete ix s
  | .barrierRelease launch => Sys2Proof.Machine.execBarrierRelease launch s
  | .copyCommandStart outbound => Sys2Proof.Machine.execCopyCommandStart outbound s
  | .copyCommandRetire outbound => Sys2Proof.Machine.execCopyCommandRetire outbound s
  | .reduceBinExchange others => Sys2Proof.Machine.execReduceBinExchange others s
  | .butterflyCommandStart => Sys2Proof.Machine.execButterflyCommandStart s
  | .butterflyCommandComplete => Sys2Proof.Machine.execButterflyCommandComplete s
  | .circuitCommandStart => Sys2Proof.Machine.execCircuitCommandStart s
  | .circuitCommandRetire => Sys2Proof.Machine.execCircuitCommandRetire s
  | .pageFetch page => Sys2Proof.Machine.execPageFetch page s
  | .reshardCommandStart => Sys2Proof.Machine.execReshardCommandStart s
  | .reshardCommandRetire => Sys2Proof.Machine.execReshardCommandRetire s
  | .subTransfer key gen sender ord cells => Sys2Proof.Machine.execSubTransfer key gen sender ord cells s
  | .subTransferAck ix => Sys2Proof.Machine.execSubTransferAck ix s
  | .completionRaised => Sys2Proof.Machine.execCompletionRaised s
  | .launchStart graph launch => Sys2Proof.Machine.execLaunchStart graph launch s
  | .phaseBoundary phase skip => Sys2Proof.Machine.execPhaseBoundary phase skip s
  | .unitSwitch => Sys2Proof.Machine.execUnitSwitch s
  | .differenceRecord words => Sys2Proof.Machine.execDifferenceRecord words s
  | .slotStbyWrite bind => Sys2Proof.Machine.execSlotStbyWrite bind s
  | .slotCtlPre => Sys2Proof.Machine.execSlotCtlPre s
  | .slotCtlCancel => Sys2Proof.Machine.execSlotCtlCancel s
  | .slotCtlEvict => Sys2Proof.Machine.execSlotCtlEvict s
  | .preemptionSave => Sys2Proof.Machine.execPreemptionSave s
  | .quantumExpiry => Sys2Proof.Machine.execQuantumExpiry s
  | .aging launch unit => Sys2Proof.Machine.execAging launch unit s
  | .checkpointInterval job => Sys2Proof.Machine.execCheckpointInterval job s
  | .hatchDeadlock => Sys2Proof.Machine.execHatchDeadlock s
  | .macroNoBoundary => Sys2Proof.Machine.execMacroNoBoundary s
  | .softErrorReplay xpipe => Sys2Proof.Machine.execSoftErrorReplay xpipe s
  | .machineCheck fab => Sys2Proof.Machine.execMachineCheck fab s
  | .translationWalk ix => Sys2Proof.Machine.execTranslationWalk ix s
  | .pageFault resume repairs => Sys2Proof.Machine.execPageFault resume repairs s
  | .transInv part spc base len => Sys2Proof.Machine.execTransInv part spc base len s
  | .prRequest src part va op => Sys2Proof.Machine.execPrRequest src part va op s
  | .jobringTail tail => Sys2Proof.Machine.execJobringTail tail s
  | .job => Sys2Proof.Machine.execJob s
  | .graph => Sys2Proof.Machine.execGraph s
  | .phaseEnd => Sys2Proof.Machine.execPhaseEnd s
  | .jobEnd => Sys2Proof.Machine.execJobEnd s
  | .load req => Sys2Proof.Machine.execLoad req s
  | .cancel ctr => Sys2Proof.Machine.execCancel ctr s
  | .resync buf => Sys2Proof.Machine.execResync buf s
  | .attest buf => Sys2Proof.Machine.execAttest buf s
  | .svnBump msg sig => Sys2Proof.Machine.execSvnBump msg sig s
  | .bbread buf => Sys2Proof.Machine.execBbread buf s
  | .bbclear => Sys2Proof.Machine.execBbclear s
  | .partition buf => Sys2Proof.Machine.execPartition buf s
  | .release ctr => Sys2Proof.Machine.execRelease ctr s
  | .tlbinv part spc base len => Sys2Proof.Machine.execTlbinv part spc base len s
  | .hostMemAccess addr n data => Sys2Proof.Machine.execHostMemAccess addr n data s
  | .flit port bytes => Sys2Proof.Machine.execFlit port bytes s
  | .linkDown port => Sys2Proof.Machine.execLinkDown port s
  | .linkTraining port => Sys2Proof.Machine.execLinkTraining port s
  | .scrub level core addr found => Sys2Proof.Machine.execScrub level core addr found s
  | .thermalThrottle => Sys2Proof.Machine.execThermalThrottle s
  | .throttleRestore => Sys2Proof.Machine.execThrottleRestore s
  | .fatalError => Sys2Proof.Machine.execFatalError s
  | .boot image digest sig svn => Sys2Proof.Machine.execBoot image digest sig svn s
  | .registerWrite r x => Sys2Proof.Machine.execRegisterWrite r x s
  | .ldscAccess ix => Sys2Proof.Machine.execLdscAccess ix s
  | .linkReplay port => Sys2Proof.Machine.execLinkReplay port s
  | .sidePathCommandComplete => Sys2Proof.Machine.execSidePathCommandComplete s

end Sys2Proof.Machine
end

