-- ==== Sys2Proof/Machine/Turn.lean ====
section
/-! DEFINITION. One turn of the machine: what the device does by itself, the issue of the pipes' heads, and what follows a group that
has been dispatched, the requests that are taken, and the Hearth's and the world's turns (R16, R17, R20, R126, R168, R320, R322, R350). Which of several enabled actions comes first the spec leaves open; the agenda
can choose otherwise (notes/assumptions/5.md). -/

namespace Sys2Proof.Machine

/-- An operation of the device, which no word encodes. -/
def isEvent (i : Instr) : Bool := i.word == 0

/-- Go on in the next state. -/
def andThen (o : Out) (k : State → Out) : Out :=
  match o with
  | .next s => k s
  | r => r

/-- Go on unless the group waits or has trapped. -/
def ifLive (o : Out) (k : State → Out) : Out := andThen o fun s => if s.core.fe.cur.dead then .next s else k s

/-! ### What the device does by itself -/

/-- The event that ends an access. -/
def accEvent (a : Acc × Nat) : Instr :=
  match a.1.kind with
  | .load _ _ | .amo _ _ => .accessDataReturn a.2
  | .ldq _ _ _ => .ldqAccess a.2
  | .ldsc _ _ => .ldscAccess a.2

/-- The places of a list. -/
def places {α : Type} (l : List α) : List Nat := List.range l.length

/-- Events of accesses, queue stores, streams and writes in flight. -/
def Core.accEvents (c : Core) : List Instr :=
  (places c.lsu.heldSt).map (.rangeCheckerRelease true) ++ (places c.lsu.acc).map (.rangeCheckerRelease false) ++
    (c.lsu.acc.zip (places c.lsu.acc)).map accEvent ++
    (((List.finRange 4).filter fun q => !(c.qs.taker[q]).isEmpty).flatMap fun q => [.stqItemWrite q, .outputStreamWrite q]) ++
    (if c.qs.lin.toList.any fun l => !l.isEmpty then [.streamItemFetch 0] else []) ++
    (places c.lsu.ms).map .memorySideWriteComplete ++ (places c.lsu.walks).map .translationWalk

/-- Events by which commands of the engines end. -/
def Core.endEvents (c : Core) : List Instr :=
  (if c.eng.side.isEmpty then [] else [.sidePathCommandComplete]) ++
    (if (c.eng.q[(0 : Fin 5)]).isEmpty then [] else [.copyCommandRetire false]) ++
    (if (c.eng.q[(1 : Fin 5)]).isEmpty then [] else [.copyCommandRetire true]) ++
    (if (c.eng.q[(2 : Fin 5)]).isEmpty then [] else [.butterflyCommandComplete]) ++
    (if (c.eng.q[(3 : Fin 5)]).isEmpty then [] else [.circuitCommandRetire]) ++
    (if (c.eng.q[(4 : Fin 5)]).isEmpty then [] else [.reshardCommandRetire]) ++ c.circ.flight.map .pageFetch

/-- Events by which commands of the engines start. -/
def Core.startEvents (c : Core) : List Instr :=
  (if (c.eng.q[(0 : Fin 5)]).isEmpty then [] else [.copyCommandStart false]) ++
    (if (c.eng.q[(1 : Fin 5)]).isEmpty then [] else [.copyCommandStart true]) ++
    (if (c.eng.q[(2 : Fin 5)]).isEmpty then [] else [.butterflyCommandStart]) ++
    (if (c.eng.q[(3 : Fin 5)]).isEmpty then [] else [.circuitCommandStart]) ++
    (if (c.eng.q[(4 : Fin 5)]).isEmpty then [] else [.reshardCommandStart])

/-- Events of the unit as a whole. -/
def State.unitEvents (s : State) : List Instr :=
  let f := s.core.fe
  (if f.barrier.isSome then [.barrierRelease s.lctr] else []) ++ (if f.unit == .ending then [.completionRaised] else []) ++
    (if f.preReq.isSome && f.mac.isSome then [.macroNoBoundary] else []) ++
    (if 2 ^ 20 ≤ f.stall then [.hatchDeadlock] else []) ++ (if bindV s.core.slot.stby.toNat then [.unitSwitch] else [])

/-- Sub-transfers of this core to its own device, and those that a unit which is no more has left, and their acknowledgements (R29, R305,
R306). -/
def State.ownTransfers (s : State) : List Instr :=
  ((s.inFlight ++ s.pkg.rsFly.filter fun f => f.core == noCore && !f.landed).filter fun f => f.fab == s.pkg.fabric.toNat % 256).map fun f =>
    if f.landed then .subTransferAck f.ix else .subTransfer f.key f.gen f.sender f.ord f.cells

/-- What may happen by itself. -/
def State.deviceEvents (s : State) : List Instr :=
  s.core.accEvents ++ s.core.endEvents ++ s.ownTransfers ++ s.core.startEvents ++ s.unitEvents

/-- The first of the events that is enabled happens. -/
def firstNext (s : State) : List Instr → Option State
  | [] => none
  | i :: is =>
    match exec i s with
    | .next t => some t
    | _ => firstNext s is

/-- The next state by something that the device does by itself: the Hearth pre-empts the unit for one of a higher class, or an event happens,
unless a request for pre-emption can be taken, which comes before both (R320, R323). -/
def State.device (s : State) : Option State :=
  if s.preTakeable then none
  else match s.higherClass with
    | some t => some t
    | none => firstNext s s.deviceEvents

/-! ### Issue -/

/-- The prefixes of a group, then the word that they govern (R69, R71). -/
def State.runGroup (s : State) (c : Slot) : Out :=
  let s := s.fe fun f => { f with cur := { c with ximm := none, stamp := none, dead := false } }
  let o : Out := match c.stamp with | some t => exec (.stamp t) s | none => .next s
  let o := match c.ximm with | some v => andThen o (exec (.ximm v)) | none => o
  andThen o (exec c.instr)

/-- The next word of the kernel issues, or is squashed and only takes its X-cycle (R168). -/
def State.kernelTurn (s : State) (k : Slot) : Out :=
  let st := s.core.sys.loopState
  match k.kernel[wfld st 43 6]? with
  | none => .next s.nextWord
  | some i =>
    let s := s.fe fun f => { f with cur := { k with instr := i, kernel := [], ximm := none, stamp := none, dead := false } }
    let o : Out := if squashed st (guardField i) then s.xIssue [] none fun _ t _ => .next t else exec i s
    ifLive o fun t => .next t.nextWord

/-- The head of the A-pipe's queue issues. -/
def State.issueA (s : State) : Out :=
  match s.core.fe.aq with
  | c :: rest => (s.fe fun f => { f with aq := rest }).runGroup c
  | [] => .next s

/-- The next instruction of the X-pipe issues. -/
def State.issueX (s : State) : Out :=
  match s.core.fe.kernel, s.core.fe.xq with
  | some k, _ => s.kernelTurn k
  | none, c :: rest => (s.fe fun f => { f with xq := rest }).runGroup c
  | none, [] => .next s

/-- Nothing stops the unit's issue. -/
def Front.active (f : Front) : Bool := f.unit == .running || f.unit == .ending

/-- The A-pipe may try its head in this cycle. -/
def Front.aReady (f : Front) : Bool := f.active && !f.aq.isEmpty && !f.aStall && !f.adone

/-- The X-pipe may try its next instruction in this X-cycle. -/
def Front.xReady (f : Front) : Bool := f.active && f.xHead && !f.xStall && !f.xIssued

/-- Of several engine causes the lowest PIPE is taken (R126 step 5). -/
def lowestCause : List EngCause → Option EngCause
  | [] => none
  | e :: es => match lowestCause es with
    | some f => if f.queue < e.queue then some f else some e
    | none => some e

/-- A held engine cause is taken at this instruction boundary (R126). -/
def State.takeCause (s : State) (e : EngCause) : State :=
  (s.fe fun f => { f with causes := f.causes.filter fun x => x != e }).engTrap e

/-- The place in program order of the X-pipe's next instruction. -/
def Front.xSeq (f : Front) : Option Nat :=
  match f.kernel with
  | some k => some k.seq
  | none => f.xq.head?.map (·.seq)

/-- A step has taken a trap, or has ended the unit by one. -/
def trapped (s t : State) : Bool := (t.core.fe.handler && !s.core.fe.handler) || (t.core.fe.unit == .ended && s.core.fe.unit != .ended)

/-- Of causes that arise in one cycle the earliest in program order is taken: an earlier cause of the X-pipe's next instruction comes
before one at place `seq`, which recurs or is held (R126 step 5). -/
def State.xFirst (s : State) (seq : Nat) : Option State :=
  if s.core.fe.xReady && s.core.fe.xSeq.any (· < seq) then
    match s.issueX with
    | .next t => if trapped s t then some t else none
    | _ => none
  else none

/-- The A-pipe's head issues; when it traps, an earlier cause of the X-pipe is taken instead. -/
def State.turnA (s : State) : Out :=
  match s.issueA with
  | .next t =>
    if trapped s t then .next ((s.xFirst ((s.core.fe.aq.head?.map (·.seq)).getD 0)).getD t) else .next t
  | r => r

/-- What follows a dispatch: the group issues at once when it is alone in its pipe. -/
def State.afterDispatch (s t : State) : Out :=
  let f := s.core.fe
  if f.aq.isEmpty && t.core.fe.aReady && !t.core.fe.aq.isEmpty then t.turnA
  else if f.xq.isEmpty && f.kernel.isNone && t.core.fe.xReady then t.issueX
  else .next t

/-- A request is there to be taken, or the unit's state to be saved once it has landed (R322, R323). -/
def State.saveDue (s : State) : Bool := s.preTakeable || (s.core.fe.unit == .saving && s.landed)

/-- The pipes' turn: a request or a cause is taken, a head issues, a group is dispatched, or the cycle ends. -/
def State.turn (s : State) : Out :=
  if s.saveDue then exec .preemptionSave s
  else
    match (if s.core.fe.active && !s.core.fe.handler then lowestCause s.core.fe.causes else none) with
    | some e => .next ((s.xFirst e.seq).getD (s.takeCause e))
    | none =>
      if s.core.fe.aReady then s.turnA
      else if s.core.fe.xReady then s.issueX
      else
        match s.dispatch with
        | some t => s.afterDispatch t
        | none => .next s.tick

/-- The turn that nothing on the agenda chooses. -/
def State.auto (s : State) : Out :=
  match s.device with
  | some t => .next t
  | none => s.turn

/-- Another core moves; its heads may try again. -/
def State.moveCore (s : State) (k : Nat) : Out :=
  match s.toCore k with
  | some t => .next (t.fe fun f => { f with aStall := false, xStall := false })
  | none => .fault (.notEnabled "core")

/-- A word takes an error (R360). -/
def State.upset (s : State) (p : Poison) (hard : Bool) : State :=
  s.pkgd fun g => if hard then { g with poison := p :: g.poison.filter (· != p) } else { g with weak := p :: g.weak.filter (· != p) }

/-- A turn of the agenda. -/
def State.runTurn (s : State) : Turn → Out
  | .outOfReset cold => .next (s.outOfReset cold)
  | .service part cls words => event "service" (s.service part cls words)
  | .patch k consts cell => event "patch" (s.patchTurn k consts cell)
  | .unload k => event "unload" (s.unloadTurn k)
  | .icinv => event "icinv" s.icinvTurn
  | .repair ws => event "repair" (s.repairTurn ws)
  | .event i => if isEvent i then exec i s else .fault (.notEnabled "event")
  | .step => s.turn
  | .issueX => if s.core.fe.active && s.core.fe.xHead && !s.preTakeable then s.issueX else .fault (.notEnabled "issueX")
  | .tick => .next s.tick
  | .core k => s.moveCore k
  | .upset p hard => .next (s.upset p hard)

/-! ### Placing an instruction to be fetched -/

/-- The page of the PC translates to itself. -/
def State.mapCode (s : State) : State :=
  let pc := s.core.fe.pc.toNat % 2 ^ 36
  let leaf : Word := BitVec.ofNat 64 (2 ^ 63 + 2 ^ 62 + 2 ^ 61 + pc / 2 ^ 16 * 2 ^ 16)
  s.lsu fun l => { l with utlb := ⟨s.partId, .cl, pc / 2 ^ 16, 16, leaf, 0, 0⟩ :: l.utlb }

/-- A running unit with nothing dispatched, whose next word is fetched at its PC. -/
def Front.readyAt (f : Front) : Front :=
  { f with unit := .running, pc := f.pc &&& BitVec.ofNat 64 (2 ^ 36 - 8), slot := 0, part := 0, hold := 0, aq := [], xq := [], kernel := none,
           mac := none, causes := [], block := false, serial := false, aStall := false, xStall := false, adone := false, xdone := false, xowed := false,
           skip := [], preReq := none, stall := 0, barrier := none, icache := [] }

/-- The micro-address at which a micro-form is placed. -/
def fetchUpc : Nat := 128

/-- The next instruction that is fetched is the word w; a form that is legal in the control store only is placed there (R78). -/
def State.placeWord (s : State) (w : Nat) : State :=
  let s := { s with agenda := [] }
  let s := s.fe Front.readyAt
  match decodeWord w with
  | .ok i =>
    if isMicro i then
      s.fe fun f => { f with mac := some ⟨{ Slot.idle with instr := .layer 0 0, pc := f.pc, next := f.pc + 8 }, fetchUpc⟩,
                             cstore := put f.cstore fetchUpc (BitVec.ofNat 64 w) }
    else
      let s := s.mapCode
      { s with mem := s.mem.putLe (keyCl s.core.fe.pc.toNat) 8 w }
  | .error _ =>
    let s := s.mapCode
    { s with mem := s.mem.putLe (keyCl s.core.fe.pc.toNat) 8 w }

end Sys2Proof.Machine
end

