-- ==== Sys2Proof/Machine/Step.lean ====
section
/-! DEFINITION. One step of the machine, and the placement of an instruction where the next step fetches. -/

namespace Sys2Proof.Machine

/-- One step: the turn that the agenda names, else the machine's own. -/
def step (s : State) : Host.Outcome State Fault Refusal :=
  match s.agenda with
  | t :: rest => State.runTurn { s with agenda := rest } t
  | [] => s.auto

/-- The instruction whose bits are w stands where `step` fetches next (notes/assumptions/11.md). -/
def State.withFetchWord (s : State) (nbits w : Nat) : State := s.placeWord (w % 2 ^ nbits)

end Sys2Proof.Machine
end

