-- ==== Sys2Proof/Safety.lean ====
section
/-! DEFINITION. The terms in which claims speak: a safe run, when an instruction may issue, what a step leaves as it was, and the
canonical form of every memory. -/

namespace Sys2Proof.Machine

/-! ### Runs -/

/-- The next step has a next state. -/
def State.goesOn (s : State) : Bool :=
  match step s with
  | .next _ => true
  | _ => false

/-- n steps, each with a next state. -/
def safeFor : Nat → State → Bool
  | 0, _ => true
  | n + 1, s =>
    match step s with
    | .next t => safeFor n t
    | _ => false

/-- An instruction or an operation of the device has a next state, and it is one of these. -/
def Answers (i : Instr) (s : State) (P : State → Prop) : Prop := ∃ t, exec i s = .next t ∧ P t

/-! ### When the A-pipe issues (R74, R130, R291, R311) -/

/-- The A-pipe may issue an instruction that reads the registers `rs` and writes the registers `ws`: no earlier instruction has a write pending to one of
them, the ready time of what is read has come, a STAMP that governs the instruction in Strict mode names
this cycle, and outside a handler no CEWAIT, RSWAIT or RSWAIT.RECV holds the pipe. -/
structure State.CanIssue (s : State) (rs ws : List GReg) : Prop where
  reads : ∀ r ∈ rs, s.pending r = none ∧ (r = 0 ∨ (s.core.regs.gReady[r] ≤ s.core.fe.cycle ∧ s.core.regs.gLat[r] ≤ s.core.fe.cycle))
  writes : ∀ r ∈ ws, s.pending r = none ∧ (r = 0 ∨ s.core.regs.gLat[r] ≤ s.core.fe.cycle)
  stamp : ∀ t, s.core.fe.cur.stamp = some t → s.strict = true → t = (s.core.sys.frame.setWidth 32)
  engines : s.core.fe.handler = false →
    s.core.fe.aFrom ≤ s.core.fe.cycle ∧
      ∀ c ∈ s.core.eng.q[(3 : Fin 5)] ++ s.core.eng.q[(4 : Fin 5)], holdsA c.instr = true → c.st = .done

/-! ### What a step leaves as it was -/

/-- Every general register but these reads as before. -/
def State.SameG (s t : State) (ds : List GReg) : Prop := ∀ r, r ∉ ds → t.g r = s.g r

/-- The registers of the X-pipe, its results in flight and the replay registers. -/
structure State.SameX (s t : State) : Prop where
  scalars : t.core.regs.s = s.core.regs.s
  vectors : t.core.regs.v = s.core.regs.v
  preds : t.core.regs.p = s.core.regs.p
  fly : t.core.regs.fly = s.core.regs.fly
  rpl : t.core.regs.rpl = s.core.regs.rpl

/-- Every byte of every memory that the core reaches reads as before. -/
structure State.SameBytes (s t : State) : Prop where
  mem : ∀ a, t.mem.read a = s.mem.read a
  sp : ∀ a, t.core.mems.sp.read a = s.core.mems.sp.read a
  loft : ∀ a, t.core.mems.loft.read a = s.core.mems.loft.read a
  cup : ∀ a, t.core.mems.cup.read a = s.core.mems.cup.read a
  acc : ∀ a, t.core.mems.acc.read a = s.core.mems.acc.read a
  chain : ∀ a, t.core.mems.chain.read a = s.core.mems.chain.read a

/-- The rest of the core, the other cores and the package: slot registers, planes, high-water mark, chain, circuit and reshard
state, replay point, package registers, agenda and the counter of free values. -/
structure State.SameRest (s t : State) : Prop where
  idx : t.core.idx = s.core.idx
  resident : t.core.resident = s.core.resident
  shadow : t.core.shadow = s.core.shadow
  slot : t.core.slot = s.core.slot
  lhwm : t.core.lhwm = s.core.lhwm
  link : t.core.link = s.core.link
  circ : t.core.circ = s.core.circ
  resh : t.core.resh = s.core.resh
  rsLast : t.core.rsLast = s.core.rsLast
  vuse : t.core.vuse = s.core.vuse
  prevJob : t.core.prevJob = s.core.prevJob
  planeLog : t.core.planeLog = s.core.planeLog
  replayAt : t.core.replayAt = s.core.replayAt
  others : t.others = s.others
  pkg : t.pkg = s.pkg
  agenda : t.agenda = s.agenda
  free : t.free = s.free

/-- Everything but the general registers and the front end. -/
structure State.Keeps (s t : State) : Prop where
  x : s.SameX t
  sys : t.core.sys = s.core.sys
  bytes : s.SameBytes t
  qs : t.core.qs = s.core.qs
  lsu : t.core.lsu = s.core.lsu
  eng : t.core.eng = s.core.eng
  rest : s.SameRest t

/-- The front end has noted that an A-pipe group issued in this cycle, and nothing else: mode, PC, queues and handler state are as
before. -/
def State.IssuedA (s t : State) : Prop :=
  t.core.fe = { s.core.fe with aStall := false, xStall := false, stall := 0, adone := true }

/-- An A-pipe instruction has written x to g[d], for dependents from n cycles later on, and nothing else; a write to g0 is
discarded (R130, R161). -/
structure State.WroteG (s : State) (d : GReg) (x : Word) (n : Nat) (t : State) : Prop where
  value : t.g d = if d = 0 then 0 else x
  other : s.SameG t [d]
  dirty : t.core.regs.gDirty = if d = 0 then s.core.regs.gDirty else s.core.regs.gDirty ||| BitVec.twoPow 32 d.val
  ready : t.core.regs.gLat[d] = s.core.fe.cycle + n
  keeps : s.Keeps t

/-- What the landing of results may change (R163): the registers of the X-pipe, FP.FLAGS, the store queues, the hatches, the
Cupboard and the count of X-cycles; all else is as before. -/
structure State.Landed (s t : State) : Prop where
  g : t.core.regs.g = s.core.regs.g
  gDirty : t.core.regs.gDirty = s.core.regs.gDirty
  gReady : t.core.regs.gReady = s.core.regs.gReady
  gLat : t.core.regs.gLat = s.core.regs.gLat
  rpl : t.core.regs.rpl = s.core.regs.rpl
  sys : t.core.sys = { s.core.sys with fpFlags := t.core.sys.fpFlags }
  fe : t.core.fe = { s.core.fe with xnow := t.core.fe.xnow, xdone := t.core.fe.xdone, xowed := t.core.fe.xowed,
                                    xahead := t.core.fe.xahead }
  qs : t.core.qs = { s.core.qs with sq := t.core.qs.sq, h := t.core.qs.h }
  lsu : t.core.lsu = s.core.lsu
  eng : t.core.eng = s.core.eng
  mems : t.core.mems = { s.core.mems with cup := t.core.mems.cup }
  mem : t.mem = s.mem
  rest : s.SameRest t

/-- A precise trap of a pipe is taken at the current group (R125, R126): TRAP.CAUSE names the cause and the pipe, TRAP.PC the
instruction; handler mode begins and fetch goes to TRAP.VEC; nothing that was dispatched remains; no general register and no byte of
the package's memory or the scratchpad has changed. -/
structure State.TookTrap (s : State) (pipe : Nat) (cause : Cause) (pc : Word) (t : State) : Prop where
  mode : t.core.fe.handler = true
  fetch : t.core.fe.pc = s.core.sys.trapVec &&& ~~~ 7
  code : wfld t.core.sys.trapCause 0 8 = cause.code
  pipe : wfld t.core.sys.trapCause 40 3 = pipe
  pc : t.core.sys.trapPc = pc
  aq : t.core.fe.aq = []
  xq : t.core.fe.xq = []
  regs : t.core.regs.g = s.core.regs.g
  mem : ∀ a, t.mem.read a = s.mem.read a
  sp : ∀ a, t.core.mems.sp.read a = s.core.mems.sp.read a

/-- The unit runs outside a handler, and TRAP.VEC names one (R125). -/
structure State.CanTrap (s : State) : Prop where
  user : s.core.fe.handler = false
  vec : wbit s.core.sys.trapVec 0 = true

/-- No register of a pipe, no queue and no memory has changed: only the front end moves. -/
structure State.WroteNone (s t : State) : Prop where
  regs : t.core.regs = s.core.regs
  keeps : s.Keeps t

/-- Fetch goes on at pc; the A-pipe has issued, and n cycles follow in which nothing dispatches (R113). -/
def State.Jumped (s : State) (pc : Word) (n : Nat) (t : State) : Prop :=
  t.core.fe = { s.core.fe with pc := pc, block := false, hold := n + 1, slot := 2, part := 0, aStall := false, xStall := false,
                               stall := 0, adone := true }

/-! ### Accesses of the A-pipe -/

/-- Every byte of an access lies in its space's window (R83, R84). -/
def State.InWindow (s : State) (spc : Space) (a n : Nat) : Prop := ∀ i, i < n → s.inWindow spc (a + i) = true

/-- No word of the memories has an error, and the .HS counts are off. -/
structure State.Quiet (s : State) : Prop where
  poison : s.pkg.poison = []
  weak : s.pkg.weak = []
  thr : wfld s.pkg.notify.thr 0 16 = 0

/-- What the checks and the reading of an access in a space may change beside its list: the Attic cache (R106), the note that the vault is
used (R327), the .HS counts and their notification records (R91), what a word with an error sets off (R360), and, of an access to another
device, its request's flit (R358). -/
structure State.Accessed (s : State) (spc : Space) (t : State) : Prop where
  regs : t.core.regs = s.core.regs
  sys : t.core.sys = s.core.sys
  fe : t.core.fe = { s.core.fe with unit := t.core.fe.unit, aStall := t.core.fe.aStall, xStall := t.core.fe.xStall,
                                    stall := t.core.fe.stall, adone := t.core.fe.adone }
  lsu : t.core.lsu = { s.core.lsu with attic := t.core.lsu.attic, acc := t.core.lsu.acc, ms := t.core.lsu.ms,
                                       heldSt := t.core.lsu.heldSt, porch := t.core.lsu.porch }
  eng : t.core.eng = s.core.eng
  loft : ∀ a, t.core.mems.loft.read a = s.core.mems.loft.read a
  cup : ∀ a, t.core.mems.cup.read a = s.core.mems.cup.read a
  acc : ∀ a, t.core.mems.acc.read a = s.core.mems.acc.read a
  chain : ∀ a, t.core.mems.chain.read a = s.core.mems.chain.read a
  quiet : s.Quiet → t.pkg = { s.pkg with links := t.pkg.links } ∧ t.core.fe.unit = s.core.fe.unit ∧ ∀ a, t.mem.read a = s.mem.read a
  unsent : s.Quiet → spc ≠ .pr → t.pkg.links = s.pkg.links ∧ t.free = s.free
  others : t.others = s.others
  agenda : t.agenda = s.agenda
  core : t.core.idx = s.core.idx ∧ t.core.resident = s.core.resident ∧ t.core.shadow = s.core.shadow ∧ t.core.slot = s.core.slot ∧
    t.core.lhwm = s.core.lhwm ∧ t.core.link = s.core.link ∧ t.core.circ = s.core.circ ∧ t.core.resh = s.core.resh ∧
    t.core.rsLast = s.core.rsLast ∧ t.core.prevJob = s.core.prevJob ∧ t.core.planeLog = s.core.planeLog ∧
    t.core.replayAt = s.core.replayAt

/-- A read access has begun (R138, R140): it is the last of the outstanding ones, and in Strict mode it has its ready time; no store
is among what has changed. -/
structure State.Began (s : State) (k : AccKind) (spc : Space) (a n : Nat) (ks : List Nat) (acq timed : Bool) (data : Option (List Byte))
    (t : State) : Prop where
  acc : t.core.lsu.acc = s.core.lsu.acc ++ [⟨k, spc, a, n, ks, acq, data, s.core.fe.cur.seq,
    if timed && s.strict then some (s.core.fe.cycle + s.pad (s.accClass spc a)) else none⟩]
  rest : s.Accessed spc t
  sp : ∀ x, t.core.mems.sp.read x = s.core.mems.sp.read x
  ms : t.core.lsu.ms = s.core.lsu.ms
  heldSt : t.core.lsu.heldSt = s.core.lsu.heldSt
  porch : t.core.lsu.porch = s.core.lsu.porch

/-- The data of a read at a place in program order that nothing holds (R94, R106): the bytes of the scratchpad; in a global space each byte
is the unit's own Porch byte or the byte of memory. A .CL load that the Attic cache may serve is left out here. -/
def State.ReadsNow (s : State) (spc : Space) (a n : Nat) (ks : List Nat) (acq : Bool) (seq : Nat) (data : Option (List Byte)) (t : State) : Prop :=
  match spc with
  | .sp => s.core.mems.sp.wf = true → data = some ((List.range n).map fun i => s.core.mems.sp.read (a + i))
  | spc => (spc = .cl → acq = true ∨ s.atticSize = 0) →
      data = some ((List.range n).map fun i => (s.porchByte spc (a + i) (ks.getD i 0) seq).getD (t.mem.read (ks.getD i 0)))

/-- An access waits at the range checker or by the landing check (R96, R150, R212). -/
def State.Held (s : State) (spc : Space) (a n : Nat) (ks : List Nat) : Prop :=
  if spc = .sp then s.spBlocked a n false s.core.fe.cur.seq = true else s.unlanded spc a n ks s.core.fe.cur.seq = true

/-! ### When the X-pipe issues, and what it sends (R158, R162, R163, R166) -/

/-- The X-pipe may issue an instruction with these sources and this destination: every item that it pops or peeks is present since an
earlier cycle, in Strict mode with its ready time reached, and has the tokens of its attached pops; a slot of its store queue is free;
and the X-cycle in which it would issue lands no push on a full hatch. -/
structure State.CanIssueX (s : State) (srcs : List XOp) (d : Option XDst) : Prop where
  items : ∀ (q : Fin 8) (j : Nat), (j < popCount srcs q ∨ (j = 0 ∧ XOp.peek q ∈ srcs)) →
    ∃ i, s.core.qs.lq[q][j]? = some i ∧ i.data ≠ none ∧ i.arrived < s.core.fe.cycle ∧ (s.strict = true → i.ready.getD 0 ≤ s.core.fe.cycle)
  toks : s.toksThere (s.neededToks srcs) = true
  room : ∀ q, d = some (.sq q) → s.core.qs.sq[q].length + s.flyTo q < 16
  clear : s.core.fe.xdone = true → ∀ r ∈ s.core.regs.fly, r.due ≤ s.core.fe.xnow + 1 → ∀ h ∈ r.pushes, s.core.qs.h[h].toks.length < 16

/-- A result that the X-pipe sends: where it lands, its value, the lanes that it writes, and the flags that it raises. -/
abbrev Result := FlyDst × Vec × Pred × BitVec 5

/-- The pushes of a store queue that wait for its next item before the current instruction. -/
def State.duePushes (u : State) (q : Fin 4) : List (Fin 16) :=
  (u.core.qs.spush[q].filter fun p => p.2 < u.core.fe.cur.seq).map (·.1)

/-- The places in program order of the results that go to store queues, in order. -/
def State.sqWrites (u : State) (rs : List Result) : List (Nat × Fin 4) :=
  rs.filterMap fun r => match r.1 with
    | .sq q => some (u.core.fe.cur.seq, q)
    | _ => none

/-- A result in flight after the latency of the current instruction, behind the results before it: its place among the writes of store
queues, and with the first item of a store queue the pushes that wait. -/
def State.flight (u : State) (before : List Result) (r : Result) : Fly :=
  ⟨r.1, r.2.1, r.2.2.1, u.core.fe.xnow + u.core.fe.cur.instr.latency, r.2.2.2, u.core.fe.cur.seq,
    u.core.fe.sq0.length + (u.sqWrites before).length,
    match r.1 with
    | .sq q => if before.isEmpty then u.duePushes q else []
    | _ => []⟩

/-- The results in flight of one instruction, in order. -/
def State.flights (u : State) : List Result → List Result → List Fly
  | _, [] => []
  | before, r :: rs => u.flight before r :: u.flights (before ++ [r]) rs

/-- The tokens that the items popped by these sources carry. -/
def State.takenToks (u : State) (srcs : List XOp) : List (Fin 16) :=
  (List.finRange 8).flatMap fun q => (u.core.qs.lq[q].take (popCount srcs q)).flatMap (·.pops)

/-- An instruction of the X-pipe has issued and has sent these results. `u` is the state in which its X-cycle has begun and what was due
has landed; against it the popped items have left their queues with their tokens, the results are in flight, and nothing else has
changed. -/
structure State.SentX (u : State) (srcs : List XOp) (rs : List Result) (t : State) : Prop where
  regs : t.core.regs = { u.core.regs with fly := u.core.regs.fly ++ u.flights [] rs }
  lq : ∀ q : Fin 8, t.core.qs.lq[q] = u.core.qs.lq[q].drop (popCount srcs q)
  toks : ∀ h : Fin 16, t.core.qs.h[h] = ⟨u.core.qs.h[h].bind, u.core.qs.h[h].toks.drop ((u.takenToks srcs).count h)⟩
  spush : ∀ q : Fin 4, t.core.qs.spush[q] =
    if (∃ r ∈ rs, r.1 = .sq q) then u.core.qs.spush[q].filter (fun p => !(p.2 < u.core.fe.cur.seq)) else u.core.qs.spush[q]
  qs : t.core.qs = { u.core.qs with lq := t.core.qs.lq, h := t.core.qs.h, spush := t.core.qs.spush }
  fe : t.core.fe = { u.core.fe with xdone := true, aStall := false, xStall := false, stall := 0,
                                    sq0 := u.core.fe.sq0 ++ u.sqWrites rs }
  sys : t.core.sys = u.core.sys
  lsu : t.core.lsu = u.core.lsu
  eng : t.core.eng = u.core.eng
  mems : t.core.mems = u.core.mems
  mem : t.mem = u.mem
  rest : u.SameRest t

/-- The results of a vector-class instruction: register k of a group goes to the register of its v code (R167, R168), or to a store
queue with its false lanes zero (R166). -/
def State.results (u : State) (d : XDst) (o : XOut) : List Result :=
  (o.regs.zip (List.range o.regs.length)).map fun r =>
    (u.vDst d r.2, BitVec.ofNat 4096 r.1.1, r.1.2, if r.2 = 0 then o.fl else 0)

/-- The scalar result of an instruction: lane 0 of the guard decides whether it is written (R68, R166, R194). -/
def State.scalarResult (u : State) (d : XDst) (g : Pred) (x : Nat) (fl : BitVec 5) : Result :=
  let on := g.getLsbD 0
  match d with
  | .sq q => (.sq q, BitVec.ofNat 4096 (if on then x % 2 ^ 32 else 0), g, if on then fl else 0)
  | _ => (u.vDst d 0, BitVec.ofNat 4096 (x % 2 ^ 32), g, if on then fl else 0)

/-- R191: a reduced value, broadcast to every element of width w of a v register or an item, or in an s register. -/
def State.reducedResult (u : State) (d : XDst) (w x : Nat) (fl : BitVec 5) : Result :=
  match d with
  | .s r => (.s r, BitVec.ofNat 4096 x, allTrue, fl)
  | _ => (u.vDst d 0, BitVec.ofNat 4096 (tabulate w (4096 / w) fun _ => x), allTrue, fl)

/-! ### Memories -/

/-- Every memory of a core has the canonical form. -/
structure Mems.Ok (m : Mems) : Prop where
  sp : m.sp.wf = true
  loft : m.loft.wf = true
  cup : m.cup.wf = true
  acc : m.acc.wf = true
  chain : m.chain.wf = true

/-- Every memory of the machine has the canonical form. -/
structure State.MemsOk (s : State) : Prop where
  mem : s.mem.wf = true
  core : s.core.mems.Ok
  others : ∀ c ∈ s.others, c.mems.Ok

end Sys2Proof.Machine
end

