-- ==== Sys2Proof/Certificates/Slice0/Obligations.lean ====
section
/-! DEFINITION. The statements about the model that the provers prove: one def for each, with the rule of spec/ that it formalises. -/

namespace Sys2Proof.Machine

/-! ### Integer arithmetic of the A-pipe -/

/-- R132, R133: the register forms, each with its value from x = g[a] and y = g[b] and the cycles after which dependents may issue. -/
def regForms (d a b : GReg) (x y : Word) : List (Instr × Word × Nat) :=
  let x' : BitVec 32 := x.setWidth 32
  let y' : BitVec 32 := y.setWidth 32
  let w (z : BitVec 32) : Word := z.signExtend 64
  let f (c : Bool) : Word := if c then 1 else 0
  [(.add .d d a b, x + y, 1), (.add .w d a b, w (x' + y'), 1),
   (.sub .d d a b, x - y, 1), (.sub .w d a b, w (x' - y'), 1),
   (.mul .d d a b, x * y, 3), (.mul .w d a b, w (x' * y'), 3),
   (.mulh .d d a b, ((x.signExtend 128 * y.signExtend 128) >>> 64).setWidth 64, 3),
   (.mulh .w d a b, w (((x'.signExtend 64 * y'.signExtend 64) >>> 32).setWidth 32), 3),
   (.and .d d a b, x &&& y, 1), (.and .w d a b, w (x' &&& y'), 1),
   (.or .d d a b, x ||| y, 1), (.or .w d a b, w (x' ||| y'), 1),
   (.xor .d d a b, x ^^^ y, 1), (.xor .w d a b, w (x' ^^^ y'), 1),
   (.shl .d d a b, x <<< (y.toNat % 64), 1), (.shl .w d a b, w (x' <<< (y.toNat % 32)), 1),
   (.shr .d d a b, x >>> (y.toNat % 64), 1), (.shr .w d a b, w (x' >>> (y.toNat % 32)), 1),
   (.sra .d d a b, x.sshiftRight (y.toNat % 64), 1), (.sra .w d a b, w (x'.sshiftRight (y.toNat % 32)), 1),
   (.min .d d a b, if x.sle y then x else y, 1), (.min .w d a b, w (if x'.sle y' then x' else y'), 1),
   (.max .d d a b, if x.sle y then y else x, 1), (.max .w d a b, w (if x'.sle y' then y' else x'), 1),
   (.cmp .eq d a b, f (x == y), 1), (.cmp .ne d a b, f (x != y), 1),
   (.cmp .lt d a b, f (x.slt y), 1), (.cmp .ge d a b, f (y.sle x), 1),
   (.cmp .ltu d a b, f (x.ult y), 1), (.cmp .geu d a b, f (y.ule x), 1)]

/-- R134: the immediate forms with their values; y is imm32 sign-extended, or under XIMM the 64-bit value whose low 32 bits are
imm32. -/
def immForms (d a : GReg) (i : BitVec 32) (x y : Word) : List (Instr × Word) :=
  let x' : BitVec 32 := x.setWidth 32
  let w (z : BitVec 32) : Word := z.signExtend 64
  let f (c : Bool) : Word := if c then 1 else 0
  [(.addi .d d a i, x + y), (.addi .w d a i, w (x' + i)),
   (.andi .d d a i, x &&& y), (.andi .w d a i, w (x' &&& i)),
   (.ori .d d a i, x ||| y), (.ori .w d a i, w (x' ||| i)),
   (.xori .d d a i, x ^^^ y), (.xori .w d a i, w (x' ^^^ i)),
   (.cmpi .eq d a i, f (x == y)), (.cmpi .ne d a i, f (x != y)),
   (.cmpi .lt d a i, f (x.slt y)), (.cmpi .ge d a i, f (y.sle x)),
   (.cmpi .ltu d a i, f (x.ult y)), (.cmpi .geu d a i, f (y.ule x))]

/-- R134: the shifts by an immediate. -/
def shiftForms (d a : GReg) (n : Fin 64) (x : Word) : List (Instr × Word) :=
  let x' : BitVec 32 := x.setWidth 32
  let w (z : BitVec 32) : Word := z.signExtend 64
  [(.shli .d d a n, x <<< n.val), (.shli .w d a n, w (x' <<< (n.val % 32))),
   (.shri .d d a n, x >>> n.val), (.shri .w d a n, w (x' >>> (n.val % 32))),
   (.srai .d d a n, x.sshiftRight n.val), (.srai .w d a n, w (x'.sshiftRight (n.val % 32)))]

/-- The word decodes to no instruction; where it would issue it takes ILLEGAL (R79). -/
def NoInstr (w : Nat) : Prop := ∃ e, decodeWord w = .error e

/-- The immediate of the current group: imm32 sign-extended, or the low 64 bits of the 82-bit number that XIMM's 50 bits and imm32
make (R73). -/
def immOf (s : State) (i : BitVec 32) : Word :=
  match s.core.fe.cur.ximm with
  | none => i.signExtend 64
  | some v => (v ++ i).setWidth 64

/-- R65, R133: a condition of two 64-bit values. -/
def condTrue (c : Cond) (x y : Word) : Bool :=
  match c with
  | .eq => x == y
  | .ne => x != y
  | .lt => x.slt y
  | .ge => y.sle x
  | .ltu => x.ult y
  | .geu => y.ule x

/-- The target of an AB offset from the branch word (R135). -/
def branchTo (s : State) (off : BitVec 36) : Word := s.core.fe.cur.next - 8 + 8 * off.signExtend 64

/-- The address operand of format AM (R77): the base register, the scaled index register, and disp28 sign-extended, or the 64-bit value
whose low 28 bits it is under XIMM (R73). -/
def opAddr (s : State) (m : MemOp) : Word :=
  s.g m.base + s.g m.idx * BitVec.ofNat 64 (2 ^ m.sc.val) +
    match s.core.fe.cur.ximm with
    | none => m.disp.signExtend 64
    | some v => (v ++ m.disp).setWidth 64

/-- R138: the value of a load from its little-endian bytes. -/
def loaded (sz : LdSize) (bs : List Byte) : Word :=
  let x : Word := BitVec.ofNat 64 (leNat bs)
  match sz with
  | .b => (x.setWidth 8).signExtend 64
  | .h => (x.setWidth 16).signExtend 64
  | .w => (x.setWidth 32).signExtend 64
  | .bu | .hu | .wu | .d => x

/-- The loads, each with its space and whether it acquires. -/
def loadForms (sz : LdSize) (acq : Bool) (d : GReg) (m : MemOp) : List (Instr × Space × Bool) :=
  [(.ldSp sz d m, .sp, false), (.ldAt sz acq d m, .at, acq), (.ldRa sz acq d m, .ra, acq), (.ldCl sz acq d m, .cl, acq),
   (.ldHs sz acq d m, .hs, acq), (.ldPr sz acq d m, .pr, acq)]

/-- The stores, each with its space and whether it is a memory-side write. -/
def storeForms (sz : StSize) (ms : Bool) (d : GReg) (m : MemOp) : List (Instr × Space × Bool) :=
  [(.stSp sz d m, .sp, false), (.stAt sz ms d m, .at, ms), (.stRa sz ms d m, .ra, ms), (.stCl sz ms d m, .cl, ms),
   (.stHs sz ms d m, .hs, ms), (.stPr sz ms d m, .pr, ms)]

/-- Byte i of a register. -/
def byteOf (x : Word) (i : Nat) : Byte := (x >>> (8 * i)).setWidth 8

/-- The AMOs but CAS, each with its operation. -/
def amoForms (spc : Space) (w acq : Bool) (d : GReg) (m : MemOp) : List (Instr × AmoOp) :=
  [(.amoAdd spc w acq d m, .add), (.amoAnd spc w acq d m, .and), (.amoOr spc w acq d m, .or), (.amoXor spc w acq d m, .xor),
   (.amoMin spc w acq d m, .min), (.amoMax spc w acq d m, .max), (.amoMinu spc w acq d m, .minu), (.amoMaxu spc w acq d m, .maxu),
   (.amoSwap spc w acq d m, .swap)]

/-- R142: the value that an AMO leaves at a location of s bytes that holds `old`, or none where CAS writes nothing. -/
def amoLeaves {n : Nat} (op : AmoOp) (old v new : BitVec n) : Option (BitVec n) :=
  match op with
  | .add => some (old + v)
  | .and => some (old &&& v)
  | .or => some (old ||| v)
  | .xor => some (old ^^^ v)
  | .min => some (if old.sle v then old else v)
  | .max => some (if old.sle v then v else old)
  | .minu => some (if old.ule v then old else v)
  | .maxu => some (if old.ule v then v else old)
  | .swap => some v
  | .cas => if old = v then some new else none

/-- A store is the only thing that an instruction does: what `Accessed` allows in its space, and no queue. -/
def StoreOnly (s : State) (spc : Space) (t : State) : Prop := s.Accessed spc t ∧ t.core.qs = s.core.qs ∧ t.core.lsu.acc = s.core.lsu.acc ∧ t.core.fe.adone = true

/-- The data of access ix has come back to g[d] (R138, R140, R142): it leaves the list, a reader waits for its ready time, and in Strict mode
an arrival after that time counts once in TIMING.LATE. Nothing else changes. -/
structure Returned (s : State) (ix : Nat) (a : Acc) (d : GReg) (x : Word) (t : State) : Prop where
  value : t.g d = if d = 0 then 0 else x
  other : s.SameG t [d]
  ready : d ≠ 0 → t.core.regs.gReady[d] = a.ready.getD 0
  late : t.core.sys = { s.core.sys with timingLate :=
    if (∃ r, a.ready = some r ∧ r < s.core.fe.cycle) ∧ s.core.sys.timingLate ≠ BitVec.allOnes 64 then s.core.sys.timingLate + 1
    else s.core.sys.timingLate }
  x : s.SameX t
  lsu : t.core.lsu = { s.core.lsu with acc := s.core.lsu.acc.eraseIdx ix }
  qs : t.core.qs = s.core.qs
  eng : t.core.eng = s.core.eng
  bytes : s.SameBytes t
  rest : s.SameRest t

/-- No line of a cache holds one of these bytes. -/
def NoLine (ks : List Nat) (l : Lsu) : Prop := ∀ x ∈ l.attic, ∀ k ∈ ks, ¬ (x.2.1 ≤ k ∧ k < x.2.1 + 256)

/-- A memory-side write has landed (R97, R106): write ix has left the list, no cache of the package holds a line of its bytes, no other byte of
memory has changed, and no register or queue. -/
structure Landed (s : State) (ix : Nat) (ks : List Nat) (t : State) : Prop where
  ms : t.core.lsu.ms = s.core.lsu.ms.eraseIdx ix
  heldSt : t.core.lsu.heldSt = s.core.lsu.heldSt
  porch : t.core.lsu.porch = s.core.lsu.porch
  other : ∀ k, k ∉ ks → t.mem.read k = s.mem.read k
  regs : t.core.regs = s.core.regs
  sys : t.core.sys = s.core.sys
  qs : t.core.qs = s.core.qs
  eng : t.core.eng = s.core.eng
  mems : t.core.mems = s.core.mems
  pkg : t.pkg = s.pkg
  others : t.others.length = s.others.length

/-- Bytes that have passed their checks are stored (R93, R97, R139): in the scratchpad these bytes and no others are written; with .MS they are
a memory-side write in flight; in the Porch what comes later in the unit reads them back, and every other byte of it as before. -/
def StoredTo (s : State) (spc : Space) (a : Nat) (ks : List Nat) (bs : List Byte) (ms : Bool) (seq : Nat) (t : State) : Prop :=
  (spc = .sp → (∀ x, t.core.mems.sp.read x = if a ≤ x ∧ x < a + bs.length then bs.getD (x - a) 0 else s.core.mems.sp.read x) ∧
    t.core.lsu.ms = s.core.lsu.ms ∧ t.core.lsu.porch = s.core.lsu.porch) ∧
  (spc ≠ .sp → ms = true → (∀ x, t.core.mems.sp.read x = s.core.mems.sp.read x) ∧
    t.core.lsu.ms = insertMs ⟨.put bs, ks, s.pathOf spc a, seq⟩ s.core.lsu.ms ∧ t.core.lsu.porch = s.core.lsu.porch) ∧
  (spc ≠ .sp → ms = false → (∀ x, t.core.mems.sp.read x = s.core.mems.sp.read x) ∧ t.core.lsu.ms = s.core.lsu.ms ∧
    (s.core.fe.byPhys = false → s.InWindow spc a bs.length → (∀ e ∈ s.core.lsu.porch, ∀ c ∈ e.cells, c.2.seq ≤ seq) →
      ∀ n, seq < n → (∀ i < bs.length, ∀ k, t.porchByte spc (a + i) k n = some (bs.getD i 0)) ∧
      (∀ x y k, (∀ i < bs.length, s.porchLoc x y ≠ s.porchLoc spc (a + i)) → t.porchByte x y k n = s.porchByte x y k n)))

/-- The rest of a step that moves items of the queues: no register, no status, no engine, nothing of the package but, of a write that goes to
another device, the flit of its request (R358). -/
structure QueueOnly (s : State) (sends : Prop) (t : State) : Prop where
  regs : t.core.regs = s.core.regs
  sys : t.core.sys = s.core.sys
  eng : t.core.eng = s.core.eng
  mem : ∀ a, t.mem.read a = s.mem.read a
  held : t.core.lsu.heldSt = s.core.lsu.heldSt
  acc : t.core.lsu.acc = s.core.lsu.acc
  others : t.others = s.others
  pkg : t.pkg = { s.pkg with links := t.pkg.links }
  unsent : ¬ sends → t.pkg = s.pkg

/-- R147: the shape in two registers; `none` where a RSVD bit is set. -/
def shapeIn (x y : Word) : Shape :=
  let s21 (z : BitVec 21) : Int := z.toInt
  ⟨if x.extractLsb' 48 3 = 0 then 512 else 64 * (x.extractLsb' 48 3).toNat, (x.extractLsb' 0 16).toNat, (x.extractLsb' 16 16).toNat,
    (x.extractLsb' 32 16).toNat, s21 (y.extractLsb' 0 21), s21 (y.extractLsb' 21 21), s21 (y.extractLsb' 42 21)⟩

/-- R147: item k of a stream starts at start + 4·(i0·S0 + i1·S1 + i2·S2), where k = i0 + (C0+1)·(i1 + (C1+1)·i2). -/
def itemStart (start : Word) (h : Shape) (k : Nat) : Int :=
  start.toNat + 4 * ((k % (h.c0 + 1) : Nat) * h.s0 + (k / (h.c0 + 1) % (h.c1 + 1) : Nat) * h.s1 + (k / (h.c0 + 1) / (h.c1 + 1) : Nat) * h.s2)

/-- Every byte of every item of a stream lies in its space's window (R148). -/
def ItemsIn (s : State) (spc : Space) (start : Word) (h : Shape) : Prop :=
  ∀ k < (h.c0 + 1) * (h.c1 + 1) * (h.c2 + 1), 0 ≤ itemStart start h k ∧ s.InWindow spc (itemStart start h k).toNat h.ilen

/-- An A-pipe instruction that acts on the queues alone: registers, memories, accesses and engines stay, and it has issued. -/
structure QueuesChanged (s t : State) : Prop where
  regs : t.core.regs = s.core.regs
  sys : t.core.sys = s.core.sys
  fe : s.IssuedA t
  lsu : t.core.lsu = s.core.lsu
  eng : t.core.eng = s.core.eng
  bytes : s.SameBytes t
  pkg : t.pkg = s.pkg
  others : t.others = s.others

/-! ### Waiting, fences, hatches and system registers -/

/-- The A-pipe's instruction waits (R16, R130): it stands again at the head of the A-pipe's queue, and nothing else has changed. -/
def WaitsA (s t : State) : Prop :=
  t = s.fe fun f => { f with aStall := true, aq := f.cur :: f.aq, cur := { f.cur with dead := true } }

/-- R100: the flags of a FENCE name a path (0 the own vault, 1 other vaults, 2 .CL, 3 .HS, 4 .PR); a FENCE without a flag names all. -/
def NamesPath (f : FenceFlags) (p : Nat) : Prop :=
  f = ⟨false, false, false, false, false, false⟩ ∨ (f.v = true ∧ p = 0) ∨ (f.h = true ∧ p = 1) ∨ (f.cl = true ∧ p = 2) ∨
    (f.hs = true ∧ p = 3) ∨ (f.pr = true ∧ p = 4)

/-- R100, R152: every memory-side write before the current instruction on one of these paths is complete, those of queue stores and of
output streams whose items have not landed among them. That a handler's FENCE waits for the writes in flight of the unit that it has interrupted, and
not for what the stopped X-pipe would have to land, is the model's choice (notes/assumptions/99.md). -/
def WritesDone (s : State) (named : Nat → Prop) : Prop :=
  (∀ w ∈ s.core.lsu.ms, w.seq < s.core.fe.cur.seq → ¬ named w.path) ∧
  ∀ (q : Fin 4), ∀ u ∈ s.core.qs.taker[q],
    match u with
    | .claim spc a _ _ ms n => ms = true → s.earlier s.core.fe.cur.seq n = true → ¬ named (s.pathOf spc a)
    | .stream u => u.ms = true → s.earlier s.core.fe.cur.seq u.seq = true →
        if u.spc = .ra then ¬ named 0 ∧ ¬ named 1 else ¬ named (s.pathOf u.spc u.start.toNat)

/-- R153: every load, store and stream item of the A-pipe before the current instruction has been performed or has entered the Porch. -/
def AllDone (s : State) : Prop :=
  let e (n : Nat) : Prop := s.earlier s.core.fe.cur.seq n = true
  (∀ a ∈ s.core.lsu.acc, e a.seq → a.data ≠ none) ∧ (∀ h ∈ s.core.lsu.heldSt, ¬ e h.seq) ∧ (∀ w ∈ s.core.lsu.ms, ¬ e w.seq) ∧
  (∀ (q : Fin 8), ∀ u ∈ s.core.qs.lin[q], ¬ e u.seq) ∧
  ∀ (q : Fin 4), ∀ u ∈ s.core.qs.taker[q],
    match u with
    | .claim _ _ _ _ _ n => ¬ e n
    | .stream u => ¬ e u.seq

/-- An A-pipe instruction has acted on the front end and on one table of the package at most: registers, queues, memories and engines stay. -/
structure FrontOnly (s t : State) : Prop where
  regs : t.core.regs = s.core.regs
  sys : t.core.sys = s.core.sys
  qs : t.core.qs = s.core.qs
  eng : t.core.eng = s.core.eng
  mems : t.core.mems = s.core.mems
  mem : t.mem = s.mem
  others : t.others = s.others

/-- R155: hN is bound, and its producer (or its consumer) is the unit with this code. -/
def BoundP (s : State) (h : Fin 16) (code : BitVec 3) : Prop :=
  s.core.qs.h[h].bind.getLsbD 7 = true ∧ s.core.qs.h[h].bind.extractLsb' 4 3 = code
def BoundC (s : State) (h : Fin 16) (code : BitVec 3) : Prop :=
  s.core.qs.h[h].bind.getLsbD 7 = true ∧ s.core.qs.h[h].bind.extractLsb' 0 3 = code

/-- R129: the system registers by their numbers. -/
def sysReg (y : Sys) (n : Nat) : Option Word :=
  if n < 0x100 then some (look 13 y.bankFmt n)
  else if n = 0x100 then some y.rmode
  else if n = 0x101 then some y.fpFlags
  else if n = 0x102 then some y.frame
  else if n = 0x103 then some y.timingLate
  else if n = 0x104 then some y.timingCtl
  else if 0x110 ≤ n ∧ n < 0x120 then y.timingPad[n - 0x110]?
  else if n = 0x120 then some y.loopState
  else if 0x124 ≤ n ∧ n < 0x128 then y.mloopStk[n - 0x124]?
  else if n = 0x130 then some y.trapCause
  else if n = 0x131 then some y.trapPc
  else if n = 0x132 then some y.trapOpc
  else if n = 0x133 then some y.trapMpc
  else if n = 0x134 then some y.trapUpc
  else if n = 0x135 then some y.trapCpc
  else if 0x136 ≤ n ∧ n < 0x13A then y.trapFoot[n - 0x136]?
  else if n = 0x13A then some y.trapQpos
  else if n = 0x13B then some y.trapInfo
  else if n = 0x13C then some y.trapVec
  else none

/-- R8: what a write of x leaves in a register of this number that held `old`: FP.FLAGS is W1C, and FRAME, the TIMING registers, MLOOP.STK,
TRAP.CPC, TRAP.FOOT, TRAP.QPOS and TRAP.INFO are RO. -/
def sysAfter (n : Nat) (old x : Word) : Word :=
  if n = 0x101 then old &&& ~~~ x
  else if n < 0x101 ∨ n = 0x120 ∨ (0x130 ≤ n ∧ n < 0x135) ∨ n = 0x13C then x
  else old

/-- R9: the bits of each register that are not RSVD (R37, R49, R55, R85, R120, R125, R169). -/
def sysBits (n : Nat) : Word :=
  if n < 0x100 then 0x10F
  else if n = 0x100 then 0x7
  else if n = 0x101 then 0x1F
  else if n = 0x104 then 0x1
  else if 0x110 ≤ n ∧ n < 0x120 then 0xFFFFF
  else if n = 0x120 then 0xFFFFFF00FFFFFFFF
  else if 0x124 ≤ n ∧ n < 0x128 then 0x83FFFFFFFFFFFFFF
  else if n = 0x130 then 0x707800000FF
  else if n = 0x134 then 0x1FFF
  else if n = 0x13A then 0xFFFFFFFFFF
  else if n = 0x13C then 0xFFFFFFFFFFFFFFF9
  else 0xFFFFFFFFFFFFFFFF

/-- R125, R169: the registers that WRSR reaches in handler mode only. -/
def HandlerReg (n : Nat) : Prop := n = 0x120 ∨ (0x130 ≤ n ∧ n ≤ 0x13C)

/-- A write of x to system register n is turned away (R9, R49, R125). -/
def BadWrite (s : State) (n : Nat) (x : Word) : Prop :=
  x &&& ~~~ sysBits n ≠ 0 ∨ (HandlerReg n ∧ s.core.fe.handler = false) ∨ (n = 0x100 ∧ 6 ≤ x.toNat % 8)

/-- Everything of a core but its front end and its system registers, and everything of the package (R128). -/
structure SysOnly (s t : State) : Prop where
  regs : t.core.regs = s.core.regs
  qs : t.core.qs = s.core.qs
  lsu : t.core.lsu = s.core.lsu
  eng : t.core.eng = s.core.eng
  bytes : s.SameBytes t
  rest : s.SameRest t

/-- The innermost active micro loop, or `none` (R119, R120). -/
def Innermost (s : State) (i : Fin 4) : Prop :=
  s.core.sys.mloopStk[i].getLsbD 63 = true ∧ ∀ j, i < j → s.core.sys.mloopStk[j].getLsbD 63 = false

/-- No micro loop is active. -/
def NoLoop (s : State) : Prop := ∀ i : Fin 4, s.core.sys.mloopStk[i].getLsbD 63 = false

end Sys2Proof.Machine

open Sys2Proof Sys2Proof.Machine

/-- R132, R133: every register form writes its value to g[d] and changes nothing else; a write to g0 is discarded. A word with a reserved SZ is no
instruction, and takes ILLEGAL. -/
def Obligations.IntegerRegisterForms : Prop :=
  (∀ (s : State) (d a b : GReg), s.CanIssue [a, b] [d] →
    ∀ p ∈ regForms d a b (s.g a) (s.g b), Answers p.1 s fun t => s.WroteG d p.2.1 p.2.2 t ∧ s.IssuedA t) ∧
  ∀ w, fld w 58 6 = 0x01 → ((fld w 50 8 ≤ 0x0B ∧ 2 ≤ fld w 32 3) ∨ (fld w 50 8 = 0x0C ∧ 6 ≤ fld w 32 3)) → NoInstr w

/-- R134: every immediate form writes its value to g[d] and changes nothing else. All but the shifts accept XIMM; a word with field b set,
a reserved SZ, a shift amount beyond the width, or, for LI, field a set is no instruction. -/
def Obligations.IntegerImmediateForms : Prop :=
  (∀ (s : State) (d a : GReg) (i : BitVec 32) (n : Fin 64),
    (s.CanIssue [a] [d] → ∀ p ∈ immForms d a i (s.g a) (immOf s i) ++ shiftForms d a n (s.g a),
      Answers p.1 s fun t => s.WroteG d p.2 1 t ∧ s.IssuedA t) ∧
    (s.CanIssue [] [d] → Answers (.li d i) s fun t => s.WroteG d (immOf s i) 1 t ∧ s.IssuedA t) ∧
    (∀ p ∈ immForms d a i (s.g a) (immOf s i), p.1.acceptsXimm = true) ∧ (Instr.li d i).acceptsXimm = true ∧
    ∀ p ∈ shiftForms d a n (s.g a), p.1.acceptsXimm = false) ∧
  ∀ w, fld w 58 6 = 0x02 →
    let min := fld w 50 8
    let sz := fld w 32 3
    (fld w 35 5 ≠ 0 → NoInstr w) ∧ (min < 0x0C → 2 ≤ sz → NoInstr w) ∧ (min = 0x0C → 6 ≤ sz → NoInstr w) ∧ (min = 0x10 → sz ≠ 0 ∨ fld w 40 5 ≠ 0 → NoInstr w) ∧
    (min ∈ [0x07, 0x08, 0x09] → fld w 6 26 ≠ 0 ∨ (sz = 1 ∧ fld w 5 1 = 1) → NoInstr w)

/-- R63, R135, R136: BR, CALL, JR and CALLR send fetch to their targets; CALL and CALLR write the address of the word after the group. A
branch that is resolved at its dispatch (R113) has sent fetch on there. The target of an AB offset is aligned like the branch. A misaligned register jump
takes ILLEGAL_OPERAND and writes no register. -/
def Obligations.BranchesAndJumps : Prop :=
  ∀ (s : State) (d a b : GReg) (off : BitVec 36) (i : BitVec 32) (c : Cond),
    let f := s.core.fe.cur
    let tgt := s.g a + immOf s i
    (f.next.toNat % 8 = 0 → (branchTo s off).toNat % 8 = 0) ∧
    (∀ n, (s.dispatchMem { f with instr := .br .always 0 0 off } n).core.fe.pc = branchTo s off ∧
      (s.dispatchMem { f with instr := .call a off } n).core.fe.pc = branchTo s off) ∧
    (s.CanIssue [] [] → Answers (.br .always a b off) s fun t =>
      s.WroteNone t ∧ if f.redirected then s.IssuedA t else s.Jumped (branchTo s off) 2 t) ∧
    (s.CanIssue [a, b] [] → Answers (.br (.cmp c) a b off) s fun t =>
      s.WroteNone t ∧ s.Jumped (if condTrue c (s.g a) (s.g b) then branchTo s off else f.next) 4 t) ∧
    (s.CanIssue [] [a] → Answers (.call a off) s fun t =>
      s.WroteG a f.next 1 t ∧ if f.redirected then s.IssuedA t else s.Jumped (branchTo s off) 2 t) ∧
    (s.CanIssue [a] [] → tgt.toNat % 8 = 0 → Answers (.jr a i) s fun t => s.WroteNone t ∧ s.Jumped tgt 4 t) ∧
    (s.CanIssue [a] [d] → tgt.toNat % 8 = 0 → Answers (.callr d a i) s fun t => s.WroteG d f.next 1 t ∧ s.Jumped tgt 4 t) ∧
    (s.CanTrap → tgt.toNat % 8 ≠ 0 →
      (s.CanIssue [a] [] → Answers (.jr a i) s fun t => s.TookTrap 1 .illegalOperand f.pc t) ∧
      (s.CanIssue [a] [d] → Answers (.callr d a i) s fun t => s.TookTrap 1 .illegalOperand f.pc t))

/-- R137, R138, R140: a load whose bytes lie in the window and translate begins its access, which stands last in the list of outstanding
ones; unless the range checker or the landing check holds it, it has its bytes. No register, no queue and no byte of memory changes. A
load into g0 performs its access as well. -/
def Obligations.LoadsBegin : Prop :=
  ∀ (s : State) (sz : LdSize) (acq : Bool) (d : GReg) (m : MemOp) (ks : List Nat),
    s.CanIssue [m.base, m.idx] [d] → s.core.lsu.acc.length < 32 →
    ∀ p ∈ loadForms sz acq d m,
      let a := (opAddr s m).toNat
      s.InWindow p.2.1 a (ldBytes sz) → s.keys p.2.1 a (ldBytes sz) false = .ok ks →
      Answers p.1 s fun t => t.core.qs = s.core.qs ∧ t.core.fe.adone = true ∧ ∃ data,
        s.Began (.load d sz) p.2.1 a (ldBytes sz) ks p.2.2 true data t ∧
        (s.Held p.2.1 a (ldBytes sz) ks → data = none) ∧
        (¬ s.Held p.2.1 a (ldBytes sz) ks → s.ReadsNow p.2.1 a (ldBytes sz) ks p.2.2 s.core.fe.cur.seq data t)

/-- R139, R93: a store whose bytes lie in the window and translate, and that no unfetched stream item holds back (R150). In the scratchpad
its bytes are written, or the store is held at the range checker; with .MS it becomes a memory-side write in flight; an ordinary store of a
global space enters the unit's Porch, where the unit reads it back, and memory is unchanged; a full Porch takes PORCH_FULL. -/
def Obligations.StoresWrite : Prop :=
  ∀ (s : State) (sz : StSize) (ms : Bool) (d : GReg) (m : MemOp) (ks : List Nat),
    s.CanIssue [d, m.base, m.idx] [] →
    ∀ p ∈ storeForms sz ms d m,
      let spc := p.2.1
      let a := (opAddr s m).toNat
      let n := stBytes sz
      let seq := s.core.fe.cur.seq
      let bs := (List.range n).map (byteOf (s.g d))
      s.InWindow spc a n → s.keys spc a n true = .ok ks → s.unfetched spc a n seq = false →
      (spc = .sp → s.spBlocked a n true seq = false → Answers p.1 s fun t => StoreOnly s spc t ∧
        (∀ x, t.core.mems.sp.read x = if a ≤ x ∧ x < a + n then byteOf (s.g d) (x - a) else s.core.mems.sp.read x) ∧
        t.core.lsu.ms = s.core.lsu.ms ∧ t.core.lsu.heldSt = s.core.lsu.heldSt ∧ t.core.lsu.porch = s.core.lsu.porch) ∧
      (spc = .sp → s.spBlocked a n true seq = true → Answers p.1 s fun t => StoreOnly s spc t ∧
        (∀ x, t.core.mems.sp.read x = s.core.mems.sp.read x) ∧
        t.core.lsu.heldSt = s.core.lsu.heldSt ++ [⟨a, bs, seq⟩] ∧ t.core.lsu.ms = s.core.lsu.ms ∧
        t.core.lsu.porch = s.core.lsu.porch) ∧
      (spc ≠ .sp → p.2.2 = true → Answers p.1 s fun t => StoreOnly s spc t ∧ (∀ x, t.core.mems.sp.read x = s.core.mems.sp.read x) ∧
        t.core.lsu.ms = insertMs ⟨.put bs, ks, s.pathOf spc a, seq⟩ s.core.lsu.ms ∧
        t.core.lsu.heldSt = s.core.lsu.heldSt ∧ t.core.lsu.porch = s.core.lsu.porch) ∧
      (spc ≠ .sp → p.2.2 = false → s.porchRoom spc a n = true → Answers p.1 s fun t => StoreOnly s spc t ∧
        (∀ x, t.core.mems.sp.read x = s.core.mems.sp.read x) ∧ t.core.lsu.ms = s.core.lsu.ms ∧
        t.core.lsu.heldSt = s.core.lsu.heldSt ∧
        (s.core.fe.byPhys = false → (∀ e ∈ s.core.lsu.porch, ∀ c ∈ e.cells, c.2.seq ≤ seq) →
          ∀ m', seq < m' → (∀ i < n, ∀ k, t.porchByte spc (a + i) k m' = some (byteOf (s.g d) i)) ∧
          (∀ x y k, (∀ i < n, s.porchLoc x y ≠ s.porchLoc spc (a + i)) → t.porchByte x y k m' = s.porchByte x y k m'))) ∧
      (spc ≠ .sp → p.2.2 = false → s.porchRoom spc a n = false → s.CanTrap → wfld s.pkg.notify.thr 0 16 = 0 →
        Answers p.1 s fun t => s.TookTrap 1 .porchFull s.core.fe.cur.pc t)

/-- R141, R142: an AMO whose address is aligned, in the window and translates goes to the memory side: a write in flight that carries the
operation and its values, and an outstanding access that will bring the old value. Nothing else changes before the memory side performs
it. -/
def Obligations.AmosIssue : Prop :=
  ∀ (s : State) (spc : Space) (w acq : Bool) (d n : GReg) (m : MemOp) (ks : List Nat),
    let len := if w then 4 else 8
    let seq := s.core.fe.cur.seq
    let low (x : Word) : Word := if w then (x.setWidth 32).setWidth 64 else x
    let goes (op : AmoOp) (a : Nat) (new : Word) (t : State) : Prop :=
      s.Accessed spc t ∧ t.core.qs = s.core.qs ∧ t.core.fe.adone = true ∧ (∀ x, t.core.mems.sp.read x = s.core.mems.sp.read x) ∧
      t.core.lsu.ms = insertMs ⟨.amo op w (low (s.g d)) (low new), ks, s.pathOf spc a, seq⟩ s.core.lsu.ms ∧
      t.core.lsu.acc = s.core.lsu.acc ++ [⟨.amo d w, spc, a, len, ks, acq, none, seq,
        if s.strict then some (s.core.fe.cycle + s.pad (s.accClass spc a)) else none⟩] ∧
      t.core.lsu.heldSt = s.core.lsu.heldSt ∧ t.core.lsu.porch = s.core.lsu.porch
    let ready (a : Nat) : Prop := s.core.lsu.acc.length < 32 ∧ s.unfetched spc a len seq = false ∧ s.InWindow spc a len ∧ a % len = 0 ∧
      s.keys spc a len true = .ok ks
    (s.CanIssue [d, m.base, m.idx] [d] → ready (opAddr s m).toNat →
      ∀ p ∈ amoForms spc w acq d m, Answers p.1 s (goes p.2 (opAddr s m).toNat 0)) ∧
    (s.CanIssue [d, n, m.base] [d] → let a := (opAddr s { m with idx := 0 }).toNat
      ready a → Answers (.amoCas spc w acq d n m.base m.disp) s (goes .cas a (s.g n)))

/-- R138, R140, R142, R150, R212: the data of a load or an AMO arrives in its register. The range checker lets a scratchpad access go when no
earlier access of its stream conflicts: a held store writes its bytes and no others, a held load reads, where no word of the memories has an
error. -/
def Obligations.DataReturns : Prop :=
  ∀ (s : State) (ix : Nat),
    (∀ (a : Sys2Proof.Machine.Acc) (b : List Byte), s.core.lsu.acc[ix]? = some a → a.data = some b →
      (∀ d sz, a.kind = .load d sz → Answers (.accessDataReturn ix) s (Returned s ix a d (loaded sz b))) ∧
      (∀ d w, a.kind = .amo d w → Answers (.accessDataReturn ix) s
        (Returned s ix a d (let x : Word := BitVec.ofNat 64 (leNat b); if w then (x.setWidth 32).signExtend 64 else x)))) ∧
    (∀ h, s.core.lsu.heldSt[ix]? = some h → s.spBlocked h.addr h.bytes.length true h.seq = false →
      Answers (.rangeCheckerRelease true ix) s fun t =>
        (∀ x, t.core.mems.sp.read x = if h.addr ≤ x ∧ x < h.addr + h.bytes.length then h.bytes.getD (x - h.addr) 0 else s.core.mems.sp.read x) ∧
        t.core.lsu = { s.core.lsu with heldSt := s.core.lsu.heldSt.eraseIdx ix } ∧ t.core.regs = s.core.regs ∧ t.core.sys = s.core.sys ∧
        t.core.qs = s.core.qs ∧ t.core.eng = s.core.eng ∧ t.mem = s.mem ∧ s.SameRest t) ∧
    (∀ a : Sys2Proof.Machine.Acc, s.core.lsu.acc[ix]? = some a → a.spc = .sp → a.data = none → s.spBlocked a.addr a.len false a.seq = false →
      s.pkg.poison = [] → s.pkg.weak = [] → s.core.mems.sp.wf = true →
      Answers (.rangeCheckerRelease false ix) s fun t =>
        let b := (List.range a.len).map fun i => s.core.mems.sp.read (a.addr + i)
        t.core.lsu = { s.core.lsu with acc := s.core.lsu.acc.set ix { a with data := some b } } ∧
        t.core.regs = s.core.regs ∧ t.core.sys = s.core.sys ∧ t.core.qs = s.core.qs ∧ t.core.eng = s.core.eng ∧ s.SameBytes t ∧ s.SameRest t)

/-- R95, R97, R99, R106, R142: a memory-side write that no earlier write over its path to its chunks precedes lands: a store's bytes stand at its
locations; an AMO leaves the value of its operation there, or nothing where CAS does not match, and its access holds the old value. The values of an AMO have its size, as `AmosIssue` gives them. -/
def Obligations.MemorySideWritesLand : Prop :=
  ∀ (s : State) (ix : Nat) (w : MsWrite), s.core.lsu.ms[ix]? = some w → s.msBehind ix w = false → s.moving w.keys = false → w.keys.Nodup →
    (∀ bs, w.op = .put bs → bs.length = w.keys.length → Answers (.memorySideWriteComplete ix) s fun t =>
      Landed s ix w.keys t ∧ w.keys.map t.mem.read = bs ∧ t.core.lsu.acc = s.core.lsu.acc ∧
      NoLine w.keys t.core.lsu ∧ ∀ c ∈ t.others, NoLine w.keys c.lsu) ∧
    (∀ op long v n, w.op = .amo op long v n → w.keys.length = (if long then 4 else 8) →
      let old := w.keys.map s.mem.read
      let bits := 8 * w.keys.length
      v.toNat < 2 ^ bits → n.toNat < 2 ^ bits → (∀ p ∈ s.pkg.poison, p.under w.keys = false) → Answers (.memorySideWriteComplete ix) s fun t =>
        Landed s ix w.keys t ∧
        leNat (w.keys.map t.mem.read) =
          ((amoLeaves op (BitVec.ofNat bits (leNat old)) (v.setWidth bits) (n.setWidth bits)).getD (BitVec.ofNat bits (leNat old))).toNat ∧
        (∀ (j : Nat) (a : Sys2Proof.Machine.Acc), s.core.lsu.acc[j]? = some a → t.core.lsu.acc[j]? = some
          (match a.kind with
           | .amo _ _ => if a.seq = w.seq ∧ a.data = none then { a with data := some old } else a
           | _ => a)))

/-- R143, R144, R145: LDQ reserves the next slot of its queue and begins its access, with the hatch pops that wait for the next item; LDSC reserves
entries of the scale queue behind every earlier one and begins its access; STQ claims the next item of its queue, and an ordinary one reserves
its place in the Porch, or takes PORCH_FULL. -/
def Obligations.QueueFormsIssue : Prop :=
  ∀ (s : State) (spc : Space) (acq ms : Bool) (q : Fin 8) (r : Fin 4) (len : Fin 8) (cnt : Fin 16) (m : MemOp) (ks : List Nat),
    let a := (opAddr s m).toNat
    let n := if len.val = 0 then 512 else 64 * len.val
    let c := 16 * (cnt.val + 1)
    let seq := s.core.fe.cur.seq
    s.CanIssue [m.base, m.idx] [] →
    (s.core.lsu.acc.length < 32 → s.core.qs.lq[q].length < 16 → s.core.qs.lin[q] = [] → s.InWindow spc a n → s.keys spc a n false = .ok ks →
      Answers (.ldq spc q len acq m) s fun t => t.core.fe.adone = true ∧
        t.core.qs = { s.core.qs with
          lq := s.core.qs.lq.set q.val (s.core.qs.lq[q] ++ [⟨seq, none, 0,
            if s.strict then some (s.core.fe.cycle + s.pad (s.accClass spc a)) else none, s.core.qs.lpop[q], false⟩])
          lpop := s.core.qs.lpop.set q.val [] } ∧ ∃ data,
        s.Began (.ldq q seq n) spc a n ks acq true data t ∧
        (s.Held spc a n ks → data = none) ∧ (¬ s.Held spc a n ks → s.ReadsNow spc a n ks acq seq data t)) ∧
    (s.core.lsu.acc.length < 32 → s.core.qs.scale.length + c ≤ 256 → s.scloadAhead = false → s.InWindow spc a (2 * c) →
      s.keys spc a (2 * c) false = .ok ks →
      Answers (.ldsc spc cnt m) s fun t => t.core.fe.adone = true ∧
        t.core.qs = { s.core.qs with scale := s.core.qs.scale ++ List.replicate c ⟨seq, seq, none⟩ } ∧ ∃ data,
        s.Began (.ldsc seq c) spc a (2 * c) ks false false data t ∧
        (s.Held spc a (2 * c) ks → data = none) ∧ (¬ s.Held spc a (2 * c) ks → s.ReadsNow spc a (2 * c) ks false seq data t)) ∧
    (s.core.qs.taker[r].any isStream = false → s.unfetched spc a n seq = false → s.InWindow spc a n → s.keys spc a n true = .ok ks →
      (spc = .sp ∨ ms = true ∨ s.porchRoom spc a n = true) →
      Answers (.stq spc r len ms m) s fun t => t.core.fe.adone = true ∧ s.Accessed spc t ∧
        t.core.qs = { s.core.qs with taker := s.core.qs.taker.set r.val (s.core.qs.taker[r] ++ [.claim spc a n ks ms seq]) } ∧
        (∀ x, t.core.mems.sp.read x = s.core.mems.sp.read x) ∧ t.core.lsu.acc = s.core.lsu.acc ∧ t.core.lsu.ms = s.core.lsu.ms ∧
        t.core.lsu.heldSt = s.core.lsu.heldSt ∧ (s.core.fe.byPhys = false → ∀ x y k m', t.porchByte x y k m' = s.porchByte x y k m')) ∧
    (s.core.qs.taker[r].any isStream = false → s.unfetched spc a n seq = false → s.InWindow spc a n → s.keys spc a n true = .ok ks →
      spc ≠ .sp → ms = false → s.porchRoom spc a n = false → s.CanTrap → wfld s.pkg.notify.thr 0 16 = 0 →
      Answers (.stq spc r len ms m) s fun t => s.TookTrap 1 .porchFull s.core.fe.cur.pc t)

/-- R143, R144, R145: LDQ, LDSC and STQ complete. Where the A-pipe may issue it, its range lies in the window and its translation is known, LDQ
runs with a place in its queue and in the list of accesses and no stream on the queue; LDSC with room for its entries and a place in the list, and
no SCLOAD before it; STQ with no stream on its queue, no earlier stream item on its bytes and, as an ordinary write, with room in the Porch. Each
leaves every register as it was; LDQ leaves one more item in its queue and no pop waiting for it, LDSC its entries, STQ one more claim. -/
def Obligations.QueueFormsComplete : Prop :=
  ∀ (s : State) (spc : Space) (m : MemOp) (ks : List Nat), s.CanIssue [m.base, m.idx] [] →
    let a := (opAddr s m).toNat
    (∀ (q : Fin 8) (len : Fin 8) (acq : Bool), let n := if len.val = 0 then 512 else 64 * len.val
      s.InWindow spc a n → s.keys spc a n false = .ok ks →
      s.core.lsu.acc.length < 32 → s.core.qs.lq[q].length < 16 → s.core.qs.lin[q] = [] →
      ∃ t, exec (.ldq spc q len acq m) s = .next t ∧ t.core.regs = s.core.regs ∧ t.core.fe.adone = true ∧
        t.core.qs.lq[q].length = s.core.qs.lq[q].length + 1 ∧ t.core.qs.lpop[q] = [] ∧
        t.core.lsu.acc.length = s.core.lsu.acc.length + 1) ∧
    (∀ cnt : Fin 16, let c := 16 * (cnt.val + 1)
      s.InWindow spc a (2 * c) → s.keys spc a (2 * c) false = .ok ks →
      s.core.lsu.acc.length < 32 → s.core.qs.scale.length + c ≤ 256 → s.scloadAhead = false →
      ∃ t, exec (.ldsc spc cnt m) s = .next t ∧ t.core.regs = s.core.regs ∧ t.core.fe.adone = true ∧
        t.core.qs.scale.length = s.core.qs.scale.length + c ∧ t.core.lsu.acc.length = s.core.lsu.acc.length + 1) ∧
    (∀ (r : Fin 4) (len : Fin 8) (ms : Bool), let n := if len.val = 0 then 512 else 64 * len.val
      s.InWindow spc a n → s.keys spc a n true = .ok ks →
      s.core.qs.taker[r].any isStream = false → s.unfetched spc a n s.core.fe.cur.seq = false →
      (spc = .sp ∨ ms = true ∨ s.porchRoom spc a n = true) →
      ∃ t, exec (.stq spc r len ms m) s = .next t ∧ t.core.regs = s.core.regs ∧ t.core.fe.adone = true ∧
        t.core.qs.taker[r].length = s.core.qs.taker[r].length + 1 ∧ t.core.lsu.acc = s.core.lsu.acc)

/-- R147, R148, R151, R158: STRM reads its shape, its start and the pops that wait, and its stream stands last on its queue; a RSVD bit or a start
that is no multiple of 4 takes ILLEGAL_OPERAND before anything else. STRM.STOP ends the streams of a load queue at once, and those of a store
queue once no landed item is left for the active one; a pop attached to a stream without an item waits for the next item again. -/
def Obligations.StreamsStartAndStop : Prop :=
  ∀ (s : State) (spc : Space) (ms : Bool) (q : Fin 8) (r : Fin 4) (i base : GReg) (disp : BitVec 28),
    let x := s.g i
    let y := s.g (i + 1)
    let start := opAddr s ⟨base, 0, 0, disp⟩
    let h := shapeIn x y
    let rsvd := x.extractLsb' 51 13 ≠ 0 ∨ y.getLsbD 63 = true
    (s.CanIssue [i, i + 1, base] [] → ¬ rsvd → start.toNat % 4 = 0 → ItemsIn s spc start h →
      (s.core.qs.lin[q].length < 2 → Answers (.strmIn spc q i base disp) s fun t =>
        t.core.qs = { s.core.qs with
          lin := s.core.qs.lin.set q.val (s.core.qs.lin[q] ++ [⟨spc, start, h, 0, false, s.core.fe.cur.seq, s.core.qs.lpop[q]⟩])
          lpop := s.core.qs.lpop.set q.val [] } ∧ QueuesChanged s t) ∧
      ((s.core.qs.taker[r].filter isStream).length < 2 → Answers (.strmOut spc ms r i base disp) s fun t =>
        t.core.qs = { s.core.qs with
          taker := s.core.qs.taker.set r.val (s.core.qs.taker[r] ++ [.stream ⟨spc, start, h, 0, ms, s.core.fe.cur.seq, []⟩]) } ∧
        QueuesChanged s t)) ∧
    (s.CanIssue [i, i + 1, base] [] → s.CanTrap → (rsvd ∨ start.toNat % 4 ≠ 0) →
      (Answers (.strmIn spc q i base disp) s fun t => s.TookTrap 1 .illegalOperand s.core.fe.cur.pc t) ∧
      (Answers (.strmOut spc ms r i base disp) s fun t => s.TookTrap 1 .illegalOperand s.core.fe.cur.pc t)) ∧
    (s.CanIssue [] [] → Answers (.strmStop false q) s fun t =>
      t.core.qs.lin[q] = [] ∧ (∀ p, p ≠ q → t.core.qs.lin[p] = s.core.qs.lin[p] ∧ t.core.qs.lpop[p] = s.core.qs.lpop[p]) ∧
      t.core.qs.lpop[q] = ((s.core.qs.lin[q].filter fun u => u.done == 0).flatMap fun u => u.pops) ++ s.core.qs.lpop[q] ∧
      t.core.qs = { s.core.qs with lin := t.core.qs.lin, lpop := t.core.qs.lpop } ∧ QueuesChanged s t) ∧
    (s.CanIssue [] [] → (s.core.qs.taker[r].any isStream = false ∨
        s.core.qs.sq[r].length ≤ (s.core.qs.taker[r].takeWhile fun u => !isStream u).length) →
      Answers (.strmStop true (Fin.castLE (by decide) r)) s fun t =>
        t.core.qs = { s.core.qs with taker := s.core.qs.taker.set r.val (s.core.qs.taker[r].filter fun u => !isStream u) } ∧ QueuesChanged s t)

/-- R144, R145, R149, R150: the data of an LDQ fills its slot, its bytes followed by zeros; that of an LDSC fills the entries that it reserved,
in address order, and no others; the A-pipe fetches the next item of the lowest-numbered load queue whose stream may fetch. -/
def Obligations.QueueItemsArrive : Prop :=
  ∀ (s : State) (ix : Nat) (a : Sys2Proof.Machine.Acc) (b : List Byte),
    (∀ q id len, s.core.lsu.acc[ix]? = some a → a.data = some b → a.kind = .ldq q id len → Answers (.ldqAccess ix) s fun t =>
      t.core.qs = { s.core.qs with lq := s.core.qs.lq.set q.val (s.core.qs.lq[q].map fun i =>
        if i.id = id ∧ i.data = none then { i with data := some (BitVec.ofNat 4096 (leNat b)), arrived := s.core.fe.cycle } else i) } ∧
      t.core.lsu = { s.core.lsu with acc := s.core.lsu.acc.eraseIdx ix } ∧ t.core.regs = s.core.regs ∧ t.core.eng = s.core.eng ∧
      s.SameBytes t ∧ s.SameRest t) ∧
    (∀ owner n, s.core.lsu.acc[ix]? = some a → a.data = some b → a.kind = .ldsc owner n →
      (s.core.qs.scale.filter fun e => e.owner == owner).length = n → Answers (.ldscAccess ix) s fun t =>
      ((t.core.qs.scale.filter fun e => e.owner == owner).map fun e => e.val) =
        ((List.range n).map fun k => some (BitVec.ofNat 16 ((b.getD (2 * k) 0).toNat + 256 * (b.getD (2 * k + 1) 0).toNat))) ∧
      (t.core.qs.scale.filter fun e => e.owner != owner) = (s.core.qs.scale.filter fun e => e.owner != owner) ∧
      t.core.qs.scale.map (fun e => (e.owner, e.seq)) = s.core.qs.scale.map (fun e => (e.owner, e.seq)) ∧
      t.core.qs = { s.core.qs with scale := t.core.qs.scale } ∧
      t.core.lsu = { s.core.lsu with acc := s.core.lsu.acc.eraseIdx ix } ∧ t.core.regs = s.core.regs ∧ t.core.eng = s.core.eng ∧
      s.SameBytes t ∧ s.SameRest t) ∧
    (∀ (q : Fin 8) (u : Stream) (us : List Stream) (delay : Nat) (ks : List Nat),
      let addr := (itemStart u.start u.shape u.done).toNat
      s.core.fe.sdone = false → (s.core.fe.unit = .running ∨ s.core.fe.unit = .ending) → s.core.qs.lin[q] = u :: us → s.core.qs.lq[q].length < 16 → s.itemFree u = true →
      (∀ p, p < q → ∀ v vs, s.core.qs.lin[p] = v :: vs → 16 ≤ s.core.qs.lq[p].length ∨ s.itemFree v = false) →
      s.keys u.spc addr u.shape.ilen false = .ok ks →
      Answers (.streamItemFetch delay) s fun t => ∃ item : LqItem, ∃ bs,
        t.core.qs = { s.core.qs with
          lq := s.core.qs.lq.set q.val (s.core.qs.lq[q] ++ [item])
          lin := s.core.qs.lin.set q.val
            (if u.done + 1 < (u.shape.c0 + 1) * (u.shape.c1 + 1) * (u.shape.c2 + 1) then { u with done := u.done + 1, pops := [] } :: us else us) } ∧
        item.data = some (BitVec.ofNat 4096 (leNat bs)) ∧ item.arrived = s.core.fe.cycle + delay ∧ item.pops = u.pops ∧
        s.ReadsNow u.spc addr u.shape.ilen ks false u.seq (some bs) t ∧ t.core.fe.sdone = true ∧ t.core.regs = s.core.regs ∧
        t.core.eng = s.core.eng ∧ t.core.mems = s.core.mems ∧ t.core.lsu.acc = s.core.lsu.acc ∧ t.core.lsu.ms = s.core.lsu.ms ∧
        t.core.lsu.porch = s.core.lsu.porch)

/-- R144, R149, R150: the item at the head of a store queue is written as a store: by the STQ that claims it, or by the active stream as its next
item. The item and its claim are gone, the stream counts on or has ended. -/
def Obligations.QueueItemsLeave : Prop :=
  ∀ (s : State) (q : Fin 4) (v : Vec) (vs : List Vec) (rest : List SqTaker), s.core.qs.sq[q] = v :: vs →
    (∀ spc a n ks ms seq, s.core.qs.taker[q] = .claim spc a n ks ms seq :: rest → n ≤ 512 → s.core.fe.unit ≠ .ended → (spc = .sp → s.spBlocked a n true seq = false) →
      Answers (.stqItemWrite q) s fun t =>
        StoredTo s spc a ks ((List.range n).map fun i => (v >>> (8 * i)).setWidth 8) ms seq t ∧ QueueOnly s (spc = .pr ∧ ms = true) t ∧
        t.core.qs = { s.core.qs with sq := s.core.qs.sq.set q.val vs, taker := s.core.qs.taker.set q.val rest }) ∧
    (∀ u ks, s.core.qs.taker[q] = .stream u :: rest →
      let a := (itemStart u.start u.shape u.done).toNat
      let n := u.shape.ilen
      n ≤ 512 → (s.core.fe.unit = .running ∨ s.core.fe.unit = .ending) → s.unfetched u.spc a n u.seq = false → (u.spc = .sp → s.spBlocked a n true u.seq = false) → s.keys u.spc a n true = .ok ks →
      (u.spc = .sp ∨ u.ms = true ∨ s.porchRoom u.spc a n = true) →
      Answers (.outputStreamWrite q) s fun t =>
        let more := u.done + 1 < (u.shape.c0 + 1) * (u.shape.c1 + 1) * (u.shape.c2 + 1)
        let left := (if more then [SqTaker.stream { u with done := u.done + 1, pops := [] }] else []) ++ rest
        StoredTo s u.spc a ks ((List.range n).map fun i => (v >>> (8 * i)).setWidth 8) u.ms u.seq t ∧ QueueOnly s (u.spc = .pr ∧ u.ms = true) t ∧ t.core.fe.sdone = true ∧
        t.core.qs = { s.core.qs with sq := s.core.qs.sq.set q.val vs, taker := s.core.qs.taker.set q.val left })

/-- R100, R101, R103, R152, R153, R154: FENCE ends when the writes that it names, and under .E the earlier engine commands, are complete, and waits
until then; AFENCE makes the Porch forward by physical address and drops the core's Attic lines; BAR arrives at the barrier of its launch once all
its memory-side writes are complete, waits, and goes on in the next generation, which begins when every unit of the gang that has not ended
has arrived; outside a gang it takes GANG_REQUIRED. -/
def Obligations.FencesAndBarrier : Prop :=
  (∀ (s : State) (f : FenceFlags) (sc : Scope), s.CanIssue [] [] →
    let none' : FenceFlags := ⟨false, false, false, false, false, false⟩
    let named (p : Nat) : Prop := NamesPath f p
    let engines : Prop := f.e = true ∨ f = none'
    let e (n : Nat) : Prop := s.earlier s.core.fe.cur.seq n = true
    let b := look ⟨0, []⟩ s.pkg.bars s.lctr
    (WritesDone s named → (engines → ∀ c ∈ s.commands, ¬ e c.seq) → Answers (.fence f sc) s fun t => s.WroteNone t ∧ s.IssuedA t) ∧
    (s.core.fe.cur.instr.isX = false → (¬ WritesDone s named ∨ (engines ∧ ∃ c ∈ s.commands, e c.seq)) → Answers (.fence f sc) s (WaitsA s)) ∧
    (AllDone s → Answers .afence s fun t => FrontOnly s t ∧ t.core.fe.byPhys = true ∧ t.core.fe.adone = true ∧ t.pkg = s.pkg ∧
      t.core.lsu = { s.core.lsu with attic := [] }) ∧
    (s.core.fe.cur.instr.isX = false → ¬ AllDone s → Answers .afence s (WaitsA s)) ∧
    (s.isGang = true → s.core.fe.barrier = none → WritesDone s (fun _ => True) → s.core.fe.cur.instr.isX = false →
      Answers .bar s fun t => FrontOnly s t ∧ t.core.lsu = s.core.lsu ∧ t.core.fe.barrier = some b.gen ∧ t.core.fe.adone = s.core.fe.adone ∧
        t.core.fe.aq.length = s.core.fe.aq.length + 1 ∧ t.pkg = { s.pkg with bars := put s.pkg.bars s.lctr ⟨b.gen, s.uctr :: b.arrived⟩ }) ∧
    (∀ g, s.isGang = true → s.core.fe.barrier = some g → b.gen ≠ g → Answers .bar s fun t => FrontOnly s t ∧ t.core.lsu = s.core.lsu ∧
      t.core.fe.barrier = none ∧ t.core.fe.aq = s.core.fe.aq ∧ t.core.fe.adone = true ∧ t.pkg = s.pkg) ∧
    (∀ g, s.isGang = true → s.core.fe.barrier = some g → b.gen = g → s.core.fe.cur.instr.isX = false → Answers .bar s (WaitsA s)) ∧
    (s.isGang = false → s.CanTrap → Answers .bar s fun t => s.TookTrap 1 .gangRequired s.core.fe.cur.pc t)) ∧
  ∀ (s : State) (launch : Nat), let b := look ⟨0, []⟩ s.pkg.bars launch
    b.arrived ≠ [] → (s.pkg.openUnits launch).length = (s.pkg.counter launch).outstanding → (∀ u ∈ s.pkg.openUnits launch, u ∈ b.arrived) →
    Answers (.barrierRelease launch) s fun t => FrontOnly s t ∧ t.core.lsu = s.core.lsu ∧
      t.pkg = { s.pkg with bars := put s.pkg.bars launch ⟨b.gen + 1, []⟩ }

/-- R156, R157, R158: HBIND writes the live binding of an empty hatch to which no push or pop is due, and takes ILLEGAL_OPERAND while it
holds tokens; HPUSH and HPOP of the A-pipe need the A-pipe as the hatch's producer or consumer, those of a queue the X-pipe; a push of the
A-pipe follows its retirement, a push of a store queue goes to the first later item written there, a pop of a load queue to its next item. -/
def Obligations.HatchForms : Prop :=
  ∀ (s : State) (h : Fin 16) (w : BitVec 8) (q : Fin 4) (r : Fin 8), s.CanIssue [] [] →
    let seq := s.core.fe.cur.seq
    let toks := s.core.qs.h[h].toks
    let illegal (i : Instr) : Prop := Answers i s fun t => s.TookTrap 1 .illegalOperand s.core.fe.cur.pc t
    (s.hatchBusy h = false → toks = [] → Answers (.hbind h w) s fun t =>
      t.core.qs = { s.core.qs with h := s.core.qs.h.set h.val ⟨w, []⟩ } ∧ QueuesChanged s t) ∧
    (s.hatchBusy h = false → toks ≠ [] → s.CanTrap → illegal (.hbind h w)) ∧
    (s.hatchBusy h = true → s.core.fe.cur.instr.isX = false → Answers (.hbind h w) s (WaitsA s)) ∧
    (BoundP s h 1 → Answers (.hpush h none) s fun t => FrontOnly s t ∧ t.core.lsu = s.core.lsu ∧ t.pkg = s.pkg ∧
      t.core.fe = { s.core.fe with aStall := false, xStall := false, stall := 0, adone := true, hpushes := s.core.fe.hpushes ++ [(h, seq, s.allWritten)] }) ∧
    (¬ BoundP s h 1 → s.CanTrap → illegal (.hpush h none)) ∧
    (BoundP s h 2 → (∀ p ∈ s.core.fe.sq0, ¬ (seq < p.1 ∧ p.2 = q)) → Answers (.hpush h (some q)) s fun t =>
      t.core.qs = { s.core.qs with spush := s.core.qs.spush.set q.val (s.core.qs.spush[q] ++ [(h, seq)]) } ∧ QueuesChanged s t) ∧
    (∀ n p, s.core.fe.sq0[n]? = some p → BoundP s h 2 → seq < p.1 → p.2 = q →
        (∀ m < n, ∀ p', s.core.fe.sq0[m]? = some p' → ¬ (seq < p'.1 ∧ p'.2 = q)) →
      (∀ l x l', s.core.regs.fly = l ++ x :: l' → x.ord = n → x.dst = .sq q → (∀ y ∈ l, ¬ (y.ord = n ∧ y.dst = .sq q)) →
        Answers (.hpush h (some q)) s fun t =>
          t.core.regs = { s.core.regs with fly := l ++ { x with pushes := x.pushes ++ [h] } :: l' } ∧ t.core.qs = s.core.qs ∧
          t.core.lsu = s.core.lsu ∧ t.core.sys = s.core.sys ∧ s.IssuedA t) ∧
      ((∀ y ∈ s.core.regs.fly, ¬ (y.ord = n ∧ y.dst = .sq q)) → toks.length < 16 → Answers (.hpush h (some q)) s fun t =>
        t.core.qs = { s.core.qs with h := s.core.qs.h.set h.val ⟨s.core.qs.h[h].bind, toks ++ [none]⟩ } ∧ QueuesChanged s t)) ∧
    (¬ BoundP s h 2 → s.CanTrap → illegal (.hpush h (some q))) ∧
    (∀ x rest, BoundC s h 1 → toks = x :: rest → x.getD 0 ≤ s.core.fe.cycle → Answers (.hpop h none) s fun t =>
      t.core.qs = { s.core.qs with h := s.core.qs.h.set h.val ⟨s.core.qs.h[h].bind, rest⟩ } ∧ QueuesChanged s t) ∧
    (BoundC s h 1 → toks = [] → s.core.fe.cur.instr.isX = false → Answers (.hpop h none) s (WaitsA s)) ∧
    (¬ BoundC s h 1 → s.CanTrap → illegal (.hpop h none)) ∧
    (BoundC s h 2 → Answers (.hpop h (some r)) s fun t =>
      t.core.qs = { s.core.qs with lpop := s.core.qs.lpop.set r.val (s.core.qs.lpop[r] ++ [h]) } ∧ QueuesChanged s t) ∧
    (¬ BoundC s h 2 → s.CanTrap → illegal (.hpop h (some r)))

/-- R160, R25: WAIT on a reference returns the counter's word: RD at once, FIN in a final state, LE also when no more children than g[b]
are left. A reference whose instance has been released returns STATE 7 alone; one with bits 63:24, of another job, or for FIN of an instance
that contains the unit, takes ILLEGAL_OPERAND. -/
def Obligations.WaitsOnCounters : Prop :=
  ∀ (s : State) (d a b : GReg), s.CanIssue [a, b] [d] →
    let ref := s.g a
    let c := s.pkg.counter (ref.toNat % 4096)
    let word : Word := BitVec.ofNat 64 (c.state * 2 ^ 61 + c.level * 2 ^ 58 + min c.failed 0xFFFFFF * 2 ^ 25 + c.outstanding)
    let final : Prop := c.state = 2 ∨ c.state = 4 ∨ c.state = 5
    let valid : Prop := ref.toNat < 2 ^ 24 ∧ c.gen % 4096 = ref.toNat / 4096
    let mine : Prop := c.job = (s.pkg.counter s.uctr).job
    let holdsMe : Prop := ref.toNat % 4096 ∈ chainOf s.pkg 5 s.uctr
    let gives (w : Word) (i : Instr) : Prop := Answers i s fun t => s.WroteG d w 1 t ∧
      t.core.fe = { s.core.fe with waitOn := none, aStall := false, xStall := false, stall := 0, adone := true }
    let waits (i : Instr) : Prop := Answers i s fun t => s.WroteNone t ∧ t.core.fe.waitOn = some ref ∧ t.core.fe.aStall = true ∧
      t.core.fe.aq.length = s.core.fe.aq.length + 1 ∧ t.core.fe.adone = s.core.fe.adone
    (valid → c.live = true → mine →
      gives word (.waitRd d a) ∧ (final → ¬ holdsMe → gives word (.waitFin d a)) ∧
      (final ∨ c.outstanding ≤ (s.g b).toNat → gives word (.waitLe d a b)) ∧
      (s.core.fe.cur.instr.isX = false →
        (¬ final → ¬ holdsMe → waits (.waitFin d a)) ∧ (¬ final → (s.g b).toNat < c.outstanding → waits (.waitLe d a b)))) ∧
    (ref.toNat < 2 ^ 24 → (¬ valid ∨ (c.live = false ∧ s.core.fe.waitOn ≠ some ref)) →
      ∀ i ∈ [Instr.waitRd d a, .waitFin d a, .waitLe d a b], gives (BitVec.ofNat 64 (7 * 2 ^ 61)) i) ∧
    (valid → c.live = false → s.core.fe.waitOn = some ref → ∀ i ∈ [Instr.waitRd d a, .waitFin d a, .waitLe d a b], gives word i) ∧
    (s.CanTrap → (2 ^ 24 ≤ ref.toNat ∨ (valid ∧ c.live = true ∧ ¬ mine)) →
      ∀ i ∈ [Instr.waitRd d a, .waitFin d a, .waitLe d a b], Answers i s fun t => s.TookTrap 1 .illegalOperand s.core.fe.cur.pc t) ∧
    (s.CanTrap → valid → c.live = true → holdsMe → Answers (.waitFin d a) s fun t => s.TookTrap 1 .illegalOperand s.core.fe.cur.pc t)

/-- R8, R9, R119, R125, R128, R129: RDSR reads the register of its number, in a layer program the loop stack as it stands when the word is reached; WRSR writes it and no other, by the access of its fields, and takes
ILLEGAL_OPERAND for a RSVD bit, a register of handler mode outside it, or a rounding mode that RMODE does not hold; an unassigned number
takes ILLEGAL_OPERAND. ICINV drops a line of the instruction cache. -/
def Obligations.SystemRegisters : Prop :=
  ∀ (s : State) (d a : GReg) (n : BitVec 16) (i : BitVec 32),
    let x := s.g a
    let illegal (i : Instr) : Prop := Answers i s fun t => s.TookTrap 1 .illegalOperand s.core.fe.cur.pc t
    let read : Sys := if s.core.fe.cur.upc = none then s.core.sys else { s.core.sys with mloopStk := s.core.fe.cur.stk }
    (∀ v, s.CanIssue [] [d] → sysReg read n.toNat = some v → (n.toNat = 0x101 → s.core.fe.mark = none ∧ ∀ r ∈ s.core.regs.fly, r.due ≤ s.core.fe.xnow) →
      Answers (.rdsr d n) s fun t => s.WroteG d v 1 t ∧
        t.core.fe = { s.core.fe with mark := none, aStall := false, xStall := false, stall := 0, adone := true }) ∧
    (s.CanIssue [] [d] → s.CanTrap → sysReg s.core.sys n.toNat = none → illegal (.rdsr d n)) ∧
    (∀ v, s.CanIssue [a] [] → s.core.fe.xq = [] → s.core.fe.kernel = none → sysReg s.core.sys n.toNat = some v → ¬ BadWrite s n.toNat x →
      (n.toNat < 0x100 → s.spBlocked (n.toNat * 16384) 16384 true s.core.fe.cur.seq = false) →
      Answers (.wrsr a n) s fun t => SysOnly s t ∧
        (∀ m, sysReg t.core.sys m = if m = n.toNat then some (sysAfter m v x) else sysReg s.core.sys m) ∧
        t.core.sys.sd = s.core.sys.sd ∧ t.core.sys.creg = s.core.sys.creg ∧ t.core.sys.atticCache = s.core.sys.atticCache ∧
        t.core.fe = { s.core.fe with block := false, slot := 2, aStall := false, xStall := false, stall := 0, adone := true }) ∧
    (∀ v, s.CanIssue [a] [] → s.core.fe.xq = [] → s.core.fe.kernel = none → s.CanTrap →
      (sysReg s.core.sys n.toNat = none ∨ (sysReg s.core.sys n.toNat = some v ∧ BadWrite s n.toNat x)) → illegal (.wrsr a n)) ∧
    (s.CanIssue [a] [] → Answers (.icinv a i) s fun t =>
      FrontOnly s t ∧ t.core.lsu = s.core.lsu ∧ t.pkg = s.pkg ∧ t.core.fe.pc = s.core.fe.pc ∧ t.core.fe.adone = true ∧
      let line := (x + immOf s i).toNat / 64
      ∀ l, l ∈ t.core.fe.icache ↔ l ∈ s.core.fe.icache ∧ l.1 % 2 ^ 50 ≠ line % 2 ^ 50)

/-- R73, R74, R125, R126, R128: XIMM and STAMP are held for the word that they govern. TRAP takes SOFTWARE with its code in TRAP.INFO: the trap
registers record the instruction and the X-pipe's resumption PC, results in flight go to the replay registers, everything dispatched is kept for ERET,
and fetch goes to TRAP.VEC. Without a handler the unit ends; in handler mode it ends with DOUBLE_TRAP. -/
def Obligations.PrefixesAndTrap : Prop :=
  ∀ (s : State) (v : BitVec 50) (c t32 : BitVec 32),
    let f := s.core.fe
    (Answers (.ximm v) s fun t => t = s.fe fun f => { f with cur := { f.cur with ximm := some v } }) ∧
    (Answers (.stamp t32) s fun t => t = s.fe fun f => { f with cur := { f.cur with stamp := some t32 } }) ∧
    (s.CanIssue [] [] → s.CanTrap → f.xdone = false → Answers (.trap c) s fun t => s.TookTrap 1 .software f.cur.pc t ∧
      t.core.sys.trapInfo = c.setWidth 64 ∧
      t.core.sys.trapOpc = (match f.kernel, f.xq with | some k, _ => k.pc | none, u :: _ => u.pc | none, [] => f.cur.pc) ∧
      wfld t.core.sys.trapCause 33 1 = (if f.cur.upc = none then 0 else 1) ∧ wfld t.core.sys.trapCause 31 1 = (if f.kernel = none then 0 else 1) ∧
      t.core.sys.trapMpc = (if f.cur.upc = none then 0 else f.cur.pc) ∧ t.core.sys.trapUpc = BitVec.ofNat 64 (f.cur.upc.getD 0 % 8192) ∧
      t.core.sys.trapVec = s.core.sys.trapVec ∧ t.core.regs.fly = [] ∧ t.core.regs.rpl = flyToRpl f.xnow s.core.regs.fly ∧
      t.core.qs = s.core.qs ∧ t.core.eng = s.core.eng ∧ t.core.lsu = s.core.lsu ∧ s.SameBytes t ∧ t.pkg = s.pkg ∧
      t.core.fe.resume = some ⟨1, f.cur.pc, t.core.sys.trapOpc, f.cur :: f.aq, f.xq, f.pc, f.kernel, f.mac.map fun m => (m.layer, m.upc), none,
        s.core.sys.mloopStk, f.seq, f.cur.upc⟩) ∧
    (s.CanIssue [] [] → f.handler = false → s.core.sys.trapVec.getLsbD 0 = false → Answers (.trap c) s fun t =>
      t.core.fe.unit = .ended ∧ wfld t.core.sys.trapCause 0 8 = 8 ∧ t.core.sys.trapPc = f.cur.pc ∧ t.core.regs.g = s.core.regs.g) ∧
    (s.CanIssue [] [] → f.handler = true → f.xdone = false → Answers (.trap c) s fun t =>
      t.core.fe.unit = .ended ∧ wfld t.core.sys.trapCause 0 8 = 0x23 ∧ t.core.sys.trapPc = s.core.sys.trapPc ∧ t.core.regs.g = s.core.regs.g)

/-- R36, R128, R370: DONE ends the stream: nothing more is dispatched, and the unit's counter shows the queues that still hold commands; in handler
mode it also ends handler mode. ERET outside handler mode takes ILLEGAL_OPERAND; with TRAP.PC and TRAP.OPC as recorded each pipe goes on with the words
kept for it and fetch where it stood; with both at one new value everything dispatched is dropped and fetch goes there. The replay registers
land again. -/
def Obligations.DoneAndEret : Prop :=
  ∀ (s : State), s.CanIssue [] [] →
    let f := s.core.fe
    let y := s.core.sys
    let again (t : State) : Prop := t.core.regs = { s.core.regs with
      fly := sortFly (s.core.regs.fly ++ s.core.regs.rpl.map fun x => { x with due := x.due + f.xnow }), rpl := [] }
    (f.handler = false → Answers .done s fun t => t.core.fe.unit = .ending ∧ t.core.fe.block = true ∧ t.core.fe.adone = true ∧
      t.core.regs = s.core.regs ∧ t.core.sys = y ∧ t.core.qs = s.core.qs ∧ t.core.lsu = s.core.lsu ∧ t.core.eng = s.core.eng ∧ s.SameBytes t ∧
      t.pkg = s.pkg.setCounter s.uctr { s.pkg.counter s.uctr with
        outstanding := (s.core.eng.q.toList.filter fun l => !l.isEmpty).length }) ∧
    (f.handler = true → s.core.eng.side = [] → f.causes = [] → (∀ r, f.resume = some r → r.held = none) → Answers .done s fun t =>
      t.core.fe.unit = .ending ∧ t.core.fe.block = true ∧ t.core.fe.handler = false ∧ t.core.fe.resume = none ∧ again t ∧ t.core.sys = y ∧
      t.core.lsu = s.core.lsu ∧ t.core.eng = s.core.eng ∧ s.SameBytes t) ∧
    (f.handler = true → s.core.eng.side ≠ [] → f.cur.instr.isX = false → Answers .done s (WaitsA s)) ∧
    (f.resume = none → s.CanTrap → Answers .eret s fun t => s.TookTrap 1 .illegalOperand f.cur.pc t) ∧
    (∀ r, f.handler = true → f.resume = some r → r.pipe ≠ 2 → s.core.eng.side = [] → f.xq = [] → f.kernel = none → s.core.regs.fly = [] →
      r.held = none → r.upc = none → r.kernel = none → y.trapCause.getLsbD 31 = false → y.trapCause.getLsbD 33 = false →
      (y.trapPc = r.pc → y.trapOpc = r.opc → Answers .eret s fun t =>
        t.core.fe.handler = false ∧ t.core.fe.resume = none ∧ t.core.fe.aq = r.aq ∧ t.core.fe.xq = r.xq ∧ t.core.fe.pc = r.fetch ∧
        t.core.fe.mac = (r.utop.map fun m => ⟨m.1, m.2⟩) ∧ t.core.fe.kernel = none ∧ again t ∧ t.core.sys = { y with mloopStk := r.stk } ∧
        s.SameBytes t ∧ t.pkg = s.pkg) ∧
      (y.trapPc = y.trapOpc → (y.trapPc ≠ r.pc ∨ y.trapOpc ≠ r.opc) → Answers .eret s fun t =>
        t.core.fe.handler = false ∧ t.core.fe.resume = none ∧ t.core.fe.aq = [] ∧ t.core.fe.xq = [] ∧ t.core.fe.pc = y.trapPc ∧
        t.core.fe.mac = none ∧ again t ∧ t.core.sys.mloopStk = Vector.replicate 4 0 ∧ wbit t.core.sys.loopState 63 = false ∧
        wfld t.core.sys.loopState 49 5 = wfld y.loopState 49 5 ∧ s.SameBytes t ∧ t.pkg = s.pkg))

/-- R114, R117, R118, R119: LAYER enters the macro whose directory word fits, with no micro loop active, and takes ILLEGAL_OPERAND otherwise; MBR goes
to its target or to the next micro-word, and the loops that end there count down; MLOOP opens a loop within the innermost one, or skips a body that
runs no time; MBND.END leaves the macro for the word after LAYER. -/
def Obligations.LayerPrograms : Prop :=
  ∀ (s : State) (kind : Fin 4) (entry : Fin 128) (c : Cond) (a b : GReg) (u : BitVec 13),
    let f := s.core.fe
    let w := look 0 f.cstore entry.val
    let stk := s.core.sys.mloopStk
    let here := f.cur.upc.getD 0
    let fits : Prop := w.getLsbD 63 = true ∧ w.toNat / 2 ^ 61 % 4 = kind.val ∧ 128 ≤ w.toNat % 8192
    let illegal (i : Instr) : Prop := Answers i s fun t => s.TookTrap 1 .illegalOperand f.cur.pc t
    let goes (i : Instr) (next : Nat) (stk' : Vector Word 4) (bnd seen : Bool) : Prop := Answers i s fun t => SysOnly s t ∧
      t.core.sys = { s.core.sys with mloopStk := stk' } ∧
      t.core.fe = { f with mac := f.mac.map fun m => { m with upc := next }, block := false, slot := 2, aStall := false, xStall := false, stall := 0,
                           adone := true, bnd := bnd, bndSeen := seen }
    let moves (i : Instr) (next : Nat) (bnd seen : Bool) : Prop :=
      let r := loopEnd here (activeLoops stk) stk next
      goes i r.1 r.2 bnd seen
    (s.CanIssue [] [] → fits → Answers (.layer kind entry) s fun t => SysOnly s t ∧
      t.core.sys = { s.core.sys with mloopStk := Vector.replicate 4 0 } ∧ t.core.fe.mac = some ⟨f.cur, w.toNat % 8192⟩ ∧ t.core.fe.block = false ∧
      t.core.fe.adone = true ∧ t.core.fe.pc = f.pc) ∧
    (s.CanIssue [] [] → ¬ fits → s.CanTrap → illegal (.layer kind entry)) ∧
    (s.CanIssue [a, b] [] → condTrue c (s.g a) (s.g b) = false → moves (.mbr c a b u) (here + 1) f.bnd f.bndSeen) ∧
    (s.CanIssue [a, b] [] → condTrue c (s.g a) (s.g b) = true → 128 ≤ u.toNat →
      (NoLoop s ∨ ∃ i, Innermost s i ∧ wfld stk[i] 45 13 ≤ u.toNat ∧ u.toNat ≤ wfld stk[i] 32 13) → moves (.mbr c a b u) u.toNat f.bnd f.bndSeen) ∧
    (s.CanIssue [a, b] [] → condTrue c (s.g a) (s.g b) = true → s.CanTrap →
      (u.toNat < 128 ∨ ∃ i, Innermost s i ∧ ¬ (wfld stk[i] 45 13 ≤ u.toNat ∧ u.toNat ≤ wfld stk[i] 32 13)) → illegal (.mbr c a b u)) ∧
    (s.CanIssue [a] [] → (s.g a).toNat < 2 ^ 32 → here < u.toNat →
      (s.g a = 0 → (NoLoop s ∨ ∃ i : Fin 4, i.val < 3 ∧ Innermost s i ∧ (∀ j ≤ i, stk[j].getLsbD 63 = true) ∧ wfld stk[i] 45 13 ≤ here + 1 ∧ u.toNat ≤ wfld stk[i] 32 13) →
        goes (.mloop a u) (u.toNat + 1) stk f.bnd f.bndSeen) ∧
      (s.g a ≠ 0 → ∀ k : Fin 4, (∀ j : Fin 4, stk[j].getLsbD 63 = true ↔ j < k) →
        (∀ i : Fin 4, i.val + 1 = k.val → wfld stk[i] 45 13 ≤ here + 1 ∧ u.toNat ≤ wfld stk[i] 32 13) → goes (.mloop a u) (here + 1)
          (stk.set k.val (BitVec.ofNat 64 (2 ^ 63 + (here + 1) * 2 ^ 45 + u.toNat * 2 ^ 32 + (s.g a).toNat))) f.bnd f.bndSeen)) ∧
    (s.CanIssue [a] [] → s.CanTrap → (2 ^ 32 ≤ (s.g a).toNat ∨ u.toNat ≤ here ∨ (∀ i : Fin 4, stk[i].getLsbD 63 = true)) → illegal (.mloop a u)) ∧
    (s.CanIssue [] [] → moves (.mbnd false) (here + 1) true true) ∧
    (s.CanIssue [] [] → NoLoop s → Answers (.mbnd true) s fun t => SysOnly s t ∧ t.core.sys = s.core.sys ∧ t.core.fe.mac = none ∧
      t.core.fe.pc = (f.mac.map (·.layer.next)).getD f.pc ∧ t.core.fe.bnd = true ∧ t.core.fe.bndSeen = true ∧ t.core.fe.block = false ∧ t.core.fe.adone = true) ∧
    (s.CanIssue [] [] → (∃ i, Innermost s i) → s.CanTrap → illegal (.mbnd true)) ∧
    (∀ (e n next : Nat) (v : Vector Word 4), loopEnd e [] v next = (next, v) ∧
      ∀ i x rest, wfld x 32 13 ≠ e → loopEnd e ((i, x) :: rest) v next = (next, v))

/-! ### The X-pipe -/

namespace Sys2Proof.Machine

/-- Element i of source k of an instruction, read in a type when it issues (R66, R67, R173). -/
def elemOf (u : State) (srcs : List XOp) (k : Nat) (ty : ElemTy) (i : Nat) : Nat := ((u.readAll [] srcs).getD k (.scal 0)).lane ty i

/-- What a scalar instruction reads of source k (R194). -/
def scalOf (u : State) (srcs : List XOp) (k : Nat) (ty : ElemTy) : Nat := ((u.readAll [] srcs).getD k (.scal 0)).sc ty

/-- R175: the sources of a rounding form: its operands, and C under SR. -/
def withRandom (s : State) (r : Rnd) (ops : List XOp) : List XOp := if s.mode r.rm = .sr then ops ++ [r.src] else ops

/-- R175: the random bits of element i, when source k is C, and their number. -/
def rhoOf (u : State) (rm : RM) (srcs : List XOp) (k i : Nat) : Nat := if u.mode rm = .sr then elemOf u srcs k .n16 (i % 256) else 0
def rOf (u : State) (rm : RM) : Nat := if u.mode rm = .sr then 16 else 0

/-- An instruction that may issue on the X-pipe completes: it sends these results. -/
def Sends (i : Instr) (s : State) (srcs : List XOp) (d : Option XDst) (rs : State → List Result) : Prop :=
  s.CanIssueX srcs d → Answers i s (s.startX.SentX srcs (rs s.startX))

/-- An instruction of the X-pipe takes a trap at issue: nothing is popped, written or flagged (R174), and what was due has landed. -/
def TrapsX (i : Instr) (s : State) (c : Cause) : Prop :=
  Answers i s fun t => s.startX.TookTrap 2 c ((s.core.fe.kernel.map (·.pc)).getD s.core.fe.cur.pc) t ∧ t.core.qs = s.startX.core.qs ∧
    t.core.regs.v = s.startX.core.regs.v ∧ t.core.regs.s = s.startX.core.regs.s ∧ t.core.regs.p = s.startX.core.regs.p

/-- The physical registers of a group of w registers that a code names (R167, R168). -/
def groupFrom (s : State) (w : Nat) : XOp → List (Fin 64)
  | .v n => (List.range w).map fun k => s.phys (Fin.ofNat 64 (n.val + k))
  | _ => []
def groupTo (s : State) (w : Nat) : XDst → List (Fin 64)
  | .v n => (List.range w).map fun k => s.phys (Fin.ofNat 64 (n.val + k))
  | _ => []

/-- R167: some register is in both. -/
def Meet (xs ys : List (Fin 64)) : Prop := ∃ r ∈ xs, r ∈ ys

/-- Element i of a source group of w registers: register i mod w, slot i div w (R167). -/
def groupElem (u : State) (a : XOp) (w : Nat) (ty : ElemTy) (i : Nat) : Nat :=
  lane ty.width (u.v ((groupFrom u w a).getD (i % w) 0)).toNat (i / w)

/-- The results of a conversion, or the fault that its guard-true elements give (R174). -/
def Converts (i : Instr) (s : State) (srcs : List XOp) (d : XDst) (fault : State → Option XFault) (o : State → XOut) : Prop :=
  (fault s.startX = none → Sends i s srcs (some d) fun u => u.results d (o u)) ∧
  (∀ e, fault s.startX = some e → s.CanTrap → s.CanIssueX srcs (some d) → TrapsX i s e.cause)

/-- The kernel of a loop has begun: LOOP.STATE holds its first pass, the stage predicates are loaded, and dispatch repeats it (R168 to R170). -/
structure LoopBegan (u : State) (n stages1 k1 : Nat) (t : State) : Prop where
  valid : wbit t.core.sys.loopState 63 = true
  stg : wfld t.core.sys.loopState 60 3 = stages1
  klen : wfld t.core.sys.loopState 54 6 = k1
  rb : wfld t.core.sys.loopState 49 5 = wfld u.core.sys.loopState 49 5
  slot : wfld t.core.sys.loopState 43 6 = 0
  pro : wfld t.core.sys.loopState 40 3 = 0
  remain : wfld t.core.sys.loopState 0 32 = n + stages1
  sys : t.core.sys = { u.core.sys with loopState := t.core.sys.loopState }
  preds : ∀ k : Fin 16, t.core.regs.p[k] = if k.val < 8 then u.core.regs.p[k] else if k.val = 8 then allTrue else 0
  regs : t.core.regs = { u.core.regs with p := t.core.regs.p, pDirty := u.core.regs.pDirty ||| 0xFF00 }
  fe : t.core.fe = { u.core.fe with xdone := true, aStall := false, xStall := false, stall := 0, kernel := some u.core.fe.cur }
  qs : t.core.qs = { u.core.qs with lq := t.core.qs.lq }
  lq : ∀ (q : Fin 8), t.core.qs.lq[q] = u.core.qs.lq[q]
  lsu : t.core.lsu = u.core.lsu
  eng : t.core.eng = u.core.eng
  mems : t.core.mems = u.core.mems
  mem : t.mem = u.mem
  rest : u.SameRest t

/-- RB has a new value (R169), and nothing else has changed but that the instruction issued. -/
structure Rotated (u : State) (b : Nat) (t : State) : Prop where
  rb : ∀ i < 64, wbit t.core.sys.loopState i = if 49 ≤ i ∧ i < 54 then b.testBit (i - 49) else wbit u.core.sys.loopState i
  sys : t.core.sys = { u.core.sys with loopState := t.core.sys.loopState }
  fe : t.core.fe = { u.core.fe with xdone := true, aStall := false, xStall := false, stall := 0 }
  regs : t.core.regs = u.core.regs
  qs : t.core.qs = { u.core.qs with lq := t.core.qs.lq }
  lq : ∀ (q : Fin 8), t.core.qs.lq[q] = u.core.qs.lq[q]
  lsu : t.core.lsu = u.core.lsu
  eng : t.core.eng = u.core.eng
  mems : t.core.mems = u.core.mems
  mem : t.mem = u.mem
  rest : u.SameRest t

/-- Byte i of a register of the X-pipe. -/
def byteAt (x : Vec) (i : Nat) : Byte := (x >>> (8 * i)).setWidth 8

/-- R196: the first n items of a load queue are present, and no more. -/
def PresentItems (u : State) (q : Fin 8) (n : Nat) : Prop :=
  let there (j : Nat) : Prop := ∃ i, u.core.qs.lq[q][j]? = some i ∧ i.data ≠ none ∧ i.arrived < u.core.fe.cycle ∧
    (u.strict = true → i.ready.getD 0 ≤ u.core.fe.cycle)
  (∀ j < n, there j) ∧ ¬ there n ∧ n ≤ 15 ∨ (∀ j < 16, there j) ∧ n = 16

/-- R196: in Strict mode, an item whose ready time has come is not present. -/
def LateItem (u : State) (q : Fin 8) (n : Nat) : Prop :=
  u.strict = true ∧ ∃ i, u.core.qs.lq[q][n]? = some i ∧ i.ready.getD 0 ≤ u.core.fe.cycle ∧ ¬ (i.data ≠ none ∧ i.arrived < u.core.fe.cycle)

end Sys2Proof.Machine

open Sys2Proof Sys2Proof.Machine

/-- R64, R66, R67, R173: the sources are read at issue in the order A, B, C: a v code as its physical register, a pop or a peek as an item of its
queue, where each pop takes the next one, an s code as its 32 bits in every element, and a small constant in the type that is read. -/
def Obligations.OperandsRead : Prop :=
  ∀ (u : State) (srcs : List XOp) (k : Nat) (ty : ElemTy) (i : Nat),
    let earlier (q : Fin 8) : Nat := ((srcs.take k).filter fun o => o = .pop q).length
    let item (q : Fin 8) (j : Nat) (x : Vec) : Prop := ∃ y, u.core.qs.lq[q][j]? = some y ∧ y.data = some x
    (∀ n, srcs[k]? = some (.v n) → elemOf u srcs k ty i =
      ((if n.val < 32 then u.core.regs.v[n] else u.core.regs.v[Fin.ofNat 64 (32 + (n.val - 32 + wfld u.core.sys.loopState 49 5) % 32)]) >>>
        (ty.width * i)).toNat % 2 ^ ty.width) ∧
    (∀ n, srcs[k]? = some (.s n) → elemOf u srcs k ty i = u.core.regs.s[n].toNat % 2 ^ ty.width ∧
      scalOf u srcs k ty = u.core.regs.s[n].toNat % 2 ^ ty.width) ∧
    (∀ n, srcs[k]? = some (.k n) → elemOf u srcs k ty i = smallConst ty n.val ∧ scalOf u srcs k ty = smallConst ty n.val) ∧
    (∀ q x, srcs[k]? = some (.pop q) → item q (earlier q) x → elemOf u srcs k ty i = (x >>> (ty.width * i)).toNat % 2 ^ ty.width ∧
      scalOf u srcs k ty = x.toNat % 2 ^ 32 % 2 ^ ty.width) ∧
    (∀ q x, srcs[k]? = some (.peek q) → item q 0 x → elemOf u srcs k ty i = (x >>> (ty.width * i)).toNat % 2 ^ ty.width ∧
      scalOf u srcs k ty = x.toNat % 2 ^ 32 % 2 ^ ty.width)

/-- R167, R174: where the elements of a result lie, which lanes are written, and whose flags are raised. In one register element i of width w has
guard bit i·w/4; in a group of n registers element i lies in register i mod n, slot i div n, and has the guard bit of the narrower width. -/
def Obligations.LanesOfResults : Prop :=
  ∀ (p : Pred) (f : Nat → Rd),
    (∀ ty : ElemTy, (∀ i, (f i).bits < 2 ^ ty.width) → ∃ v m fl, single ty p f = ⟨[(v, m)], fl⟩ ∧ v < 2 ^ 4096 ∧
      (∀ i < 4096 / ty.width, lane ty.width v i = if p.getLsbD (i * ty.width / 4) then (f i).bits else 0) ∧
      (∀ k < 1024, m.getLsbD k = p.getLsbD (k / (ty.width / 4) * (ty.width / 4))) ∧
      (∀ b, fl.getLsbD b = true ↔ ∃ i < 4096 / ty.width, p.getLsbD (i * ty.width / 4) = true ∧ (f i).fl.getLsbD b = true)) ∧
    (∀ n tw sw : Nat, sw ∈ [4, 8, 16, 32] → n ∈ [2, 4] → tw = n * sw → tw ≤ 64 → (∀ i, (f i).bits < 2 ^ tw) →
      (group tw sw p f).regs.length = n ∧
      (∀ k < n, ∃ v m, (group tw sw p f).regs[k]? = some (v, m) ∧ v < 2 ^ 4096 ∧
        (∀ j < 4096 / tw, lane tw v j = if p.getLsbD ((j * n + k) * sw / 4) then (f (j * n + k)).bits else 0) ∧
        (∀ b < 1024, m.getLsbD b = p.getLsbD ((b / (tw / 4) * n + k) * sw / 4))) ∧
      (∀ b, (group tw sw p f).fl.getLsbD b = true ↔ ∃ i < 4096 / sw, p.getLsbD (i * sw / 4) = true ∧ (f i).fl.getLsbD b = true))

/-- R175 to R177, R192: every element-wise floating-point form and every special function reads its operands at issue and sends, for each guard-true
element, the result of its operation in the rounding mode that holds at issue. -/
def Obligations.FloatForms : Prop :=
  ∀ (s : State) (f : FpBin) (m : FpFma) (t : XTwo) (o : XOne) (n : FpUn),
    (∀ x ∈ [(Instr.vadd f, FpOp.add), (.vsub f, .sub), (.vmul f, .mul), (.vdiv f, .div)],
      let srcs := withRandom s f.rnd [f.a, f.b]
      Sends x.1 s srcs (some f.d) fun u => u.results f.d (single f.ty (u.p f.g) fun i =>
        fpElem x.2 f.ty (u.mode f.rnd.rm) f.sat (rhoOf u f.rnd.rm srcs 2 i) (rOf u f.rnd.rm) (elemOf u srcs 0 f.ty i) (elemOf u srcs 1 f.ty i) 0)) ∧
    (∀ x ∈ [(Instr.vfma m, FpOp.fma), (.vfms m, .fms), (.vfnma m, .fnma)],
      let srcs := [m.a, m.b, m.c]
      Sends x.1 s srcs (some m.d) fun u => u.results m.d (single m.ty (u.p m.g) fun i =>
        fpElem x.2 m.ty (u.mode m.rm) m.sat 0 (rOf u m.rm) (elemOf u srcs 0 m.ty i) (elemOf u srcs 1 m.ty i) (elemOf u srcs 2 m.ty i))) ∧
    (∀ x ∈ [(Instr.vmin t, FpOp.min), (.vmax t, .max)],
      let srcs := [t.a, t.b]
      Sends x.1 s srcs (some t.d) fun u => u.results t.d (single t.ty (u.p t.g) fun i =>
        fpElem x.2 t.ty .rne false 0 0 (elemOf u srcs 0 t.ty i) (elemOf u srcs 1 t.ty i) 0)) ∧
    (∀ x ∈ [(Instr.vabs o, FpOp.abs), (.vneg o, .neg)],
      Sends x.1 s [o.a] (some o.d) fun u => u.results o.d (single o.ty (u.p o.g) fun i => fpElem x.2 o.ty .rne false 0 0 (elemOf u [o.a] 0 o.ty i) 0 0)) ∧
    (let srcs := withRandom s n.rnd [n.a]
     Sends (.vsqrt n) s srcs (some n.d) fun u => u.results n.d (single n.ty (u.p n.g) fun i =>
       fpElem .sqrt n.ty (u.mode n.rnd.rm) n.sat (rhoOf u n.rnd.rm srcs 1 i) (rOf u n.rnd.rm) (elemOf u srcs 0 n.ty i) 0 0)) ∧
    (∀ x ∈ [(Instr.vexp2 n, SpecFn.exp2), (.vlog2 n, .log2), (.vrcp n, .rcp), (.vrsqrt n, .rsqrt), (.vsin n, .sin), (.vcos n, .cos), (.vtanh n, .tanh),
        (.vsigm n, .sigm)],
      let srcs := withRandom s n.rnd [n.a]
      Sends x.1 s srcs (some n.d) fun u => u.results n.d (single n.ty (u.p n.g) fun i =>
        specialElem x.2 n.ty (u.mode n.rnd.rm) n.sat (rhoOf u n.rnd.rm srcs 1 i) (rOf u n.rnd.rm) (elemOf u srcs 0 n.ty i)))

/-- R179, R180, R167: the integer forms send, for each guard-true element, the exact value reduced mod 2^w or clamped under .SAT; VIMUL.W sends the exact
products of twice the width in a group of two, and takes ILLEGAL_OPERAND when the group meets a source. -/
def Obligations.VectorIntegerForms : Prop :=
  ∀ (s : State) (f : IntBin) (m : IntMad) (t : XTwo) (o : IntUn),
    (∀ x ∈ [(Instr.viadd f, IntOp.add), (.visub f, .sub), (.vimulh f, .mulh), (.vimul f, .mul)], (x.2 = .mul → f.wide = false) →
      let srcs := [f.a, f.b]
      Sends x.1 s srcs (some f.d) fun u => u.results f.d (single f.ty (u.p f.g) fun i =>
        intReduce f.ty f.sat (intExact x.2 f.ty (elemOf u srcs 0 f.ty i) (elemOf u srcs 1 f.ty i) 0))) ∧
    (f.wide = true →
      let srcs := [f.a, f.b]
      let clash : Prop := Meet (groupFrom s 1 f.a ++ groupFrom s 1 f.b) (groupTo s 2 f.d)
      (¬ clash → Sends (.vimul f) s srcs (some f.d) fun u => u.results f.d (group (2 * f.ty.width) f.ty.width (u.p f.g) fun i =>
        ⟨wrap (2 * f.ty.width) (intVal f.ty (elemOf u srcs 0 f.ty i) * intVal f.ty (elemOf u srcs 1 f.ty i)), 0, false, false⟩)) ∧
      (clash → s.CanTrap → TrapsX (.vimul f) s .illegalOperand)) ∧
    (let srcs := [m.a, m.b, m.c]
     Sends (.vimad m) s srcs (some m.d) fun u => u.results m.d (single m.ty (u.p m.g) fun i =>
       intReduce m.ty m.sat (intExact .mad m.ty (elemOf u srcs 0 m.ty i) (elemOf u srcs 1 m.ty i) (elemOf u srcs 2 m.ty i)))) ∧
    (∀ x ∈ [(Instr.vand t, IntOp.and), (.vor t, .or), (.vxor t, .xor), (.vshl t, .shl), (.vshr t, .shr), (.vsra t, .sra), (.vimin t, .min), (.vimax t, .max)],
      let srcs := [t.a, t.b]
      Sends x.1 s srcs (some t.d) fun u => u.results t.d (single t.ty (u.p t.g) fun i =>
        intReduce t.ty false (intExact x.2 t.ty (elemOf u srcs 0 t.ty i) (elemOf u srcs 1 t.ty i) 0))) ∧
    (Sends (.viabs o) s [o.a] (some o.d) fun u => u.results o.d (single o.ty (u.p o.g) fun i =>
      intReduce o.ty o.sat (intExact .abs o.ty (elemOf u [o.a] 0 o.ty i) 0 0)))

/-- R179, R180: the values of the integer forms. An element is read as signed or unsigned by its type; the exact value is the mathematical one, for the
logical forms and the shifts that of the bits; without .SAT the result is that value mod 2^w with no flag, with .SAT the nearest value of the type, with
OF when it differs. -/
def Obligations.IntegerElements : Prop :=
  ∀ (ty : ElemTy) (a b c : Nat), ty ∈ [ElemTy.i4, .i8, .i16, .i32, .n8, .n16, .n32] → a < 2 ^ ty.width → b < 2 ^ ty.width → c < 2 ^ ty.width →
    let w := ty.width
    let signed : Prop := ty ∈ [ElemTy.i4, .i8, .i16, .i32]
    let val (x : Nat) : Int := if ty ∈ [ElemTy.i4, .i8, .i16, .i32] ∧ 2 ^ (w - 1) ≤ x then (x : Int) - 2 ^ w else x
    let x := val a
    let y := val b
    let bit (op : IntOp) (k : Nat) : Bool := (intExact op ty a b c).toNat.testBit k
    let n := b % w
    intExact .add ty a b c = x + y ∧ intExact .sub ty a b c = x - y ∧ intExact .mul ty a b c = x * y ∧
    intExact .mulh ty a b c * 2 ^ w ≤ x * y ∧ x * y < (intExact .mulh ty a b c + 1) * 2 ^ w ∧
    intExact .mad ty a b c = x * y + val c ∧ intExact .shl ty a b c = x * 2 ^ n ∧
    intExact .min ty a b c = min x y ∧ intExact .max ty a b c = max x y ∧ (signed → intExact .abs ty a b c = |x|) ∧
    (∀ k < w, bit .and k = (a.testBit k && b.testBit k) ∧ bit .or k = (a.testBit k || b.testBit k) ∧ bit .xor k = (a.testBit k ^^ b.testBit k) ∧
      bit .shr k = (k + n < w && a.testBit (k + n)) ∧
      (wrap w (intExact .sra ty a b c)).testBit k = a.testBit (if k + n < w then k + n else w - 1)) ∧
    ∀ e : Int,
      (let r := intReduce ty false e; r.bits < 2 ^ w ∧ (∃ q : Int, e = r.bits + q * 2 ^ w) ∧ r.fl = 0) ∧
      (let r := intReduce ty true e
       let lo : Int := if ty ∈ [ElemTy.i4, .i8, .i16, .i32] then -(2 ^ (w - 1)) else 0
       let hi : Int := if ty ∈ [ElemTy.i4, .i8, .i16, .i32] then 2 ^ (w - 1) - 1 else 2 ^ w - 1
       r.bits < 2 ^ w ∧ val r.bits = max lo (min e hi) ∧ r.fl = if lo ≤ e ∧ e ≤ hi then 0 else 4)

/-- R181 to R183: VCMP sends the conditions of the guard-true elements to its predicate, VSEL the chosen bits, and the predicate forms the bits of their
sources, each written where the guard is true. -/
def Obligations.CompareSelectPredicate : Prop :=
  ∀ (s : State) (g d a b p : Fin 16) (ty : ElemTy) (c : VCond) (x y : XOp) (dx : XDst),
    (Sends (.vcmp g ty c d x y) s [x, y] none fun u =>
      let r := cmpVec ty c (((u.readAll [] [x, y]).getD 0 (.scal 0))) ((u.readAll [] [x, y]).getD 1 (.scal 0)) (u.p g)
      [(.p d, BitVec.ofNat 4096 r.1.toNat, r.2.1, r.2.2)]) ∧
    (Sends (.vsel g ty dx x y p) s [x, y] (some dx) fun u => u.results dx (single ty (u.p g) fun i =>
      ⟨if (u.p p).getLsbD (i * ty.width / 4) then elemOf u [x, y] 0 ty i else elemOf u [x, y] 1 ty i, 0, false, false⟩)) ∧
    (∀ z ∈ [(Instr.pand g d a b, fun u : State => u.p a &&& u.p b), (.por g d a b, fun u => u.p a ||| u.p b), (.pxor g d a b, fun u => u.p a ^^^ u.p b),
        (.pnot g d a, fun u => ~~~ u.p a)],
      Sends z.1 s [] none fun u => [(.p d, BitVec.ofNat 4096 (z.2 u).toNat, u.p g, 0)]) ∧
    (∀ (A B : Opd) (q : Pred), let r := cmpVec ty c A B q
      (∀ k < 1024, r.2.1.getLsbD k = q.getLsbD (k / (ty.width / 4) * (ty.width / 4))) ∧
      (∀ i < 4096 / ty.width, q.getLsbD (i * ty.width / 4) = true → ∀ k < ty.width / 4,
        r.1.getLsbD (i * (ty.width / 4) + k) = (cmpElem ty c (A.lane ty i) (B.lane ty i)).1) ∧
      (∀ k, r.2.2.getLsbD k = true ↔ ∃ i < 4096 / ty.width, q.getLsbD (i * ty.width / 4) = true ∧
        (cmpElem ty c (A.lane ty i) (B.lane ty i)).2.getLsbD k = true)) ∧
    (∀ m n : Nat, let nan (z : Nat) : Prop := ∃ sg, decodeElem ty z = .nan sg
      let sig (z : Nat) : Prop := decodeElem ty z = .nan true
      let r := cmpElem ty c m n
      ((nan m ∨ nan n) → (r.1 = true ↔ c = .ne ∨ c = .un) ∧ (r.2 = if c ∈ [VCond.lt, .le, .gt, .ge] ∨ sig m ∨ sig n then 16 else 0)) ∧
      (¬ nan m → ¬ nan n → r.2 = 0 ∧ (c = .un → r.1 = false) ∧
        (∀ v w, decodeElem ty m = .num v → decodeElem ty n = .num w →
          (r.1 = true ↔ match c with
            | .eq => v.cmp w = 0 | .ne => v.cmp w ≠ 0 | .lt => v.cmp w < 0 | .le => v.cmp w ≤ 0 | .gt => 0 < v.cmp w | .ge => 0 ≤ v.cmp w
            | .un => False))))

/-- R184 to R188: the conversions read their elements, one register or a group, at issue; they take the fault of a guard-true source element before
anything is popped or written, and otherwise send the converted elements to a register or a group. A group that meets another operand takes
ILLEGAL_OPERAND. -/
def Obligations.Conversions : Prop :=
  ∀ (s : State) (f : CvtArgs) (b : BlkArgs) (r : SrndArgs),
    let up := f.ty.width / f.src.width
    let down := f.src.width / f.ty.width
    let rnd1 := withRandom s f.rnd []
    let one := withRandom s f.rnd [f.a]
    let own (xs : List XOp) : List (Fin 64) := xs.flatMap (groupFrom s 1)
    let lanes (u : State) (k : Nat) : Nat → Nat := elemOf u one k f.src
    let out (u : State) (la rho : Nat → Nat) : Except XFault XOut := cvtVec f.src f.ty (u.mode f.rnd.rm) f.sat f.log rho la (u.p f.g)
    let faultOf (e : Except XFault XOut) : Option XFault := match e with | .error x => some x | .ok _ => none
    let outOf (e : Except XFault XOut) : XOut := match e with | .error _ => ⟨[], 0⟩ | .ok o => o
    (Converts (.vcvt f) s one f.d (fun u => faultOf (out u (lanes u 0) (rhoOf u f.rnd.rm one 1))) fun u =>
      outOf (out u (lanes u 0) (rhoOf u f.rnd.rm one 1))) ∧
    (up ≠ 1 → ¬ Meet (own one) (groupTo s up f.d) →
      Converts (.vcvtw f) s one f.d (fun u => faultOf (out u (lanes u 0) (rhoOf u f.rnd.rm one 1))) fun u =>
        outOf (out u (lanes u 0) (rhoOf u f.rnd.rm one 1))) ∧
    (down ≠ 1 → ¬ Meet (groupFrom s down f.a ++ own rnd1) (groupTo s 1 f.d) → (∃ n, f.a = .v n) → down ≠ 0 →
      Converts (.vcvtn f) s rnd1 f.d (fun u => faultOf (out u (groupElem u f.a down f.src) (rhoOf u f.rnd.rm rnd1 0))) fun u =>
        outOf (out u (groupElem u f.a down f.src) (rhoOf u f.rnd.rm rnd1 0))) ∧
    (s.CanTrap →
      (up ≠ 1 → Meet (own one) (groupTo s up f.d) → TrapsX (.vcvtw f) s .illegalOperand) ∧
      (down ≠ 1 → Meet (groupFrom s down f.a ++ own rnd1) (groupTo s 1 f.d) → TrapsX (.vcvtn f) s .illegalOperand)) ∧
    (let bs := 16 * 2 ^ b.blk.val
     let w := b.ty.width / b.src.width
     let srcs := withRandom s b.rnd [b.a, b.b]
     let scale (u : State) (i : Nat) : Nat := elemOf u srcs 1 .s16 (i / bs)
     let bad (u : State) : Bool := (List.range (4096 / b.src.width)).any fun i => (u.p b.g).getLsbD (i * b.src.width / 4) && s16Bad (scale u i)
     (¬ Meet (own srcs) (groupTo s w b.d) → Converts (.vdq b) s srcs b.d (fun u => if bad u then some .scaleInvalid else none) fun u =>
       group b.ty.width b.src.width (u.p b.g) fun i => dqElem b.src b.ty (u.mode b.rnd.rm) b.sat (rhoOf u b.rnd.rm srcs 2 i) (rOf u b.rnd.rm)
         (elemOf u srcs 0 b.src i) (scale u i)) ∧
     (Meet (own srcs) (groupTo s w b.d) → s.CanTrap → TrapsX (.vdq b) s .illegalOperand)) ∧
    (let bs := 16 * 2 ^ b.blk.val
     let w := b.src.width / b.ty.width
     let srcs := withRandom s b.rnd [b.b]
     let scale (u : State) (i : Nat) : Nat := elemOf u srcs 0 .s16 (i / bs)
     let bad (u : State) : Bool := (List.range (4096 / b.ty.width)).any fun i => (u.p b.g).getLsbD (i * b.ty.width / 4) && s16Bad (scale u i)
     let clash : Prop := Meet (groupFrom s w b.a ++ own srcs) (groupTo s 1 b.d)
     (¬ clash → (∃ n, b.a = .v n) → w ≠ 0 → Converts (.vq b) s srcs b.d (fun u => if bad u then some .scaleInvalid else none) fun u =>
       single b.ty (u.p b.g) fun i => qElem b.src b.ty (u.mode b.rnd.rm) b.sat (rhoOf u b.rnd.rm srcs 1 i) (rOf u b.rnd.rm)
         (groupElem u b.a w b.src i) (scale u i)) ∧
     (clash → s.CanTrap → TrapsX (.vq b) s .illegalOperand)) ∧
    (let srcs := [r.a, r.b]
     let n := 2 ^ (r.rw.val + 1)
     Sends (.srnd r) s srcs (some r.d) fun u => u.results r.d (single r.ty (u.p r.g) fun i =>
       srndElem r.ty r.grid r.sat (elemOf u srcs 1 .n16 (i % 256) % 2 ^ n) n (elemOf u srcs 0 r.ty i)))

/-- R189 to R191: the permutes move elements as bit patterns; the reductions send one value of the guard-true elements of A and element 0 of B,
broadcast under an all-true mask or in a scalar register. -/
def Obligations.PermutesAndReductions : Prop :=
  ∀ (s : State) (f : Perm3) (t : XTwo) (z : PermSel) (r : RedArgs),
    let moves (i : Instr) (srcs : List XOp) (d : XDst) (ty : ElemTy) (g : Fin 16) (x : State → Nat → Nat) : Prop :=
      Sends i s srcs (some d) fun u => u.results d (single ty (u.p g) fun k => ⟨x u k, 0, false, false⟩)
    let cat (u : State) (srcs : List XOp) (ty : ElemTy) (m : Nat) : Nat :=
      if m < 4096 / ty.width then elemOf u srcs 0 ty m else elemOf u srcs 1 ty (m - 4096 / ty.width)
    (let srcs := if f.ty.width = 8 then [f.a, f.b, f.c] else [f.a, f.b]
     moves (.vperm f) srcs f.d f.ty f.g fun u i =>
       let j := if f.ty.width = 8 ∧ 256 ≤ i then elemOf u srcs 2 .n16 (i - 256) else elemOf u srcs 1 .n16 i
       if 4096 / f.ty.width ≤ j then 0 else elemOf u srcs 0 f.ty j) ∧
    (moves (.vrot t) [t.a, t.b] t.d t.ty t.g fun u i => elemOf u [t.a, t.b] 0 t.ty ((i + scalOf u [t.a, t.b] 1 .n32) % (4096 / t.ty.width))) ∧
    (moves (.vbcast t) [t.a, t.b] t.d t.ty t.g fun u _ => elemOf u [t.a, t.b] 0 t.ty (scalOf u [t.a, t.b] 1 .n32 % (4096 / t.ty.width))) ∧
    (moves (.vzip z) [z.a, z.b] z.d z.ty z.g fun u i =>
      let m := if z.sel then i + 4096 / z.ty.width else i
      elemOf u [z.a, z.b] (m % 2) z.ty (m / 2)) ∧
    (moves (.vunzip z) [z.a, z.b] z.d z.ty z.g fun u i => cat u [z.a, z.b] z.ty (if z.sel then 2 * i + 1 else 2 * i)) ∧
    (moves (.vslide f) [f.a, f.b, f.c] f.d f.ty f.g fun u i =>
      let k := scalOf u [f.a, f.b, f.c] 2 .n32
      if i + k < 2 * (4096 / f.ty.width) then cat u [f.a, f.b, f.c] f.ty (i + k) else 0) ∧
    (let terms (u : State) : List Nat := ((List.range (4096 / r.ty.width)).filter fun i => (u.p r.g).getLsbD (i * r.ty.width / 4)).map
       (elemOf u [r.a, r.b] 0 r.ty) ++ [elemOf u [r.a, r.b] 1 r.ty 0]
     let gives (i : Instr) (w : Nat) (x : State → Rd) : Prop :=
       Sends i s [r.a, r.b] (some r.d) fun u => [u.reducedResult r.d w (x u).bits (x u).fl]
     gives (.vrsum r) r.ty.width (fun u => redSum r.ty (u.mode r.rm) (terms u)) ∧
     gives (.vrmax r) r.ty.width (fun u => redExt r.ty true (terms u)) ∧
     gives (.vrmin r) r.ty.width (fun u => redExt r.ty false (terms u)) ∧
     gives (.vriadd r) 32 (fun u => intReduce (if r.ty ∈ [ElemTy.i4, .i8, .i16, .i32] then .i32 else .n32) r.sat ((terms u).map (intVal r.ty)).sum))

/-- R194, R195: the scalar forms and SLI send their 32-bit value, written when lane 0 of the guard is true. -/
def Obligations.ScalarForms : Prop :=
  ∀ (s : State) (f : FpBin) (m : FpFma) (o : XOne) (c : ScvtArgs) (g : Fin 16) (d : Fin 32) (imm : BitVec 26),
    (∀ x ∈ [(Instr.sadd f, FpOp.add, IntOp.add), (.ssub f, .sub, .sub), (.smul f, .mul, .mul)],
      let srcs := withRandom s f.rnd [f.a, f.b]
      Sends x.1 s srcs (some f.d) fun u =>
        let a := scalOf u srcs 0 f.ty
        let b := scalOf u srcs 1 f.ty
        let r := if f.ty = .fp32 then fpElem x.2.1 .fp32 (u.mode f.rnd.rm) f.sat (scalOf u srcs 2 .n16) (rOf u f.rnd.rm) a b 0
          else intReduce f.ty f.sat (intExact x.2.2 f.ty a b 0)
        [u.scalarResult f.d (u.p f.g) r.bits r.fl]) ∧
    (let srcs := [m.a, m.b, m.c]
     Sends (.sfma m) s srcs (some m.d) fun u =>
       let r := fpElem .fma .fp32 (u.mode m.rm) false 0 0 (scalOf u srcs 0 .fp32) (scalOf u srcs 1 .fp32) (scalOf u srcs 2 .fp32)
       [u.scalarResult m.d (u.p m.g) r.bits r.fl]) ∧
    (Sends (.smov o) s [o.a] (some o.d) fun u => [u.scalarResult o.d (u.p o.g) (scalOf u [o.a] 0 o.ty) 0]) ∧
    (let srcs := withRandom s c.rnd [c.a]
     let x (u : State) : Nat := scalOf u srcs 0 c.src
     let bad (u : State) : Option XFault := if (u.p c.g).getLsbD 0 = false then none else if c.src = .s16 ∧ s16Bad (x u) = true then some .scaleInvalid
       else if c.src = .cx ∧ cxOk (x u) = false then some .cxFormat else none
     (bad s.startX = none → Sends (.scvt c) s srcs (some c.d) fun u =>
       let r := convertElem c.src c.ty (u.mode c.rnd.rm) c.sat (scalOf u srcs 1 .n16) (rOf u c.rnd.rm) (x u)
       [u.scalarResult c.d (u.p c.g) r.bits r.fl]) ∧
     (∀ e, bad s.startX = some e → s.CanTrap → s.CanIssueX srcs (some c.d) → TrapsX (.scvt c) s e.cause)) ∧
    (Sends (.sli g d imm) s [] none fun u =>
      [(.s d, BitVec.ofNat 4096 ((match u.core.fe.cur.ximm with
        | none => (imm.signExtend 32 : BitVec 32)
        | some v => (v ++ imm).setWidth 32).toNat), u.p g, 0)])

/-- R168 to R170: LOOP begins its kernel with the trip count that issue sees, does nothing for a count of 0 and takes ILLEGAL_OPERAND for one of 2^31 or
more; RBSET and RBADV change the rotating base; PSTAGE sends the stage predicates. -/
def Obligations.LoopsAndRotation : Prop :=
  ∀ (s : State) (c : LoopCount) (st : Fin 8) (k : Fin 64) (b : Fin 32) (m : BitVec 8),
    let n : Nat := match c with
      | .imm n => n.toNat
      | .reg r => s.startX.core.regs.s[r].toNat
    (s.CanIssueX [] none → 0 < n → n < 2 ^ 31 → Answers (.loop c st k) s (LoopBegan s.startX n st.val k.val)) ∧
    (n = 0 → Sends (.loop c st k) s [] none fun _ => []) ∧
    (s.CanIssueX [] none → 2 ^ 31 ≤ n → s.CanTrap → TrapsX (.loop c st k) s .illegalOperand) ∧
    (s.CanIssueX [] none → Answers (.rbset b) s (Rotated s.startX b.val) ∧
      Answers (.rbadv b) s (Rotated s.startX ((wfld s.core.sys.loopState 49 5 + 32 - b.val) % 32))) ∧
    (Sends (.pstage m) s [] none fun _ =>
      (List.range 8).map fun i => (.p (Fin.ofNat 16 (8 + i)), if m.getLsbD i then BitVec.ofNat 4096 (2 ^ 1024 - 1) else 0, allTrue, 0))

/-- R172, R196 to R201: the Cupboard's stores and loads, the queue-management forms and the vector immediates. -/
def Obligations.CupboardQueuesImmediates : Prop :=
  ∀ (s : State) (g : Fin 16) (ty : ElemTy) (a : XOp) (d : Fin 64) (e : Fin 32) (off : BitVec 16),
    let w := ty.width
    let mask (u : State) : Pred := elemMask w (guardOf (u.p g) w)
    (Sends (.cbstV g ty a off) s [a] none fun u =>
      [(.cupV off.toNat, BitVec.ofNat 4096 (tabulate w (4096 / w) (elemOf u [a] 0 ty)), mask u, 0)]) ∧
    (s.startX.pkg.poison = [] → s.startX.pkg.weak = [] → s.startX.core.mems.cup.wf = true →
      (∀ x : Vec, (∀ i < 512, byteAt x i = s.startX.core.mems.cup.read (off.toNat + i)) →
        Sends (.cbldV g ty d off) s [] none fun u => [(.v (u.phys d), x, mask u, 0)]) ∧
      (∀ x : Vec, x.toNat < 2 ^ 32 → (∀ i < 4, byteAt x i = s.startX.core.mems.cup.read (off.toNat + i)) →
        Sends (.cbldS g e off) s [] none fun u => [(.s e, x, u.p g, 0)])) ∧
    (Sends (.cbstS g e off) s [.s e] none fun u => [(.cupS off.toNat, u.core.regs.s[e].setWidth 4096, u.p g, 0)]) ∧
    (∀ (q : Fin 8) (c : XOp) (n : Nat), ((∃ k : Fin 59, c = .k k ∧ n = k.val) ∨ ∃ r, c = .s r ∧ n = s.startX.core.regs.s[r].toNat) →
      (n ≤ 16 → Sends (.qskip g q c) s (List.replicate n (.pop q)) none fun _ => []) ∧
      (16 < n → s.CanTrap → TrapsX (.qskip g q c) s .illegalOperand)) ∧
    (∀ (q : Fin 8) (n : Nat), PresentItems s q n →
      (¬ LateItem s q n →
        (Sends (.qcount g e (Fin.ofNat 12 q.val)) s [] none fun u => [(.s e, BitVec.ofNat 4096 n, u.p g, 0)]) ∧
        (Sends (.qflush g none q) s (List.replicate n (.pop q)) none fun _ => []) ∧
        (Sends (.qflush g (some e) q) s (List.replicate n (.pop q)) none fun u => [(.s e, BitVec.ofNat 4096 n, u.p g, 0)])) ∧
      (LateItem s q n → s.CanTrap → TrapsX (.qcount g e (Fin.ofNat 12 q.val)) s .overrun ∧ TrapsX (.qflush g none q) s .overrun ∧
        TrapsX (.qflush g (some e) q) s .overrun)) ∧
    (∀ q : Fin 4, Sends (.qcount g e (Fin.ofNat 12 (8 + q.val))) s [] none fun u =>
      [(.s e, BitVec.ofNat 4096 (u.core.qs.sq[q].length + ((u.core.regs.fly ++ u.core.regs.rpl).filter fun r => r.dst = .sq q).length), u.p g, 0)]) ∧
    (∀ imm : BitVec 26,
      let p (u : State) : Nat := match u.core.fe.cur.ximm with
        | some v => (v ++ imm).toNat % 2 ^ w
        | none => match ty with
          | .fp32 => imm.toNat * 64
          | .i32 | .n32 => (imm.signExtend 32 : BitVec 32).toNat
          | .cx => (convert .cx .rne false 0 0 (.num (Ex.ofInt imm.toInt))).bits
          | _ => imm.toNat % 2 ^ w
      Sends (.vli g ty d imm) s [] (some (.v d)) fun u => u.results (.v d) (single ty (u.p g) fun _ => ⟨p u, 0, false, false⟩)) ∧
    (∀ base step : BitVec 13, Sends (.vlix g ty d base step) s [] (some (.v d)) fun u =>
      u.results (.v d) (single ty (u.p g) fun i => ⟨((base.toInt + i * step.toInt) % 2 ^ w).toNat, 0, false, false⟩))

/-- R162, R163, R161, R55: a new X-cycle begins when something has issued in the last one; before anything issues in it, every result that is due in it
lands: lane by lane in its register, where of several the last in the order of landing and of the program stands, as an item at the tail of
its store queue, with its flags; the others stay in flight. -/
def Obligations.ResultsLand : Prop :=
  ∀ (s : State),
    let t := s.startX
    let due (r : Fly) : Prop := r ∈ s.core.regs.fly ∧ r.due ≤ s.core.fe.xnow + 1
    let after (x y : Fly) : Prop := y.due < x.due ∨ (y.due = x.due ∧ y.seq < x.seq)
    let last (r : Fly) (same : Fly → Prop) : Prop := due r ∧ same r ∧ ∀ x, due x → same x → x = r ∨ after r x
    (s.core.fe.xdone = false → t = s) ∧
    (s.core.fe.xdone = true →
      s.Landed t ∧ t.core.fe.xnow = s.core.fe.xnow + 1 ∧ t.core.fe.xdone = false ∧
      t.core.regs.fly = s.core.regs.fly.filter (fun r => decide (s.core.fe.xnow + 1 < r.due)) ∧
      (∀ (n : Fin 64) (k : Nat), k < 4096 →
        let lane4 (r : Fly) : Prop := r.dst = .v n ∧ r.mask.getLsbD (k / 4) = true
        (∀ r, last r lane4 → t.core.regs.v[n].getLsbD k = r.val.getLsbD k) ∧
        ((∀ r, due r → ¬ lane4 r) → t.core.regs.v[n].getLsbD k = s.core.regs.v[n].getLsbD k)) ∧
      (∀ n : Fin 64, t.core.regs.vDirty.getLsbD n.val = (s.core.regs.vDirty.getLsbD n.val || s.core.regs.fly.any fun r =>
        decide (r.due ≤ s.core.fe.xnow + 1 ∧ r.dst = .v n))) ∧
      (∀ n : Fin 32,
        let it (r : Fly) : Prop := r.dst = .s n ∧ r.mask.getLsbD 0 = true
        (∀ r, last r it → t.core.regs.s[n] = r.val.setWidth 32) ∧ ((∀ r, due r → ¬ it r) → t.core.regs.s[n] = s.core.regs.s[n])) ∧
      (∀ n : Fin 32, t.core.regs.sDirty.getLsbD n.val = (s.core.regs.sDirty.getLsbD n.val || s.core.regs.fly.any fun r =>
        decide (r.due ≤ s.core.fe.xnow + 1 ∧ r.dst = .s n))) ∧
      (∀ (n : Fin 16) (k : Nat), k < 1024 →
        let it (r : Fly) : Prop := r.dst = .p n ∧ n ≠ 0 ∧ r.mask.getLsbD k = true
        (∀ r, last r it → t.core.regs.p[n].getLsbD k = r.val.getLsbD k) ∧
        ((∀ r, due r → ¬ it r) → t.core.regs.p[n].getLsbD k = s.core.regs.p[n].getLsbD k)) ∧
      (∀ q : Fin 4, (∀ r, due r → r.dst ≠ .sq q) → t.core.qs.sq[q] = s.core.qs.sq[q]) ∧
      (∀ (q : Fin 4) (l : List Fly), l.Pairwise (fun x y => after y x) → (∀ r, r ∈ l ↔ due r ∧ r.dst = .sq q) →
        (s.core.regs.fly.filter fun r => r.dst = .sq q).Nodup → t.core.qs.sq[q] = s.core.qs.sq[q] ++ l.map (·.val)) ∧
      (∀ b < 5, t.core.sys.fpFlags.getLsbD b = (s.core.sys.fpFlags.getLsbD b || s.core.regs.fly.any fun r =>
        decide (r.due ≤ s.core.fe.xnow + 1 ∧ r.fl.getLsbD b = true))))

/-- R43, R59, R174, R177, R178: the values of the floating-point operations on one element: NaN in, canonical NaN out, with NV for a signalling one; the invalid
operations; division by zero; infinities; and for finite operands one rounding of the exact value, with the sign of a zero. With .SAT an infinite
result is the largest finite value with OF. -/
def Obligations.FloatElements : Prop :=
  ∀ (ty : ElemTy) (rm : RM) (sat : Bool) (rho r a b c : Nat), ty ∈ [ElemTy.h16, .bf16, .fp32] → a < 2 ^ ty.width → b < 2 ^ ty.width → c < 2 ^ ty.width →
    let el (op : FpOp) : Rd := fpElem op ty rm sat rho r a b c
    let v := decodeElem ty
    let nan (z : Nat) : Prop := ∃ g, v z = .nan g
    let sig (z : Nat) : Prop := v z = .nan true
    let inf (z : Nat) (n : Bool) : Prop := v z = .inf n
    let zero (z : Nat) : Prop := ∃ x, v z = .num x ∧ x.num = 0
    let invalid (op : FpOp) : Prop := el op = ⟨nanBits ty, 16, false, false⟩
    let quiet (op : FpOp) (zs : List Nat) : Prop := (∃ z ∈ zs, nan z) → (el op).bits = nanBits ty
    let flags (op : FpOp) (zs : List Nat) : Prop := (∃ z ∈ zs, nan z) → (el op).fl = if ∃ z ∈ zs, sig z then 16 else 0
    let infinite (op : FpOp) (n : Bool) (fl : BitVec 5) : Prop :=
      el op = if sat then ⟨maxBits ty n, fl ||| 4, false, false⟩ else ⟨infBits ty n, fl, false, false⟩
    let rounds (op : FpOp) (x : Ex) (zneg : Bool) : Prop := el op = satFix ty sat (roundEx ty rm sat rho r x zneg)
    (∀ op ∈ [FpOp.add, .sub, .div, .min, .max], quiet op [a, b] ∧ flags op [a, b]) ∧ quiet .mul [a, b] ∧ flags .mul [a, b] ∧
    (∀ op ∈ [FpOp.abs, .neg, .sqrt], quiet op [a] ∧ flags op [a]) ∧
    (∀ op ∈ [FpOp.fma, .fms, .fnma], quiet op [a, b, c] ∧
      (¬ (zero a ∧ (∃ n, inf b n)) → ¬ ((∃ n, inf a n) ∧ zero b) → flags op [a, b, c])) ∧
    (∀ m n, inf a m → inf b n → (m ≠ n → invalid .add) ∧ (m = n → invalid .sub ∧ infinite .add m 0) ∧ (m ≠ n → infinite .sub m 0) ∧ invalid .div ∧
      infinite .mul (m ^^ n) 0) ∧
    ((zero a ∧ (∃ n, inf b n)) ∨ ((∃ n, inf a n) ∧ zero b) → ∀ op ∈ [FpOp.mul, .fma, .fms, .fnma], invalid op) ∧
    (zero a → zero b → invalid .div) ∧
    (∀ x y, v a = .num x → v b = .num y → x.num ≠ 0 → y.num = 0 → infinite .div (x.neg ^^ y.neg) 8) ∧
    (∀ x n, v a = .num x → inf b n → el .div = ⟨zeroBits ty (x.neg ^^ n), 0, false, false⟩ ∧ infinite .add n 0 ∧ infinite .sub (!n) 0) ∧
    (∀ m y, inf a m → v b = .num y → infinite .div (m ^^ y.neg) 0 ∧ infinite .add m 0 ∧ infinite .sub m 0 ∧ (y.num ≠ 0 → infinite .mul (m ^^ y.neg) 0)) ∧
    (∀ x n, v a = .num x → inf b n → x.num ≠ 0 → infinite .mul (x.neg ^^ n) 0) ∧
    (∀ x, v a = .num x → x.num ≠ 0 → x.neg = true → invalid .sqrt) ∧ (inf a true → invalid .sqrt) ∧ (inf a false → infinite .sqrt false 0) ∧
    (∀ x, v a = .num x → x.num = 0 → el .sqrt = ⟨zeroBits ty x.neg, 0, false, false⟩) ∧
    (∀ x y, v a = .num x → v b = .num y →
      rounds .add (x.add y) (if x.num = 0 ∧ y.num = 0 ∧ x.neg = y.neg then x.neg else decide (rm = .rdn)) ∧
      rounds .sub (x.add y.negate) (if x.num = 0 ∧ y.num = 0 ∧ x.neg = !y.neg then x.neg else decide (rm = .rdn)) ∧
      rounds .mul (x.mul y) (x.neg ^^ y.neg) ∧ (y.num ≠ 0 → rounds .div (x.div y) (x.neg ^^ y.neg)) ∧
      (∀ z, v c = .num z → z.num ≠ 0 → rounds .fma ((x.mul y).add z) (decide (rm = .rdn)) ∧ rounds .fms ((x.mul y).add z.negate) (decide (rm = .rdn)) ∧
        rounds .fnma ((x.negate.mul y).add z) (decide (rm = .rdn)))) ∧
    (sat = false → ∀ x y, v a = .num x → v b = .num y → (el .min).bits = (if y.cmp x < 0 ∨ (x.num = 0 ∧ y.num = 0 ∧ y.neg = true ∧ x.neg = false) then b else a) ∧
      (el .max).bits = (if x.cmp y < 0 ∨ (x.num = 0 ∧ y.num = 0 ∧ x.neg = true ∧ y.neg = false) then b else a) ∧ (el .min).fl = 0 ∧ (el .max).fl = 0) ∧
    (¬ nan a → sat = false → (el .abs).bits = a % 2 ^ (ty.width - 1) ∧ (el .neg).bits = a ^^^ 2 ^ (ty.width - 1))

/-- R41, R42, R44, R56: a value that a format of 8 bits or less holds is converted to it exactly, in every rounding mode, with no flag: to its own pattern, or in SP2 to the canonical pattern of that value. -/
def Obligations.HeldValuesAreExact : Prop :=
  ∀ (ty : ElemTy) (rm : RM) (sat : Bool) (rho r x : Nat) (v : Ex), ty ∈ [ElemTy.i4, .i8, .n8, .e2m1, .e4m3, .e5m2, .sp2] →
    x < 2 ^ ty.width → decodeElem ty x = .num v → r ≤ 16 → rho < 2 ^ r →
    (convert ty rm sat rho r (.num v)).fl = 0 ∧
    (∃ w, decodeElem ty (convert ty rm sat rho r (.num v)).bits = .num w ∧ w.cmp v = 0) ∧
    (ty ≠ .sp2 → (convert ty rm sat rho r (.num v)).bits = x)

/-! ### Engine commands -/

namespace Sys2Proof.Machine

/-- The record that issue hands over (R18): operands resolved, footprint latched, hatches, issue cycle and program order. -/
def handedCmd (s : State) (i : Instr) (hk : Hatching) (p : Prep) (follow : Bool) : EngCmd :=
  { seq := s.core.fe.cur.seq, pc := s.core.fe.cur.pc, instr := i, ops := p.ops, rm := p.rm, fmts := p.fmts, foot := p.foot, push := hk.push, pop := hk.pop,
    cycle := s.core.fe.cycle, handler := s.core.fe.handler, popped := hk.pop.isNone, follow := follow, st := .waiting, latched := false, out := [] }

/-- A command of queues 0 to 2 that a handler issues goes to the side path (R224, R244). -/
def OnSide (s : State) (q : Fin 5) : Prop := s.core.fe.handler = true ∧ q.val < 3

/-- A queue has room for a command (R16). -/
def RoomIn (s : State) (q : Fin 5) : Prop :=
  OnSide s q ∨ (s.core.eng.q[q]).length < (if q = 3 then 8 else if q = 4 then 4 else 16)

/-- The engine queues with a command behind the others of its queue. -/
def appended (s : State) (q : Fin 5) (c : EngCmd) (e : Eng) : Eng :=
  if s.core.fe.handler = true ∧ q.val < 3 then { e with side := e.side ++ [c] } else { e with q := e.q.set q.val (e.q[q] ++ [c]) }

/-- The engine queues have a new value, and nothing else has changed but that the instruction issued; the core may have noted that the unit uses its
vault (R327). -/
structure Handed (s : State) (e : Eng) (t : State) : Prop where
  eng : t.core.eng = e
  fe : s.IssuedA t
  regs : t.core.regs = s.core.regs
  sys : t.core.sys = s.core.sys
  qs : t.core.qs = s.core.qs
  lsu : t.core.lsu = s.core.lsu
  mems : t.core.mems = s.core.mems
  mem : t.mem = s.mem
  pkg : t.pkg = s.pkg
  others : t.others = s.others
  core : t.core.slot = s.core.slot ∧ t.core.circ = s.core.circ ∧ t.core.resh = s.core.resh ∧ t.core.link = s.core.link ∧
    (t.core.vuse = s.core.vuse ∨ t.core.vuse = true)

/-- R156: the bindings of a command's hatches name the engine queue: codes 3 to 7. -/
def BoundTo (s : State) (q : Fin 5) (hk : Hatching) : Prop :=
  (∀ h, hk.push = some h → BoundP s h (BitVec.ofNat 3 (q.val + 3))) ∧ (∀ h, hk.pop = some h → BoundC s h (BitVec.ofNat 3 (q.val + 3)))

/-- R125, R210: TRAP.FOOT holds the footprint words that the operands make, and 0 where the command has none. -/
def FootIs (foot : List (Option Word)) (t : State) : Prop :=
  ∀ k : Fin 4, (∀ w, foot[k.val]? = some (some w) → t.core.sys.trapFoot[k] = w) ∧ (foot[k.val]? = none → t.core.sys.trapFoot[k] = 0)

/-- R18, R125, R156, R369: an engine command that may issue is handed over when its queue has room and the checks of its entry and of its hatches
pass; a check that fails is a precise trap of the A-pipe with its cause and the command's footprint; without room it waits. -/
def Commands (s : State) (rs : List GReg) (q : Fin 5) (i : Instr) (hk : Hatching) (j : Judged) : Prop :=
  s.CanIssue rs [] →
    (∀ p, j.check = .ok p → RoomIn s q → BoundTo s q hk → Answers i s (Handed s (appended s q (handedCmd s i hk p false) s.core.eng))) ∧
    (RoomIn s q → s.CanTrap →
      (∀ e, j.check = .error e → Answers i s fun t => s.TookTrap 1 e.1 s.core.fe.cur.pc t ∧ t.core.eng = s.core.eng ∧ FootIs j.foot t ∧
        ∀ w, e.2 = some w → t.core.sys.trapInfo = w) ∧
      (∀ p, j.check = .ok p → ¬ BoundTo s q hk → Answers i s fun t => s.TookTrap 1 .illegalOperand s.core.fe.cur.pc t ∧ t.core.eng = s.core.eng ∧
        FootIs (p.foot.map some) t)) ∧
    (¬ RoomIn s q → s.core.fe.cur.instr.isX = false → (s.core.fe.handler = false ∨ ∃ p, j.check = .ok p ∧ BoundTo s q hk) → Answers i s (WaitsA s))

/-- R224: on the side path a hatch field of a copy-class command takes ILLEGAL_OPERAND. -/
def noSide (s : State) (hk : Hatching) (j : Judged) : Judged :=
  ⟨j.foot, match j.check with
    | .error e => .error e
    | .ok p => if s.core.fe.handler && (hk.push.isSome || hk.pop.isSome) then .error (.illegalOperand, none) else .ok p⟩

/-- R202: .SP destinations go to the inbound queue 0, all others to the outbound queue 1. -/
def queueOf (w : Word) : Fin 5 := if wfld w 58 3 = 0 then 0 else 1

/-- R242: the registers of a sparsity pair, and their values. -/
def pairRegs (s : State) (z : GReg) : List GReg :=
  if z = 0 then [] else if wfld (s.g z) 62 2 = 2 then [z, Fin.ofNat 32 (z.val + 1)] else [z]
def pairWords (s : State) (z : GReg) : List Word :=
  if z = 0 then [0, 0] else if wfld (s.g z) 62 2 = 2 then [s.g z, s.g (Fin.ofNat 32 (z.val + 1))] else [s.g z, 0]

/-- A check with one condition. -/
def ifOk (c : Prop) [Decidable c] (p : Prep) : Judged := ⟨p.foot.map some, if c then .ok p else .error (.illegalOperand, none)⟩

/-- R210, R261, R263: an image of n bytes at a multiple of 64 of the scratchpad, with a second footprint word for what it is an image of. -/
def imageAt (a : Word) (n code : Nat) (k : Word) : Judged :=
  let w := footSp code a.toNat (a.toNat + n - 1)
  ⟨[if a.toNat + n ≤ 0x400000 then some w else none, some k],
    if a.toNat % 64 ≠ 0 then .error (.illegalOperand, none)
    else if 0x400000 < a.toNat + n then .error (.bounds, some (BitVec.ofNat 64 (max a.toNat 0x400000))) else .ok ⟨[a], [w, k], [], .rne⟩⟩

/-- R304, R306, R310: a record of n bytes at a multiple of 64 of .CL. -/
def recordAt (a : Word) (n : Nat) (k : Check Prep) : Check Prep :=
  if a.toNat % 64 ≠ 0 then .error (.illegalOperand, none)
  else if 2 ^ 56 < a.toNat + n then .error (.bounds, some (BitVec.ofNat 64 (max a.toNat (2 ^ 56)))) else k

/-- The command at the head of a queue has changed to c, and what it writes is left to say; registers, queues, accesses and memory of the package stay. -/
structure Worked (s : State) (q : Fin 5) (cs : List EngCmd) (t : State) : Prop where
  eng : t.core.eng = { s.core.eng with q := s.core.eng.q.set q.val cs }
  regs : t.core.regs = s.core.regs
  lsu : t.core.lsu = s.core.lsu
  mem : t.mem = s.mem
  others : t.others = s.others

/-- Nothing holds an engine queue: the unit's engines move (R34), no cause of the queue is held (R126), and no word of the memories has an error (R228). -/
structure Moves (s : State) (q : Fin 5) : Prop where
  active : s.core.fe.unit = .running ∨ s.core.fe.unit = .ending ∨ s.core.fe.unit = .ended
  causes : ∀ e ∈ s.core.fe.causes, e.queue ≠ q
  held : ∀ r, s.core.fe.resume = some r → ∀ e, r.held = some e → e.queue ≠ q
  clean : s.pkg.poison = [] ∧ s.pkg.weak = []

end Sys2Proof.Machine

open Sys2Proof Sys2Proof.Machine

/-- R18, R156, R202, R205 to R224, R369: the copy class at issue. FILL is spelled out, its bounds before its fields (R369); the checks of the
other commands are those of the model's functions prepCopy, prepRows, prepLoft, prepReduce, prepBin and prepMigrate. The bounds check of a side passes when every byte of every run lies in the window, and
otherwise names the first byte outside in transfer order, where run k starts at base + i1·t1 + i2·t2 + i3·t3 with i1 the fastest. -/
def Obligations.CopyClassIssues : Prop :=
  (∀ (s : State) (c : ECmd) (n : Fin 4) (x y w : GReg) (hk : Hatching),
    let pair (r : GReg) : GReg := Fin.ofNat 32 (r.val + 1)
    let six : List Word := [s.g c.x, s.g c.y, s.g c.w, s.g (pair c.w), s.g c.z, s.g (pair c.z)]
    let sixRegs : List GReg := [c.x, c.y, c.w, pair c.w, c.z, pair c.z]
    let four : List Word := [s.g c.x, s.g c.y, s.g c.w, s.g c.z]
    let fourRegs : List GReg := [c.x, c.y, c.w, c.z]
    let q : Fin 5 := queueOf (s.g c.w)
    let dst := fillSide four
    Commands s sixRegs q (.copy c) c.hk (noSide s c.hk (s.prepCopy six false)) ∧
    Commands s fourRegs q (.gather c) c.hk (noSide s c.hk (s.prepRows four true)) ∧
    Commands s fourRegs q (.scatter c) c.hk (noSide s c.hk (s.prepRows four false)) ∧
    Commands s fourRegs 0 (.loft c) c.hk (noSide s c.hk (s.prepLoft four)) ∧
    Commands s sixRegs 1 (.reduce c) c.hk (noSide s c.hk (s.prepReduce six)) ∧
    Commands s fourRegs q (.reduceBin c) c.hk (noSide s c.hk (s.prepBin four)) ∧
    Commands s [x, y, w] 1 (.migrate x y w hk) hk (noSide s hk (s.prepMigrate [s.g x, s.g y, s.g w])) ∧
    (let good : Prop := wfld (s.g c.w) 56 2 = 0 ∧ wfld (s.g c.w) 61 3 = 0 ∧ wfld (s.g c.w) 58 3 ≤ 5 ∧ (wfld (s.g c.w) 0 16 + 1) % 2 ^ n.val = 0
     let within : Prop := ∀ k < dst.runs, ∀ b < dst.len, 0 ≤ dst.runAt k ∧ s.inWindow dst.spc ((dst.runAt k).toNat + b) = true
     (good → within →
       Commands s fourRegs q (.fill c n) c.hk (noSide s c.hk
         ⟨dst.footAt 2, .ok ⟨four, if dst.spc = .sp then [footSp 2 dst.hull.1.toNat dst.hull.2.toNat] else [], [], .rne⟩⟩)) ∧
     (wfld (s.g c.w) 58 3 ≤ 5 → ∀ e, s.sideCheck dst = .error e → Commands s fourRegs q (.fill c n) c.hk ⟨dst.footAt 2, .error e⟩) ∧
     (¬ good → (5 < wfld (s.g c.w) 58 3 ∨ within) → Commands s fourRegs q (.fill c n) c.hk ⟨dst.footAt 2, .error (.illegalOperand, none)⟩))) ∧
  ∀ (s : State) (d : Side), 0 < d.len → s.cores.length ≤ 256 → s.devs.length ≤ 256 →
    let at' (k : Nat) : Int := d.base + ((k % (d.c1 + 1) : Nat) : Int) * d.t1 + ((k / (d.c1 + 1) % (d.c2 + 1) : Nat) : Int) * d.t2 +
      ((k / (d.c1 + 1) / (d.c2 + 1) : Nat) : Int) * d.t3
    let inside (k b : Nat) : Prop := 0 ≤ at' k + b ∧ s.inWindow d.spc (at' k + b).toNat = true
    let n := (d.c1 + 1) * (d.c2 + 1) * (d.c3 + 1)
    ((∀ k < n, ∀ b < d.len, inside k b) → s.sideCheck d = .ok ()) ∧
    (∀ k < n, ∀ b < d.len, (∀ j < k, ∀ i < d.len, inside j i) → (∀ i < b, inside k i) → ¬ inside k b →
      s.sideCheck d = .error (.bounds, some (word (at' k + b))))

/-- R18, R156, R229 to R266, R369: the butterfly class at issue, and a COPY with F, which hands both commands of its group over in one step (R215). The
checks of BFS, BFA, ADRAIN, ALOAD and MPACK are those of the model's functions. -/
def Obligations.ButterflyClassIssues : Prop :=
  ∀ (s : State) (f : BfsArgs) (a : BfaArgs) (d : AdrainArgs) (c : ECmd) (x y : GReg) (acc sd : Fin 8) (hk : Hatching) (n : Fin 64) (m kc : Fin 4) (g : Fin 2),
    let small (z : Word) : Prop := -32768 ≤ z.toInt ∧ z.toInt ≤ 32767
    let bfsWords : List Word := [s.g f.e.x, s.g f.e.y, s.g f.e.w] ++ pairWords s f.e.z
    let bfsRegs : List GReg := [f.e.x, f.e.y, f.e.w] ++ pairRegs s f.e.z
    let bfaWords : List Word := [s.g a.x, s.g a.y, 0] ++ pairWords s a.z
    let bfaRegs : List GReg := [a.x, a.y] ++ pairRegs s a.z
    let len := genBytes n g kc
    Commands s bfsRegs 2 (.bfs f) f.e.hk (s.prepBfs f bfsWords) ∧ Commands s bfaRegs 2 (.bfa a) a.hk (s.prepBfa a bfaWords) ∧
    Commands s [x] 2 (.aclr x acc hk) hk (ifOk (small (s.g x)) ⟨[s.g x], [footAcc 2 (2 ^ acc.val)], [], .rne⟩) ∧
    Commands s [x] 2 (.anorm x acc hk) hk (ifOk (small (s.g x)) ⟨[s.g x], [footAcc 3 (2 ^ acc.val)], [], .rne⟩) ∧
    Commands s [d.y] 2 (.adrain d) d.hk (s.prepAdrain d (s.g d.y)) ∧ Commands s [x] 2 (.aload x n m acc hk) hk (s.prepAload n m acc (s.g x)) ∧
    Commands s [x] 2 (.sdset x sd hk) hk (ifOk ((s.g x).toNat < 2 ^ 16) ⟨[s.g x], [], [], .rne⟩) ∧
    Commands s [y] 2 (.chdrain y hk) hk (imageAt (s.g y) 258112 2 (footAcc 1 256)) ∧
    Commands s [x] 2 (.chload x hk) hk (imageAt (s.g x) 258112 1 (footAcc 2 256)) ∧
    Commands s [y] 2 (.scdrain y hk) hk (imageAt (s.g y) 576 2 (footAcc 3 512)) ∧
    Commands s [x] 2 (.scload x hk) hk (imageAt (s.g x) 576 1 (footAcc 3 512)) ∧
    Commands s [] 2 (.scclr hk) hk ⟨[some (footAcc 3 512)], .ok ⟨[], [footAcc 3 512], [], .rne⟩⟩ ∧
    Commands s [c.x, c.y, c.w, c.z] 2 (.mpack c) c.hk (s.prepMpack [s.g c.x, s.g c.y, s.g c.w, s.g c.z]) ∧
    (let at' := (s.g y).toNat
     let w := footSp 2 at' (at' + len - 1)
     Commands s [x, y] 2 (.mgen x y hk n g kc) hk ⟨[if at' + len ≤ 0x400000 then some w else none],
       if at' % 4 ≠ 0 then .error (.illegalOperand, none)
       else if 0x400000 < at' + len then .error (.bounds, some (BitVec.ofNat 64 (max at' 0x400000))) else .ok ⟨[s.g x, s.g y], [w], [], .rne⟩⟩) ∧
    (let pair (r : GReg) : GReg := Fin.ofNat 32 (r.val + 1)
     let six : List Word := [s.g c.x, s.g c.y, s.g c.w, s.g (pair c.w), s.g c.z, s.g (pair c.z)]
     ∀ b bRegs bHk (matrix : Judged), ((b = .bfs f ∧ bRegs = bfsRegs ∧ bHk = f.e.hk ∧ matrix = s.prepBfs f bfsWords) ∨
         (b = .bfa a ∧ bRegs = bfaRegs ∧ bHk = a.hk ∧ matrix = s.prepBfa a bfaWords)) →
       s.core.fe.cur.follow = some b → s.CanIssue ([c.x, c.y, c.w, pair c.w, c.z, pair c.z] ++ bRegs) [] → RoomIn s 0 → RoomIn s 2 →
       (∀ p1 p2, (noSide s c.hk (s.prepCopy six true)).check = .ok p1 → matrix.check = .ok p2 → BoundTo s 0 c.hk → BoundTo s 2 bHk →
         Answers (.copyF c) s (Handed s (appended s 2 (handedCmd s b bHk p2 true) (appended s 0 (handedCmd s (.copyF c) c.hk p1 false) s.core.eng)))) ∧
       (s.CanTrap → ∀ e, (s.prepCopy six true).check = .error e → Answers (.copyF c) s fun t => s.TookTrap 1 e.1 s.core.fe.cur.pc t ∧
         t.core.eng = s.core.eng ∧ FootIs (s.prepCopy six true).foot t))

/-- R282, R283, R285 to R292, R310, R311: the circuit and reshard classes at issue. CEWAIT, RSWAIT and RSWAIT.RECV take their value at once in handler
mode; outside it they enter their queue, which holds the A-pipe, in Strict mode until a set cycle. -/
def Obligations.CircuitAndReshardIssue : Prop :=
  ∀ (s : State) (x y : GReg) (k : Fin 16) (mode : Fin 4) (clr : Bool) (hk : Hatching) (c : ECmd),
    let user : Prop := s.core.fe.handler = false
    let waits (i : Instr) (q : Fin 5) (ops : List Word) (cls : Nat) : Prop := user → RoomIn s q → Answers i s fun t =>
      t.core.eng = { s.core.eng with q := s.core.eng.q.set q.val (s.core.eng.q[q] ++ [handedCmd s i ⟨none, none⟩ ⟨ops, [], [], .rne⟩ false]) } ∧
      t.core.fe = { s.core.fe with aFrom := (if s.strict = true then s.core.fe.cycle + s.pad cls else s.core.fe.aFrom), aStall := false,
                                   xStall := false, stall := 0, adone := true } ∧
      t.core.regs = s.core.regs ∧ t.core.circ = s.core.circ ∧ t.core.mems = s.core.mems ∧ t.mem = s.mem
    let gives (i : Instr) (v : Word) (status : Word) : Prop := s.core.fe.handler = true → Answers i s fun t =>
      t.g x = (if x = 0 then 0 else v) ∧ s.SameG t [x] ∧ t.core.circ = { s.core.circ with status := status } ∧ t.core.eng = s.core.eng ∧
      t.core.mems = s.core.mems ∧ t.mem = s.mem
    let status : Word := s.core.circ.status ||| (if s.core.circ.dirty = [] then 0 else 8)
    (Commands s [] 3 (.cload k hk) hk (ifOk (user ∧ (s.core.sys.creg[k]).getLsbD 63 = true) ⟨[s.core.sys.creg[k]], [], [], .rne⟩)) ∧
    (Commands s [x, y] 3 (.eval x y k hk) hk (s.prepEval k (s.g x) (s.g y))) ∧
    (Commands s [x, y] 3 (.pupd x y hk) hk ⟨[], if user ∧ (s.g x).toNat < 4096 then
      (if cxOk (s.g y).toNat = true then .ok ⟨[s.g x, s.g y], [], [], .rne⟩ else .error (.cxFormat, none)) else .error (.illegalOperand, none)⟩) ∧
    (Commands s [x, y] 3 (.ceout x y k mode hk) hk (s.prepCeout k mode.val (s.g x) (s.g y))) ∧
    (Commands s [c.x, c.y, c.w, c.z] 4 (.reshard c) c.hk ⟨[], recordAt (s.g c.x) 256 (recordAt (s.g c.y) 256 (recordAt (s.g c.w) 64
      (let fin : Check Prep := if user then .ok ⟨[s.g c.x, s.g c.y, s.g c.w, s.g c.z], [], [], .rne⟩ else .error (.illegalOperand, none)
       if c.z = 0 then fin else recordAt (s.g c.z) 2112 fin)))⟩) ∧
    (s.CanIssue [] [x] → waits (.cewait x clr) 3 [] 9 ∧ gives (.cewait x clr) status (if clr then s.core.circ.status &&& ~~~ 7 else s.core.circ.status)) ∧
    (s.CanIssue [] [x] → waits (.rswait x) 4 [] 10 ∧ gives (.rswait x) s.core.rsLast s.core.circ.status) ∧
    (s.CanIssue [y] [x] → (s.g y).toNat % 64 = 0 → (s.g y).toNat + 2112 ≤ 2 ^ 56 →
      waits (.rswaitRecv x y) 4 [s.g y] 10 ∧
      (∀ ks, let u := s.fillWalks .cl ((s.g y).toNat + 16) 8
        s.pkg.poison = [] → s.pkg.weak = [] → u.keysWalk .cl ((s.g y).toNat + 16) 8 false = .ok ks → s.core.fe.handler = true →
        Answers (.rswaitRecv x y) s fun t => t.g x = (if x = 0 then 0 else BitVec.ofNat 64 (leNat (ks.map u.mem.read))) ∧ s.SameG t [x] ∧
          t.core.circ = s.core.circ ∧ t.core.eng = s.core.eng ∧ t.core.mems = s.core.mems ∧ t.mem = u.mem)) ∧
    (s.CanIssue [y] [x] → s.CanTrap → (s.g y).toNat % 64 ≠ 0 → Answers (.rswaitRecv x y) s fun t => s.TookTrap 1 .illegalOperand s.core.fe.cur.pc t)

/-- R203, R216, R220, R229, R254, R259, R279, R280, R282, R291, R311: commands start and take their effect: a FILL of one run of the scratchpad, a REDUCE.BIN, which
then waits for its exchange, the commands of the butterfly queue that make no check at their start, ACLR, ANORM's queue, SDSET, PUPD, CEWAIT and RSWAIT. -/
def Obligations.EnginesWork : Prop :=
  ∀ (s : State) (c : EngCmd) (rest : List EngCmd),
    let ready : Prop := c.st = .waiting ∧ c.pop = none ∧ s.edgesMet c = true ∧ c.handler = false ∧ (∀ d ∈ rest, d.seq ≠ c.seq ∧ d.st ≠ .running)
    let head (q : Fin 5) : Prop := s.core.eng.q[q] = c :: rest ∧ Moves s q
    let started : EngCmd := { c with popped := true, st := .running }
    let user : Prop := s.core.fe.handler = false
    (∀ (e : ECmd) (w : Fin 4) (x y sh z : Word), head 0 → ready → c.instr = .fill e w → c.out = [] → c.ops = [x, y, sh, z] → wfld sh 58 3 = 0 → wfld sh 16 32 = 0 →
      wfld sh 48 8 = 0 → Answers (.copyCommandStart false) s fun t =>
        Worked s 0 ({ c with popped := true, st := .done } :: rest) t ∧ t.core.sys = s.core.sys ∧ t.core.qs = s.core.qs ∧ t.pkg = s.pkg ∧
        ∀ a, t.core.mems.sp.read a = if y.toNat ≤ a ∧ a < y.toNat + (wfld sh 0 16 + 1) then byteOf x ((a - y.toNat) % 2 ^ w.val) else s.core.mems.sp.read a) ∧
    (∀ (e : ECmd) (out : Bool) (q : Fin 5), q = (if out then 1 else 0) → head q → ready → c.instr = .reduceBin e → s.groupBusy (wfld (c.ops.getD 3 0) 48 16) = false →
      Answers (.copyCommandStart out) s fun t => Worked s q (started :: rest) t ∧ t.core.sys = s.core.sys ∧ t.core.qs = s.core.qs ∧ t.core.mems = s.core.mems ∧
        t.pkg = { s.pkg with links := t.pkg.links }) ∧
    (head 2 → ready → user → c.follow = false → (∀ a, c.instr ≠ .bfs a) → (∀ a, c.instr ≠ .bfa a) → Answers .butterflyCommandStart s fun t =>
      Worked s 2 (started :: rest) t ∧ t.core.sys = s.core.sys ∧ t.core.qs = s.core.qs ∧ t.core.mems = s.core.mems ∧ t.pkg = s.pkg) ∧
    (head 2 → c.st = .running → c.push = none → c.handler = false → s.core.fe.unit = .running → (∀ d ∈ rest, d.seq ≠ c.seq) →
      (∀ x sd hk, c.instr = .sdset x sd hk → Answers .butterflyCommandComplete s fun t => Worked s 2 rest t ∧
        t.core.sys = { s.core.sys with sd := s.core.sys.sd.set sd.val (c.ops.getD 0 0) } ∧ t.core.qs = s.core.qs ∧ t.core.mems = s.core.mems ∧ t.pkg = s.pkg) ∧
      (∀ x acc hk, c.instr = .aclr x acc hk → s.core.mems.acc.wf = true → Answers .butterflyCommandComplete s fun t => Worked s 2 rest t ∧
        t.core.sys = s.core.sys ∧ t.core.qs = s.core.qs ∧ t.core.mems.sp = s.core.mems.sp ∧ t.pkg = s.pkg ∧
        ∀ tile < 8, ∀ m < 64, ∀ o < 256, t.acc tile m o = if tile = acc.val then (c.ops.getD 0 0).toNat % 2 ^ 16 else s.acc tile m o)) ∧
    (head 3 → ready → user → s.core.circ.untold = false →
      (∀ x y hk i v, c.instr = .pupd x y hk → c.ops = [i, v] → Answers .circuitCommandStart s fun t =>
        Worked s 3 ({ c with popped := true, st := .done } :: rest) t ∧ t.core.sys = s.core.sys ∧ t.core.mems = s.core.mems ∧
        (∀ j, look cxZero t.core.circ.pend j = if j = i.toNat then v.toNat else look cxZero s.core.circ.pend j) ∧
        (∀ j, j ∈ t.core.circ.dirty ↔ j ∈ s.core.circ.dirty ∨ j = i.toNat) ∧
        t.core.circ = { s.core.circ with pend := t.core.circ.pend, dirty := t.core.circ.dirty }) ∧
      (∀ x clr, c.instr = .cewait x clr → Answers .circuitCommandStart s fun t =>
        t.core.eng = { s.core.eng with q := s.core.eng.q.set 3 ({ c with st := .done } :: rest) } ∧
        t.g x = (if x = 0 then 0 else s.core.circ.status ||| (if s.core.circ.dirty = [] then 0 else 8)) ∧ s.SameG t [x] ∧
        t.core.circ = { s.core.circ with status := if clr then s.core.circ.status &&& ~~~ 7 else s.core.circ.status } ∧ t.core.mems = s.core.mems)) ∧
    (head 4 → ready → user → ∀ x, c.instr = .rswait x → Answers .reshardCommandStart s fun t =>
      t.core.eng = { s.core.eng with q := s.core.eng.q.set 4 ({ c with st := .done } :: rest) } ∧
      t.g x = (if x = 0 then 0 else s.core.rsLast) ∧ s.SameG t [x] ∧ t.core.mems = s.core.mems ∧ t.core.resh = s.core.resh ∧ t.pkg = s.pkg)

/-- R40, R156, R203, R221, R224, R229, R244, R277, R278, R282, R305, R306: a completed command at the head of its queue retires when its push finds room, with the
token's ready time in Strict mode; the side path's oldest command completes; a page arrives in a frame; a REDUCE.BIN writes its sums when every party's data
is there; a sub-transfer is written and counted once; an acknowledgement out of order is kept. -/
def Obligations.EnginesRetireAndExchange : Prop :=
  ∀ (s : State) (c : EngCmd) (rest : List EngCmd),
    let retires (i : Instr) (q : Fin 5) (cls : Nat) : Prop := s.core.eng.q[q] = c :: rest → c.st = .done → s.core.fe.unit = .running →
      (∀ h, c.push = some h → (s.core.qs.h[h].toks).length < 16) → Answers i s fun t =>
        Worked s q rest t ∧ t.core.sys = s.core.sys ∧ t.core.mems = s.core.mems ∧ t.pkg = s.pkg ∧
        t.core.qs = { s.core.qs with h := match c.push with
          | none => s.core.qs.h
          | some h => s.core.qs.h.set h.val ⟨s.core.qs.h[h].bind, s.core.qs.h[h].toks ++ [if s.strict = true then some (c.cycle + s.pad cls) else none]⟩ }
    retires (.copyCommandRetire false) 0 7 ∧ retires (.copyCommandRetire true) 1 7 ∧ retires .circuitCommandRetire 3 9 ∧ retires .reshardCommandRetire 4 10 ∧
    ((∀ d ∈ rest, d.st ≠ .running) → retires .butterflyCommandComplete 2 8) ∧
    (∀ x sd hk, s.core.eng.side = c :: rest → c.instr = .sdset x sd hk → c.pop = none → c.push = none → s.edgesMet c = true →
      (∀ d ∈ s.core.eng.q[(2 : Fin 5)], d.st ≠ .running) → s.core.fe.unit = .running → Answers .sidePathCommandComplete s fun t =>
        t.core.eng = { s.core.eng with side := rest } ∧ t.core.sys = { s.core.sys with sd := s.core.sys.sd.set sd.val (c.ops.getD 0 0) } ∧
        t.core.regs = s.core.regs ∧ t.core.mems = s.core.mems ∧ t.mem = s.mem ∧ t.pkg = s.pkg) ∧
    (∀ (p : Nat) (ks : List Nat), let r := s.core.circ
      let n := min 16384 (16 * r.nrec - 16384 * p)
      let spc : Space := if r.reg.getLsbD 62 then .cl else .at
      let a := wfld r.reg 0 40 * 2 ^ 16 + r.offPages + 16384 * p
      let u := s.fillWalks spc a n
      s.core.fe.unit = .running → p ∈ r.flight → s.pkg.poison = [] → s.pkg.weak = [] → (∀ d ∈ s.core.eng.q[(3 : Fin 5)], d.st ≠ .running) →
      u.keysWalk spc a n false = .ok ks →
      Answers (.pageFetch p) s fun t => t.core.circ = { r with
          frames := (if r.frames.length < 8 then r.frames else r.frames.take 7) ++ [(p, ks.map u.mem.read)], flight := r.flight.filter (fun x => x ≠ p) } ∧
        t.core.eng = s.core.eng ∧ t.core.regs = s.core.regs ∧ t.core.mems = s.core.mems ∧ t.mem = u.mem ∧ t.pkg = u.pkg) ∧
    (∀ (e : ECmd) (z x y sh : Word) (ty : ElemTy) (others : List (Nat × Word × List Nat)),
      s.core.eng.q[(0 : Fin 5)] = c :: rest → c.instr = .reduceBin e → c.st = .running → c.handler = false → c.out = [] → s.core.fe.unit = .running → s.pkg.poison = [] → s.pkg.weak = [] →
      c.ops = [x, y, sh, z] → c.fmts = [ty] →
      (∀ d ∈ rest, d.seq ≠ c.seq) → wfld sh 61 3 = 0 → wfld sh 58 3 = 0 → ty ∈ [ElemTy.h16, .bf16, .fp32] → (wfld sh 0 16 + 1) % (ty.width / 8) = 0 →
      s.core.mems.sp.wf = true →
      let n := (wfld sh 0 16 + 1) / (ty.width / 8)
      let me := wfld z 24 12
      let parties := (List.range (wfld z 36 12 + 1)).filter (· ≠ me)
      let data (p : Nat) : Option (Nat × Word × List Nat) := others.find? fun o => o.1 == p && wfld o.2.1 48 16 == wfld z 48 16
      (∀ o ∈ others, wfld o.2.1 48 16 = wfld z 48 16) → (∀ p ∈ parties, ∃ o, data p = some o ∧
        o.2.2.length = n ∧ (∀ b < 64, b < 24 ∨ 36 ≤ b → o.2.1.getLsbD b = z.getLsbD b) ∧ s.pkg.cutDev s.devs p = none) →
      let mine := (List.range n).map fun i => lane ty.width (leNat ((List.range (wfld sh 0 16 + 1)).map fun j => s.core.mems.sp.read (x.toNat + j))) i
      Answers (.reduceBinExchange others) s fun t =>
        Worked s 0 ({ c with popped := true, st := .done } :: rest) t ∧ t.pkg = s.pkg ∧ t.core.sys = s.core.sys ∧
        (∀ a, a < y.toNat ∨ y.toNat + (wfld sh 0 16 + 1) ≤ a → t.core.mems.sp.read a = s.core.mems.sp.read a) ∧
        ∀ i < n, ∃ r, (binSums ty c.rm (mine :: parties.filterMap fun p => (data p).map (·.2.2)) n)[i]? = some r ∧
          lane ty.width (leNat ((List.range (wfld sh 0 16 + 1)).map fun j => t.core.mems.sp.read (y.toNat + j))) i = r % 2 ^ ty.width) ∧
    (∀ (key gen sender ord e rcv ex : Nat) (cells : List (Nat × Byte)) (d : RsSide) (u : State), (s.pkg.rsSides.find? fun x => x.key == key && x.gen == gen) = some d →
      s.partWord d.part (d.record + 64 + 8 * sender) = some e → s.partWord d.part (d.record + 16) = some rcv → s.partWord d.part (d.record + 8) = some ex →
      s.putCells d.part cells = some u → s.pkg.rsFly = [] →
      (ord < e % 2 ^ 60 → Answers (.subTransfer key gen sender ord cells) s fun t => t.mem = u.mem ∧ t.pkg = u.pkg ∧ t.core.regs = s.core.regs) ∧
      (∀ v w, ord = e % 2 ^ 60 → e < 2 ^ 60 → u.partPut d.part (d.record + 64 + 8 * sender) (leBytes 8 (ord + 1)) = some v →
        v.partPut d.part (d.record + 16) (leBytes 8 (rcv + cells.length)) = some w → Answers (.subTransfer key gen sender ord cells) s fun t =>
          t.mem = w.mem ∧ t.core.regs = s.core.regs ∧
          t.pkg.rsSides = s.pkg.rsSides.map fun x => if x = d ∧ rcv + cells.length = ex then { x with ended := true } else x)) ∧
    (∀ (ix : Nat) (r : Resh) (f : RsSend), s.core.resh = some r → s.core.eng.q[(4 : Fin 5)] = c :: rest → c.st = .running → s.pkg.rsFly = [f] → f.core = s.core.idx →
      f.ix = ix → f.landed = true → s.core.fe.unit = .running → ix ≠ r.old → r.old ∉ r.acked → Answers (.subTransferAck ix) s fun t =>
        t.core.resh = some { r with acked := ix :: r.acked } ∧ t.pkg = { s.pkg with rsFly := [] } ∧ t.core.eng = s.core.eng ∧ t.mem = s.mem ∧
        t.core.regs = s.core.regs)

/-! ### The device -/

namespace Sys2Proof.Machine

/-- R62, R112: the word at an aligned code address is w. It stands in a cached line, or in memory where the line translates; `u` is the
state in which the line is cached. -/
def CodeAt (s : State) (a w : Nat) (u : State) : Prop :=
  a % 8 = 0 ∧ a + 8 ≤ 2 ^ 56 ∧
  ((∃ l, s.icLine (a / 64) = some l ∧ leNat ((List.range 8).map fun i => l.getD (a % 64 + i) 0) = w ∧ u = s) ∨
   (s.icLine (a / 64) = none ∧ s.mem.wf = true ∧ ∃ k, s.xlate .cl (a / 64 * 64) false = .key k ∧
     leNat ((List.range 8).map fun i => s.mem.read (k + a % 64 + i)) = w ∧ u = s.fillIc (a / 64) k))

/-- R69, R78: an instruction that is dispatched alone: no prefix, no COPY with F, no LOOP, no micro-form, and no VLI that needs XIMM. -/
def PlainWord (i : Instr) : Prop :=
  isMicro i = false ∧ i.isPrefix = false ∧ isCopyF i = false ∧ (∀ c n k, i ≠ .loop c n k) ∧ i.soloOk = true

/-- Dispatch may take a word in this cycle (R17, R36, R126). -/
structure Front.CanDispatch (f : Front) : Prop where
  unit : f.unit = .running ∨ (f.unit = .ending ∧ f.handler = true)
  block : f.block = false
  hold : f.hold = 0
  slot : f.slot < 2
  part : f.part = 0
  mac : f.mac = none
  skip : f.skip = []

/-- The slot of a plain word at the PC. -/
def plainSlot (s : State) (i : Instr) : Slot :=
  ⟨i, s.core.fe.pc, s.core.fe.pc + 8, none, none, none, [], false, none, s.core.fe.seq, atDispatch i, false, s.core.sys.mloopStk⟩

/-- The front end after the dispatch of a plain word (R16, R17). -/
def Dispatched (s : State) (i : Instr) (f : Front) : Front :=
  { f with aq := if i.isX then f.aq else f.aq ++ [plainSlot s i], xq := if i.isX then f.xq ++ [plainSlot s i] else f.xq, seq := f.seq + 2 ^ 32,
           bnd := false, slot := f.slot + 1, part := 0, pc := f.pc + 8, block := blocks i }

/-- The unit of the core that moves has stopped early (R29, R124, R126, R220, R309): nothing of it is dispatched or issued any more, its queue stores without
an item and its streams are gone, its commands that had not started are discarded, as are those that wait for another device only, and its counter has taken a
final state. Its sub-transfers to this device land with no command waiting for them. -/
structure StoppedEarly (s : State) (fin : Nat) (t : State) : Prop where
  unit : t.core.fe.unit = .ended
  aq : t.core.fe.aq = []
  xq : t.core.fe.xq = []
  handler : t.core.fe.handler = false
  fly : t.core.regs.fly = []
  rpl : t.core.regs.rpl = []
  takers : ∀ q : Fin 4, t.core.qs.taker[q] = []
  streams : ∀ q : Fin 8, t.core.qs.lin[q] = []
  eng : s.core.fe.fault = none → ∀ q : Fin 5, t.core.eng.q[q] = s.core.eng.q[q].filter fun c => c.st != .waiting && !c.waitsOut
  resh : t.core.resh = none
  pkg : ∃ b, t.pkg = (({ s.pkg with bbox := b } : Package).orphan s.core.idx).endUnit s.uctr fin
  g : t.core.regs.g = s.core.regs.g
  mems : t.core.mems = s.core.mems
  mem : t.mem = s.mem

end Sys2Proof.Machine

open Sys2Proof Sys2Proof.Machine

/-- R16, R17, R112, R113, R162, R163: a plain word at the PC is dispatched into the queue of its pipe, and fetch goes on behind it, or at the target of a
branch that dispatch resolves; results whose X-cycle has come land although nothing issues or waits to issue. R117, R124 to R126, R159: HATCH_DEADLOCK after 2^20 cycles without
progress, with what holds the A-pipe named in TRAP.INFO; in handler mode it ends the unit with DOUBLE_TRAP. A request inside a macro of which no MBND has
retired for 2^20 cycles since ends the unit FAULTED with MACRO_NO_BOUNDARY, and its Porch entries go. R25 to R28, R36: a unit that has issued DONE completes when its pipes, queues
and engines are empty: its counter ends COMPLETE and the core is free, while registers, memories and Porch entries stay. -/
def Obligations.FrontEndMoves : Prop :=
  (∀ (s u : State) (w : Nat) (i : Instr),
    let f := s.core.fe
    (CodeAt s f.pc.toNat w u → decodeWord w = .ok i → PlainWord i → f.CanDispatch → f.roomFor i [] = true →
      (atDispatch i = false → Answers .instructionDispatch s fun t => t = u.fe (Dispatched s i)) ∧
      (∀ a b off, i = .br .always a b off ∨ i = .call a off → Answers .instructionDispatch s fun t => t = u.fe fun g =>
        { Dispatched s i g with pc := f.pc + 8 * off.signExtend 64, block := false, hold := 3, slot := 2 })) ∧
    ((∃ r ∈ s.core.regs.fly, r.due ≤ f.xnow + 1) → (f.unit = .running ∨ f.unit = .ending) → f.kernel = none → f.xq = [] → f.xStall = false →
      (∀ r ∈ s.core.regs.fly, r.due ≤ f.xnow + 1 → ∀ h ∈ r.pushes, s.core.qs.h[h].toks.length < 16) →
      Answers .landAt s fun t => t = s.nextX.progress ∧
        t.core.regs.fly = s.core.regs.fly.filter (fun r => decide (f.xnow + 1 < r.due)) ∧ t.core.fe.xnow = f.xnow + 1 ∧
        t.core.fe.xahead = f.xahead + (if f.xowed then 0 else 1) ∧ t.core.regs.g = s.core.regs.g ∧ t.mem = s.mem ∧ t.pkg = s.pkg)) ∧
  (∀ (s : State),
    let f := s.core.fe
    (2 ^ 20 ≤ f.stall → (f.unit = .running ∨ f.unit = .ending) → s.CanTrap → Answers .hatchDeadlock s fun t => s.TookTrap 0 .hatchDeadlock f.aPc t ∧
      t.core.sys.trapOpc = f.xPc?.getD f.aPc ∧ t.core.sys.trapInfo = BitVec.ofNat 64 s.stallInfo ∧
      (∀ c h, f.aq.head? = some c → c.instr = .hpop h none → wbit t.core.sys.trapInfo h.val = true)) ∧
    (2 ^ 20 ≤ f.stall → (f.unit = .running ∨ f.unit = .ending) → f.handler = true → Answers .hatchDeadlock s fun t =>
      t.core.fe.unit = .ended ∧ wfld t.core.sys.trapCause 0 8 = 0x23 ∧ t.core.sys.trapPc = s.core.sys.trapPc ∧ t.core.regs.g = s.core.regs.g) ∧
    (∀ n, f.preReq = some n → n + 2 ^ 20 ≤ f.cycle → f.mac ≠ none → f.bndSeen = false → Answers .macroNoBoundary s fun t => StoppedEarly s 5 t ∧
      wfld t.core.sys.trapCause 0 8 = 0x22 ∧ t.core.lsu.porch = s.core.lsu.porch.filter fun e => !s.ownEntry e)) ∧
  (∀ s : State, s.core.fe.unit = .ending → s.core.fe.handler = false → s.core.fe.aq = [] → s.core.fe.xq = [] → s.core.fe.kernel = none →
    s.core.regs.fly = [] → s.core.fe.hpushes = [] → (∀ q : Fin 4, s.core.qs.sq[q] = [] ∧ ∀ x ∈ s.core.qs.taker[q], isStream x = true) →
    s.core.lsu.acc = [] → s.core.lsu.heldSt = [] → s.core.lsu.ms = [] → (∀ q : Fin 5, s.core.eng.q[q] = []) → s.core.eng.side = [] →
    Answers .completionRaised s fun t => t.pkg = s.pkg.endUnit s.uctr 2 ∧ t.core.fe.unit = .empty ∧ t.core.slot = { s.core.slot with act := 0 } ∧
      t.core.qs = Queues.reset ∧ t.core.lsu.porch = s.core.lsu.porch ∧ t.core.regs = s.core.regs ∧ t.core.sys = s.core.sys ∧ t.core.mems = s.core.mems ∧
      t.mem = s.mem ∧ t.others = s.others)

/-- R16, R17, R62, R69 to R74: a step dispatches the group at the PC, and where its pipe holds nothing else, runs its instruction in the same step. The step
is the machine's own when nothing of the device is enabled, or the agenda asks for it. -/
def Obligations.StepRunsDecoded : Prop :=
  ∀ (s u : State) (rest : List Turn) (w : Nat) (i : Instr),
    let s' : State := { s with agenda := rest }
    let f := s.core.fe
    let idle : Prop := f.aq = [] ∧ f.xq = [] ∧ f.kernel = none ∧ f.aStall = false ∧ f.xStall = false ∧ f.adone = false ∧ f.xdone = false ∧
      f.preReq = none ∧ f.causes = []
    (s.agenda = [] ∧ rest = [] ∧ s.device = none) ∨ s.agenda = .step :: rest →
    idle → f.CanDispatch →
    (CodeAt s' f.pc.toNat w u → decodeWord w = .ok i → PlainWord i →
      step s = exec i ((u.dispatchMem (plainSlot s i) 1).fe fun g => { g with aq := [], xq := [], cur := plainSlot s i })) ∧
    (∀ n x st fo ke, s'.nextGroup = .ok n i x st fo ke → f.slot + n ≤ 2 → f.roomFor i ke = true →
      let c : Slot := ⟨i, f.pc, f.pc + BitVec.ofNat 64 (8 * n), x, st, fo, ke, st.isSome || x.isSome || fo.isSome, none, f.seq, atDispatch i, false,
        s.core.sys.mloopStk⟩
      step s = exec i ((s'.dispatchMem c n).fe fun g => { g with aq := [], xq := [], cur := c }))

namespace Sys2Proof.Machine

/-- R352: an entry of the job ring has been read: its word 7 holds the status and a counter, HEAD passes it, and no other byte of memory has changed. -/
def RingDone (s : State) (status ctr : Nat) (t : State) : Prop :=
  let at' := keyHost ((s.pkg.ring.entry + 56) % 2 ^ 52)
  t.pkg.ring = { s.pkg.ring with head := s.pkg.ring.head + 1 } ∧
  (∀ a, t.mem.read a = if at' ≤ a ∧ a < at' + 8 then BitVec.ofNat 8 ((status * 2 ^ 56 + ctr * 2 ^ 44) / 2 ^ (8 * (a - at'))) else s.mem.read a) ∧
  t.core = s.core ∧ t.others = s.others

/-- The refusal of a ring entry changes nothing but the ring. -/
def RingRefused (s : State) (status : Nat) (t : State) : Prop :=
  RingDone s status 0 t ∧ t.pkg = { s.pkg with ring := t.pkg.ring }

/-- An instance of a level has taken entry k of the counter table (R25, R26). -/
def TookEntry (s : State) (k state level outstanding : Nat) (parent : Option Nat) (job : Nat) (t : State) : Prop :=
  t.pkg.counter k = ⟨true, ((s.pkg.counter k).gen + 1) % 4096, state, level, 0, outstanding, parent, job, 0⟩

/-- The location of a drained byte of the vault (R102, R331). -/
def drainAt (p : Partition) (c : DrainCell) : Nat :=
  if c.entry.vault < 144 then keyVault c.entry.vault (64 * c.entry.chunk + c.off) else keyCl (p.ovf + (64 * c.entry.chunk + c.off))

end Sys2Proof.Machine

open Sys2Proof Sys2Proof.Machine

/-- R26 to R28: When a unit's counter ends, its launch has one child less outstanding, one more failed where the unit did not complete; the last child ends
the launch, which its graph counts in turn. R27 to R29: when the last phase of a closed job has ended, the job ends COMPLETE, or FAULTED where a child of it
did not complete; a phase that ends FAULTED or CANCELLED of a job that is being cancelled ends the job and drops its later phases. Otherwise its next phase
starts. -/
def Obligations.CountersFollow : Prop :=
  (∀ (p : Package) (k l fin : Nat),
    let c := p.counter k
    let d := p.counter l
    let q := p.endUnit k fin
    let less (x : Counter) (bad : Prop) [Decidable bad] : Counter :=
      { x with outstanding := x.outstanding - 1, failed := if bad then min (x.failed + 1) 0xFFFFFF else x.failed }
    let open' (n : Nat) : Prop := n ≠ 2 ∧ n ≠ 4 ∧ n ≠ 5
    c.live = true → open' c.state → c.parent = some l → k ≠ l → d.level = 2 → open' d.state → (∀ g ∈ p.graphs, ∀ x ∈ g.launches, x.st ≠ 0) →
    (2 ≤ d.outstanding → q.counter k = { c with state := fin, outstanding := 0, live := false } ∧ q.counter l = less d (fin ≠ 2) ∧
      ∀ j, j ≠ k → j ≠ l → q.counter j = p.counter j) ∧
    (∀ g, d.outstanding = 1 → d.parent = some g → g ≠ k → g ≠ l → (p.counter g).level = 3 → 2 ≤ (p.counter g).outstanding →
      let d' := less d (fin ≠ 2)
      let e : Nat := if d.state = 3 then 4 else if d'.failed = 0 then 2 else 5
      q.counter k = { c with state := fin, outstanding := 0, live := false } ∧ q.counter l = { d' with state := e, live := false } ∧
      q.counter g = less (p.counter g) (e ≠ 2) ∧ ∀ j, j ≠ k → j ≠ l → j ≠ g → q.counter j = p.counter j)) ∧
  (∀ (p : Package) (k j fin : Nat) (x : Job) (ph : Phase) (later : List Phase),
    let c := p.counter j
    let q := p.phaseEnded k j fin
    let failed := if fin ≠ 2 then min (c.failed + 1) 0xFFFFFF else c.failed
    k ≠ j → c.live = true → c.level = 5 → c.parent = none → p.phases = ph :: later → ph.ctr = k → (∀ f ∈ later, f.ctr ≠ k ∧ f.ctr ≠ j ∧ f.job = j) →
    (p.counter k).live = true → p.graphs = [] → (p.jobs.find? fun y => y.ctr == j) = some x → x.closed = true →
    (∀ y ∈ p.jobs, y.ctr = j → y.service = false) →
    q.counter k = { p.counter k with state := fin, outstanding := 0, live := false } ∧
    (later = [] → c.state = 1 → fin ≠ 5 → q.counter j = { c with state := if failed = 0 then 2 else 5, outstanding := 0, failed := failed } ∧ q.phases = []) ∧
    (c.state = 1 → fin = 5 → q.counter j = { c with state := 5, outstanding := 0, failed := failed } ∧ q.phases = []) ∧
    (c.state = 3 → q.counter j = { c with state := 4, outstanding := 0, failed := failed } ∧ q.phases = []) ∧
    (∀ f rest, later = f :: rest → c.state = 1 → fin = 2 → (p.counter f.ctr).state = 0 → (∀ y ∈ rest, y.ctr ≠ f.ctr) →
      q.counter j = { c with outstanding := c.outstanding - 1 } ∧ q.counter f.ctr = { p.counter f.ctr with state := 1 } ∧
      q.phases = { f with started := true } :: rest))

/-- R8, R21, R26, R38, R352, R353: the job ring. A doorbell moves TAIL, or sets OVR when it would overfill the ring. An entry whose OP names nothing ends
BAD_OP. JOB makes a job of the descriptor, or ends REFUSED or TIMING_FLOOR; PHASE_END closes the current phase and JOB_END the job, which ends when no phase
is left. -/
def Obligations.JobRingEntries : Prop :=
  ∀ (s : State) (tail : Word) (k : Nat) (j : Job),
    let r := s.pkg.ring
    let d := s.hostBytes (s.ringWord 2) 4096
    let part := fld (s.ringWord 0) 52 4
    (s.pkg.fatal = false → Answers (.jobringTail tail) s fun t =>
      t = if 2 ^ min 16 (max 6 (wfld r.base 0 5)) < (tail - r.head).toNat then s.pkgd fun p => { p with mboxStat := p.mboxStat ||| 0x200 }
        else s.pkgd fun p => { p with ring := { r with tail := tail } }) ∧
    (s.pkg.booted = true → s.pkg.fatal = false → r.head.toNat < r.tail.toNat →
      (s.ringOp = 0 ∨ 5 ≤ s.ringOp → Answers .job s (RingRefused s 1)) ∧
      (let bad : Prop := s.ringRsvd = true ∨ s.ringWord 3 ≠ leNat ((d.drop 160).take 8) ∨ s.descBad d part = true
       let low : Prop := (leNat (d.take 8)).testBit 0 = true ∧
         ∃ i ∈ List.range 11, leNat ((d.drop (8 + 8 * i)).take 8) < [12, 164, 644, 1244, 1400, 4000, 6000, 1, 1, 1, 1].getD i 0
       (s.ringOp = 1 → bad → Answers .job s (RingRefused s 4)) ∧ (s.ringOp = 1 → ¬ bad → low → Answers .job s (RingRefused s 3)) ∧
       (s.ringOp = 1 → ¬ bad → ¬ low → s.entryRoom 1 = true → s.freeEntry = some k → Answers .job s fun t =>
        RingDone s 0 k t ∧ TookEntry s k 1 5 0 none k t ∧ (∀ i, i ≠ k → t.pkg.counter i = s.pkg.counter i) ∧
          ∃ x : Job, t.pkg.jobs = s.pkg.jobs ++ [x] ∧ x.ctr = k ∧ x.part = part ∧ x.cls = fld (s.ringWord 0) 49 3 ∧ x.closed = false ∧ x.service = false ∧
            x.strict = (leNat (d.take 8)).testBit 0 ∧ x.ckptMs = leNat ((d.drop 144).take 8) ∧
            x.attic = BitVec.ofNat 64 (leNat ((d.drop 136).take 8)) ∧ x.auth = (d.drop 160).take 32 ∧ x.authKey = (d.drop 192).take 64 ∧
            x.pads = (List.range 16).map (fun i => BitVec.ofNat 64 (leNat ((d.drop (8 + 8 * i)).take 8))) ∧
            x.devs = (List.range (leNat ((d.drop 152).take 8) % 512)).map fun i =>
              let e := leNat ((d.drop (1024 + 8 * i)).take 8)
              (e / 2 ^ 32 % 256, e / 2 ^ 52 % 16))) ∧
      (s.ringOp = 3 → (s.ringJob = none ∨ s.ringRsvd = true) → Answers .phaseEnd s (RingRefused s 4)) ∧
      (s.ringOp = 3 → s.ringJob = some j → s.ringRsvd = false → Answers .phaseEnd s fun t => RingDone s 0 0 t ∧
        t.pkg = { s.pkg with ring := t.pkg.ring
                             phases := s.pkg.phases.map fun f => if f.job = j.ctr then { f with closed := true } else f }) ∧
      (s.ringOp = 4 → (s.ringJob = none ∨ s.ringRsvd = true) → Answers .jobEnd s (RingRefused s 4)) ∧
      (s.ringOp = 4 → s.ringJob = some j → s.ringRsvd = false → (∀ y ∈ s.pkg.jobs, y.ctr = j.ctr → y.service = false) → Answers .jobEnd s fun t => RingDone s 0 0 t ∧
        t.pkg.phases = s.pkg.phases.map (fun f => if f.job = j.ctr then { f with closed := true } else f) ∧
        t.pkg.jobs = s.pkg.jobs.map (fun x => if x.ctr = j.ctr then { x with closed := true } else x) ∧
        let c := s.pkg.counter j.ctr
        (∀ i, i ≠ j.ctr → t.pkg.counter i = s.pkg.counter i) ∧
        t.pkg.counter j.ctr = if (∃ f ∈ s.pkg.phases, f.job = j.ctr) then c
          else { c with state := if c.failed = 0 then 2 else 5, outstanding := 0 }))

/-- R21, R22, R26, R33, R318, R336, R352: GRAPH puts a graph into the job's open phase, or into a new one, whose first graph takes the phase its entry; a
descriptor that breaks a limit or a job that takes no entry ends REFUSED, a gang that the partition cannot hold PARKED_CAP. A launch of a unit of the job's
loaded objects that has a Loft image names the image's address in LOFT. A launch of a running graph starts once every launch with an edge into it has ended
COMPLETE, and takes a free entry in the order in which launches became ready; that a launch's unit is told by its ENTRY is the model's
(notes/assumptions/118.md). -/
def Obligations.GraphsAndLaunches : Prop :=
  ∀ (s : State) (j : Job) (k n : Nat),
    let ls := s.descLaunches (s.ringWord 2)
    let es := s.descEdges (s.ringWord 2)
    let units := (s.pkg.loaded.filter fun o => o.job = j.ctr).flatMap (·.units)
    let loft (l : Launch) : Launch :=
      match units.find? fun u => u.entry == wfld (l.words.getD 0 0) 0 56 with
      | some (u : UnitImg) => (match u.loft with | some x => { l with words := l.words.take 3 ++ BitVec.ofNat 64 x.addr :: l.words.drop 4 } | none => l)
      | none => l
    let free (k : Nat) : Prop := (s.pkg.counter k).live = false ∧ s.watched k = false
    let fits : Prop := ∀ l ∈ ls, l.gang = true → l.units ≤ (s.jobCores j.ctr).length
    let one (c : Counter) : Counter := { c with outstanding := c.outstanding + 1 }
    (s.hearthUp = true → s.pkg.ring.head.toNat < s.pkg.ring.tail.toNat → s.ringOp = 2 →
      (s.ringJob = none → Answers .graph s (RingRefused s 4)) ∧
      (s.ringJob = some j → (s.ringRsvd = true ∨ graphBad ls es = true) → Answers .graph s (RingRefused s 4)) ∧
      (s.ringJob = some j → s.ringRsvd = false → graphBad ls es = false → ls ≠ [] →
        (∀ f, (s.pkg.phases.find? fun f => f.job == j.ctr && !f.closed) = some f → (s.pkg.counter f.ctr).state ≠ 3 → (s.pkg.graphs.filter fun g => g.phase = f.ctr).length < 256 →
          (¬ fits → Answers .graph s (RingRefused s 2)) ∧
          (fits → s.entryRoom 1 = true → s.freeEntry = some k → f.ctr ≠ k → Answers .graph s fun t => RingDone s 0 k t ∧
            TookEntry s k (if f.started then 1 else 0) 3 ls.length (some f.ctr) f.job t ∧ t.pkg.counter f.ctr = one (s.pkg.counter f.ctr) ∧
            (∀ i, i ≠ k → i ≠ f.ctr → t.pkg.counter i = s.pkg.counter i) ∧ t.pkg.graphs = s.pkg.graphs ++ [⟨k, f.job, f.ctr, ls.map loft, es⟩] ∧
            t.pkg.phases = s.pkg.phases ∧ t.pkg.jobs = s.pkg.jobs)) ∧
        ((∀ f ∈ s.pkg.phases, f.job = j.ctr → f.closed = true) → fits → s.entryRoom 2 = true → s.freeEntry = some k → free n → k < n → n < 4096 →
          (∀ i < n, i ≠ k → ¬ free i) → Answers .graph s fun t =>
            let first : Bool := !s.pkg.phases.any fun f => f.job == j.ctr
            RingDone s 0 n t ∧ t.pkg.phases = s.pkg.phases ++ [⟨k, j.ctr, false, first, false⟩] ∧
            TookEntry s k (if first then 1 else 0) 4 1 (some j.ctr) j.ctr t ∧
            TookEntry s n (if first then 1 else 0) 3 ls.length (some k) j.ctr t ∧ t.pkg.counter j.ctr = one (s.pkg.counter j.ctr) ∧
            t.pkg.graphs = s.pkg.graphs ++ [⟨n, j.ctr, k, ls.map loft, es⟩]))) ∧
    (∀ (gctr i : Nat) (g : Graph) (l : Launch), s.hearthUp = true → (s.pkg.graphs.find? fun g => g.ctr == gctr) = some g → g.launches[i]? = some l →
      l.st = 0 → (s.pkg.counter gctr).state = 1 → (∀ e ∈ g.edges, e.2 = i → ∃ x, g.launches[e.1]? = some x ∧ x.st = 2) → s.pkg.liveOthers < 3808 →
      (s.pkg.readied.ready.length ≤ 3808 - s.pkg.liveOthers ∨ s.pkg.readied.ready.head? = some (gctr, i)) →
      s.freeEntry = some k → Answers (.launchStart gctr i) s fun t =>
        TookEntry s k (if l.gang then (if l.units ≤ (s.jobCores g.job).length then 0 else 6) else 1) 2 l.units (some gctr) g.job t ∧
        (∀ i, i ≠ k → t.pkg.counter i = s.pkg.counter i) ∧ look [] t.pkg.launches k = l.words ∧
        t.pkg.graphs = s.pkg.graphs.map (fun x => if x.ctr = gctr then
          { g with launches := g.launches.set i { l with st := 1, ref := some (t.pkg.ref k % 2 ^ 24) } } else x) ∧
        t.core = s.core ∧ t.others = s.others ∧ t.mem = s.mem)

/-- R90, R92, R102, R328: at its boundary a phase drains the Porch entries of its job into memory: bytes of one location in the order of the core that stored them,
the first bind of the unit and program order, so that the last one stays. No entry of the job is left in any core, and the phase ends. A drain that does not
translate holds the phase and pushes a record; after a repair by the Hearth the boundary waits no more, and drains again. -/
def Obligations.PhasesDrain : Prop :=
  ∀ (s : State) (k : Nat) (skip : Bool) (ph : Phase) (j : Job) (part : Partition),
    let c := s.pkg.counter k
    let cells := s.drainCells ph.job
    s.hearthUp = true → (s.pkg.phases.find? fun f => f.ctr == k) = some ph → s.jobAt ph.job = some j → s.partAt j.part = some part → ph.started = true →
    (ph.closed = true ∨ c.state = 3) → c.outstanding = 0 → s.jobQuiet ph.job = true → (skip = true → ph.waiting = true) →
    ((∀ x ∈ cells, x.entry.spc = .at ∧ s.moving [drainAt part x] = false) → Answers (.phaseBoundary k skip) s fun t =>
      t.pkg = s.pkg.phaseEnded k ph.job (if c.state = 3 then 4 else if c.failed = 0 then 2 else 5) ∧
      (∀ x ∈ cells, (∀ y ∈ cells, drainAt part y = drainAt part x → y = x ∨ x.le y = false) → t.mem.read (drainAt part x) = x.val) ∧
      (∀ a, (∀ x ∈ cells, drainAt part x ≠ a) → t.mem.read a = s.mem.read a) ∧
      (∀ x ∈ t.core :: t.others, ∀ e ∈ x.lsu.porch, e.job ≠ ph.job) ∧
      t.core.regs = s.core.regs ∧ t.core.mems = s.core.mems ∧ t.core.fe = s.core.fe ∧ t.core.qs = s.core.qs ∧ t.core.eng = s.core.eng) ∧
    (∀ spc va w, (match State.drainTo j part skip cells s [] with | .error e => e = ⟨spc, va, some w⟩ | .ok _ => False) → ph.waiting = false →
      Answers (.phaseBoundary k skip) s fun t =>
        t = (s.pkgd fun p => { p with phases := p.phases.map fun f => if f.ctr = k then { f with waiting := true } else f }).note
          (noteRec va 0 k j.part 0xFF spc.code w.kind) true) ∧
    (∀ ws rest, s.agenda = .repair ws :: rest → ∃ t, step s = .next t ∧
      t.mem = ws.foldl (fun (m : Memory) (w : Nat × Word) => m.putLe (keyCl w.1) 8 w.2.toNat) s.mem ∧
      t.pkg = { s.pkg with phases := s.pkg.phases.map fun f => { f with waiting := false } } ∧ t.core = s.core ∧ t.others = s.others)

namespace Sys2Proof.Machine

/-- R117, R322: a request reaches the unit of a core, unless it has issued DONE, has ended, or has one already; an MBND that retires from now on ends the wait
of a macro. -/
def Requested (c d : Core) : Prop :=
  if (c.fe.unit = .running ∨ c.fe.unit = .suspended false ∨ c.fe.unit = .switching ∨ c.fe.unit = .restoring) ∧ c.fe.preReq = none then
    d = { c with fe := { c.fe with preReq := some c.fe.cycle, bndSeen := false } }
  else d = c

/-- The units of a gang that a core's unit belongs to (R31). -/
def GangMate (b : Nat) (c : Core) : Prop := c.busy = true ∧ bindGang c.slot.act.toNat = true ∧ bindLctr c.slot.act.toNat = bindLctr b

/-- R31, R322: the request reaches the unit of the core that moves, and with it every unit of its gang; nothing else changes. -/
def RequestReaches (s t : State) : Prop :=
  let b := s.core.slot.act.toNat
  t.mem = s.mem ∧ t.pkg = s.pkg ∧ t.others.length = s.others.length ∧
  (bindGang b = false → Requested s.core t.core ∧ t.others = s.others) ∧
  (bindGang b = true → ∀ (k : Nat) (c d : Core), (s.core :: s.others)[k]? = some c → (t.core :: t.others)[k]? = some d →
    (GangMate b c → Requested c d) ∧ (¬ GangMate b c → d = c))

/-- R122, R319: the plane that a unit of this generation finds: the resident one when it holds the generation, else the shadow one. -/
def PlaneFor (c : Core) (gen : Nat) (p : Plane) : Prop :=
  (c.resident.gen = gen ∧ p = c.resident) ∨ (c.resident.gen ≠ gen ∧ c.shadow.gen = gen ∧ p = c.shadow)

/-- The slot registers after the switch (R319): the standby record is active. -/
def State.slotMoved (s : State) : State :=
  s.withCore { s.core with slot := { s.core.slot with act := s.core.slot.stby, stby := 0 } }

/-- R31, R319, R353: a standby record that UNIT_SWITCH makes active now: the active slot is free, the record is good, its plane is there and carries the values of
the unit's job, and the live state keeps the size of the Attic cache. Of a gang no other unit is still to be switched. -/
structure State.CanSwitch (s : State) (p : Plane) : Prop where
  valid : bindV s.core.slot.stby.toNat = true
  slot : s.core.slotFree = true
  up : s.pkg.fatal = false
  good : s.bindBad s.core.slot.stby.toNat = false
  gang : bindGang s.core.slot.stby.toNat = true →
    s.gangTogether s.core.slot.stby.toNat = true ∧ s.gangCores (bindLctr s.core.slot.stby.toNat) = [s.core.idx]
  plane : PlaneFor s.core (bindGen s.core.slot.stby.toNat) p
  carries : s.slotMoved.job.any p.carries = true
  attic : wfld (p.word 297) 0 2 = wfld s.core.sys.atticCache 0 2

/-- R121, R122: the live state that comes from a plane and that no restore replaces: the hatch bindings are apart. -/
structure PlaneLoaded (p : Plane) (y : Sys) : Prop where
  creg : ∀ i : Fin 16, y.creg[i] = p.word (298 + i.val)
  attic : y.atticCache = p.word 297

/-- The register region of a checkpoint (R324) at byte i. -/
def regAt (b i : Nat) : Nat := keyCl (bindCkpt b + 15 * 2 ^ 20) + i

end Sys2Proof.Machine

open Sys2Proof Sys2Proof.Machine

/-- R26, R31, R316, R317, R319 to R321: the Hearth writes a standby record while V is 0, in the order of its policy: the record of a fresh unit gives it a counter
entry, marks its index as bound and clears its checkpoint block, that of a unit bound before leaves its counter; a unit in the way of a gang is asked to stop
first. The policy is `mayBind`, whose ties and order are the model's (notes/assumptions/115.md), as is the cleared block (notes/assumptions/116.md). A write
while V is 1 sets BERR only. UNIT_SWITCH refuses a bad record: V is cleared and BERR set; a gang is switched whole or not at all. R122, R123: a difference record
makes the shadow plane its new generation when every pair is good and the CRC-32C of the result agrees; otherwise the shadow plane is the resident one again, the
record is noted, and the Hearth is notified. The resident plane and the live state do not change. -/
def Obligations.UnitsAreBound : Prop :=
  (∀ (s : State) (b : BitVec 128) (l : Launch),
    let r := b.toNat
    let k := bindUctr r
    let u := s.pkg.counter k
    let lc := s.pkg.counter (bindLctr r)
    let stby := s.core.slot.stby
    let written (t : State) : Prop := ∃ v : State, (if l.gang = true ∧ s.core.busy = true then RequestReaches s v else v = s) ∧
      t.core = { v.core with slot := { v.core.slot with stby := b } } ∧ t.others = v.others ∧
      t.pkg.aged = s.pkg.aged.filter (fun a => !(a.1 == bindLctr r && a.2.1 == bindUidx r)) ∧
      t.pkg.cutOff = s.pkg.cutOff.filter fun x => bindUctr x.1 != k
    s.hearthUp = true →
    (bindV stby.toNat = true → Answers (.slotStbyWrite b) s fun t =>
      t = s.withCore { s.core with slot := { s.core.slot with ctl := s.core.slot.ctl ||| 0x100 } }) ∧
    (bindV stby.toNat = false → (bindV r = false ∨ lc.gen % 4096 ≠ bindLgen r ∨ s.launchOf (bindLctr r) = none) → Answers (.slotStbyWrite b) s fun t =>
      t = s.withCore { s.core with slot := { s.core.slot with stby := b } }) ∧
    (bindV stby.toNat = false → bindV r = true → lc.gen % 4096 = bindLgen r → s.launchOf (bindLctr r) = some l → l.gang = bindGang r →
      s.mayBind r l = true → (lc.state = 0 ∨ lc.state = 1) →
      (u.live = false → bindResume r = false → s.watched k = false → s.pkg.liveUnits < 288 → bindUidx r < l.units → bindUidx r ∉ l.bound →
        Answers (.slotStbyWrite b) s fun t => written t ∧
          TookEntry s k 0 1 1 (some (bindLctr r)) lc.job t ∧ (∀ i, i ≠ k → t.pkg.counter i = s.pkg.counter i) ∧
          t.pkg.graphs = s.pkg.graphs.map (fun g => { g with launches := g.launches.map fun x =>
            if x.ref = l.ref ∧ x.st = 1 then { x with bound := bindUidx r :: x.bound } else x }) ∧
          t.mem = s.mem.putLe (regAt r 0) 8 0) ∧
      (u.live = true → u.level = 1 → u.parent = some (bindLctr r) → s.bound k = false → bindResume r = s.resumeOk r →
        Answers (.slotStbyWrite b) s fun t => written t ∧ t.pkg.counters = s.pkg.counters ∧ t.pkg.graphs = s.pkg.graphs ∧ t.mem = s.mem)) ∧
    (bindV stby.toNat = true → s.core.slotFree = true → s.bindBad stby.toNat = true → Answers .unitSwitch s fun t =>
      t = s.withCore { s.core with slot := ⟨s.core.slot.act, 0, s.core.slot.ctl ||| 0x100⟩ }) ∧
    (bindV stby.toNat = true → s.core.slotFree = true → s.bindBad stby.toNat = false → bindGang stby.toNat = true →
      let mates := s.gangCores (bindLctr stby.toNat)
      (s.gangTogether stby.toNat = false → exec .unitSwitch s = .fault (.notEnabled "UNIT_SWITCH")) ∧
      (∀ t, s.gangTogether stby.toNat = true → ((s.core :: s.others).map (·.idx)).Nodup → State.switchAll s.core.idx mates s = some t →
        exec .unitSwitch s = .next t ∧ ∀ c ∈ s.core :: s.others, c.idx ∈ mates → ∃ d ∈ t.core :: t.others, d.idx = c.idx ∧ d.slot.act = c.slot.stby ∧ d.slot.stby = 0))) ∧
  (∀ (s : State) (ws : List Word),
    let head := ws.headD 0
    let ps := diffPairs (ws.drop 1)
    s.hearthUp = true → ws.length = 2 * wfld head 48 16 + 1 → wfld head 48 16 ≤ 512 →
    Answers (.differenceRecord ws) s fun t => t.core.resident = s.core.resident ∧ t.core.sys = s.core.sys ∧ t.core.qs = s.core.qs ∧ t.core.regs = s.core.regs ∧
      t.core.fe = s.core.fe ∧ t.mem = s.mem ∧ t.others = s.others ∧
      ∃ new : Plane, new.gen = wfld head 32 16 ∧ (∀ i < 512, (∀ x ∈ ps, wfld x.1 0 9 ≠ i) → new.word i = s.core.shadow.word i) ∧
        (∀ front x post, ps = front ++ x :: post → (∀ y ∈ post, wfld y.1 0 9 ≠ wfld x.1 0 9) → new.word (wfld x.1 0 9) = x.2) ∧
        let good : Prop := crc32c new.bytes = wfld head 0 32 ∧ ∀ x ∈ ps, wfld x.1 9 55 = 0 ∧ planeBad (wfld x.1 0 9) x.2 = false
        (good → t.core.shadow = new ∧ t.core.planeLog = s.core.planeLog ∧ t.pkg = s.pkg) ∧
        (¬ good → t.core.shadow = s.core.resident ∧ t.core.planeLog = s.core.planeLog ++ [head] ∧
          t.pkg = { s.pkg with rollbacks := s.pkg.rollbacks ++ [(s.core.idx, head)] }))

/-- R34, R35, R85, R121, R122, R161, R245, R268, R319, R336: the unit switch of a fresh unit. Its core takes the live state of its plane; g1 to g4 hold its index, its
coordinates, the shape and its launch's reference, every other register is zero but p0, and every dirty bit is set; its parameters lie in the Cupboard below
256, the rest of the memories and the circuit engine stay for a unit of the same job and are zero otherwise; the Loft takes the records of its image, in their
order; queues, hatches and replay registers are empty; fetch goes to ENTRY after 64 cycles. -/
def Obligations.FreshUnitsStart : Prop :=
  ∀ (s : State) (p : Plane) (ks ls : List Nat),
    let b := s.core.slot.stby.toNat
    let u := s.slotMoved
    let w (i : Nat) : Nat := (((look [] s.pkg.launches (bindLctr b)).getD i 0)).toNat
    let n := fld (w 2) 52 9
    let pa := fld (w 1) 0 56
    let la := fld (w 3) 0 56
    let size := u.loftSize la
    let v := u.fillWalks .cl pa n
    let z := if la = 0 then v else v.fillWalks .cl la size
    s.CanSwitch p → bindResume b = false → s.pkg.poison = [] → s.pkg.weak = [] → n ≤ 256 →
    v.keysWalk .cl pa n false = .ok ks → (la ≠ 0 → z.keysWalk .cl la size false = .ok ls) →
    Answers .unitSwitch s fun t =>
      let i := bindUidx b
      let x := fld (w 2) 0 16 + 1
      let y := fld (w 2) 16 16 + 1
      let same : Prop := s.core.prevJob = some u.jobRef
      let old (m : Memory) (a : Nat) : Byte := if s.core.prevJob = some u.jobRef then m.read a else 0
      let image := if la = 0 then [] else loftRecords size (ls.map z.mem.read)
      t.core.fe.unit = .switching ∧ t.core.fe.hold = 64 ∧ t.core.fe.pc = BitVec.ofNat 64 (fld (w 0) 0 56) ∧ t.core.fe.handler = false ∧ t.core.fe.mac = none ∧
      t.core.fe.aq = [] ∧ t.core.fe.xq = [] ∧ t.core.fe.cycle = s.core.fe.cycle ∧ t.core.slot.act = s.core.slot.stby ∧ t.core.slot.stby = 0 ∧
      (∀ r : Fin 32, t.core.regs.g[r] = if r.val = 1 then BitVec.ofNat 64 i
        else if r.val = 2 then BitVec.ofNat 64 (i % x + i / x % y * 2 ^ 16 + i / x / y * 2 ^ 32) else if r.val = 3 then BitVec.ofNat 64 (w 2 % 2 ^ 50)
        else if r.val = 4 then BitVec.ofNat 64 (bindLctr b + bindLgen b * 2 ^ 12) else 0) ∧
      (∀ r : Fin 32, t.core.regs.s[r] = 0) ∧ (∀ r : Fin 64, t.core.regs.v[r] = 0) ∧ (∀ r : Fin 16, t.core.regs.p[r] = if r = 0 then allTrue else 0) ∧
      t.core.regs.gDirty = BitVec.allOnes 32 ∧ t.core.regs.sDirty = BitVec.allOnes 32 ∧ t.core.regs.vDirty = BitVec.allOnes 64 ∧
      t.core.regs.pDirty = BitVec.allOnes 16 ∧ t.core.regs.fly = [] ∧ t.core.regs.rpl = [] ∧
      PlaneLoaded p t.core.sys ∧ (∀ k < 256, t.bankFmt k = p.word k) ∧ (∀ k : Fin 8, t.core.sys.sd[k] = p.word (272 + k.val)) ∧
      t.core.sys.timingCtl = p.word 280 ∧ (∀ k : Fin 16, t.core.sys.timingPad[k] = p.word (281 + k.val)) ∧ t.core.sys.trapVec = p.word 314 ∧
      t.core.sys.rmode = 0 ∧ t.core.sys.fpFlags = 0 ∧ t.core.sys.frame = 0 ∧ t.core.sys.timingLate = 0 ∧ t.core.sys.loopState = 0 ∧ t.core.sys.trapCause = 0 ∧
      (∀ k : Fin 16, t.core.qs.h[k] = ⟨(p.word (256 + k.val)).setWidth 8, []⟩) ∧ (∀ q : Fin 8, t.core.qs.lq[q] = []) ∧ (∀ q : Fin 4, t.core.qs.sq[q] = []) ∧
      t.core.qs.scale = [] ∧ (∀ q : Fin 5, t.core.eng.q[q] = []) ∧
      (∀ a, t.core.mems.cup.read a = if a < 256 then (if a < n then v.mem.read (ks.getD a 0) else 0) else old s.core.mems.cup a) ∧
      (∀ a, t.core.mems.sp.read a = old s.core.mems.sp a) ∧ (∀ a, t.core.mems.acc.read a = old s.core.mems.acc a) ∧
      (∀ a, t.core.mems.loft.read a = image.foldl (fun (y : Byte) (r : Nat × Nat × List Byte) =>
        let lo := r.1 * 2 ^ 16 + r.2.1
        if lo ≤ a ∧ a < lo + r.2.2.length then r.2.2.getD (a - lo) 0 else y) (old s.core.mems.loft a)) ∧
      t.core.lhwm = image.foldl (fun (h : Nat) (r : Nat × Nat × List Byte) => max h (r.2.1 + r.2.2.length)) (if same then s.core.lhwm else 0) ∧
      t.core.circ = (if same then s.core.circ else Circuit.reset) ∧
      t.core.lsu.porch = s.core.lsu.porch ∧ t.mem = z.mem ∧ t.core.resident = p ∧
      t.core.shadow = s.core.shadow ∧ t.others = s.others ∧ ∃ box, t.pkg = ({ z.pkg with bbox := box } : Package).firstBind b

/-- R161, R165, R225, R226, R245, R283, R316, R319, R324, R326, R328, R370: the unit switch of a parked unit. Registers come back from the register region with clear
dirty bits, system registers, scale descriptors and hatch bindings as well; the banks that were LIVE, the Cupboard, the tiles, the scales, the token counts, the
barrier, the circuit state and the Loft up to its mark from their images; saved commands re-enter their queues with the operands of their slots, and the Porch
entries with the bytes and the origins of theirs; results that were frozen land. Where the resume record still says what was saved, the pipes go on as they stood;
where it names another address for both, fetch starts there. The layouts of the command slots, of the barrier image and of an entry's last words are the
model's (notes/assumptions/45.md). -/
def Obligations.ParkedUnitsReturn : Prop :=
  ∀ (s : State) (p : Plane) (x : Parked),
    let b := s.core.slot.stby.toNat
    let f := x.fe
    let word (i : Nat) : Word := BitVec.ofNat 64 (s.mem.le (regAt b i) 8)
    let loc := s.mem.le (regAt b 40) 8 % 256
    let image := if loc = 255 then keyCl (bindCkpt b + 8 * 2 ^ 20) else keyVault loc 0x1800000
    let mark := s.mem.le (regAt b 56) 8
    let bar := s.mem.le (image + 0x410000) 8
    let pcX := f.xPc?.getD f.aPc
    let u := s.slotMoved.withCore { s.core with slot := s.slotMoved.core.slot, circ := savedCirc s.mem (image + 0x563000) }
    s.CanSwitch p → bindResume b = true → (s.pkg.parked.find? fun x => bindUctr x.bind == bindUctr b) = some x →
    s.core.lsu.porch.length + x.lsu.porch.length ≤ 17408 →
    ∀ v, (match (if u.core.circ.untold then u.reloadCirc else .ok u) with | .ok z => z = v | .error _ => False) →
    Answers .unitSwitch s fun t =>
      t.core.fe.unit = .restoring ∧ t.core.fe.hold = 64 ∧ t.core.fe.preReq = none ∧ t.core.fe.xnow = f.xnow ∧
      t.core.slot.act = s.core.slot.stby ∧ t.core.slot.stby = 0 ∧
      (word 8 = f.aPc → word 16 = pcX → f.upc?.isSome = f.mac.isSome → (∀ k ∈ f.upc?, k < 2 ^ 13) → wfld (word 32) 0 13 = f.upc?.getD 0 →
        (word 32).getLsbD 13 = f.mac.isSome → (word 32).getLsbD 14 = f.kernel.isSome →
        t.core.fe.pc = f.pc ∧ t.core.fe.aq = f.aq ∧ t.core.fe.xq = f.xq ∧ t.core.fe.kernel = f.kernel ∧ t.core.fe.mac = f.mac ∧
        (∀ n v, sysReg t.core.sys n = some v → v = word (0x1000 + 8 * n)) ∧
        (∀ r : Fin 16, (f.kernel = none ∨ r.val < 8) → t.core.regs.p[r] = BitVec.ofNat 1024 (s.mem.le (regAt b (0x200 + 128 * r.val)) 128)) ∧
        (f.kernel = none → t.core.regs.pDirty = 0)) ∧
      (word 8 = word 16 → (word 8 ≠ f.aPc ∨ word 16 ≠ pcX) →
        t.core.fe.pc = word 8 ∧ t.core.fe.aq = [] ∧ t.core.fe.xq = [] ∧ t.core.fe.kernel = none ∧ t.core.fe.mac = none) ∧
      (∀ r : Fin 32, t.core.regs.g[r] = word (0x40 + 8 * r.val)) ∧
      (∀ r : Fin 32, t.core.regs.s[r] = BitVec.ofNat 32 (s.mem.le (regAt b (0x140 + 4 * r.val)) 4)) ∧
      (∀ r : Fin 64, t.core.regs.v[r] = BitVec.ofNat 4096 (s.mem.le (regAt b (0x8000 + 512 * r.val)) 512)) ∧
      t.core.regs.gDirty = 0 ∧ t.core.regs.sDirty = 0 ∧ t.core.regs.vDirty = 0 ∧ t.core.regs.rpl = [] ∧
      t.core.regs.fly = sortFly (((List.range 16).filterMap fun k =>
        let at' := regAt b (0x4000 + 1024 * k)
        let c := s.mem.le (at' + 0x280) 8
        let o := x.rpl.getD k ⟨.v 0, 0, 0, 0, 0, 0, 0, []⟩
        if c.testBit 63 then
          some { o with val := BitVec.ofNat 4096 (s.mem.le at' 512), mask := BitVec.ofNat 1024 (s.mem.le (at' + 0x200) 128),
                        due := fld c 58 5 + f.xnow, dst := rplDst o.dst (fld c 50 8) }
        else none) ++ (x.rpl.drop 16).map fun o => { o with due := o.due + f.xnow }) ∧
      (∀ k : Fin 8, t.core.sys.sd[k] = word (0x2000 + 8 * k.val)) ∧
      PlaneLoaded p t.core.sys ∧ (∀ k : Fin 16, (t.core.qs.h[k]).bind = (word (0x2040 + 8 * k.val)).setWidth 8 ∧
        (t.core.qs.h[k]).toks.length = s.mem.le (image + 0x560400 + k.val) 1) ∧
      (∀ (q : Fin 8), (t.core.qs.lq[q]).map (fun i => (i.id, i.data, i.pops)) = (x.qs.lq[q]).map fun i => (i.id, i.data, i.pops)) ∧
      (∀ q : Fin 4, t.core.qs.sq[q] = x.qs.sq[q] ∧ t.core.qs.taker[q] = x.qs.taker[q]) ∧ (∀ q : Fin 8, t.core.qs.lin[q] = x.qs.lin[q]) ∧
      t.core.qs.scale.length = x.qs.scale.length ∧
      (∀ i (e o : ScaleEntry), t.core.qs.scale[i]? = some e → x.qs.scale[i]? = some o → e = { o with val := o.val.map (fun _ => BitVec.ofNat 16 (s.mem.le (image + 0x560040 + 2 * i) 2)) }) ∧
      t.core.fe.barrier = (if bar.testBit 63 then some (bar % 2 ^ 63) else none) ∧ t.core.vuse = (word 32).getLsbD 15 ∧ t.core.link = linkOf (s.mem.le (image + 0x520000) 8) ∧
      t.core.circ = v.core.circ ∧ t.core.lhwm = mark ∧ t.core.lsu.acc.length = x.lsu.acc.length ∧
      (∃ es, t.core.lsu.porch = s.core.lsu.porch ++ es ∧ es.length = x.lsu.porch.length ∧
        ∀ i e o, es[i]? = some e → x.lsu.porch[i]? = some o →
          let at' := keyCl (bindCkpt b + 16 * 2 ^ 20) + 80 * i
          e.unit = o.unit ∧ e.job = o.job ∧ e.bindSeq = o.bindSeq ∧ e.origin = fld (s.mem.le (at' + 72) 8) 56 8 ∧
          ∀ j < 64, (o.cells.filter fun c => c.1 == j).length ≤ 1 →
            e.byteAt j = if (s.mem.le (at' + 64) 8).testBit j then some (BitVec.ofNat 8 (s.mem.le (at' + j) 1)) else none) ∧
      (∀ q : Fin 5, (t.core.eng.q[q]).map (fun c => (c.seq, c.instr, c.st)) = (x.eng.q[q]).map fun c => (c.seq, c.instr, c.st)) ∧
      (∀ k c, t.core.eng.notStarted[k]? = some c → k < 64 → ∀ i < 8, i < c.ops.length →
        c.ops[i]? = some (BitVec.ofNat 64 (s.mem.le (image + 0x561000 + 128 * k + 32 + 8 * i) 8))) ∧
      (s.mem.wf = true →
        (∀ k < 256, ∀ o < 2 ^ 14, t.core.mems.sp.read (k * 2 ^ 14 + o) = if wbit (word (0x1000 + 8 * k)) 8 then s.mem.read (image + k * 2 ^ 14 + o) else 0) ∧
        (∀ o < 2 ^ 16, t.core.mems.cup.read o = s.mem.read (image + 0x400000 + o)) ∧ (∀ o < 2 ^ 20, t.core.mems.acc.read o = s.mem.read (image + 0x420000 + o)) ∧
        (mark ≤ 2 ^ 16 → ∀ k < 128, ∀ o < 2 ^ 16, t.core.mems.loft.read (k * 2 ^ 16 + o) = if o < mark then s.mem.read (keyCl (bindCkpt b) + k * 2 ^ 16 + o) else 0)) ∧
      t.mem = v.mem ∧ t.others = s.others ∧ (t.pkg.parked.find? fun y => bindUctr y.bind == bindUctr b).any (fun y =>
        !y.parked && y.bind == x.bind && y.held == (x.held && loc == s.core.idx)) = true

namespace Sys2Proof.Machine

/-- R169, R322, R323: the unit whose request has been taken, where no X-cycle stood open and nothing had suspended it: issue stops, results in flight are in the
replay registers, and TRAP.CAUSE says whether a kernel is active; what it has started still lands. -/
def State.frozen (s : State) : State :=
  { s with core := { s.core with
    regs := { s.core.regs with rpl := flyToRpl s.core.fe.xnow s.core.regs.fly, fly := [] }
    sys := { s.core.sys with trapCause := setFld s.core.sys.trapCause 31 1 (if s.core.fe.kernel.isSome then 1 else 0) }
    fe := { s.core.fe with unit := .saving, fault := none, xdone := false, xowed := false, xahead := 0, hold := 0, slot := 0, part := 0, aStall := false,
                           xStall := false, waitOn := none, mark := none } } }

/-- R354, R362: the mailbox can do a command now: it is the one in progress, with its buffer where it has one, or none is and its CMD write belongs to the step
(notes/assumptions/119.md); a fatal error has ended what was in progress. -/
def MailFree (s : State) (op : Nat) (buf : Option Nat) : Prop :=
  s.pkg.mbox = none ∨ s.pkg.fatal = true ∨ ∃ w, s.pkg.mbox = some w ∧ wfld w 56 8 = op ∧ ∀ b ∈ buf, wfld w 6 46 = b % 2 ^ 46

/-- R354: a command of the mailbox has ended with this code: the mailbox is busy no more, and OVR is as before. -/
def MailedCode (s : State) (code : Nat) (t : State) : Prop :=
  t.pkg.mboxStat = (s.pkg.mboxStat &&& 0x200) ||| BitVec.ofNat 64 code ∧ t.pkg.mbox = none

/-- What a mailbox command leaves as it was: every core. -/
def CoresStay (s t : State) : Prop := t.core = s.core ∧ t.others = s.others

/-- A range of bytes of memory: byte i of it. -/
def bytesAt (m : Memory) (a n : Nat) : List Byte := (List.range n).map fun i => m.read (a + i)

end Sys2Proof.Machine

open Sys2Proof Sys2Proof.Machine

/-- R31, R320, R322, R329: requests for pre-emption: by the Hearth, at the end of a quantum when a unit of the same or a higher class waits, at once when a unit of
a higher class waits and this core's is the lowest active one of its partition (which of several it is, is the model's: notes/assumptions/115.md), and at the
checkpoint interval of a job for each of its bound units. A unit that waits rises one class, up to class 0. -/
def Obligations.RequestsReachUnits : Prop :=
  ∀ (s : State) (l i : Nat) (j : Job),
    let b := s.core.slot.act.toNat
    s.hearthUp = true →
    (s.core.busy = true → Answers .slotCtlPre s (RequestReaches s)) ∧ (s.core.busy = false → Answers .slotCtlPre s fun t => t = s) ∧
    (s.core.busy = true → (∃ x ∈ s.awaiting (bindPart b), s.classOf x.1 x.2 ≤ bindPrio b) → Answers .quantumExpiry s (RequestReaches s)) ∧
    (s.core.busy = true → (∀ x ∈ s.awaiting (bindPart b), bindPrio b < s.classOf x.1 x.2) → Answers .quantumExpiry s fun t => t = s) ∧
    (s.agenda = [] → s.preTakeable = false → s.core.fe.unit = .running → s.core.fe.preReq = none →
      (∀ c ∈ s.others, c.idx ∈ ((s.partAt (bindPart b)).map (·.cores)).getD [] → c.busy = true ∧ c.fe.preReq = none ∧
        (bindPrio c.slot.act.toNat < bindPrio b ∨ (bindPrio c.slot.act.toNat = bindPrio b ∧ c.idx < s.core.idx))) →
      (∃ x ∈ s.waitingUnits (bindPart b), s.classOf x.1 x.2 < bindPrio b) → ∃ t, step s = .next t ∧ RequestReaches s t) ∧
    (s.jobAt l = some j → j.ckptMs ≠ 0 → Answers (.checkpointInterval l) s fun t => t.mem = s.mem ∧ t.pkg = s.pkg ∧
      t.others.length = s.others.length ∧ ∀ (k : Nat) (c d : Core), (s.core :: s.others)[k]? = some c → (t.core :: t.others)[k]? = some d →
        let its : Prop := c.busy = true ∧ (s.pkg.counter (bindUctr c.slot.act.toNat)).job = l
        (its → Requested c d) ∧ (¬ its → d = c)) ∧
    (s.jobAt (s.pkg.counter l).job = some j → (l, i) ∈ s.waitingUnits j.part → Answers (.aging l i) s fun t => CoresStay s t ∧ t.mem = s.mem ∧
      t.pkg = { s.pkg with aged := t.pkg.aged } ∧ t.classOf l i = s.classOf l i - 1 ∧
      ∀ x y, (x, y) ≠ (l, i) → t.classOf x y = s.classOf x y)

/-- R161, R165, R225, R226, R245, R317, R322 to R326, R328: a request is taken: issue stops, and what has started lands. Then the unit is saved. Its resume record
names it and where it goes on; registers whose dirty bit is set stand in the register region and no others; the banks that are LIVE, the Cupboard, the tiles, the
barrier, the commands that have not started and the Loft up to its mark are in their images; the active slot and the core are free, the unit's Porch entries are
in the Porch image and with its record, and those of other units stay. The layouts of the command slots and the barrier image are the model's
(notes/assumptions/45.md). -/
def Obligations.PreemptionSaves : Prop :=
  (∀ s : State,
    let f := s.core.fe
    f.preReq.isSome = true → f.handler = false → (f.mac = none ∨ f.bnd = true) → (f.unit = .running ∨ f.unit = .suspended false) → f.xdone = false → f.fault = none →
    (s.landed = false → Answers .preemptionSave s fun t => t = s.frozen) ∧
    (s.landed = true → exec .preemptionSave s = exec .preemptionSave s.frozen)) ∧
  ∀ (s : State),
    let f := s.core.fe
    let b := s.bind
    let img := keyVault s.core.idx 0x1800000
    let r := s.core.regs
    let porch := s.core.lsu.porch.filter s.ownEntry
    f.unit = .saving →
    s.landed = true → s.core.idx < 144 → s.mem.wf = true → s.core.mems.Ok → s.core.lhwm ≤ 2 ^ 16 → s.core.lsu.porch.length ≤ 17408 → s.core.qs.scale.length ≤ 256 → (∀ h : Fin 16, (s.core.qs.h[h]).toks.length ≤ 16) →
    (∀ x ∈ s.pkg.parked, ¬ (x.held = true ∧ x.loc = s.core.idx)) →
    Answers .preemptionSave s fun t =>
      t.core.fe.unit = .empty ∧ t.core.slot = { s.core.slot with act := 0 } ∧ t.others = s.others ∧
      t.mem.le (regAt b 0) 8 = 2 ^ 63 + s.uctr * 2 ^ 40 ∧ t.mem.le (regAt b 8) 8 = f.aPc.toNat ∧
      t.mem.le (regAt b 16) 8 = (f.xPc?.getD f.aPc).toNat ∧ t.mem.le (regAt b 24) 8 = (match f.mac with | some (m : MicroRun) => m.layer.pc | none => (0 : Word)).toNat ∧
      (let w : Word := BitVec.ofNat 64 (t.mem.le (regAt b 32) 8)
       wfld w 0 13 = (f.upc?).getD 0 % 2 ^ 13 ∧ w.getLsbD 13 = f.mac.isSome ∧ w.getLsbD 14 = f.kernel.isSome ∧ w.getLsbD 15 = s.core.vuse) ∧
      t.mem.le (regAt b 40) 8 = s.core.idx ∧ t.mem.le (regAt b 48) 8 = porch.length ∧ t.mem.le (regAt b 56) 8 = s.core.lhwm ∧
      (∀ i : Fin 32, bytesAt t.mem (regAt b (0x40 + 8 * i.val)) 8 = if r.gDirty.getLsbD i.val then leBytes 8 r.g[i].toNat
        else bytesAt s.mem (regAt b (0x40 + 8 * i.val)) 8) ∧
      (∀ i : Fin 32, bytesAt t.mem (regAt b (0x140 + 4 * i.val)) 4 = if r.sDirty.getLsbD i.val then leBytes 4 r.s[i].toNat
        else bytesAt s.mem (regAt b (0x140 + 4 * i.val)) 4) ∧
      (∀ i : Fin 16, bytesAt t.mem (regAt b (0x200 + 128 * i.val)) 128 = if r.pDirty.getLsbD i.val then leBytes 128 r.p[i].toNat
        else bytesAt s.mem (regAt b (0x200 + 128 * i.val)) 128) ∧
      (∀ i : Fin 64, bytesAt t.mem (regAt b (0x8000 + 512 * i.val)) 512 = if r.vDirty.getLsbD i.val then leBytes 512 r.v[i].toNat
        else bytesAt s.mem (regAt b (0x8000 + 512 * i.val)) 512) ∧
      (∀ n v, sysReg s.core.sys n = some v → t.mem.le (regAt b (0x1000 + 8 * n)) 8 = v.toNat) ∧
      (∀ i : Fin 8, t.mem.le (regAt b (0x2000 + 8 * i.val)) 8 = (s.core.sys.sd[i]).toNat) ∧
      (∀ i : Fin 16, t.mem.le (regAt b (0x2040 + 8 * i.val)) 8 = (s.core.qs.h[i]).bind.toNat ∧ t.mem.read (img + 0x560400 + i.val) = BitVec.ofNat 8 (s.core.qs.h[i]).toks.length) ∧
      (∀ k < 256, ∀ o < 2 ^ 14, t.mem.read (img + k * 2 ^ 14 + o) = if wbit (s.bankFmt k) 8 then s.core.mems.sp.read (k * 2 ^ 14 + o)
        else s.mem.read (img + k * 2 ^ 14 + o)) ∧
      (∀ o < 2 ^ 16, t.mem.read (img + 0x400000 + o) = s.core.mems.cup.read o) ∧ (∀ o < 2 ^ 20, t.mem.read (img + 0x420000 + o) = s.core.mems.acc.read o) ∧
      t.mem.le (img + 0x410000) 8 = (match f.barrier with | some g => 2 ^ 63 + g % 2 ^ 63 | none => 0) ∧
      (let saved := (s.core.eng.q.toList.flatMap id).filter fun c => c.st == .waiting || reshardRuns c
       ∀ k c, saved[k]? = some c → k < 64 → t.mem.le (img + 0x561000 + 128 * k) 8 = c.instr.word % 2 ^ 64 ∧
         ∀ i < 8, i < c.ops.length → t.mem.le (img + 0x561000 + 128 * k + 32 + 8 * i) 8 = (c.ops.getD i 0).toNat) ∧
      (∀ i e, porch[i]? = some e → ∀ j < 64, let at' := keyCl (bindCkpt b + 16 * 2 ^ 20) + 80 * i
        (t.mem.le (at' + 64) 8).testBit j = (e.byteAt j).isSome ∧ ∀ y ∈ e.byteAt j, t.mem.read (at' + j) = y) ∧
      (∀ k < 128, ∀ o < s.core.lhwm, t.mem.read (keyCl (bindCkpt b) + k * 2 ^ 16 + o) = s.core.mems.loft.read (k * 2 ^ 16 + o)) ∧
      t.core.lsu.porch = s.core.lsu.porch.filter (fun e => !s.ownEntry e) ∧
      ∃ x rest, t.pkg.parked = x :: rest ∧ x.bind = b ∧ x.parked = true ∧ x.loc = s.core.idx ∧ x.held = true ∧ x.lsu.porch = porch ∧
        x.fe = s.core.fe ∧ x.qs = s.core.qs ∧ x.rpl = r.rpl

/-- R26, R29 to R31, R322, R325, R329, R354: CANCEL of a unit that is bound here, of one that waits, or of a launch without a unit left; a counter that was never
used, and one that is final, are named in the result; the checkpoint of a stopped unit is discarded. CANCEL through SLOT.CTL stops the active unit. EVICT copies a
held save area to its unit's checkpoint block. RELEASE gives the entry of a finished job back. MACHINE_CHECK stops the unit, and once what has started has landed
discards its core state; its counter stays, it waits to be bound again, and the other units of its gang are pre-empted. -/
def Obligations.CancelEvictRelease : Prop :=
  ∀ (s : State) (k : Nat) (x : Parked),
    let c := s.pkg.counter k
    let open' : Prop := c.live = true ∧ c.state ≠ 2 ∧ c.state ≠ 4 ∧ c.state ≠ 5
    let here (c : Core) : Bool := c.busy && bindUctr c.slot.act.toNat == k
    let gone (b : Nat) : Memory := s.mem.putLe (regAt b 0) 8 0
    let mailed (p t : Package) : Prop := ∃ st, t = { p with mboxStat := st, mbox := none }
    s.hearthUp = true →
    (s.core.busy = true → Answers .slotCtlCancel s fun t => StoppedEarly { s with mem := gone s.bind } 4 t ∧ t.others = s.others ∧
      t.core.lsu.porch = s.core.lsu.porch.filter fun e => !s.ownEntry e) ∧
    (s.core.busy = false → Answers .slotCtlCancel s fun t => t = s) ∧
    (MailFree s 2 none → c.level = 0 → Answers (.cancel k) s fun t => MailedCode s 4 t ∧ CoresStay s t ∧ t.pkg.counters = s.pkg.counters) ∧
    (MailFree s 2 none → c.level ≠ 0 → ¬ open' → Answers (.cancel k) s fun t => MailedCode s 2 t ∧ CoresStay s t ∧ t.pkg.counters = s.pkg.counters) ∧
    (MailFree s 2 none → open' → c.level = 1 → here s.core = true → Answers (.cancel k) s fun t => MailedCode s 0 t ∧ t.core.fe.unit = .ended ∧
      t.others = s.others ∧ t.mem = gone s.bind ∧ ∃ box, mailed ((({ s.pkg with bbox := box } : Package).orphan s.core.idx).endUnit k 4) t.pkg) ∧
    (MailFree s 2 none → open' → c.level = 1 → (s.core :: s.others).any here = false → Answers (.cancel k) s fun t => MailedCode s 0 t ∧
      t.mem = (match s.pkg.parked.find? fun y => bindUctr y.bind == k with | some y => gone y.bind | none => s.mem) ∧
      (∃ box, mailed (({ s.pkg with bbox := box } : Package).endUnit k 4) t.pkg) ∧
      ∀ (n : Nat) (d e : Core), (s.core :: s.others)[n]? = some d → (t.core :: t.others)[n]? = some e →
        e = if bindV d.slot.stby.toNat = true ∧ bindUctr d.slot.stby.toNat = k then { d with slot := { d.slot with stby := 0 } } else d) ∧
    (∀ g, MailFree s 2 none → open' → c.level = 2 → c.parent = some g → g ≠ k → 2 ≤ (s.pkg.counter g).outstanding → s.pkg.openUnits k = [] →
      (∀ g ∈ s.pkg.graphs, ∀ y ∈ g.launches, y.st ≠ 0) → Answers (.cancel k) s fun t =>
        MailedCode s 0 t ∧ CoresStay s t ∧ t.mem = s.mem ∧
        t.pkg.counter k = { c with state := 4, outstanding := 0, failed := min 0xFFFFFF (c.failed + c.outstanding), live := false } ∧
        let d := s.pkg.counter g
        t.pkg.counter g = { d with outstanding := d.outstanding - 1, failed := min (d.failed + 1) 0xFFFFFF }) ∧
    ((∀ y ∈ s.pkg.parked, ¬ (y.held = true ∧ y.loc = s.core.idx)) → Answers .slotCtlEvict s fun t => t = s) ∧
    ((s.pkg.parked.find? fun y => y.held && y.loc == s.core.idx) = some x → s.mem.wf = true → Answers .slotCtlEvict s fun t => CoresStay s t ∧
      (∀ o < 7 * 2 ^ 20, t.mem.read (keyCl (bindCkpt x.bind + 8 * 2 ^ 20) + o) = s.mem.read (keyVault s.core.idx 0x1800000 + o)) ∧
      t.mem.le (regAt x.bind 40) 8 = 0xFF ∧
      t.pkg = { s.pkg with parked := s.pkg.parked.map fun y => if y = x then { x with loc := 255, held := false } else y }) ∧
    (MailFree s 9 none → Answers (.release k) s fun t => CoresStay s t ∧ t.mem = s.mem ∧
      if c.live = false ∨ c.level ≠ 5 then MailedCode s 4 t ∧ t.pkg.counters = s.pkg.counters ∧ t.pkg.jobs = s.pkg.jobs
      else if c.state ≠ 2 ∧ c.state ≠ 4 ∧ c.state ≠ 5 then MailedCode s 3 t ∧ t.pkg.counters = s.pkg.counters ∧ t.pkg.jobs = s.pkg.jobs
      else MailedCode s 0 t ∧ t.pkg.counter k = { c with live := false } ∧ (∀ i, i ≠ k → t.pkg.counter i = s.pkg.counter i) ∧
        t.pkg.jobs = s.pkg.jobs.filter fun j => j.ctr != k) ∧
    (∀ fab, s.core.busy = true → (∀ g p, s.core.fe.unit = .checked g p → g = fab) →
      (s.landed = false → (∀ g p, s.core.fe.unit ≠ .checked g p) → Answers (.machineCheck fab) s fun t =>
        t.core = { s.core with fe := { s.core.fe with unit := .checked fab 1 } } ∧ t.others = s.others ∧ t.mem = s.mem ∧ t.pkg = { s.pkg with bbox := t.pkg.bbox }) ∧
      (s.landed = true → Answers (.machineCheck fab) s fun t =>
        t.core.fe.unit = .empty ∧ t.core.slot = { s.core.slot with act := 0 } ∧ t.core.qs = Queues.reset ∧ (∀ q : Fin 5, t.core.eng.q[q] = []) ∧
        t.core.lsu.porch = s.core.lsu.porch.filter (fun e => !s.ownEntry e) ∧
        (∃ box, t.pkg = { ({ s.pkg with bbox := box } : Package).orphan s.core.idx with
          parked := s.pkg.parked.map fun y => if bindUctr y.bind = s.uctr then { y with parked := true } else y
          cutOff := (s.bind, fab) :: s.pkg.cutOff.filter fun y => bindUctr y.1 != s.uctr }) ∧
        t.mem = s.mem ∧ (bindGang s.bind = false → t.others = s.others) ∧
        (bindGang s.bind = true → t.others.length = s.others.length ∧ ∀ (n : Nat) (d e : Core), s.others[n]? = some d → t.others[n]? = some e →
          (GangMate s.bind d → Requested d e) ∧ (¬ GangMate s.bind d → e = d))))

namespace Sys2Proof.Machine

/-- R87, R88: a walk from a table that ends at a leaf: each level's entry is VALID; a table entry holds the next table's page and zeros elsewhere, a leaf is good
for its page size, which is not that of the first level. -/
inductive Walks (mem : Memory) (base : Nat) (spc : Space) (va : Nat) : Nat → List (Nat × Nat) → Nat → Word → Nat → Prop
  | leaf (table lo n : Nat) (rest : List (Nat × Nat)) (e : Word) :
    e = BitVec.ofNat 64 (mem.le (base + table + 8 * (va / 2 ^ lo % 2 ^ n)) 8) → e.getLsbD 63 = true → e.getLsbD 62 = true → lo ≠ 46 →
    leafBad spc lo e = false → Walks mem base spc va table ((lo, n) :: rest) (base + table + 8 * (va / 2 ^ lo % 2 ^ n)) e lo
  | next (table lo n : Nat) (rest : List (Nat × Nat)) (e : Word) (a : Nat) (x : Word) (size : Nat) :
    e = BitVec.ofNat 64 (mem.le (base + table + 8 * (va / 2 ^ lo % 2 ^ n)) 8) → e.getLsbD 63 = true → e.getLsbD 62 = false → wfld e 52 10 = 0 →
    wfld e 0 16 = 0 → rest ≠ [] → Walks mem base spc va (wfld e 16 36 * 2 ^ 16) rest a x size → Walks mem base spc va table ((lo, n) :: rest) a x size

/-- The translation of one byte of a peer's request by the .CL root of a partition (R83). -/
def prXlate (s : State) (p : Partition) (write : Bool) (b : Nat) : Xlate :=
  match walk s.mem 0 .cl p.rootCl b write with
  | .error f => .fail f
  | .ok (_, e, size) => leafUse e size b (s.keyOf .cl) write

/-- The bytes of a memory at these keys, and no others, have new values. -/
def PutAt (m : Memory) (ks : List Nat) (bs : List Byte) (m' : Memory) : Prop :=
  ks.map m'.read = bs ∧ ∀ a, a ∉ ks → m'.read a = m.read a

/-- The range of an invalidation meets a cached translation (R89). -/
def InvMeets (part : Nat) (spc : Space) (base len : Nat) (t : TlbEntry) : Prop :=
  t.part = part ∧ t.spc = spc ∧ t.vpage * 2 ^ t.size < base + len ∧ base < (t.vpage + 1) * 2 ^ t.size

/-- R89: the translations of a range have left every cache, and no others; without an access count to write back, memory is as before. -/
def Invalidated (s : State) (part : Nat) (spc : Space) (base len : Nat) (t : State) : Prop :=
  (∀ (k : Nat) (c d : Core), (s.core :: s.others)[k]? = some c → (t.core :: t.others)[k]? = some d →
    (∀ e, e ∈ d.lsu.utlb ↔ e ∈ c.lsu.utlb ∧ ¬ InvMeets part spc base len e) ∧ d = { c with lsu := { c.lsu with utlb := d.lsu.utlb } }) ∧
  t.others.length = s.others.length ∧
  (∀ die : Fin 2, ∀ e, e ∈ t.pkg.dieTlb[die] ↔ e ∈ s.pkg.dieTlb[die] ∧ ¬ InvMeets part spc base len e) ∧
  ((∀ die : Fin 2, ∀ e ∈ s.pkg.dieTlb[die], InvMeets part spc base len e → e.leaf.getLsbD 58 = false) → t.mem = s.mem)

end Sys2Proof.Machine

open Sys2Proof Sys2Proof.Machine

/-- R71, R83, R87 to R92, R105, R351: a walk follows the tables; its end fills the caches of the core and its die, or suspends the unit with a record. After a page
fault whose record has entered the ring the Hearth resumes the unit or ends it FAULTED with the trap record of what met the page. An invalidation drops the
translations of its range. A peer's request is rejected unless an unfinished job of the partition lists the peer, and is else translated by the partition, through
the cache of die 0 (the model's choice: notes/assumptions/108.md), and performed; the host reads and writes the Cellar in its window and its own memory elsewhere; a
write to a page that a MIGRATE moves waits. R8, R89, R91, R316, R339, R352, R354, R355, R358, R360, R361: a write to a management register reaches its RW fields,
clears W1C bits by ones, and leaves RO fields; a command written while the mailbox is busy sets OVR; 128-bit registers and log entries read by halves. -/
def Obligations.TranslationsAndOutside : Prop :=
  ((∀ mem base spc va root a e size, walkFrom mem base spc va root levels = .ok (a, e, size) ↔
    Walks mem base spc va root [(46, 10), (34, 12), (29, 5), (21, 8), (16, 5)] a e size) ∧
  ∀ (s : State) (ix : Nat) (w : WalkReq) (p : Partition) (part base len src va addr n : Nat) (spc : Space) (op : PrOp) (bs : List Byte),
    (s.core.lsu.walks[ix]? = some w → s.part = some p →
      let r := walk s.mem 0 w.spc (if w.spc = .hs then p.rootHs else p.rootCl) w.va w.write
      let die := s.core.idx / 72
      (∀ a e size, r = .ok (a, e, size) → die < 2 → (∀ d : Fin 2, (s.pkg.dieTlb[d]).length < 16384) → Answers (.translationWalk ix) s fun t =>
        let x : TlbEntry := ⟨s.partId, w.spc, w.va / 2 ^ size, size, e, a, wfld e 0 16⟩
        t.core.lsu = { s.core.lsu with walks := s.core.lsu.walks.eraseIdx ix, utlb := (x :: s.core.lsu.utlb).take 64 } ∧
        (∀ d : Fin 2, t.pkg.dieTlb[d] = if d.val = die then x :: s.pkg.dieTlb[d] else s.pkg.dieTlb[d]) ∧
        t.pkg = { s.pkg with dieTlb := t.pkg.dieTlb } ∧ t.mem = s.mem ∧ t.core.regs = s.core.regs ∧ t.core.fe.unit = s.core.fe.unit ∧ t.core.fe.aStall = false) ∧
      (∀ f, r = .error f → s.core.fe.unit = .running → s.pkg.notify.full = false → Answers (.translationWalk ix) s fun t => t.core.fe.unit = .suspended false ∧
        t.core.fe.fault.map TrapRec.cause = some ((s.core.fe.fault.map TrapRec.cause).getD .pageFault) ∧ t.core.lsu = { s.core.lsu with walks := s.core.lsu.walks.eraseIdx ix } ∧ t.core.regs = s.core.regs ∧
        t.pkg.notify = { s.pkg.notify with head := s.pkg.notify.head + 1 } ∧
        let at' := wfld s.pkg.notify.base 12 40 * 2 ^ 12 + 16 * (s.pkg.notify.head.toNat % s.pkg.notify.size)
        t.mem.le at' 16 = noteRec w.va 0 s.uctr s.partId s.core.idx w.spc.code f.kind + s.pkg.notify.head.toNat / s.pkg.notify.size % 2)) ∧
    (∀ fin ws, s.core.fe.unit = .suspended fin → s.hearthUp = true → (∀ r ∈ s.pkg.notify.pending, fld r 44 12 ≠ s.uctr) →
      let m := ws.foldl (fun (m : Memory) (w : Nat × Word) => m.putLe (keyCl w.1) 8 w.2.toNat) s.mem
      (Answers (.pageFault true ws) s fun t => t.mem = m ∧ t.core.fe.unit = (if fin then .ending else .running) ∧ t.core.fe.fault = none ∧ t.core.regs = s.core.regs ∧
        t.pkg = s.pkg) ∧
      (Answers (.pageFault false ws) s fun t => StoppedEarly { s with mem := m } 5 t ∧
        wfld t.core.sys.trapCause 0 8 = ((s.core.fe.fault.map TrapRec.cause).getD .pageFault).code ∧ (∀ r, s.core.fe.fault = some r → t.core.sys.trapPc = r.pc ∧
          t.core.sys.trapCause.getLsbD 32 = r.paired ∧ t.core.sys.trapCpc = r.cpc) ∧ t.core.lsu.porch = s.core.lsu.porch)) ∧
    (s.hearthUp = true → (Answers (.transInv part spc base len) s (Invalidated s part spc base len)) ∧
      (MailFree s 10 none → (spc = .cl ∨ spc = .hs) → Answers (.tlbinv part spc base len) s fun t => Invalidated s part spc base len t ∧ MailedCode s 0 t) ∧
      (MailFree s 10 none → spc ≠ .cl → spc ≠ .hs → Answers (.tlbinv part spc base len) s fun t => MailedCode s 3 t ∧ CoresStay s t ∧ t.mem = s.mem)) ∧
    (s.pkg.fatal = false → (s.partAt part = none ∨ s.admitsPeer src part = false) → Answers (.prRequest src part va op) s fun t => t = s) ∧
    (∀ ks u, s.pkg.fatal = false → s.partAt part = some p → s.admitsPeer src part = true →
      let through (write : Bool) (len : Nat) (k : Keys) : Prop := State.dieKeys 0 p .cl write ((List.range len).map (va + ·)) s = (k, u)
      (through false n (.ok ks) → Answers (.prRequest src part va (.load n)) s fun t => t = u) ∧
      (through true bs.length (.ok ks) → s.moving ks = false → ks.Nodup → Answers (.prRequest src part va (.store bs)) s fun t =>
        t = { u with mem := t.mem } ∧ PutAt u.mem ks bs t.mem) ∧
      (∀ o long v n, through true (if long then 4 else 8) (.ok ks) → s.moving ks = false → ks.Nodup →
        Answers (.prRequest src part va (.amo o long v n)) s fun t => t = { u with mem := t.mem } ∧
          match amoNew o (if long then 4 else 8) (leNat (ks.map u.mem.read)) v.toNat n.toNat with
          | some r => PutAt u.mem ks (leBytes (if long then 4 else 8) r) t.mem
          | none => t.mem = u.mem) ∧
      (∀ at' f, through false n (.stop at' (.fail f)) → Answers (.prRequest src part va (.load n)) s fun t => ∃ w : Word,
        t = ({ u with free := u.free + 1 } : State).note (noteRec at' 0 w.toNat part (wfld w 12 8) 3 f.kind) true)) ∧
    (∀ (write : Bool) (ks : List Nat), s.pkg.dieTlb[(0 : Fin 2)] = [] → va / 2 ^ 16 = (va + n - 1) / 2 ^ 16 → 0 < n →
      keysVia (prXlate s p write) ((List.range n).map (va + ·)) = .ok ks →
      ∃ u, State.dieKeys 0 p .cl write ((List.range n).map (va + ·)) s = (.ok ks, u) ∧ u.core = s.core ∧ u.others = s.others ∧ u.mem = s.mem ∧
        u.pkg = { s.pkg with dieTlb := u.pkg.dieTlb }) ∧
    (s.pkg.fatal = false → addr + n ≤ 2 ^ 52 → (Answers (.hostMemAccess addr n none) s fun t => t = s) ∧
      (bs.length = n →
        let lo := wfld s.pkg.hdmBase 30 22 * 2 ^ 30
        let size := if s.pkg.form = .die then 3 * 2 ^ 38 else 3 * 2 ^ 39
        let cellar : Prop := s.pkg.hdmBase.getLsbD 0 = true ∧ lo ≤ addr ∧ addr + n ≤ lo + size
        let at' := if cellar then addr - lo else 2 ^ 53 + addr
        s.moving ((List.range n).map (at' + ·)) = false →
        Answers (.hostMemAccess addr n (some bs)) s fun t => t = { s with mem := t.mem } ∧
          ∀ a, t.mem.read a = if at' ≤ a ∧ a < at' + n then bs.getD (a - at') 0 else s.mem.read a))) ∧
  (∀ (s : State) (x : Word), s.pkg.fatal = false →
    let n := s.pkg.notify
    let writes (r : HostReg) (p : Package) : Prop := Answers (.registerWrite r x) s fun t => t = { s with pkg := p }
    writes .hostCntThr { s.pkg with notify := { n with thr := x &&& 0xFFFF } } ∧
    (8 ≤ wfld x 0 4 → writes .notifyBase { s.pkg with notify := { n with base := x &&& 0x000FFFFFFFFFF00F } }) ∧
    (wfld x 0 4 < 8 → writes .notifyBase s.pkg) ∧
    (n.pending = [] → writes .notifyTail { s.pkg with notify := { n with tail := x } }) ∧
    writes .notifyLost { s.pkg with notify := { n with lost := n.lost &&& ~~~ x } } ∧
    writes .jobringBase { s.pkg with ring := { s.pkg.ring with base := x &&& 0x000FFFFFFFFFF01F } } ∧
    writes .mboxStat { s.pkg with mboxStat := s.pkg.mboxStat &&& ~~~ (x &&& 0x200) } ∧
    writes .hdmBase { s.pkg with hdmBase := x &&& 0x000FFFFFC0000001 } ∧
    writes .fabricId { s.pkg with fabric := x &&& 0xFF } ∧
    (s.pkg.mbox ≠ none → writes .mboxCmd { s.pkg with mboxStat := s.pkg.mboxStat ||| 0x200 }) ∧
    (s.pkg.mbox = none → 1 ≤ wfld x 56 8 → wfld x 56 8 ≤ 10 → writes .mboxCmd { s.pkg with mbox := some x, mboxStat := s.pkg.mboxStat ||| 0x100 }) ∧
    (s.pkg.mbox = none → (wfld x 56 8 = 0 ∨ 10 < wfld x 56 8) → Answers (.registerWrite .mboxCmd x) s fun t => MailedCode s 1 t ∧ CoresStay s t ∧ t.mem = s.mem ∧
      t.pkg = { s.pkg with mboxStat := t.pkg.mboxStat, bbox := t.pkg.bbox }) ∧
    (∀ i : Fin 256, Answers (.registerWrite (.route i) x) s fun t => t = { s with pkg := { s.pkg with routes := t.pkg.routes } } ∧
      ∀ k, look 0 t.pkg.routes k = if k = i.val then x &&& 0x3F else look 0 s.pkg.routes k) ∧
    (∀ i : Fin 8, ∃ f g h : Level,
      writes (.scrubCtl i) { s.pkg with levels := s.pkg.levels.set i.val f } ∧ writes (.elogCe i) { s.pkg with levels := s.pkg.levels.set i.val g } ∧
      writes (.elogUe i) { s.pkg with levels := s.pkg.levels.set i.val h } ∧
      f = { s.pkg.levels[i] with scrub := if i.val = 4 ∨ i.val = 5 ∨ i.val = 7 then (s.pkg.levels[i]).scrub else x &&& 0x1FFFFFFFF } ∧
      g = { s.pkg.levels[i] with ce := (s.pkg.levels[i]).ce &&& ~~~ x } ∧ h = { s.pkg.levels[i] with ue := (s.pkg.levels[i]).ue &&& ~~~ x }) ∧
    (∀ k : Nat, Answers (.registerWrite (.slotBerr k) x) s fun t => t.mem = s.mem ∧ t.pkg = s.pkg ∧ t.others.length = s.others.length ∧
      ∀ (i : Nat) (c d : Core), (s.core :: s.others)[i]? = some c → (t.core :: t.others)[i]? = some d →
        d = if c.idx = k then { c with slot := { c.slot with ctl := c.slot.ctl &&& ~~~ (x &&& 0x100) } } else c) ∧
    exec (.registerWrite .jobringTail x) s = exec (.jobringTail x) s ∧
    (∀ (k : Nat) (high : Bool), ∀ r ∈ [HostReg.notifyHead, .jobringHead, .elogBase, .svnFuse, .slotAct k high], writes r s.pkg) ∧
    (∀ i : Fin 24, writes (.linkStat i) s.pkg) ∧ (∀ i : Fin 8, writes (.elogHead i) s.pkg) ∧ (∀ (i : Fin 8) (j : Fin 512), writes (.elogEntry i j) s.pkg) ∧
    (∀ i : Fin 256, 24 ≤ wfld (look 0 s.pkg.routes i.val) 0 5 → (s.readReg (.route i)).getLsbD 5 = false) ∧
    (s.readReg (.slotAct s.core.idx true) ++ s.readReg (.slotAct s.core.idx false) = s.core.slot.act) ∧
    (s.readReg (.slotStby s.core.idx true) ++ s.readReg (.slotStby s.core.idx false) = s.core.slot.stby) ∧
    ∀ (i : Fin 8) (j : Fin 256), s.readReg (.elogEntry i ⟨2 * j.val + 1, by omega⟩) ++ s.readReg (.elogEntry i ⟨2 * j.val, by omega⟩) =
      BitVec.ofNat 128 (look 0 (s.pkg.levels[i]).log j.val))

namespace Sys2Proof.Machine

/-- R361: a level's log has taken an entry of this kind: HEAD goes on, the entry stands at its place, CE counts corrected errors and replays, UE uncorrectable errors and links that
go down; the other levels are as before. The entry's TIME is the model's free value (notes/assumptions/2.md). -/
def LoggedAt (s : State) (level : Fin 8) (kind src core addr : Nat) (t : State) : Prop :=
  let l := s.pkg.levels[level]
  let one (on : Bool) (x : Word) : Word := if on then x + 1 else x
  (∀ i, i ≠ level → t.pkg.levels[i] = s.pkg.levels[i]) ∧ ∃ time < 2 ^ 48, t.pkg.levels[level] = { l with
    head := l.head + 1
    log := put l.log (l.head.toNat % 256) (addr % 2 ^ 64 * 2 ^ 64 + core % 256 * 2 ^ 56 + kind * 2 ^ 52 + src * 2 ^ 48 + time)
    ce := one (kind = 1 || kind = 3 || kind = 5) l.ce
    ue := one (kind = 2 || kind = 6) l.ue }

/-- R358: a flit that a port takes: 256 bytes whose CRC agrees, of a kind that is assigned, with the SEQ that the port expects. -/
def GoodFlit (l : Link) (b : List Byte) : Prop :=
  b.length = 256 ∧ crc32c (b.take 248) = leNat ((b.drop 248).take 4) ∧ fld (leNat (b.take 8)) 36 4 ≤ 4 ∧ fld (leNat (b.take 8)) 52 12 = l.rcv

/-- A port after a good flit (R358): the next SEQ, and the flits that its ACK covers have left the replay buffer. -/
def Acked (l : Link) (b : List Byte) (m : Link) : Prop :=
  let ack := fld (leNat (b.take 8)) 40 12
  let rest := l.buf.filter fun x => !decide ((ack + 4096 - x.seq) % 4096 < 2048)
  m = { l with rcv := (l.rcv + 1) % 4096, buf := rest, tries := if rest = [] ∨ rest.length < l.buf.length then 0 else l.tries }

end Sys2Proof.Machine

open Sys2Proof Sys2Proof.Machine

/-- R33, R83, R89, R330, R331, R339, R343, R354, R356, R357, R362, R364: the commands of the mailbox. SVN_BUMP counts up when the release key has signed the
request; ATTEST writes the quote over the nonce; RESYNC the summary, in whose partition rows the places of the fields are the model's (notes/assumptions/120.md); BBREAD the ring's head and frozen flag behind its
events, whose bytes are the free values that each event took when it happened (notes/assumptions/2.md); BBCLEAR empties the box; PARTITION creates, changes and deletes partitions, and the vault of a removed core lies in the overflow
block. R115, R122, R335, R342 to R344, R348, R349: LOAD reports the first failed check, with the sections and notes skipped before it, and
changes nothing else but the cache of a revoked object; a load that no check refuses places its sections, writes the control store of the partition's cores, which
hold no unit, and keeps its planes and its units for the job. -/
def Obligations.MailboxCommands : Prop :=
  (∀ (s : State) (buf : Nat) (msg sig : List Byte),
    let at' := keyHost (buf % 2 ^ 46 * 64)
    let wrote (t : State) (n : Nat) : Prop := ∀ a, a < at' ∨ at' + n ≤ a → t.mem.read a = s.mem.read a
    let dig (x : List Byte) : List Byte := leBytes 32 (Config.sm3 x)
    let live := s.pkg.counters.filter fun c => c.2.live
    let rows := (s.core :: s.others).flatMap Core.flightRows
    let n := s.pkg.parts.length
    let word (t : State) (i : Nat) : Nat := leNat (bytesAt t.mem (at' + 8 * i) 8)
    let nonce := bytesAt s.mem at' 32
    let req := partReq (s.hostBytes (bufAt buf) 64)
    let bad := s.partDenied (s.hostBytes (bufAt buf) 64)
    let count (t : State) (k : Nat) : Prop := bytesAt t.mem at' 8 = leBytes 8 k
    s.mem.wf = true →
    (s.hearthUp = true →
      (MailFree s 5 none → Answers (.svnBump msg sig) s fun t => CoresStay s t ∧ t.mem = s.mem ∧
        if Config.sm2Verify Config.releaseKey msg sig = true then MailedCode s 0 t ∧ t.pkg.svn = min 64 (s.pkg.svn + 1) else MailedCode s 3 t ∧ t.pkg.svn = s.pkg.svn) ∧
      (MailFree s 4 buf → Answers (.attest buf) s fun t => CoresStay s t ∧ MailedCode s 0 t ∧ wrote t 256 ∧
        let body := nonce ++ dig s.pkg.firmware ++ dig (s.inOrder.flatMap fun c => (List.range 8192).flatMap fun i => leBytes 8 (look 0 c.fe.cstore i).toNat) ++
          leBytes 8 (s.pkg.svn % 128 + Config.stepping % 2 ^ 16 * 2 ^ 16) ++ dig Config.deviceKey ++ List.replicate 56 0
        bytesAt t.mem at' 192 = body ∧ bytesAt t.mem (at' + 192) 64 = (Config.sm2Sign Config.deviceKey body ++ List.replicate 64 0).take 64) ∧
      (MailFree s 3 buf → n < 2 ^ 16 → live.length < 2 ^ 16 → rows.length < 2 ^ 16 → Answers (.resync buf) s fun t => CoresStay s t ∧ MailedCode s 0 t ∧ t.pkg.resyncs = s.pkg.resyncs + 1 ∧
        word t 0 = 0x5253 * 2 ^ 48 + 2 ^ 32 + (Config.resyncBase + s.pkg.resyncs) % 2 ^ 32 ∧ word t 1 = n * 2 ^ 48 + live.length * 2 ^ 32 + rows.length * 2 ^ 16 + 8 ∧
        (∀ i q, s.pkg.parts[i]? = some q →
          let job := s.pkg.jobs.find? fun j => j.part == q.id && !stFinal (s.pkg.counter j.ctr).state
          word t (8 + 2 * i) = (q.cores.headD 0 + q.cores.getLastD 0 * 2 ^ 8 + (job.map (·.ctr)).getD 0 * 2 ^ 16 + q.quantum * 2 ^ 32) % 2 ^ 64 ∧ word t (8 + 2 * i + 1) = 0) ∧
        (∀ i c, live[i]? = some c → word t (8 + 2 * n + 2 * i) = s.pkg.ref c.1 % 2 ^ 24 ∧ word t (8 + 2 * n + 2 * i + 1) = c.2.word.toNat) ∧
        (∀ i r, rows[i]? = some r → ∀ j < 4, word t (8 + 2 * n + 2 * live.length + 4 * i + j) = r.getD j 0 % 2 ^ 64) ∧
        (∀ i : Fin 8, word t (8 + 2 * n + 2 * live.length + 4 * rows.length + 2 * i.val) = (s.pkg.levels[i]).ce.toNat ∧
          word t (8 + 2 * n + 2 * live.length + 4 * rows.length + 2 * i.val + 1) = (s.pkg.levels[i]).ue.toNat)) ∧
      (MailFree s 8 buf → bad = true → Answers (.partition buf) s fun t => CoresStay s t ∧ MailedCode s 3 t ∧ t.pkg.parts = s.pkg.parts ∧ wrote t 8 ∧
        count t (((s.partAt req.id).map (·.cores.length)).getD 0)) ∧
      (MailFree s 8 buf → bad = false → s.partAt req.id = none → req.cores ≠ [] → Answers (.partition buf) s fun t => CoresStay s t ∧ MailedCode s 0 t ∧ wrote t 8 ∧
        t.pkg.parts = s.pkg.parts ++ [⟨req.id, req.cores, req.rootCl, req.rootHs, req.quantum, req.ovf, none⟩] ∧ count t req.cores.length) ∧
      (∀ q, MailFree s 8 buf → bad = false → s.partAt req.id = some q → (∀ c ∈ s.core :: s.others, c.idx ∈ q.cores → c.slotFree = true ∧ bindV c.slot.stby.toNat = false) →
        (req.cores = [] → Answers (.partition buf) s fun t => CoresStay s t ∧ MailedCode s 0 t ∧ wrote t 8 ∧ t.pkg.parts = s.pkg.parts.filter (fun x => x.id != req.id) ∧
          count t 0) ∧
        (∀ last, q.cores = req.cores ++ [last] → q.cores.Nodup → req.cores ≠ [] → (∀ c ∈ q.cores, c < 144) → q.rootCl = req.rootCl → q.rootHs = req.rootHs →
          (∀ x ∈ s.pkg.parked, ¬ (x.held = true ∧ x.loc = last)) → (∀ g ∈ s.pkg.graphs, ∀ j, s.jobAt g.job = some j → j.part ≠ req.id) →
          Answers (.partition buf) s fun t => MailedCode s 0 t ∧ count t req.cores.length ∧
            t.pkg.parts = s.pkg.parts.map (fun x => if x.id = req.id then
              { q with cores := req.cores, quantum := req.quantum, ovf := req.ovf, spilled := some req.cores.length } else x) ∧
            (∀ o < 0x1800000, t.mem.read (keyCl req.ovf + o) = s.mem.read (keyVault last o)) ∧
            (∀ c ∈ req.cores, ∀ o < 0x1800000, t.mem.read (keyVault c o) = s.mem.read (keyVault c o))))) ∧
    (s.pkg.booted = true →
      (MailFree s 6 buf → Answers (.bbread buf) s fun t => CoresStay s t ∧ MailedCode s 0 t ∧ wrote t (8 * 16386) ∧
        t.free = s.free + (if s.pkg.bbox.frozen then 0 else 4) ∧
        (∀ i < 4096, ∀ k < 4, word t (4 * i + k) = match t.pkg.bbox.events.find? fun e => e.1 == i with
          | some e => (Config.freeWord (e.2.val + k)).toNat
          | none => 0) ∧
        bytesAt t.mem (at' + 131072) 8 = leBytes 8 t.pkg.bbox.head ∧ word t 16385 = (if t.pkg.bbox.frozen then 1 else 0) ∧
        (s.pkg.bbox.frozen = true → t.pkg.bbox = s.pkg.bbox) ∧
        (s.pkg.bbox.frozen = false → t.pkg.bbox = ⟨put s.pkg.bbox.events (s.pkg.bbox.head % 4096) ⟨.mailbox 6, s.core.idx, s.free⟩, s.pkg.bbox.head + 1, false⟩)) ∧
      (MailFree s 7 none → Answers .bbclear s fun t => CoresStay s t ∧ MailedCode s 0 t ∧ t.mem = s.mem ∧ t.pkg.bbox = ⟨[], 0, false⟩))) ∧
  (∀ (s : State) (r : LoadReq),
    let at' := keyHost (r.buf % 2 ^ 46 * 64)
    let o := s.objectAt r.obj
    let report (t : State) (status sect detail : Nat) (skip : List Nat) : Prop :=
      let b := leBytes 8 (status * 2 ^ 56 + sect % 2 ^ 16 * 2 ^ 32 + detail % 2 ^ 32) ++ leBytes 8 (skip.length % 2 ^ 16 * 2 ^ 48) ++ skip.flatMap (leBytes 2)
      bytesAt t.mem at' b.length = b
    s.hearthUp = true → MailFree s 1 r.buf →
    (s.jobAt r.job = none → Answers (.load r) s fun t => MailedCode s 4 t ∧ CoresStay s t ∧ t.mem = s.mem ∧ t.pkg.loaded = s.pkg.loaded) ∧
    (∀ j, s.jobAt r.job = some j →
      (∀ status sect detail skip, (match s.checkLoad j o r with | .error (.report a b c d) => (a, b, c, d) = (status, sect, detail, skip) | _ => False) →
        Answers (.load r) s fun t =>
        MailedCode s 0 t ∧ CoresStay s t ∧ report t status sect detail skip ∧ t.pkg.loaded = s.pkg.loaded ∧
        t.pkg.cache = if status = 7 then s.pkg.cache.filter (fun e => (s.mem.bytes (keyCl e.addr) e.size).take 32 != objHash o) else s.pkg.cache) ∧
      (∀ im skip, (match s.checkLoad j o r with | .ok x => x = (im, skip) | .error _ => False) → s.storeFree j o = true → (s.loadDo j o r im).isSome = true → Answers (.load r) s fun t =>
        MailedCode s 0 t ∧ report t 0 0xFFFF 0 skip ∧
        let own (i : Nat) : Prop := (placedTy (sectAt o i).ty = true ∨ (sectAt o i).ty = 1) ∧ (addrOf r i).isSome = true
        (∃ x, t.pkg.loaded = s.pkg.loaded ++ [x] ∧ x.job = j.ctr ∧ x.part = j.part ∧ x.req = r ∧ x.bytes = o ∧
          (∀ i p, (i, p) ∈ x.secs ↔ i < sectCount o ∧ own i ∧ addrOf r i = some p.addr ∧ p.ty = (sectAt o i).ty ∧ p.size = (im.getD i []).length) ∧
          (∀ i ws, (i, ws) ∈ x.planes ↔ i < sectCount o ∧ (sectAt o i).ty = 8 ∧ ws = jobPlane j (symPlane o i (planeWords (im.getD i [])))) ∧
          x.units.length = (unitEntries o).length ∧
          (∀ (n : Nat) (z : Nat × Nat) (y : UnitImg), (unitEntries o)[n]? = some z → x.units[n]? = some y → y.plane = fld (unitWord o z) 0 16 ∧
            y.entry = (addrOf r (fld (unitWord o z) 16 16)).getD 0 + leNat ((((sectAt o z.1).bytes o).drop (32 * z.2 + 8)).take 8))) ∧
        (∀ i a ks, i < sectCount o → own i → (∀ k < sectCount o, own k → k = i) → addrOf r i = some a → (∃ u, s.partKeys j.part a (im.getD i []).length true = some (ks, u)) → ks.Nodup →
          (∀ k ∈ ks, k < 2 ^ 53) → (hasIxius o = true → ∀ k ∈ ks, k < keyCl r.cacheAt) → ks.map t.mem.read = im.getD i []) ∧
        (∀ (n : Nat) (c d : Core), (s.core :: s.others)[n]? = some c → (t.core :: t.others)[n]? = some d →
          ((∃ i < sectCount o, (sectAt o i).ty = 6) → c.idx ∈ ((s.partAt j.part).map (·.cores)).getD [] → ∃ i < sectCount o, (sectAt o i).ty = 6 ∧
            ∀ k < 8192, look 0 d.fe.cstore k = BitVec.ofNat 64 (leNat (((im.getD i []).drop (8 * k)).take 8))) ∧
          ((∀ i < sectCount o, (sectAt o i).ty ≠ 6) ∨ c.idx ∉ ((s.partAt j.part).map (·.cores)).getD [] → d.fe = c.fe) ∧ d.regs = c.regs))))

/-- R8, R127, R228, R308, R355, R358 to R363, R365: the links, scrubbing, detected errors, throttling, boot, the fatal error and a reset, of which the fuses and the
black box keep their contents. What a reset keeps beside the black box, and that a warm one keeps the Cellar, is the model's (notes/assumptions/121.md). -/
def Obligations.LinksErrorsAndPower : Prop :=
  ∀ (s : State) (k : Fin 24) (b : List Byte),
    let l := s.pkg.links[k]
    let dest := fld (leNat (b.take 8)) 28 8
    let kind := fld (leNat (b.take 8)) 36 4
    let linksOnly (t : State) : Prop := t = { s with pkg := { s.pkg with links := t.pkg.links } }
    let others (t : State) : Prop := ∀ i, i ≠ k → t.pkg.links[i] = s.pkg.links[i]
    (s.pkg.fatal = false → l.up = true →
      (¬ GoodFlit l b → Answers (.flit k.val b) s fun t => t = s) ∧
      (GoodFlit l b → (kind = 0 ∨ kind = 4) → Answers (.flit k.val b) s fun t => linksOnly t ∧ others t ∧ Acked l b t.pkg.links[k]) ∧
      (GoodFlit l b → kind ≠ 0 → kind ≠ 4 → dest = s.pkg.fabric.toNat % 256 → Answers (.flit k.val b) s fun t => linksOnly t ∧ others t ∧
        ∃ m, Acked l b m ∧ t.pkg.links[k] = { m with inbox := l.inbox ++ [(b.drop 8).take 240] }) ∧
      (∀ i : Fin 24, GoodFlit l b → kind ≠ 0 → kind ≠ 4 → dest ≠ s.pkg.fabric.toNat % 256 → s.pkg.port dest = some i.val → i ≠ k → (s.pkg.links[i]).up = true →
        ((s.pkg.links[i]).buf).length < 256 → Answers (.flit k.val b) s fun t => linksOnly t ∧ Acked l b t.pkg.links[k] ∧
          (∀ n, n ≠ k → n ≠ i → t.pkg.links[n] = s.pkg.links[n]) ∧ ∃ x, t.pkg.links[i] = { s.pkg.links[i] with
            buf := (s.pkg.links[i]).buf ++ [⟨(s.pkg.links[i]).snd, x, .forwarded⟩], snd := ((s.pkg.links[i]).snd + 1) % 4096 } ∧ x.drop 8 = b.drop 8 ∧
            fld (leNat (x.take 8)) 52 12 = (s.pkg.links[i]).snd % 4096 ∧ leNat (x.take 8) % 2 ^ 52 = leNat (b.take 8) % 2 ^ 52) ∧
      (GoodFlit l b → kind ≠ 0 → kind ≠ 4 → dest ≠ s.pkg.fabric.toNat % 256 → s.pkg.port dest = none → Answers (.flit k.val b) s fun t =>
        linksOnly t ∧ others t ∧ Acked l b t.pkg.links[k])) ∧
    (l.up = true → l.buf ≠ [] → l.tries < 8 → Answers (.linkReplay k.val) s fun t => CoresStay s t ∧ t.mem = s.mem ∧ others t ∧ t.pkg.links[k] = { l with tries := l.tries + 1 } ∧
      LoggedAt s 7 5 0 0xFF k.val t) ∧
    (l.up = true → 8 ≤ l.tries → Answers (.linkDown k.val) s fun t => t.mem = s.mem ∧ others t ∧
      t.pkg.links[k] = { l with up := false, downs := (l.downs + 1) % 2 ^ 32, buf := [], tries := 0 } ∧ LoggedAt s 7 6 0 0xFF k.val t ∧
      t.core.regs = s.core.regs ∧ t.core.mems = s.core.mems ∧ t.core.qs = s.core.qs ∧
      let carried (x : Flit) : Prop := ∃ seq, x.use = .access s.core.idx seq ∧ s.core.awaits seq = true
      let subs (f : RsSend) : Bool := l.buf.any fun x => x.use == .sub f.core f.ix
      t.pkg.rsFly = s.pkg.rsFly.filter (fun f => !subs f) ∧
      t.core.resh = (match s.pkg.rsFly.find? fun f => f.core == s.core.idx && subs f with
        | some f => s.core.resh.map fun r => { r with fail := some f.dev }
        | none => s.core.resh) ∧
      (∀ w, w ∈ t.core.lsu.ms ↔ w ∈ s.core.lsu.ms ∧ ∀ x ∈ l.buf, x.use ≠ .access s.core.idx w.seq) ∧
      (s.core.fe.unit = .running → (∃ x ∈ l.buf, carried x) → ∃ x ∈ l.buf, carried x ∧ t.core.fe.unit = .checked (some (fld (leNat (x.bytes.take 8)) 28 8)) 1) ∧
      ((∀ x ∈ l.buf, ¬ carried x) → t.core.fe = s.core.fe)) ∧
    (l.up = false → s.pkg.fatal = false → k.val < s.pkg.form.ports →
      (∀ c ∈ s.core :: s.others, ∀ q : Fin 5, ∀ e ∈ c.eng.q[q], e.isBin = true → e.st ≠ .running) →
      Answers (.linkTraining k.val) s fun t => CoresStay s t ∧ t.mem = s.mem ∧ others t ∧
      t.pkg.links[k] = { l with up := true, snd := 0, rcv := 0, buf := [], tries := 0 } ∧ LoggedAt s 7 7 0 0xFF k.val t) ∧
    (∀ (level : Fin 8) (core addr : Nat), s.pkg.fatal = false → (level.val ∈ [0, 1, 2, 3, 6]) → wfld (s.pkg.levels[level]).scrub 0 32 ≠ 0 → addr % 8 = 0 →
      addr < [2 ^ 22, 2 ^ 16, 2 ^ 23, 2 ^ 25, 0, 0, if s.pkg.form = .die then 3 * 2 ^ 38 else 3 * 2 ^ 39].getD level.val 0 →
      (if level.val = 6 then core = 255 else ∃ c ∈ s.core :: s.others, c.idx = core ∧ ((s.pkg.levels[level]).scrub.getLsbD 32 = true → c.busy = false)) →
      (Answers (.scrub level.val core addr 0) s fun t => t = s) ∧
      (Answers (.scrub level.val core addr 1) s fun t => CoresStay s t ∧ t.mem = s.mem ∧ t.pkg.poison = s.pkg.poison ∧ LoggedAt s level 1 1 core addr t) ∧
      (Answers (.scrub level.val core addr 2) s fun t => CoresStay s t ∧ t.mem = s.mem ∧ ⟨level.val, core, addr⟩ ∈ t.pkg.poison ∧
        (∀ p, p ≠ ⟨level.val, core, addr⟩ → (p ∈ t.pkg.poison ↔ p ∈ s.pkg.poison)) ∧ LoggedAt s level 2 1 core addr t)) ∧
    (∀ (xp : Bool) (n : Nat), (s.core.fe.unit = .running ∨ s.core.fe.unit = .ending) →
      (if xp = true then (match s.core.fe.kernel with | some c => some c.seq | none => s.core.fe.xq.head?.map (·.seq)) else s.core.fe.aq.head?.map (·.seq)) = some n →
      let point := (xp, n, s.core.sys.loopState)
      (point ∉ s.core.replayAt → Answers (.softErrorReplay xp) s fun t => t.core = { s.core with replayAt := point :: s.core.replayAt.filter fun x => x.1 != xp } ∧ t.others = s.others ∧ t.mem = s.mem ∧
        ∃ a, LoggedAt s 5 3 0 s.core.idx a t) ∧
      (point ∈ s.core.replayAt → Answers (.softErrorReplay xp) s fun t => t.core = { s.core with fe := { s.core.fe with unit := .checked none (if xp then 2 else 1) } } ∧ t.others = s.others ∧
        t.mem = s.mem ∧ ∃ a, LoggedAt s 5 4 0 s.core.idx a t)) ∧
    (s.hearthUp = true → s.pkg.throttled = false → Answers .thermalThrottle s fun t => CoresStay s t ∧ t.mem = s.mem ∧ t.pkg = { s.pkg with throttled := true, bbox := t.pkg.bbox }) ∧
    (s.hearthUp = true → s.pkg.throttled = true → Answers .throttleRestore s fun t => CoresStay s t ∧ t.mem = s.mem ∧ t.pkg = { s.pkg with throttled := false, bbox := t.pkg.bbox }) ∧
    (s.pkg.fatal = false → Answers .fatalError s fun t => t.mem = s.mem ∧ t.pkg = { s.pkg with fatal := true, bbox := { s.pkg.bbox with frozen := true } } ∧
      t.others.length = s.others.length ∧ ∀ (i : Nat) (c d : Core), (s.core :: s.others)[i]? = some c → (t.core :: t.others)[i]? = some d →
        d = if c.busy = true then { c with fe := { c.fe with unit := .ended, aq := [], xq := [], kernel := none, mac := none } } else c) ∧
    (∀ image dig sig svn, s.pkg.booted = false → s.pkg.bootFailed = false → s.pkg.fatal = false → Answers (.boot image dig sig svn) s fun t => CoresStay s t ∧ t.mem = s.mem ∧
      if dig = leBytes 32 (Config.sm3 image) ∧ Config.sm2Verify Config.releaseKey dig sig = true ∧ s.pkg.svn ≤ svn then t.pkg = { s.pkg with booted := true, firmware := image }
      else t.pkg = { s.pkg with bootFailed := true, mboxStat := t.pkg.mboxStat, mbox := none } ∧ MailedCode s 3 t) ∧
    (∀ cold rest, s.agenda = .outOfReset cold :: rest → ∃ t, step s = .next t ∧ t.core = Core.reset 0 ∧ (t.core :: t.others).map (·.idx) = List.range s.pkg.form.cores ∧
      t.pkg.counters = [] ∧ t.pkg.booted = false ∧ t.pkg.bbox = s.pkg.bbox ∧ t.pkg.svn = s.pkg.svn ∧
      ∀ a, t.mem.read a = if 2 ^ 53 ≤ a ∨ (cold = false ∧ a < 2 ^ 52) then s.mem.read a else 0)

/-- R62, R64 to R68, R73 to R76, R79: words that the spec writes out decode to their instructions; whatever decodes is well-formed and is exactly the encoding
of its instruction, so a word with any other bit set is refused. -/
def Obligations.WordsDecode : Prop :=
  (∀ p ∈ ([(0x0400642800000000, .add .d 3 4 5), (0x0430C11200000000, .cmp .lt 6 1 2), (0x0800A500FFFFFFFF, .addi .d 5 5 0xFFFFFFFF), (0x0840E00000001000, .li 7 0x1000),
      (0x10041F0000000000, .jr 31 0), (0x1C11090000000040, .ldAt .w false 8 ⟨9, 0, 0, 0x40⟩), (0x28186A0010000000, .stRa .d true 3 ⟨10, 0, 0, 0⟩),
      (0x44C0A60000000000, .amoAdd .cl false false 5 ⟨6, 0, 0, 0⟩), (0x4C04260000000000, .ldq .at 1 0 false ⟨6, 0, 0, 0⟩), (0x500C0000000030C1, .hbind 3 0xC1),
      (0x5408A00000000130, .rdsr 5 0x130), (0x8808000302818000, .pand 0 6 5 3), (0x9C40019403FFFFFE, .sli 0 5 0x3FFFFFE), (0xA804003100018000, .qcount 0 2 3)] :
      List (Nat × Instr)), decodeWord p.1 = .ok p.2) ∧
  ∀ (bs rest : List Byte) (i : Instr), decode bs = .ok (i, rest) → i.wf = true ∧ bs = encode i ++ rest

/-- R62, R64, R65, R73 to R79: every well-formed instruction of the A-pipe, prefixes and micro-forms among them, is read back from its eight bytes. -/
def Obligations.APipeRoundTrip : Prop :=
  ∀ (i : Instr) (rest : List Byte), i.wf = true → 0x01 ≤ i.major → i.major ≤ 0x17 → decode (encode i ++ rest) = .ok (i, rest)

/-- R62, R64, R66 to R68, R175, R176, R194, R200: every well-formed instruction of the X-pipe is read back from its eight bytes. -/
def Obligations.XPipeRoundTrip : Prop :=
  ∀ (i : Instr) (rest : List Byte), i.wf = true → i.isX = true → decode (encode i ++ rest) = .ok (i, rest)

/-- R62, R64, R75: every well-formed engine command is read back from its eight bytes. -/
def Obligations.EngineRoundTrip : Prop :=
  ∀ (i : Instr) (rest : List Byte), i.wf = true → 0x30 ≤ i.major → decode (encode i ++ rest) = .ok (i, rest)

/-- Every step, of whatever turn the agenda names, keeps the canonical form of every memory of the machine. The form is the model's own
(notes/assumptions/4.md), on the memories of R15. -/
def Obligations.StepsKeepMemories : Prop := ∀ s t : State, s.MemsOk → step s = .next t → t.MemsOk

/-- R8, R91, R155, R316, R339, R352, R354, R358, R360: the state after reset: no unit, no queue holds anything, no result is in flight, no hatch is bound, and
the registers have the reset values that the spec gives; every memory has the canonical form. The values of the registers that the spec leaves open are the
model's (notes/assumptions/1.md), and nothing here rests on them. -/
def Obligations.ResetState : Prop :=
  let s := State.reset
  let p := s.pkg
  s.MemsOk ∧ (s.core :: s.others).map (·.idx) = List.range 144 ∧
  (∀ c ∈ s.core :: s.others, c.fe.unit = .empty ∧ c.slot = ⟨0, 0, 0⟩ ∧ c.regs.fly = [] ∧ c.regs.rpl = [] ∧ c.lsu.acc = [] ∧ c.lsu.ms = [] ∧ c.lsu.porch = [] ∧ c.eng.side = [] ∧
    (∀ q : Fin 8, c.qs.lq[q] = [] ∧ c.qs.lin[q] = []) ∧ (∀ q : Fin 4, c.qs.sq[q] = []) ∧ (∀ q : Fin 5, c.eng.q[q] = []) ∧ ∀ h : Fin 16, c.qs.h[h] = ⟨0, []⟩) ∧
  p.counters = [] ∧ p.parts = [] ∧ p.jobs = [] ∧
  s.readReg .hostCntThr = 0 ∧ s.readReg .notifyBase = 8 ∧ s.readReg .notifyHead = 0 ∧ s.readReg .notifyTail = 0 ∧ s.readReg .notifyLost = 0 ∧ s.readReg .jobringBase = 6 ∧
  s.readReg .jobringHead = 0 ∧ s.readReg .mboxStat = 0 ∧ s.readReg .hdmBase = 0 ∧ s.readReg .fabricId = 0 ∧ (∀ i, s.readReg (.route i) = 0) ∧
  (∀ i, s.readReg (.linkStat i) = 0) ∧ (∀ i, s.readReg (.elogHead i) = 0 ∧ s.readReg (.elogCe i) = 0 ∧ s.readReg (.elogUe i) = 0)
end

