-- ==== Sys2Proof/Laws/State.lean ====
section
/-! SUPPORT. What each update of one part of the state leaves of every part: one lemma per part, true by rfl. -/

namespace Sys2Proof.Machine

/-! ### State.regs -/
@[simp] theorem State.regs_core_idx (s : State) (f : Regs → Regs) : (s.regs f).core.idx = s.core.idx := rfl
@[simp] theorem State.regs_core_regs (s : State) (f : Regs → Regs) : (s.regs f).core.regs = f s.core.regs := rfl
@[simp] theorem State.regs_core_sys (s : State) (f : Regs → Regs) : (s.regs f).core.sys = s.core.sys := rfl
@[simp] theorem State.regs_core_fe (s : State) (f : Regs → Regs) : (s.regs f).core.fe = s.core.fe := rfl
@[simp] theorem State.regs_core_qs (s : State) (f : Regs → Regs) : (s.regs f).core.qs = s.core.qs := rfl
@[simp] theorem State.regs_core_lsu (s : State) (f : Regs → Regs) : (s.regs f).core.lsu = s.core.lsu := rfl
@[simp] theorem State.regs_core_eng (s : State) (f : Regs → Regs) : (s.regs f).core.eng = s.core.eng := rfl
@[simp] theorem State.regs_core_mems (s : State) (f : Regs → Regs) : (s.regs f).core.mems = s.core.mems := rfl
@[simp] theorem State.regs_core_resident (s : State) (f : Regs → Regs) : (s.regs f).core.resident = s.core.resident := rfl
@[simp] theorem State.regs_core_shadow (s : State) (f : Regs → Regs) : (s.regs f).core.shadow = s.core.shadow := rfl
@[simp] theorem State.regs_core_slot (s : State) (f : Regs → Regs) : (s.regs f).core.slot = s.core.slot := rfl
@[simp] theorem State.regs_core_lhwm (s : State) (f : Regs → Regs) : (s.regs f).core.lhwm = s.core.lhwm := rfl
@[simp] theorem State.regs_core_link (s : State) (f : Regs → Regs) : (s.regs f).core.link = s.core.link := rfl
@[simp] theorem State.regs_core_circ (s : State) (f : Regs → Regs) : (s.regs f).core.circ = s.core.circ := rfl
@[simp] theorem State.regs_core_resh (s : State) (f : Regs → Regs) : (s.regs f).core.resh = s.core.resh := rfl
@[simp] theorem State.regs_core_rsLast (s : State) (f : Regs → Regs) : (s.regs f).core.rsLast = s.core.rsLast := rfl
@[simp] theorem State.regs_core_vuse (s : State) (f : Regs → Regs) : (s.regs f).core.vuse = s.core.vuse := rfl
@[simp] theorem State.regs_core_prevJob (s : State) (f : Regs → Regs) : (s.regs f).core.prevJob = s.core.prevJob := rfl
@[simp] theorem State.regs_core_planeLog (s : State) (f : Regs → Regs) : (s.regs f).core.planeLog = s.core.planeLog := rfl
@[simp] theorem State.regs_core_replayAt (s : State) (f : Regs → Regs) : (s.regs f).core.replayAt = s.core.replayAt := rfl
@[simp] theorem State.regs_mem (s : State) (f : Regs → Regs) : (s.regs f).mem = s.mem := rfl
@[simp] theorem State.regs_pkg (s : State) (f : Regs → Regs) : (s.regs f).pkg = s.pkg := rfl
@[simp] theorem State.regs_others (s : State) (f : Regs → Regs) : (s.regs f).others = s.others := rfl
@[simp] theorem State.regs_agenda (s : State) (f : Regs → Regs) : (s.regs f).agenda = s.agenda := rfl
@[simp] theorem State.regs_free (s : State) (f : Regs → Regs) : (s.regs f).free = s.free := rfl

/-! ### State.sys -/
@[simp] theorem State.sys_core_idx (s : State) (f : Sys → Sys) : (s.sys f).core.idx = s.core.idx := rfl
@[simp] theorem State.sys_core_regs (s : State) (f : Sys → Sys) : (s.sys f).core.regs = s.core.regs := rfl
@[simp] theorem State.sys_core_sys (s : State) (f : Sys → Sys) : (s.sys f).core.sys = f s.core.sys := rfl
@[simp] theorem State.sys_core_fe (s : State) (f : Sys → Sys) : (s.sys f).core.fe = s.core.fe := rfl
@[simp] theorem State.sys_core_qs (s : State) (f : Sys → Sys) : (s.sys f).core.qs = s.core.qs := rfl
@[simp] theorem State.sys_core_lsu (s : State) (f : Sys → Sys) : (s.sys f).core.lsu = s.core.lsu := rfl
@[simp] theorem State.sys_core_eng (s : State) (f : Sys → Sys) : (s.sys f).core.eng = s.core.eng := rfl
@[simp] theorem State.sys_core_mems (s : State) (f : Sys → Sys) : (s.sys f).core.mems = s.core.mems := rfl
@[simp] theorem State.sys_core_resident (s : State) (f : Sys → Sys) : (s.sys f).core.resident = s.core.resident := rfl
@[simp] theorem State.sys_core_shadow (s : State) (f : Sys → Sys) : (s.sys f).core.shadow = s.core.shadow := rfl
@[simp] theorem State.sys_core_slot (s : State) (f : Sys → Sys) : (s.sys f).core.slot = s.core.slot := rfl
@[simp] theorem State.sys_core_lhwm (s : State) (f : Sys → Sys) : (s.sys f).core.lhwm = s.core.lhwm := rfl
@[simp] theorem State.sys_core_link (s : State) (f : Sys → Sys) : (s.sys f).core.link = s.core.link := rfl
@[simp] theorem State.sys_core_circ (s : State) (f : Sys → Sys) : (s.sys f).core.circ = s.core.circ := rfl
@[simp] theorem State.sys_core_resh (s : State) (f : Sys → Sys) : (s.sys f).core.resh = s.core.resh := rfl
@[simp] theorem State.sys_core_rsLast (s : State) (f : Sys → Sys) : (s.sys f).core.rsLast = s.core.rsLast := rfl
@[simp] theorem State.sys_core_vuse (s : State) (f : Sys → Sys) : (s.sys f).core.vuse = s.core.vuse := rfl
@[simp] theorem State.sys_core_prevJob (s : State) (f : Sys → Sys) : (s.sys f).core.prevJob = s.core.prevJob := rfl
@[simp] theorem State.sys_core_planeLog (s : State) (f : Sys → Sys) : (s.sys f).core.planeLog = s.core.planeLog := rfl
@[simp] theorem State.sys_core_replayAt (s : State) (f : Sys → Sys) : (s.sys f).core.replayAt = s.core.replayAt := rfl
@[simp] theorem State.sys_mem (s : State) (f : Sys → Sys) : (s.sys f).mem = s.mem := rfl
@[simp] theorem State.sys_pkg (s : State) (f : Sys → Sys) : (s.sys f).pkg = s.pkg := rfl
@[simp] theorem State.sys_others (s : State) (f : Sys → Sys) : (s.sys f).others = s.others := rfl
@[simp] theorem State.sys_agenda (s : State) (f : Sys → Sys) : (s.sys f).agenda = s.agenda := rfl
@[simp] theorem State.sys_free (s : State) (f : Sys → Sys) : (s.sys f).free = s.free := rfl

/-! ### State.fe -/
@[simp] theorem State.fe_core_idx (s : State) (f : Front → Front) : (s.fe f).core.idx = s.core.idx := rfl
@[simp] theorem State.fe_core_regs (s : State) (f : Front → Front) : (s.fe f).core.regs = s.core.regs := rfl
@[simp] theorem State.fe_core_sys (s : State) (f : Front → Front) : (s.fe f).core.sys = s.core.sys := rfl
@[simp] theorem State.fe_core_fe (s : State) (f : Front → Front) : (s.fe f).core.fe = f s.core.fe := rfl
@[simp] theorem State.fe_core_qs (s : State) (f : Front → Front) : (s.fe f).core.qs = s.core.qs := rfl
@[simp] theorem State.fe_core_lsu (s : State) (f : Front → Front) : (s.fe f).core.lsu = s.core.lsu := rfl
@[simp] theorem State.fe_core_eng (s : State) (f : Front → Front) : (s.fe f).core.eng = s.core.eng := rfl
@[simp] theorem State.fe_core_mems (s : State) (f : Front → Front) : (s.fe f).core.mems = s.core.mems := rfl
@[simp] theorem State.fe_core_resident (s : State) (f : Front → Front) : (s.fe f).core.resident = s.core.resident := rfl
@[simp] theorem State.fe_core_shadow (s : State) (f : Front → Front) : (s.fe f).core.shadow = s.core.shadow := rfl
@[simp] theorem State.fe_core_slot (s : State) (f : Front → Front) : (s.fe f).core.slot = s.core.slot := rfl
@[simp] theorem State.fe_core_lhwm (s : State) (f : Front → Front) : (s.fe f).core.lhwm = s.core.lhwm := rfl
@[simp] theorem State.fe_core_link (s : State) (f : Front → Front) : (s.fe f).core.link = s.core.link := rfl
@[simp] theorem State.fe_core_circ (s : State) (f : Front → Front) : (s.fe f).core.circ = s.core.circ := rfl
@[simp] theorem State.fe_core_resh (s : State) (f : Front → Front) : (s.fe f).core.resh = s.core.resh := rfl
@[simp] theorem State.fe_core_rsLast (s : State) (f : Front → Front) : (s.fe f).core.rsLast = s.core.rsLast := rfl
@[simp] theorem State.fe_core_vuse (s : State) (f : Front → Front) : (s.fe f).core.vuse = s.core.vuse := rfl
@[simp] theorem State.fe_core_prevJob (s : State) (f : Front → Front) : (s.fe f).core.prevJob = s.core.prevJob := rfl
@[simp] theorem State.fe_core_planeLog (s : State) (f : Front → Front) : (s.fe f).core.planeLog = s.core.planeLog := rfl
@[simp] theorem State.fe_core_replayAt (s : State) (f : Front → Front) : (s.fe f).core.replayAt = s.core.replayAt := rfl
@[simp] theorem State.fe_mem (s : State) (f : Front → Front) : (s.fe f).mem = s.mem := rfl
@[simp] theorem State.fe_pkg (s : State) (f : Front → Front) : (s.fe f).pkg = s.pkg := rfl
@[simp] theorem State.fe_others (s : State) (f : Front → Front) : (s.fe f).others = s.others := rfl
@[simp] theorem State.fe_agenda (s : State) (f : Front → Front) : (s.fe f).agenda = s.agenda := rfl
@[simp] theorem State.fe_free (s : State) (f : Front → Front) : (s.fe f).free = s.free := rfl

/-! ### State.qs -/
@[simp] theorem State.qs_core_idx (s : State) (f : Queues → Queues) : (s.qs f).core.idx = s.core.idx := rfl
@[simp] theorem State.qs_core_regs (s : State) (f : Queues → Queues) : (s.qs f).core.regs = s.core.regs := rfl
@[simp] theorem State.qs_core_sys (s : State) (f : Queues → Queues) : (s.qs f).core.sys = s.core.sys := rfl
@[simp] theorem State.qs_core_fe (s : State) (f : Queues → Queues) : (s.qs f).core.fe = s.core.fe := rfl
@[simp] theorem State.qs_core_qs (s : State) (f : Queues → Queues) : (s.qs f).core.qs = f s.core.qs := rfl
@[simp] theorem State.qs_core_lsu (s : State) (f : Queues → Queues) : (s.qs f).core.lsu = s.core.lsu := rfl
@[simp] theorem State.qs_core_eng (s : State) (f : Queues → Queues) : (s.qs f).core.eng = s.core.eng := rfl
@[simp] theorem State.qs_core_mems (s : State) (f : Queues → Queues) : (s.qs f).core.mems = s.core.mems := rfl
@[simp] theorem State.qs_core_resident (s : State) (f : Queues → Queues) : (s.qs f).core.resident = s.core.resident := rfl
@[simp] theorem State.qs_core_shadow (s : State) (f : Queues → Queues) : (s.qs f).core.shadow = s.core.shadow := rfl
@[simp] theorem State.qs_core_slot (s : State) (f : Queues → Queues) : (s.qs f).core.slot = s.core.slot := rfl
@[simp] theorem State.qs_core_lhwm (s : State) (f : Queues → Queues) : (s.qs f).core.lhwm = s.core.lhwm := rfl
@[simp] theorem State.qs_core_link (s : State) (f : Queues → Queues) : (s.qs f).core.link = s.core.link := rfl
@[simp] theorem State.qs_core_circ (s : State) (f : Queues → Queues) : (s.qs f).core.circ = s.core.circ := rfl
@[simp] theorem State.qs_core_resh (s : State) (f : Queues → Queues) : (s.qs f).core.resh = s.core.resh := rfl
@[simp] theorem State.qs_core_rsLast (s : State) (f : Queues → Queues) : (s.qs f).core.rsLast = s.core.rsLast := rfl
@[simp] theorem State.qs_core_vuse (s : State) (f : Queues → Queues) : (s.qs f).core.vuse = s.core.vuse := rfl
@[simp] theorem State.qs_core_prevJob (s : State) (f : Queues → Queues) : (s.qs f).core.prevJob = s.core.prevJob := rfl
@[simp] theorem State.qs_core_planeLog (s : State) (f : Queues → Queues) : (s.qs f).core.planeLog = s.core.planeLog := rfl
@[simp] theorem State.qs_core_replayAt (s : State) (f : Queues → Queues) : (s.qs f).core.replayAt = s.core.replayAt := rfl
@[simp] theorem State.qs_mem (s : State) (f : Queues → Queues) : (s.qs f).mem = s.mem := rfl
@[simp] theorem State.qs_pkg (s : State) (f : Queues → Queues) : (s.qs f).pkg = s.pkg := rfl
@[simp] theorem State.qs_others (s : State) (f : Queues → Queues) : (s.qs f).others = s.others := rfl
@[simp] theorem State.qs_agenda (s : State) (f : Queues → Queues) : (s.qs f).agenda = s.agenda := rfl
@[simp] theorem State.qs_free (s : State) (f : Queues → Queues) : (s.qs f).free = s.free := rfl

/-! ### State.lsu -/
@[simp] theorem State.lsu_core_idx (s : State) (f : Lsu → Lsu) : (s.lsu f).core.idx = s.core.idx := rfl
@[simp] theorem State.lsu_core_regs (s : State) (f : Lsu → Lsu) : (s.lsu f).core.regs = s.core.regs := rfl
@[simp] theorem State.lsu_core_sys (s : State) (f : Lsu → Lsu) : (s.lsu f).core.sys = s.core.sys := rfl
@[simp] theorem State.lsu_core_fe (s : State) (f : Lsu → Lsu) : (s.lsu f).core.fe = s.core.fe := rfl
@[simp] theorem State.lsu_core_qs (s : State) (f : Lsu → Lsu) : (s.lsu f).core.qs = s.core.qs := rfl
@[simp] theorem State.lsu_core_lsu (s : State) (f : Lsu → Lsu) : (s.lsu f).core.lsu = f s.core.lsu := rfl
@[simp] theorem State.lsu_core_eng (s : State) (f : Lsu → Lsu) : (s.lsu f).core.eng = s.core.eng := rfl
@[simp] theorem State.lsu_core_mems (s : State) (f : Lsu → Lsu) : (s.lsu f).core.mems = s.core.mems := rfl
@[simp] theorem State.lsu_core_resident (s : State) (f : Lsu → Lsu) : (s.lsu f).core.resident = s.core.resident := rfl
@[simp] theorem State.lsu_core_shadow (s : State) (f : Lsu → Lsu) : (s.lsu f).core.shadow = s.core.shadow := rfl
@[simp] theorem State.lsu_core_slot (s : State) (f : Lsu → Lsu) : (s.lsu f).core.slot = s.core.slot := rfl
@[simp] theorem State.lsu_core_lhwm (s : State) (f : Lsu → Lsu) : (s.lsu f).core.lhwm = s.core.lhwm := rfl
@[simp] theorem State.lsu_core_link (s : State) (f : Lsu → Lsu) : (s.lsu f).core.link = s.core.link := rfl
@[simp] theorem State.lsu_core_circ (s : State) (f : Lsu → Lsu) : (s.lsu f).core.circ = s.core.circ := rfl
@[simp] theorem State.lsu_core_resh (s : State) (f : Lsu → Lsu) : (s.lsu f).core.resh = s.core.resh := rfl
@[simp] theorem State.lsu_core_rsLast (s : State) (f : Lsu → Lsu) : (s.lsu f).core.rsLast = s.core.rsLast := rfl
@[simp] theorem State.lsu_core_vuse (s : State) (f : Lsu → Lsu) : (s.lsu f).core.vuse = s.core.vuse := rfl
@[simp] theorem State.lsu_core_prevJob (s : State) (f : Lsu → Lsu) : (s.lsu f).core.prevJob = s.core.prevJob := rfl
@[simp] theorem State.lsu_core_planeLog (s : State) (f : Lsu → Lsu) : (s.lsu f).core.planeLog = s.core.planeLog := rfl
@[simp] theorem State.lsu_core_replayAt (s : State) (f : Lsu → Lsu) : (s.lsu f).core.replayAt = s.core.replayAt := rfl
@[simp] theorem State.lsu_mem (s : State) (f : Lsu → Lsu) : (s.lsu f).mem = s.mem := rfl
@[simp] theorem State.lsu_pkg (s : State) (f : Lsu → Lsu) : (s.lsu f).pkg = s.pkg := rfl
@[simp] theorem State.lsu_others (s : State) (f : Lsu → Lsu) : (s.lsu f).others = s.others := rfl
@[simp] theorem State.lsu_agenda (s : State) (f : Lsu → Lsu) : (s.lsu f).agenda = s.agenda := rfl
@[simp] theorem State.lsu_free (s : State) (f : Lsu → Lsu) : (s.lsu f).free = s.free := rfl

/-! ### State.eng -/
@[simp] theorem State.eng_core_idx (s : State) (f : Eng → Eng) : (s.eng f).core.idx = s.core.idx := rfl
@[simp] theorem State.eng_core_regs (s : State) (f : Eng → Eng) : (s.eng f).core.regs = s.core.regs := rfl
@[simp] theorem State.eng_core_sys (s : State) (f : Eng → Eng) : (s.eng f).core.sys = s.core.sys := rfl
@[simp] theorem State.eng_core_fe (s : State) (f : Eng → Eng) : (s.eng f).core.fe = s.core.fe := rfl
@[simp] theorem State.eng_core_qs (s : State) (f : Eng → Eng) : (s.eng f).core.qs = s.core.qs := rfl
@[simp] theorem State.eng_core_lsu (s : State) (f : Eng → Eng) : (s.eng f).core.lsu = s.core.lsu := rfl
@[simp] theorem State.eng_core_eng (s : State) (f : Eng → Eng) : (s.eng f).core.eng = f s.core.eng := rfl
@[simp] theorem State.eng_core_mems (s : State) (f : Eng → Eng) : (s.eng f).core.mems = s.core.mems := rfl
@[simp] theorem State.eng_core_resident (s : State) (f : Eng → Eng) : (s.eng f).core.resident = s.core.resident := rfl
@[simp] theorem State.eng_core_shadow (s : State) (f : Eng → Eng) : (s.eng f).core.shadow = s.core.shadow := rfl
@[simp] theorem State.eng_core_slot (s : State) (f : Eng → Eng) : (s.eng f).core.slot = s.core.slot := rfl
@[simp] theorem State.eng_core_lhwm (s : State) (f : Eng → Eng) : (s.eng f).core.lhwm = s.core.lhwm := rfl
@[simp] theorem State.eng_core_link (s : State) (f : Eng → Eng) : (s.eng f).core.link = s.core.link := rfl
@[simp] theorem State.eng_core_circ (s : State) (f : Eng → Eng) : (s.eng f).core.circ = s.core.circ := rfl
@[simp] theorem State.eng_core_resh (s : State) (f : Eng → Eng) : (s.eng f).core.resh = s.core.resh := rfl
@[simp] theorem State.eng_core_rsLast (s : State) (f : Eng → Eng) : (s.eng f).core.rsLast = s.core.rsLast := rfl
@[simp] theorem State.eng_core_vuse (s : State) (f : Eng → Eng) : (s.eng f).core.vuse = s.core.vuse := rfl
@[simp] theorem State.eng_core_prevJob (s : State) (f : Eng → Eng) : (s.eng f).core.prevJob = s.core.prevJob := rfl
@[simp] theorem State.eng_core_planeLog (s : State) (f : Eng → Eng) : (s.eng f).core.planeLog = s.core.planeLog := rfl
@[simp] theorem State.eng_core_replayAt (s : State) (f : Eng → Eng) : (s.eng f).core.replayAt = s.core.replayAt := rfl
@[simp] theorem State.eng_mem (s : State) (f : Eng → Eng) : (s.eng f).mem = s.mem := rfl
@[simp] theorem State.eng_pkg (s : State) (f : Eng → Eng) : (s.eng f).pkg = s.pkg := rfl
@[simp] theorem State.eng_others (s : State) (f : Eng → Eng) : (s.eng f).others = s.others := rfl
@[simp] theorem State.eng_agenda (s : State) (f : Eng → Eng) : (s.eng f).agenda = s.agenda := rfl
@[simp] theorem State.eng_free (s : State) (f : Eng → Eng) : (s.eng f).free = s.free := rfl

/-! ### State.mems -/
@[simp] theorem State.mems_core_idx (s : State) (f : Mems → Mems) : (s.mems f).core.idx = s.core.idx := rfl
@[simp] theorem State.mems_core_regs (s : State) (f : Mems → Mems) : (s.mems f).core.regs = s.core.regs := rfl
@[simp] theorem State.mems_core_sys (s : State) (f : Mems → Mems) : (s.mems f).core.sys = s.core.sys := rfl
@[simp] theorem State.mems_core_fe (s : State) (f : Mems → Mems) : (s.mems f).core.fe = s.core.fe := rfl
@[simp] theorem State.mems_core_qs (s : State) (f : Mems → Mems) : (s.mems f).core.qs = s.core.qs := rfl
@[simp] theorem State.mems_core_lsu (s : State) (f : Mems → Mems) : (s.mems f).core.lsu = s.core.lsu := rfl
@[simp] theorem State.mems_core_eng (s : State) (f : Mems → Mems) : (s.mems f).core.eng = s.core.eng := rfl
@[simp] theorem State.mems_core_mems (s : State) (f : Mems → Mems) : (s.mems f).core.mems = f s.core.mems := rfl
@[simp] theorem State.mems_core_resident (s : State) (f : Mems → Mems) : (s.mems f).core.resident = s.core.resident := rfl
@[simp] theorem State.mems_core_shadow (s : State) (f : Mems → Mems) : (s.mems f).core.shadow = s.core.shadow := rfl
@[simp] theorem State.mems_core_slot (s : State) (f : Mems → Mems) : (s.mems f).core.slot = s.core.slot := rfl
@[simp] theorem State.mems_core_lhwm (s : State) (f : Mems → Mems) : (s.mems f).core.lhwm = s.core.lhwm := rfl
@[simp] theorem State.mems_core_link (s : State) (f : Mems → Mems) : (s.mems f).core.link = s.core.link := rfl
@[simp] theorem State.mems_core_circ (s : State) (f : Mems → Mems) : (s.mems f).core.circ = s.core.circ := rfl
@[simp] theorem State.mems_core_resh (s : State) (f : Mems → Mems) : (s.mems f).core.resh = s.core.resh := rfl
@[simp] theorem State.mems_core_rsLast (s : State) (f : Mems → Mems) : (s.mems f).core.rsLast = s.core.rsLast := rfl
@[simp] theorem State.mems_core_vuse (s : State) (f : Mems → Mems) : (s.mems f).core.vuse = s.core.vuse := rfl
@[simp] theorem State.mems_core_prevJob (s : State) (f : Mems → Mems) : (s.mems f).core.prevJob = s.core.prevJob := rfl
@[simp] theorem State.mems_core_planeLog (s : State) (f : Mems → Mems) : (s.mems f).core.planeLog = s.core.planeLog := rfl
@[simp] theorem State.mems_core_replayAt (s : State) (f : Mems → Mems) : (s.mems f).core.replayAt = s.core.replayAt := rfl
@[simp] theorem State.mems_mem (s : State) (f : Mems → Mems) : (s.mems f).mem = s.mem := rfl
@[simp] theorem State.mems_pkg (s : State) (f : Mems → Mems) : (s.mems f).pkg = s.pkg := rfl
@[simp] theorem State.mems_others (s : State) (f : Mems → Mems) : (s.mems f).others = s.others := rfl
@[simp] theorem State.mems_agenda (s : State) (f : Mems → Mems) : (s.mems f).agenda = s.agenda := rfl
@[simp] theorem State.mems_free (s : State) (f : Mems → Mems) : (s.mems f).free = s.free := rfl

/-! ### State.withCore and State.pkgd -/
@[simp] theorem State.withCore_core (s : State) (c : Core) : (s.withCore c).core = c := rfl
@[simp] theorem State.withCore_mem (s : State) (c : Core) : (s.withCore c).mem = s.mem := rfl
@[simp] theorem State.withCore_pkg (s : State) (c : Core) : (s.withCore c).pkg = s.pkg := rfl
@[simp] theorem State.withCore_others (s : State) (c : Core) : (s.withCore c).others = s.others := rfl
@[simp] theorem State.withCore_agenda (s : State) (c : Core) : (s.withCore c).agenda = s.agenda := rfl
@[simp] theorem State.withCore_free (s : State) (c : Core) : (s.withCore c).free = s.free := rfl
@[simp] theorem State.pkgd_core (s : State) (f : Package → Package) : (s.pkgd f).core = s.core := rfl
@[simp] theorem State.pkgd_mem (s : State) (f : Package → Package) : (s.pkgd f).mem = s.mem := rfl
@[simp] theorem State.pkgd_pkg (s : State) (f : Package → Package) : (s.pkgd f).pkg = f s.pkg := rfl
@[simp] theorem State.pkgd_others (s : State) (f : Package → Package) : (s.pkgd f).others = s.others := rfl
@[simp] theorem State.pkgd_agenda (s : State) (f : Package → Package) : (s.pkgd f).agenda = s.agenda := rfl
@[simp] theorem State.pkgd_free (s : State) (f : Package → Package) : (s.pkgd f).free = s.free := rfl

/-! ### State.progress -/
@[simp] theorem State.progress_eq (s : State) : s.progress = s.fe fun f => { f with aStall := false, xStall := false, stall := 0 } := rfl

end Sys2Proof.Machine
end

