-- ==== Sys2Proof/Laws/Land.lean ====
section
/-! SUPPORT. What the landing of results and the taking of a trap do, said once. -/

namespace Sys2Proof.Machine

/-! ### Landing (R163) -/

theorem State.SameRest.refl (s : State) : s.SameRest s := by constructor <;> rfl
theorem State.SameRest.trans {a b c : State} (h : a.SameRest b) (k : b.SameRest c) : a.SameRest c := by
  constructor
  all_goals first
    | exact k.idx.trans h.idx | exact k.resident.trans h.resident | exact k.shadow.trans h.shadow | exact k.slot.trans h.slot
    | exact k.lhwm.trans h.lhwm | exact k.link.trans h.link | exact k.circ.trans h.circ | exact k.resh.trans h.resh
    | exact k.rsLast.trans h.rsLast | exact k.vuse.trans h.vuse | exact k.prevJob.trans h.prevJob
    | exact k.planeLog.trans h.planeLog | exact k.replayAt.trans h.replayAt | exact k.others.trans h.others
    | exact k.pkg.trans h.pkg | exact k.agenda.trans h.agenda | exact k.free.trans h.free
theorem State.SameBytes.refl (s : State) : s.SameBytes s :=
  ⟨fun _ => rfl, fun _ => rfl, fun _ => rfl, fun _ => rfl, fun _ => rfl, fun _ => rfl⟩

theorem State.Landed.refl (s : State) : s.Landed s := by constructor <;> first | rfl | (constructor <;> rfl)
theorem State.Landed.trans {a b c : State} (h : a.Landed b) (k : b.Landed c) : a.Landed c where
  g := k.g.trans h.g
  gDirty := k.gDirty.trans h.gDirty
  gReady := k.gReady.trans h.gReady
  gLat := k.gLat.trans h.gLat
  rpl := k.rpl.trans h.rpl
  sys := by rw [k.sys, h.sys]
  fe := by rw [k.fe, h.fe]
  qs := by rw [k.qs, h.qs]
  lsu := k.lsu.trans h.lsu
  eng := k.eng.trans h.eng
  mems := by rw [k.mems, h.mems]
  mem := k.mem.trans h.mem
  rest := h.rest.trans k.rest

theorem landed_sys (s : State) (x : Word) : s.Landed (s.sys fun y => { y with fpFlags := x }) := by constructor <;> first | rfl | (constructor <;> rfl)

theorem landed_raise (s : State) (f : BitVec 5) : s.Landed (s.raise f) := by
  unfold State.raise; split
  · exact .refl s
  · exact landed_sys s _

theorem landed_pushTok (s : State) (h : Fin 16) (t : Option Nat) : s.Landed (s.pushTok h t) := by constructor <;> first | rfl | (constructor <;> rfl)

theorem landed_foldl {α : Type} (f : State → α → State) (h : ∀ (s : State) (x : α), s.Landed (f s x)) (l : List α) (s : State) :
    s.Landed (l.foldl f s) := by
  induction l generalizing s with
  | nil => exact .refl s
  | cons x l ih => exact (h s x).trans (ih _)

theorem State.Keeps.refl (s : State) : s.Keeps s := ⟨⟨rfl, rfl, rfl, rfl, rfl⟩, rfl, .refl s, rfl, rfl, rfl, .refl s⟩

/-- A change of the front end leaves the rest. -/
theorem State.Keeps.fe {s t : State} (h : s.Keeps t) (f : Front → Front) : s.Keeps (t.fe f) :=
  ⟨⟨h.x.scalars, h.x.vectors, h.x.preds, h.x.fly, h.x.rpl⟩, h.sys,
    ⟨h.bytes.mem, h.bytes.sp, h.bytes.loft, h.bytes.cup, h.bytes.acc, h.bytes.chain⟩, h.qs, h.lsu, h.eng,
    ⟨h.rest.idx, h.rest.resident, h.rest.shadow, h.rest.slot, h.rest.lhwm, h.rest.link, h.rest.circ, h.rest.resh, h.rest.rsLast,
      h.rest.vuse, h.rest.prevJob, h.rest.planeLog, h.rest.replayAt, h.rest.others, h.rest.pkg, h.rest.agenda, h.rest.free⟩⟩

theorem State.WroteNone.fe {s t : State} (h : s.WroteNone t) (f : Front → Front) : s.WroteNone (t.fe f) := ⟨h.regs, h.keeps.fe f⟩

theorem State.WroteNone.refl (s : State) : s.WroteNone s := ⟨rfl, .refl s⟩

theorem State.WroteG.fe {s t : State} {d : GReg} {x : Word} {n : Nat} (h : s.WroteG d x n t) (f : Front → Front) :
    s.WroteG d x n (t.fe f) :=
  ⟨h.value, h.other, h.dirty, h.ready, h.keeps.fe f⟩

/-- One result that lands changes what R163 lets it change. -/
theorem landed_landOne (s : State) (r : Fly) : s.Landed (s.landOne r) := by
  unfold State.landOne
  refine (landed_raise s r.fl).trans (.trans ?_ (landed_foldl _ (fun s h => landed_pushTok s h none) r.pushes _))
  generalize s.raise r.fl = s
  have triv (t : State) (h : t = s) : s.Landed t := h ▸ .refl s
  split
  · constructor <;> first | rfl | (constructor <;> rfl)
  · constructor <;> first | rfl | (constructor <;> rfl)
  · split
    · exact .refl s
    · constructor <;> first | rfl | (constructor <;> rfl)
  · constructor <;> first | rfl | (constructor <;> rfl)
  · constructor <;> first | rfl | (constructor <;> rfl)
  · split
    · constructor <;> first | rfl | (constructor <;> rfl)
    · exact .refl s
  · exact .refl s

theorem landed_landDue (s : State) : s.Landed s.landDue :=
  State.Landed.trans (b := s.regs fun e => { e with fly := e.fly.filter fun r => s.core.fe.xnow < r.due })
    (by constructor <;> first | rfl | (constructor <;> rfl)) (landed_foldl _ landed_landOne _ _)

theorem landed_openX (s : State) : s.Landed s.openX :=
  State.Landed.trans (b := s.fe fun f => { f with xnow := f.xnow + 1, xdone := false, xowed := false })
    (by constructor <;> first | rfl | (constructor <;> rfl)) (landed_landDue _)

theorem landed_nextX (s : State) : s.Landed s.nextX := by
  unfold State.nextX
  refine State.Landed.trans ?_ (landed_openX _)
  split
  · exact .refl s
  · constructor <;> first | rfl | (constructor <;> rfl)

theorem landed_startX (s : State) : s.Landed s.startX := by
  unfold State.startX; split
  · exact landed_nextX s
  · exact .refl s

/-! ### Taking a trap (R126) -/

theorem Cause.code_lt (c : Cause) : c.code < 64 := by cases c <;> decide

theorem causeWord_fields (pipe : Nat) (h : pipe < 8) (m p l : Bool) (c : Cause) :
    wfld (causeWord pipe m p l c.code) 0 8 = c.code ∧ wfld (causeWord pipe m p l c.code) 40 3 = pipe := by
  have := c.code_lt
  unfold wfld causeWord fld
  simp only [BitVec.toNat_ofNat, Bool.bit]
  cases m <;> cases p <;> cases l <;> simp <;> omega

/-- The state that a trap of the A-pipe or the sequencer finds: results due at the next X-cycle have landed. -/
theorem takeTrap_took {s : State} (t : TrapRec) (hp : t.pipe < 8) (hu : s.core.fe.handler = false) (hv : wbit s.core.sys.trapVec 0 = true) :
    s.TookTrap t.pipe t.cause t.pc (s.takeTrap t) := by
  unfold State.takeTrap
  extract_lets s0 f _ stk s1
  have h0 : s.Landed s0 := by
    show s.Landed (if _ then _ else _)
    split
    · exact landed_openX s
    · exact .refl s
  have hu0 : s0.core.fe.handler = false := by rw [h0.fe]; exact hu
  have hv0 : s0.core.sys.trapVec = s.core.sys.trapVec := by rw [h0.sys]
  have hm0 : s0.mem = s.mem := h0.mem
  have hsp : s0.core.mems.sp = s.core.mems.sp := by rw [h0.mems]
  have hg0 : s0.core.regs.g = s.core.regs.g := h0.g
  rw [if_neg (by rw [show f.handler = s0.core.fe.handler from rfl, hu0]; simp)]
  rw [if_neg (by rw [show s1.core.sys.trapVec = s0.core.sys.trapVec from rfl, hv0, hv]; simp)]
  have hc := causeWord_fields t.pipe hp t.upc.isSome t.paired s0.core.fe.kernel.isSome t.cause
  refine ⟨rfl, ?_, hc.1, hc.2, rfl, rfl, rfl, ?_, ?_, ?_⟩
  · show s0.core.sys.trapVec &&& ~~~ 7 = _
    rw [hv0]
  · exact hg0
  · intro a; show s0.mem.read a = _; rw [hm0]
  · intro a; show s0.core.mems.sp.read a = _; rw [hsp]

/-- What takeTrap finds of a state that differs from s in the front end's queues and the counter of free values. -/
theorem aTrap_took {s : State} (h : s.CanTrap) (c : Cause) (info : Word) :
    ∃ t, s.aTrap c info = .next t ∧ s.TookTrap 1 c s.core.fe.cur.pc t := by
  refine ⟨_, rfl, ?_⟩
  have := takeTrap_took (s := s.fe fun f => { f with aq := s.core.fe.cur :: f.aq })
    ⟨1, c, info, s.core.fe.cur.pc, (Front.xPc? s.core.fe).getD s.core.fe.cur.pc, s.core.fe.cur.upc, s.core.fe.cur.stk,
      s.core.fe.cur.paired, 0, [], none⟩ (by decide : 1 < 8) h.user h.vec
  exact ⟨this.mode, this.fetch, this.code, this.pipe, this.pc, this.aq, this.xq, this.regs, this.mem, this.sp⟩

theorem aTrapFree_took {s : State} (h : s.CanTrap) (c : Cause) :
    ∃ t, s.aTrapFree c = .next t ∧ s.TookTrap 1 c s.core.fe.cur.pc t := by
  obtain ⟨t, h1, h2⟩ := aTrap_took (s := s.fresh.2) ⟨h.user, h.vec⟩ c s.fresh.1
  exact ⟨t, h1, ⟨h2.mode, h2.fetch, h2.code, h2.pipe, h2.pc, h2.aq, h2.xq, h2.regs, h2.mem, h2.sp⟩⟩

end Sys2Proof.Machine
end

