-- ==== Sys2Proof/Laws/Memory.lean ====
section
/-! SUPPORT. Byte memories: every operation keeps the canonical form, and what a read returns after a write. -/

namespace Sys2Proof.Machine

/-! ### The canonical form, as an order and a condition on the entries -/

theorem wfFrom_iff (lo : Nat) (m : Memory) :
    wfFrom lo m = true ↔ m.Pairwise (fun c d => c.1 < d.1) ∧ ∀ c ∈ m, lo ≤ c.1 ∧ c.2 ≠ memDefault := by
  induction m generalizing lo with
  | nil => simp [wfFrom]
  | cons c m ih =>
    simp only [wfFrom, Bool.and_eq_true, decide_eq_true_eq, bne_iff_ne, ih, List.pairwise_cons, List.mem_cons,
      forall_eq_or_imp]
    constructor
    · rintro ⟨⟨hlo, hd⟩, hp, hall⟩
      exact ⟨⟨fun d hd' => (hall d hd').1, hp⟩, ⟨hlo, hd⟩, fun d hd' => ⟨by have := (hall d hd').1; omega, (hall d hd').2⟩⟩
    · rintro ⟨⟨hlt, hp⟩, ⟨hlo, hd⟩, hall⟩
      exact ⟨⟨hlo, hd⟩, hp, fun d hd' => ⟨hlt d hd', (hall d hd').2⟩⟩

theorem Memory.wf_iff (m : Memory) :
    m.wf = true ↔ m.Pairwise (fun c d => c.1 < d.1) ∧ ∀ c ∈ m, c.2 ≠ memDefault := by
  simp [Memory.wf, wfFrom_iff]

theorem Memory.wf_nil : Memory.wf [] = true := rfl

theorem Memory.wf_filter {m : Memory} (h : m.wf = true) (f : Host.Cell → Bool) : Memory.wf (m.filter f) = true := by
  rw [Memory.wf_iff] at h ⊢
  exact ⟨h.1.filter f, fun c hc => h.2 c (List.mem_of_mem_filter hc)⟩

/-- Two canonical pieces, every address of the first below every one of the second. -/
theorem Memory.wf_append {m n : Memory} (hm : m.wf = true) (hn : n.wf = true) (h : ∀ c ∈ m, ∀ d ∈ n, c.1 < d.1) :
    Memory.wf (m ++ n) = true := by
  rw [Memory.wf_iff] at hm hn ⊢
  exact ⟨List.pairwise_append.2 ⟨hm.1, hn.1, h⟩, fun c hc => (List.mem_append.1 hc).elim (hm.2 c) (hn.2 c)⟩

theorem mem_cellsFrom {a : Nat} {bs : List Byte} {c : Host.Cell} (h : c ∈ cellsFrom a bs) :
    a ≤ c.1 ∧ c.1 < a + bs.length := by
  induction bs generalizing a with
  | nil => simp [cellsFrom] at h
  | cons b bs ih =>
    simp only [cellsFrom] at h
    split at h
    · have := ih h; simp only [List.length_cons]; omega
    · rcases List.mem_cons.1 h with rfl | h
      · simp
      · have := ih h; simp only [List.length_cons]; omega

theorem cellsFrom_wf (a : Nat) (bs : List Byte) : Memory.wf (cellsFrom a bs) = true := by
  induction bs generalizing a with
  | nil => rfl
  | cons b bs ih =>
    simp only [cellsFrom]
    split
    · exact ih _
    · rw [Memory.wf_iff]
      have h := (Memory.wf_iff _).1 (ih (a + 1))
      refine ⟨List.pairwise_cons.2 ⟨fun d hd => ?_, h.1⟩, ?_⟩
      · have := (mem_cellsFrom hd).1; simp only; omega
      · intro c hc
        rcases List.mem_cons.1 hc with rfl | hc
        · assumption
        · exact h.2 c hc

theorem Memory.wf_write {m : Memory} (h : m.wf = true) (a : Nat) (bs : List Byte) : (m.write a bs).wf = true := by
  unfold Memory.write
  refine Memory.wf_append (Memory.wf_append (Memory.wf_filter h _) (cellsFrom_wf a bs) ?_) (Memory.wf_filter h _) ?_
  · intro c hc d hd
    have := (List.mem_filter.1 hc).2; have := (mem_cellsFrom hd).1
    simp only [decide_eq_true_eq] at *; omega
  · intro c hc d hd
    have h2 := (List.mem_filter.1 hd).2
    rcases List.mem_append.1 hc with hc | hc
    · have h1 := (List.mem_filter.1 hc).2; simp only [decide_eq_true_eq] at *; omega
    · have h1 := (mem_cellsFrom hc).2; simp only [decide_eq_true_eq] at *; omega

theorem Memory.wf_putLe {m : Memory} (h : m.wf = true) (a n x : Nat) : (m.putLe a n x).wf = true := Memory.wf_write h _ _

theorem Memory.wf_clear {m : Memory} (h : m.wf = true) (a n : Nat) : (m.clear a n).wf = true := Memory.wf_filter h _

/-- Bytes moved by one distance stay in canonical form. -/
theorem wf_shift {m : Memory} (h : m.wf = true) (a b : Nat) (ha : ∀ c ∈ m, a ≤ c.1) :
    Memory.wf (m.map fun c => (c.1 - a + b, c.2)) = true := by
  rw [Memory.wf_iff] at h ⊢
  refine ⟨?_, ?_⟩
  · rw [List.pairwise_map]
    refine h.1.imp_of_mem fun hc hd hlt => ?_
    have := ha _ hc; have := ha _ hd; simp only; omega
  · intro c hc
    obtain ⟨d, hd, rfl⟩ := List.mem_map.1 hc
    exact h.2 d hd

theorem Memory.wf_copyIn {m src : Memory} (hm : m.wf = true) (hs : src.wf = true) (a n b : Nat) :
    (m.copyIn src a n b).wf = true := by
  have hin : ∀ c ∈ src.filter (fun c => decide (a ≤ c.1) && decide (c.1 < a + n)), a ≤ c.1 ∧ c.1 < a + n := by
    intro c hc; have := (List.mem_filter.1 hc).2; simpa using this
  unfold Memory.copyIn
  refine Memory.wf_append (Memory.wf_append (Memory.wf_filter hm _)
    (wf_shift (Memory.wf_filter hs _) a b fun c hc => (hin c hc).1) ?_) (Memory.wf_filter hm _) ?_
  · intro c hc d hd
    have h1 := (List.mem_filter.1 hc).2
    obtain ⟨e, he, rfl⟩ := List.mem_map.1 hd
    simp only [decide_eq_true_eq] at *; omega
  · intro c hc d hd
    have h2 := (List.mem_filter.1 hd).2
    rcases List.mem_append.1 hc with hc | hc
    · have h1 := (List.mem_filter.1 hc).2; simp only [decide_eq_true_eq] at *; omega
    · obtain ⟨e, he, rfl⟩ := List.mem_map.1 hc
      have := hin e he; simp only [decide_eq_true_eq] at *; omega

theorem putKeys_wf {m : Memory} (h : m.wf = true) (ks : List Nat) (bs : List Byte) : (putKeys m ks bs).wf = true := by
  induction ks generalizing m bs with
  | nil => simpa [putKeys] using h
  | cons k ks ih =>
    cases bs with
    | nil => simpa [putKeys] using h
    | cons b bs => exact ih (Memory.wf_write h k [b]) bs

/-- A fold of operations that keep the form keeps it. -/
theorem foldl_wf {α : Type} (f : Memory → α → Memory) (hf : ∀ m x, m.wf = true → (f m x).wf = true) (l : List α)
    {m : Memory} (h : m.wf = true) : (l.foldl f m).wf = true := by
  induction l generalizing m with
  | nil => exact h
  | cons x l ih => exact ih (hf m x h)

/-! ### Reads -/

theorem find_append_of_not {m n : Memory} {x : Nat} (h : ∀ c ∈ m, c.1 ≠ x) :
    (m ++ n).find? (fun c => c.1 == x) = n.find? fun c => c.1 == x := by
  have hm : m.find? (fun c => c.1 == x) = none := List.find?_eq_none.2 fun c hc => by simpa using h c hc
  rw [List.find?_append, hm]; rfl

theorem find_append_of_not_right {m n : Memory} {x : Nat} (h : ∀ c ∈ n, c.1 ≠ x) :
    (m ++ n).find? (fun c => c.1 == x) = m.find? fun c => c.1 == x := by
  have hn : n.find? (fun c => c.1 == x) = none := List.find?_eq_none.2 fun c hc => by simpa using h c hc
  rw [List.find?_append, hn]; simp

theorem find_filter_of {m : Memory} {x : Nat} (p : Host.Cell → Bool) (h : ∀ c ∈ m, c.1 = x → p c = true) :
    (m.filter p).find? (fun c => c.1 == x) = m.find? fun c => c.1 == x := by
  induction m with
  | nil => rfl
  | cons c m ih =>
    have ih := ih fun d hd => h d (List.mem_cons_of_mem _ hd)
    by_cases hc : c.1 = x
    · have hp := h c (List.mem_cons_self ..) hc
      simp [List.filter_cons_of_pos hp, hc]
    · by_cases hp : p c = true
      · simp [List.filter_cons_of_pos hp, hc, ih]
      · simp [List.filter_cons_of_neg hp, hc, ih]

theorem read_cellsFrom (a : Nat) (bs : List Byte) (i : Nat) (hi : i < bs.length) :
    Memory.read (cellsFrom a bs) (a + i) = bs[i] := by
  induction bs generalizing a i with
  | nil => simp at hi
  | cons b bs ih =>
    have hne : ∀ c ∈ cellsFrom (a + 1) bs, c.1 ≠ a := fun c hc => by have := (mem_cellsFrom hc).1; omega
    cases i with
    | zero =>
      simp only [cellsFrom, Nat.add_zero, List.getElem_cons_zero]
      split
      · next hb =>
        have : (cellsFrom (a + 1) bs).find? (fun c => c.1 == a) = none := List.find?_eq_none.2 fun c hc => by simpa using hne c hc
        simp [Memory.read, this, hb]
      · simp [Memory.read]
    | succ i =>
      have hi' : i < bs.length := by simpa using hi
      have := ih (a + 1) i hi'
      have he : a + (i + 1) = a + 1 + i := by omega
      simp only [cellsFrom, List.getElem_cons_succ, he]
      split
      · exact this
      · have : ¬ a = a + 1 + i := by omega
        simpa [Memory.read, this] using ih (a + 1) i hi'

theorem Memory.read_write_of_mem (m : Memory) (a : Nat) (bs : List Byte) (i : Nat) (hi : i < bs.length) :
    (m.write a bs).read (a + i) = bs[i] := by
  have h1 : ∀ c ∈ m.filter (fun c => decide (c.1 < a)), c.1 ≠ a + i := fun c hc => by
    have := (List.mem_filter.1 hc).2; simp only [decide_eq_true_eq] at this; omega
  have h2 : ∀ c ∈ m.filter (fun c => decide (a + bs.length ≤ c.1)), c.1 ≠ a + i := fun c hc => by
    have := (List.mem_filter.1 hc).2; simp only [decide_eq_true_eq] at this; omega
  rw [← read_cellsFrom a bs i hi]
  unfold Memory.write Memory.read
  rw [find_append_of_not_right h2, find_append_of_not h1]

theorem Memory.read_write_of_not (m : Memory) (a : Nat) (bs : List Byte) (x : Nat) (hx : x < a ∨ a + bs.length ≤ x) :
    (m.write a bs).read x = m.read x := by
  have hc : ∀ c ∈ cellsFrom a bs, c.1 ≠ x := fun c hc => by have := mem_cellsFrom hc; omega
  unfold Memory.write Memory.read
  rcases hx with hx | hx
  · have h2 : ∀ c ∈ m.filter (fun c => decide (a + bs.length ≤ c.1)), c.1 ≠ x := fun c hc => by
      have := (List.mem_filter.1 hc).2; simp only [decide_eq_true_eq] at this; omega
    rw [find_append_of_not_right h2, find_append_of_not_right hc, find_filter_of]
    intro c _ he; simpa [he] using hx
  · have h1 : ∀ c ∈ m.filter (fun c => decide (c.1 < a)) ++ cellsFrom a bs, c.1 ≠ x := fun c hc' => by
      rcases List.mem_append.1 hc' with h | h
      · have := (List.mem_filter.1 h).2; simp only [decide_eq_true_eq] at this; omega
      · exact hc c h
    rw [find_append_of_not h1, find_filter_of]
    intro c _ he; simpa [he] using hx

theorem Memory.read_cons (c : Host.Cell) (m : Memory) (a : Nat) :
    Memory.read (c :: m) a = if c.1 = a then c.2 else Memory.read m a := by
  unfold Memory.read
  rw [List.find?_cons]
  by_cases h : c.1 = a
  · simp [h]
  · have : (c.1 == a) = false := by simpa using h
    simp only [this, if_neg h]

theorem Memory.read_of_lt {m : Memory} {a : Nat} (h : ∀ c ∈ m, a < c.1) : Memory.read m a = memDefault := by
  unfold Memory.read
  rw [List.find?_eq_none.mpr]
  · rfl
  · intro c hc; have := h c hc; simp; omega

theorem takeBytes_eq (n a : Nat) (m : Memory) (hm : m.Pairwise (fun c d => c.1 < d.1)) (ha : ∀ c ∈ m, a ≤ c.1) :
    takeBytes n a m = (List.range n).map fun i => Memory.read m (a + i) := by
  induction n generalizing a m with
  | zero => simp [takeBytes]
  | succ n ih =>
    rw [List.range_succ_eq_map, List.map_cons, List.map_map]
    cases m with
    | nil =>
      rw [takeBytes, ih (a + 1) [] hm (by simp)]
      simp only [Memory.read, List.find?_nil, Option.map_none, Option.getD_none, List.cons.injEq, true_and]
      rfl
    | cons c m =>
      have hp := List.pairwise_cons.mp hm
      rw [takeBytes]
      by_cases h : c.1 = a
      · rw [if_pos h, ih (a + 1) m hp.2 (fun d hd => by have := hp.1 d hd; omega)]
        simp only [Nat.add_zero, Memory.read_cons, h, if_true, List.cons.injEq, true_and]
        apply List.map_congr_left
        intro i _
        have : a ≠ a + Nat.succ i := by omega
        simp only [Function.comp_apply, this, if_false]
        congr 1; omega
      · have hlt : a < c.1 := by have := ha c (by simp); omega
        have hall : ∀ d ∈ c :: m, a < d.1 := by
          intro d hd
          rcases List.mem_cons.mp hd with rfl | hd
          · exact hlt
          · have := hp.1 d hd; omega
        rw [if_neg h, ih (a + 1) (c :: m) hm (fun d hd => hall d hd)]
        simp only [Nat.add_zero, Memory.read_of_lt hall, List.cons.injEq, true_and]
        apply List.map_congr_left
        intro i _
        simp only [Function.comp_apply]
        congr 1; omega

/-- n bytes of a memory in canonical form, by its reading of one byte. -/
theorem Memory.bytes_eq {m : Memory} (hm : m.wf = true) (a n : Nat) : m.bytes a n = (List.range n).map fun i => m.read (a + i) := by
  have hp := (Memory.wf_iff m).mp hm
  unfold Memory.bytes
  rw [takeBytes_eq]
  · apply List.map_congr_left
    intro i hi
    have hi := List.mem_range.mp hi
    unfold Memory.read
    congr 2
    rw [List.find?_filter]
    congr 1
    funext c
    by_cases h : c.1 = a + i
    · simp [h]; omega
    · simp [h]
  · exact List.Pairwise.sublist List.filter_sublist hp.1
  · intro c hc
    have := List.of_mem_filter hc
    simp at this
    exact this.1

theorem read_putKeys_of_not (m : Memory) (ks : List Nat) (bs : List Byte) (x : Nat) (hx : x ∉ ks) :
    (putKeys m ks bs).read x = m.read x := by
  induction ks generalizing m bs with
  | nil => simp [putKeys]
  | cons k ks ih =>
    cases bs with
    | nil => simp [putKeys]
    | cons b bs =>
      rw [putKeys, ih _ _ (fun h => hx (List.mem_cons_of_mem _ h)), Memory.read_write_of_not]
      have : x ≠ k := fun h => hx (by simp [h])
      simp only [List.length_cons, List.length_nil]
      omega

theorem read_putKeys_of_mem (m : Memory) (ks : List Nat) (bs : List Byte) (hd : ks.Nodup) (i : Nat) (hi : i < ks.length)
    (hb : i < bs.length) : (putKeys m ks bs).read ks[i] = bs[i] := by
  induction ks generalizing m bs i with
  | nil => simp at hi
  | cons k ks ih =>
    cases bs with
    | nil => simp at hb
    | cons b bs =>
      rw [putKeys]
      obtain ⟨hk, hd⟩ := List.nodup_cons.mp hd
      cases i with
      | zero =>
        rw [List.getElem_cons_zero, List.getElem_cons_zero, read_putKeys_of_not _ _ _ _ hk]
        have := Memory.read_write_of_mem m k [b] 0 (by simp)
        simpa using this
      | succ i =>
        simp only [List.getElem_cons_succ]
        exact ih _ _ hd i (by simpa using hi) (by simpa using hb)

@[simp] theorem Memory.read_nil (a : Nat) : Memory.read [] a = memDefault := rfl

end Sys2Proof.Machine
end

