-- ==== Sys2Proof/Laws/Ops.lean ====
section
/-! SUPPORT. What the shared operations do, said once: the gate of the A-pipe, and the writing of a register. -/

namespace Sys2Proof.Machine

/-! ### The gate of the A-pipe -/

theorem firstGate_go_iff (l : List Gate) : firstGate l = .go ↔ ∀ g ∈ l, g = .go := by
  induction l with
  | nil => simp [firstGate]
  | cons g l ih => cases g <;> simp [firstGate, ih]

theorem State.aGate_of_canIssue {s : State} {rs ws : List GReg} (h : s.CanIssue rs ws) : s.aGate rs ws = .go := by
  rw [State.aGate, firstGate_go_iff]
  intro g hg
  simp only [List.cons_append, List.mem_cons, List.mem_append, List.mem_map, List.not_mem_nil, or_false] at hg
  obtain rfl | (⟨r, hr, rfl⟩ | ⟨r, hr, rfl⟩) | rfl := hg
  · unfold State.engGate
    cases hh : s.core.fe.handler with
    | true => simp
    | false =>
      obtain ⟨h1, h2⟩ := h.engines hh
      have h3 : ((s.core.eng.q[(3 : Fin 5)] ++ s.core.eng.q[(4 : Fin 5)]).any fun c => holdsA c.instr && c.st != .done) = false := by
        rw [List.any_eq_false]
        intro c hc
        cases hA : holdsA c.instr with
        | false => simp
        | true => simp [h2 c hc hA]
      simp only [Nat.not_lt.mpr h1, h3, Bool.false_eq_true, if_false]
  · obtain ⟨h1, h2⟩ := h.reads r hr
    simp only [State.regGate, h1]
    obtain rfl | h2 := h2
    · simp
    · have h3 : s.core.regs.gReady[r.val] ≤ s.core.fe.cycle := h2.1
      have h4 : s.core.regs.gLat[r.val] ≤ s.core.fe.cycle := h2.2
      simp [Nat.not_lt.mpr h3, Nat.not_lt.mpr h4]
  · obtain ⟨h1, h2⟩ := h.writes r hr
    simp only [State.destGate, h1]
    obtain rfl | h2 := h2
    · simp
    · have h4 : s.core.regs.gLat[r.val] ≤ s.core.fe.cycle := h2
      simp [Nat.not_lt.mpr h4]
  · unfold State.stampGate
    cases hs : s.core.fe.cur.stamp with
    | none => rfl
    | some t =>
      cases hst : s.strict with
      | false => simp
      | true =>
        have := h.stamp t hs hst
        have h0 : (t.toNat + 2 ^ 32 - wfld s.core.sys.frame 0 32) % 2 ^ 32 = 0 := by
          subst this
          simp only [BitVec.toNat_setWidth, wfld, fld]
          omega
        simp only [h0, if_true]

theorem State.aIssue_of_canIssue {s : State} {rs ws : List GReg} (h : s.CanIssue rs ws) (k : State → Out) : s.aIssue rs ws k = k s := by
  simp [State.aIssue, aGate_of_canIssue h]

/-- Reading g0 asks for nothing. -/
theorem State.CanIssue.read0 {s : State} {rs ws : List GReg} (h : s.CanIssue rs ws) : s.CanIssue (0 :: rs) ws :=
  ⟨by intro r hr
      rcases List.mem_cons.mp hr with rfl | hr
      · exact ⟨rfl, .inl rfl⟩
      · exact h.reads r hr, h.writes, h.stamp, h.engines⟩

/-! ### Writing a general register -/

theorem Vector.getElem_set_fin {α : Type} {n : Nat} (v : Vector α n) (i j : Fin n) (x : α) :
    (v.set i.val x)[j] = if j = i then x else v[j] := by
  simp only [Fin.getElem_fin, Vector.getElem_set, Fin.ext_iff, eq_comm]

theorem State.g_setG (s : State) (d r : GReg) (x : Word) : (s.setG d x).g r = if r = d ∧ d ≠ 0 then x else s.g r := by
  unfold State.g State.setG
  by_cases hd : d = 0
  · simp [hd]
  · rw [if_neg hd]
    by_cases hr : r = 0
    · rw [if_pos hr, if_pos hr, if_neg (fun h => hd (h.1.symm.trans hr))]
    · rw [if_neg hr, if_neg hr]
      show (s.core.regs.g.set d.val x)[r] = _
      rw [Vector.getElem_set_fin]
      simp [hd]

/-- A write of g[d] changes nothing else. -/
theorem State.setLate_wrote (s : State) (d : GReg) (x : Word) (n : Nat) : s.WroteG d x n (s.setLate d x n) := by
  have hg (r : GReg) : (s.setLate d x n).g r = (s.setG d x).g r := rfl
  refine ⟨?_, ?_, ?_, ?_, ?_⟩
  · rw [hg, State.g_setG]
    by_cases hd : d = 0 <;> simp [hd, State.g]
  · intro r hr
    rw [hg, State.g_setG, if_neg (fun h => hr (by simp [h.1]))]
  · show (s.setG d x).core.regs.gDirty = _
    unfold State.setG; split <;> rfl
  · show ((s.setG d x).core.regs.gLat.set d.val (s.core.fe.cycle + n))[d] = _
    simp
  · unfold State.setLate State.setG; split
    all_goals exact ⟨⟨rfl, rfl, rfl, rfl, rfl⟩, rfl, ⟨fun _ => rfl, fun _ => rfl, fun _ => rfl, fun _ => rfl, fun _ => rfl, fun _ => rfl⟩, rfl, rfl, rfl, (by constructor <;> rfl)⟩

@[simp] theorem State.setLate_core_fe (s : State) (d : GReg) (x : Word) (n : Nat) : (s.setLate d x n).core.fe = s.core.fe := by
  unfold State.setLate State.setG; split <;> rfl

/-- A write of g[d] and a change of the front end that leaves the cycle as it is go in either order. -/
theorem State.setLate_fe (s : State) (f : Front → Front) (hf : (f s.core.fe).cycle = s.core.fe.cycle) (d : GReg) (x : Word) (n : Nat) :
    (s.fe f).setLate d x n = (s.setLate d x n).fe f := by
  unfold State.setLate State.setG
  simp only [State.fe_core_fe, hf]
  split <;> rfl

/-- An instruction that writes g[d] and completes at issue. -/
theorem done_setLate (s : State) (d : GReg) (x : Word) (n : Nat) :
    ∃ t, done (s.setLate d x n) = .next t ∧ s.WroteG d x n t ∧ s.IssuedA t :=
  ⟨_, rfl, ((s.setLate_wrote d x n).fe _).fe _, by simp [State.IssuedA, State.progress]⟩

/-- An instruction that writes nothing and completes at issue. -/
theorem done_self (s : State) : ∃ t, done s = .next t ∧ s.WroteNone t ∧ s.IssuedA t :=
  ⟨_, rfl, ((State.WroteNone.refl s).fe _).fe _, rfl⟩

/-- A jump. -/
theorem done_redirect (s : State) (p : Word) (n : Nat) : ∃ t, done (s.redirect p n) = .next t ∧ s.WroteNone t ∧ s.Jumped p n t :=
  ⟨_, rfl, (((State.WroteNone.refl s).fe _).fe _).fe _, rfl⟩

end Sys2Proof.Machine
end

