-- ==== Sys2Proof/Laws/Access.lean ====
section
/-! SUPPORT. What the accesses of the A-pipe do, said once: the window and the translation, a read that begins, and what each may
change beside its own list. -/

namespace Sys2Proof.Machine

theorem State.Accessed.refl (s : State) (spc : Space) : s.Accessed spc s :=
  ⟨rfl, rfl, rfl, rfl, rfl, fun _ => rfl, fun _ => rfl, fun _ => rfl, fun _ => rfl, fun _ => ⟨rfl, rfl, fun _ => rfl⟩,
    fun _ _ => ⟨rfl, rfl⟩, rfl, rfl, (by repeat' constructor)⟩

/-- What does not change the tables of errors and the .HS counts leaves a quiet state quiet. -/
theorem State.Accessed.toQuiet {s t : State} {spc : Space} (h : s.Accessed spc t) (q : s.Quiet) : t.Quiet := by
  obtain ⟨hp, -, -⟩ := h.quiet q
  exact ⟨by rw [hp]; exact q.poison, by rw [hp]; exact q.weak, by rw [hp]; exact q.thr⟩

theorem State.Accessed.trans {a b c : State} {spc : Space} (h : a.Accessed spc b) (k : b.Accessed spc c) : a.Accessed spc c where
  regs := k.regs.trans h.regs
  sys := k.sys.trans h.sys
  fe := by rw [k.fe, h.fe]
  lsu := by rw [k.lsu, h.lsu]
  eng := k.eng.trans h.eng
  loft x := (k.loft x).trans (h.loft x)
  cup x := (k.cup x).trans (h.cup x)
  acc x := (k.acc x).trans (h.acc x)
  chain x := (k.chain x).trans (h.chain x)
  quiet q := by
    obtain ⟨h1, h2, h3⟩ := h.quiet q
    obtain ⟨k1, k2, k3⟩ := k.quiet (h.toQuiet q)
    exact ⟨by rw [k1, h1], k2.trans h2, fun x => (k3 x).trans (h3 x)⟩
  unsent q hs := by
    obtain ⟨h1, h2⟩ := h.unsent q hs
    obtain ⟨k1, k2⟩ := k.unsent (h.toQuiet q) hs
    exact ⟨k1.trans h1, k2.trans h2⟩
  others := k.others.trans h.others
  agenda := k.agenda.trans h.agenda
  core := by
    obtain ⟨a1, a2, a3, a4, a5, a6, a7, a8, a9, a10, a11, a12⟩ := h.core
    obtain ⟨b1, b2, b3, b4, b5, b6, b7, b8, b9, b10, b11, b12⟩ := k.core
    exact ⟨b1.trans a1, b2.trans a2, b3.trans a3, b4.trans a4, b5.trans a5, b6.trans a6, b7.trans a7, b8.trans a8, b9.trans a9,
      b10.trans a10, b11.trans a11, b12.trans a12⟩

/-! ### The .HS counts (R91) -/

/-- What leaves everything but the package's tables and its memory. -/
structure State.OnlyPkg (s t : State) : Prop where
  core : t.core = s.core
  others : t.others = s.others
  agenda : t.agenda = s.agenda
  free : t.free = s.free
  counters : t.pkg.counters = s.pkg.counters
  parts : t.pkg.parts = s.pkg.parts
  jobs : t.pkg.jobs = s.pkg.jobs
  poison : t.pkg.poison = s.pkg.poison
  weak : t.pkg.weak = s.pkg.weak

theorem onlyPkg_note (s : State) (r : Nat) (b : Bool) : s.OnlyPkg (s.note r b) := by
  unfold State.note State.pushNote
  dsimp only
  repeat' split
  all_goals exact ⟨rfl, rfl, rfl, rfl, rfl, rfl, rfl, rfl, rfl⟩

theorem State.OnlyPkg.trans {a b c : State} (h : a.OnlyPkg b) (k : b.OnlyPkg c) : a.OnlyPkg c :=
  ⟨k.core.trans h.core, k.others.trans h.others, k.agenda.trans h.agenda, k.free.trans h.free, k.counters.trans h.counters,
    k.parts.trans h.parts, k.jobs.trans h.jobs, k.poison.trans h.poison, k.weak.trans h.weak⟩

theorem onlyPkg_countHs (s : State) (va : Nat) : s.OnlyPkg (s.countHs va) := by
  unfold State.countHs
  extract_lets thr tlb
  split
  · split
    · exact ⟨rfl, rfl, rfl, rfl, rfl, rfl, rfl, rfl, rfl⟩
    · extract_lets n set put
      split
      · exact State.OnlyPkg.trans (b := put 0 s) ⟨rfl, rfl, rfl, rfl, rfl, rfl, rfl, rfl, rfl⟩ (onlyPkg_note _ _ _)
      · exact ⟨rfl, rfl, rfl, rfl, rfl, rfl, rfl, rfl, rfl⟩
  · exact ⟨rfl, rfl, rfl, rfl, rfl, rfl, rfl, rfl, rfl⟩

theorem countHs_of_thr {s : State} (h : wfld s.pkg.notify.thr 0 16 = 0) (va : Nat) : s.countHs va = s := by
  unfold State.countHs
  simp only [h, decide_true, Bool.true_or, if_true]
  split <;> rfl

theorem accessed_countHs (s : State) (spc : Space) (va : Nat) : s.Accessed spc (s.countHs va) := by
  have h := onlyPkg_countHs s va
  have hc := h.core
  refine ⟨by rw [hc], by rw [hc], by rw [hc], by rw [hc], by rw [hc], fun _ => by rw [hc], fun _ => by rw [hc], fun _ => by rw [hc],
    fun _ => by rw [hc], fun q => ?_, fun q _ => ?_, h.others, h.agenda, by rw [hc]; exact (by repeat' constructor)⟩
  · rw [countHs_of_thr q.thr]
    exact ⟨rfl, rfl, fun _ => rfl⟩
  · rw [countHs_of_thr q.thr]
    exact ⟨rfl, rfl⟩

/-- What the checks of an access leave of a state: its own core but the note of the vault, and the package's tables by which
locations are named. -/
structure State.Checked (s : State) (spc : Space) (t : State) : Prop where
  core : t.core = { s.core with vuse := t.core.vuse }
  acc : s.Accessed spc t
  counters : t.pkg.counters = s.pkg.counters
  parts : t.pkg.parts = s.pkg.parts
  jobs : t.pkg.jobs = s.pkg.jobs
  poison : t.pkg.poison = s.pkg.poison

theorem checked_useVault (s : State) (spc : Space) (a : Nat) : s.Checked spc (s.useVault spc a) := by
  unfold State.useVault; split
  · exact ⟨rfl, ⟨rfl, rfl, rfl, rfl, rfl, fun _ => rfl, fun _ => rfl, fun _ => rfl, fun _ => rfl, fun _ => ⟨rfl, rfl, fun _ => rfl⟩,
      fun _ _ => ⟨rfl, rfl⟩, rfl, rfl, (by repeat' constructor)⟩, rfl, rfl, rfl, rfl⟩
  · exact ⟨rfl, .refl s spc, rfl, rfl, rfl, rfl⟩

/-- The state in which an access that passes its checks goes on. -/
def State.checkedAccess (s : State) (spc : Space) (a : Nat) : State := (if spc == .hs then s.countHs a else s).useVault spc a

theorem checked_checkedAccess (s : State) (spc : Space) (a : Nat) : s.Checked spc (s.checkedAccess spc a) := by
  unfold State.checkedAccess
  have h1 : s.Checked spc (if spc == .hs then s.countHs a else s) := by
    split
    · have h := onlyPkg_countHs s a
      exact ⟨by rw [h.core], accessed_countHs s spc a, h.counters, h.parts, h.jobs, h.poison⟩
    · exact ⟨rfl, .refl s spc, rfl, rfl, rfl, rfl⟩
  have h2 := checked_useVault (if spc == .hs then s.countHs a else s) spc a
  exact ⟨by rw [h2.core, h1.core], h1.acc.trans h2.acc, h2.counters.trans h1.counters, h2.parts.trans h1.parts, h2.jobs.trans h1.jobs, h2.poison.trans h1.poison⟩

/-! ### The checks -/

theorem firstOut_of_inWindow {s : State} {spc : Space} {a n : Nat} (h : s.InWindow spc a n) : s.firstOut spc a n = none := by
  unfold State.firstOut
  rw [List.find?_eq_none.mpr]
  · rfl
  · intro i hi
    simp [h i (List.mem_range.mp hi)]

/-- An access in its window that translates goes on. -/
theorem access_go {s : State} {spc : Space} {a : Word} {n : Nat} {write : Bool} {ks : List Nat} (hw : s.InWindow spc a.toNat n)
    (hk : s.keys spc a.toNat n write = .ok ks) (k : List Nat → State → Out) :
    s.access spc a n write k = k ks (s.checkedAccess spc a.toNat) := by
  unfold State.access State.translated
  rw [firstOut_of_inWindow hw]
  simp only [hk]
  rfl

/-! ### What does not depend on what the checks change -/

theorem Checked.unitRef {s t : State} {x : Space} (h : s.Checked x t) : t.unitRef = s.unitRef := by
  unfold State.unitRef Package.ref Package.counter State.uctr State.bind
  rw [h.counters, h.core]

theorem Checked.cores {s t : State} {x : Space} (h : s.Checked x t) : t.cores = s.cores := by
  unfold State.cores State.part State.partId State.bind
  rw [h.parts, h.core]

theorem Checked.accClass {s t : State} {x : Space} (h : s.Checked x t) (spc : Space) (a : Nat) : t.accClass spc a = s.accClass spc a := by
  unfold State.accClass
  rw [Checked.cores h, h.core]

theorem Checked.readyAt {s t : State} {x : Space} (h : s.Checked x t) (n : Nat) : t.readyAt n = s.readyAt n := by
  unfold State.readyAt State.strict State.pad
  rw [h.core]

theorem Checked.overlap {s t : State} {x : Space} (h : s.Checked x t) : t.overlap = s.overlap := by
  unfold State.overlap State.loc
  rw [Checked.cores h, h.core]

theorem Checked.ofHandler {s t : State} {x : Space} (h : s.Checked x t) : t.ofHandler = s.ofHandler := by
  unfold State.ofHandler
  rw [h.core]

theorem Checked.earlier {s t : State} {x : Space} (h : s.Checked x t) : t.earlier = s.earlier := by
  unfold State.earlier
  rw [Checked.ofHandler h]

theorem Checked.unlandedBy {s t : State} {x : Space} (h : s.Checked x t) : t.unlandedBy = s.unlandedBy := by
  unfold State.unlandedBy State.streamOver
  rw [Checked.overlap h, h.core]

theorem Checked.unfetchedBy {s t : State} {x : Space} (h : s.Checked x t) : t.unfetchedBy = s.unfetchedBy := by
  unfold State.unfetchedBy State.streamOver
  rw [Checked.overlap h, h.core]

theorem Checked.unlanded {s t : State} {x : Space} (h : s.Checked x t) : t.unlanded = s.unlanded := by
  unfold State.unlanded
  rw [Checked.unlandedBy h, Checked.earlier h]

theorem Checked.unfetched {s t : State} {x : Space} (h : s.Checked x t) : t.unfetched = s.unfetched := by
  unfold State.unfetched
  rw [Checked.unfetchedBy h, Checked.earlier h]

theorem Checked.spBlocked {s t : State} {x : Space} (h : s.Checked x t) : t.spBlocked = s.spBlocked := by
  unfold State.spBlocked State.pipeConflict State.pipeConflictBy State.cmdConflict State.commands State.cmdEarlier
  rw [Checked.unlandedBy h, Checked.unfetchedBy h, Checked.earlier h, Checked.ofHandler h, h.core]

theorem Checked.inWindow {s t : State} {x : Space} (h : s.Checked x t) : t.inWindow = s.inWindow := by
  unfold State.inWindow State.userEnd State.atticSize State.devs State.job State.uctr State.bind Package.counter
  rw [Checked.cores h, h.jobs, h.counters, h.core]

theorem Checked.ownEntry {s t : State} {x : Space} (h : s.Checked x t) : t.ownEntry = s.ownEntry := by
  unfold State.ownEntry State.bindSeq Package.counter State.uctr State.bind
  rw [Checked.unitRef h, h.counters, h.core]

theorem Checked.mine {s t : State} {x : Space} (h : s.Checked x t) : t.mine = s.mine := by
  unfold State.mine State.porchVault
  rw [Checked.ownEntry h, h.core]

theorem Checked.porchRoom {s t : State} {x : Space} (h : s.Checked x t) : t.porchRoom = s.porchRoom := by
  unfold State.porchRoom State.porchNeed State.porchLoc
  rw [Checked.cores h, Checked.mine h, h.core]

theorem Checked.porchByte {s t : State} {x : Space} (h : s.Checked x t) : t.porchByte = s.porchByte := by
  unfold State.porchByte State.porchLoc
  rw [Checked.cores h, Checked.mine h, Checked.ownEntry h, h.core]

/-- A trap taken after the checks is a trap of the state before them, but for what the checks have written to memory. -/
theorem Checked.tookTrap {s u t : State} {x : Space} (h : s.Checked x u) (hm : ∀ a, u.mem.read a = s.mem.read a) {p : Nat} {c : Cause} {pc : Word}
    (k : u.TookTrap p c pc t) : s.TookTrap p c pc t :=
  ⟨k.mode, by rw [k.fetch, h.core], k.code, k.pipe, k.pc, k.aq, k.xq, by rw [k.regs, h.core], fun a => (k.mem a).trans (hm a),
    fun a => by rw [k.sp a, h.core]⟩

/-! ### Reading (R94, R106, R138) -/

/-- What reading may change of a state: the Attic cache, and what a poisoned word sets off. -/
structure State.ReadOf (s t : State) : Prop where
  core : t.core = { s.core with fe := t.core.fe, lsu := t.core.lsu }
  fe : t.core.fe = { s.core.fe with unit := t.core.fe.unit }
  lsu : t.core.lsu = { s.core.lsu with attic := t.core.lsu.attic }
  others : t.others = s.others
  mem : t.mem = s.mem
  agenda : t.agenda = s.agenda
  thr : t.pkg.notify = s.pkg.notify
  counters : t.pkg.counters = s.pkg.counters
  parts : t.pkg.parts = s.pkg.parts
  quiet : s.pkg.poison = [] → s.pkg.weak = [] → t.pkg = s.pkg ∧ t.free = s.free ∧ t.core.fe.unit = s.core.fe.unit

theorem State.ReadOf.refl (s : State) : s.ReadOf s := ⟨rfl, rfl, rfl, rfl, rfl, rfl, rfl, rfl, rfl, fun _ _ => ⟨rfl, rfl, rfl⟩⟩

theorem State.ReadOf.trans {a b c : State} (h : a.ReadOf b) (k : b.ReadOf c) : a.ReadOf c where
  core := by rw [k.core, h.core]
  fe := by rw [k.fe, h.fe]
  lsu := by rw [k.lsu, h.lsu]
  others := k.others.trans h.others
  mem := k.mem.trans h.mem
  agenda := k.agenda.trans h.agenda
  thr := k.thr.trans h.thr
  counters := k.counters.trans h.counters
  parts := k.parts.trans h.parts
  quiet hp hw := by
    obtain ⟨h1, h2, h3⟩ := h.quiet hp hw
    obtain ⟨k1, k2, k3⟩ := k.quiet (h1 ▸ hp) (h1 ▸ hw)
    exact ⟨k1.trans h1, k2.trans h2, k3.trans h3⟩

/-- What leaves everything but the unit's state, the logs and the black box. -/
structure State.LogOf (s t : State) : Prop where
  core : t.core = { s.core with fe := t.core.fe }
  fe : t.core.fe = { s.core.fe with unit := t.core.fe.unit }
  others : t.others = s.others
  mem : t.mem = s.mem
  agenda : t.agenda = s.agenda
  thr : t.pkg.notify = s.pkg.notify
  counters : t.pkg.counters = s.pkg.counters
  parts : t.pkg.parts = s.pkg.parts

theorem State.LogOf.trans {a b c : State} (h : a.LogOf b) (k : b.LogOf c) : a.LogOf c :=
  ⟨by rw [k.core, h.core], by rw [k.fe, h.fe], k.others.trans h.others, k.mem.trans h.mem, k.agenda.trans h.agenda, k.thr.trans h.thr,
    k.counters.trans h.counters, k.parts.trans h.parts⟩

theorem logOf_bb (s : State) (k : BbKind) : s.LogOf (s.bb k) := by
  unfold State.bb
  dsimp only
  split
  all_goals exact ⟨rfl, rfl, rfl, rfl, rfl, rfl, rfl, rfl⟩

theorem logOf_elog (s : State) (level kind src core addr : Nat) : s.LogOf (s.elog level kind src core addr) := by
  unfold State.elog State.fresh
  dsimp only
  split
  · refine State.LogOf.trans ?_ (logOf_bb _ _)
    exact ⟨rfl, rfl, rfl, rfl, rfl, rfl, rfl, rfl⟩
  · exact ⟨rfl, rfl, rfl, rfl, rfl, rfl, rfl, rfl⟩

theorem logOf_machineStop (s : State) (fab : Option Nat) (pipe : Nat) : s.LogOf (s.machineStop fab pipe) := by
  refine State.LogOf.trans (logOf_bb s (.trap .machineCheck)) (State.LogOf.trans (logOf_bb _ .machineCheck) ?_)
  unfold State.machineStop
  dsimp only
  split
  all_goals exact ⟨rfl, rfl, rfl, rfl, rfl, rfl, rfl, rfl⟩

theorem logOf_correct (s : State) (f : Poison → Bool) : s.LogOf (s.correct f) := by
  have aux : ∀ (l : List Poison) (t : State), s.LogOf t → s.LogOf (l.foldl (fun s p => s.elog p.level kCorrected 0 p.core p.addr) t) := by
    intro l
    induction l with
    | nil => exact fun _ h => h
    | cons p l ih => exact fun t h => ih _ (h.trans (logOf_elog _ _ _ _ _ _))
  exact aux _ _ ⟨rfl, rfl, rfl, rfl, rfl, rfl, rfl, rfl⟩

theorem correct_of_weak {s : State} (h : s.pkg.weak = []) (f : Poison → Bool) : s.correct f = s := by
  obtain ⟨c, o, m, p, a, n⟩ := s
  obtain ⟨⟩ := p
  subst h
  rfl

theorem State.LogOf.readOf {s t : State} (h : s.LogOf t)
    (q : s.pkg.poison = [] → s.pkg.weak = [] → t.pkg = s.pkg ∧ t.free = s.free ∧ t.core.fe.unit = s.core.fe.unit) : s.ReadOf t :=
  ⟨h.core.trans (by rw [h.core]), h.fe, by rw [h.core], h.others, h.mem, h.agenda, h.thr, h.counters, h.parts, q⟩

theorem readOf_meetPoison (s : State) (pipe : Nat) (f : Poison → Bool) : s.ReadOf (s.meetPoison pipe f) := by
  unfold State.meetPoison
  cases hf : s.pkg.poison.find? f with
  | none => exact (logOf_correct s f).readOf fun _ hw => by rw [correct_of_weak hw]; exact ⟨rfl, rfl, rfl⟩
  | some p =>
    have ne : s.pkg.poison ≠ [] := by intro h; simp [h] at hf
    have h : s.LogOf (((s.pkgd fun g => { g with poison := g.poison.filter fun x => x != p }).elog p.level kUncorrectable 0 p.core p.addr).machineStop none pipe) :=
      State.LogOf.trans (b := s.pkgd fun g => { g with poison := g.poison.filter fun x => x != p })
        ⟨rfl, rfl, rfl, rfl, rfl, rfl, rfl, rfl⟩ ((logOf_elog _ _ _ _ _ _).trans (logOf_machineStop _ _ _))
    exact h.readOf fun h0 _ => absurd h0 ne

theorem readOf_fillLine (s : State) (va key : Nat) : s.ReadOf (s.fillLine va key) :=
  ⟨rfl, rfl, rfl, rfl, rfl, rfl, rfl, rfl, rfl, fun _ _ => ⟨rfl, rfl, rfl⟩⟩

theorem readOf_fillLines (s : State) (acq : Bool) (first : Nat) (ps : List (Nat × Nat)) : s.ReadOf (s.fillLines acq first ps) := by
  unfold State.fillLines
  induction ps generalizing s with
  | nil => exact .refl s
  | cons p ps ih =>
    rw [List.foldl_cons]
    refine State.ReadOf.trans ?_ (ih _)
    split
    · exact readOf_fillLine s _ _
    · exact .refl s

theorem readOf_perform (s : State) (spc : Space) (a n : Nat) (ks : List Nat) (acq : Bool) (seq : Nat) :
    s.ReadOf (s.perform spc a n ks acq seq).2 := by
  unfold State.perform
  split
  · exact readOf_meetPoison s _ _
  · dsimp only
    refine State.ReadOf.trans ?_ (readOf_meetPoison _ _ _)
    split
    · exact readOf_fillLines s _ _ _
    · exact .refl s

theorem porchByte_congr {s t : State} (h1 : t.core.slot = s.core.slot) (h2 : t.core.idx = s.core.idx)
    (h3 : t.core.lsu.porch = s.core.lsu.porch) (h4 : t.core.fe.byPhys = s.core.fe.byPhys) (h5 : t.pkg.counters = s.pkg.counters)
    (h6 : t.pkg.parts = s.pkg.parts) : t.porchByte = s.porchByte := by
  unfold State.porchByte State.porchLoc State.mine State.porchVault State.ownEntry State.bindSeq State.unitRef Package.ref Package.counter State.uctr State.cores
    State.part State.partId State.bind
  rw [h1, h2, h3, h4, h5, h6]

theorem State.ReadOf.porchByte {s t : State} (h : s.ReadOf t) : t.porchByte = s.porchByte :=
  porchByte_congr (by rw [h.core]) (by rw [h.core]) (by rw [h.lsu]) (by rw [h.fe]) h.counters h.parts

theorem State.ReadOf.atticSize {s t : State} (h : s.ReadOf t) : t.atticSize = s.atticSize := by
  unfold State.atticSize
  rw [h.core]

theorem keysVia_length {f : Nat → Xlate} {l ks : List Nat} (h : keysVia f l = .ok ks) : ks.length = l.length := by
  induction l generalizing ks with
  | nil => simp [keysVia] at h; simp [← h]
  | cons a l ih =>
    unfold keysVia at h
    split at h
    · split at h
      · rename_i k _ ks' hk
        cases h
        simp [ih hk]
      · rename_i hk; exact absurd h (hk ks)
    · cases h

theorem keys_length {s : State} {spc : Space} {a n : Nat} {w : Bool} {ks : List Nat} (h : s.keys spc a n w = .ok ks) : ks.length = n := by
  have := keysVia_length h
  simpa [addrs] using this

theorem zip_addrs_map {α : Type} (a n : Nat) (ks : List Nat) (h : ks.length = n) (f : Nat → Nat → α) :
    ((addrs a n).zip ks).map (fun p => f p.1 p.2) = (List.range n).map fun i => f (a + i) (ks.getD i 0) := by
  subst h
  apply List.ext_getElem
  · simp [addrs]
  · intro i h1 h2
    have hi : i < ks.length := by simpa using h2
    simp [addrs, hi]

/-- The bytes of a read past the Attic cache. -/
theorem perform_global {s : State} {spc : Space} {a n : Nat} {ks : List Nat} {acq : Bool} {seq : Nat} (hn : ks.length = n) (hs : spc ≠ .sp)
    (hc : spc = .cl → acq = true ∨ s.atticSize = 0) :
    (s.perform spc a n ks acq seq).1 = (List.range n).map fun i => (s.porchByte spc (a + i) (ks.getD i 0) seq).getD (s.mem.read (ks.getD i 0)) := by
  unfold State.perform
  rw [if_neg (by simpa using hs)]
  dsimp only
  generalize hu : (if (spc == Space.cl) = true then s.fillLines acq a ((addrs a n).zip ks) else s) = u
  have h : s.ReadOf u := by
    subst hu
    split
    · exact readOf_fillLines s _ _ _
    · exact .refl s
  rw [zip_addrs_map a n ks hn (fun x k => u.globalByte spc x k acq seq)]
  apply List.map_congr_left
  intro i _
  have hl : (if (spc == .cl && !acq && u.cacheable (a + i)) = true then u.line (a + i) else none) = none := by
    by_cases hcl : spc = .cl
    · rcases hc hcl with rfl | h0
      · simp
      · simp [State.cacheable, h.atticSize, h0]
    · simp [hcl]
  unfold State.globalByte
  rw [h.porchByte, hl]
  cases hp : s.porchByte spc (a + i) (ks.getD i 0) seq with
  | none => simp [h.mem]
  | some b => simp

theorem accessed_readOf {s t : State} (h : s.ReadOf t) (spc : Space) : s.Accessed spc t :=
  ⟨by rw [h.core], by rw [h.core], by rw [h.fe], by rw [h.lsu], by rw [h.core], fun _ => by rw [h.core], fun _ => by rw [h.core],
    fun _ => by rw [h.core], fun _ => by rw [h.core],
    fun q => by
      obtain ⟨hp, -, hu⟩ := h.quiet q.poison q.weak
      exact ⟨by rw [hp], hu, fun _ => by rw [h.mem]⟩,
    fun q _ => by
      obtain ⟨hp, hf, -⟩ := h.quiet q.poison q.weak
      exact ⟨by rw [hp], hf⟩, h.others, h.agenda,
    by rw [h.core]; exact (by repeat' constructor)⟩

/-- The request of an access to another device leaves the rest as it is. -/
structure State.SentOf (s t : State) (spc : Space) : Prop where
  core : t.core = s.core
  others : t.others = s.others
  mem : t.mem = s.mem
  agenda : t.agenda = s.agenda
  pkg : t.pkg = { s.pkg with links := t.pkg.links }
  unsent : spc ≠ .pr → t.pkg.links = s.pkg.links ∧ t.free = s.free

theorem sentOf_sendReq (s : State) (spc : Space) (a seq : Nat) : s.SentOf (s.sendReq spc a seq) spc := by
  have refl : s.SentOf s spc := ⟨rfl, rfl, rfl, rfl, rfl, fun _ => ⟨rfl, rfl⟩⟩
  unfold State.sendReq
  by_cases hs : spc = .pr
  · rw [if_neg (by simp [hs])]
    split
    · split
      · exact refl
      · unfold State.sendFlit
        split
        · exact refl
        · exact ⟨rfl, rfl, rfl, rfl, rfl, fun h => absurd hs h⟩
    · exact refl
  · rw [if_pos (by simpa using hs)]
    exact refl

/-- A list of accesses and the front end's bookkeeping may change as well. -/
theorem State.Accessed.ext {s t u : State} {spc : Space} (h : s.Accessed spc t)
    (hc : u.core = { t.core with fe := u.core.fe, lsu := u.core.lsu, qs := u.core.qs, mems := { t.core.mems with sp := u.core.mems.sp } })
    (hf : u.core.fe = { t.core.fe with aStall := u.core.fe.aStall, xStall := u.core.fe.xStall, stall := u.core.fe.stall, adone := u.core.fe.adone })
    (hl : u.core.lsu = { t.core.lsu with acc := u.core.lsu.acc, ms := u.core.lsu.ms, heldSt := u.core.lsu.heldSt, porch := u.core.lsu.porch })
    (ho : u.others = t.others) (hm : u.mem = t.mem) (hp : u.pkg = { t.pkg with links := u.pkg.links }) (ha : u.agenda = t.agenda)
    (hfr : spc ≠ .pr → u.pkg.links = t.pkg.links ∧ u.free = t.free) : s.Accessed spc u where
  regs := by rw [hc]; exact h.regs
  sys := by rw [hc]; exact h.sys
  fe := by rw [hf, h.fe]
  lsu := by rw [hl, h.lsu]
  eng := by rw [hc]; exact h.eng
  loft x := by rw [hc]; exact h.loft x
  cup x := by rw [hc]; exact h.cup x
  acc x := by rw [hc]; exact h.acc x
  chain x := by rw [hc]; exact h.chain x
  quiet q := by
    obtain ⟨k1, k2, k3⟩ := h.quiet q
    exact ⟨by rw [hp, k1], by rw [hf]; exact k2, fun x => by rw [hm]; exact k3 x⟩
  unsent q hs := by
    obtain ⟨k1, k2⟩ := h.unsent q hs
    obtain ⟨l1, l2⟩ := hfr hs
    exact ⟨l1.trans k1, l2.trans k2⟩
  others := ho.trans h.others
  agenda := ha.trans h.agenda
  core := by rw [hc]; exact h.core

/-- A read that begins in the state that its checks leave: it is the last of the outstanding ones, with its data when nothing
holds it. -/
theorem beginRead_began {s u : State} (k : AccKind) (spc : Space) (h : s.Checked spc u) (a n : Nat) (ks : List Nat) (acq timed : Bool)
    (hn : ks.length = n) :
    let t := u.beginRead k spc a n ks acq (if timed then u.readyAt (u.accClass spc a) else none)
    t.core.qs = s.core.qs ∧ t.core.fe = { s.core.fe with unit := t.core.fe.unit } ∧
      ∃ data, s.Began k spc a n ks acq timed data t ∧
        (s.Held spc a n ks → data = none) ∧ (¬ s.Held spc a n ks → s.ReadsNow spc a n ks acq s.core.fe.cur.seq data t) := by
  intro t
  have hcur : u.core.fe.cur = s.core.fe.cur := by rw [h.core]
  have hready : (if timed then u.readyAt (u.accClass spc a) else none) =
      if timed && s.strict then some (s.core.fe.cycle + s.pad (s.accClass spc a)) else none := by
    rw [Checked.readyAt h, Checked.accClass h]
    unfold State.readyAt
    cases timed <;> cases s.strict <;> rfl
  have hheld : (if spc == .sp then u.spBlocked a n false u.core.fe.cur.seq else u.unlanded spc a n ks u.core.fe.cur.seq) = true ↔
      s.Held spc a n ks := by
    rw [Checked.spBlocked h, Checked.unlanded h, hcur]
    unfold State.Held
    by_cases hs : spc = .sp <;> simp [hs]
  have ht : t = u.beginRead k spc a n ks acq (if timed then u.readyAt (u.accClass spc a) else none) := rfl
  clear_value t
  unfold State.beginRead at ht
  dsimp only at ht
  rw [hready, hcur] at ht
  -- the state after a possible read, and the data
  obtain ⟨v, data, hv, htv, hd⟩ : ∃ v data, u.ReadOf v ∧
      t = (v.lsu fun l => { l with acc := l.acc ++ [⟨k, spc, a, n, ks, acq, data, s.core.fe.cur.seq,
        if timed && s.strict then some (s.core.fe.cycle + s.pad (s.accClass spc a)) else none⟩] }).sendReq spc a s.core.fe.cur.seq ∧
      ((s.Held spc a n ks → data = none) ∧ (¬ s.Held spc a n ks → data = some (u.perform spc a n ks acq s.core.fe.cur.seq).1)) := by
    by_cases hh : s.Held spc a n ks
    · rw [hcur] at hheld
      refine ⟨u, none, .refl u, ?_, fun _ => rfl, fun h => absurd hh h⟩
      rw [ht, if_pos (hheld.mpr hh)]
    · rw [hcur] at hheld
      refine ⟨(u.perform spc a n ks acq s.core.fe.cur.seq).2, some (u.perform spc a n ks acq s.core.fe.cur.seq).1, readOf_perform u spc a n ks acq _, ?_, fun h => absurd h hh,
        fun _ => rfl⟩
      rw [ht, if_neg (fun h => hh (hheld.mp h))]
  have hu : s.Accessed spc v := h.acc.trans (accessed_readOf hv spc)
  have hvc : v.core = { s.core with fe := v.core.fe, lsu := v.core.lsu, vuse := v.core.vuse } := by rw [hv.core, h.core]
  have hvl : v.core.lsu = { s.core.lsu with attic := v.core.lsu.attic } := by rw [hv.lsu, h.core]
  have hvf : v.core.fe = { s.core.fe with unit := v.core.fe.unit } := by rw [hv.fe, h.core]
  generalize hw : (v.lsu fun l => { l with acc := l.acc ++ [⟨k, spc, a, n, ks, acq, data, s.core.fe.cur.seq,
        if timed && s.strict then some (s.core.fe.cycle + s.pad (s.accClass spc a)) else none⟩] }) = w at htv
  have hsend := sentOf_sendReq w spc a s.core.fe.cur.seq
  rw [← htv] at hsend
  have htc : t.core = { v.core with lsu := { v.core.lsu with acc := v.core.lsu.acc ++ [⟨k, spc, a, n, ks, acq, data, s.core.fe.cur.seq,
        if timed && s.strict then some (s.core.fe.cycle + s.pad (s.accClass spc a)) else none⟩] } } := by rw [hsend.core, ← hw]; rfl
  refine ⟨by rw [htc, hvc], by rw [htc]; exact hvf, data, ⟨by rw [htc, hvl], ?_, fun x => by rw [htc, hvc], by rw [htc, hvl], by rw [htc, hvl],
    by rw [htc, hvl]⟩, hd.1, fun hh => ?_⟩
  · refine hu.ext (by rw [htc]) (by rw [htc]) (by rw [htc]) (by rw [hsend.others, ← hw]; rfl) (by rw [hsend.mem, ← hw]; rfl)
      (by rw [hsend.pkg, ← hw]; rfl) (by rw [hsend.agenda, ← hw]; rfl) (fun hs => ?_)
    obtain ⟨h1, h2⟩ := hsend.unsent hs
    exact ⟨by rw [h1, ← hw]; rfl, by rw [h2, ← hw]; rfl⟩
  · rw [hd.2 hh]
    have hpb : u.porchByte = s.porchByte := Checked.porchByte h
    have hmem : t.mem = u.mem := by rw [hsend.mem, ← hw]; exact hv.mem
    by_cases hs : spc = .sp
    · subst hs
      intro hwf
      have : (u.perform .sp a n ks acq s.core.fe.cur.seq).1 = u.core.mems.sp.bytes a n := rfl
      rw [this, h.core, Memory.bytes_eq hwf]
    · have key : (spc = .cl → acq = true ∨ s.atticSize = 0) →
          some (u.perform spc a n ks acq s.core.fe.cur.seq).1 =
            some ((List.range n).map fun i => (s.porchByte spc (a + i) (ks.getD i 0) s.core.fe.cur.seq).getD (t.mem.read (ks.getD i 0))) := by
        intro hc
        rw [perform_global hn hs (fun e => by rw [show u.atticSize = s.atticSize by unfold State.atticSize; rw [h.core]]; exact hc e), hpb, hmem]
      cases spc <;> first | exact absurd rfl hs | exact key

end Sys2Proof.Machine
end

