-- ==== Sys2Proof/Laws/Integer.lean ====
section
/-! SUPPORT. The integer values of the A-pipe in bit-vector terms (R132 to R134). -/

namespace Sys2Proof.Machine

theorem toInt_narrow (x : Word) : ((x.setWidth 32 : BitVec 32).signExtend 64).toInt = (x.setWidth 32 : BitVec 32).toInt :=
  BitVec.toInt_signExtend_of_le (by omega)

theorem sIn_d (x : Word) : sIn .d x = x.toInt := rfl
theorem sIn_w (x : Word) : sIn .w x = (x.setWidth 32 : BitVec 32).toInt := toInt_narrow x

theorem setWidth_word (z : Int) : ((word z).setWidth 32 : BitVec 32) = BitVec.ofInt 32 z := by
  apply BitVec.eq_of_toNat_eq
  simp only [word, BitVec.toNat_setWidth, BitVec.toNat_ofInt]
  omega

theorem addI_w (x y : Word) : addI .w x y = ((x.setWidth 32 : BitVec 32) + y.setWidth 32).signExtend 64 := by
  simp only [addI, sized]; congr 1; apply BitVec.eq_of_toNat_eq; simp
theorem subI_w (x y : Word) : subI .w x y = ((x.setWidth 32 : BitVec 32) - y.setWidth 32).signExtend 64 := by
  simp only [subI, sized]; congr 1; bv_omega
theorem mulI_w (x y : Word) : mulI .w x y = ((x.setWidth 32 : BitVec 32) * y.setWidth 32).signExtend 64 := by
  simp only [mulI, sized]; congr 1; apply BitVec.eq_of_toNat_eq; simp
theorem andI_w (x y : Word) : andI .w x y = ((x.setWidth 32 : BitVec 32) &&& y.setWidth 32).signExtend 64 := by
  simp only [andI, sized, BitVec.setWidth_and]
theorem orI_w (x y : Word) : orI .w x y = ((x.setWidth 32 : BitVec 32) ||| y.setWidth 32).signExtend 64 := by
  simp only [orI, sized, BitVec.setWidth_or]
theorem xorI_w (x y : Word) : xorI .w x y = ((x.setWidth 32 : BitVec 32) ^^^ y.setWidth 32).signExtend 64 := by
  simp only [xorI, sized, BitVec.setWidth_xor]

/-- The product of two sign-extended numbers. -/
theorem mul_signExtend {n m : Nat} (x y : BitVec n) (h : n ≤ m) :
    x.signExtend m * y.signExtend m = BitVec.ofInt m (x.toInt * y.toInt) := by
  rw [← BitVec.toInt_signExtend_of_le (x := x) h, ← BitVec.toInt_signExtend_of_le (x := y) h]
  apply BitVec.eq_of_toInt_eq
  rw [BitVec.toInt_mul, BitVec.toInt_ofInt]

/-- The high half of a signed product. -/
theorem hi_mul {n m : Nat} (x y : BitVec n) (hm : m = n + n) :
    ((x.signExtend m * y.signExtend m) >>> n).setWidth n = BitVec.ofInt n (x.toInt * y.toInt / 2 ^ n) := by
  subst hm
  rw [mul_signExtend x y (by omega)]
  generalize x.toInt * y.toInt = z
  apply BitVec.eq_of_toNat_eq
  simp only [BitVec.toNat_setWidth, BitVec.toNat_ushiftRight, BitVec.toNat_ofInt, Nat.shiftRight_eq_div_pow]
  have e : z % (2 ^ n * 2 ^ n : Int) / 2 ^ n % 2 ^ n = z / 2 ^ n % 2 ^ n := by
    conv_rhs => rw [← Int.emod_add_mul_ediv z (2 ^ n * 2 ^ n), mul_assoc, Int.add_mul_ediv_left _ _ (by positivity),
      Int.add_mul_emod_self_left]
  zify
  rw [pow_add, Int.toNat_of_nonneg (Int.emod_nonneg _ (by positivity)), Int.toNat_of_nonneg (Int.emod_nonneg _ (by positivity)), e]

theorem mulhI_d (x y : Word) : mulhI .d x y = ((x.signExtend 128 * y.signExtend 128) >>> 64).setWidth 64 :=
  (hi_mul x y rfl).symm
theorem mulhI_w (x y : Word) : mulhI .w x y =
    ((((x.setWidth 32 : BitVec 32).signExtend 64 * (y.setWidth 32 : BitVec 32).signExtend 64) >>> 32).setWidth 32 : BitVec 32).signExtend 64 := by
  rw [hi_mul _ _ rfl, mulhI, sIn_w, sIn_w]
  simp only [sized, setWidth_word, szBits]

theorem shlI_w (x y : Word) : shlI .w x y = ((x.setWidth 32 : BitVec 32) <<< (y.toNat % 32)).signExtend 64 := by
  simp only [shlI, sized, amt]; congr 1; apply BitVec.eq_of_toNat_eq; simp [Nat.shiftLeft_eq]
theorem shrI_d (x y : Word) : shrI .d x y = x >>> (y.toNat % 64) := by
  apply BitVec.eq_of_toNat_eq
  simp only [shrI, sized, uIn, amt, BitVec.toNat_ofNat, BitVec.toNat_ushiftRight, Nat.shiftRight_eq_div_pow]
  exact Nat.mod_eq_of_lt (lt_of_le_of_lt (Nat.div_le_self _ _) x.isLt)
theorem shrI_w (x y : Word) : shrI .w x y = ((x.setWidth 32 : BitVec 32) >>> (y.toNat % 32)).signExtend 64 := by
  simp only [shrI, sized, uIn, amt]; congr 1; apply BitVec.eq_of_toNat_eq
  simp only [BitVec.toNat_setWidth, BitVec.toNat_ofNat, BitVec.toNat_ushiftRight, Nat.shiftRight_eq_div_pow]
  have : x.toNat % 2 ^ 32 / 2 ^ (y.toNat % 32) ≤ x.toNat % 2 ^ 32 := Nat.div_le_self _ _
  rw [Nat.mod_eq_of_lt (b := 2 ^ 64) (by omega), Nat.mod_eq_of_lt (b := 2 ^ 32) (by omega)]
theorem ofInt_ediv {n : Nat} (x : BitVec n) (k : Nat) : BitVec.ofInt n (x.toInt / 2 ^ k) = x.sshiftRight k := by
  apply BitVec.eq_of_toInt_eq
  have h : (x.sshiftRight k).toInt = x.toInt / 2 ^ k := by
    rw [BitVec.toInt_sshiftRight, Int.shiftRight_eq_div_pow]; norm_cast
  rw [← h, BitVec.ofInt_toInt]
theorem sraI_d (x y : Word) : sraI .d x y = x.sshiftRight (y.toNat % 64) := ofInt_ediv x _
theorem sraI_w (x y : Word) : sraI .w x y = ((x.setWidth 32 : BitVec 32).sshiftRight (y.toNat % 32)).signExtend 64 := by
  simp only [sraI, sIn_w]
  simp only [sized, setWidth_word, ofInt_ediv, amt]

theorem minI_d (x y : Word) : minI .d x y = if x.sle y then x else y := by
  simp only [minI, sIn_d, BitVec.sle, decide_eq_true_eq]; rfl
theorem minI_w (x y : Word) : minI .w x y =
    (if (x.setWidth 32 : BitVec 32).sle (y.setWidth 32) then x.setWidth 32 else y.setWidth 32 : BitVec 32).signExtend 64 := by
  simp only [minI, sIn_w, BitVec.sle, decide_eq_true_eq]; split <;> rfl
theorem maxI_d (x y : Word) : maxI .d x y = if x.sle y then y else x := by
  simp only [maxI, sIn_d, BitVec.sle, decide_eq_true_eq]; rfl
theorem maxI_w (x y : Word) : maxI .w x y =
    (if (x.setWidth 32 : BitVec 32).sle (y.setWidth 32) then y.setWidth 32 else x.setWidth 32 : BitVec 32).signExtend 64 := by
  simp only [maxI, sIn_w, BitVec.sle, decide_eq_true_eq]; split <;> rfl

/-! ### Immediates -/

theorem word_sint {n : Nat} (i : BitVec n) (h : 0 < n) : word (sint n i.toNat) = i.signExtend 64 := by
  have : sint n i.toNat = i.toInt := by
    have h2 : 2 ^ n = 2 * 2 ^ (n - 1) := by rw [← Nat.pow_succ']; congr 1; omega
    have hlt := i.isLt
    rw [sint, BitVec.toInt_eq_toNat_cond, Nat.mod_eq_of_lt hlt]
    split <;> split <;> first | omega | (push_cast; rfl)
  rw [this]; rfl

theorem extend_none {n : Nat} (i : BitVec n) (h : 0 < n) : extend n i.toNat none = i.signExtend 64 := word_sint i h

theorem extend_some {n : Nat} (i : BitVec n) (v : BitVec 50) (h : 14 ≤ n) : extend n i.toNat (some v) = (v ++ i).setWidth 64 := by
  have e : v.toNat * 2 ^ n + i.toNat = (v ++ i).toNat := by
    rw [BitVec.toNat_append, Nat.shiftLeft_eq, Nat.mul_comm, Nat.two_pow_add_eq_or_of_lt i.isLt, Nat.mul_comm]
  rw [extend, e, word_sint _ (by omega)]
  apply BitVec.eq_of_getLsbD_eq
  intro k hk
  simp only [BitVec.getLsbD_signExtend, BitVec.getLsbD_setWidth, hk, decide_true, Bool.true_and]
  rw [if_pos (by omega)]

end Sys2Proof.Machine
end

