-- ==== Sys2Proof/Laws/Porch.lean ====
section
/-! SUPPORT. What the Porch holds after a store (R93, R94). -/

namespace Sys2Proof.Machine

/-! ### The latest cell -/

theorem laterCell_skip (b : Option PorchCell) {x y : PorchCell} (h : x.seq ≤ y.seq) : laterCell (laterCell b x) y = laterCell b y := by
  unfold laterCell
  cases b with
  | none => simp [h]
  | some d =>
    by_cases hd : d.seq ≤ x.seq
    · simp [hd, h, Nat.le_trans hd h]
    · simp [hd]

/-- The one cell that is later than all others is the latest. -/
theorem latest_of_max {cs : List PorchCell} {c : PorchCell} (h : ∀ d ∈ cs, d = c ∨ d.seq < c.seq) (hm : c ∈ cs) :
    cs.foldl laterCell none = some c := by
  have aux : ∀ (cs : List PorchCell) (b : Option PorchCell), (∀ d ∈ cs, d = c ∨ d.seq < c.seq) →
      (b = some c ∨ ((∀ d ∈ b, d.seq < c.seq) ∧ c ∈ cs)) → cs.foldl laterCell b = some c := by
    intro cs
    induction cs with
    | nil => intro b _ h2; simpa using h2
    | cons d cs ih =>
      intro b h1 h2
      rw [List.foldl_cons]
      refine ih _ (fun e he => h1 e (by simp [he])) ?_
      rcases h2 with rfl | ⟨hb, hc⟩
      · rcases h1 d (by simp) with rfl | hd
        · exact .inl (by simp [laterCell])
        · exact .inl (by simp [laterCell, Nat.not_le.mpr hd])
      · rcases h1 d (by simp) with rfl | hd
        · left
          cases b with
          | none => rfl
          | some e => simp [laterCell, Nat.le_of_lt (hb e rfl)]
        · right
          refine ⟨?_, ?_⟩
          · cases b with
            | none => simpa [laterCell] using hd
            | some e =>
              have := hb e rfl
              unfold laterCell
              dsimp only
              split <;> simpa
          · rcases List.mem_cons.mp hc with rfl | hc
            · exact absurd hd (Nat.lt_irrefl _)
            · exact hc
  exact aux cs none h (.inr ⟨by simp, hm⟩)

/-! ### The cells of one entry -/

/-- The cells at an offset that come before a place in program order. -/
def cellsOf (o n : Nat) (l : List (Nat × PorchCell)) : List PorchCell := (l.filter fun c => c.1 == o && c.2.seq < n).map (·.2)

/-- No cell is later than a place in program order. -/
def UpTo (seq : Nat) (l : List (Nat × PorchCell)) : Prop := ∀ c ∈ l, c.2.seq ≤ seq

theorem mem_insertCell {off : Nat} {c : PorchCell} {l : List (Nat × PorchCell)} {x : Nat × PorchCell} :
    x ∈ insertCell off c l ↔ x = (off, c) ∨ x ∈ l := by
  induction l with
  | nil => simp [insertCell]
  | cons y l ih =>
    unfold insertCell
    split
    · simp
    · simp only [List.mem_cons, ih]
      exact or_left_comm

theorem mem_of_mem_pruneCells {hold : List Nat} {l : List (Nat × PorchCell)} {x : Nat × PorchCell} (h : x ∈ pruneCells hold l) : x ∈ l := by
  induction l using pruneCells.induct hold with
  | case1 a b l hc ih => rw [pruneCells, if_pos hc] at h; exact List.mem_cons_of_mem _ (ih h)
  | case2 a b l hc ih =>
    rw [pruneCells, if_neg hc] at h
    rcases List.mem_cons.mp h with rfl | h
    · simp
    · exact List.mem_cons_of_mem _ (ih h)
  | case3 l hl => rwa [pruneCells] at h; exact hl

/-- Cells that go are never the latest. -/
theorem fold_pruneCells (hold : List Nat) (o n seq : Nat) (hn : seq < n) (l : List (Nat × PorchCell)) (h : UpTo seq l) (b : Option PorchCell) :
    (cellsOf o n (pruneCells hold l)).foldl laterCell b = (cellsOf o n l).foldl laterCell b := by
  induction l using pruneCells.induct hold generalizing b with
  | case1 x y l hc ih =>
    rw [pruneCells, if_pos hc, ih (fun c hc => h c (List.mem_cons_of_mem _ hc))]
    simp only [Bool.and_eq_true, beq_iff_eq, decide_eq_true_eq] at hc
    have hx : x.2.seq < n := Nat.lt_of_le_of_lt (h x (by simp)) hn
    have hy : y.2.seq < n := Nat.lt_of_le_of_lt (h y (by simp)) hn
    by_cases ho : y.1 = o
    · simp [cellsOf, hc.1.1, ho, hx, hy, laterCell_skip b hc.1.2]
    · simp [cellsOf, hc.1.1, ho]
  | case2 x y l hc ih =>
    rw [pruneCells, if_neg hc]
    have ih := ih (fun c hc => h c (List.mem_cons_of_mem _ hc))
    unfold cellsOf at ih ⊢
    rw [List.filter_cons, List.filter_cons]
    split
    · rw [List.map_cons, List.map_cons, List.foldl_cons, List.foldl_cons, ih]
    · exact ih b
  | case3 l hl => rw [pruneCells]; exact hl

theorem cellsOf_insertCell_other {o n off : Nat} {c : PorchCell} (h : o ≠ off) (l : List (Nat × PorchCell)) :
    cellsOf o n (insertCell off c l) = cellsOf o n l := by
  have hb : (off == o) = false := beq_eq_false_iff_ne.mpr fun e => h e.symm
  induction l with
  | nil => simp [insertCell, cellsOf, hb]
  | cons x l ih =>
    unfold insertCell
    split
    · simp [cellsOf, hb]
    · unfold cellsOf at ih ⊢
      rw [List.filter_cons, List.filter_cons]
      split
      · rw [List.map_cons, List.map_cons, ih]
      · exact ih

theorem putCell_upTo {e : PorchEntry} {c : PorchCell} (h : UpTo c.seq e.cells) (hold : List Nat) (off : Nat) :
    UpTo c.seq (e.putCell hold off c).cells := by
  intro x hx
  rcases mem_insertCell.mp (mem_of_mem_pruneCells hx) with rfl | hx
  · exact Nat.le_refl _
  · exact h x (List.mem_filter.mp hx).1

/-- What an entry's bytes are after one has entered: the byte itself, and every other as before. -/
theorem putCell_cells {e : PorchEntry} {c : PorchCell} (h : UpTo c.seq e.cells) (hold : List Nat) (off n : Nat) (hn : c.seq < n) :
    (∀ b, (∀ d ∈ b, d = c ∨ d.seq < c.seq) → (cellsOf off n (e.putCell hold off c).cells).foldl laterCell b = some c) ∧
    ∀ o b, o ≠ off → (cellsOf o n (e.putCell hold off c).cells).foldl laterCell b = (cellsOf o n e.cells).foldl laterCell b := by
  have hf : UpTo c.seq (e.cells.filter fun x => !(x.1 == off && x.2.seq == c.seq)) := fun x hx => h x (List.mem_filter.mp hx).1
  have hi : UpTo c.seq (insertCell off c (e.cells.filter fun x => !(x.1 == off && x.2.seq == c.seq))) := by
    intro x hx
    rcases mem_insertCell.mp hx with rfl | hx
    · exact Nat.le_refl _
    · exact hf x hx
  constructor
  · intro b hb
    rw [PorchEntry.putCell, fold_pruneCells hold off n c.seq hn _ hi]
    have hd : ∀ d ∈ cellsOf off n (insertCell off c (e.cells.filter fun x => !(x.1 == off && x.2.seq == c.seq))), d = c ∨ d.seq < c.seq := by
      intro d hd
      obtain ⟨x, hx, rfl⟩ := List.mem_map.mp hd
      obtain ⟨hx, hp⟩ := List.mem_filter.mp hx
      simp only [Bool.and_eq_true, beq_iff_eq, decide_eq_true_eq] at hp
      rcases mem_insertCell.mp hx with rfl | hx
      · exact .inl rfl
      · obtain ⟨hx, hk⟩ := List.mem_filter.mp hx
        simp only [hp.1, beq_self_eq_true, Bool.true_and, Bool.not_eq_true', beq_eq_false_iff_ne] at hk
        exact .inr (Nat.lt_of_le_of_ne (h x hx) hk)
    have hm : c ∈ cellsOf off n (insertCell off c (e.cells.filter fun x => !(x.1 == off && x.2.seq == c.seq))) :=
      List.mem_map.mpr ⟨(off, c), List.mem_filter.mpr ⟨mem_insertCell.mpr (.inl rfl), by simp [hn]⟩, rfl⟩
    cases b with
    | none => exact latest_of_max hd hm
    | some d =>
      rw [← latest_of_max (cs := d :: cellsOf off n (insertCell off c (e.cells.filter fun x => !(x.1 == off && x.2.seq == c.seq)))) ?_
        (List.mem_cons_of_mem _ hm)]
      · rfl
      · intro x hx
        rcases List.mem_cons.mp hx with rfl | hx
        · exact hb x rfl
        · exact hd x hx
  · intro o b ho
    rw [PorchEntry.putCell, fold_pruneCells hold o n c.seq hn _ hi, cellsOf_insertCell_other ho]
    congr 1
    unfold cellsOf
    rw [List.filter_filter]
    congr 1
    apply List.filter_congr
    intro x _
    by_cases hx : x.1 = o
    · simp [hx, ho]
    · simp [hx]

theorem putCell_name (e : PorchEntry) (hold : List Nat) (off : Nat) (c : PorchCell) (s : State) (x : Space) (k : Nat) :
    s.mine x k (e.putCell hold off c) = s.mine x k e := rfl

/-! ### The cells of a byte in all entries -/

/-- The latest cell of a byte among the entries, after those in b. -/
def State.cellVal (s : State) (x : Space) (k o n : Nat) (es : List PorchEntry) (b : Option PorchCell) : Option PorchCell :=
  (es.flatMap fun e => if s.mine x k e then cellsOf o n e.cells else []).foldl laterCell b

theorem cellVal_cons (s : State) (x : Space) (k o n : Nat) (e : PorchEntry) (es : List PorchEntry) (b : Option PorchCell) :
    s.cellVal x k o n (e :: es) b = s.cellVal x k o n es ((if s.mine x k e then cellsOf o n e.cells else []).foldl laterCell b) := by
  unfold State.cellVal
  rw [List.flatMap_cons, List.foldl_append]

/-- A byte c at offset o of chunk k of space x enters every entry of the unit that names it. -/
def State.enter (s : State) (hold : List Nat) (x : Space) (k o : Nat) (c : PorchCell) (es : List PorchEntry) : List PorchEntry :=
  es.map fun e => if s.mine x k e then e.putCell hold o c else e

theorem enter_upTo {s : State} {hold : List Nat} {x : Space} {k o : Nat} {c : PorchCell} {es : List PorchEntry}
    (h : ∀ e ∈ es, UpTo c.seq e.cells) : ∀ e ∈ s.enter hold x k o c es, UpTo c.seq e.cells := by
  intro e he
  obtain ⟨d, hd, rfl⟩ := List.mem_map.mp he
  split
  · exact putCell_upTo (h d hd) hold o
  · exact h d hd

theorem mine_enter (s : State) (hold : List Nat) (x x' : Space) (k k' o : Nat) (c : PorchCell) (e : PorchEntry) :
    s.mine x' k' (if s.mine x k e then e.putCell hold o c else e) = s.mine x' k' e := by
  split
  · exact putCell_name e hold o c s x' k'
  · rfl

theorem enter_any (s : State) (hold : List Nat) (x x' : Space) (k k' o : Nat) (c : PorchCell) (es : List PorchEntry) :
    (s.enter hold x k o c es).any (s.mine x' k') = es.any (s.mine x' k') := by
  unfold State.enter
  rw [List.any_map]
  congr 1
  funext e
  exact mine_enter s hold x x' k k' o c e

theorem mine_same {s : State} {x x' : Space} {k k' : Nat} {e : PorchEntry} (h : s.mine x k e = true) (h' : s.mine x' k' e = true) :
    x = x' ∧ k = k' := by
  unfold State.mine at h h'
  simp only [Bool.and_eq_true, beq_iff_eq] at h h'
  exact ⟨h.1.1.2.symm.trans h'.1.1.2, h.1.2.symm.trans h'.1.2⟩

/-- Another byte keeps its value. -/
theorem cellVal_enter_other {s : State} {hold : List Nat} {x x' : Space} {k k' o o' n : Nat} {c : PorchCell} {es : List PorchEntry}
    (h : ∀ e ∈ es, UpTo c.seq e.cells) (hn : c.seq < n) (hne : ¬ (x' = x ∧ k' = k ∧ o' = o)) (b : Option PorchCell) :
    s.cellVal x' k' o' n (s.enter hold x k o c es) b = s.cellVal x' k' o' n es b := by
  induction es generalizing b with
  | nil => rfl
  | cons e es ih =>
    have hstep : s.enter hold x k o c (e :: es) = (if s.mine x k e then e.putCell hold o c else e) :: s.enter hold x k o c es := rfl
    rw [hstep, cellVal_cons, cellVal_cons, ih (fun d hd => h d (List.mem_cons_of_mem _ hd)), mine_enter]
    congr 1
    by_cases hm' : s.mine x' k' e = true
    · rw [if_pos hm', if_pos hm']
      by_cases hm : s.mine x k e = true
      · rw [if_pos hm]
        obtain ⟨rfl, rfl⟩ := mine_same hm hm'
        exact (putCell_cells (h e (by simp)) hold o n hn).2 o' b (fun e => hne ⟨rfl, rfl, e⟩)
      · rw [if_neg hm]
    · rw [if_neg hm', if_neg hm']

/-- The byte itself is the one that has entered. -/
theorem cellVal_enter_self {s : State} {hold : List Nat} {x : Space} {k o n : Nat} {c : PorchCell} {es : List PorchEntry}
    (h : ∀ e ∈ es, UpTo c.seq e.cells) (hn : c.seq < n) (hany : es.any (s.mine x k) = true) :
    s.cellVal x k o n (s.enter hold x k o c es) none = some c := by
  have aux : ∀ (es : List PorchEntry) (b : Option PorchCell), (∀ e ∈ es, UpTo c.seq e.cells) → (∀ d ∈ b, d = c ∨ d.seq < c.seq) →
      (b = some c ∨ es.any (s.mine x k) = true) → s.cellVal x k o n (s.enter hold x k o c es) b = some c := by
    intro es
    induction es with
    | nil => intro b _ _ h2; simpa [State.enter, State.cellVal] using h2
    | cons e es ih =>
      intro b h1 hb h2
      have hstep : s.enter hold x k o c (e :: es) = (if s.mine x k e then e.putCell hold o c else e) :: s.enter hold x k o c es := rfl
      rw [hstep, cellVal_cons, mine_enter]
      by_cases hm : s.mine x k e = true
      · rw [if_pos hm, if_pos hm, (putCell_cells (h1 e (by simp)) hold o n hn).1 b hb]
        exact ih _ (fun d hd => h1 d (List.mem_cons_of_mem _ hd)) (by simp) (.inl rfl)
      · rw [if_neg hm]
        refine ih _ (fun d hd => h1 d (List.mem_cons_of_mem _ hd)) hb ?_
        rcases h2 with h2 | h2
        · exact .inl h2
        · rw [List.any_cons, Bool.or_eq_true] at h2
          exact .inr (h2.resolve_left hm)
  exact aux es none h (by simp) (.inr hany)

/-! ### Entering the bytes of a store -/

/-- The bytes of a range enter one after the other. -/
def State.enterAll (s : State) (hold : List Nat) (x : Space) (a : Nat) (c : Nat → PorchCell) (is : List Nat) (es : List PorchEntry) : List PorchEntry :=
  is.foldl (fun es i => s.enter hold x ((a + i) / 64) ((a + i) % 64) (c i) es) es

theorem enterAll_spec (s : State) (hold : List Nat) (x : Space) (a seq n : Nat) (hseq : seq < n) (c : Nat → PorchCell) (hc : ∀ i, (c i).seq = seq)
    (is : List Nat) (hn : is.Nodup) (es : List PorchEntry) (h : ∀ e ∈ es, UpTo seq e.cells) (hany : ∀ i ∈ is, es.any (s.mine x ((a + i) / 64)) = true) :
    (∀ i ∈ is, s.cellVal x ((a + i) / 64) ((a + i) % 64) n (s.enterAll hold x a c is es) none = some (c i)) ∧
    (∀ x' y b, (x' = x → ∀ i ∈ is, y ≠ a + i) →
      s.cellVal x' (y / 64) (y % 64) n (s.enterAll hold x a c is es) b = s.cellVal x' (y / 64) (y % 64) n es b) := by
  induction is generalizing es with
  | nil => exact ⟨by simp, fun _ _ _ _ => rfl⟩
  | cons i is ih =>
    obtain ⟨hi, hn⟩ := List.nodup_cons.mp hn
    have hup : ∀ e ∈ es, UpTo (c i).seq e.cells := by rw [hc]; exact h
    have hlt : (c i).seq < n := by rw [hc]; exact hseq
    have h' : ∀ e ∈ s.enter hold x ((a + i) / 64) ((a + i) % 64) (c i) es, UpTo seq e.cells := by
      have := enter_upTo (s := s) (hold := hold) (x := x) (k := (a + i) / 64) (o := (a + i) % 64) hup
      rwa [hc] at this
    have hany' : ∀ j ∈ is, (s.enter hold x ((a + i) / 64) ((a + i) % 64) (c i) es).any (s.mine x ((a + j) / 64)) = true := by
      intro j hj
      rw [enter_any]
      exact hany j (List.mem_cons_of_mem _ hj)
    obtain ⟨h1, h2⟩ := ih hn _ h' hany'
    have hstep : s.enterAll hold x a c (i :: is) es = s.enterAll hold x a c is (s.enter hold x ((a + i) / 64) ((a + i) % 64) (c i) es) := rfl
    constructor
    · intro j hj
      rw [hstep]
      rcases List.mem_cons.mp hj with rfl | hj
      · rw [h2 x (a + j) none (fun _ m hm => by
          intro e
          have : j = m := by omega
          subst this
          exact hi hm)]
        exact cellVal_enter_self hup hlt (hany j (by simp))
      · exact h1 j hj
    · intro x' y b hy
      rw [hstep, h2 x' y b (fun e m hm => hy e m (List.mem_cons_of_mem _ hm)), cellVal_enter_other hup hlt]
      rintro ⟨rfl, hk, ho⟩
      refine hy rfl i (by simp) ?_
      have := Nat.div_add_mod y 64
      have := Nat.div_add_mod (a + i) 64
      omega

/-! ### The unit's own value of a byte -/

/-- The value by virtual address at a place in program order is that of the latest earlier cell of the byte (R94). -/
theorem porchByte_eq {s : State} (hb : s.core.fe.byPhys = false) (spc : Space) (y key n : Nat) :
    s.porchByte spc y key n =
      (s.cellVal (s.porchLoc spc y).1 ((s.porchLoc spc y).2 / 64) ((s.porchLoc spc y).2 % 64) n s.core.lsu.porch none).map (·.val) := by
  unfold State.porchByte State.cellVal
  dsimp only
  congr 2
  refine congrArg List.flatten (List.map_congr_left fun e _ => ?_)
  by_cases hu : s.ownEntry e = true
  · simp only [hu, hb, Bool.false_and, Bool.or_false, Bool.not_true, Bool.false_eq_true, if_false, cellsOf]
    by_cases hm : s.mine (s.porchLoc spc y).1 ((s.porchLoc spc y).2 / 64) e = true
    · simp only [hm, Bool.true_and, if_true]
      congr 1
      apply List.filter_congr
      intro x _
      exact Bool.and_comm _ _
    · simp only [hm, Bool.false_and, Bool.and_false, Bool.false_eq_true, if_false, List.filter_false, List.map_nil]
  · have hm : s.mine (s.porchLoc spc y).1 ((s.porchLoc spc y).2 / 64) e = false := by
      simp [State.mine, hu]
    simp [hu, hm]

/-- Entries are there for every chunk of a reserved range, and no cell is new. -/
theorem porchReserve_spec (s : State) (spc : Space) (a n : Nat) :
    let t := s.porchReserve spc a n
    let x := s.porchLoc spc a
    (∀ i < n, t.core.lsu.porch.any (s.mine x.1 ((x.2 + i) / 64)) = true) ∧
    (∀ x' k o m b, s.cellVal x' k o m t.core.lsu.porch b = s.cellVal x' k o m s.core.lsu.porch b) ∧
    (∀ seq, (∀ e ∈ s.core.lsu.porch, UpTo seq e.cells) → ∀ e ∈ t.core.lsu.porch, UpTo seq e.cells) := by
  intro t x
  have ht : t.core.lsu.porch = s.core.lsu.porch ++ (s.porchNeed spc a n).map fun k =>
    (⟨s.unitRef, (s.pkg.counter s.uctr).job, s.bindSeq, x.1, k, s.porchVault x.1, s.core.idx, []⟩ : PorchEntry) := rfl
  rw [ht]
  refine ⟨fun i hi => ?_, fun x' k o m b => ?_, fun seq h e he => ?_⟩
  · rw [List.any_append, Bool.or_eq_true]
    by_cases hp : s.core.lsu.porch.any (s.mine x.1 ((x.2 + i) / 64)) = true
    · exact .inl hp
    · right
      rw [List.any_map, List.any_eq_true]
      refine ⟨(x.2 + i) / 64, ?_, ?_⟩
      · unfold State.porchNeed
        refine List.mem_filter.mpr ⟨?_, (Bool.not_eq_true' _).mpr (Bool.eq_false_iff.mpr hp)⟩
        unfold chunksOf
        refine List.mem_map.mpr ⟨(x.2 + i) / 64 - x.2 / 64, List.mem_range.mpr ?_, ?_⟩
        · show _ < (x.2 + n - 1) / 64 - x.2 / 64 + 1
          have : (x.2 + i) / 64 ≤ (x.2 + n - 1) / 64 := Nat.div_le_div_right (by omega)
          omega
        · show x.2 / 64 + _ = _
          have : x.2 / 64 ≤ (x.2 + i) / 64 := Nat.div_le_div_right (by omega)
          omega
      · simp [State.mine, State.ownEntry]
  · unfold State.cellVal
    rw [List.flatMap_append, List.foldl_append]
    have : ((s.porchNeed spc a n).map fun k' =>
        (⟨s.unitRef, (s.pkg.counter s.uctr).job, s.bindSeq, x.1, k', s.porchVault x.1, s.core.idx, []⟩ : PorchEntry)).flatMap
          (fun e => if s.mine x' k e then cellsOf o m e.cells else []) = [] := by
      rw [List.flatMap_eq_nil_iff]
      intro e he
      obtain ⟨k', _, rfl⟩ := List.mem_map.mp he
      split <;> rfl
    rw [this, List.foldl_nil]
  · rcases List.mem_append.mp he with he | he
    · exact h e he
    · obtain ⟨k, _, rfl⟩ := List.mem_map.mp he
      intro c hc
      simp at hc

/-- A store's bytes enter the Porch: a later access of the unit reads them back, and every other byte of it as before (R93, R94). -/
theorem porchPut_spec (s : State) (spc : Space) (a : Nat) (ks : List Nat) (bs : List Byte) (seq n : Nat) (hn : seq < n)
    (hup : ∀ e ∈ s.core.lsu.porch, UpTo seq e.cells) :
    let t := s.porchPut spc a ks bs seq
    let x := s.porchLoc spc a
    (∀ i < bs.length, s.cellVal x.1 ((x.2 + i) / 64) ((x.2 + i) % 64) n t.core.lsu.porch none = some ⟨bs.getD i 0, seq, ks.getD i 0⟩) ∧
    (∀ x' y b, (x' = x.1 → ∀ i < bs.length, y ≠ x.2 + i) →
      s.cellVal x' (y / 64) (y % 64) n t.core.lsu.porch b = s.cellVal x' (y / 64) (y % 64) n s.core.lsu.porch b) := by
  intro t x
  obtain ⟨h1, h2, h3⟩ := porchReserve_spec s spc a bs.length
  have ht : t.core.lsu.porch = s.enterAll s.heldReads x.1 x.2 (fun i => ⟨bs.getD i 0, seq, ks.getD i 0⟩) (List.range bs.length)
      (s.porchReserve spc a bs.length).core.lsu.porch := rfl
  obtain ⟨k1, k2⟩ := enterAll_spec s s.heldReads x.1 x.2 seq n hn (fun i => ⟨bs.getD i 0, seq, ks.getD i 0⟩) (fun _ => rfl) (List.range bs.length)
    List.nodup_range _ (h3 seq hup) (fun i hi => h1 i (List.mem_range.mp hi))
  rw [ht]
  refine ⟨fun i hi => k1 i (List.mem_range.mpr hi), fun x' y b hy => ?_⟩
  rw [k2 x' y b (fun e i hi => hy e i (List.mem_range.mp hi))]
  exact h2 x' (y / 64) (y % 64) n b

/-- The place of a byte in its space, under the name by which the Porch knows it, follows that of the first byte of its access. -/
theorem porchLoc_add {s : State} {spc : Space} {a n i : Nat} (hw : s.InWindow spc a n) (hi : i < n) :
    s.porchLoc spc (a + i) = ((s.porchLoc spc a).1, (s.porchLoc spc a).2 + i) := by
  by_cases hr : spc = .ra
  · subst hr
    have hue : s.userEnd ≤ 0x1800000 := Nat.sub_le _ _
    have hj (j : Nat) (hj : j < n) : fld (a + j) 0 25 < 0x1800000 := by
      have := hw j hj
      simp only [State.inWindow, Bool.and_eq_true, decide_eq_true_eq] at this
      omega
    have hfit : a % 2 ^ 25 + i < 2 ^ 25 := by
      by_contra hc
      have := hj (2 ^ 25 - 1 - a % 2 ^ 25) (by omega)
      simp only [fld, pow_zero, Nat.div_one] at this
      omega
    have e1 : fld (a + i) 32 8 = fld a 32 8 := by unfold fld; omega
    have e2 : fld (a + i) 0 25 = fld a 0 25 + i := by unfold fld; omega
    unfold State.porchLoc
    rw [e1, e2]
    split <;> rfl
  · unfold State.porchLoc
    simp [hr]

end Sys2Proof.Machine
end

