-- ==== Sys2Proof/Laws/XPipe.lean ====
section
/-! SUPPORT. What issue on the X-pipe does, said once: when its gate is open, what the pops take, and what the results in flight are. -/

namespace Sys2Proof.Machine

/-! ### The gate -/

theorem State.itemGate_go {s : State} {srcs : List XOp} {d : Option XDst} (h : s.CanIssueX srcs d) {q : Fin 8} {j : Nat}
    (hj : j < popCount srcs q ∨ (j = 0 ∧ XOp.peek q ∈ srcs)) : s.itemGate q j = .go := by
  have hp : s.present q j = true := by
    unfold State.present presentAt
    have hi (k : Nat) (hk : k ≤ j) : ∃ i, s.core.qs.lq[q][k]? = some i ∧ i.data ≠ none ∧ i.arrived < s.core.fe.cycle ∧
        (s.strict = true → i.ready.getD 0 ≤ s.core.fe.cycle) := by
      apply h.items q k
      rcases hj with hj | ⟨rfl, hj⟩
      · left; omega
      · right; exact ⟨by omega, hj⟩
    obtain ⟨i, h1, -⟩ := hi j (le_refl j)
    have hlen := (List.getElem?_eq_some_iff.mp h1).1
    rw [Bool.and_eq_true, decide_eq_true_eq, List.all_eq_true]
    refine ⟨hlen, fun x hx => ?_⟩
    obtain ⟨k, hk, rfl⟩ := List.getElem_of_mem hx
    rw [List.length_take] at hk
    obtain ⟨i, a, b, c, e⟩ := hi k (by omega)
    rw [List.getElem_take]
    obtain ⟨hk2, rfl⟩ := List.getElem?_eq_some_iff.mp a
    simp only [Bool.and_eq_true, Bool.or_eq_true, decide_eq_true_eq, Bool.not_eq_true']
    refine ⟨⟨Option.isSome_iff_ne_none.mpr b, c⟩, ?_⟩
    cases hs : s.strict with
    | false => exact .inl rfl
    | true => exact .inr (e hs)
  unfold State.itemGate
  rw [if_pos hp]

theorem State.xGate_of_canIssueX {s : State} {srcs : List XOp} {d : Option XDst} (h : s.CanIssueX srcs d) : s.xGate srcs d = .go := by
  have h1 : s.srcGate srcs = .go := by
    unfold State.srcGate
    extract_lets one
    have : firstGate ((List.finRange 8).flatMap one) = .go := by
      rw [firstGate_go_iff]
      intro g hg
      obtain ⟨q, -, hg⟩ := List.mem_flatMap.mp hg
      obtain ⟨j, hj, rfl⟩ := List.mem_map.mp hg
      apply State.itemGate_go h
      rw [List.mem_range] at hj
      split at hj
      · rename_i hc
        rw [List.contains_iff_mem] at hc
        by_cases hlt : j < popCount srcs q
        · exact .inl hlt
        · exact .inr ⟨by omega, hc⟩
      · exact .inl hj
    rw [this, if_pos h.toks]
  have h2 : s.dstGate d = .go := by
    unfold State.dstGate
    split
    · rw [if_pos (h.room _ rfl)]
    · rfl
  unfold State.xGate
  rw [h1, h2]
  simp only [firstGate]
  rw [if_neg]
  rw [Bool.and_eq_true]
  rintro ⟨hx, hb⟩
  unfold State.xBlocked at hb
  rw [List.any_eq_true] at hb
  obtain ⟨r, hr, hb⟩ := hb
  rw [Bool.and_eq_true, decide_eq_true_eq, List.any_eq_true] at hb
  obtain ⟨hd, k, hk, hf⟩ := hb
  have := h.clear hx r hr hd k hk
  unfold State.hatchFull at hf
  rw [decide_eq_true_eq] at hf
  omega

/-! ### Issue -/

/-- The state in which the results are sent: the X-cycle has begun, and the popped items are gone. -/
def State.afterPops (u : State) (srcs : List XOp) : State := ((u.takeItems srcs).fe fun f => { f with xdone := true }).progress

theorem State.xIssue_of_canIssueX {s : State} {srcs : List XOp} {d : Option XDst} (h : s.CanIssueX srcs d) (k : State → State → List Opd → Out) :
    s.xIssue srcs d k = k s.startX (s.startX.afterPops srcs) (s.startX.readAll [] srcs) := by
  unfold State.xIssue
  rw [xGate_of_canIssueX h]
  rfl

theorem popToks_spec (s : State) (hs : List (Fin 16)) :
    s.popToks hs = s.qs (fun q => { q with h := (s.popToks hs).core.qs.h }) ∧
      ∀ h : Fin 16, (s.popToks hs).core.qs.h[h] = ⟨s.core.qs.h[h].bind, s.core.qs.h[h].toks.drop (hs.count h)⟩ := by
  induction hs generalizing s with
  | nil => exact ⟨rfl, fun h => by simp [State.popToks]⟩
  | cons a l ih =>
    have hstep : s.popToks (a :: l) = (s.popTok a).popToks l := rfl
    obtain ⟨h1, h2⟩ := ih (s.popTok a)
    rw [hstep]
    refine ⟨?_, fun h => ?_⟩
    · rw [h1]; rfl
    · rw [h2 h]
      have : (s.popTok a).core.qs.h[h] = if h = a then { s.core.qs.h[a] with toks := s.core.qs.h[a].toks.drop 1 } else s.core.qs.h[h] := by
        show (s.core.qs.h.set a.val _)[h] = _
        rw [Vector.getElem_set_fin]
      rw [this, List.count_cons]
      by_cases ha : h = a
      · subst ha; simp [Nat.add_comm]
      · have ha' : a ≠ h := fun e => ha e.symm
        simp [ha, ha']

theorem vmap_get {α : Type} {n : Nat} (f : Fin n → α → α) (v : Vector α n) (i : Fin n) : (vmap f v)[i] = f i v[i] := by
  have aux : ∀ (l : List (Fin n)) (v : Vector α n), l.Nodup →
      (l.foldl (fun v i => v.set i.val (f i v[i]) i.isLt) v)[i] = if i ∈ l then f i v[i] else v[i] := by
    intro l
    induction l with
    | nil => intro v _; simp
    | cons a l ih =>
      intro v hn
      rw [List.nodup_cons] at hn
      rw [List.foldl_cons, ih _ hn.2, Vector.getElem_set_fin]
      by_cases ha : i = a
      · subst ha; simp [hn.1]
      · simp [ha]
  have := aux (List.finRange n) v (List.nodup_finRange n)
  rw [if_pos (List.mem_finRange i)] at this
  exact this

theorem State.sent_nil (u : State) (srcs : List XOp) : u.SentX srcs [] (u.afterPops srcs) := by
  have h := popToks_spec (u.qs fun x => { x with lq := vmap (fun q l => l.drop (popCount srcs q)) x.lq }) (u.takenToks srcs)
  have ht : u.takeItems srcs = (u.qs fun x => { x with lq := vmap (fun q l => l.drop (popCount srcs q)) x.lq }).popToks (u.takenToks srcs) := rfl
  unfold State.afterPops
  rw [ht]
  generalize (u.qs fun x => { x with lq := vmap (fun q l => l.drop (popCount srcs q)) x.lq }).popToks (u.takenToks srcs) = w at *
  obtain ⟨h1, h2⟩ := h
  generalize w.core.qs.h = hh at h1 h2
  subst h1
  refine ⟨by simp [State.flights], ?_, ?_, by simp, by simp, by simp [State.sqWrites], by simp, by simp, by simp, by simp, by simp, ?_⟩
  · intro q
    simp only [State.progress_eq, State.fe_core_qs, State.qs_core_qs]
    exact vmap_get _ _ q
  · intro h
    simpa using h2 h
  · constructor <;> simp

/-! ### Sending -/

/-- What `send` reads of the state before it. -/
structure State.SendsAs (u t : State) : Prop where
  xnow : t.core.fe.xnow = u.core.fe.xnow
  cur : t.core.fe.cur = u.core.fe.cur

theorem State.SentX.sendsAs {u t : State} {srcs : List XOp} {rs : List Result} (h : u.SentX srcs rs t) : u.SendsAs t :=
  ⟨by rw [h.fe], by rw [h.fe]⟩

theorem State.SentX.ord {u t : State} {srcs : List XOp} {rs : List Result} (h : u.SentX srcs rs t) :
    t.core.fe.sq0.length = u.core.fe.sq0.length + (u.sqWrites rs).length := by
  rw [h.fe]; simp

theorem State.sqWrites_reg (u : State) (rs : List Result) (r : Result) (h : ∀ q, r.1 ≠ .sq q) : u.sqWrites (rs ++ [r]) = u.sqWrites rs := by
  unfold State.sqWrites
  rw [List.filterMap_append, List.filterMap_cons]
  split
  · simp
  · rename_i hr; split at hr
    · rename_i q e; exact absurd e (h q)
    · cases hr

theorem State.sqWrites_sq (u : State) (rs : List Result) (q : Fin 4) (x : Vec × Pred × BitVec 5) :
    u.sqWrites (rs ++ [(.sq q, x)]) = u.sqWrites rs ++ [(u.core.fe.cur.seq, q)] := by
  unfold State.sqWrites
  rw [List.filterMap_append]
  rfl

theorem State.flights_append (u : State) (before rs : List Result) (r : Result) :
    u.flights before (rs ++ [r]) = u.flights before rs ++ [u.flight (before ++ rs) r] := by
  induction rs generalizing before with
  | nil => simp [State.flights]
  | cons x rs ih => simp [State.flights, ih]

/-- A result to a register or a place in the Cupboard. -/
theorem State.SentX.send {u t : State} {srcs : List XOp} {rs : List Result} (h : u.SentX srcs rs t) {d : FlyDst} (hd : ∀ q, d ≠ .sq q)
    (val : Nat) (mask : Pred) (fl : BitVec 5) : u.SentX srcs (rs ++ [(d, BitVec.ofNat 4096 val, mask, fl)]) (t.send d val mask fl) := by
  have hs : t.send d val mask fl = t.regs fun e => { e with fly := e.fly ++ [u.flight rs (d, BitVec.ofNat 4096 val, mask, fl)] } := by
    unfold State.send State.flight
    cases d with
    | sq q => exact absurd rfl (hd q)
    | _ => simp only [h.sendsAs.xnow, h.sendsAs.cur, h.ord, List.map_nil]
  rw [hs]
  refine ⟨?_, h.lq, h.toks, ?_, h.qs, by rw [u.sqWrites_reg rs _ hd]; exact h.fe, h.sys, h.lsu, h.eng, h.mems, h.mem, ⟨h.rest.idx, h.rest.resident, h.rest.shadow, h.rest.slot,
    h.rest.lhwm, h.rest.link, h.rest.circ, h.rest.resh, h.rest.rsLast, h.rest.vuse, h.rest.prevJob, h.rest.planeLog, h.rest.replayAt, h.rest.others,
    h.rest.pkg, h.rest.agenda, h.rest.free⟩⟩
  · simp only [State.regs_core_regs, h.regs, State.flights_append, List.append_assoc, List.nil_append]
  · intro q
    have := h.spush q
    simp only [State.regs_core_qs, this]
    congr 1
    refine propext ⟨?_, ?_⟩
    · rintro ⟨r, hr, he⟩; exact ⟨r, List.mem_append_left _ hr, he⟩
    · rintro ⟨r, hr, he⟩
      rcases List.mem_append.mp hr with hr | hr
      · exact ⟨r, hr, he⟩
      · rw [List.mem_singleton] at hr
        subst hr
        exact absurd he (hd q)

/-- An item of a store queue, when every earlier result of the instruction goes there too. -/
theorem State.SentX.sendSq {u t : State} {srcs : List XOp} {rs : List Result} (h : u.SentX srcs rs t) {q : Fin 4} (hr : ∀ r ∈ rs, r.1 = .sq q)
    (val : Nat) (mask : Pred) (fl : BitVec 5) :
    u.SentX srcs (rs ++ [(.sq q, BitVec.ofNat 4096 val, mask, fl)]) (t.send (.sq q) val mask fl) := by
  have hsp := h.spush q
  have hfl : (t.core.qs.spush[q].filter fun p => p.2 < u.core.fe.cur.seq).map (·.1) = if rs.isEmpty then u.duePushes q else [] := by
    cases rs with
    | nil => rw [if_neg (by simp)] at hsp; rw [hsp]; rfl
    | cons r rs =>
      rw [if_pos ⟨r, by simp, hr r (by simp)⟩] at hsp
      rw [hsp, List.filter_filter]
      simp
  have hkeep : t.core.qs.spush[q].filter (fun p => !(p.2 < u.core.fe.cur.seq)) = u.core.qs.spush[q].filter (fun p => !(p.2 < u.core.fe.cur.seq)) := by
    rw [hsp]
    split
    · rw [List.filter_filter]; simp
    · rfl
  have hs : t.send (.sq q) val mask fl = (((t.qs fun x => { x with spush := x.spush.set q.val (u.core.qs.spush[q].filter fun p => !(p.2 < u.core.fe.cur.seq)) }).fe
      fun f => { f with sq0 := f.sq0 ++ [(u.core.fe.cur.seq, q)] }).regs
      fun e => { e with fly := e.fly ++ [u.flight rs (.sq q, BitVec.ofNat 4096 val, mask, fl)] }) := by
    unfold State.send State.flight
    rw [← hkeep, ← h.sendsAs.xnow]
    simp only [← h.sendsAs.cur] at hfl ⊢
    simp only [hfl, h.ord]
    rfl
  rw [hs]
  refine ⟨?_, ?_, ?_, ?_, ?_, ?_, h.sys, h.lsu, h.eng, h.mems, h.mem, ⟨h.rest.idx, h.rest.resident, h.rest.shadow, h.rest.slot,
    h.rest.lhwm, h.rest.link, h.rest.circ, h.rest.resh, h.rest.rsLast, h.rest.vuse, h.rest.prevJob, h.rest.planeLog, h.rest.replayAt, h.rest.others,
    h.rest.pkg, h.rest.agenda, h.rest.free⟩⟩
  · simp only [State.regs_core_regs, State.fe_core_regs, State.qs_core_regs, h.regs, State.flights_append, List.append_assoc, List.nil_append]
  · exact h.lq
  · exact h.toks
  · intro p
    have hp := h.spush p
    simp only [State.regs_core_qs, State.fe_core_qs, State.qs_core_qs]
    show (t.core.qs.spush.set q.val _)[p] = _
    rw [Vector.getElem_set_fin]
    by_cases hpq : p = q
    · subst hpq
      rw [if_pos rfl, if_pos ⟨_, List.mem_append_right _ (List.mem_singleton_self _), rfl⟩]
    · rw [if_neg hpq, hp]
      congr 1
      refine propext ⟨?_, ?_⟩
      · rintro ⟨r, h1, h2⟩; exact ⟨r, List.mem_append_left _ h1, h2⟩
      · rintro ⟨r, h1, h2⟩
        rcases List.mem_append.mp h1 with h1 | h1
        · exact ⟨r, h1, h2⟩
        · rw [List.mem_singleton] at h1
          subst h1
          injection h2 with h2
          exact absurd h2.symm hpq
  · have := h.qs
    simp only [State.regs_core_qs, State.fe_core_qs, State.qs_core_qs]
    rw [this]
  · have := h.fe
    simp only [State.regs_core_fe, State.fe_core_fe, State.qs_core_fe]
    rw [this, State.sqWrites_sq, ← List.append_assoc]

theorem State.rb_of_sent {u t : State} {srcs : List XOp} {rs : List Result} (h : u.SentX srcs rs t) : t.vDst = u.vDst := by
  unfold State.vDst State.phys State.rb
  rw [h.sys]

theorem State.vDst_ne_sq (u : State) {d : XDst} (hd : ∀ q, d ≠ .sq q) (k : Nat) (q : Fin 4) : u.vDst d k ≠ .sq q := by
  cases d with
  | sq q => exact absurd rfl (hd q)
  | _ => simp [State.vDst]

/-- The registers of a vector-class result are sent in order. -/
theorem State.sendOut_sent {u t : State} {srcs : List XOp} (h : u.SentX srcs [] t) (d : XDst) (o : XOut) :
    u.SentX srcs (u.results d o) (t.sendOut d o) := by
  unfold State.sendOut State.results
  have aux : ∀ (l : List ((Nat × Pred) × Nat)) (rs : List Result) (t : State), u.SentX srcs rs t → (∀ q, d = .sq q → ∀ r ∈ rs, r.1 = .sq q) →
      u.SentX srcs (rs ++ l.map fun r => (u.vDst d r.2, BitVec.ofNat 4096 r.1.1, r.1.2, if r.2 = 0 then o.fl else 0))
        (l.foldl (fun s r =>
          let fl := if r.2 = 0 then o.fl else 0
          s.send (s.vDst d r.2) r.1.1 r.1.2 fl) t) := by
    intro l
    induction l with
    | nil => intro rs t h _; simpa using h
    | cons r l ih =>
      intro rs t h hq
      rw [List.foldl_cons, List.map_cons, ← List.singleton_append, ← List.append_assoc]
      apply ih
      · cases d with
        | sq q => exact h.sendSq (hq q rfl) _ _ _
        | v n => dsimp only; rw [State.rb_of_sent h]; exact h.send (u.vDst_ne_sq (by simp) _) _ _ _
        | s n => dsimp only; rw [State.rb_of_sent h]; exact h.send (u.vDst_ne_sq (by simp) _) _ _ _
      · intro q hd x hx
        rcases List.mem_append.mp hx with hx | hx
        · exact hq q hd x hx
        · rw [List.mem_singleton] at hx; subst hx; subst hd; rfl
  exact aux (o.regs.zip (List.range o.regs.length)) [] t h (by simp)

/-- A vector-class instruction that only computes. -/
theorem State.xVec_sent {s : State} {srcs : List XOp} {d : XDst} (h : s.CanIssueX srcs (some d)) (g : Fin 16) (f : State → List Opd → Pred → XOut) :
    ∃ t, s.xVec srcs g d f = .next t ∧
      s.startX.SentX srcs (s.startX.results d (f s.startX (s.startX.readAll [] srcs) (s.startX.p g))) t := by
  unfold State.xVec
  rw [State.xIssue_of_canIssueX h]
  exact ⟨_, rfl, State.sendOut_sent (s.startX.sent_nil srcs) d _⟩

/-- A vector-class instruction that may fault: no fault of its elements. -/
theorem State.xVecTry_ok {s : State} {srcs : List XOp} {d : XDst} (h : s.CanIssueX srcs (some d)) (g : Fin 16)
    (f : State → List Opd → Pred → Except XFault XOut) {o : XOut} (ho : f s.startX (s.startX.readAll [] srcs) (s.startX.p g) = .ok o) :
    ∃ t, s.xVecTry srcs g d f = .next t ∧ s.startX.SentX srcs (s.startX.results d o) t := by
  unfold State.xVecTry
  rw [State.xIssue_of_canIssueX h]
  simp only [ho]
  exact ⟨_, rfl, State.sendOut_sent (s.startX.sent_nil srcs) d _⟩

theorem State.xVecTry_error {s : State} {srcs : List XOp} {d : XDst} (h : s.CanIssueX srcs (some d)) (g : Fin 16)
    (f : State → List Opd → Pred → Except XFault XOut) {e : XFault} (ho : f s.startX (s.startX.readAll [] srcs) (s.startX.p g) = .error e) :
    s.xVecTry srcs g d f = s.startX.xTrap e.cause := by
  unfold State.xVecTry
  rw [State.xIssue_of_canIssueX h]
  simp only [ho]

theorem State.SentX.sendScalar {u t : State} {srcs : List XOp} (h : u.SentX srcs [] t) (d : XDst) (g : Pred) (r : Rd) :
    u.SentX srcs [u.scalarResult d g r.bits r.fl] (t.sendScalar d g r) := by
  unfold State.sendScalar State.scalarResult
  cases d with
  | sq q => exact h.sendSq (by simp) _ _ _
  | v n => dsimp only; rw [State.rb_of_sent h]; exact h.send (u.vDst_ne_sq (by simp) _) _ _ _
  | s n => dsimp only; rw [State.rb_of_sent h]; exact h.send (u.vDst_ne_sq (by simp) _) _ _ _

theorem State.SentX.sendReduced {u t : State} {srcs : List XOp} (h : u.SentX srcs [] t) (d : XDst) (w : Nat) (r : Rd) :
    u.SentX srcs [u.reducedResult d w r.bits r.fl] (t.sendReduced d w r) := by
  unfold State.sendReduced State.reducedResult
  cases d with
  | sq q => exact h.sendSq (by simp) _ _ _
  | v n => dsimp only; rw [State.rb_of_sent h]; exact h.send (u.vDst_ne_sq (by simp) _) _ _ _
  | s n => dsimp only; exact h.send (by simp) _ _ _

/-! ### Traps at issue -/

theorem State.CanTrap.startX {s : State} (h : s.CanTrap) : s.startX.CanTrap := by
  have := landed_startX s
  exact ⟨by rw [this.fe]; exact h.user, by rw [this.sys]; exact h.vec⟩

/-- What `trapAt` does for the X-pipe: nothing is popped, and nothing is written but what was due. -/
theorem trapAt_took {s : State} (h : s.CanTrap) (c : Cause) (w : Word) :
    s.TookTrap 2 c ((s.core.fe.kernel.map (·.pc)).getD s.core.fe.cur.pc) (s.trapAt 2 c w []) ∧ (s.trapAt 2 c w []).core.qs = s.core.qs ∧
      (s.trapAt 2 c w []).core.regs.v = s.core.regs.v ∧ (s.trapAt 2 c w []).core.regs.s = s.core.regs.s ∧
      (s.trapAt 2 c w []).core.regs.p = s.core.regs.p := by
  generalize hx : (if s.core.fe.kernel.isSome then s.core.fe.xq else s.core.fe.cur :: s.core.fe.xq) = xq'
  have hs : s.trapAt 2 c w [] = (s.fe fun f => { f with xq := xq' }).takeTrap ⟨2, c, w, (s.core.fe.kernel.map (·.pc)).getD s.core.fe.cur.pc,
      ((s.core.fe.aq.head?.map (·.pc)).getD ((s.core.fe.kernel.map (·.pc)).getD s.core.fe.cur.pc)), s.core.fe.cur.upc, s.core.fe.cur.stk,
      s.core.fe.cur.paired, 0, [], none⟩ := by rw [← hx]; rfl
  rw [hs]
  have ht := takeTrap_took (s := s.fe fun f => { f with xq := xq' }) ⟨2, c, w, (s.core.fe.kernel.map (·.pc)).getD s.core.fe.cur.pc,
      ((s.core.fe.aq.head?.map (·.pc)).getD ((s.core.fe.kernel.map (·.pc)).getD s.core.fe.cur.pc)), s.core.fe.cur.upc, s.core.fe.cur.stk,
      s.core.fe.cur.paired, 0, [], none⟩ (by decide : 2 < 8) h.user h.vec
  refine ⟨⟨ht.mode, ht.fetch, ht.code, ht.pipe, ht.pc, ht.aq, ht.xq, ht.regs, ht.mem, ht.sp⟩, ?_⟩
  unfold State.takeTrap
  simp only [bne_self_eq_false, Bool.false_and, Bool.false_eq_true, if_false, State.fe_core_fe, h.user]
  rw [if_neg (by show ¬ (!wbit s.core.sys.trapVec 0) = true; rw [h.vec]; simp)]
  exact ⟨rfl, rfl, rfl, rfl⟩

theorem xTrap_took {s : State} (h : s.CanTrap) (c : Cause) :
    ∃ t, s.xTrap c = .next t ∧ s.TookTrap 2 c ((s.core.fe.kernel.map (·.pc)).getD s.core.fe.cur.pc) t ∧ t.core.qs = s.core.qs ∧
      t.core.regs.v = s.core.regs.v ∧ t.core.regs.s = s.core.regs.s ∧ t.core.regs.p = s.core.regs.p := by
  obtain ⟨ht, hq⟩ := trapAt_took (s := s.fresh.2) ⟨h.user, h.vec⟩ c s.fresh.1
  exact ⟨_, rfl, ⟨ht.mode, ht.fetch, ht.code, ht.pipe, ht.pc, ht.aq, ht.xq, ht.regs, ht.mem, ht.sp⟩, hq⟩

theorem State.startX_mode (s : State) (rm : RM) : s.startX.mode rm = s.mode rm := by
  unfold State.mode
  rw [(landed_startX s).sys]

theorem State.startX_phys (s : State) : s.startX.phys = s.phys := by
  funext n
  unfold State.phys State.rb
  rw [(landed_startX s).sys]

end Sys2Proof.Machine
end

