-- ==== Sys2Proof/Tests/Slice0.lean ====
section
/-! SUPPORT. Tests of the decoder on words written out from the formats of the manual, of the checks of WellFormed, of single steps on
small states, and for every statement a state and operands that meet its hypotheses. -/

namespace Sys2Proof.Tests

open Sys2Proof Sys2Proof.Machine

-- One theorem after the other: a thread for each would outgrow the memory that the check allows.
set_option Elab.async false

/-! ### Decoding: words written out by R64 and R75; `examples` are the words that the manual prints -/

def readsAs (l : List (Nat × Instr)) : Bool :=
  l.all fun p =>
    match decodeWord p.1 with
    | .ok i => i == p.2
    | _ => false

theorem test_decode_integer : readsAs [
    (0x040064F800000000, .add .d 3 4 31),
    (0x040464F900000000, .sub .w 3 4 31),
    (0x040864F800000000, .mul .d 3 4 31),
    (0x040C64F900000000, .mulh .w 3 4 31),
    (0x041064F800000000, .and .d 3 4 31),
    (0x041464F900000000, .or .w 3 4 31),
    (0x041864F800000000, .xor .d 3 4 31),
    (0x041C64F900000000, .shl .w 3 4 31),
    (0x042064F800000000, .shr .d 3 4 31),
    (0x042464F900000000, .sra .w 3 4 31),
    (0x042864F800000000, .min .d 3 4 31),
    (0x042C64F900000000, .max .w 3 4 31),
    (0x0430C11000000000, .cmp .eq 6 1 2),
    (0x0430C11100000000, .cmp .ne 6 1 2),
    (0x0430C11200000000, .cmp .lt 6 1 2),
    (0x0430C11300000000, .cmp .ge 6 1 2),
    (0x0430C11400000000, .cmp .ltu 6 1 2),
    (0x0430C11500000000, .cmp .geu 6 1 2),
    (0x0800A900FFFFFFFD, .addi .d 5 9 0xFFFFFFFD),
    (0x0810A900FFFFFFFD, .andi .d 5 9 0xFFFFFFFD),
    (0x0814A901FFFFFFFD, .ori .w 5 9 0xFFFFFFFD),
    (0x0818A900FFFFFFFD, .xori .d 5 9 0xFFFFFFFD),
    (0x081CA9000000003F, .shli .d 5 9 63),
    (0x081CA9010000001F, .shli .w 5 9 31),
    (0x0820A9000000003F, .shri .d 5 9 63),
    (0x0820A9010000001F, .shri .w 5 9 31),
    (0x0824A9000000003F, .srai .d 5 9 63),
    (0x0824A9010000001F, .srai .w 5 9 31),
    (0x0833C10400000007, .cmpi .ltu 30 1 7),
    (0x0840E00080000000, .li 7 0x80000000)] = true := by decide +kernel

theorem test_decode_control : readsAs [
    (0x0C00000FFFFFFFFF, .br .always 0 0 0xFFFFFFFFF),
    (0x0C00BF100000000A, .br (.cmp .eq) 5 31 10),
    (0x0C00BF200000000A, .br (.cmp .ne) 5 31 10),
    (0x0C00BF300000000A, .br (.cmp .lt) 5 31 10),
    (0x0C00BF400000000A, .br (.cmp .ge) 5 31 10),
    (0x0C00BF500000000A, .br (.cmp .ltu) 5 31 10),
    (0x0C00BF600000000A, .br (.cmp .geu) 5 31 10),
    (0x1003E0000000000A, .call 31 10),
    (0x10041F00FFFFFFF8, .jr 31 0xFFFFFFF8),
    (0x10083E0000000010, .callr 1 30 16)] = true := by decide +kernel

theorem test_decode_loads : readsAs [
    (0x140109560FFFFFC0, .ldSp .b 8 ⟨9, 10, 3, 0xFFFFFC0⟩),
    (0x140509560FFFFFC0, .ldSp .bu 8 ⟨9, 10, 3, 0xFFFFFC0⟩),
    (0x140909560FFFFFC0, .ldSp .h 8 ⟨9, 10, 3, 0xFFFFFC0⟩),
    (0x140D09560FFFFFC0, .ldSp .hu 8 ⟨9, 10, 3, 0xFFFFFC0⟩),
    (0x141109560FFFFFC0, .ldSp .w 8 ⟨9, 10, 3, 0xFFFFFC0⟩),
    (0x141509560FFFFFC0, .ldSp .wu 8 ⟨9, 10, 3, 0xFFFFFC0⟩),
    (0x141909560FFFFFC0, .ldSp .d 8 ⟨9, 10, 3, 0xFFFFFC0⟩),
    (0x1803E11200000040, .stSp .b 31 ⟨1, 2, 1, 0x40⟩),
    (0x180BE11200000040, .stSp .h 31 ⟨1, 2, 1, 0x40⟩),
    (0x1813E11200000040, .stSp .w 31 ⟨1, 2, 1, 0x40⟩),
    (0x181BE11200000040, .stSp .d 31 ⟨1, 2, 1, 0x40⟩),
    (0x1C0109561FFFFFC0, .ldAt .b true 8 ⟨9, 10, 3, 0xFFFFFC0⟩),
    (0x1C0509561FFFFFC0, .ldAt .bu true 8 ⟨9, 10, 3, 0xFFFFFC0⟩),
    (0x1C0909561FFFFFC0, .ldAt .h true 8 ⟨9, 10, 3, 0xFFFFFC0⟩),
    (0x1C0D09561FFFFFC0, .ldAt .hu true 8 ⟨9, 10, 3, 0xFFFFFC0⟩),
    (0x1C1109561FFFFFC0, .ldAt .w true 8 ⟨9, 10, 3, 0xFFFFFC0⟩),
    (0x1C1509561FFFFFC0, .ldAt .wu true 8 ⟨9, 10, 3, 0xFFFFFC0⟩),
    (0x1C1909561FFFFFC0, .ldAt .d true 8 ⟨9, 10, 3, 0xFFFFFC0⟩),
    (0x2003E11210000040, .stAt .b true 31 ⟨1, 2, 1, 0x40⟩),
    (0x200BE11210000040, .stAt .h true 31 ⟨1, 2, 1, 0x40⟩),
    (0x2013E11210000040, .stAt .w true 31 ⟨1, 2, 1, 0x40⟩),
    (0x201BE11210000040, .stAt .d true 31 ⟨1, 2, 1, 0x40⟩),
    (0x240909561FFFFFC0, .ldRa .h true 8 ⟨9, 10, 3, 0xFFFFFC0⟩),
    (0x281BE11210000040, .stRa .d true 31 ⟨1, 2, 1, 0x40⟩),
    (0x2C0D09561FFFFFC0, .ldCl .hu true 8 ⟨9, 10, 3, 0xFFFFFC0⟩),
    (0x301BE11210000040, .stCl .d true 31 ⟨1, 2, 1, 0x40⟩),
    (0x341109561FFFFFC0, .ldHs .w true 8 ⟨9, 10, 3, 0xFFFFFC0⟩),
    (0x381BE11210000040, .stHs .d true 31 ⟨1, 2, 1, 0x40⟩),
    (0x3C1509561FFFFFC0, .ldPr .wu true 8 ⟨9, 10, 3, 0xFFFFFC0⟩),
    (0x401BE11210000040, .stPr .d true 31 ⟨1, 2, 1, 0x40⟩)] = true := by decide +kernel

theorem test_decode_atomics : readsAs [
    (0x4440A63C10000008, .amoAdd .at false true 5 ⟨6, 7, 2, 8⟩),
    (0x4484A63C30000008, .amoAnd .ra true true 5 ⟨6, 7, 2, 8⟩),
    (0x44C8A63C10000008, .amoOr .cl false true 5 ⟨6, 7, 2, 8⟩),
    (0x450CA63C30000008, .amoXor .hs true true 5 ⟨6, 7, 2, 8⟩),
    (0x4550A63C00000008, .amoMin .pr false false 5 ⟨6, 7, 2, 8⟩),
    (0x4454A63C20000008, .amoMax .at true false 5 ⟨6, 7, 2, 8⟩),
    (0x4498A63C00000008, .amoMinu .ra false false 5 ⟨6, 7, 2, 8⟩),
    (0x44DCA63C20000008, .amoMaxu .cl true false 5 ⟨6, 7, 2, 8⟩),
    (0x4520A63C00000008, .amoSwap .hs false false 5 ⟨6, 7, 2, 8⟩),
    (0x456426103FFFFFF8, .amoCas .pr true true 1 2 6 0xFFFFFF8)] = true := by decide +kernel

theorem test_decode_queues : readsAs [
    (0x4800486000000000, .strmIn .sp 2 12 8 0),
    (0x482008F000000001, .strmOut .sp false 0 30 8 1),
    (0x4C00E62A00000004, .ldq .sp 7 0 false ⟨6, 5, 1, 4⟩),
    (0x4C20662AE0000004, .stq .sp 3 7 false ⟨6, 5, 1, 4⟩),
    (0x4804686000000001, .strmIn .at 3 12 8 1),
    (0x482428F010000001, .strmOut .at true 1 30 8 1),
    (0x4C04E62A30000004, .ldq .at 7 1 true ⟨6, 5, 1, 4⟩),
    (0x4C24662AF0000004, .stq .at 3 7 true ⟨6, 5, 1, 4⟩),
    (0x4808886000000002, .strmIn .ra 4 12 8 2),
    (0x482848F010000001, .strmOut .ra true 2 30 8 1),
    (0x4C08E62A50000004, .ldq .ra 7 2 true ⟨6, 5, 1, 4⟩),
    (0x4C28662AF0000004, .stq .ra 3 7 true ⟨6, 5, 1, 4⟩),
    (0x480CA86000000003, .strmIn .cl 5 12 8 3),
    (0x482C68F010000001, .strmOut .cl true 3 30 8 1),
    (0x4C0CE62A70000004, .ldq .cl 7 3 true ⟨6, 5, 1, 4⟩),
    (0x4C2C662AF0000004, .stq .cl 3 7 true ⟨6, 5, 1, 4⟩),
    (0x4810C86000000004, .strmIn .hs 6 12 8 4),
    (0x483008F010000001, .strmOut .hs true 0 30 8 1),
    (0x4C10E62A90000004, .ldq .hs 7 4 true ⟨6, 5, 1, 4⟩),
    (0x4C30662AF0000004, .stq .hs 3 7 true ⟨6, 5, 1, 4⟩),
    (0x4814E86000000005, .strmIn .pr 7 12 8 5),
    (0x483428F010000001, .strmOut .pr true 1 30 8 1),
    (0x4C14E62AB0000004, .ldq .pr 7 5 true ⟨6, 5, 1, 4⟩),
    (0x4C34662AF0000004, .stq .pr 3 7 true ⟨6, 5, 1, 4⟩),
    (0x4840E00000000000, .strmStop false 7),
    (0x4840600010000000, .strmStop true 3),
    (0x4C41E11600000010, .ldsc .sp 15 ⟨1, 2, 3, 16⟩),
    (0x4C45E11600000010, .ldsc .at 15 ⟨1, 2, 3, 16⟩),
    (0x4C4DE11600000010, .ldsc .cl 15 ⟨1, 2, 3, 16⟩)] = true := by decide +kernel

theorem test_decode_sync : readsAs [
    (0x5000000000000001, .fence ⟨true, false, false, false, false, false⟩ .core),
    (0x5000000000000102, .fence ⟨false, true, false, false, false, false⟩ .die),
    (0x5000000000000204, .fence ⟨false, false, true, false, false, false⟩ .dev),
    (0x5000000000000308, .fence ⟨false, false, false, true, false, false⟩ .sys),
    (0x5000000000000010, .fence ⟨false, false, false, false, true, false⟩ .core),
    (0x5000000000000120, .fence ⟨false, false, false, false, false, true⟩ .die),
    (0x5004000000000000, .afence),
    (0x5008000000000000, .bar),
    (0x500C00000000F0C1, .hbind 15 0xC1),
    (0x5010000000000009, .hpush 9 none),
    (0x5010000000000139, .hpush 9 (some 3)),
    (0x5014000000000009, .hpop 9 none),
    (0x5014000000000179, .hpop 9 (some 7)),
    (0x5018E40000000000, .waitRd 7 4),
    (0x5018E40000000001, .waitFin 7 4),
    (0x5018E44800000002, .waitLe 7 4 9)] = true := by decide +kernel

theorem test_decode_system : readsAs [
    (0x5400000000000000, .done),
    (0x5404000000000000, .eret),
    (0x5408A0000000013C, .rdsr 5 0x13C),
    (0x540C0600000000FF, .wrsr 6 0xFF),
    (0x5410140000000040, .icinv 20 64),
    (0x54140000DEADBEEF, .trap 0xDEADBEEF),
    (0x580000020000007F, .layer 2 127),
    (0x5804032500001FFF, .mbr .geu 3 4 0x1FFF),
    (0x5808090000000203, .mloop 9 0x203),
    (0x580C000000000000, .mbnd false),
    (0x580C000000000001, .mbnd true),
    (0x5C02000000000001, .ximm 0x2000000000001),
    (0x5C072BFAEAF80000, .stamp 0xCAFEBABE)] = true := by decide +kernel

theorem test_decode_float : readsAs [
    (0x8003EF29A0279FC0, .vadd ⟨15, .h16, ⟨.sr, .v 63⟩, true, .sq 3, .pop 0, .peek 7⟩),
    (0x8007F329A0279FC0, .vsub ⟨15, .bf16, ⟨.sr, .v 63⟩, true, .sq 3, .pop 0, .peek 7⟩),
    (0x800BF729A0279FC0, .vmul ⟨15, .fp32, ⟨.sr, .v 63⟩, true, .sq 3, .pop 0, .peek 7⟩),
    (0x801BEF29A0279FC0, .vdiv ⟨15, .h16, ⟨.sr, .v 63⟩, true, .sq 3, .pop 0, .peek 7⟩),
    (0x800C7481A002B100, .vfma ⟨1, .fp32, .rtz, false, .v 3, .pop 0, .v 5, .s 2⟩),
    (0x80107501A002B100, .vfms ⟨1, .fp32, .rup, false, .v 3, .pop 0, .v 5, .s 2⟩),
    (0x80147581A002B100, .vfnma ⟨1, .fp32, .rdn, false, .v 3, .pop 0, .v 5, .s 2⟩),
    (0x801C3000815D0000, .vmin ⟨0, .bf16, .v 1, .v 2, .k 58⟩),
    (0x80203000815D0000, .vmax ⟨0, .bf16, .v 1, .v 2, .k 58⟩),
    (0x80242C0081000000, .vabs ⟨0, .h16, .v 1, .v 2⟩),
    (0x80282C0081000000, .vneg ⟨0, .h16, .v 1, .v 2⟩),
    (0x802C378081000040, .vsqrt ⟨0, .fp32, ⟨.dyn, .v 0⟩, true, .v 1, .v 2⟩),
    (0x9800AC0081000000, .vexp2 ⟨2, .h16, ⟨.rne, .v 0⟩, false, .v 1, .v 2⟩),
    (0x9804B08081000040, .vlog2 ⟨2, .bf16, ⟨.rtz, .v 0⟩, true, .v 1, .v 2⟩),
    (0x9808B50081000000, .vrcp ⟨2, .fp32, ⟨.rup, .v 0⟩, false, .v 1, .v 2⟩),
    (0x980CAD8081000040, .vrsqrt ⟨2, .h16, ⟨.rdn, .v 0⟩, true, .v 1, .v 2⟩),
    (0x9810B20081000000, .vsin ⟨2, .bf16, ⟨.rna, .v 0⟩, false, .v 1, .v 2⟩),
    (0x9814B68081000040, .vcos ⟨2, .fp32, ⟨.rto, .v 0⟩, true, .v 1, .v 2⟩),
    (0x9818AF0081002400, .vtanh ⟨2, .h16, ⟨.sr, .peek 0⟩, false, .v 1, .v 2⟩),
    (0x981CB38081000040, .vsigm ⟨2, .bf16, ⟨.dyn, .v 0⟩, true, .v 1, .v 2⟩)] = true := by decide +kernel

theorem test_decode_vinteger : readsAs [
    (0x8400C80202C00040, .viadd ⟨3, .i16, true, false, .v 4, .v 5, .k 0⟩),
    (0x8404CC0202C00040, .visub ⟨3, .i32, true, false, .v 4, .v 5, .k 0⟩),
    (0x8408C40202C00001, .vimul ⟨3, .i8, false, true, .v 4, .v 5, .k 0⟩),
    (0x840CD40202C00000, .vimulh ⟨3, .n16, false, false, .v 4, .v 5, .k 0⟩),
    (0x8410180081018240, .vimad ⟨0, .n32, true, .v 1, .v 2, .v 3, .v 4⟩),
    (0x8415540081018000, .vand ⟨5, .n16, .v 1, .v 2, .v 3⟩),
    (0x8419980081018000, .vor ⟨6, .n32, .v 1, .v 2, .v 3⟩),
    (0x841DC00081018000, .vxor ⟨7, .i4, .v 1, .v 2, .v 3⟩),
    (0x8422040081018000, .vshl ⟨8, .i8, .v 1, .v 2, .v 3⟩),
    (0x8426480081018000, .vshr ⟨9, .i16, .v 1, .v 2, .v 3⟩),
    (0x842A8C0081018000, .vsra ⟨10, .i32, .v 1, .v 2, .v 3⟩),
    (0x842ED00081018000, .vimin ⟨11, .n8, .v 1, .v 2, .v 3⟩),
    (0x8433140081018000, .vimax ⟨12, .n16, .v 1, .v 2, .v 3⟩),
    (0x8434040081000040, .viabs ⟨0, .i8, true, .v 1, .v 2⟩)] = true := by decide +kernel

theorem test_decode_compare : readsAs [
    (0x8800740781018000, .vcmp 1 .fp32 .eq 15 (.v 2) (.v 3)),
    (0x8800740781018001, .vcmp 1 .fp32 .ne 15 (.v 2) (.v 3)),
    (0x8800740781018002, .vcmp 1 .fp32 .lt 15 (.v 2) (.v 3)),
    (0x8800740781018003, .vcmp 1 .fp32 .le 15 (.v 2) (.v 3)),
    (0x8800740781018004, .vcmp 1 .fp32 .gt 15 (.v 2) (.v 3)),
    (0x8800740781018005, .vcmp 1 .fp32 .ge 15 (.v 2) (.v 3)),
    (0x8800740781018006, .vcmp 1 .fp32 .un 15 (.v 2) (.v 3)),
    (0x88053C0481018780, .vsel 4 .cx (.v 9) (.v 2) (.v 3) 15),
    (0x8809C00302878000, .pand 7 6 5 15),
    (0x880DC00302878000, .por 7 6 5 15),
    (0x8811C00302878000, .pxor 7 6 5 15),
    (0x8815C00302800000, .pnot 7 6 5)] = true := by decide +kernel

theorem test_decode_convert : readsAs [
    (0x8C006F00810001CC, .vcvt ⟨1, .h16, .bf16, ⟨.sr, .v 3⟩, true, false, .v 1, .v 2⟩),
    (0x8C04340201000008, .vcvtw ⟨0, .fp32, .e4m3, ⟨.rne, .v 0⟩, false, false, .v 4, .v 2⟩),
    (0x8C0834818800001F, .vcvtn ⟨0, .fp32, .cx, ⟨.rtz, .v 0⟩, false, true, .v 3, .v 16⟩),
    (0x8C0C300C02028028, .vdq ⟨0, .bf16, .e4m3, ⟨.rne, .v 0⟩, false, 2, .v 24, .v 4, .v 5⟩),
    (0x8C10200F0C02805D, .vq ⟨0, .e4m3, .fp32, ⟨.rne, .v 0⟩, true, 1, .v 30, .v 24, .v 5⟩),
    (0x8C1437018194003B, .srnd ⟨0, .fp32, .h16, false, 3, .v 3, .v 3, .v 40⟩),
    (0x9000440303840480, .vperm ⟨1, .i8, .v 6, .v 7, .v 8, .v 9⟩),
    (0x90041C0303C78000, .vrot ⟨0, .e2m1, .v 6, .v 7, .k 15⟩),
    (0x90083C0303BF8000, .vbcast ⟨0, .cx, .v 6, .v 7, .s 31⟩),
    (0x900C080303840001, .vzip ⟨0, .i16, true, .v 6, .v 7, .v 8⟩),
    (0x9010080303840000, .vunzip ⟨0, .i16, false, .v 6, .v 7, .v 8⟩),
    (0x9014080303843080, .vslide ⟨0, .i16, .v 6, .v 7, .v 8, .s 1⟩),
    (0x940276B181318000, .vrsum ⟨9, .fp32, .rto, false, .s 3, .v 2, .s 3⟩),
    (0x9404040081018000, .vrmax ⟨0, .i8, .rne, false, .v 1, .v 2, .v 3⟩),
    (0x9408182801018000, .vrmin ⟨0, .n32, .rne, false, .sq 0, .v 2, .v 3⟩),
    (0x940C000081400040, .vriadd ⟨0, .i4, .rne, true, .v 1, .v 2, .k 0⟩)] = true := by decide +kernel

theorem test_decode_scalar : readsAs [
    (0x9C000C30B1480040, .sadd ⟨0, .i32, ⟨.rne, .v 0⟩, true, .s 1, .s 2, .k 16⟩),
    (0x9C04183131480040, .ssub ⟨0, .n32, ⟨.rne, .v 0⟩, true, .s 2, .s 2, .k 16⟩),
    (0x9C083731B1483000, .smul ⟨0, .fp32, ⟨.sr, .s 0⟩, false, .s 3, .s 2, .k 16⟩),
    (0x9C0D7629B131B080, .sfma ⟨5, .fp32, .rna, false, .sq 3, .s 2, .s 3, .s 1⟩),
    (0x9C100C30A0000000, .smov ⟨0, .i32, .s 1, .pop 0⟩),
    (0x9C143430B100004E, .scvt ⟨0, .fp32, .s16, ⟨.rne, .v 0⟩, true, .s 1, .s 2⟩),
    (0x9C40C1FC03FFFFFE, .sli 3 31 0x3FFFFFE),
    (0xA000000003BFFFFF, .loop (.imm 0xFFFF) 7 63),
    (0xA0000001A8C20000, .loop (.reg 10) 1 2),
    (0xA00400000000001F, .rbset 31),
    (0xA008000000000011, .rbadv 17),
    (0xA00C0000000000A5, .pstage 0xA5),
    (0xA400700014007E00, .cbstV 1 .bf16 (.v 5) 0x7E00),
    (0xA404701400000200, .cbldV 1 .bf16 5 512),
    (0xA408400190000008, .cbstS 1 4 8),
    (0xA40C419000000008, .cbldS 1 4 8),
    (0xA800800023C80000, .qskip 2 7 (.k 16)),
    (0xA800000020B28000, .qskip 0 1 (.s 5)),
    (0xA804003100058000, .qcount 0 2 11),
    (0xA808003220800000, .qflush 0 (some 4) 1),
    (0xA808000020800000, .qflush 0 none 1),
    (0xAC01A8FC00000077, .vli 6 .sp2 63 0x77),
    (0xAC04143003FFE001, .vlix 0 .n16 12 1 0x1FFF)] = true := by decide +kernel

theorem test_decode_engines : readsAs [
    (0xC0014B63800094C0, .copy ⟨10, 11, 12, 14, ⟨some 2, some 3⟩⟩),
    (0xC0014B6380000020, .copyF ⟨10, 11, 12, 14, ⟨none, none⟩⟩),
    (0xC004221940000003, .fill ⟨1, 2, 3, 5, ⟨none, none⟩⟩ 3),
    (0xC4002219400094C0, .gather ⟨1, 2, 3, 5, ⟨some 2, some 3⟩⟩),
    (0xC404221940000000, .scatter ⟨1, 2, 3, 5, ⟨none, none⟩⟩),
    (0xC80022194000F800, .loft ⟨1, 2, 3, 5, ⟨some 15, none⟩⟩),
    (0xCC002221800007C0, .reduce ⟨1, 2, 4, 6, ⟨none, some 15⟩⟩),
    (0xCC04221940000000, .reduceBin ⟨1, 2, 3, 5, ⟨none, none⟩⟩),
    (0xD000221800000000, .migrate 1 2 3 ⟨none, none⟩),
    (0xD401406010080488, .bfs ⟨⟨10, 0, 12, 0, ⟨none, some 2⟩⟩, 16, 0, 1, false, 1, .rne⟩),
    (0xD40022193FB894E5, .bfs ⟨⟨1, 2, 3, 4, ⟨some 2, some 3⟩⟩, 63, 2, 7, true, 0, .rto⟩),
    (0xD8014B0390800000, .bfa ⟨10, 11, 14, ⟨none, none⟩, 16, 2, 0, false⟩),
    (0xD800220101470020, .bfa ⟨1, 2, 4, ⟨none, none⟩, 1, 1, 7, true⟩),
    (0xDC00A00000030000, .aclr 5 3 ⟨none, none⟩),
    (0xDC04C00000030000, .anorm 6 3 ⟨none, none⟩),
    (0xDC08140010830000, .adrain ⟨20, ⟨none, none⟩, 16, 2, 3, false, false, .rne⟩),
    (0xDC08140010830013, .adrain ⟨20, ⟨none, none⟩, 16, 2, 3, false, true, .rdn⟩),
    (0xDC08140010830020, .adrain ⟨20, ⟨none, none⟩, 16, 2, 3, true, false, .rne⟩),
    (0xDC0EA00010830000, .aload 21 16 2 3 ⟨none, none⟩),
    (0xE000E00000100000, .sdset 7 2 ⟨none, none⟩),
    (0xE004160000000000, .chdrain 22 ⟨none, none⟩),
    (0xE00AC00000000000, .chload 22 ⟨none, none⟩),
    (0xE400170000000000, .scdrain 23 ⟨none, none⟩),
    (0xE406E00000000000, .scload 23 ⟨none, none⟩),
    (0xE408000000000000, .scclr ⟨none, none⟩),
    (0xE8014B6340000000, .mpack ⟨10, 11, 12, 13, ⟨none, none⟩⟩),
    (0xE805090010000003, .mgen 8 9 ⟨none, none⟩ 16 1 1),
    (0xEC00000000000002, .cload 2 ⟨none, none⟩),
    (0xEC054B0000009802, .eval 10 11 2 ⟨some 3, none⟩),
    (0xEC098D0000000000, .pupd 12 13 ⟨none, none⟩),
    (0xEC0CE00000000001, .cewait 7 true),
    (0xEC116E0000000012, .ceout 11 14 2 1 ⟨none, none⟩),
    (0xF0014B6380008800, .reshard ⟨10, 11, 12, 14, ⟨some 1, none⟩⟩),
    (0xF400E00000000000, .rswait 7),
    (0xF400EE0000000001, .rswaitRecv 7 14)] = true := by decide +kernel

theorem test_decode_examples : readsAs [
    (0x0400642800000000, .add .d 3 4 5),
    (0x0430C11200000000, .cmp .lt 6 1 2),
    (0x0800A500FFFFFFFF, .addi .d 5 5 0xFFFFFFFF),
    (0x0840E00000001000, .li 7 0x1000),
    (0x0C00A02FFFFFFFFE, .br (.cmp .ne) 5 0 0xFFFFFFFFE),
    (0x1003E0000000000A, .call 31 10),
    (0x10041F0000000000, .jr 31 0),
    (0x1C11090000000040, .ldAt .w false 8 ⟨9, 0, 0, 0x40⟩),
    (0x28186A0010000000, .stRa .d true 3 ⟨10, 0, 0, 0⟩),
    (0x44C0A60000000000, .amoAdd .cl false false 5 ⟨6, 0, 0, 0⟩),
    (0x44E4261010000000, .amoCas .cl false true 1 2 6 0),
    (0x4C04260000000000, .ldq .at 1 0 false ⟨6, 0, 0, 0⟩),
    (0x4C20000000024000, .stq .sp 0 0 false ⟨0, 0, 0, 0x24000⟩),
    (0x4C40600000008000, .ldsc .sp 3 ⟨0, 0, 0, 0x8000⟩),
    (0x4804486000000000, .strmIn .at 2 12 8 0),
    (0x4840200010000000, .strmStop true 1),
    (0x5000000000000203, .fence ⟨true, true, false, false, false, false⟩ .dev),
    (0x500C0000000030C1, .hbind 3 0xC1),
    (0x5010000000000002, .hpush 2 none),
    (0x5014000000000001, .hpop 1 none),
    (0x5018E40000000001, .waitFin 7 4),
    (0x5408A00000000130, .rdsr 5 0x130),
    (0x5410140000000000, .icinv 20 0),
    (0x5800000200000005, .layer 2 5),
    (0x800C3401A002B100, .vfma ⟨0, .fp32, .rne, false, .v 3, .pop 0, .v 5, .s 2⟩),
    (0x8008340100008000, .vmul ⟨0, .fp32, ⟨.rne, .v 0⟩, false, .v 2, .v 0, .v 1⟩),
    (0x8400080202210040, .viadd ⟨0, .i16, true, false, .v 4, .v 4, .pop 2⟩),
    (0x8800340281400002, .vcmp 0 .fp32 .lt 5 (.v 2) (.k 0)),
    (0x8804340481018280, .vsel 0 .fp32 (.v 9) (.v 2) (.v 3) 5),
    (0x8808000302818000, .pand 0 6 5 3),
    (0x8C08300A0800000D, .vcvtn ⟨0, .bf16, .fp32, ⟨.rne, .v 0⟩, false, false, .v 20, .v 16⟩),
    (0x8C0C300C02028018, .vdq ⟨0, .bf16, .e4m3, ⟨.rne, .v 0⟩, false, 1, .v 24, .v 4, .v 5⟩),
    (0x8C10200F0C02805D, .vq ⟨0, .e4m3, .fp32, ⟨.rne, .v 0⟩, true, 1, .v 30, .v 24, .v 5⟩),
    (0x8C1437018194002C, .srnd ⟨0, .fp32, .bf16, false, 2, .v 3, .v 3, .v 40⟩),
    (0x9000300303840000, .vperm ⟨0, .bf16, .v 6, .v 7, .v 8, .v 0⟩),
    (0x9400343181318000, .vrsum ⟨0, .fp32, .rne, false, .s 3, .v 2, .s 3⟩),
    (0x9800300505000000, .vexp2 ⟨0, .bf16, ⟨.rne, .v 0⟩, false, .v 10, .v 10⟩),
    (0x9C0C3430B131B080, .sfma ⟨0, .fp32, .rne, false, .s 1, .s 2, .s 3, .s 1⟩),
    (0x9C40019403FFFFFE, .sli 0 5 0x3FFFFFE),
    (0xA800000020C18000, .qskip 0 1 (.k 3)),
    (0xA804003100018000, .qcount 0 2 3),
    (0xA808000020800000, .qflush 0 none 1),
    (0xAC04143000002000, .vlix 0 .n16 12 0 1)] = true := by decide +kernel

/-- Words that R64 to R68, R76, R79 and the entries make ILLEGAL: zero; majors and minors without an instruction; a nonzero field that is not used; reserved
conditions, sizes, types, modes and operand codes. -/
def refuses (l : List Nat) : Bool :=
  l.all fun w =>
    match decodeWord w with
    | .ok _ => false
    | .error _ => true

theorem test_decode_refused_access : refuses [0, 0x6000000000000000, 0x0434000000000000, 0x0400000200000000, 0x0400000000000001, 0x0430000600000000,
    0x0800000800000000, 0x081C000100000020, 0x0C00007000000000, 0x0C00010000000000, 0x0C00200000000000, 0x1000010000000000, 0x1400000010000000,
    0x1804000000000000, 0x4400000000000000, 0x4468000000000000, 0x4480000040000000, 0x4804000800000000, 0x4C48000000000000, 0x5000000000000040,
    0x500C0000000000C4, 0x500C0000000000CC, 0x501800000000000B, 0x5018000000000003, 0x5400000000000001, 0x5800000400000000, 0x5C04000000000001] = true := by
  decide +kernel

theorem test_decode_refused_execute : refuses [0x8008000000000000, 0x8008340000000080, 0x8008342A00000000, 0x8008340028000000, 0x8008340000000001,
    0x800C370000000000, 0x84080C0000000001, 0x8408000080000001, 0x8800000000000006, 0x8800340800000000, 0x8C0034000000000D, 0x8C00340000000008,
    0x8C14340000000008, 0x9000000000000000, 0x9000300000000080, 0x9400000000000040, 0x9C00340000000040, 0x9C40001000000000, 0xA400000000000004,
    0xA800000020C88000, 0xAC04340000000000, 0xB000000000000000] = true := by
  decide +kernel

theorem test_decode_refused_engines : refuses [0xC000000800000000, 0xC000000000000001, 0xC000000000000800, 0xC000000000000040, 0xC004000000000004,
    0xC400000000000001, 0xD000000040000000, 0xD400000000000000, 0xD400000001C00000, 0xD401400001000010, 0xD400000001010000, 0xD800000001000001,
    0xDC00000000010001, 0xDC08000001000030, 0xE000000000000001, 0xE408000100000000, 0xE804000000000000, 0xE804000001000006, 0xEC10000000000030,
    0xF000000000000001, 0xF400010000000000, 0xF800000000000000] = true := by
  decide +kernel

/-! ### WellFormed: for each check a term that it refuses -/

def illFormed (l : List Instr) : Bool := l.all fun i => !i.wf

theorem test_wellformed_access : illFormed [.shli .w 1 2 32, .shri .w 1 2 32, .srai .w 1 2 63, .br .always 1 0 0, .br .always 0 1 0,
    .amoAdd .sp false false 1 ⟨2, 0, 0, 0⟩, .amoCas .sp false false 1 2 3 0, .strmIn .sp 0 3 1 0, .strmIn .sp 0 0 1 0, .strmOut .at false 0 5 1 0,
    .strmOut .sp true 0 4 1 0, .strmStop true 4, .ldq .sp 0 0 true ⟨1, 0, 0, 0⟩, .stq .sp 0 0 true ⟨1, 0, 0, 0⟩, .ldsc .ra 0 ⟨1, 0, 0, 0⟩,
    .hbind 0 0x8C, .hbind 0 0x81, .hbind 0 0x90, .hbind 0 0x91, .hbind 0 1] = true := by decide +kernel

theorem test_wellformed_float : illFormed [.vadd ⟨0, .i8, ⟨.rne, .v 0⟩, false, .v 1, .v 2, .v 3⟩, .vadd ⟨0, .fp32, ⟨.rne, .v 1⟩, false, .v 1, .v 2, .v 3⟩,
    .vadd ⟨0, .fp32, ⟨.rne, .v 0⟩, false, .s 1, .v 2, .v 3⟩, .vfma ⟨0, .fp32, .sr, false, .v 1, .v 2, .v 3, .v 4⟩, .vmin ⟨0, .s16, .v 1, .v 2, .v 3⟩,
    .vabs ⟨0, .e4m3, .v 1, .v 2⟩, .vsqrt ⟨0, .cx, ⟨.rne, .v 0⟩, false, .v 1, .v 2⟩, .vexp2 ⟨0, .i32, ⟨.rne, .v 0⟩, false, .v 1, .v 2⟩,
    .vsel 0 .cx (.v 1) (.s 2) (.v 3) 1, .vsel 0 .cx (.v 1) (.k 48) (.v 3) 1] = true := by decide +kernel

theorem test_wellformed_integer : illFormed [.viadd ⟨0, .fp32, false, false, .v 1, .v 2, .v 3⟩, .viadd ⟨0, .i8, false, true, .v 1, .v 2, .v 3⟩,
    .vimul ⟨0, .i32, false, true, .v 2, .v 4, .v 5⟩, .vimul ⟨0, .i8, true, true, .v 2, .v 4, .v 5⟩, .vimul ⟨0, .i8, false, true, .v 1, .v 4, .v 5⟩,
    .vimulh ⟨0, .i8, true, false, .v 1, .v 2, .v 3⟩, .viabs ⟨0, .n8, false, .v 1, .v 2⟩, .vcmp 0 .i8 .un 1 (.v 1) (.v 2),
    .vcmp 0 .s16 .eq 1 (.v 1) (.v 2), .vlix 0 .bf16 1 0 0] = true := by decide +kernel

theorem test_wellformed_convert : illFormed [.vcvt ⟨0, .h16, .h16, ⟨.rne, .v 0⟩, false, false, .v 1, .v 2⟩, .vcvt ⟨0, .h16, .i8, ⟨.rne, .v 0⟩, false, false, .v 1, .v 2⟩,
    .vcvt ⟨0, .h16, .bf16, ⟨.rne, .v 0⟩, false, true, .v 1, .v 2⟩, .vcvtw ⟨0, .fp32, .e4m3, ⟨.rne, .v 0⟩, false, false, .v 2, .v 1⟩,
    .vcvtn ⟨0, .bf16, .fp32, ⟨.rne, .v 0⟩, false, true, .v 1, .v 2⟩, .vcvtn ⟨0, .bf16, .fp32, ⟨.rne, .v 0⟩, false, false, .v 1, .v 3⟩,
    .vdq ⟨0, .bf16, .h16, ⟨.rne, .v 0⟩, false, 0, .v 2, .v 4, .v 5⟩, .vdq ⟨0, .bf16, .e4m3, ⟨.rne, .v 0⟩, false, 3, .v 2, .v 4, .v 5⟩,
    .vq ⟨0, .e2m1, .fp32, ⟨.rne, .v 0⟩, false, 0, .v 2, .v 4, .v 5⟩, .srnd ⟨0, .bf16, .h16, false, 0, .v 1, .v 2, .v 3⟩,
    .scvt ⟨0, .fp32, .fp32, ⟨.rne, .v 0⟩, false, .s 1, .s 2⟩, .scvt ⟨0, .fp32, .i8, ⟨.rne, .v 0⟩, false, .s 1, .s 2⟩] = true := by decide +kernel

/-- R68: where no result rounds, RM is 000; the same terms with RM 000 are well-formed. -/
def unrounded (rm : RM) : List Instr := [.sadd ⟨0, .i32, ⟨rm, .v 0⟩, false, .s 1, .s 2, .s 3⟩, .smul ⟨0, .n32, ⟨rm, .v 0⟩, true, .s 1, .s 2, .s 3⟩,
  .vcvt ⟨0, .n32, .i32, ⟨rm, .v 0⟩, false, false, .v 1, .v 2⟩, .vcvtw ⟨0, .i16, .i8, ⟨rm, .v 0⟩, false, false, .v 2, .v 1⟩,
  .vcvtn ⟨0, .i8, .i16, ⟨rm, .v 0⟩, false, false, .v 1, .v 2⟩, .scvt ⟨0, .n32, .i32, ⟨rm, .v 0⟩, false, .s 1, .s 2⟩]
theorem test_wellformed_unrounded : (illFormed (unrounded .rtz) && (unrounded .rne).all Instr.wf) = true := by decide +kernel

theorem test_wellformed_rest : illFormed [.vperm ⟨0, .i4, .v 1, .v 2, .v 3, .v 0⟩, .vperm ⟨0, .i16, .v 1, .v 2, .v 3, .v 4⟩, .vrot ⟨0, .i8, .v 1, .v 2, .v 3⟩,
    .vslide ⟨0, .i8, .v 1, .v 2, .v 3, .k 16⟩, .vzip ⟨0, .i8, false, .s 1, .v 2, .v 3⟩, .vrsum ⟨0, .fp32, .sr, false, .v 1, .v 2, .v 3⟩,
    .vrmax ⟨0, .i4, .rne, false, .v 1, .v 2, .v 3⟩, .vriadd ⟨0, .fp32, .rne, false, .v 1, .v 2, .v 3⟩, .sadd ⟨0, .fp32, ⟨.rne, .v 0⟩, true, .s 1, .s 2, .s 3⟩,
    .sadd ⟨0, .i32, ⟨.rne, .v 0⟩, false, .v 1, .s 2, .s 3⟩, .sfma ⟨0, .i32, .rne, false, .s 1, .s 2, .s 3, .s 4⟩, .smov ⟨0, .i8, .s 1, .s 2⟩,
    .cbstV 0 .i8 (.v 1) 256, .cbldV 0 .i8 1 1, .cbstS 0 1 2, .cbldS 0 1 3, .qskip 0 0 (.k 17), .qskip 0 0 (.v 1)] = true := by decide +kernel

theorem test_wellformed_engines :
    let n : Hatching := ⟨none, none⟩
    illFormed [.copy ⟨1, 2, 3, 4, n⟩, .copyF ⟨1, 2, 4, 5, n⟩, .reduce ⟨1, 2, 3, 4, n⟩, .bfs ⟨⟨1, 2, 3, 4, n⟩, 0, 0, 0, false, 0, .rne⟩,
      .bfs ⟨⟨1, 2, 3, 4, n⟩, 1, 3, 0, false, 0, .rne⟩, .bfs ⟨⟨1, 2, 3, 5, n⟩, 1, 0, 0, false, 0, .rne⟩, .bfs ⟨⟨1, 0, 3, 4, n⟩, 1, 0, 0, false, 2, .rne⟩,
      .bfs ⟨⟨0, 0, 3, 4, n⟩, 1, 0, 0, true, 3, .rne⟩, .bfs ⟨⟨1, 2, 3, 4, n⟩, 1, 0, 0, false, 1, .rne⟩, .bfa ⟨1, 2, 5, n, 1, 0, 0, false⟩,
      .adrain ⟨1, n, 1, 0, 0, true, true, .rne⟩, .adrain ⟨1, n, 1, 0, 0, true, false, .rtz⟩, .aload 1 0 0 0 n, .mgen 1 2 n 0 0 0, .mgen 1 2 n 1 0 3,
      .ceout 1 2 3 3 n] = true := by decide +kernel


/-! ### The small states of the tests: one core with a running unit of a job with two devices -/

/-- The answer is a next state of which p holds. -/
def nextIs (o : Out) (p : State → Bool) : Bool :=
  match o with
  | .next t => p t
  | _ => false

/-- A trap of this cause and pipe has been taken. -/
def tookTrap (cause : Cause) (pipe : Nat) (t : State) : Bool :=
  wfld t.core.sys.trapCause 0 8 == cause.code && wfld t.core.sys.trapCause 40 3 == pipe && t.core.fe.handler

/-- A page table of two levels: the page of 2^34 bytes at address 0 of a space, readable and writable. -/
def pageZero (base root : Nat) (m : Memory) : Memory :=
  (m.putLe (base + root) 8 (2 ^ 63 + 0x30000)).putLe (base + 0x30000) 8 (2 ^ 63 + 2 ^ 62 + 2 ^ 61)

def labSlot : Slot := { Slot.idle with instr := .done, pc := 0x1000, next := 0x1008, seq := 10 }

def labPkg : Package :=
  { Package.reset with
    counters := [(2, ⟨true, 1, 1, 2, 0, 2, some 3, 5, 0⟩), (3, ⟨true, 0, 1, 3, 0, 1, some 4, 5, 0⟩), (4, ⟨true, 0, 1, 4, 0, 1, some 5, 5, 0⟩),
      (5, ⟨true, 0, 1, 5, 0, 1, none, 5, 0⟩), (6, ⟨true, 1, 1, 1, 0, 0, some 2, 5, 1⟩), (7, ⟨true, 1, 1, 1, 0, 0, some 2, 5, 2⟩)]
    parts := [⟨1, [0, 1], 0x10000, 0x20000, 0, 0, none⟩]
    jobs := [⟨5, 1, [(0, 1), (7, 1)], 0, false, [], 0, 0, [], [], false, false⟩]
    peers := [⟨7, [(1, 0x10000)], [(1, 0)]⟩]
    routes := [(7, 0x20)]
    links := Package.reset.links.set 0 ⟨true, 0, 0, 0, [], 0, []⟩ }

/-- Core 0 runs unit 6 of launch 2; the first 2^34 bytes of .CL and .HS are mapped one to one. -/
def lab : State :=
  let c := Core.reset 0
  let page (spc : Space) : TlbEntry := ⟨1, spc, 0, 34, 0xE000000000000000, 0, 0⟩
  { State.reset with
    others := []
    pkg := labPkg
    mem := pageZero (keyPeer 7 0) 0x10000 []
    core := { c with
      fe := { c.fe with unit := .running, cycle := 100, pc := 0x1008, cur := labSlot, seq := 11 }
      sys := { c.sys with trapVec := 0x2001 }
      slot := ⟨BitVec.ofNat 128 (2 ^ 127 + 1 * 2 ^ 117 + 2 * 2 ^ 52 + 6 * 2 ^ 40 + 1 * 2 ^ 28), 0, 0⟩
      lsu := { c.lsu with utlb := [page .cl, page .hs] } } }

/-- Registers of the lab, by number and value. -/
def withG (s : State) (l : List (GReg × Word)) : State := l.foldl (fun s p => s.setG p.1 p.2) s

/-- No write is pending, every ready time has come, and no engine command holds the A-pipe. -/
def freeA (s : State) : Bool :=
  (List.finRange 32).all (fun r => s.pending r == none && decide (s.core.regs.gReady[r] ≤ s.core.fe.cycle) && decide (s.core.regs.gLat[r] ≤ s.core.fe.cycle)) &&
    s.core.fe.cur.stamp == none && decide (s.core.fe.aFrom ≤ s.core.fe.cycle) && (s.core.eng.q[(3 : Fin 5)] ++ s.core.eng.q[(4 : Fin 5)]).isEmpty

theorem issue {s : State} (h : freeA s = true) (rs ws : List GReg) : s.CanIssue rs ws := by
  simp only [freeA, Bool.and_eq_true, List.all_eq_true, List.mem_finRange, forall_const, beq_iff_eq, decide_eq_true_eq, List.isEmpty_iff] at h
  obtain ⟨⟨⟨hr, hs⟩, ha⟩, hq⟩ := h
  exact ⟨fun r _ => ⟨(hr r).1.1, .inr ⟨(hr r).1.2, (hr r).2⟩⟩, fun r _ => ⟨(hr r).1.1, .inr (hr r).2⟩,
    fun t ht => (by rw [hs] at ht; cases ht), fun _ => ⟨ha, by rw [hq]; exact fun c hc => nomatch hc⟩⟩

theorem lab_free : freeA lab = true := by decide +kernel
theorem lab_trap : lab.CanTrap := ⟨by decide +kernel, by decide +kernel⟩

theorem inWin {s : State} {spc : Space} {a n : Nat} (h : ((List.range n).all fun i => s.inWindow spc (a + i)) = true) : s.InWindow spc a n := by
  intro i hi
  simp only [List.all_eq_true, List.mem_range] at h
  exact h i hi

/-! ### Witnesses and single steps: integer arithmetic and control -/

def labA : State := withG lab [(1, 0xFFFFFFFFFFFFFFFF), (2, 0x8000000000000000), (3, 0x7FFFFFFF), (4, 0x41), (5, 0x1000), (6, 0x80000001)]
theorem labA_free : freeA labA = true := by decide +kernel
theorem labA_trap : labA.CanTrap := ⟨by decide +kernel, by decide +kernel⟩

theorem wit_IntegerRegisterForms : labA.CanIssue [1, 2] [0] ∧ labA.CanIssue [1, 2] [31] := ⟨issue labA_free _ _, issue labA_free _ _⟩
theorem wit_IntegerImmediateForms : labA.CanIssue [1] [31] ∧ labA.CanIssue [] [0] := ⟨issue labA_free _ _, issue labA_free _ _⟩

/-- The value that an instruction leaves in g7 in the lab. -/
def gives (i : Instr) (x : Word) : Bool := nextIs (exec i labA) fun t => t.g 7 == x && t.g 1 == labA.g 1
theorem test_add_sub : (gives (.add .d 7 1 2) 0x7FFFFFFFFFFFFFFF && gives (.add .w 7 3 3) 0xFFFFFFFFFFFFFFFE && gives (.sub .d 7 0 1) 1 &&
    gives (.sub .w 7 0 2) 0) = true := by decide +kernel
theorem test_mul_mulh : (gives (.mul .d 7 1 2) 0x8000000000000000 && gives (.mulh .d 7 1 2) 0 && gives (.mulh .d 7 2 2) 0x4000000000000000 &&
    gives (.mul .w 7 3 3) 1 && gives (.mulh .w 7 3 6) 0xFFFFFFFFC0000000) = true := by decide +kernel
theorem test_logic : (gives (.and .d 7 3 6) 1 && gives (.or .d 7 3 6) 0xFFFFFFFF && gives (.xor .w 7 3 6) 0xFFFFFFFFFFFFFFFE) = true := by decide +kernel
theorem test_shifts : (gives (.shl .d 7 1 4) 0xFFFFFFFFFFFFFFFE && gives (.shr .d 7 2 4) 0x4000000000000000 && gives (.sra .d 7 2 4) 0xC000000000000000 &&
    gives (.sra .w 7 6 4) 0xFFFFFFFFC0000000 && gives (.shr .w 7 6 4) 0x40000000) = true := by decide +kernel
theorem test_min_max : (gives (.min .d 7 1 3) 0xFFFFFFFFFFFFFFFF && gives (.max .d 7 1 3) 0x7FFFFFFF && gives (.min .w 7 3 6) 0xFFFFFFFF80000001) = true := by decide +kernel
theorem test_cmp : (gives (.cmp .lt 7 1 3) 1 && gives (.cmp .ltu 7 1 3) 0 && gives (.cmp .ge 7 2 2) 1 && gives (.cmp .geu 7 3 2) 0 &&
    gives (.cmpi .eq 7 1 0xFFFFFFFF) 1 && gives (.cmpi .ne 7 1 0xFFFFFFFF) 0) = true := by decide +kernel
theorem test_immediates : (gives (.addi .d 7 1 0xFFFFFFFF) 0xFFFFFFFFFFFFFFFE && gives (.addi .w 7 3 1) 0xFFFFFFFF80000000 && gives (.andi .d 7 2 0x80000000) 0x8000000000000000 &&
    gives (.ori .d 7 0 0x80000000) 0xFFFFFFFF80000000 && gives (.xori .d 7 1 0xFFFFFFFF) 0 && gives (.shli .d 7 1 63) 0x8000000000000000 &&
    gives (.shri .w 7 6 31) 1 && gives (.srai .w 7 6 31) 0xFFFFFFFFFFFFFFFF && gives (.li 7 0x80000000) 0xFFFFFFFF80000000) = true := by decide +kernel
/-- R73: the example of XIMM 0x123 with 0x4567890 in a field of 28 bits, here in one of 32: 0x123 · 2^32 + 0x4567890. -/
theorem test_li_ximm : nextIs (exec (.li 7 0x04567890) (lab.fe fun f => { f with cur := { f.cur with ximm := some 0x123 } })) (fun t => t.g 7 == 0x12304567890) = true := by decide +kernel

theorem wit_BranchesAndJumps : labA.CanIssue [] [] ∧ labA.CanIssue [1, 2] [] ∧ labA.CanIssue [] [31] ∧ labA.CanIssue [5] [] ∧ labA.CanIssue [5] [5] ∧
    (labA.g 5 + immOf labA 0xFFFFFFF8).toNat % 8 = 0 ∧ labA.CanTrap ∧ (labA.g 5 + immOf labA 1).toNat % 8 ≠ 0 :=
  ⟨issue labA_free _ _, issue labA_free _ _, issue labA_free _ _, issue labA_free _ _, issue labA_free _ _, by decide +kernel, labA_trap, by decide +kernel⟩
/-- The target is 8·off36 from the branch word at 0x1000. -/
theorem test_br : (nextIs (exec (.br (.cmp .ne) 1 2 0xFFFFFFFFE) labA) (fun t => t.core.fe.pc == 0xFF0) &&
    nextIs (exec (.br (.cmp .eq) 1 2 0xFFFFFFFFE) labA) fun t => t.core.fe.pc == 0x1008) = true := by decide +kernel
theorem test_call_jr : (nextIs (exec (.call 31 10) labA) (fun t => t.core.fe.pc == 0x1050 && t.g 31 == 0x1008) &&
    nextIs (exec (.callr 5 5 0xFFFFFFF8) labA) (fun t => t.core.fe.pc == 0xFF8 && t.g 5 == 0x1008) && nextIs (exec (.jr 5 16) labA) (fun t => t.core.fe.pc == 0x1010) &&
    nextIs (exec (.callr 5 5 1) labA) fun t => tookTrap .illegalOperand 1 t && t.g 5 == 0x1000) = true := by decide +kernel

/-! ### Loads, stores, AMOs -/

/-- The bytes 0x80, 0x81, … stand at 0x40 of the scratchpad, of the vault, of .CL, .HS and of the peer's .CL; g1 is 0x30, g2 the peer's device index in place. -/
def labM : State :=
  let bs : List Byte := (List.range 8).map fun i => BitVec.ofNat 8 (0x80 + i)
  let s := withG lab [(1, 0x30), (2, 2 ^ 56), (3, 0x1122334455667788), (5, 0x3FFFF8), (8, 0x40), (9, 0xFFFFFFFFFFFFFFFF), (10, 0x43)]
  { s with
    mem := ([0x40, keyVault 0 0x40, keyHost 0x40, keyPeer 7 0x40] : List Nat).foldl (fun m a => m.write a bs) s.mem
    core := { s.core with mems := { s.core.mems with sp := Memory.write [] 0x40 bs } } }
theorem labM_free : freeA labM = true := by decide +kernel
theorem labM_trap : labM.CanTrap := ⟨by decide +kernel, by decide +kernel⟩

/-- One load of each space from g1 + 16, by way of .PR from device 1. -/
theorem wit_LoadsBegin : (∀ d, labM.CanIssue [1, 0] [d]) ∧ labM.CanIssue [2, 8] [7] ∧ labM.core.lsu.acc.length < 32 ∧
    (∀ spc ∈ [Space.sp, .at, .ra, .cl, .hs], labM.InWindow spc (opAddr labM ⟨1, 0, 0, 16⟩).toNat 8) ∧ labM.InWindow .pr (opAddr labM ⟨2, 8, 0, 0⟩).toNat 8 ∧
    labM.InWindow .sp (opAddr labM ⟨5, 0, 0, 0⟩).toNat 8 ∧ labM.keys .sp 0x40 8 false = .ok (addrs 0x40 8) ∧ labM.keys .at 0x40 8 false = .ok (addrs (keyVault 0 0x40) 8) ∧
    labM.keys .ra 0x40 8 false = .ok (addrs (keyVault 0 0x40) 8) ∧ labM.keys .cl 0x40 8 false = .ok (addrs 0x40 8) ∧
    labM.keys .hs 0x40 8 false = .ok (addrs (keyHost 0x40) 8) ∧ labM.keys .pr (2 ^ 56 + 0x40) 8 false = .ok (addrs (keyPeer 7 0x40) 8) ∧
    ¬ labM.Held .sp 0x40 8 (addrs 0x40 8) ∧ ¬ labM.Held .cl 0x40 8 (addrs 0x40 8) := by
  refine ⟨fun d => issue labM_free _ _, issue labM_free _ _, by decide +kernel, ?_, inWin (by decide +kernel), inWin (by decide +kernel), by decide +kernel, by decide +kernel,
    by decide +kernel, by decide +kernel, by decide +kernel, by decide +kernel, ?_, ?_⟩
  · intro spc h
    simp only [List.mem_cons, List.not_mem_nil, or_false] at h
    rcases h with rfl | rfl | rfl | rfl | rfl <;> exact inWin (by decide +kernel)
  · unfold State.Held; decide +kernel
  · unfold State.Held; decide +kernel

/-- A load and the return of its data leave x in g7. -/
def loads (i : Instr) (x : Word) : Bool := nextIs (exec i labM) fun t => nextIs (exec (.accessDataReturn 0) t) fun u => u.g 7 == x
theorem test_loads_sizes : (loads (.ldSp .b 7 ⟨1, 0, 0, 16⟩) 0xFFFFFFFFFFFFFF80 && loads (.ldSp .bu 7 ⟨1, 0, 0, 17⟩) 0x81 && loads (.ldSp .h 7 ⟨1, 0, 0, 16⟩) 0xFFFFFFFFFFFF8180 &&
    loads (.ldSp .hu 7 ⟨1, 0, 0, 17⟩) 0x8281 && loads (.ldSp .w 7 ⟨1, 0, 0, 16⟩) 0xFFFFFFFF83828180 && loads (.ldSp .wu 7 ⟨1, 0, 0, 16⟩) 0x83828180 &&
    loads (.ldSp .d 7 ⟨1, 0, 0, 16⟩) 0x8786858483828180) = true := by decide +kernel
theorem test_loads_spaces : (loads (.ldAt .d false 7 ⟨1, 0, 0, 16⟩) 0x8786858483828180 && loads (.ldRa .d true 7 ⟨1, 0, 0, 16⟩) 0x8786858483828180 &&
    loads (.ldCl .d false 7 ⟨1, 0, 0, 16⟩) 0x8786858483828180 && loads (.ldHs .d true 7 ⟨1, 0, 0, 16⟩) 0x8786858483828180 &&
    loads (.ldPr .d false 7 ⟨2, 8, 0, 0⟩) 0x8786858483828180) = true := by decide +kernel
theorem test_load_bounds : nextIs (exec (.ldSp .d 7 ⟨5, 0, 0, 1⟩) labM) (fun t => tookTrap .bounds 1 t && t.core.sys.trapInfo == 0x400000) = true := by decide +kernel

/-- labM with its Porch full of entries of another unit. -/
def labFull : State := labM.lsu fun l => { l with porch := List.replicate porchMax ⟨7 + 4096, 5, 2, .cl, 0, 0, 0, []⟩ }
/-- labM with a held store over the bytes at 0x44. -/
def labHeld : State := labM.lsu fun l => { l with heldSt := [⟨0x44, [1, 2], 4⟩] }

theorem wit_StoresWrite : labM.CanIssue [3, 1, 0] [] ∧ labM.InWindow .sp 0x40 8 ∧ labM.InWindow .cl 0x40 8 ∧ (opAddr labM ⟨1, 0, 0, 16⟩).toNat = 0x40 ∧
    labM.keys .sp 0x40 8 true = .ok (addrs 0x40 8) ∧ labM.keys .cl 0x40 8 true = .ok (addrs 0x40 8) ∧ labM.unfetched .sp 0x40 8 10 = false ∧
    labM.unfetched .cl 0x40 8 10 = false ∧ labM.spBlocked 0x40 8 true 10 = false ∧ labM.porchRoom .cl 0x40 8 = true ∧ labM.core.fe.byPhys = false ∧
    labHeld.CanIssue [3, 1, 0] [] ∧ labHeld.spBlocked 0x40 8 true 10 = true := by
  refine ⟨issue labM_free _ _, inWin (by decide +kernel), inWin (by decide +kernel), by decide +kernel, by decide +kernel, by decide +kernel, by decide +kernel,
    by decide +kernel, by decide +kernel, by decide +kernel, by decide +kernel, issue (by decide +kernel) _ _, by decide +kernel⟩
theorem wit_StoresWrite_full : labFull.CanIssue [3, 1, 0] [] ∧ labFull.porchRoom .at 0x40 8 = false ∧ labFull.CanTrap ∧ wfld labFull.pkg.notify.thr 0 16 = 0 ∧
    labFull.keys .at 0x40 8 true = .ok (addrs (keyVault 0 0x40) 8) ∧ labFull.unfetched .at 0x40 8 10 = false := by
  refine ⟨issue (by decide +kernel) _ _, ?_, ⟨by decide +kernel, by decide +kernel⟩, by decide +kernel⟩
  have hn : labFull.porchNeed .at 0x40 8 = [1] := by
    have h : labFull.core.lsu.porch.any (labFull.mine .at 1) = false := by
      show (List.replicate porchMax _).any _ = false
      rw [List.any_replicate, if_neg (by decide)]
      decide +kernel
    show ([1] : List Nat).filter (fun k => !labFull.core.lsu.porch.any (labFull.mine .at k)) = [1]
    simp [h]
  have hl : labFull.core.lsu.porch.length = porchMax := List.length_replicate
  unfold State.porchRoom
  rw [hn, hl]
  decide

theorem test_stores : (nextIs (exec (.stSp .h 3 ⟨1, 0, 0, 17⟩) labM) (fun t => t.core.mems.sp.le 0x40 4 == 0x83778880) &&
    nextIs (exec (.stSp .d 3 ⟨1, 0, 0, 16⟩) labHeld) (fun t => t.core.mems.sp.le 0x40 4 == 0x83828180 && t.core.lsu.heldSt.length == 2) &&
    nextIs (exec (.stAt .b false 3 ⟨1, 0, 0, 16⟩) labM) (fun t => t.porchByte .at 0x40 0 99 == some 0x88 && t.mem == labM.mem) &&
    nextIs (exec (.stCl .w true 3 ⟨1, 0, 0, 16⟩) labM) (fun t => t.core.lsu.ms == [⟨.put [0x88, 0x77, 0x66, 0x55], addrs 0x40 4, 2, 10⟩] && t.core.lsu.porch == []) &&
    nextIs (exec (.stRa .b false 3 ⟨1, 0, 0, 16⟩) labM) (fun t => t.porchByte .at 0x40 0 99 == some 0x88) &&
    nextIs (exec (.stHs .b true 3 ⟨1, 0, 0, 16⟩) labM) (fun t => t.core.lsu.ms.map (·.path) == [3]) &&
    nextIs (exec (.stPr .b true 3 ⟨2, 8, 0, 0⟩) labM) (fun t => t.core.lsu.ms.map (·.path) == [4])) = true := by decide +kernel

theorem wit_AmosIssue : labM.CanIssue [3, 8, 0] [3] ∧ labM.CanIssue [3, 9, 8] [3] ∧ labM.core.lsu.acc.length < 32 ∧ labM.unfetched .cl 0x40 8 10 = false ∧ labM.InWindow .cl 0x40 8 ∧
    (opAddr labM ⟨8, 0, 0, 0⟩).toNat = 0x40 ∧ 0x40 % 8 = 0 ∧ labM.keys .cl 0x40 8 true = .ok (addrs 0x40 8) ∧ labM.keys .pr (2 ^ 56 + 0x40) 4 true = .ok (addrs (keyPeer 7 0x40) 4) := by
  refine ⟨issue labM_free _ _, issue labM_free _ _, by decide +kernel, by decide +kernel, inWin (by decide +kernel), by decide +kernel⟩

/-- An AMO on the bytes of .CL at 0x40, its write and its return: what memory holds, and g3. -/
def amo (i : Instr) (m r : Word) : Bool :=
  nextIs (exec i labM) fun t => nextIs (exec (.memorySideWriteComplete 0) t) fun u => nextIs (exec (.accessDataReturn 0) u) fun v =>
    v.mem.le 0x40 8 == m.toNat && v.g 3 == r
theorem test_amo : (amo (.amoAdd .cl false false 3 ⟨8, 0, 0, 0⟩) 0x98A8B8C8D8E8F908 0x8786858483828180 && amo (.amoAdd .cl true false 3 ⟨8, 0, 0, 0⟩) 0x87868584D8E8F908 0xFFFFFFFF83828180 &&
    amo (.amoAnd .cl false false 3 ⟨8, 0, 0, 0⟩) (0x8786858483828180 &&& 0x1122334455667788) 0x8786858483828180 && amo (.amoSwap .cl false true 3 ⟨8, 0, 0, 0⟩) 0x1122334455667788 0x8786858483828180 &&
    amo (.amoOr .cl false false 3 ⟨8, 0, 0, 0⟩) (0x8786858483828180 ||| 0x1122334455667788) 0x8786858483828180 &&
    amo (.amoXor .cl false false 3 ⟨8, 0, 0, 0⟩) (0x8786858483828180 ^^^ 0x1122334455667788) 0x8786858483828180) = true := by decide +kernel
theorem test_amo_order : (amo (.amoMin .cl false false 3 ⟨8, 0, 0, 0⟩) 0x8786858483828180 0x8786858483828180 && amo (.amoMax .cl false false 3 ⟨8, 0, 0, 0⟩) 0x1122334455667788 0x8786858483828180 &&
    amo (.amoMinu .cl false false 3 ⟨8, 0, 0, 0⟩) 0x1122334455667788 0x8786858483828180 && amo (.amoMaxu .cl false false 3 ⟨8, 0, 0, 0⟩) 0x8786858483828180 0x8786858483828180 &&
    amo (.amoCas .cl false true 3 9 8 0) 0x8786858483828180 0x8786858483828180) = true := by decide +kernel
theorem test_amo_misaligned : nextIs (exec (.amoAdd .cl false false 3 ⟨10, 0, 0, 0⟩) labM) (tookTrap .illegalOperand 1) = true := by decide +kernel

/-- labM with a load of word size into g7 that has its bytes, an AMO into g4, and a held store. -/
def labRet : State := labM.lsu fun l => { l with
  acc := [⟨.load 7 .w, .sp, 0x40, 4, [], false, some [1, 2, 3, 0x84], 4, none⟩, ⟨.amo 4 true, .cl, 0x40, 4, [], false, some [0, 0, 0, 0x80], 5, none⟩,
    ⟨.load 6 .b, .sp, 0x40, 1, [], false, none, 3, none⟩]
  heldSt := [⟨0x44, [1, 2], 2⟩] }
theorem wit_DataReturns : (∃ a, labRet.core.lsu.acc[0]? = some a ∧ a.data = some [1, 2, 3, 0x84] ∧ a.kind = .load 7 .w) ∧
    (∃ a, labRet.core.lsu.acc[1]? = some a ∧ a.data = some [0, 0, 0, 0x80] ∧ a.kind = .amo 4 true) :=
  ⟨⟨_, rfl, rfl, rfl⟩, ⟨_, rfl, rfl, rfl⟩⟩
theorem wit_DataReturns_release : (∃ h, labRet.core.lsu.heldSt[0]? = some h ∧ labRet.spBlocked h.addr h.bytes.length true h.seq = false) ∧
    (∃ a, labRet.core.lsu.acc[2]? = some a ∧ a.spc = .sp ∧ a.data = none ∧ labRet.spBlocked a.addr a.len false a.seq = false) ∧ labRet.pkg.poison = [] ∧
    labRet.pkg.weak = [] ∧ labRet.core.mems.sp.wf = true :=
  ⟨⟨_, rfl, by decide +kernel⟩, ⟨_, rfl, rfl, rfl, by decide +kernel⟩, by decide +kernel⟩
theorem test_returns : (nextIs (exec (.accessDataReturn 0) labRet) (fun t => t.g 7 == 0xFFFFFFFF84030201) && nextIs (exec (.accessDataReturn 1) labRet) (fun t => t.g 4 == 0xFFFFFFFF80000000) &&
    nextIs (exec (.rangeCheckerRelease true 0) labRet) (fun t => t.core.mems.sp.le 0x44 2 == 0x0201) &&
    nextIs (exec (.rangeCheckerRelease false 2) labRet) (fun t => (t.core.lsu.acc[2]?).map (·.data) == some (some [0x80]))) = true := by decide +kernel

/-- labM with a write of two bytes and a CAS that matches in flight. -/
def labMs : State := labM.lsu fun l => { l with
  ms := [⟨.put [7, 8], [0x40, 0x41], 2, 4⟩, ⟨.amo .cas true 0x83828180 0x55, addrs (keyVault 0 0x40) 4, 0, 5⟩]
  acc := [⟨.amo 4 true, .at, 0x40, 4, [], false, none, 5, none⟩] }
theorem wit_MemorySideWritesLand : labMs.core.lsu.ms[0]? = some ⟨.put [7, 8], [0x40, 0x41], 2, 4⟩ ∧ labMs.msBehind 0 ⟨.put [7, 8], [0x40, 0x41], 2, 4⟩ = false ∧
    labMs.moving [0x40, 0x41] = false ∧ ([0x40, 0x41] : List Nat).Nodup ∧ (addrs (keyVault 0 0x40) 4).Nodup ∧
    labMs.core.lsu.ms[1]? = some ⟨.amo .cas true 0x83828180 0x55, addrs (keyVault 0 0x40) 4, 0, 5⟩ ∧
    labMs.msBehind 1 ⟨.amo .cas true 0x83828180 0x55, addrs (keyVault 0 0x40) 4, 0, 5⟩ = false ∧ labMs.moving (addrs (keyVault 0 0x40) 4) = false ∧
    (0x83828180 : Word).toNat < 2 ^ 32 ∧ labMs.pkg.poison = [] := by decide +kernel
theorem test_writes_land : (nextIs (exec (.memorySideWriteComplete 0) labMs) (fun t => t.mem.le 0x40 3 == 0x820807) &&
    nextIs (exec (.memorySideWriteComplete 1) labMs) fun t => t.mem.le (keyVault 0 0x40) 8 == 0x8786858400000055 &&
      (t.core.lsu.acc[0]?).map (·.data) == some (some [0x80, 0x81, 0x82, 0x83])) = true := by decide +kernel

/-! ### Queues and streams -/

/-- labM with an LDQ in flight, an LDSC in flight that has its bytes, a stream on lq3, an item in each of sq0 and sq1, and a stream and a claim that take them. -/
def labQ : State :=
  let st : Stream := ⟨.sp, 0x40, ⟨64, 1, 0, 0, 16, 0, 0⟩, 0, false, 5, [2]⟩
  let s := withG labM [(12, 0x0001000000000001), (13, 16), (14, 0x0008000000000000), (16, 0x0001000000000000), (17, 0x1FFFFF)]
  let s := s.lsu fun l => { l with acc := [⟨.ldq 1 7 64, .sp, 0x40, 64, [], false, some [1, 2], 7, none⟩, ⟨.ldsc 8 1, .sp, 0x40, 2, [], false, some [3, 4], 8, none⟩] }
  s.qs fun u => { u with
    lq := u.lq.set 1 [⟨7, none, 0, none, [], false⟩]
    lin := u.lin.set 3 [st]
    sq := (u.sq.set 0 [9]).set 1 [10]
    taker := (u.taker.set 0 [.claim .sp 0x200 64 (addrs 0x200 64) false 6]).set 1 [.stream { st with start := 0x100, pops := [] }]
    scale := [⟨8, 8, none⟩] }
theorem labQ_free : freeA labQ = true := by decide +kernel
theorem labQ_trap : labQ.CanTrap := ⟨by decide +kernel, by decide +kernel⟩

theorem wit_QueueFormsIssue : labM.CanIssue [1, 0] [] ∧ labM.core.lsu.acc.length < 32 ∧ labM.core.qs.lq[(7 : Fin 8)].length < 16 ∧ labM.core.qs.lin[(7 : Fin 8)] = [] ∧
    labM.InWindow .cl 0x40 64 ∧ labM.keys .cl 0x40 64 false = .ok (addrs 0x40 64) ∧ labM.core.qs.scale.length + 32 ≤ 256 ∧ labM.scloadAhead = false ∧ labM.InWindow .sp 0x40 64 ∧
    labM.keys .sp 0x40 64 false = .ok (addrs 0x40 64) ∧ labM.core.qs.taker[(3 : Fin 4)].any isStream = false ∧ labM.unfetched .cl 0x40 64 10 = false ∧
    labM.keys .cl 0x40 64 true = .ok (addrs 0x40 64) ∧ labM.porchRoom .cl 0x40 64 = true := by
  refine ⟨issue labM_free _ _, by decide +kernel, by decide +kernel, by decide +kernel, inWin (by decide +kernel), by decide +kernel, by decide +kernel, by decide +kernel,
    inWin (by decide +kernel), by decide +kernel⟩
theorem wit_QueueFormsIssue_full : labFull.CanIssue [1, 0] [] ∧ labFull.core.qs.taker[(3 : Fin 4)].any isStream = false ∧ labFull.unfetched .at 0x40 64 10 = false ∧
    labFull.InWindow .at 0x40 64 ∧ labFull.keys .at 0x40 64 true = .ok (addrs (keyVault 0 0x40) 64) := by
  refine ⟨issue (by decide +kernel) _ _, by decide +kernel, by decide +kernel, inWin (by decide +kernel), by decide +kernel⟩
/-- LDQ.CL q7, LDSC.SP with 32 entries and STQ.CL sq3 of the bytes at 0x40. -/
theorem wit_QueueFormsComplete : labM.CanIssue [1, 0] [] ∧ labM.InWindow .cl 0x40 64 ∧ labM.InWindow .sp 0x40 64 ∧ (opAddr labM ⟨1, 0, 0, 16⟩).toNat = 0x40 ∧
    (labM.keys .cl 0x40 64 false = .ok (addrs 0x40 64) ∧ labM.core.lsu.acc.length < 32 ∧ labM.core.qs.lq[(7 : Fin 8)].length < 16 ∧ labM.core.qs.lin[(7 : Fin 8)] = []) ∧
    (labM.keys .sp 0x40 64 false = .ok (addrs 0x40 64) ∧ labM.core.qs.scale.length + 32 ≤ 256 ∧ labM.scloadAhead = false) ∧
    (labM.keys .cl 0x40 64 true = .ok (addrs 0x40 64) ∧ labM.core.qs.taker[(3 : Fin 4)].any isStream = false ∧ labM.unfetched .cl 0x40 64 10 = false ∧ labM.porchRoom .cl 0x40 64 = true) :=
  ⟨issue labM_free _ _, inWin (by decide +kernel), inWin (by decide +kernel), by decide +kernel⟩
theorem test_queue_forms : (nextIs (exec (.ldq .cl 7 2 false ⟨1, 0, 0, 16⟩) labM) (fun t => (t.core.qs.lq[(7 : Fin 8)]).length == 1 && t.core.lsu.acc.map (·.len) == [128]) &&
    nextIs (exec (.ldsc .sp 1 ⟨1, 0, 0, 16⟩) labM) (fun t => t.core.qs.scale.length == 32) &&
    nextIs (exec (.stq .cl 3 2 false ⟨1, 0, 0, 24⟩) labM) (fun t => (t.core.qs.taker[(3 : Fin 4)]).length == 1 && t.core.lsu.porch.length == 3)) = true := by decide +kernel

theorem wit_StreamsStartAndStop : labQ.CanIssue [12, 12 + 1, 8] [] ∧ ¬ ((labQ.g 12).extractLsb' 51 13 ≠ 0 ∨ (labQ.g (12 + 1)).getLsbD 63 = true) ∧
    (opAddr labQ ⟨8, 0, 0, 0⟩).toNat % 4 = 0 ∧ ItemsIn labQ .sp (opAddr labQ ⟨8, 0, 0, 0⟩) (shapeIn (labQ.g 12) (labQ.g (12 + 1))) ∧ labQ.core.qs.lin[(3 : Fin 8)].length < 2 ∧
    (labQ.core.qs.taker[(1 : Fin 4)].filter isStream).length < 2 ∧ labQ.CanTrap ∧ (labQ.g 14).extractLsb' 51 13 ≠ 0 ∧ (opAddr labQ ⟨8, 0, 0, 2⟩).toNat % 4 ≠ 0 ∧
    labQ.CanIssue [] [] ∧ labQ.core.qs.taker[(0 : Fin 4)].any isStream = false := by
  refine ⟨issue labQ_free _ _, by decide +kernel, by decide +kernel, ?_, by decide +kernel, by decide +kernel, labQ_trap, by decide +kernel, by decide +kernel, issue labQ_free _ _, by decide +kernel⟩
  unfold ItemsIn State.InWindow
  decide +kernel
theorem wit_StreamsStop : labM.CanIssue [] [] ∧ labM.core.qs.sq[(2 : Fin 4)].length ≤ (labM.core.qs.taker[(2 : Fin 4)].takeWhile fun u => !isStream u).length :=
  ⟨issue labM_free _ _, by decide +kernel⟩
theorem test_streams : (nextIs (exec (.strmIn .sp 3 12 8 0) labQ) (fun t => (t.core.qs.lin[(3 : Fin 8)]).map (·.shape) == [⟨64, 1, 0, 0, 16, 0, 0⟩, ⟨64, 1, 0, 0, 16, 0, 0⟩]) &&
    nextIs (exec (.strmOut .sp false 1 16 8 0) labQ) (fun t => (t.core.qs.taker[(1 : Fin 4)]).length == 2) &&
    nextIs (exec (.strmIn .sp 3 14 8 0) labQ) (tookTrap .illegalOperand 1) && nextIs (exec (.strmOut .sp false 1 12 8 2) labQ) (tookTrap .illegalOperand 1) &&
    nextIs (exec (.strmStop false 3) labQ) (fun t => t.core.qs.lin[(3 : Fin 8)] == [] && t.core.qs.lpop[(3 : Fin 8)] == [2]) &&
    nextIs (exec (.strmStop true 0) labQ) fun t => (t.core.qs.taker[(0 : Fin 4)]).length == 1) = true := by decide +kernel

theorem wit_QueueItemsArrive : (∃ a, labQ.core.lsu.acc[0]? = some a ∧ a.data = some [1, 2] ∧ a.kind = .ldq 1 7 64) ∧
    (∃ a, labQ.core.lsu.acc[1]? = some a ∧ a.data = some [3, 4] ∧ a.kind = .ldsc 8 1 ∧ (labQ.core.qs.scale.filter fun e => e.owner == 8).length = 1) ∧
    (∃ u, labQ.core.fe.sdone = false ∧ labQ.core.fe.unit = .running ∧ labQ.core.qs.lin[(3 : Fin 8)] = [u] ∧ labQ.core.qs.lq[(3 : Fin 8)].length < 16 ∧ labQ.itemFree u = true ∧
      (∀ p : Fin 8, p < 3 → labQ.core.qs.lin[p] = []) ∧ labQ.keys u.spc (itemStart u.start u.shape u.done).toNat u.shape.ilen false = .ok (addrs 0x40 64)) :=
  ⟨⟨_, rfl, rfl, rfl⟩, ⟨_, rfl, rfl, rfl, by decide +kernel⟩, ⟨_, rfl, rfl, rfl, by decide +kernel⟩⟩
theorem wit_QueueItemsLeave : labQ.core.fe.unit = .running ∧ labQ.core.qs.sq[(0 : Fin 4)] = [9] ∧ labQ.core.qs.taker[(0 : Fin 4)] = [.claim .sp 0x200 64 (addrs 0x200 64) false 6] ∧ labQ.spBlocked 0x200 64 true 6 = false ∧
    labQ.core.qs.sq[(1 : Fin 4)] = [10] ∧ (∃ u, labQ.core.qs.taker[(1 : Fin 4)] = [.stream u] ∧ u.shape.ilen ≤ 512 ∧
      labQ.unfetched u.spc (itemStart u.start u.shape u.done).toNat u.shape.ilen u.seq = false ∧ labQ.spBlocked (itemStart u.start u.shape u.done).toNat u.shape.ilen true u.seq = false ∧
      labQ.keys u.spc (itemStart u.start u.shape u.done).toNat u.shape.ilen true = .ok (addrs 0x100 64) ∧ u.spc = .sp) :=
  ⟨rfl, rfl, rfl, by decide +kernel, rfl, ⟨_, rfl, by decide +kernel, by decide +kernel, by decide +kernel, by decide +kernel, rfl⟩⟩
theorem test_queue_items : (nextIs (exec (.ldqAccess 0) labQ) (fun t => (t.core.qs.lq[(1 : Fin 8)]).map (·.data) == [some 0x201]) &&
    nextIs (exec (.ldscAccess 1) labQ) (fun t => t.core.qs.scale.map (·.val) == [some 0x403]) &&
    nextIs (exec (.streamItemFetch 2) labQ) (fun t => (t.core.qs.lq[(3 : Fin 8)]).map (fun i => (i.data, i.arrived, i.pops)) == [(some 0x8786858483828180, 102, [2])] &&
      (t.core.qs.lin[(3 : Fin 8)]).map (·.done) == [1]) &&
    nextIs (exec (.stqItemWrite 0) labQ) (fun t => t.core.mems.sp.le 0x200 8 == 9 && t.core.qs.sq[(0 : Fin 4)] == []) &&
    nextIs (exec (.outputStreamWrite 1) labQ) fun t => t.core.mems.sp.le 0x100 8 == 10 && (t.core.qs.taker[(1 : Fin 4)]).length == 1) = true := by decide +kernel

/-! ### Fences, the barrier, hatches and WAIT -/

theorem writesDone {s : State} (h : s.core.lsu.ms = []) (k : s.core.qs.taker = Vector.replicate 4 []) (named : Nat → Prop) : WritesDone s named := by
  refine ⟨fun w hw => ?_, fun q u hu => ?_⟩
  · rw [h] at hw; cases hw
  · rw [k] at hu; simp at hu

def gangBit : BitVec 128 := BitVec.ofNat 128 (2 ^ 124)
/-- lab as a unit of a gang launch of two units; it has arrived at the barrier, the other one has as well, or the barrier has opened. -/
def labGang : State := { lab with core := { lab.core with slot := { lab.core.slot with act := lab.core.slot.act ||| gangBit } } }
def labAt (gen : Nat) : State := (labGang.fe fun f => { f with barrier := some 3 }).pkgd fun p => { p with bars := [(2, ⟨gen, [7, 6]⟩)] }
/-- lab with a write in flight that is before the FENCE, and a COPY before it. -/
def labBusy : State :=
  (labM.lsu fun l => { l with ms := [⟨.put [1], [0x40], 2, 4⟩] }).eng fun e =>
    { e with q := e.q.set 0 [⟨5, 0, .copy ⟨1, 2, 3, 4, ⟨none, none⟩⟩, [], .rne, [], [], none, none, 0, false, false, false, .waiting, false, []⟩] }

theorem wit_FencesAndBarrier : lab.CanIssue [] [] ∧ WritesDone lab (NamesPath ⟨false, false, false, false, false, false⟩) ∧ lab.commands = [] ∧ AllDone lab ∧ lab.core.fe.cur.instr.isX = false ∧
    lab.isGang = false ∧ lab.CanTrap := by
  refine ⟨issue lab_free _ _, writesDone rfl rfl _, rfl, ⟨?_, ?_, ?_, ?_, ?_⟩, rfl, by decide +kernel, lab_trap⟩
  · exact fun a ha => nomatch ha
  · exact fun a ha => nomatch ha
  · exact fun a ha => nomatch ha
  · exact fun q u hu => by rw [show lab.core.qs.lin = Vector.replicate 8 [] from rfl] at hu; simp at hu
  · exact fun q u hu => by rw [show lab.core.qs.taker = Vector.replicate 4 [] from rfl] at hu; simp at hu
theorem wit_FencesAndBarrier_wait : labBusy.CanIssue [] [] ∧ ¬ WritesDone labBusy (NamesPath ⟨false, false, true, false, false, false⟩) ∧ (∃ c ∈ labBusy.commands, labBusy.earlier 10 c.seq = true) ∧
    ¬ AllDone labBusy := by
  refine ⟨issue (by decide +kernel) _ _, fun h => ?_, ⟨_, List.mem_singleton.mpr rfl, by decide +kernel⟩, fun h => ?_⟩
  · exact h.1 _ (List.mem_singleton.mpr rfl) (by decide +kernel) (.inr (.inr (.inr (.inl ⟨rfl, rfl⟩))))
  · exact h.2.2.1 _ (List.mem_singleton.mpr rfl) (by decide +kernel)
theorem wit_FencesAndBarrier_bar : labGang.CanIssue [] [] ∧ labGang.isGang = true ∧ labGang.core.fe.barrier = none ∧ WritesDone labGang (fun _ => True) ∧
    (labAt 4).CanIssue [] [] ∧ (labAt 4).isGang = true ∧ (labAt 4).core.fe.barrier = some 3 ∧ (look ⟨0, []⟩ (labAt 4).pkg.bars (labAt 4).lctr).gen = 4 ∧ (labAt 3).CanIssue [] [] ∧
    (look ⟨0, []⟩ (labAt 3).pkg.bars (labAt 3).lctr).gen = 3 ∧ (look ⟨0, []⟩ (labAt 3).pkg.bars 2).arrived ≠ [] ∧
    ((labAt 3).pkg.openUnits 2).length = ((labAt 3).pkg.counter 2).outstanding ∧ (∀ u ∈ (labAt 3).pkg.openUnits 2, u ∈ (look ⟨0, []⟩ (labAt 3).pkg.bars 2).arrived) := by
  refine ⟨issue (by decide +kernel) _ _, by decide +kernel, rfl, writesDone rfl rfl _, issue (by decide +kernel) _ _, by decide +kernel, rfl, by decide +kernel, issue (by decide +kernel) _ _,
    by decide +kernel⟩
/-- An instruction waits: it stands again at the head of the A-pipe's queue. -/
def waits (t : State) : Bool := t.core.fe.aStall && t.core.fe.aq.map (·.instr) == [.done]
theorem test_fence : (nextIs (exec (.fence ⟨true, true, false, true, true, false⟩ .sys) labBusy) (fun t => t.core.fe.adone) && nextIs (exec (.fence ⟨false, false, true, false, false, false⟩ .core) labBusy) waits &&
    nextIs (exec (.fence ⟨true, false, false, false, false, true⟩ .die) labBusy) waits && nextIs (exec .afence labBusy) waits && nextIs (exec .afence lab) fun t => t.core.fe.byPhys) = true := by decide +kernel
theorem test_bar : (nextIs (exec .bar labGang) (fun t => waits t && t.core.fe.barrier == some 0 && t.pkg.bars == [(2, ⟨0, [6]⟩)]) && nextIs (exec .bar (labAt 4)) (fun t => t.core.fe.adone && t.core.fe.barrier == none) &&
    nextIs (exec .bar (labAt 3)) waits && nextIs (exec .bar lab) (tookTrap .gangRequired 1) && nextIs (exec (.barrierRelease 2) (labAt 3)) fun t => t.pkg.bars == [(2, ⟨4, []⟩)]) = true := by decide +kernel

/-- lab with h1 bound A-pipe to A-pipe's peer: h1 is pushed by the A-pipe, h2 popped by it and holding a token, h3 pushed and h4 popped by the X-pipe, h5 not bound with a token left. -/
def labH : State := lab.qs fun u => { u with h := ((((u.h.set 1 ⟨0x92, []⟩).set 2 ⟨0xA1, [none]⟩).set 3 ⟨0xA3, []⟩).set 4 ⟨0xB2, []⟩).set 5 ⟨0, [none]⟩ }
/-- labH where the X-pipe has issued a write of sq1 at place 12 that is in flight, and one of sq2 that has landed; and a push of h6 is due. -/
def labH2 : State :=
  (((labH.fe fun f => { f with sq0 := [(12, 1), (13, 2)], hpushes := [(6, 3, 0)] })).regs fun r => { r with fly := [⟨.sq 1, 5, allTrue, 9, 0, 12, 0, []⟩] })
theorem labH_free : freeA labH = true := by decide +kernel
theorem labH2_free : freeA labH2 = true := by decide +kernel
theorem wit_HatchForms : labH.CanIssue [] [] ∧ labH.CanTrap ∧ labH.hatchBusy 7 = false ∧ labH.core.qs.h[(7 : Fin 16)].toks = [] ∧ labH.hatchBusy 5 = false ∧ labH.core.qs.h[(5 : Fin 16)].toks ≠ [] ∧
    BoundP labH 1 1 ∧ ¬ BoundP labH 5 1 ∧ BoundP labH 3 2 ∧ labH.core.fe.sq0 = [] ∧ ¬ BoundP labH 1 2 ∧ BoundC labH 2 1 ∧ labH.core.qs.h[(2 : Fin 16)].toks = [none] ∧
    ¬ BoundC labH 3 1 ∧ BoundC labH 4 2 ∧ ¬ BoundC labH 2 2 := by
  unfold BoundP BoundC
  refine ⟨issue labH_free _ _, ⟨by decide +kernel, by decide +kernel⟩, ?_⟩
  decide +kernel
/-- h8 is popped by the A-pipe and empty. -/
theorem wit_HatchForms_wait : labH2.CanIssue [] [] ∧ labH2.hatchBusy 6 = true ∧ labH2.core.fe.cur.instr.isX = false ∧ BoundP labH2 3 2 ∧ labH2.core.fe.sq0[0]? = some (12, 1) ∧
    labH2.core.regs.fly = [] ++ ⟨.sq 1, 5, allTrue, 9, 0, 12, 0, []⟩ :: [] ∧ labH2.core.fe.sq0[1]? = some (13, 2) ∧ (∀ p' ∈ labH2.core.fe.sq0.take 1, ¬ (10 < p'.1 ∧ p'.2 = 2)) ∧
    (∀ y ∈ labH2.core.regs.fly, ¬ (y.ord = 1 ∧ y.dst = .sq 2)) ∧ labH2.core.qs.h[(3 : Fin 16)].toks.length < 16 := by
  unfold BoundP
  refine ⟨issue labH2_free _ _, by decide +kernel, rfl, by decide +kernel⟩
theorem wit_HatchForms_empty : BoundC (labH.qs fun u => { u with h := u.h.set 2 ⟨0xA1, []⟩ }) 2 1 ∧ (labH.qs fun u => { u with h := u.h.set 2 ⟨0xA1, []⟩ }).core.qs.h[(2 : Fin 16)].toks = [] := by
  unfold BoundC
  decide +kernel
theorem test_hatches : (nextIs (exec (.hbind 7 0xC1) labH) (fun t => t.core.qs.h[(7 : Fin 16)] == ⟨0xC1, []⟩) && nextIs (exec (.hbind 5 0) labH) (tookTrap .illegalOperand 1) &&
    nextIs (exec (.hbind 6 0) labH2) waits && nextIs (exec (.hpush 1 none) labH) (fun t => t.core.fe.hpushes == [(1, 10, 0)]) && nextIs (exec (.hpush 5 none) labH) (tookTrap .illegalOperand 1) &&
    nextIs (exec (.hpush 3 (some 1)) labH) (fun t => t.core.qs.spush[(1 : Fin 4)] == [(3, 10)]) && nextIs (exec (.hpush 3 (some 1)) labH2) (fun t => t.core.regs.fly.map (·.pushes) == [[3]]) &&
    nextIs (exec (.hpush 3 (some 2)) labH2) (fun t => t.core.qs.h[(3 : Fin 16)].toks == [none]) && nextIs (exec (.hpop 2 none) labH) (fun t => t.core.qs.h[(2 : Fin 16)].toks == []) &&
    nextIs (exec (.hpop 4 (some 7)) labH) (fun t => t.core.qs.lpop[(7 : Fin 8)] == [4]) && nextIs (exec (.hpop 3 none) labH) (tookTrap .illegalOperand 1)) = true := by decide +kernel

/-- lab with references: g1 to the launch, g2 to a unit that has ended, g3 with a reserved bit, g4 to the unit itself's launch as FIN, g5 to unit 7. -/
def labW : State :=
  let s := withG lab [(1, 0x1002), (2, 0x2009), (3, 0x1000000), (5, 0x1007), (6, 1), (8, 0x1008)]
  s.pkgd fun p => { p with counters := p.counters ++ [(8, ⟨false, 1, 2, 1, 3, 0, some 2, 5, 4⟩), (9, ⟨true, 1, 1, 1, 0, 0, none, 5, 4⟩)] }
theorem labW_free : freeA labW = true := by decide +kernel
theorem wit_WaitsOnCounters : labW.CanIssue [1, 6] [7] ∧ labW.CanIssue [5, 6] [7] ∧ (labW.g 5).toNat < 2 ^ 24 ∧ (labW.pkg.counter 7).gen % 4096 = (labW.g 5).toNat / 4096 ∧
    (labW.pkg.counter 7).live = true ∧ (labW.pkg.counter 7).job = (labW.pkg.counter labW.uctr).job ∧ (labW.pkg.counter 7).state = 1 ∧ 7 ∉ chainOf labW.pkg 5 labW.uctr ∧
    2 ∈ chainOf labW.pkg 5 labW.uctr ∧ (labW.g 6).toNat < (labW.pkg.counter 2).outstanding ∧ (labW.pkg.counter 7).outstanding ≤ (labW.g 6).toNat ∧
    (labW.pkg.counter 9).gen % 4096 ≠ (labW.g 2).toNat / 4096 ∧ (labW.pkg.counter 8).live = false ∧ 2 ^ 24 ≤ (labW.g 3).toNat ∧ labW.CanTrap ∧
    (labW.fe fun f => { f with waitOn := some 0x1008 }).core.fe.waitOn = some (labW.g 8) :=
  by and_intros <;> first | exact issue labW_free _ _ | exact ⟨by decide +kernel, by decide +kernel⟩ | decide +kernel
theorem test_wait : (nextIs (exec (.waitRd 7 1) labW) (fun t => t.g 7 == 0x2800000000000002) && nextIs (exec (.waitFin 7 5) labW) (fun t => waits t && t.core.fe.waitOn == some 0x1007) &&
    nextIs (exec (.waitLe 7 1 6) labW) waits && nextIs (exec (.waitLe 7 5 0) labW) (fun t => t.g 7 == 0x2400000000000000) && nextIs (exec (.waitFin 7 8) labW) (fun t => t.g 7 == 0xE000000000000000) &&
    nextIs (exec (.waitRd 7 2) labW) (fun t => t.g 7 == 0xE000000000000000) && nextIs (exec (.waitFin 7 1) labW) (tookTrap .illegalOperand 1) && nextIs (exec (.waitRd 7 3) labW) (tookTrap .illegalOperand 1) &&
    nextIs (exec (.waitFin 7 8) (labW.fe fun f => { f with waitOn := some 0x1008 })) fun t => t.g 7 == 0x4400000006000000) = true := by decide +kernel

/-! ### System registers, traps and layer programs -/

/-- lab in handler mode, with what a trap of the A-pipe at 0x900 has kept. -/
def labR : State :=
  let keep : Resume := ⟨1, 0x900, 0x910, [{ labSlot with pc := 0x900 }], [], 0x920, none, none, none, Vector.replicate 4 0, 4, none⟩
  let s := lab.fe fun f => { f with handler := true, resume := some keep }
  (s.sys fun y => { y with trapPc := 0x900, trapOpc := 0x910, trapCause := 0x10000000002 }).regs fun r => { r with rpl := [⟨.s 3, 7, allTrue, 2, 0, 3, 0, []⟩] }
theorem labR_free : freeA labR = true := by decide +kernel
/-- labR whose handler has written one new address to TRAP.PC and TRAP.OPC; labR with a command on the side path. -/
def labR2 : State := labR.sys fun y => { y with trapPc := 0x940, trapOpc := 0x940 }
def labR3 : State := labR.eng fun e => { e with side := [⟨12, 0, .sdset 1 2 ⟨none, none⟩, [5], .rne, [], [], none, none, 0, true, false, false, .waiting, false, []⟩] }

theorem wit_SystemRegisters : labA.CanIssue [] [7] ∧ (∀ n ∈ [0, 0xFF, 0x100, 0x101, 0x104, 0x110, 0x11F, 0x120, 0x124, 0x127, 0x130, 0x136, 0x139, 0x13C], (sysReg labA.core.sys n).isSome = true) ∧
    (∀ n ∈ [0x105, 0x10F, 0x121, 0x123, 0x128, 0x12F, 0x13D, 0xFFFF], sysReg labA.core.sys n = none) ∧ labA.core.fe.mark = none ∧ labA.core.regs.fly = [] ∧ labA.CanTrap ∧
    labA.CanIssue [4] [] ∧ labA.core.fe.xq = [] ∧ labA.core.fe.kernel = none ∧ ¬ BadWrite labA 0 (labA.g 0) ∧ labA.spBlocked 0 16384 true 10 = false ∧ BadWrite labA 0x100 (labA.g 4) ∧
    ¬ BadWrite labA 0x110 (labA.g 5) ∧ BadWrite labA 0x131 (labA.g 5) ∧ BadWrite labA 0x110 (labA.g 1) ∧ ¬ BadWrite labR 0x131 (labR.g 5) := by
  unfold BadWrite HandlerReg
  refine ⟨issue labA_free _ _, by decide +kernel, by decide +kernel, rfl, by decide +kernel, labA_trap, issue labA_free _ _, rfl, rfl, ?_⟩
  decide +kernel
theorem test_system_registers : (nextIs (exec (.rdsr 7 0x13C) labA) (fun t => t.g 7 == 0x2001) && nextIs (exec (.rdsr 7 0) labA) (fun t => t.g 7 == 13) &&
    nextIs (exec (.rdsr 7 0x105) labA) (tookTrap .illegalOperand 1) && nextIs (exec (.wrsr 0 0xFF) labA) (fun t => t.bankFmt 0xFF == 0 && t.bankFmt 0xFE == 13) &&
    nextIs (exec (.wrsr 4 0x100) labA) (tookTrap .illegalOperand 1) && nextIs (exec (.wrsr 5 0x104) labA) (tookTrap .illegalOperand 1) && nextIs (exec (.wrsr 5 0x131) labA) (tookTrap .illegalOperand 1) &&
    nextIs (exec (.wrsr 0 0x131) labR) (fun t => t.core.sys.trapPc == 0) &&
    nextIs (exec (.icinv 5 0xFFFFFFFF) (labA.fe fun f => { f with icache := [(0x3F, []), (0x40, [])] })) fun t => t.core.fe.icache == [(0x40, [])]) = true := by decide +kernel
/-- A write of ones to FP.FLAGS clears. -/
theorem test_flags_clear : nextIs (exec (.wrsr 6 0x101) (withG (lab.sys fun y => { y with fpFlags := 0x1F }) [(6, 0x11)])) (fun t => t.core.sys.fpFlags == 0x0E) = true := by decide +kernel

theorem wit_PrefixesAndTrap : lab.CanIssue [] [] ∧ lab.CanTrap ∧ lab.core.fe.xdone = false ∧ (lab.sys fun y => { y with trapVec := 0x2000 }).core.sys.trapVec.getLsbD 0 = false ∧
    labR.CanIssue [] [] ∧ labR.core.fe.handler = true ∧ labR.core.fe.xdone = false :=
  ⟨issue lab_free _ _, lab_trap, rfl, by decide +kernel, issue labR_free _ _, rfl, rfl⟩
theorem test_trap : (nextIs (exec (.trap 0xDEADBEEF) lab) (fun t => tookTrap .software 1 t && t.core.sys.trapInfo == 0xDEADBEEF && t.core.sys.trapPc == 0x1000 && t.core.fe.pc == 0x2000) &&
    nextIs (exec (.trap 1) (lab.sys fun y => { y with trapVec := 0x2000 })) (fun t => t.core.fe.unit == .ended && (t.pkg.counter 6).state == 5) &&
    nextIs (exec (.trap 1) labR) (fun t => t.core.fe.unit == .ended && wfld t.core.sys.trapCause 0 8 == 0x23 && t.core.sys.trapPc == 0x900) &&
    nextIs (exec (.ximm 5) lab) (fun t => t.core.fe.cur.ximm == some 5) && nextIs (exec (.stamp 6) lab) fun t => t.core.fe.cur.stamp == some 6) = true := by decide +kernel

theorem wit_DoneAndEret : lab.CanIssue [] [] ∧ lab.core.fe.handler = false ∧ lab.core.fe.resume = none ∧ lab.CanTrap ∧ labR.CanIssue [] [] ∧ labR.core.fe.handler = true ∧ labR.core.eng.side = [] ∧
    labR.core.fe.causes = [] ∧ (∃ r, labR.core.fe.resume = some r ∧ r.held = none ∧ r.pipe ≠ 2 ∧ r.upc = none ∧ r.kernel = none ∧ labR.core.sys.trapPc = r.pc ∧ labR.core.sys.trapOpc = r.opc ∧
      labR2.core.fe.resume = some r ∧ labR2.core.sys.trapPc = labR2.core.sys.trapOpc ∧ labR2.core.sys.trapPc ≠ r.pc) ∧ labR.core.fe.xq = [] ∧ labR.core.fe.kernel = none ∧ labR.core.regs.fly = [] ∧
    labR.core.sys.trapCause.getLsbD 31 = false ∧ labR.core.sys.trapCause.getLsbD 33 = false ∧ labR2.CanIssue [] [] ∧ labR3.CanIssue [] [] ∧ labR3.core.eng.side ≠ [] ∧ labR3.core.fe.cur.instr.isX = false := by
  refine ⟨issue lab_free _ _, rfl, rfl, lab_trap, issue labR_free _ _, rfl, rfl, rfl, ⟨_, rfl, rfl, by decide, rfl, rfl, rfl, rfl, rfl, rfl, by decide +kernel⟩, rfl, rfl, rfl, by decide +kernel, by decide +kernel,
    issue (by decide +kernel) _ _, issue (by decide +kernel) _ _, by decide +kernel, rfl⟩
theorem test_done_eret : (nextIs (exec .done lab) (fun t => t.core.fe.unit == .ending && t.core.fe.block) && nextIs (exec .done labR) (fun t => t.core.fe.unit == .ending && !t.core.fe.handler && t.core.regs.rpl == []) &&
    nextIs (exec .eret lab) (tookTrap .illegalOperand 1) && nextIs (exec .eret labR) (fun t => t.core.fe.aq.map (·.pc) == [0x900] && t.core.fe.pc == 0x920 && !t.core.fe.handler && t.core.regs.fly.map (·.due) == [2]) &&
    nextIs (exec .eret labR2) (fun t => t.core.fe.aq == [] && t.core.fe.pc == 0x940) && nextIs (exec .done labR3) waits) = true := by decide +kernel

/-- lab in a macro at micro-address 300, with micro loops 280 to 310 and 290 to 300 active, the inner one with a pass left; entry 3 is WGRAD at 128. -/
def labL : State :=
  let s := withG lab [(1, 4), (2, 2 ^ 32), (5, 5)]
  let s := s.fe fun f => { f with mac := some ⟨{ labSlot with instr := .layer 2 3 }, 301⟩, cur := { f.cur with upc := some 300 }, cstore := [(3, 0xC000000000000080)] }
  s.sys fun y => { y with mloopStk := #v[BitVec.ofNat 64 (2 ^ 63 + 280 * 2 ^ 45 + 310 * 2 ^ 32 + 1), BitVec.ofNat 64 (2 ^ 63 + 290 * 2 ^ 45 + 300 * 2 ^ 32 + 2), 0, 0] }
/-- labL with no loop active; with all four active. -/
def labL0 : State := labL.sys fun y => { y with mloopStk := Vector.replicate 4 0 }
def labL4 : State := labL.sys fun y => { y with mloopStk := Vector.replicate 4 (BitVec.ofNat 64 (2 ^ 63 + 280 * 2 ^ 45 + 310 * 2 ^ 32 + 1)) }
theorem labL_free : freeA labL = true := by decide +kernel
theorem labL0_free : freeA labL0 = true := by decide +kernel
theorem wit_LayerPrograms : labL.CanIssue [] [] ∧ labL.CanIssue [1, 5] [] ∧ labL.CanTrap ∧ (look 0 labL.core.fe.cstore 3).getLsbD 63 = true ∧ (look 0 labL.core.fe.cstore 3).toNat / 2 ^ 61 % 4 = 2 ∧
    128 ≤ (look 0 labL.core.fe.cstore 3).toNat % 8192 ∧ (look 0 labL.core.fe.cstore 4).getLsbD 63 = false ∧ condTrue .eq (labL.g 1) (labL.g 5) = false ∧ condTrue .ne (labL.g 1) (labL.g 5) = true ∧
    Innermost labL 1 ∧ wfld labL.core.sys.mloopStk[1] 45 13 ≤ (290 : BitVec 13).toNat ∧ (300 : BitVec 13).toNat ≤ wfld labL.core.sys.mloopStk[1] 32 13 ∧
    ¬ ((301 : BitVec 13).toNat ≤ wfld labL.core.sys.mloopStk[1] 32 13) ∧ NoLoop labL0 ∧ labL0.CanIssue [1] [] ∧ (labL0.g 1).toNat < 2 ^ 32 ∧ labL0.core.fe.cur.upc.getD 0 < (8191 : BitVec 13).toNat ∧
    labL0.g 0 = 0 ∧ labL0.g 1 ≠ 0 ∧ (∀ j : Fin 4, labL0.core.sys.mloopStk[j].getLsbD 63 = true ↔ j < 0) ∧ 2 ^ 32 ≤ (labL.g 2).toNat ∧ (300 : BitVec 13).toNat ≤ labL.core.fe.cur.upc.getD 0 ∧
    labL4.CanIssue [1] [] ∧ labL4.CanTrap ∧ (∀ i : Fin 4, labL4.core.sys.mloopStk[i].getLsbD 63 = true) := by
  unfold Innermost NoLoop
  and_intros <;> first | exact issue (by decide +kernel) _ _ | exact ⟨by decide +kernel, by decide +kernel⟩ | decide +kernel
/-- Where micro-fetch goes on. -/
def upc (t : State) : Option Nat := t.core.fe.mac.map (·.upc)
theorem test_layer : (nextIs (exec (.layer 2 3) labL) (fun t => upc t == some 128) && nextIs (exec (.layer 1 3) labL) (tookTrap .illegalOperand 1) &&
    nextIs (exec (.mbr .ne 1 5 295) labL) (fun t => upc t == some 290 && wfld t.core.sys.mloopStk[1] 0 32 == 1) && nextIs (exec (.mbr .ne 1 5 301) labL) (tookTrap .illegalOperand 1) &&
    nextIs (exec (.mbr .eq 1 5 295) labL0) (fun t => upc t == some 301) && nextIs (exec (.mloop 1 303) labL0) (fun t => upc t == some 301 && t.core.sys.mloopStk[0] == 0x8025A12F00000004) &&
    nextIs (exec (.mloop 0 303) labL0) (fun t => upc t == some 304 && t.core.sys.mloopStk[0] == 0) && nextIs (exec (.mloop 2 303) labL0) (tookTrap .illegalOperand 1) &&
    nextIs (exec (.mloop 1 303) labL4) (tookTrap .illegalOperand 1) && nextIs (exec (.mbnd true) labL) (tookTrap .illegalOperand 1) &&
    nextIs (exec (.mbnd true) labL0) (fun t => upc t == none && t.core.fe.pc == 0x1008) && nextIs (exec (.mbnd false) labL0) fun t => upc t == some 301 && t.core.fe.bnd) = true := by decide +kernel

/-! ### The X-pipe -/

/-- No X-cycle has to be begun, and no source is taken from a queue. -/
def freeX (s : State) (srcs : List XOp) : Bool :=
  !s.core.fe.xdone && srcs.all fun o => match o with | .pop _ | .peek _ => false | _ => true

theorem issueX {s : State} {srcs : List XOp} {d : Option XDst} (h : freeX s srcs = true) (hr : ∀ q, d = some (.sq q) → s.core.qs.sq[q].length + s.flyTo q < 16) : s.CanIssueX srcs d := by
  simp only [freeX, Bool.and_eq_true, Bool.not_eq_true', List.all_eq_true] at h
  have hp : ∀ q : Fin 8, popCount srcs q = 0 ∧ XOp.peek q ∉ srcs := fun q => by
    refine ⟨?_, fun hm => by simpa using h.2 _ hm⟩
    simp only [popCount, List.length_eq_zero_iff, List.filter_eq_nil_iff, beq_iff_eq]
    intro o ho e
    subst e
    simpa using h.2 _ ho
  refine ⟨fun q j hj => ?_, ?_, hr, fun hx => by rw [h.1] at hx; cases hx⟩
  · rcases hj with hj | ⟨-, hj⟩
    · rw [(hp q).1] at hj; omega
    · exact absurd hj (hp q).2
  · have : s.neededToks srcs = [] := by
      simp only [State.neededToks, List.flatMap_eq_nil_iff]
      intro q _
      simp [(hp q).1, (hp q).2]
    rw [this]
    rfl

/-- lab with vector registers by number and value and scalar registers; p1 is true in lane 0 alone, p2 in the lanes of the first two 32-bit elements. -/
def labV : State := lab.regs fun r => { r with
  v := [(1, 0x3FC00000), (2, 0x40000000), (3, 0x3F800000), (4, 0x7F), (5, 2), (6, 0x80), (7, 0x3FC0), (8, 0x40400000), (9, 0x40000000), (10, 0x3C), (11, 0x7F00), (12, 0xFF00), (13, 0x38),
    (14, 0x00030002), (15, 0xBFC000003FC00000), (32, 0x55)].foldl (fun v (p : Fin 64 × Vec) => v.set p.1.val p.2) r.v
  s := ((r.s.set 1 3).set 2 0x40000000).set 3 0xFFFFFFFF
  p := (r.p.set 1 1).set 2 0x101 }
/-- labV with an item and a token on lq0, an item in sq0 and three results in flight that are due; something has issued in the X-cycle. -/
def labX : State :=
  let s := labV.qs fun u => { u with lq := (u.lq.set 0 [⟨3, some 0x40800000, 99, none, [4], false⟩]).set 1 [⟨4, some 7, 99, none, [], false⟩, ⟨5, some 8, 99, none, [], false⟩, ⟨6, none, 0, none, [], false⟩], sq := u.sq.set 0 [5], h := u.h.set 4 ⟨0xB2, [none]⟩ }
  let s := s.regs fun r => { r with fly := [⟨.v 2, 7, 3, 5, 1, 4, 0, []⟩, ⟨.v 2, 0x98, 2, 5, 2, 5, 0, []⟩, ⟨.s 1, 9, allTrue, 4, 0, 3, 0, []⟩, ⟨.p 3, 1, allTrue, 5, 0, 6, 0, []⟩, ⟨.sq 0, 6, allTrue, 5, 0, 7, 0, []⟩, ⟨.s 2, 9, allTrue, 6, 0, 8, 0, []⟩] }
  s.fe fun f => { f with xdone := true, xnow := 4 }
/-- labX in Strict mode, where the first item of lq0 has its ready time and has not come. -/
def labXs : State := (labX.sys fun y => { y with timingCtl := 1 }).qs fun u => { u with lq := u.lq.set 0 [⟨3, none, 0, some 50, [], false⟩] }

/-- Every form without a source in a queue may issue in labV, for a destination of each kind. -/
theorem labV_issue (srcs : List XOp) (h : freeX labV srcs = true) (d : Option XDst) : labV.CanIssueX srcs d :=
  have hr : ∀ q : Fin 4, labV.core.qs.sq[q].length + labV.flyTo q < 16 := by decide +kernel
  issueX h fun q _ => hr q

theorem labX_issue : labX.CanIssueX [.pop 0, .v 1] (some (.sq 0)) := by
  refine ⟨fun q j hj => ?_, by decide +kernel, fun q hq => by cases hq; decide +kernel, fun _ => by decide +kernel⟩
  have hq : q = 0 ∧ j = 0 := by
    revert hj
    rcases hq : decide (q = 0) with _ | _
    · have : popCount [XOp.pop 0, .v 1] q = 0 := by revert hq; revert q; decide
      rw [this]; simp
    · simp only [decide_eq_true_eq] at hq
      subst hq
      simp [popCount]
  obtain ⟨rfl, rfl⟩ := hq
  exact ⟨_, rfl, by decide +kernel⟩

theorem wit_OperandsRead : ([XOp.pop 1, .pop 1, .v 63, .s 31, .k 58, .peek 0] : List XOp)[1]? = some (.pop 1) ∧ (∃ y, labX.core.qs.lq[(1 : Fin 8)][1]? = some y ∧ y.data = some 8) ∧
    (∃ y, labX.core.qs.lq[(0 : Fin 8)][0]? = some y ∧ y.data = some 0x40800000) := ⟨rfl, ⟨_, rfl, rfl⟩, ⟨_, rfl, rfl⟩⟩
theorem test_operands : elemOf labX [.pop 1, .pop 1, .v 63, .s 31, .k 58, .peek 0] 1 .i8 0 = 8 ∧ elemOf labX [.v 32] 0 .n8 0 = 0x55 ∧
    elemOf (labX.sys fun y => { y with loopState := BitVec.ofNat 64 (31 * 2 ^ 49) }) [.v 33] 0 .n8 0 = 0x55 ∧ elemOf labX [.k 39] 0 .bf16 0 = 0x3F00 ∧ elemOf labX [.k 56] 0 .i8 0 = 3 := by decide +kernel

theorem wit_LanesOfResults : (∀ i : Nat, ((fun _ => ⟨7, 1, false, false⟩ : Nat → Rd) i).bits < 2 ^ ElemTy.i4.width) ∧ (4 : Nat) ∈ [4, 8, 16, 32] ∧ (2 : Nat) ∈ [2, 4] ∧ 2 * 4 ≤ 64 ∧ 2 * 32 ≤ 64 ∧ 4 * 16 ≤ 64 := by
  refine ⟨fun _ => (by decide : 7 < 2 ^ ElemTy.i4.width), ?_⟩
  decide

theorem wit_FloatForms : (∀ a b c d, labV.CanIssueX [.v a, .v b, .v c] (some (.v d))) ∧ (∀ a b d, labV.CanIssueX [.v a, .s b] (some (.v d))) ∧ labV.CanIssueX [.k 58] (some (.sq 3)) ∧
    labX.CanIssueX [.pop 0, .v 1] (some (.sq 0)) :=
  ⟨fun _ _ _ _ => labV_issue _ rfl _, fun _ _ _ => labV_issue _ rfl _, labV_issue _ rfl _, labX_issue⟩
theorem wit_VectorIntegerForms : labV.CanIssueX [.v 63, .k 0] (some (.v 0)) ∧ labV.CanIssueX [.v 0, .v 1, .s 31] (some (.sq 3)) ∧ ¬ Meet (groupFrom labV 1 (.v 1) ++ groupFrom labV 1 (.v 2)) (groupTo labV 2 (.v 4)) ∧
    Meet (groupFrom labV 1 (.v 5) ++ groupFrom labV 1 (.v 2)) (groupTo labV 2 (.v 4)) ∧ labV.CanTrap := by
  unfold Meet
  refine ⟨labV_issue _ rfl _, labV_issue _ rfl _, by decide +kernel, by decide +kernel, ⟨by decide +kernel, by decide +kernel⟩⟩
theorem wit_IntegerElements : (ElemTy.n32 ∈ [ElemTy.i4, .i8, .i16, .i32, .n8, .n16, .n32]) ∧ 0xFFFFFFFF < 2 ^ ElemTy.n32.width := by decide
theorem wit_CompareSelectPredicate : labV.CanIssueX [.v 1, .v 2] none ∧ labV.CanIssueX [.v 1, .k 0] (some (.v 63)) ∧ labV.CanIssueX [] none ∧
    (∃ sg, decodeElem .fp32 0x7FC00000 = .nan sg) ∧ (¬ ∃ sg, decodeElem .fp32 0x3FC00000 = .nan sg) ∧ (∃ v, decodeElem .fp32 0x3FC00000 = .num v) ∧ (∃ v, decodeElem .i4 8 = .num v) :=
  ⟨labV_issue _ rfl _, labV_issue _ rfl _, labV_issue _ rfl _, ⟨_, rfl⟩, (by rintro ⟨_, h⟩; cases h), ⟨_, rfl⟩, ⟨_, rfl⟩⟩
/-- The cause of a conversion that does not complete. -/
def cvtErr {α : Type} : Except XFault α → Option XFault
  | .error c => some c
  | .ok _ => none
/-- v11 and v12 hold S16 values, the latter not a valid one; v13 an E4M3. -/
theorem wit_Conversions : labV.CanIssueX [.v 7] (some (.v 1)) ∧ labV.CanIssueX [] (some (.sq 0)) ∧ labV.CanIssueX [.v 13, .v 11] (some (.v 16)) ∧ labV.CanIssueX [.v 12] (some (.v 1)) ∧ labV.CanTrap ∧
    ¬ Meet ([XOp.v 7].flatMap (groupFrom labV 1)) (groupTo labV 2 (.v 16)) ∧ Meet ([XOp.v 17].flatMap (groupFrom labV 1)) (groupTo labV 2 (.v 16)) ∧
    ¬ Meet (groupFrom labV 2 (.v 8) ++ ([] : List XOp).flatMap (groupFrom labV 1)) (groupTo labV 1 (.v 16)) ∧ Meet (groupFrom labV 2 (.v 8) ++ ([] : List XOp).flatMap (groupFrom labV 1)) (groupTo labV 1 (.v 9)) ∧
    cvtErr (cvtVec .s16 .h16 .rne false false (fun _ => 0) (elemOf labV [.v 12] 0 .s16) (labV.p 1)) = some .scaleInvalid ∧
    cvtErr (cvtVec .s16 .h16 .rne false false (fun _ => 0) (elemOf labV [.v 11] 0 .s16) (labV.p 1)) = none ∧ s16Bad (elemOf labV [.v 13, .v 12] 1 .s16 0) = true ∧ (labV.p 1).getLsbD 0 = true ∧
    s16Bad (elemOf labV [.v 13, .v 11] 1 .s16 0) = false := by
  unfold Meet
  refine ⟨labV_issue _ rfl _, labV_issue _ rfl _, labV_issue _ rfl _, labV_issue _ rfl _, ⟨by decide +kernel, by decide +kernel⟩, by decide +kernel⟩
theorem wit_PermutesAndReductions : labV.CanIssueX [.v 1, .v 2, .v 3] (some (.v 4)) ∧ labV.CanIssueX [.v 1, .k 15] (some (.v 1)) ∧ labV.CanIssueX [.v 1, .s 1] (some (.s 31)) ∧ labV.CanIssueX [.v 1, .v 2, .k 0] (some (.sq 0)) :=
  ⟨labV_issue _ rfl _, labV_issue _ rfl _, labV_issue _ rfl _, labV_issue _ rfl _⟩
theorem wit_ScalarForms : labV.CanIssueX [.s 1, .k 58, .s 3] (some (.s 0)) ∧ labV.CanIssueX [.s 2] (some (.sq 3)) ∧ labV.CanIssueX [] none ∧ (labV.p 1).getLsbD 0 = true ∧ s16Bad (scalOf labV [.s 3] 0 .s16) = true ∧
    s16Bad (scalOf labV [.s 1] 0 .s16) = false ∧ labV.CanIssueX [.s 3] (some (.s 0)) ∧ labV.CanTrap :=
  ⟨labV_issue _ rfl _, labV_issue _ rfl _, labV_issue _ rfl _, by decide +kernel, by decide +kernel, by decide +kernel, labV_issue _ rfl _, ⟨by decide +kernel, by decide +kernel⟩⟩
theorem wit_LoopsAndRotation : labV.CanIssueX [] none ∧ 0 < (0xFFFF : BitVec 16).toNat ∧ (0xFFFF : BitVec 16).toNat < 2 ^ 31 ∧ (0 : BitVec 16).toNat = 0 ∧ 2 ^ 31 ≤ (labV.startX.core.regs.s[(3 : Fin 32)]).toNat ∧
    (labV.startX.core.regs.s[(1 : Fin 32)]).toNat = 3 ∧ labV.CanTrap :=
  ⟨labV_issue _ rfl _, by decide, by decide, by decide, by decide +kernel, by decide +kernel, ⟨by decide +kernel, by decide +kernel⟩⟩
theorem wit_CupboardQueuesImmediates : labV.CanIssueX [.v 1] none ∧ labV.CanIssueX [] none ∧ labV.CanIssueX [.s 31] none ∧ labV.startX.pkg.poison = [] ∧ labV.startX.pkg.weak = [] ∧ labV.startX.core.mems.cup.wf = true ∧ labV.CanIssueX [] (some (.v 63)) ∧
    (∀ i < 512, byteAt 0 i = labV.startX.core.mems.cup.read (0 + i)) ∧ 16 < (labV.startX.core.regs.s[(2 : Fin 32)]).toNat ∧ labV.CanTrap := by
  refine ⟨labV_issue _ rfl _, labV_issue _ rfl _, labV_issue _ rfl _, rfl, rfl, rfl, labV_issue _ rfl _, fun i _ => ?_, by decide +kernel, ⟨by decide +kernel, by decide +kernel⟩⟩
  show byteAt 0 i = 0
  simp [byteAt]
theorem wit_CupboardQueuesImmediates_queues : PresentItems labX 1 2 ∧ ¬ LateItem labX 1 2 ∧ PresentItems labXs 0 0 ∧ LateItem labXs 0 0 ∧ labXs.CanTrap := by
  unfold PresentItems LateItem
  refine ⟨.inl ⟨fun j hj => ?_, fun ⟨i, h, hd, _⟩ => ?_, by decide⟩, fun h => ?_, .inl ⟨fun j hj => by omega, fun ⟨i, h, hd, _⟩ => ?_, by decide⟩, ⟨by decide +kernel, ⟨_, rfl, by decide +kernel, by decide +kernel⟩⟩,
    ⟨by decide +kernel, by decide +kernel⟩⟩
  · rcases (by omega : j = 0 ∨ j = 1) with rfl | rfl
    · exact ⟨_, rfl, by decide +kernel⟩
    · exact ⟨_, rfl, by decide +kernel⟩
  · cases h; exact hd rfl
  · exact absurd h.1 (by decide +kernel)
  · cases h; exact hd rfl
/-- Three results are due, two of them to lanes of v2. -/
theorem wit_ResultsLand : labV.core.fe.xdone = false ∧ labX.core.fe.xdone = true ∧ (∀ n : Fin 64, n = 2 → ∃ r ∈ labX.core.regs.fly, r.due ≤ labX.core.fe.xnow + 1 ∧ r.dst = .v n ∧ r.mask.getLsbD 1 = true) ∧
    (labX.core.regs.fly.filter fun r => r.dst = .sq 0).Nodup ∧ (∃ r ∈ labX.core.regs.fly, labX.core.fe.xnow + 1 < r.due) := by decide +kernel
theorem test_results_land :
    let t := labX.startX
    t.core.regs.v[(2 : Fin 64)] = 0x40000097 ∧ t.core.regs.s[(1 : Fin 32)] = 9 ∧ t.core.regs.p[(3 : Fin 16)] = 1 ∧ t.core.qs.sq[(0 : Fin 4)] = [5, 6] ∧ t.core.sys.fpFlags = 3 ∧ t.core.regs.fly.length = 1 := by decide +kernel
theorem wit_FloatElements : (ElemTy.h16 ∈ [ElemTy.h16, .bf16, .fp32]) ∧ 0xFFFF < 2 ^ ElemTy.h16.width ∧ (∃ g, decodeElem .h16 0x7E00 = .nan g) ∧ decodeElem .h16 0x7C01 = .nan true ∧ (∃ n, decodeElem .h16 0xFC00 = .inf n) ∧
    decodeElem .h16 0x7C00 = .inf false ∧ (∃ x, decodeElem .h16 0x8000 = .num x ∧ x.num = 0) ∧ (∃ x, decodeElem .h16 0xBC00 = .num x ∧ x.num ≠ 0 ∧ x.neg = true) :=
  ⟨by decide, by decide, ⟨_, rfl⟩, rfl, ⟨_, rfl⟩, rfl, ⟨_, rfl, rfl⟩, ⟨_, rfl, by decide +kernel, by decide +kernel⟩⟩
theorem wit_HeldValuesAreExact : (ElemTy.sp2 ∈ [ElemTy.i4, .i8, .n8, .e2m1, .e4m3, .e5m2, .sp2]) ∧ 0xFF < 2 ^ ElemTy.sp2.width ∧ (∃ v, decodeElem .sp2 0x0A = .num v) ∧ (∃ v, decodeElem .e4m3 0x7E = .num v) ∧ (∃ v, decodeElem .i4 8 = .num v) ∧
    (16 : Nat) ≤ 16 ∧ 65535 < 2 ^ 16 := ⟨by decide, by decide, ⟨_, rfl⟩, ⟨_, rfl⟩, ⟨_, rfl⟩, by decide, by decide⟩

/-- Element 0 of width w of the first result that an instruction sends in labV, and its flags. -/
def sent (i : Instr) (w x : Nat) (fl : BitVec 5) : Bool :=
  nextIs (exec i labV) fun t => match t.core.regs.fly with
    | r :: _ => r.val.toNat % 2 ^ w == x && r.fl == fl
    | [] => false
def ne : Rnd := ⟨.rne, .v 0⟩
theorem test_float : (sent (.vadd ⟨1, .fp32, ne, false, .v 20, .v 1, .v 2⟩) 32 0x40600000 0 && sent (.vsub ⟨1, .fp32, ne, false, .v 20, .v 1, .v 2⟩) 32 0xBF000000 0 &&
    sent (.vmul ⟨1, .fp32, ne, false, .v 20, .v 1, .v 2⟩) 32 0x40400000 0 && sent (.vdiv ⟨1, .fp32, ne, false, .v 20, .v 1, .v 2⟩) 32 0x3F400000 0 &&
    sent (.vdiv ⟨1, .fp32, ne, true, .v 20, .v 1, .k 0⟩) 32 0x7F7FFFFF 12 && sent (.vfma ⟨1, .fp32, .rne, false, .v 20, .v 1, .v 2, .v 3⟩) 32 0x40800000 0 &&
    sent (.vfms ⟨1, .fp32, .rne, false, .v 20, .v 1, .v 2, .v 3⟩) 32 0x40000000 0 && sent (.vfnma ⟨1, .fp32, .rne, false, .v 20, .v 1, .v 2, .v 3⟩) 32 0xC0000000 0 &&
    sent (.vmin ⟨1, .fp32, .v 20, .v 1, .v 2⟩) 32 0x3FC00000 0 && sent (.vmax ⟨1, .fp32, .v 20, .v 1, .v 2⟩) 32 0x40000000 0 && sent (.vneg ⟨1, .fp32, .v 20, .v 1⟩) 32 0xBFC00000 0 &&
    sent (.vabs ⟨1, .fp32, .v 20, .k 16⟩) 32 0x41800000 0 && sent (.vsqrt ⟨1, .fp32, ne, false, .v 20, .k 4⟩) 32 0x40000000 0) = true := by decide +kernel
theorem test_special : (sent (.vexp2 ⟨1, .fp32, ne, false, .v 20, .v 2⟩) 32 0x40800000 0 && sent (.vexp2 ⟨1, .fp32, ne, false, .v 20, .k 39⟩) 32 0x3FB504F3 1 && sent (.vlog2 ⟨1, .fp32, ne, false, .v 20, .v 2⟩) 32 0x3F800000 0 &&
    sent (.vlog2 ⟨1, .fp32, ne, false, .v 20, .k 0⟩) 32 0xFF800000 8 && sent (.vrcp ⟨1, .fp32, ne, false, .v 20, .v 2⟩) 32 0x3F000000 0 && sent (.vrsqrt ⟨1, .fp32, ne, false, .v 20, .k 4⟩) 32 0x3F000000 0 &&
    sent (.vsin ⟨1, .fp32, ne, false, .v 20, .k 39⟩) 32 0x3F800000 0 && sent (.vcos ⟨1, .fp32, ne, false, .v 20, .k 1⟩) 32 0xBF800000 0 && sent (.vtanh ⟨1, .fp32, ne, false, .v 20, .k 0⟩) 32 0 0 &&
    sent (.vsigm ⟨1, .fp32, ne, false, .v 20, .k 0⟩) 32 0x3F000000 0) = true := by decide +kernel
theorem test_integer : (sent (.viadd ⟨1, .i8, false, false, .v 20, .v 4, .v 5⟩) 8 0x81 0 && sent (.viadd ⟨1, .i8, true, false, .v 20, .v 4, .v 5⟩) 8 0x7F 4 && sent (.visub ⟨1, .n8, true, false, .v 20, .v 5, .v 4⟩) 8 0 4 &&
    sent (.vimul ⟨1, .i8, false, false, .v 20, .v 4, .v 5⟩) 8 0xFE 0 && sent (.vimul ⟨1, .i8, false, true, .v 20, .v 6, .v 6⟩) 16 0x4000 0 && sent (.vimulh ⟨1, .i8, false, false, .v 20, .v 6, .v 5⟩) 8 0xFF 0 &&
    sent (.vimad ⟨1, .i8, false, .v 20, .v 4, .v 5, .v 5⟩) 8 0 0 && sent (.vshl ⟨1, .i8, .v 20, .v 4, .v 5⟩) 8 0xFC 0 && sent (.vshr ⟨1, .i8, .v 20, .v 6, .v 5⟩) 8 0x20 0 && sent (.vsra ⟨1, .i8, .v 20, .v 6, .v 5⟩) 8 0xE0 0 &&
    sent (.vimin ⟨1, .i8, .v 20, .v 6, .v 5⟩) 8 0x80 0 && sent (.vimax ⟨1, .n8, .v 20, .v 6, .v 5⟩) 8 0x80 0 && sent (.viabs ⟨1, .i8, true, .v 20, .v 6⟩) 8 0x7F 4 && sent (.vand ⟨1, .i8, .v 20, .v 4, .v 5⟩) 8 2 0 &&
    sent (.vor ⟨1, .i8, .v 20, .v 4, .v 6⟩) 8 0xFF 0 && sent (.vxor ⟨1, .i8, .v 20, .v 4, .v 5⟩) 8 0x7D 0 && nextIs (exec (.vimul ⟨1, .i8, false, true, .v 4, .v 5, .v 2⟩) labV) (tookTrap .illegalOperand 2)) = true := by decide +kernel
theorem test_compare : (sent (.vcmp 1 .fp32 .lt 5 (.v 1) (.v 2)) 8 0xFF 0 && sent (.vcmp 1 .fp32 .ge 5 (.v 1) (.v 2)) 8 0 0 && sent (.vsel 1 .fp32 (.v 20) (.v 1) (.v 2) 2) 32 0x3FC00000 0 && sent (.vsel 1 .fp32 (.v 20) (.v 1) (.v 2) 3) 32 0x40000000 0 &&
    sent (.pand 0 5 1 2) 9 1 0 && sent (.por 0 5 1 2) 9 0x101 0 && sent (.pxor 0 5 1 2) 9 0x100 0 && sent (.pnot 0 5 2) 9 0xFE 0) = true := by decide +kernel
theorem test_convert : (sent (.vcvt ⟨1, .h16, .bf16, ne, false, false, .v 20, .v 7⟩) 16 0x3E00 0 && sent (.vcvtw ⟨1, .fp32, .bf16, ne, false, false, .v 20, .v 7⟩) 32 0x3FC00000 0 && sent (.vcvtn ⟨1, .bf16, .fp32, ne, false, false, .v 20, .v 8⟩) 16 0x4040 0 &&
    sent (.vdq ⟨1, .bf16, .e4m3, ne, false, 0, .v 20, .v 13, .v 11⟩) 16 0x3F80 0 && sent (.vq ⟨1, .e4m3, .fp32, ne, true, 0, .v 20, .v 8, .v 11⟩) 8 0x44 0 && sent (.srnd ⟨1, .fp32, .bf16, false, 3, .v 20, .v 1, .v 0⟩) 32 0x3FC00000 0 &&
    nextIs (exec (.vdq ⟨1, .bf16, .e4m3, ne, false, 0, .v 20, .v 13, .v 12⟩) labV) (tookTrap .scaleInvalid 2) && nextIs (exec (.vcvtw ⟨1, .fp32, .bf16, ne, false, false, .v 6, .v 7⟩) labV) (tookTrap .illegalOperand 2)) = true := by decide +kernel
theorem test_permute : (sent (.vperm ⟨1, .fp32, .v 20, .v 15, .v 14, .v 0⟩) 32 0 0 && sent (.vrot ⟨1, .fp32, .v 20, .v 15, .k 1⟩) 32 0xBFC00000 0 && sent (.vbcast ⟨2, .fp32, .v 20, .v 15, .k 1⟩) 64 0xBFC00000BFC00000 0 &&
    sent (.vzip ⟨2, .fp32, false, .v 20, .v 1, .v 2⟩) 64 0x400000003FC00000 0 && sent (.vunzip ⟨1, .fp32, true, .v 20, .v 15, .v 2⟩) 32 0xBFC00000 0 && sent (.vslide ⟨1, .fp32, .v 20, .v 15, .v 2, .k 1⟩) 32 0xBFC00000 0) = true := by decide +kernel
/-- R191: 2^24 + 1 − 2^24 is 1. -/
theorem test_reduce : (nextIs (exec (.vrsum ⟨0, .fp32, .rne, false, .s 3, .v 1, .k 0⟩) (labV.regs fun r => { r with v := r.v.set 1 0xCB8000003F8000004B800000 })) (fun t => t.core.regs.fly.map (·.val) == [0x3F800000]) &&
    sent (.vrmax ⟨2, .fp32, .rne, false, .s 3, .v 15, .k 0⟩) 32 0x3FC00000 0 && sent (.vrmin ⟨2, .fp32, .rne, false, .v 20, .v 15, .k 0⟩) 64 0xBFC00000BFC00000 0 && sent (.vriadd ⟨2, .i16, .rne, false, .v 20, .v 14, .k 15⟩) 32 17 0) = true := by decide +kernel
theorem test_scalar : (sent (.sadd ⟨0, .i32, ne, false, .s 9, .s 1, .s 3⟩) 32 2 0 && sent (.ssub ⟨0, .n32, ne, true, .s 9, .s 1, .s 3⟩) 32 0 4 && sent (.smul ⟨0, .fp32, ne, false, .s 9, .s 2, .s 2⟩) 32 0x40800000 0 &&
    sent (.sfma ⟨0, .fp32, .rne, false, .s 9, .s 2, .s 2, .s 2⟩) 32 0x40C00000 0 && sent (.smov ⟨0, .i32, .s 9, .v 14⟩) 32 0x30002 0 && sent (.scvt ⟨0, .fp32, .i32, ne, false, .s 9, .s 1⟩) 32 0x40400000 0 &&
    sent (.sli 0 9 0x3FFFFFE) 32 0xFFFFFFFE 0 && nextIs (exec (.scvt ⟨0, .fp32, .s16, ne, false, .s 9, .s 3⟩) labV) (tookTrap .scaleInvalid 2)) = true := by decide +kernel
theorem test_loop : (nextIs (exec (.loop (.reg 1) 1 2) labV) (fun t => wbit t.core.sys.loopState 63 && wfld t.core.sys.loopState 0 32 == 4 && t.core.regs.p[(8 : Fin 16)] == allTrue && t.core.fe.kernel.isSome) &&
    nextIs (exec (.loop (.reg 3) 1 2) labV) (tookTrap .illegalOperand 2) && nextIs (exec (.loop (.imm 0) 1 2) labV) (fun t => t.core.fe.kernel.isNone && t.core.fe.xdone) &&
    nextIs (exec (.rbset 31) labV) (fun t => t.rb == 31) && nextIs (exec (.rbadv 1) labV) (fun t => t.rb == 31) && nextIs (exec (.pstage 0x81) labV) fun t => t.core.regs.fly.map (fun r => r.val.toNat % 2) == [1, 0, 0, 0, 0, 0, 0, 1]) = true := by decide +kernel
theorem test_cupboard : (nextIs (exec (.cbstV 1 .fp32 (.v 1) 512) labV) (fun t => t.core.regs.fly.map (·.dst) == [.cupV 512]) && sent (.cbstS 0 3 8) 32 0xFFFFFFFF 0 &&
    nextIs (exec (.cbldS 0 4 8) (labV.mems fun m => { m with cup := m.cup.write 8 [1, 2, 3, 4] })) (fun t => t.core.regs.fly.map (·.val) == [0x4030201]) &&
    nextIs (exec (.cbldV 1 .fp32 20 0) (labV.mems fun m => { m with cup := m.cup.write 8 [1, 2, 3, 4] })) fun t => t.core.regs.fly.map (fun r => r.val.toNat / 2 ^ 64) == [0x4030201]) = true := by decide +kernel
theorem test_queue_management : (nextIs (exec (.qskip 0 1 (.k 2)) labX) (fun t => (t.core.qs.lq[(1 : Fin 8)]).length == 1) && nextIs (exec (.qskip 0 1 (.s 2)) labV) (tookTrap .illegalOperand 2) &&
    nextIs (exec (.qcount 0 9 1) labX) (fun t => (t.core.regs.fly.getLast?).map (·.val) == some 2) && nextIs (exec (.qcount 0 9 8) labX) (fun t => (t.core.regs.fly.getLast?).map (·.val) == some 2) &&
    nextIs (exec (.qflush 0 (some 9) 1) labX) (fun t => (t.core.regs.fly.getLast?).map (·.val) == some 2 && (t.core.qs.lq[(1 : Fin 8)]).length == 1) &&
    nextIs (exec (.qflush 0 none 0) labXs) (tookTrap .overrun 2) && nextIs (exec (.qcount 0 9 0) labXs) (tookTrap .overrun 2) &&
    sent (.vli 1 .fp32 20 0xFE0000) 32 0x3F800000 0 && sent (.vli 1 .i8 20 0x3FFFFFE) 8 0xFE 0 && sent (.vlix 2 .n16 20 0x1FFF 2) 48 0x00030000FFFF 0) = true := by decide +kernel

/-! ### Engine commands -/

def nohk : Hatching := ⟨none, none⟩
/-- Operand registers of the copy class: pattern 1, destination 2, shapes 3 (.SP to .SP), 12 (.SP to .CL) and 26 (.CL to .SP) of one run of 64 bytes, source 5, index word 8, Loft place 10, control word 15, group
word 16; and words that break a rule: a RSVD field 17, a space code 18, a source outside 19, a slice outside 20. The unit may migrate pages. -/
def labE : State :=
  let s := withG lab [(1, 0x8877665544332211), (2, 0x100), (3, 63), (5, 0x1000), (8, 0x4000002000), (10, 0x7FFFC0), (12, 0x0C0000000000003F), (15, 0xD000), (16, 0x1000D00000), (17, 0x0100000000000000),
    (18, 0x1800000000000000), (19, 0x3FFFC1), (20, 0x7FFFC1), (24, 0x40000000), (26, 0x600000000000003F)]
  let s := { s with mem := s.mem.write (keyCl 0x100) (leBytes 8 0x4000000040000000) }
  let s := s.mems fun m => { m with sp := m.sp.write 0x1000 (leBytes 8 0x3FC000003FC00000) }
  s.withCore
    { s.core with slot := { s.core.slot with act := s.core.slot.act ||| BitVec.ofNat 128 (2 ^ 125) },
                  qs := { s.core.qs with h := (s.core.qs.h.set 1 ⟨0xB5, []⟩).set 2 ⟨0xD3, [none]⟩ } }
/-- labE with a full inbound queue; labE in handler mode. -/
def labEfull : State := labE.eng fun e => { e with q := e.q.set 0 (List.replicate 16 ⟨1, 0, .scclr nohk, [], .rne, [], [], none, none, 0, false, false, false, .done, false, []⟩) }
def labEh : State := labE.fe fun f => { f with handler := true }
theorem labE_free : freeA labE = true := by decide +kernel
theorem labE_trap : labE.CanTrap := ⟨by decide +kernel, by decide +kernel⟩
def okC (j : Judged) : Bool := match j.check with | .ok _ => true | .error _ => false
def badC (k : Cause) (info : Option Word) (j : Judged) : Bool := match j.check with | .ok _ => false | .error e => decide (e = (k, info))
def ops (l : List GReg) : List Word := l.map labE.g

theorem wit_Commands : labE.CanIssue [5, 2, 3, 4, 6, 7] [] ∧ RoomIn labE 0 ∧ BoundTo labE 0 ⟨some 1, some 2⟩ ∧ ¬ BoundTo labE 1 ⟨some 1, none⟩ ∧ labE.CanTrap ∧ ¬ RoomIn labEfull 0 ∧ labEfull.CanIssue [] [] ∧
    labEfull.core.fe.cur.instr.isX = false ∧ RoomIn labEh 0 ∧ OnSide labEh 2 ∧ ¬ OnSide labEh 3 := by
  unfold RoomIn BoundTo BoundP BoundC OnSide
  refine ⟨issue labE_free _ _, by decide +kernel, ⟨fun h e => ?_, fun h e => ?_⟩, fun h => ?_, labE_trap, by decide +kernel, issue (by decide +kernel) _ _, rfl, by decide +kernel⟩
  · cases e; decide +kernel
  · cases e; decide +kernel
  · exact absurd (h.1 1 rfl) (by decide +kernel)
theorem wit_CopyClassIssues : (okC (labE.prepCopy (ops [5, 2, 3, 4, 6, 7]) false) && okC (labE.prepRows (ops [5, 2, 3, 8]) true) && okC (labE.prepRows (ops [5, 2, 3, 8]) false) && okC (labE.prepLoft (ops [5, 10, 3, 6])) &&
    okC (labE.prepReduce (ops [5, 2, 12, 13, 14, 15])) && okC (labE.prepBin (ops [5, 2, 3, 16])) && okC (labE.prepMigrate [0, 0, 3]) && okC (noSide labE ⟨some 1, none⟩ (labE.prepCopy (ops [5, 2, 3, 4, 6, 7]) false)) &&
    badC .illegalOperand none (noSide labEh ⟨some 1, none⟩ (labEh.prepCopy (ops [5, 2, 3, 4, 6, 7]) false)) && badC .illegalOperand none (labE.prepCopy (ops [5, 2, 17, 4, 6, 7]) false) &&
    badC .bounds (some 0x400000) (labE.prepCopy (ops [19, 2, 3, 4, 6, 7]) false) && badC .bounds (some 0x7F00010000) (labE.prepLoft (ops [5, 20, 3, 6])) && badC .illegalOperand none (labE.prepReduce (ops [5, 2, 3, 13, 14, 15]))) = true ∧
    (wfld (labE.g 3) 56 2 = 0 ∧ wfld (labE.g 3) 61 3 = 0 ∧ wfld (labE.g 3) 58 3 ≤ 5 ∧ (wfld (labE.g 3) 0 16 + 1) % 2 ^ (3 : Fin 4).val = 0) ∧
    (∀ k < (fillSide (ops [1, 2, 3, 4])).runs, ∀ b < (fillSide (ops [1, 2, 3, 4])).len, 0 ≤ (fillSide (ops [1, 2, 3, 4])).runAt k ∧
      labE.inWindow (fillSide (ops [1, 2, 3, 4])).spc (((fillSide (ops [1, 2, 3, 4])).runAt k).toNat + b) = true) ∧
    wfld (labE.g 17) 56 2 ≠ 0 ∧ (∀ k < (fillSide (ops [1, 2, 17, 4])).runs, ∀ b < (fillSide (ops [1, 2, 17, 4])).len, 0 ≤ (fillSide (ops [1, 2, 17, 4])).runAt k ∧
      labE.inWindow (fillSide (ops [1, 2, 17, 4])).spc (((fillSide (ops [1, 2, 17, 4])).runAt k).toNat + b) = true) ∧
    badC .bounds (some 0x400000) ⟨[], (labE.sideCheck (fillSide (ops [1, 19, 3, 4]))).map fun _ => ⟨[], [], [], .rne⟩⟩ = true ∧ 5 < wfld (labE.g 18) 58 3 ∧ (wfld (labE.g 18) 0 16 + 1) % 2 ^ (3 : Fin 4).val ≠ 0 ∧ labE.cores.length ≤ 256 ∧ labE.devs.length ≤ 256 ∧
    (labE.inWindow .sp (0x3FFFC1 + 62) = true ∧ ¬ labE.inWindow .sp (0x3FFFC1 + 63) = true) := by decide +kernel
theorem test_copy_issue : (nextIs (exec (.copy ⟨5, 2, 3, 6, ⟨some 1, some 2⟩⟩) labE) (fun t => (t.core.eng.q[(0 : Fin 5)]).map (fun c => (c.foot, c.push, c.pop)) == [([0x500000040FC01000, 0x600000004FC00100], some 1, some 2)]) &&
    nextIs (exec (.copy ⟨5, 2, 3, 6, ⟨some 0, none⟩⟩) labE) (tookTrap .illegalOperand 1) && nextIs (exec (.copy ⟨19, 2, 3, 6, nohk⟩) labE) (tookTrap .bounds 1) && nextIs (exec (.loft ⟨5, 20, 3, 6, nohk⟩) labE) (tookTrap .bounds 1) &&
    nextIs (exec (.copy ⟨5, 2, 3, 6, nohk⟩) labEfull) (fun t => t.core.fe.aStall) && nextIs (exec (.fill ⟨1, 2, 3, 4, nohk⟩ 3) labEh) (fun t => t.core.eng.side.length == 1) &&
    nextIs (exec (.migrate 0 0 3 nohk) lab) (tookTrap .illegalOperand 1)) = true := by decide +kernel

/-- What a copy command issued in a state has done when it starts. -/
def runs (out : Bool) (i : Instr) (s : State) (p : State → Bool) : Bool :=
  nextIs (exec i s) fun t => nextIs (exec (.copyCommandStart out) t) fun u => (u.core.eng.q[(if out then 1 else 0 : Fin 5)]).map (·.st) == [.done] && p u
theorem test_copy_effects : (runs false (.copy ⟨5, 2, 3, 6, nohk⟩) labE (fun t => t.core.mems.sp.le 0x100 8 == 0x3FC000003FC00000) && runs false (.fill ⟨1, 2, 3, 4, nohk⟩ 1) labE (fun t => t.core.mems.sp.le 0x13C 4 == 0x22112211) &&
    runs false (.gather ⟨5, 2, 3, 8, nohk⟩) labE (fun t => t.core.mems.sp.le 0x100 8 == 0x3FC000003FC00000) &&
    runs false (.scatter ⟨5, 2, 3, 8, nohk⟩) (labE.mems fun m => { m with sp := m.sp.write 0x2000 [2] }) (fun t => t.core.mems.sp.le 0x180 8 == 0x3FC000003FC00000) &&
    runs false (.loft ⟨5, 10, 3, 6, nohk⟩) labE (fun t => t.core.mems.loft.le (127 * 2 ^ 16 + 0xFFC0) 8 == 0x3FC000003FC00000 && t.core.lhwm == 0x10000) &&
    runs true (.reduce ⟨5, 2, 12, 14, nohk⟩) labE (fun t => t.mem.le (keyCl 0x100) 8 == 0x4060000040600000) &&
    nextIs (exec (.reduceBin ⟨5, 2, 3, 16, nohk⟩) labE) (fun t => nextIs (exec (.copyCommandStart false) t) fun u => (u.core.eng.q[(0 : Fin 5)]).map (·.st) == [.running] &&
      nextIs (exec (.reduceBinExchange [(1, 0x1001D00000, List.replicate 16 0x3F800000)]) u) fun v => v.core.mems.sp.le 0x100 12 == 0x3F8000004020000040200000)) = true := by decide +kernel

def cmd (i : Instr) (os : List Word) : EngCmd := ⟨12, 0x900, i, os, .rne, [], [], none, none, 60, false, true, false, .waiting, false, []⟩

/-! ### The butterfly engine -/

/-- Tile words 1 (rows of banks 16 on) and 2 (32 on), Loft place 3, exponents 4 and 5 at the ends of the E field, images 6 (CH) and 7 (SC) that end with the scratchpad, a stride 8, MPACK's operands 9 to 12, and
words that break a rule: 13 to 15. X(0, 0) is 2, W(column 1, segment 0, row 0) is 1.5, sd0 is 1. -/
def labB : State :=
  let s := withG lab [(1, 0x440000), (2, 0x480000), (4, 0xFFFFFFFFFFFF8000), (5, 0x7FFF), (6, 0x3C0FC0), (7, 0x3FFDC0), (8, 0xFFFF), (9, 0x100000), (10, 0x110000), (11, 0x120000), (12, 1), (13, 0x8000), (14, 0x10000),
    (15, 0x3C1000), (16, 0xFFFFFFFFFFFF7FFF), (17, 0x440001), (18, 0x3FFFC0)]
  (s.mems fun m => { m with sp := (m.sp.write 0x40000 [0, 0, 0, 0x40]).write 0x100000 (leBytes 16 0x3F800000C000000040400000BF800000), loft := m.loft.write (2 ^ 16) [0, 0, 0xC0, 0x3F] }).sys fun y => { y with sd := y.sd.set 0 1 }
theorem labB_free : freeA labB = true := by decide +kernel
theorem labB_trap : labB.CanTrap := ⟨by decide +kernel, by decide +kernel⟩
def bfs : BfsArgs := ⟨⟨1, 2, 3, 0, nohk⟩, 2, 0, 0, false, 0, .rne⟩
def bfa : BfaArgs := ⟨1, 3, 0, nohk, 1, 0, 0, false⟩
/-- labB in the slot of a group of COPY with F and a BFS, and its COPY's operands: from 5 to the X tile, 64 bytes. -/
def labF : State := (withG labB [(20, 0x200000), (21, 0x40040), (22, 63)]).fe fun f => { f with cur := { f.cur with instr := .copyF ⟨20, 21, 22, 24, nohk⟩, follow := some (.bfs bfs) } }
def labFops : List Word := [20, 21, 22, 23, 24, 25].map labF.g

theorem wit_ButterflyClassIssues : labB.CanIssue [1, 2, 3] [] ∧ labB.CanIssue [] [] ∧ labB.CanTrap ∧ (okC (labB.prepBfs bfs ([1, 2, 3, 0, 0].map labB.g)) && badC .illegalOperand none (labB.prepBfs bfs ([17, 2, 3, 0, 0].map labB.g)) &&
      okC (labB.prepBfa bfa ([1, 3, 0, 0, 0].map labB.g)) && okC (labB.prepAdrain ⟨2, nohk, 1, 0, 0, false, false, .rne⟩ (labB.g 2)) && okC (labB.prepAload 1 0 0 (labB.g 2)) && okC (imageAt (labB.g 6) 258112 2 (footAcc 1 256)) &&
      badC .bounds (some 0x400000) (imageAt (labB.g 18) 258112 2 (footAcc 1 256)) && okC (imageAt (labB.g 7) 576 2 (footAcc 3 512)) && okC (labB.prepMpack ([9, 10, 11, 12].map labB.g)) &&
      badC .illegalOperand none (labB.prepMpack ([9, 9, 11, 12].map labB.g))) = true ∧
    (-32768 ≤ (labB.g 4).toInt ∧ (labB.g 4).toInt ≤ 32767 ∧ (labB.g 5).toInt ≤ 32767 ∧ ¬ (labB.g 13).toInt ≤ 32767 ∧ ¬ -32768 ≤ (labB.g 16).toInt) ∧ (labB.g 8).toNat < 2 ^ 16 ∧ ¬ (labB.g 14).toNat < 2 ^ 16 ∧
    ((labB.g 18).toNat % 4 = 0 ∧ (labB.g 18).toNat + genBytes 1 0 0 ≤ 0x400000) ∧ labF.core.fe.cur.follow = some (.bfs bfs) ∧ labF.CanIssue ([20, 21, 22, 23, 24, 25] ++ ([1, 2, 3] ++ pairRegs labF 0)) [] ∧ RoomIn labF 0 ∧ RoomIn labF 2 ∧
    labF.CanTrap ∧ (okC (noSide labF nohk (labF.prepCopy labFops true)) && okC (labF.prepBfs bfs ([1, 2, 3].map labF.g ++ pairWords labF 0)) &&
      badC .illegalOperand none (labF.prepCopy (labFops.set 2 (2 ^ 58 * 3 + 63)) true)) = true ∧ BoundTo labF 0 nohk := by
  unfold RoomIn OnSide BoundTo
  and_intros <;> first | exact issue (by decide +kernel) _ _ | exact labB_trap | exact ⟨by decide +kernel, by decide +kernel⟩ | decide +kernel | exact fun _ e => nomatch e
theorem test_butterfly_issue : (nextIs (exec (.bfs bfs) labB) (fun t => (t.core.eng.q[(2 : Fin 5)]).map (·.fmts) == [[.fp32, .fp32]]) &&
    nextIs (exec (.bfs { bfs with e := ⟨17, 2, 3, 0, nohk⟩ }) labB) (tookTrap .illegalOperand 1) && nextIs (exec (.aclr 13 0 nohk) labB) (tookTrap .illegalOperand 1) && nextIs (exec (.anorm 16 0 nohk) labB) (tookTrap .illegalOperand 1) &&
    nextIs (exec (.sdset 14 0 nohk) labB) (tookTrap .illegalOperand 1) && nextIs (exec (.chdrain 15 nohk) labB) (tookTrap .bounds 1) && nextIs (exec (.scload 17 nohk) labB) (tookTrap .illegalOperand 1) &&
    nextIs (exec (.copyF ⟨20, 21, 22, 24, nohk⟩) labF) (fun t => (t.core.eng.q[(0 : Fin 5)]).length == 1 && (t.core.eng.q[(2 : Fin 5)]).map (·.follow) == [true])) = true := by decide +kernel

/-- What a butterfly command has done at its completion. -/
def bf (i : Instr) (s : State) (p : State → Bool) : Bool :=
  nextIs (exec i s) fun t => nextIs (exec .butterflyCommandStart t) fun u => nextIs (exec .butterflyCommandComplete u) fun v => (v.core.eng.q[(2 : Fin 5)]).isEmpty && p v
/-- Elements of a tile (R237, R255, R257): 1.5·1 on an image of 3 with E = 0; 2^16 past the headroom; 3 moves to the grid of its own exponent; an image drains to FP32. -/
theorem test_accumulator : ((match bfaElem (xaImage 3 0) [.num ⟨false, 3, 1, -1⟩] (0, 1) with | .ok x => x == xaImage (3 * 2 ^ 30 + 3) 0 | .error _ => false) &&
    (match bfaElem 0 [.num ⟨false, 1, 1, 16⟩] (5, 7) with | .ok _ => false | .error e => decide (e = (.headroom, 0x70005))) && (match bfaElem 0 [.num ⟨true, 1, 1, 16⟩] (5, 7) with | .ok x => x == xaImage (-(2 ^ 47)) 0 | .error _ => false) &&
    (match normElem 0 (xaImage 3 40) (0, 0) with | .ok x => x == xaImage (3 * 2 ^ 30) 10 | .error _ => false) && (match normElem 12 (xaImage 3 40) (0, 0) with | .ok x => x == xaImage (3 * 2 ^ 28) 12 | .error _ => false) &&
    (match normElem 0 0 (0, 0) with | .ok x => x == 0 | .error _ => false) && drainElem .fp32 .rne false (xaImage (-(3 * 2 ^ 30)) 0) == 0xBFC00000 && drainElem .i32 .rne false (xaImage (5 * 2 ^ 30) 0) == 2) = true := by decide +kernel
/-- R235: 2·1.5 + 1·(−1) rounds to FP32 2; an infinity of each sign gives NaN. -/
theorem test_stage_sum : (stageBits .fp32 .rne (stageSum (segTerms (.num oneEx, [.num ⟨false, 3, 1, -1⟩, .num ⟨true, 1, 1, 0⟩]) (.num oneEx) [.num ⟨false, 2, 1, 0⟩, .num ⟨false, 1, 1, 0⟩])) == 0x40000000 &&
    stageBits .fp32 .rne (stageSum [.inf true, .inf false]) == 0x7FC00000 && stageBits .fp32 .rne (stageSum [.num ⟨true, 0, 1, 0⟩]) == 0) = true := by decide +kernel
theorem test_sdset : (bf (.sdset 8 7 nohk) labB fun t => t.core.sys.sd[(7 : Fin 8)] == 0xFFFF) = true := by decide +kernel
/-- R265: of −1, 3, −2 and 1 the second and the third have the largest magnitudes. -/
theorem test_mpack : bf (.mpack ⟨9, 10, 11, 12, nohk⟩) labB (fun t => t.core.mems.sp.le 0x110000 8 == 0xC000000040400000 && t.core.mems.sp.le 0x120000 1 % 16 == 1 + 4 * 2) = true := by decide +kernel
/-- labB with two scales in the queue. -/
def labSc : State := labB.qs fun u => { u with scale := [⟨1, 1, some 0x100⟩, ⟨1, 1, some 0x200⟩] }
theorem test_scales : (bf (.scdrain 7 nohk) labSc (fun t => t.core.mems.sp.le (0x3FFDC0) 8 == 2 && t.core.mems.sp.le (0x3FFDC0 + 64) 4 == 0x2000100 && t.core.qs.scale == []) && bf (.scclr nohk) labSc (fun t => t.core.qs.scale == [])) = true := by decide +kernel

/-! ### The circuit engine, the reshard engine, and the engines' events -/

/-- A circuit object of one node, 1.5 times leaf 0 (row 0 of the tile), in the page of .CL at 0x20000: header, placement, parameters, leaf map, output map and the record. -/
def circuitObject : List (Nat × List Byte) :=
  [(0, leBytes 64 (0x43580001 * 2 ^ 32 + 1 * 2 ^ 16 + 1 + (1 * 2 ^ 48 + 1 * 2 ^ 32 + 1 * 2 ^ 16) * 2 ^ 64 + 64 * 2 ^ 128 + 128 * 2 ^ 192 + 192 * 2 ^ 256 + 256 * 2 ^ 320 + 320 * 2 ^ 384)),
   (64, leBytes 2 (40 * 64)), (128, leBytes 8 0x60000000), (192, leBytes 2 0), (256, leBytes 2 0), (320, leBytes 16 (3 * 2 ^ 124 + 1 * 2 ^ 121 + 0x4000))]
/-- Lane words 1 (32 lanes, one row) and 2 (33 lanes), a tile 3 of banks 16 on, parameter words 4 and 5, records 6 to 9 and 10 at the end of .CL. Register 0 names the object, with placement bank 40 of TYPE 15. -/
def labC : State :=
  let s := withG lab [(1, 32), (2, 33), (3, 0x440000), (4, 4095), (5, 4096), (6, 0x40000), (7, 0x40100), (8, 0x40200), (9, 0x40240), (10, 0x00FFFFFFFFFFF7C0), (11, 0x40020), (12, 0x3FFFFFFFFFFFFFFF), (13, 0x480000), (14, 0x40000000)]
  let s := s.sys fun y => { y with creg := y.creg.set 0 (BitVec.ofNat 64 (3 * 2 ^ 62 + 40 * 2 ^ 48 + 40 * 2 ^ 40 + 2)), bankFmt := [(40, 15)] }
  { s with mem := circuitObject.foldl (fun m p => m.write (keyCl (0x20000 + p.1)) p.2) (s.mem.write (keyCl 0x40240) (leBytes 8 77))
           core := { s.core with circ := { s.core.circ with status := 7, dirty := [3], pend := [(3, 0x40000001)] }, rsLast := 9 } }
def labCh : State := labC.fe fun f => { f with handler := true }
theorem labC_free : freeA labC = true := by decide +kernel
theorem wit_CircuitAndReshardIssue : labC.CanIssue [1, 3] [] ∧ labC.CanIssue [] [31] ∧ labCh.CanIssue [] [31] ∧ labC.CanIssue [9] [31] ∧ labCh.CanIssue [9] [31] ∧ labC.core.fe.handler = false ∧ labCh.core.fe.handler = true ∧ RoomIn labC 3 ∧ RoomIn labC 4 ∧
    (labC.core.sys.creg[(0 : Fin 16)]).getLsbD 63 = true ∧ ¬ (labC.core.sys.creg[(15 : Fin 16)]).getLsbD 63 = true ∧ (okC (labC.prepEval 0 (labC.g 3) (labC.g 1)) && badC .illegalOperand none (labC.prepEval 0 (labC.g 3) (labC.g 2)) &&
      okC (labC.prepCeout 0 0 (labC.g 1) (labC.g 3)) && badC .illegalOperand none (labCh.prepCeout 0 0 (labC.g 1) (labC.g 3)) && okC ⟨[], recordAt (labC.g 10) 2112 (.ok ⟨[], [], [], .rne⟩)⟩ &&
      badC .illegalOperand none ⟨[], recordAt (labC.g 11) 64 (.ok ⟨[], [], [], .rne⟩)⟩) = true ∧ (labC.g 4).toNat < 4096 ∧ ¬ (labC.g 5).toNat < 4096 ∧ cxOk (labC.g 14).toNat = true ∧ ¬ cxOk (labC.g 12).toNat = true ∧
    (labC.g 9).toNat % 64 = 0 ∧ (labC.g 10).toNat + 2112 ≤ 2 ^ 56 ∧ labCh.pkg.poison = [] ∧ labCh.pkg.weak = [] ∧ (match (labCh.fillWalks .cl ((labCh.g 9).toNat + 16) 8).keysWalk .cl ((labCh.g 9).toNat + 16) 8 false with
      | .ok _ => true | _ => false) = true ∧ (labC.g 11).toNat % 64 ≠ 0 ∧ labC.CanTrap := by
  unfold RoomIn OnSide
  and_intros <;> first | exact issue (by decide +kernel) _ _ | exact ⟨by decide +kernel, by decide +kernel⟩ | decide +kernel
theorem test_circuit_issue : (nextIs (exec (.cload 15 nohk) labC) (tookTrap .illegalOperand 1) && nextIs (exec (.pupd 5 14 nohk) labC) (tookTrap .illegalOperand 1) && nextIs (exec (.pupd 4 12 nohk) labC) (tookTrap .cxFormat 1) &&
    nextIs (exec (.cload 0 nohk) labCh) (fun t => t.core.fe.unit == .ended) && nextIs (exec (.cewait 31 true) labCh) (fun t => t.g 31 == 15 && t.core.circ.word == 8) && nextIs (exec (.cewait 31 true) labC) (fun t => (t.core.eng.q[(3 : Fin 5)]).length == 1 && t.g 31 == 0) &&
    nextIs (exec (.rswait 31) labCh) (fun t => t.g 31 == 9) && nextIs (exec (.rswaitRecv 31 8) labCh) (fun t => t.g 31 == 0) && nextIs (exec (.reshard ⟨6, 7, 8, 9, nohk⟩) labC) (fun t => (t.core.eng.q[(4 : Fin 5)]).length == 1) &&
    nextIs (exec (.reshard ⟨11, 7, 8, 9, nohk⟩) labC) (tookTrap .illegalOperand 1)) = true := by decide +kernel
/-- The circuit runs: CLOAD of the object, the page's arrival, EVAL of 32 lanes of the tile's first row, CEOUT to FP32. -/
def runCircuit (s : State) (l : List Instr) (p : State → Bool) : Bool :=
  match l with
  | [] => p s
  | i :: is => nextIs (exec i s) fun t => runCircuit t is p
theorem test_circuit_runs : runCircuit { labC with core := { labC.core with circ := { labC.core.circ with dirty := [] }, mems := { labC.core.mems with sp := labC.core.mems.sp.write 0x40000 [0, 0, 0, 0x40] } } }
    [.cload 0 nohk, .circuitCommandStart, .pageFetch 0] (fun t => runCircuit (withG t [(1, 1)]) [.eval 3 1 0 nohk, .circuitCommandStart, .circuitCommandRetire, .ceout 1 13 0 0 nohk, .circuitCommandStart]
      fun u => u.core.mems.sp.le (40 * 2 ^ 14) 8 == 0x0000000160000000 && u.core.mems.sp.le 0x80000 4 == 0x40400000) = true := by decide +kernel

/-- labE with commands that may start in every queue; with a stride and a status command; and with a running ACLR. -/
def labEw : State := labE.eng fun e => { e with q := #v[[cmd (.fill ⟨1, 2, 3, 4, nohk⟩ 1) [0x2211, 0x100, 63, 0]], [cmd (.reduceBin ⟨5, 2, 3, 16, nohk⟩) [0x1000, 0x100, 63, 0x1000D00000]], [cmd (.aclr 1 7 nohk) [5]],
  [cmd (.pupd 1 2 nohk) [4095, 0x40000000]], [cmd (.rswait 31) []]] }
def labEw2 : State := { labE with core := { labE.core with rsLast := 9, circ := { labE.core.circ with status := 7, dirty := [3] }, eng := { labE.core.eng with q := #v[[], [], [{ cmd (.sdset 1 7 nohk) [0xFFFF] with st := .running }], [cmd (.cewait 31 true) []], []] } } }
def labW3 : State := labE.eng fun e => { e with q := e.q.set 2 [{ cmd (.aclr 1 7 nohk) [5] with st := .running }] }
theorem moves {s : State} {q : Fin 5} (hu : s.core.fe.unit = .running) (hc : s.core.fe.causes = []) (hr : s.core.fe.resume = none) (hp : s.pkg.poison = [] ∧ s.pkg.weak = []) : Moves s q :=
  ⟨.inl hu, fun e he => (by rw [hc] at he; cases he), fun r h => (by rw [hr] at h; cases h), hp⟩
theorem wit_EnginesWork : (∀ q, Moves labEw q) ∧ (∀ q, Moves labEw2 q) ∧ (∀ q : Fin 5, ∃ c, labEw.core.eng.q[q] = [c] ∧ c.st = .waiting ∧ c.pop = none ∧ labEw.edgesMet c = true ∧ c.handler = false ∧ c.follow = false ∧ c.out = []) ∧ labEw.core.fe.handler = false ∧
    (wfld (63 : Word) 58 3 = 0 ∧ wfld (63 : Word) 16 32 = 0 ∧ wfld (63 : Word) 48 8 = 0) ∧ labEw.groupBusy 0 = false ∧ labEw.core.circ.untold = false ∧ (∃ c, labEw2.core.eng.q[(2 : Fin 5)] = [c] ∧ c.st = .running ∧ c.push = none ∧ c.handler = false ∧ c.instr = .sdset 1 7 nohk) ∧
    labEw2.core.fe.unit = .running ∧ (∃ c, labW3.core.eng.q[(2 : Fin 5)] = [c] ∧ c.st = .running ∧ c.push = none ∧ c.instr = .aclr 1 7 nohk) ∧ labW3.core.mems.acc.wf = true ∧
    (∃ c, labEw2.core.eng.q[(3 : Fin 5)] = [c] ∧ c.st = .waiting ∧ labEw2.edgesMet c = true ∧ c.instr = .cewait 31 true) ∧ labEw2.core.fe.handler = false := by
  refine ⟨fun q => moves (by decide +kernel) (by decide +kernel) (by decide +kernel) (by decide +kernel), fun q => moves (by decide +kernel) (by decide +kernel) (by decide +kernel) (by decide +kernel), fun q => ?_, by decide +kernel, by decide,
    by decide +kernel, by decide +kernel, ⟨_, rfl, rfl, rfl, rfl, rfl⟩, by decide +kernel, ⟨_, rfl, rfl, rfl, rfl⟩, by decide +kernel, ⟨_, rfl, rfl, by decide +kernel, rfl⟩, by decide +kernel⟩
  match q with
  | 0 => exact ⟨_, rfl, rfl, rfl, by decide +kernel, rfl, rfl, rfl⟩
  | 1 => exact ⟨_, rfl, rfl, rfl, by decide +kernel, rfl, rfl, rfl⟩
  | 2 => exact ⟨_, rfl, rfl, rfl, by decide +kernel, rfl, rfl, rfl⟩
  | 3 => exact ⟨_, rfl, rfl, rfl, by decide +kernel, rfl, rfl, rfl⟩
  | 4 => exact ⟨_, rfl, rfl, rfl, by decide +kernel, rfl, rfl, rfl⟩
theorem test_engines_work : (nextIs (exec .butterflyCommandStart labEw) (fun t => (t.core.eng.q[(2 : Fin 5)]).map (·.st) == [.running]) && nextIs (exec .butterflyCommandComplete labEw2) (fun t => t.core.sys.sd[(7 : Fin 8)] == 0xFFFF && t.core.eng.q[(2 : Fin 5)] == []) &&
    nextIs (exec .circuitCommandStart labEw) (fun t => look cxZero t.core.circ.pend 4095 == 0x40000000 && t.core.circ.dirty == [4095]) && nextIs (exec .circuitCommandStart labEw2) (fun t => t.g 31 == 15 && t.core.circ.status == 0) &&
    nextIs (exec .reshardCommandStart (labEw.withCore { labEw.core with rsLast := 9 })) (fun t => t.g 31 == 9)) = true := by decide +kernel

/-- A command of each queue has completed; hatches 1 to 4 take its token. -/
def labD : State :=
  let done (i : Instr) (h : Fin 16) : EngCmd := { cmd i [] with st := .done, push := some h }
  let s := labE.eng fun e => { e with q := #v[[done (.fill ⟨1, 2, 3, 4, nohk⟩ 1) 1], [done (.fill ⟨1, 2, 3, 4, nohk⟩ 1) 2], [done (.scclr nohk) 3], [done (.pupd 1 2 nohk) 4], [done (.reshard ⟨1, 2, 3, 4, nohk⟩) 5]], side := [cmd (.sdset 1 7 nohk) [0xFFFF]] }
  s.sys fun y => { y with timingCtl := 1, timingPad := y.timingPad.set 7 100 }
/-- One REDUCE.BIN runs; a page of a circuit is on its way; a receive side at 0x50000 of the partition's .CL has counted one of two bytes, and its own sub-transfer is in flight. -/
def labX2 : State :=
  let s := labE.eng fun e => { e with q := (e.q.set 0 [{ cmd (.reduceBin ⟨5, 2, 3, 16, nohk⟩) [0x1000, 0x100, 63, 0x1000D00000] with st := .running, fmts := [.fp32] }]).set 4 [{ cmd (.reshard ⟨1, 2, 3, 4, nohk⟩) [] with st := .running }] }
  let s := { s with mem := ((((pageZero 0 0x10000 []).putLe 0x50008 8 2).putLe 0x50010 8 1).putLe 0x50040 8 1) }
  let s := s.pkgd fun p => { p with rsSides := [⟨1, 2, 1, 0x50000, 6, 5, false⟩] }
  s.withCore { s.core with circ := { s.core.circ with reg := BitVec.ofNat 64 (2 ^ 63 + 2 ^ 62 + 2), nrec := 1, flight := [0] } }
def labAck : State :=
  let l : Layout := ⟨1, 6, [], [], [], [], [], []⟩
  let s := labX2.withCore { labX2.core with resh := some ⟨l, l, 0, none, none, 1, 2, true, 3, 0, [], 0, none⟩ }
  s.pkgd fun p => { p with rsFly := [⟨0, 2, 0, 0, 1, 2, 0, 2, [], true⟩] }
theorem wit_EnginesRetireAndExchange : (∀ q : Fin 5, ∃ c h, labD.core.eng.q[q] = [c] ∧ c.st = .done ∧ c.push = some h ∧ (labD.core.qs.h[h].toks).length < 16) ∧ labD.core.fe.unit = .running ∧ labD.strict = true ∧
    (∃ c, labD.core.eng.side = [c] ∧ c.instr = .sdset 1 7 nohk ∧ c.pop = none ∧ c.push = none ∧ labD.edgesMet c = true) ∧ (0 ∈ labX2.core.circ.flight ∧ labX2.pkg.poison = [] ∧ labX2.pkg.weak = [] ∧
      (match (labX2.fillWalks .cl 0x20000 16).keysWalk .cl 0x20000 16 false with | .ok _ => true | _ => false) = true) ∧
    (∃ c, labX2.core.eng.q[(0 : Fin 5)] = [c] ∧ c.st = .running ∧ c.handler = false ∧ c.out = [] ∧ c.ops = [0x1000, 0x100, 63, 0x1000D00000] ∧ c.fmts = [.fp32]) ∧ labX2.core.mems.sp.wf = true ∧ labX2.core.fe.unit = .running ∧
    (List.range (wfld (0x1000D00000 : Word) 36 12 + 1)).filter (· ≠ wfld (0x1000D00000 : Word) 24 12) = [1] ∧
    (∀ o ∈ [(1, (0x1001D00000 : Word), List.replicate 16 0x3F800000)], o.2.2.length = 16 ∧ (∀ b < 64, b < 24 ∨ 36 ≤ b → o.2.1.getLsbD b = (0x1000D00000 : Word).getLsbD b) ∧ labX2.pkg.cutDev labX2.devs o.1 = none ∧ o.1 = 1 ∧ wfld o.2.1 48 16 = wfld (0x1000D00000 : Word) 48 16) ∧
    ((labX2.pkg.rsSides.find? fun x => x.key == 1 && x.gen == 2).isSome = true ∧ labX2.partWord 1 (0x50000 + 64) = some 1 ∧ labX2.partWord 1 (0x50000 + 16) = some 1 ∧ labX2.partWord 1 (0x50000 + 8) = some 2 ∧
      (labX2.putCells 1 [(0x60000, 7)]).isSome = true ∧ labX2.pkg.rsFly = [] ∧ ((labX2.partPut 1 (0x50000 + 64) (leBytes 8 2)).bind fun v => v.partPut 1 (0x50000 + 16) (leBytes 8 2)).isSome = true) ∧
    (∃ r f, labAck.core.resh = some r ∧ labAck.pkg.rsFly = [f] ∧ f.core = labAck.core.idx ∧ f.ix = 2 ∧ f.landed = true ∧ labAck.core.fe.unit = .running ∧ 2 ≠ r.old ∧ r.old ∉ r.acked) := by
  refine ⟨fun q => ?_, by decide +kernel, by decide +kernel, ⟨_, rfl, rfl, rfl, rfl, by decide +kernel⟩, by decide +kernel, ⟨_, rfl, rfl, rfl, rfl, rfl, rfl⟩, by decide +kernel, rfl, by decide +kernel, by decide +kernel,
    by decide +kernel, ⟨_, _, rfl, rfl, rfl, rfl, rfl, rfl, by decide, by decide⟩⟩
  match q with
  | 0 => exact ⟨_, 1, rfl, rfl, rfl, by decide +kernel⟩
  | 1 => exact ⟨_, 2, rfl, rfl, rfl, by decide +kernel⟩
  | 2 => exact ⟨_, 3, rfl, rfl, rfl, by decide +kernel⟩
  | 3 => exact ⟨_, 4, rfl, rfl, rfl, by decide +kernel⟩
  | 4 => exact ⟨_, 5, rfl, rfl, rfl, by decide +kernel⟩
theorem test_engines_retire : (nextIs (exec (.copyCommandRetire false) labD) (fun t => (t.core.qs.h[(1 : Fin 16)]).toks == [some 160]) && nextIs (exec (.copyCommandRetire true) labD) (fun t => (t.core.qs.h[(2 : Fin 16)]).toks.getLast? == some (some 160)) &&
    nextIs (exec .circuitCommandRetire labD) (fun t => (t.core.qs.h[(4 : Fin 16)]).toks == [some 60]) && nextIs (exec .reshardCommandRetire labD) (fun t => (t.core.qs.h[(5 : Fin 16)]).toks == [some 60]) &&
    nextIs (exec .sidePathCommandComplete labD) (fun t => t.core.sys.sd[(7 : Fin 8)] == 0xFFFF && t.core.eng.side == []) && nextIs (exec (.pageFetch 0) labX2) (fun t => t.core.circ.frames.map (·.1) == [0] && t.core.circ.flight == []) &&
    nextIs (exec (.subTransfer 1 2 0 1 [(0x60000, 7)]) labX2) (fun t => t.mem.read 0x60000 == 7 && t.mem.le 0x50010 8 == 2 && t.mem.le 0x50040 8 == 2 && t.pkg.rsSides.map (·.ended) == [true]) &&
    nextIs (exec (.subTransfer 1 2 0 0 [(0x60000, 7)]) labX2) (fun t => t.mem.le 0x50010 8 == 1) && nextIs (exec (.subTransferAck 2) labAck) (fun t => t.core.resh.map (·.acked) == some [2] && t.pkg.rsFly == [])) = true := by decide +kernel

/-! ### The front end, counters, the job ring and the phases -/

/-- labV with ADD g3, g4, g5 behind its PC in memory; with XIMM and ADDI; with a branch over one word; the line at 0x1000 in the instruction cache. -/
def labP : State := { labV with mem := labV.mem.putLe (keyCl 0x1008) 8 0x0400642800000000 }
def labP2 : State := { labV with mem := (labV.mem.putLe (keyCl 0x1008) 8 (leNat (encode (.ximm 1)))).putLe (keyCl 0x1010) 8 (leNat (encode (.addi .d 5 5 7))) }
def labP3 : State := { labV with mem := labV.mem.putLe (keyCl 0x1008) 8 (leNat (encode (.br .always 0 0 2))) }
def labP4 : State := labV.fe fun f => { f with icache := [(lab.lineKey 0x40, (List.replicate 8 0) ++ leBytes 8 0x0400642800000000)] }
/-- The unit has not moved for 2^20 cycles, its A-pipe at a pop of hatch 3; a request that no MBND lets through; a unit with nothing left to do. -/
def labStall : State := lab.fe fun f => { f with stall := 2 ^ 20, aq := [{ labSlot with instr := .hpop 3 none }] }
def labNoB : State := lab.fe fun f => { f with preReq := some 0, cycle := 2 ^ 20, mac := some ⟨labSlot, 300⟩ }
def labEnd : State := lab.fe fun f => { f with unit := .ending }
theorem plain_add : PlainWord (.add .d 3 4 5) := ⟨rfl, rfl, rfl, (by intros; nofun), rfl⟩
theorem wit_FrontEndMoves : (∃ u, CodeAt labP 0x1008 0x0400642800000000 u) ∧ (∃ u, CodeAt labP4 0x1008 0x0400642800000000 u) ∧ decodeWord 0x0400642800000000 = .ok (.add .d 3 4 5) ∧ PlainWord (.add .d 3 4 5) ∧ labP.core.fe.CanDispatch ∧
    labP.core.fe.pc.toNat = 0x1008 ∧ labP.core.fe.roomFor (.add .d 3 4 5) [] = true ∧ (∃ u, CodeAt labP3 0x1008 (leNat (encode (.br .always 0 0 2))) u) ∧ decodeWord (leNat (encode (.br .always 0 0 2))) = .ok (.br .always 0 0 2) ∧
    PlainWord (.br .always 0 0 2) ∧ ((∃ r ∈ labX.core.regs.fly, r.due ≤ labX.core.fe.xnow + 1) ∧ labX.core.fe.unit = .running ∧ labX.core.fe.kernel = none ∧ labX.core.fe.xq = [] ∧ labX.core.fe.xStall = false ∧
      (∀ r ∈ labX.core.regs.fly, r.due ≤ labX.core.fe.xnow + 1 → ∀ h ∈ r.pushes, labX.core.qs.h[h].toks.length < 16)) ∧ (2 ^ 20 ≤ labStall.core.fe.stall ∧ labStall.core.fe.unit = .running ∧ labStall.CanTrap) ∧
    (2 ^ 20 ≤ (labStall.fe fun f => { f with handler := true }).core.fe.stall ∧ (labStall.fe fun f => { f with handler := true }).core.fe.handler = true) ∧
    (labNoB.core.fe.preReq = some 0 ∧ 0 + 2 ^ 20 ≤ labNoB.core.fe.cycle ∧ labNoB.core.fe.mac ≠ none ∧ labNoB.core.fe.bndSeen = false) ∧
    (labEnd.core.fe.unit = .ending ∧ labEnd.core.fe.handler = false ∧ labEnd.core.fe.aq = [] ∧ labEnd.core.fe.xq = [] ∧ labEnd.core.fe.kernel = none ∧ labEnd.core.regs.fly = [] ∧ labEnd.core.fe.hpushes = [] ∧
      (∀ q : Fin 4, labEnd.core.qs.sq[q] = [] ∧ ∀ x ∈ labEnd.core.qs.taker[q], isStream x = true) ∧ labEnd.core.lsu.acc = [] ∧ labEnd.core.lsu.heldSt = [] ∧ labEnd.core.lsu.ms = [] ∧
      (∀ q : Fin 5, labEnd.core.eng.q[q] = []) ∧ labEnd.core.eng.side = []) := by
  unfold CodeAt
  refine ⟨⟨_, rfl, by decide, .inr ⟨by decide +kernel, by decide +kernel, keyCl 0x1000, by decide +kernel, by decide +kernel, rfl⟩⟩, ⟨_, rfl, by decide, .inl ⟨List.replicate 8 0 ++ leBytes 8 0x0400642800000000, by decide +kernel, by decide +kernel, rfl⟩⟩, by decide +kernel, plain_add,
    ⟨.inl rfl, rfl, rfl, by decide +kernel, rfl, rfl, rfl⟩, by decide +kernel, by decide +kernel, ⟨_, rfl, by decide, .inr ⟨by decide +kernel, by decide +kernel, keyCl 0x1000, by decide +kernel, by decide +kernel, rfl⟩⟩,
    by decide +kernel, ⟨rfl, rfl, rfl, (by intros; nofun), rfl⟩, by decide +kernel, ⟨by decide +kernel, by decide +kernel, ⟨by decide +kernel, by decide +kernel⟩⟩, by decide +kernel⟩
theorem test_front : (nextIs (exec .instructionDispatch labP) (fun t => t.core.fe.aq.map (·.instr) == [.add .d 3 4 5] && t.core.fe.pc == 0x1010 && t.core.fe.icache.map (·.1) == [lab.lineKey 0x40]) &&
    nextIs (exec .instructionDispatch labP3) (fun t => t.core.fe.pc == 0x1018 && t.core.fe.hold == 3) && nextIs (exec .landAt labX) (fun t => t.core.regs.fly.length == 1 && t.core.fe.xnow == 5) &&
    nextIs (exec .hatchDeadlock labStall) (fun t => tookTrap .hatchDeadlock 0 t && wbit t.core.sys.trapInfo 3) && nextIs (exec .macroNoBoundary labNoB) (fun t => t.core.fe.unit == .ended && (t.pkg.counter 6).state == 5) &&
    nextIs (exec .completionRaised labEnd) (fun t => t.core.fe.unit == .empty && (t.pkg.counter 6).state == 2 && (t.pkg.counter 2).outstanding == 1)) = true := by decide +kernel

theorem wit_StepRunsDecoded : labP.agenda = [] ∧ labP.device = none ∧ labP2.device = none ∧ (labP.core.fe.aq = [] ∧ labP.core.fe.xq = [] ∧ labP.core.fe.kernel = none ∧ labP.core.fe.aStall = false ∧ labP.core.fe.xStall = false ∧
      labP.core.fe.adone = false ∧ labP.core.fe.xdone = false ∧ labP.core.fe.preReq = none ∧ labP.core.fe.causes = []) ∧ labP.core.fe.CanDispatch := by
  exact ⟨by decide +kernel, by decide +kernel, by decide +kernel, by decide +kernel, ⟨.inl rfl, rfl, rfl, by decide +kernel, rfl, rfl, rfl⟩⟩
theorem test_step : (nextIs (step (withG labP [(4, 5), (5, 6)])) (fun t => t.g 3 == 11 && t.core.fe.pc == 0x1010) && nextIs (step { withG labP2 [(5, 1)] with agenda := [.step] }) (fun t => t.core.fe.pc == 0x1018 && t.g 5 == 0x100000008) &&
    nextIs (step (labP2.fe fun f => { f with icache := [(lab.lineKey 0x40, leBytes 8 0 ++ encode (.ximm 1) ++ encode (.addi .d 5 5 7))] })) fun t => t.g 5 == 0x100000007 && t.core.fe.pc == 0x1018) = true := by decide +kernel

def ctrs (l : List (Nat × Counter)) : Package := { labPkg with counters := l.foldl (fun m p => put m p.1 p.2) labPkg.counters }
/-- The launch has one child left; its graph two. -/
def pkgLast : Package := ctrs [(2, ⟨true, 1, 1, 2, 0, 1, some 3, 5, 0⟩), (3, ⟨true, 0, 1, 3, 0, 2, some 4, 5, 0⟩)]
/-- Two phases of a closed job, of which the first has started. -/
def pkgPhases (state : Nat) : Package := { ctrs [(5, ⟨true, 0, state, 5, 0, 2, none, 5, 0⟩), (8, ⟨true, 0, 0, 4, 0, 0, some 5, 5, 0⟩)] with
  phases := [⟨4, 5, true, true, false⟩, ⟨8, 5, true, false, false⟩], jobs := [⟨5, 1, [(0, 1)], 0, false, [], 0, 0, [], [], true, false⟩] }
theorem wit_CountersFollow : ((labPkg.counter 6).live = true ∧ (labPkg.counter 6).state = 1 ∧ (labPkg.counter 6).parent = some 2 ∧ (labPkg.counter 2).level = 2 ∧ (labPkg.counter 2).state = 1 ∧ labPkg.graphs = [] ∧ 2 ≤ (labPkg.counter 2).outstanding) ∧
    ((pkgLast.counter 2).outstanding = 1 ∧ (pkgLast.counter 2).parent = some 3 ∧ (pkgLast.counter 3).level = 3 ∧ 2 ≤ (pkgLast.counter 3).outstanding) ∧
    (((pkgPhases 1).counter 5).live = true ∧ ((pkgPhases 1).counter 5).level = 5 ∧ ((pkgPhases 1).counter 5).parent = none ∧ ((pkgPhases 1).counter 5).state = 1 ∧ ((pkgPhases 3).counter 5).state = 3 ∧ ((pkgPhases 1).counter 4).live = true ∧
      (pkgPhases 1).graphs = [] ∧ ((pkgPhases 1).jobs.find? fun y => y.ctr == 5).any (·.closed) = true ∧ (∀ y ∈ (pkgPhases 1).jobs, y.ctr = 5 → y.service = false) ∧ (∀ f ∈ (pkgPhases 1).phases.drop 1, f.ctr ≠ 4 ∧ f.ctr ≠ 5 ∧ f.job = 5) ∧ ((pkgPhases 1).counter 8).state = 0) := by decide +kernel
theorem test_counters : ((labPkg.endUnit 6 5).counter 2 == ⟨true, 1, 1, 2, 1, 1, some 3, 5, 0⟩ && ((pkgLast.endUnit 6 5).counter 2).state == 5 && ((pkgLast.endUnit 6 5).counter 3) == ⟨true, 0, 1, 3, 1, 1, some 4, 5, 0⟩ &&
    (((pkgPhases 1).phaseEnded 4 5 2).counter 8).state == 1 && (((pkgPhases 1).phaseEnded 4 5 5).counter 5).state == 5 && (((pkgPhases 3).phaseEnded 4 5 2).counter 5).state == 4) = true := by decide +kernel

/-- The Hearth runs, and the entry at HEAD has these words 0 to 3. -/
def labR1 (w0 w1 w2 w3 : Nat) : State :=
  let s := lab.pkgd fun p => { p with booted := true, ring := ⟨0x100006, 1, 0⟩, phases := [⟨4, 5, false, true, false⟩] }
  { s with mem := s.mem.write (keyHost 0x100000) (leBytes 8 w0 ++ leBytes 8 w1 ++ leBytes 8 w2 ++ leBytes 8 w3) }
def labJob : State := labR1 (2 ^ 56 + 2 ^ 52) 0 0x200000 0
def labPh (op : Nat) : State := labR1 (op * 2 ^ 56) (5 * 2 ^ 52) 0 0
def labPhases0 (op : Nat) : State := (labPh op).pkgd fun p => { p with phases := [] }
theorem wit_JobRingEntries : labJob.pkg.fatal = false ∧ labJob.pkg.booted = true ∧ labJob.pkg.ring.head.toNat < labJob.pkg.ring.tail.toNat ∧ (labPh 0).ringOp = 0 ∧ 5 ≤ (labPh 5).ringOp ∧ labJob.ringOp = 1 ∧ labJob.entryRoom 1 = true ∧
    labJob.freeEntry = some 0 ∧ (labPh 3).ringOp = 3 ∧ (labR1 (3 * 2 ^ 56) (4 * 2 ^ 52) 0 0).ringJob = none ∧ (labPh 3).ringJob.isSome = true ∧ (labPh 3).ringRsvd = false ∧ (labR1 (3 * 2 ^ 56 + 1) (5 * 2 ^ 52) 0 0).ringRsvd = true ∧
    (labPh 4).ringOp = 4 ∧ (labPh 4).ringJob.isSome = true ∧ (labPh 4).ringRsvd = false ∧ (∀ y ∈ (labPh 4).pkg.jobs, y.ctr = 5 → y.service = false) ∧
    (labJob.hostBytes 0x200000 4096).take 8 = leBytes 8 0 ∧ labJob.descBad (labJob.hostBytes 0x200000 4096) 1 = true := by decide +kernel
/-- A JOB entry for partition 1 whose descriptor lists device 0, with this word 0 and pads of this value; the digest of its key is 32 times 7. -/
def labJobAt (w0 pad : Nat) : State :=
  let s := labR1 (2 ^ 56 + 2 ^ 52) 0 0x200000 (leNat (List.replicate 8 7))
  { s with mem := s.mem.write (keyHost 0x200000) (leBytes 8 w0 ++ (List.replicate 11 (leBytes 8 pad)).flatten ++ leBytes 56 0 ++ leBytes 8 1 ++ List.replicate 32 7 ++ leBytes 832 0 ++
      leBytes 8 (2 ^ 63 + 2 ^ 52)) }
/-- The JOB entries that are not refused: what SM3 gives is the device's function, so the witness assumes its value of one key. -/
theorem wit_JobAccepted (h : digest (List.replicate 64 0) = List.replicate 32 7) : ∀ x ∈ [(2 ^ 56, 0), (2 ^ 56 + 1, 1)], let s := labJobAt x.1 x.2
    let d := s.hostBytes (s.ringWord 2) 4096
    s.ringOp = 1 ∧ s.ringRsvd = false ∧ s.ringWord 3 = leNat ((d.drop 160).take 8) ∧ s.descBad d 1 = false ∧ s.entryRoom 1 = true ∧ s.freeEntry = some 0 ∧
    ((leNat (d.take 8)).testBit 0 = true ↔ x.2 = 1) ∧ leNat ((d.drop 8).take 8) = x.2 := by
  intro x hx
  simp only [List.mem_cons, List.not_mem_nil, or_false] at hx
  rcases hx with rfl | rfl
  all_goals
    refine ⟨by decide +kernel, by decide +kernel, by decide +kernel, ?_, by decide +kernel⟩
    unfold State.descBad
    rw [show ((_ : List Byte).drop 192).take 64 = List.replicate 64 0 by decide +kernel, h]
    decide +kernel
theorem test_ring : (nextIs (exec (.jobringTail 64) labJob) (fun t => t.pkg.ring.tail == 64) && nextIs (exec (.jobringTail 65) labJob) (fun t => t.pkg.ring.tail == 1 && t.pkg.mboxStat == 0x200) &&
    nextIs (exec .job (labPh 5)) (fun t => t.mem.le (keyHost 0x100038) 8 == 2 ^ 56 && t.pkg.ring.head == 1) && nextIs (exec .phaseEnd (labPh 3)) (fun t => t.pkg.phases.map (·.closed) == [true] && t.mem.le (keyHost 0x100038) 8 == 0) &&
    nextIs (exec .phaseEnd (labR1 (3 * 2 ^ 56) (4 * 2 ^ 52) 0 0)) (fun t => t.mem.le (keyHost 0x100038) 8 == 4 * 2 ^ 56) && nextIs (exec .jobEnd (labPh 4)) (fun t => t.pkg.jobs.map (·.closed) == [true] && (t.pkg.counter 5).state == 1) &&
    nextIs (exec .jobEnd (labPhases0 4)) (fun t => (t.pkg.counter 5).state == 2)) = true := by decide +kernel

/-- A graph descriptor of two launches at 0x200000 of host memory, the first of `units` units in a gang, and an edge between them. -/
def labG (units : Nat) (p : Package → Package) : State :=
  let launch (n gang : Nat) : List Byte := leBytes 8 0x1000 ++ leBytes 8 0x2000 ++ leBytes 8 (n - 1 + 2 ^ 48 + gang * 2 ^ 50) ++ leBytes 8 0x3000 ++ leBytes 32 0
  let s := labR1 (2 * 2 ^ 56) (5 * 2 ^ 52) 0x200000 0
  ({ s with mem := s.mem.write (keyHost 0x200000) (leBytes 2 2 ++ leBytes 2 1 ++ leBytes 12 0 ++ launch units 1 ++ launch 3 0 ++ leBytes 4 0x10000) }).pkgd p
def labG1 : State := labG 2 id
def labGbig : State := labG 3 id
def labGnew : State := labG 2 fun p => { p with phases := [] }
/-- A graph of entry 3 that runs; its second launch waits for the first. -/
def labLs (st : Nat) : State := labG1.pkgd fun p => { p with graphs := [⟨3, 5, 4, [⟨(labG1.descLaunches 0x200000).headD ⟨[], 0, none, []⟩ |>.words, st, none, []⟩, ⟨((labG1.descLaunches 0x200000).getD 1 ⟨[], 0, none, []⟩).words, 0, none, []⟩], [(0, 1)]⟩] }
theorem wit_GraphsAndLaunches : labG1.hearthUp = true ∧ labG1.pkg.ring.head.toNat < labG1.pkg.ring.tail.toNat ∧ labG1.ringOp = 2 ∧ (labR1 (2 * 2 ^ 56) 0 0x200000 0).ringOp = 2 ∧ (labR1 (2 * 2 ^ 56) 0 0x200000 0).ringJob = none ∧
    labG1.ringJob.isSome = true ∧ labG1.ringRsvd = false ∧ graphBad (labG1.descLaunches (labG1.ringWord 2)) (labG1.descEdges (labG1.ringWord 2)) = false ∧ labG1.descLaunches (labG1.ringWord 2) ≠ [] ∧
    graphBad ((labG 0x10001 id).descLaunches 0x200000) ((labG 0x10001 id).descEdges 0x200000) = true ∧ (∃ f, (labG1.pkg.phases.find? fun f => f.job == 5 && !f.closed) = some f ∧ (labG1.pkg.counter f.ctr).state ≠ 3) ∧
    (∀ l ∈ labG1.descLaunches 0x200000, l.gang = true → l.units ≤ (labG1.jobCores 5).length) ∧ (¬ ∀ l ∈ labGbig.descLaunches 0x200000, l.gang = true → l.units ≤ (labGbig.jobCores 5).length) ∧ labG1.entryRoom 1 = true ∧
    labG1.freeEntry = some 0 ∧ labGnew.pkg.phases = [] ∧ labGnew.entryRoom 2 = true ∧ labGnew.freeEntry = some 0 ∧ ((labGnew.pkg.counter 1).live = false ∧ labGnew.watched 1 = false) ∧ (labLs 0).hearthUp = true ∧
    (∃ g l, ((labLs 2).pkg.graphs.find? fun g => g.ctr == 3) = some g ∧ g.launches[1]? = some l ∧ l.st = 0 ∧ ∀ e ∈ g.edges, e.2 = 1 → ∃ x, g.launches[e.1]? = some x ∧ x.st = 2) ∧
    (∃ g l, ((labLs 0).pkg.graphs.find? fun g => g.ctr == 3) = some g ∧ g.launches[0]? = some l ∧ l.st = 0 ∧ ∀ e ∈ g.edges, e.2 = 0 → ∃ x, g.launches[e.1]? = some x ∧ x.st = 2) ∧ ((labLs 0).pkg.counter 3).state = 1 ∧
    (labLs 0).pkg.liveOthers < 3808 ∧ (labLs 0).freeEntry = some 0 ∧
    (labLs 0).pkg.readied.ready.length ≤ 3808 - (labLs 0).pkg.liveOthers := by
  and_intros <;> first | decide +kernel | refine ⟨_, _, rfl, rfl, rfl, fun e he h => ?_⟩
  all_goals
    have : e = (0, 1) := by simpa [labLs, State.pkgd] using he
    subst this
  · exact ⟨_, rfl, rfl⟩
  · cases h
theorem test_graphs : (nextIs (exec .graph labG1) (fun t => (t.pkg.counter 0) == ⟨true, 1, 1, 3, 0, 2, some 4, 5, 0⟩ && (t.pkg.counter 4).outstanding == 2 && t.mem.le (keyHost 0x100038) 8 == 0) &&
    nextIs (exec .graph labGbig) (fun t => t.mem.le (keyHost 0x100038) 8 == 2 * 2 ^ 56 && t.pkg.graphs == []) && nextIs (exec .graph labGnew) (fun t => t.pkg.phases == [⟨0, 5, false, true, false⟩] && (t.pkg.counter 1).parent == some 0 && t.mem.le (keyHost 0x100038) 8 == 2 ^ 44) &&
    nextIs (exec (.launchStart 3 0) (labLs 0)) (fun t => t.pkg.counter 0 == ⟨true, 1, 0, 2, 0, 2, some 3, 5, 0⟩) && nextIs (exec (.launchStart 3 1) (labLs 2)) (fun t => (t.pkg.counter 0).state == 1 && (t.pkg.counter 0).outstanding == 3)) = true := by decide +kernel

/-- Core 1 holds Porch bytes of the job for core 0's vault and for core 1's; no unit is left. The entry of `spc` is one that does not translate. -/
def labPorch (spc : Space) : State :=
  let e (bindSeq vault : Nat) (spc : Space) (cells : List (Nat × PorchCell)) : PorchEntry := ⟨0x2006, 5, bindSeq, spc, 1, vault, 1, cells⟩
  let c := Core.reset 1
  let s : State := { lab with core := { lab.core with fe := Front.reset, slot := ⟨0, 0, 0⟩ }, others := [{ c with lsu := { c.lsu with porch := [e 2 0 .at [(0, ⟨7, 4, 0⟩)], e 1 0 .at [(0, ⟨8, 9, 0⟩), (3, ⟨9, 9, 0⟩)], e 1 1 spc [(0, ⟨5, 3, 0⟩)]] } }] }
  s.pkgd fun p => { (p.setCounter 4 ⟨true, 0, 1, 4, 0, 0, some 5, 5, 0⟩) with booted := true, phases := [⟨4, 5, true, true, false⟩] }
theorem wit_PhasesDrain : (labPorch .at).hearthUp = true ∧ ((labPorch .at).pkg.phases.find? fun f => f.ctr == 4).any (·.started) = true ∧ ((labPorch .at).jobAt 5).isSome = true ∧ ((labPorch .at).partAt 1).isSome = true ∧
    ((labPorch .at).pkg.counter 4).outstanding = 0 ∧ (labPorch .at).jobQuiet 5 = true ∧ (∃ p, (labPorch .at).partAt 1 = some p ∧ ∀ x ∈ (labPorch .at).drainCells 5, x.entry.spc = .at ∧ (labPorch .at).moving [drainAt p x] = false) ∧
    (∃ j p, (labPorch .cl).jobAt 5 = some j ∧ (labPorch .cl).partAt 1 = some p ∧ (match State.drainTo j p false ((labPorch .cl).drainCells 5) (labPorch .cl) [] with
      | .error e => e.spc == .cl && e.fail.isSome | .ok _ => false) = true) := by
  and_intros <;> first | decide +kernel | exact ⟨_, _, rfl, rfl, by decide +kernel⟩
theorem test_boundary : (nextIs (exec (.phaseBoundary 4 false) (labPorch .at)) (fun t => t.mem.le (keyVault 0 64) 4 == 0x09000007 && t.mem.read (keyVault 1 64) == 5 && t.allCores.all (fun c => c.lsu.porch == []) && (t.pkg.counter 4).state == 2) &&
    nextIs (exec (.phaseBoundary 4 false) (labPorch .cl)) (fun t => t.pkg.phases.map (·.waiting) == [true] && t.pkg.notify.head == 1 &&
      nextIs (step { t with agenda := [.repair [(0x100, 5)]] }) fun u => u.pkg.phases.map (·.waiting) == [false] && u.mem.le (keyCl 0x100) 8 == 5)) = true := by decide +kernel

/-! ### Units: binding, the unit switch, requests, the save and the end -/

/-- A bind record of partition 1, launch 2 (generation 1), unit index i with counter k, class 3, checkpoint block 1. -/
def bindRec (i k extra : Nat) : BitVec 128 := BitVec.ofNat 128 (2 ^ 127 + 3 * 2 ^ 121 + 2 ^ 117 + i * 2 ^ 64 + 2 * 2 ^ 52 + k * 2 ^ 40 + 2 ^ 28 + 1 + extra)
/-- Launch 2 of three units, of which unit 0 has been bound, with ENTRY 0x1000 and its parameters of 4 bytes at 0x5000; the Hearth runs. -/
def labLaunch : Launch := ⟨[0x1000, 0x5000, 2 + 2 ^ 48 + 4 * 2 ^ 52, 0, 0, 0, 0, 0], 1, some (labPkg.ref 2 % 2 ^ 24), [0]⟩
def labH0 : State :=
  let l := labLaunch
  let s := lab.pkgd fun p => { p with booted := true, graphs := [⟨3, 5, 4, [l], []⟩], launches := [(2, l.words)], jobs := [⟨5, 1, [(0, 1), (7, 1)], 3, false, [], 0, 50, [], [], false, false⟩] }
  { s with mem := (pageZero 0 0x10000 []).putLe 0x5000 4 0x11223344 }
/-- labH0 with an empty core and its standby record. -/
def labSt (stby : BitVec 128) : State := labH0.withCore { labH0.core with fe := { Front.reset with cycle := 100 }, slot := ⟨0, stby, 0⟩ }
def labSw : State := (labSt (bindRec 1 9 0)).pkgd fun p => { (p.setCounter 9 ⟨true, 0, 0, 1, 0, 1, some 2, 5, 0⟩) with binds := 4 }
/-- A difference record of one pair, whose CRC does not agree. -/
def diffRec : List Word := [BitVec.ofNat 64 (2 ^ 48 + 5 * 2 ^ 32), 280, 1]

/-- A gang of one unit, 9, whose record stands by; and the same with unit 7 of the gang nowhere. -/
def labGs (more : Bool) : State := (labSt (bindRec 1 9 (2 ^ 124))).pkgd fun p =>
  (((p.setCounter 9 ⟨true, 0, 0, 1, 0, 1, some 2, 5, 0⟩).setCounter 6 { p.counter 6 with live := false }).setCounter 7 { p.counter 7 with live := more }).setCounter 2
    { p.counter 2 with outstanding := if more then 2 else 1 }
theorem wit_UnitsAreBound : labH0.hearthUp = true ∧ bindV (labSw.core.slot.stby).toNat = true ∧ labSw.hearthUp = true ∧ bindV ((labSt 0).core.slot.stby).toNat = false ∧ bindV (5 : BitVec 128).toNat = false ∧
    (let r := (bindRec 1 9 0).toNat
     bindV r = true ∧ ((labSt 0).pkg.counter (bindLctr r)).gen % 4096 = bindLgen r ∧ (labSt 0).launchOf (bindLctr r) = some labLaunch ∧ labLaunch.gang = bindGang r ∧ (labSt 0).mayBind r labLaunch = true ∧
      bindUidx r < labLaunch.units ∧ bindUidx r ∉ labLaunch.bound ∧ ((labSt 0).pkg.counter (bindLctr r)).state = 1 ∧ ((labSt 0).pkg.counter 9).live = false ∧ bindResume r = false ∧ (labSt 0).watched 9 = false ∧
      (labSt 0).pkg.liveUnits < 288) ∧
    (let r := (bindRec 0 7 0).toNat
     (labSt 0).launchOf (bindLctr r) = some labLaunch ∧ (labSt 0).mayBind r labLaunch = true ∧ ((labSt 0).pkg.counter 7).live = true ∧ ((labSt 0).pkg.counter 7).level = 1 ∧
      ((labSt 0).pkg.counter 7).parent = some (bindLctr r) ∧ (labSt 0).bound 7 = false ∧ bindResume r = (labSt 0).resumeOk r) ∧
    ((labSt (bindRec 1 9 (2 ^ 27))).core.slotFree = true ∧ (labSt (bindRec 1 9 (2 ^ 27))).bindBad (bindRec 1 9 (2 ^ 27)).toNat = true ∧ bindV (bindRec 1 9 (2 ^ 27)).toNat = true) ∧
    (∀ more : Bool, let s := labGs more
      s.hearthUp = true ∧ bindV s.core.slot.stby.toNat = true ∧ s.core.slotFree = true ∧ s.bindBad s.core.slot.stby.toNat = false ∧ bindGang s.core.slot.stby.toNat = true ∧
      s.gangTogether s.core.slot.stby.toNat = !more ∧ ((s.core :: s.others).map (·.idx)).Nodup ∧
      (more = false → (State.switchAll s.core.idx (s.gangCores (bindLctr s.core.slot.stby.toNat)) s).isSome = true)) ∧
    (diffRec.length = 2 * wfld (diffRec.headD 0) 48 16 + 1 ∧ wfld (diffRec.headD 0) 48 16 ≤ 512) := by decide +kernel
theorem test_bind : (nextIs (exec (.slotStbyWrite (bindRec 1 9 0)) (labSt 0)) (fun t => t.core.slot.stby == bindRec 1 9 0 && t.pkg.counter 9 == ⟨true, 1, 0, 1, 0, 1, some 2, 5, 0⟩ && (t.pkg.graphs.flatMap fun g => g.launches.map (·.bound)) == [[1, 0]]) &&
    nextIs (exec (.slotStbyWrite 5) labSw) (fun t => t.core.slot == ⟨0, bindRec 1 9 0, 0x100⟩) && nextIs (exec .unitSwitch (labSt (bindRec 1 9 (2 ^ 27)))) (fun t => t.core.slot == ⟨0, 0, 0x100⟩)) = true := by decide +kernel

theorem wit_FreshUnitsStart : labSw.CanSwitch labSw.core.resident ∧ bindResume labSw.core.slot.stby.toNat = false ∧ labSw.pkg.poison = [] ∧ labSw.pkg.weak = [] ∧
    fld ((look [] labSw.pkg.launches 2).getD 2 0).toNat 52 9 = 4 ∧ fld ((look [] labSw.pkg.launches 2).getD 3 0).toNat 0 56 = 0 ∧
    (match (labSw.slotMoved.fillWalks .cl 0x5000 4).keysWalk .cl 0x5000 4 false with | .ok ks => ks == addrs (keyCl 0x5000) 4 | _ => false) = true :=
  ⟨⟨by decide +kernel, by decide +kernel, by decide +kernel, by decide +kernel, fun h => absurd h (by decide +kernel), .inl ⟨by decide +kernel, rfl⟩, by decide +kernel, by decide +kernel⟩, by decide +kernel⟩
theorem test_fresh : ((freshG (bindRec 1 9 0).toNat (2 + 2 ^ 48 + 4 * 2 ^ 52)) == [0, 1, 1, 0x1000000000002, 0x1002] && ((labSw.pkg.firstBind (bindRec 1 9 0).toNat).counter 9) == ⟨true, 0, 1, 1, 0, 1, some 2, 5, 5⟩) = true := by decide +kernel

/-- What the save of labRq keeps, with an entry of its Porch. -/
def kept : Parked := ⟨(bindRec 0 6 0).toNat, true, 255, false, none, lab.core.fe, lab.core.qs, { lab.core.lsu with porch := [⟨6, 5, 0, .at, 1, 0, 0, []⟩] }, Eng.reset, Circuit.reset, lab.core.link, 0, []⟩
/-- labSt whose standby record resumes unit 6, and its resume record. -/
def labRes : State :=
  let b := bindRec 0 6 (2 ^ 126)
  let s := (labSt b).pkgd fun p => { p with parked := [kept] }
  { s with mem := (s.mem.putLe (regAt b.toNat 0) 8 (2 ^ 63 + 6 * 2 ^ 40)).putLe (regAt b.toNat 40) 8 255 }
theorem wit_ParkedUnitsReturn : labRes.CanSwitch labRes.core.resident ∧ bindResume labRes.core.slot.stby.toNat = true ∧ (labRes.pkg.parked.find? fun x => bindUctr x.bind == bindUctr labRes.core.slot.stby.toNat) = some kept ∧
    labRes.core.lsu.porch.length + kept.lsu.porch.length ≤ 17408 ∧ labRes.mem.wf = true ∧
    (savedCirc labRes.mem (keyCl (bindCkpt labRes.core.slot.stby.toNat + 8 * 2 ^ 20) + 0x563000)).untold = false :=
  ⟨⟨by decide +kernel, by decide +kernel, by decide +kernel, by decide +kernel, fun h => absurd h (by decide +kernel), .inl ⟨by decide +kernel, rfl⟩, by decide +kernel, by decide +kernel⟩, by decide +kernel⟩
/-- Unit 6 runs, of class `cls`; units 1 and 2 of its launch wait, of the class of their job, 3. -/
def labRq (cls : Nat) : State := labH0.withCore { labH0.core with slot := ⟨bindRec 0 6 0 ^^^ BitVec.ofNat 128 ((3 ^^^ cls) * 2 ^ 121), 0, 0⟩ }
def labIdle : State := labSt 0
theorem wit_RequestsReachUnits : (labRq 2).hearthUp = true ∧ (labRq 2).core.busy = true ∧ labIdle.core.busy = false ∧ (∃ x ∈ (labRq 3).awaiting (bindPart (labRq 3).core.slot.act.toNat), (labRq 3).classOf x.1 x.2 ≤ bindPrio (labRq 3).core.slot.act.toNat) ∧
    (∀ x ∈ (labRq 2).awaiting (bindPart (labRq 2).core.slot.act.toNat), bindPrio (labRq 2).core.slot.act.toNat < (labRq 2).classOf x.1 x.2) ∧ ((labRq 2).jobAt 5).any (fun j => j.ckptMs != 0) = true ∧
    ((labRq 2).jobAt ((labRq 2).pkg.counter 2).job).isSome = true ∧ (2, 1) ∈ (labRq 2).waitingUnits 1 ∧
    (let s := labRq 5
     s.hearthUp = true ∧ s.agenda = [] ∧ s.preTakeable = false ∧ s.core.fe.unit = .running ∧ s.core.fe.preReq = none ∧ s.others = [] ∧
      ∃ x ∈ s.waitingUnits (bindPart s.core.slot.act.toNat), s.classOf x.1 x.2 < bindPrio s.core.slot.act.toNat) := by decide +kernel
theorem test_requests : (nextIs (exec .slotCtlPre (labRq 2)) (fun t => t.core.fe.preReq == some 100) && nextIs (exec .slotCtlPre labIdle) (fun t => t.core.fe.preReq == none) && nextIs (exec .quantumExpiry (labRq 3)) (fun t => t.core.fe.preReq == some 100) &&
    nextIs (exec .quantumExpiry (labRq 2)) (fun t => t.core.fe.preReq == none) && nextIs (exec (.checkpointInterval 5) (labRq 2)) (fun t => t.core.fe.preReq == some 100) &&
    nextIs (exec (.aging 2 1) (labRq 2)) (fun t => t.classOf 2 1 == 2 && t.classOf 2 2 == 3) &&
    nextIs (step (labRq 5)) (fun t => t.core.fe.preReq == some 100)) = true := by decide +kernel

/-- A request may be taken; bit 5 of g, bank 3 LIVE and a token on hatch 2. -/
def labPre : State :=
  let s := (labRq 2).fe fun f => { f with preReq := some 90 }
  let s := s.regs fun r => { Regs.reset with g := r.g.set 5 0x1234, gDirty := 0x20 }
  (s.sys fun y => { y with bankFmt := [(3, 0x10D)] }).qs fun u => { u with h := u.h.set 2 ⟨0xA1, [none]⟩ }
/-- One write of its LSU is still on its way. -/
def flying (s : State) : State := s.lsu fun l => { l with ms := [⟨.put [1], [0x40], 2, 4⟩] }
theorem wit_PreemptionSaves : (∀ s ∈ [labPre, flying labPre], s.core.fe.preReq.isSome = true ∧ s.core.fe.handler = false ∧ s.core.fe.mac = none ∧ s.core.fe.unit = .running ∧ s.core.fe.xdone = false ∧ s.core.fe.fault = none) ∧
    labPre.landed = true ∧ (flying labPre).landed = false ∧
    (let s := labPre.frozen
     s.core.fe.unit = .saving ∧ s.landed = true ∧ s.core.idx < 144 ∧ s.mem.wf = true ∧ (s.core.mems.sp.wf && s.core.mems.loft.wf && s.core.mems.cup.wf && s.core.mems.acc.wf && s.core.mems.chain.wf) = true ∧ s.core.lhwm ≤ 2 ^ 16 ∧
      s.core.lsu.porch.length ≤ 17408 ∧ s.core.qs.scale.length ≤ 256 ∧ (∀ h : Fin 16, (s.core.qs.h[h]).toks.length ≤ 16) ∧ (∀ x ∈ s.pkg.parked, ¬ (x.held = true ∧ x.loc = s.core.idx)) ∧ s.core.regs.gDirty.getLsbD 5 = true ∧
      s.core.regs.gDirty.getLsbD 6 = false ∧ wbit (s.bankFmt 3) 8 = true ∧ wbit (s.bankFmt 4) 8 = false) := by decide +kernel

def labHl : State := (labRq 2).pkgd fun p => { p with parked := [{ kept with held := true, loc := 0 }] }
/-- A launch whose units are all gone but for two that were never bound; a job that has ended. -/
def labLa : State := labH0.pkgd fun p => (p.setCounter 6 { p.counter 6 with live := false }).setCounter 7 { p.counter 7 with live := false } |>.setCounter 3 ⟨true, 0, 1, 3, 0, 2, some 4, 5, 0⟩
def labJd : State := labH0.pkgd fun p => p.setCounter 5 ⟨true, 0, 2, 5, 0, 0, none, 5, 0⟩
theorem wit_CancelEvictRelease : (labRq 2).hearthUp = true ∧ (labRq 2).core.busy = true ∧ labIdle.core.busy = false ∧ ((labRq 2).pkg.counter 100).level = 0 ∧ (labJd.pkg.counter 5).level ≠ 0 ∧ (labJd.pkg.counter 5).state = 2 ∧
    (((labRq 2).pkg.counter 6).live = true ∧ ((labRq 2).pkg.counter 6).state = 1 ∧ ((labRq 2).pkg.counter 6).level = 1 ∧ bindUctr (labRq 2).core.slot.act.toNat = 6) ∧
    (((labRq 2).pkg.counter 7).live = true ∧ ((labRq 2).pkg.counter 7).level = 1 ∧ ((labRq 2).core :: (labRq 2).others).any (fun c => c.busy && bindUctr c.slot.act.toNat == 7) = false) ∧
    ((labLa.pkg.counter 2).live = true ∧ (labLa.pkg.counter 2).level = 2 ∧ (labLa.pkg.counter 2).parent = some 3 ∧ 2 ≤ (labLa.pkg.counter 3).outstanding ∧ labLa.pkg.openUnits 2 = [] ∧ ∀ g ∈ labLa.pkg.graphs, ∀ y ∈ g.launches, y.st ≠ 0) ∧
    (labRq 2).pkg.parked = [] ∧ (labRq 2).pkg.mbox = none ∧ labJd.pkg.mbox = none ∧ labLa.pkg.mbox = none ∧ (labHl.pkg.parked.find? fun y => y.held && y.loc == labHl.core.idx).isSome = true ∧ labHl.mem.wf = true ∧ (labRq 2).landed = true ∧ (flying (labRq 2)).landed = false ∧ (labRq 2).core.fe.unit = .running := by decide +kernel
theorem test_ends : (nextIs (exec .slotCtlCancel (labRq 2)) (fun t => t.core.fe.unit == .ended && (t.pkg.counter 6).state == 4) && nextIs (exec (.cancel 100) (labRq 2)) (fun t => t.pkg.mboxStat == 4) && nextIs (exec (.cancel 5) labJd) (fun t => t.pkg.mboxStat == 2) &&
    nextIs (exec (.cancel 7) (labRq 2)) (fun t => (t.pkg.counter 7).state == 4 && (t.pkg.counter 2).failed == 1) && nextIs (exec (.cancel 2) labLa) (fun t => t.pkg.counter 2 == ⟨false, 1, 4, 2, 2, 0, some 3, 5, 0⟩ && (t.pkg.counter 3).failed == 1) &&
    nextIs (exec (.release 5) labJd) (fun t => !(t.pkg.counter 5).live && t.pkg.jobs == []) && nextIs (exec (.release 5) labH0) (fun t => t.pkg.mboxStat == 3) && nextIs (exec .slotCtlEvict labIdle) (fun t => t.core.slot == labIdle.core.slot) &&
    nextIs (exec (.machineCheck none) (labRq 2)) (fun t => t.core.fe.unit == .empty && (t.pkg.counter 6).state == 1)) = true := by decide +kernel

/-! ### Translations, the outside, the mailbox and the links -/

/-- labH0 with two walks of its unit waiting: one of a mapped page, one of a hole; unit 6 is listed by the job's device 7. -/
def labWk : State := labH0.lsu fun l => { l with walks := [⟨.cl, 0x5000, false, false⟩, ⟨.cl, 2 ^ 40, false, false⟩] }
def labSus : State := labH0.fe fun f => { f with unit := .suspended true }

theorem wit_Walks : labWk.part = some ⟨1, [0, 1], 0x10000, 0x20000, 0, 0, none⟩ ∧ labWk.core.fe.unit = .running ∧ labWk.pkg.notify.full = false ∧
    (match walk labWk.mem 0 .cl 0x10000 0x5000 false with | .ok (a, _, size) => a == 0x30000 && size == 34 | _ => false) = true ∧
    (match walk labWk.mem 0 .cl 0x10000 (2 ^ 40) false with | .error f => f == .notValid | _ => false) = true ∧ (∀ d : Fin 2, (labWk.pkg.dieTlb[d]).length < 16384) := by decide +kernel
theorem wit_TranslationsAndOutside : labSus.core.fe.unit = .suspended true ∧ labSus.hearthUp = true ∧ labH0.pkg.fatal = false ∧ labH0.partAt 3 = none ∧ labH0.admitsPeer 9 1 = false ∧ labH0.admitsPeer 7 1 = true ∧
    (labH0.partAt 1).isSome = true ∧ wfld labH0.pkg.hdmBase 0 1 = 0 ∧ (∀ r ∈ labSus.pkg.notify.pending, fld r 44 12 ≠ labSus.uctr) ∧ labH0.pkg.mbox = none ∧ labH0.pkg.notify.pending = [] ∧ wfld (9 : Word) 0 4 = 9 ∧ wfld (0x0B00000000000000 : Word) 56 8 = 11 ∧
    (match labH0.partAt 1 with
     | some p => [false, true].all fun w => (match keysVia (prXlate labH0 p w) ((List.range 4).map (0x5000 + ·)) with | .ok ks => ks == addrs (keyCl 0x5000) 4 | _ => false)
     | none => false) = true ∧
    (let p : Partition := ⟨1, [0, 1], 0x10000, 0x20000, 0, 0, none⟩
     labH0.partAt 1 = some p ∧ (∀ w, (State.dieKeys 0 p .cl w ((List.range 4).map (0x5000 + ·)) labH0).1 = .ok (addrs (keyCl 0x5000) 4)) ∧
      (State.dieKeys 0 p .cl false ((List.range 4).map (2 ^ 40 + ·)) labH0).1 = .stop (2 ^ 40) (.fail .notValid)) ∧ labH0.moving (addrs (keyCl 0x5000) 4) = false ∧ (addrs (keyCl 0x5000) 4).Nodup ∧ labH0.pkg.dieTlb[(0 : Fin 2)] = [] ∧
    labH0.moving (addrs (keyHost 0x40) 1) = false ∧ wfld (24 : Word) 0 5 = 24 ∧ look 0 (labH0.pkgd fun p => { p with routes := [(3, 0x38)] }).pkg.routes 3 = 0x38 ∧
    (labH0.pkgd fun p => { p with mbox := some 0 }).pkg.mbox ≠ none := by decide +kernel
theorem test_walk : (nextIs (exec (.translationWalk 0) labWk) (fun t => t.core.lsu.utlb.length == 3 && t.core.lsu.walks.length == 1) &&
    nextIs (exec (.translationWalk 1) labWk) (fun t => t.core.fe.unit == .suspended false && t.pkg.notify.head == 1) &&
    nextIs (exec (.prRequest 7 1 0x5000 (.store [0xAA])) labH0) (fun t => t.mem.le (keyCl 0x5000) 4 == 0x112233AA) &&
    nextIs (exec (.prRequest 9 1 0x5000 (.store [0xAA])) labH0) (fun t => t.mem.le (keyCl 0x5000) 4 == 0x11223344) &&
    nextIs (exec (.registerWrite .fabricId 0x107) labH0) (fun t => t.readReg .fabricId == 7) && nextIs (exec (.registerWrite .notifyBase 7) labH0) (fun t => t.readReg .notifyBase == 8) &&
    nextIs (exec (.hostMemAccess 0x40 1 (some [5])) labH0) (fun t => t.mem.read (keyHost 0x40) == 5)) = true := by decide +kernel
theorem test_invalidate : nextIs (exec (.transInv 1 .cl 0 0x10000) labH0) (fun t => t.core.lsu.utlb.map (·.spc) == [.hs]) = true := by decide +kernel

/-- A request of PARTITION in the host's memory at 0x1000 (buffer 0x40): partition `id`, cores by their bits, the roots 0x10000 and 0x20000. -/
def partBytes (id cores : Nat) : List Byte := leBytes 8 id ++ leBytes 18 cores ++ leBytes 6 0 ++ leBytes 8 1000 ++ leBytes 8 0x10000 ++ leBytes 8 0x20000 ++ leBytes 8 0
def labPt (id cores : Nat) : State :=
  let s := (labSt 0).pkgd fun p => { p with jobs := [] , parts := [⟨1, [0, 1], 0x10000, 0x20000, 0, 0, none⟩], graphs := [] }
  s.hostPut 0x1000 (partBytes id cores)
/-- The smallest object: a header and its signature. -/
def labObj : List Byte := leBytes 8 (0x49584F31 * 2 ^ 32 + 0x0100 * 2 ^ 16 + 1) ++ leBytes 8 0 ++ leBytes 8 64 ++ leBytes 8 224 ++ List.replicate 32 0 ++
  (leBytes 8 (14 * 2 ^ 48 + 3 * 2 ^ 32) ++ leBytes 8 96 ++ leBytes 8 128 ++ leBytes 8 0) ++ List.replicate 128 0
def labReq : LoadReq := ⟨0x40, 0x2000, 5, [], [], 0, 0⟩
def labLoadJob : Job := ⟨5, 1, [(0, 1), (7, 1)], 3, false, [], 0, 50, [], [], false, false⟩
def reqAt (s : State) : List Byte := s.hostBytes (bufAt 0x40) 64

theorem wit_MailboxCommands : labH0.mem.wf = true ∧ labH0.hearthUp = true ∧ labH0.pkg.parts.length < 2 ^ 16 ∧ (labH0.pkg.counters.filter fun c => c.2.live).length < 2 ^ 16 ∧
    ((labH0.core :: labH0.others).flatMap Core.flightRows).length < 2 ^ 16 ∧ labH0.partDenied (reqAt labH0) = true ∧
    labH0.pkg.booted = true ∧ labH0.pkg.mbox = none ∧ (labPt 2 4).pkg.mbox = none ∧ labH0.pkg.bbox.frozen = false ∧ (labH0.pkgd fun p => { p with bbox := { p.bbox with frozen := true } }).pkg.bbox.frozen = true := by decide +kernel
theorem wit_PartitionNew : let s := labPt 2 4; s.partDenied (reqAt s) = false ∧ s.partAt (partReq (reqAt s)).id = none ∧ (partReq (reqAt s)).cores = [2] ∧ s.mem.wf = true ∧ s.hearthUp = true := by decide +kernel
theorem wit_PartitionGone : let s := labPt 1 0; s.partDenied (reqAt s) = false ∧ (s.partAt (partReq (reqAt s)).id).map (·.cores) = some [0, 1] ∧ (partReq (reqAt s)).cores = [] ∧
    (∀ c ∈ s.core :: s.others, c.slotFree = true ∧ bindV c.slot.stby.toNat = false) := by decide +kernel
theorem wit_PartitionShrinks : let s := labPt 1 1; s.partDenied (reqAt s) = false ∧ (s.partAt (partReq (reqAt s)).id).map (fun q => (q.cores, q.rootCl, q.rootHs)) = some ((partReq (reqAt s)).cores ++ [1], 0x10000, 0x20000) ∧
    (partReq (reqAt s)).cores = [0] ∧ (∀ c ∈ s.core :: s.others, c.slotFree = true ∧ bindV c.slot.stby.toNat = false) ∧ s.pkg.parked = [] ∧ s.pkg.graphs = [] := by decide +kernel
theorem test_partition : (nextIs (exec (.partition 0x40) (labPt 2 4)) (fun t => t.pkg.parts.map (·.id) == [1, 2] && t.mem.le (keyHost 0x1000) 8 == 1) &&
    nextIs (exec (.partition 0x40) (labPt 1 0)) (fun t => t.pkg.parts == []) && nextIs (exec (.partition 0x40) labH0) (fun t => t.pkg.mboxStat == 3)) = true := by decide +kernel
theorem wit_LoadRefused : labH0.jobAt 5 = some labLoadJob ∧ labH0.jobAt 6 = none ∧
    (match labH0.checkLoad labLoadJob (labH0.objectAt 0x2000) labReq with | .error (.report a b c d) => (a, b, c, d) == (1, 0xFFFF, 0, []) | _ => false) = true := by decide +kernel
/-- The load that no step refuses: whether a signature is good is the device's function (notes/assumptions/3.md), so the witness assumes it of one object. -/
theorem wit_LoadAccepted (h : sigOk labObj labLoadJob = true) :
    let s := labH0.hostPut 0x2000 labObj
    (s.objectAt 0x2000 == labObj) = true ∧ (s.loadDo labLoadJob labObj labReq []).isSome = true ∧ s.storeFree labLoadJob labObj = true ∧ (match s.checkLoad labLoadJob labObj labReq with | .ok x => (x.2 == []) | .error _ => false) = true := by
  refine ⟨by decide +kernel, by decide +kernel, by decide +kernel, ?_⟩
  unfold State.checkLoad
  rw [h]
  decide +kernel

/-- A flit with this header word, without and with its CRC. -/
def flitOf (h : Nat) : List Byte := let b := leBytes 8 h ++ List.replicate 240 7; b ++ leBytes 4 (crc32c b) ++ leBytes 4 0
/-- labH0 with link 1 up too; kind 1 to device `d`. -/
def labLk : State := labH0.pkgd fun p => { p with links := p.links.set 1 ⟨true, 0, 0, 0, [⟨0, flitOf 0, .forwarded⟩], 0, []⟩, levels := p.levels.set 0 { p.levels[(0 : Fin 8)] with scrub := 4 } }
def toDev (d kind : Nat) : List Byte := flitOf (d * 2 ^ 28 + kind * 2 ^ 36)
theorem wit_Flits : (∀ d ∈ [0, 7, 9], ∀ kind ∈ [0, 1, 4], GoodFlit labLk.pkg.links[(1 : Fin 24)] (toDev d kind)) ∧ ¬ GoodFlit labLk.pkg.links[(1 : Fin 24)] ((toDev 0 1).set 100 1) ∧
    fld (leNat ((toDev 7 1).take 8)) 28 8 = 7 ∧ fld (leNat ((toDev 7 1).take 8)) 36 4 = 1 ∧ labLk.pkg.fabric.toNat % 256 = 0 ∧ labLk.pkg.port 7 = some 0 ∧ labLk.pkg.port 9 = none := by
  unfold GoodFlit; decide +kernel
theorem wit_LinksErrorsAndPower : labLk.pkg.fatal = false ∧ labLk.pkg.links[(1 : Fin 24)].up = true ∧ labLk.pkg.links[(0 : Fin 24)].up = true ∧ labLk.pkg.links[(0 : Fin 24)].buf.length < 256 ∧
    labLk.pkg.links[(1 : Fin 24)].buf ≠ [] ∧ labLk.pkg.links[(1 : Fin 24)].tries < 8 ∧ labLk.pkg.links[(2 : Fin 24)].up = false ∧ (2 : Fin 24).val < labLk.pkg.form.ports ∧
    (∀ c ∈ labLk.core :: labLk.others, ∀ q : Fin 5, c.eng.q[q] = []) ∧ (labLk.core :: labLk.others).map (·.idx) = [0] ∧ wfld (labLk.pkg.levels[(0 : Fin 8)]).scrub 0 32 = 4 ∧ labLk.core.busy = true ∧
    (labLk.core.fe.unit = .running ∧ labLk.core.fe.aq.head?.map (·.seq) = none) ∧ labLk.hearthUp = true ∧ labLk.pkg.throttled = false ∧ State.reset.pkg.booted = false ∧ State.reset.pkg.bootFailed = false ∧ State.reset.pkg.fatal = false ∧
    ({ State.reset with agenda := [.outOfReset false] } : State).agenda = .outOfReset false :: [] := by decide +kernel
/-- The port carries an access of the running unit, of place 4, which goes out to device 7. -/
def labCarry : State := (flying labLk).pkgd fun p => { p with links := p.links.set 1 ⟨true, 0, 0, 0, [⟨0, flitOf (7 * 2 ^ 28), .access 0 4⟩], 8, []⟩ }
/-- A port whose far end has not answered eight replays. -/
def labDn : State := labLk.pkgd fun p => { p with links := p.links.set 1 ⟨true, 0, 0, 0, [⟨0, flitOf 0, .forwarded⟩], 8, []⟩ }
theorem wit_LinkDown : 8 ≤ labDn.pkg.links[(1 : Fin 24)].tries ∧ labDn.pkg.links[(1 : Fin 24)].up = true ∧ labCarry.core.fe.unit = .running ∧ labCarry.core.awaits 4 = true ∧ 8 ≤ labCarry.pkg.links[(1 : Fin 24)].tries := by decide +kernel
/-- An instruction waits at the head of the A-pipe. -/
def labSe (p : List (Bool × Nat × Word)) : State := labLk.withCore { labLk.core with fe := { labLk.core.fe with aq := [{ labSlot with seq := 11 }] }, replayAt := p }
theorem test_links : (nextIs (exec (.flit 1 (toDev 0 1)) labLk) (fun t => t.pkg.links[(1 : Fin 24)] == ⟨true, 0, 0, 1, [], 0, [List.replicate 240 7]⟩) &&
    nextIs (exec (.flit 1 (toDev 7 1)) labLk) (fun t => t.pkg.links[(0 : Fin 24)].buf.map (·.seq) == [0] && t.pkg.links[(0 : Fin 24)].snd == 1) &&
    nextIs (exec (.linkReplay 1) labLk) (fun t => t.pkg.links[(1 : Fin 24)].tries == 1 && (t.pkg.levels[(7 : Fin 8)]).ce == 1) &&
    nextIs (exec (.linkDown 1) labDn) (fun t => t.pkg.links[(1 : Fin 24)].up == false && (t.pkg.levels[(7 : Fin 8)]).ue == 1) &&
    nextIs (exec (.linkDown 1) labCarry) (fun t => t.core.lsu.ms == [] && t.core.fe.unit == .checked (some 7) 1) &&
    nextIs (exec (.linkTraining 2) labLk) (fun t => t.pkg.links[(2 : Fin 24)].up)) = true := by decide +kernel
theorem wit_SoftError : (labSe []).core.fe.unit = .running ∧ (labSe []).core.fe.aq.head?.map (·.seq) = some 11 ∧ (labSe []).core.replayAt = [] ∧
    (labSe [(false, 11, 0)]).core.replayAt = [(false, 11, (labSe []).core.sys.loopState)] := by decide +kernel
theorem test_errors : (nextIs (exec (.softErrorReplay false) (labSe [(true, 9, 0)])) (fun t => t.core.replayAt == [(false, 11, 0), (true, 9, 0)] && t.core.fe.unit == .running) &&
    nextIs (exec (.softErrorReplay false) (labSe [(false, 11, 0)])) (fun t => t.core.fe.unit == .checked none 1) && nextIs (exec (.scrub 0 0 8 2) labLk) (fun t => t.pkg.poison == [⟨0, 0, 8⟩] && (t.pkg.levels[(0 : Fin 8)]).ue == 1) && nextIs (exec (.scrub 0 0 8 0) labLk) (fun t => t.pkg.poison == []) &&
    nextIs (exec .thermalThrottle labLk) (fun t => t.pkg.throttled) && nextIs (exec .fatalError labLk) (fun t => t.pkg.fatal && t.core.fe.unit == .ended)) = true := by decide +kernel
/-! ### Decoding and the step -/

/-- The well-formed instructions of the round trips, one of each class, and the words without an instruction of O1 and O2: ADD and CMP with a reserved SZ;
ADDI with field b, LI with field a, SHLI by 64, SHLI.W by 32. -/
theorem wit_RoundTrips : (Instr.add .d 3 4 5).wf = true ∧ 0x01 ≤ (Instr.add .d 3 4 5).major ∧ (Instr.add .d 3 4 5).major ≤ 0x17 ∧ (Instr.qcount 0 2 3).wf = true ∧ (Instr.qcount 0 2 3).isX = true ∧
    (Instr.aclr 5 3 ⟨none, none⟩).wf = true ∧ 0x30 ≤ (Instr.aclr 5 3 ⟨none, none⟩).major := by decide +kernel
theorem wit_NoInstr : [0x0400642A00000000, 0x0430C11600000000].map (fun w => (fld w 58 6, fld w 50 8, fld w 32 3)) = [(1, 0, 2), (1, 12, 6)] ∧
    [0x0800A50800000000, 0x0840E10000000000, 0x081C200000000040, 0x081C200100000020].map (fun w => (fld w 58 6, fld w 50 8, fld w 40 5, fld w 35 5, fld w 32 3, fld w 5 27)) =
      [(2, 0, 5, 1, 0, 0), (2, 16, 1, 0, 0, 0), (2, 7, 0, 0, 0, 2), (2, 7, 0, 0, 1, 1)] ∧
    ([0x0400642A00000000, 0x0430C11600000000, 0x0800A50800000000, 0x0840E10000000000, 0x081C200000000040, 0x081C200100000020].all fun w => match decodeWord w with | .ok _ => false | .error _ => true) = true := by decide +kernel
theorem wit_StepsKeepMemories : State.reset.MemsOk ∧ nextIs (step (labH0.withFetchWord 64 0x0400642800000000)) (fun _ => true) = true := by
  refine ⟨⟨by decide +kernel, ?_, ?_⟩, by decide +kernel⟩
  · constructor <;> decide +kernel
  · intro c hc
    obtain ⟨n, rfl⟩ : ∃ n, c = Core.reset n := by simp only [State.reset, State.resetOf, Form.cores, List.mem_map] at hc; grind
    constructor <;> rfl
end Sys2Proof.Tests
end

section
/-! SUPPORT. Tables, numbers and bytes: what the small operations that every layer of the device uses give. -/

namespace Sys2Proof.Machine

/-! ### Sparse tables -/

section
variable {α : Type} (d : α) (l : List (Nat × α)) (k j : Nat)

/-- A part of a table that holds every entry of a place reads as the table there. -/
theorem look_filter {p : Nat × α → Bool} (h : ∀ c ∈ l, c.1 = j → p c = true) : look d (l.filter p) j = look d l j := by
  unfold look
  rw [List.find?_filter, List.find?_congr]
  intro c hc
  by_cases hj : c.1 = j
  · simp [hj, h c hc hj]
  · simp [hj]

theorem look_cons (c : Nat × α) : look d (c :: l) j = if c.1 = j then c.2 else look d l j := by
  unfold look
  by_cases h : c.1 = j <;> simp [h]

theorem look_append_of_not {m : List (Nat × α)} (h : ∀ c ∈ m, c.1 ≠ j) : look d (m ++ l) j = look d l j := by
  unfold look
  rw [List.find?_append, List.find?_eq_none.2 fun c hc => by simpa using h c hc]
  rfl

theorem look_of_not (h : ∀ c ∈ l, c.1 ≠ j) : look d l j = d := by
  unfold look
  rw [List.find?_eq_none.2 fun c hc => by simpa using h c hc]
  rfl

theorem look_append_of_not_right {m : List (Nat × α)} (h : ∀ c ∈ m, c.1 ≠ j) : look d (l ++ m) j = look d l j := by
  have hm : m.find? (fun c => c.1 == j) = none := List.find?_eq_none.2 fun c hc => by simpa using h c hc
  unfold look
  rw [List.find?_append, hm, Option.or_none]

/-- What a place of a sparse table holds after one entry has been written. -/
theorem look_put (x : α) : look d (put l k x) j = if j = k then x else look d l j := by
  unfold put
  by_cases hj : j < k
  · rw [if_neg (by omega), look_append_of_not_right, look_filter]
    · intro c _ h; simpa [h] using hj
    · intro c hc
      rcases List.mem_cons.1 hc with rfl | hc
      · exact fun h : k = j => by omega
      · have := of_decide_eq_true (List.mem_filter.1 hc).2; omega
  · rw [look_append_of_not, look_cons]
    · by_cases hk : j = k
      · rw [if_pos hk.symm, if_pos hk]
      · rw [if_neg (Ne.symm hk), if_neg hk]
        exact look_filter d l j fun c _ h => by simp only [h, decide_eq_true_eq]; omega
    · intro c hc
      have := of_decide_eq_true (List.mem_filter.1 hc).2
      omega

/-- What a place of a sparse table holds after one entry has been taken away. -/
theorem look_del : look d (del l k) j = if j = k then d else look d l j := by
  unfold del
  by_cases hj : j = k
  · rw [if_pos hj, look_of_not]
    intro c hc
    have := (List.mem_filter.1 hc).2
    simpa [hj] using this
  · rw [if_neg hj]
    exact look_filter d l j fun c _ h => by simpa [h] using hj

end

@[simp] theorem Package.counter_setCounter (p : Package) (k j : Nat) (c : Counter) :
    (p.setCounter k c).counter j = if j = k then c else p.counter j := look_put _ _ _ _ _

/-! ### Vectors -/

theorem Vector.ext_fin {α : Type} {n : Nat} {v w : Vector α n} (h : ∀ i : Fin n, v[i] = w[i]) : v = w :=
  Vector.ext fun i hi => h ⟨i, hi⟩

/-- An update of one place, written as an update of every place. -/
theorem vmap_at {α : Type} {n : Nat} (v : Vector α n) (k : Fin n) (f : α → α) :
    vmap (fun i x => if i.val = k.val then f x else x) v = v.set k.val (f v[k]) := by
  apply Vector.ext_fin
  intro i
  rw [vmap_get, Vector.getElem_set_fin]
  by_cases h : i = k
  · subst h; simp
  · rw [if_neg (fun e => h (Fin.ext e)), if_neg h]

theorem Vector.toList_getElem? {α : Type} {n : Nat} (v : Vector α n) (k : Fin n) : v.toList[k.val]? = some v[k] := by
  simp

/-! ### Little-endian bytes -/

@[simp] theorem leBytes_length (n x : Nat) : (leBytes n x).length = n := by
  induction n generalizing x with
  | zero => rfl
  | succ n ih => simp [leBytes, ih]

theorem leBytes_getD (n x i : Nat) (hi : i < n) : (leBytes n x).getD i 0 = BitVec.ofNat 8 (x / 2 ^ (8 * i)) := by
  induction n generalizing x i with
  | zero => omega
  | succ n ih =>
    cases i with
    | zero => simp [leBytes]
    | succ i =>
      rw [leBytes, List.getD_cons_succ, ih _ _ (by omega), Nat.div_div_eq_div_mul, show (256 : Nat) = 2 ^ 8 from rfl, ← pow_add]
      congr 3
      omega

theorem leNat_leBytes (n x : Nat) : leNat (leBytes n x) = x % 2 ^ (8 * n) := by
  induction n generalizing x with
  | zero => simp [leBytes, leNat, Nat.mod_one]
  | succ n ih =>
    rw [leBytes, leNat, ih, BitVec.toNat_ofNat, show 8 * (n + 1) = 8 + 8 * n by ring, pow_add, Nat.mod_mul]
    norm_num

/-! ### Byte memories -/

/-- The bytes of a range are those written there, every other one is as before. -/
theorem Memory.read_write (m : Memory) (a : Nat) (bs : List Byte) (x : Nat) :
    (m.write a bs).read x = if a ≤ x ∧ x < a + bs.length then bs.getD (x - a) 0 else m.read x := by
  by_cases h : a ≤ x ∧ x < a + bs.length
  · obtain ⟨i, rfl⟩ := Nat.exists_eq_add_of_le h.1
    have hi : i < bs.length := by omega
    rw [if_pos h, Memory.read_write_of_mem m a bs i hi, Nat.add_sub_cancel_left, List.getD_eq_getElem _ _ hi]
  · rw [if_neg h, Memory.read_write_of_not]
    omega

end Sys2Proof.Machine
end

section
/-! PROOFS. The state after reset (O60), and RDSR, WRSR and ICINV (O17). -/

namespace Sys2Proof.Machine

/-! ### The state after reset -/

/-- Every core of a package right after a reset is one that a reset leaves. -/
theorem mem_cores_reset {c : Core} (h : c ∈ State.reset.core :: State.reset.others) : ∃ k, c = Core.reset k := by
  rcases List.mem_cons.1 h with rfl | h
  · exact ⟨0, rfl⟩
  · obtain ⟨k, -, rfl⟩ := List.mem_map.1 h
    exact ⟨k + 1, rfl⟩

theorem Mems.ok_reset : Mems.reset.Ok := ⟨rfl, rfl, rfl, rfl, rfl⟩

theorem memsOk_reset : State.reset.MemsOk :=
  ⟨rfl, Mems.ok_reset, fun c hc => by
    obtain ⟨k, rfl⟩ := mem_cores_reset (List.mem_cons_of_mem _ hc)
    exact Mems.ok_reset⟩

/-- The cores of a form stand in rising order of their indices. -/
theorem idx_resetOf (f : Form) : ((State.resetOf f).core :: (State.resetOf f).others).map (·.idx) = List.range f.cores := by
  have hc : f.cores = (f.cores - 1) + 1 := by cases f <;> rfl
  rw [hc, List.range_succ_eq_map]
  simp [State.resetOf, Core.reset, Function.comp_def]

/-- Settles O60: every core is a `Core.reset`, and the registers are read off `Package.reset`. -/
theorem resetState : Obligations.ResetState := by
  unfold Obligations.ResetState
  refine ⟨memsOk_reset, idx_resetOf .module, fun c hc => ?_, ?_⟩
  · obtain ⟨k, rfl⟩ := mem_cores_reset hc
    exact ⟨rfl, rfl, rfl, rfl, rfl, rfl, rfl, rfl, fun _ => ⟨Vector.getElem_replicate _, Vector.getElem_replicate _⟩, fun _ => Vector.getElem_replicate _,
      fun _ => Vector.getElem_replicate _, fun _ => Vector.getElem_replicate _⟩
  · refine ⟨rfl, rfl, rfl, rfl, rfl, rfl, rfl, rfl, by decide, rfl, rfl, rfl, rfl, fun i => ?_, ?_, ?_⟩
    · have h : look 0 State.reset.pkg.routes i.val = 0 := rfl
      simp only [State.readReg, h]
      exact if_neg (by decide)
    all_goals decide

/-! ### The system registers by number (R129) -/

/-- The number of a system register. -/
def SReg.num : SReg → Nat
  | .bankFmt b => b
  | .rmode => 0x100 | .fpFlags => 0x101 | .frame => 0x102 | .timingLate => 0x103 | .timingCtl => 0x104
  | .timingPad n => 0x110 + n.val | .loopState => 0x120 | .mloopStk n => 0x124 + n.val
  | .trapCause => 0x130 | .trapPc => 0x131 | .trapOpc => 0x132 | .trapMpc => 0x133 | .trapUpc => 0x134
  | .trapCpc => 0x135 | .trapFoot n => 0x136 + n.val | .trapQpos => 0x13A | .trapInfo => 0x13B | .trapVec => 0x13C

theorem sregOf_num {n : Nat} {r : SReg} (h : sregOf n = some r) : r.num = n := by
  unfold sregOf at h
  split_ifs at h with h1 h2 h3 h4
  · cases h; rfl
  · simp only [Bool.and_eq_true, decide_eq_true_eq] at h2
    cases h; simp [SReg.num, Fin.ofNat]; omega
  · simp only [Bool.and_eq_true, decide_eq_true_eq] at h3
    cases h; simp [SReg.num, Fin.ofNat]; omega
  · simp only [Bool.and_eq_true, decide_eq_true_eq] at h4
    cases h; simp [SReg.num, Fin.ofNat]; omega
  · split at h <;> cases h <;> rfl

theorem sregOf_bankFmt {n b : Nat} (h : sregOf n = some (.bankFmt b)) : b < 0x100 := by
  unfold sregOf at h
  split_ifs at h with h1 h2 h3 h4
  · cases h; exact h1
  · cases h
  · cases h
  · cases h
  · split at h <;> cases h

/-- A register of R129 has the value that the model holds of it. -/
theorem sysReg_num (y : Sys) {r : SReg} (h : ∀ b, r = .bankFmt b → b < 0x100) : sysReg y r.num = some (y.get r) := by
  cases r with
  | bankFmt b => exact if_pos (h b rfl)
  | timingPad n => fin_cases n <;> rfl
  | mloopStk n => fin_cases n <;> rfl
  | trapFoot n => fin_cases n <;> rfl
  | _ => rfl

theorem sysReg_of_none (y : Sys) {n : Nat} (h : sregOf n = none) : sysReg y n = none := by
  unfold sregOf at h
  split_ifs at h with h1 h2 h3 h4
  simp only [Bool.and_eq_true, decide_eq_true_eq] at h2 h3 h4
  split at h
  case h_16 => simp (disch := omega) only [sysReg, if_neg]
  all_goals cases h

/-- The registers of R129 are those that the model knows, by their numbers. -/
theorem sysReg_eq (y : Sys) (n : Nat) : sysReg y n = (sregOf n).map y.get := by
  cases h : sregOf n with
  | none => exact sysReg_of_none y h
  | some r => rw [← sregOf_num h, sysReg_num y fun b hb => sregOf_bankFmt (hb ▸ h)]; rfl

/-- What a write of x leaves in a register that held `old` (R8). -/
def SReg.after (r : SReg) (old x : Word) : Word :=
  match r with
  | .fpFlags => old &&& ~~~ x
  | .bankFmt _ | .rmode | .loopState | .trapCause | .trapPc | .trapOpc | .trapMpc | .trapUpc | .trapVec => x
  | _ => old

/-- A write of a system register changes that register by its access, and no other. -/
theorem Sys.get_put (y : Sys) (x : Word) (r q : SReg) : (y.put x r).get q = if q = r then r.after (y.get r) x else y.get q := by
  cases r with
  | bankFmt b =>
    cases q with
    | bankFmt c =>
      have hl : look 13 (if x = 13 then del y.bankFmt b else Machine.put y.bankFmt b x) c = if c = b then x else look 13 y.bankFmt c := by
        by_cases hx : x = 13
        · rw [if_pos hx, look_del, hx]
        · rw [if_neg hx, look_put]
      simp only [SReg.bankFmt.injEq]
      exact hl
    | _ => rfl
  | timingPad n | mloopStk n | trapFoot n =>
    split
    · next h => rw [h]; rfl
    · rfl
  | _ => cases q <;> rfl

theorem sysAfter_num {r : SReg} (h : ∀ b, r = .bankFmt b → b < 0x100) (old x : Word) : sysAfter r.num old x = r.after old x := by
  cases r with
  | bankFmt b =>
    have := h b rfl
    have e : (SReg.bankFmt b).num = b := rfl
    rw [e, sysAfter, if_neg (by omega), if_pos (by omega), SReg.after]
  | timingPad n => fin_cases n <;> rfl
  | mloopStk n => fin_cases n <;> rfl
  | trapFoot n => fin_cases n <;> rfl
  | _ => rfl

/-- The RSVD bits of a register are those that R129 and the register's own rule leave out. -/
theorem rsvd_num {r : SReg} (h : ∀ b, r = .bankFmt b → b < 0x100) : r.rsvd = ~~~ sysBits r.num := by
  cases r with
  | bankFmt b =>
    have e : (SReg.bankFmt b).num = b := rfl
    rw [e, sysBits, if_pos (h b rfl)]; rfl
  | timingPad n => fin_cases n <;> rfl
  | mloopStk n => fin_cases n <;> rfl
  | trapFoot n => fin_cases n <;> rfl
  | _ => rfl

theorem handlerOnly_num {r : SReg} (h : ∀ b, r = .bankFmt b → b < 0x100) : r.handlerOnly = true ↔ HandlerReg r.num := by
  unfold HandlerReg
  cases r with
  | bankFmt b => have := h b rfl; simp only [SReg.handlerOnly, SReg.num, Bool.false_eq_true, false_iff]; omega
  | timingPad n => simp only [SReg.handlerOnly, SReg.num, Bool.false_eq_true, false_iff]; omega
  | mloopStk n => simp only [SReg.handlerOnly, SReg.num, Bool.false_eq_true, false_iff]; omega
  | trapFoot n => simp only [SReg.handlerOnly, SReg.num, true_iff]; omega
  | _ => decide

/-- A write is turned away where R9, R49 and R125 turn it away. -/
theorem srBad_iff (s : State) {n : Nat} {r : SReg} (h : sregOf n = some r) (x : Word) : s.srBad r x = true ↔ BadWrite s n x := by
  have hb : ∀ b, r = .bankFmt b → b < 0x100 := fun b hb => sregOf_bankFmt (hb ▸ h)
  have hm : r = .rmode ↔ n = 0x100 := by
    rw [← sregOf_num h]
    cases r with
    | bankFmt b => have := hb b rfl; simp only [SReg.num, reduceCtorEq, false_iff]; omega
    | timingPad n | mloopStk n | trapFoot n => simp only [SReg.num, reduceCtorEq, false_iff]; omega
    | _ => decide
  have hw : wfld x 0 3 = x.toNat % 8 := by simp [wfld, fld]
  unfold State.srBad BadWrite
  rw [rsvd_num hb, ← sregOf_num h, ← handlerOnly_num hb, sregOf_num h, ← hm, hw]
  cases s.core.fe.handler <;> simp [or_comm, or_left_comm]

/-! ### RDSR -/

theorem fly_le_flagMark {s : State} (hm : s.core.fe.mark = none) (h : ∀ r ∈ s.core.regs.fly, r.due ≤ s.core.fe.xnow) :
    s.flagMark ≤ s.core.fe.xnow := by
  have aux : ∀ (l : List Fly) (m : Nat), m ≤ s.core.fe.xnow → (∀ r ∈ l, r.due ≤ s.core.fe.xnow) →
      l.foldl (fun m r => max m r.due) m ≤ s.core.fe.xnow := by
    intro l
    induction l with
    | nil => exact fun m hm _ => hm
    | cons r l ih => exact fun m hm h => ih _ (Nat.max_le.2 ⟨hm, h r (List.mem_cons_self ..)⟩) fun q hq => h q (List.mem_cons_of_mem _ hq)
  unfold State.flagMark
  rw [hm]
  exact aux _ 0 (Nat.zero_le _) h

/-- A read of the loop stack sees it as it stood at the word's own dispatch; every other read sees the register (R119). -/
theorem sysRead_eq (s : State) (r : SReg) :
    s.sysRead r = (if s.core.fe.cur.upc = none then s.core.sys else { s.core.sys with mloopStk := s.core.fe.cur.stk }).get r := by
  unfold State.sysRead
  cases hu : s.core.fe.cur.upc <;> cases r <;> rfl

theorem execRdsr_read {s : State} {d : GReg} {n : BitVec 16} {r : SReg} (h : s.CanIssue [] [d]) (hr : sregOf n.toNat = some r)
    (hf : r = .fpFlags → s.flagMark ≤ s.core.fe.xnow) : ∃ t, execRdsr d n s = .next t ∧ s.WroteG d (s.sysRead r) 1 t ∧
      t.core.fe = { s.core.fe with mark := none, aStall := false, xStall := false, stall := 0, adone := true } := by
  have hc : ¬ ((r == .fpFlags && decide (s.core.fe.xnow < s.flagMark)) = true) := by
    simp only [Bool.and_eq_true, beq_iff_eq, decide_eq_true_eq]
    rintro ⟨h1, h2⟩
    exact absurd (hf h1) (by omega)
  unfold execRdsr
  rw [State.aIssue_of_canIssue h, hr]
  simp only [if_neg hc]
  rw [State.setLate_fe s _ rfl]
  exact ⟨_, rfl, (((s.setLate_wrote d _ 1).fe _).fe _).fe _, by simp [State.progress]⟩

theorem execRdsr_unassigned {s : State} {d : GReg} {n : BitVec 16} (h : s.CanIssue [] [d]) (hr : sregOf n.toNat = none) :
    execRdsr d n s = s.aTrapFree .illegalOperand := by
  unfold execRdsr
  rw [State.aIssue_of_canIssue h, hr]

/-! ### WRSR -/

section
variable {s : State} {a : GReg} {n : BitVec 16} (h : s.CanIssue [a] []) (hx : s.core.fe.xq = []) (hk : s.core.fe.kernel = none)
include h hx hk

theorem execWrsr_unassigned (hr : sregOf n.toNat = none) : execWrsr a n s = s.aTrapFree .illegalOperand := by
  unfold execWrsr
  rw [State.aIssue_of_canIssue h, if_neg (by simp [hx, hk]), hr]

/-- WRSR is serialising: it acts when the X-pipe has issued every earlier instruction (R128). -/
theorem execWrsr_assigned {r : SReg} (hr : sregOf n.toNat = some r) :
    execWrsr a n s = if s.srBad r (s.g a) then s.aTrapFree .illegalOperand
      else if s.fmtBlocked r then .next s.wait
      else done ((s.sys fun y => y.put (s.g a) r).unblock) := by
  unfold execWrsr
  rw [State.aIssue_of_canIssue h, if_neg (by simp [hx, hk]), hr]

end

theorem fmtBlocked_num {s : State} {n : Nat} {r : SReg} (hr : sregOf n = some r)
    (h : n < 0x100 → s.spBlocked (n * 16384) 16384 true s.core.fe.cur.seq = false) : s.fmtBlocked r = false := by
  cases r with
  | bankFmt b =>
    obtain rfl : b = n := sregOf_num hr
    exact h (sregOf_bankFmt hr)
  | _ => rfl

/-- The registers by number after a write of one of them. -/
theorem sysReg_put (y : Sys) {n : Nat} {r : SReg} (hr : sregOf n = some r) (x : Word) (m : Nat) :
    sysReg (y.put x r) m = if m = n then some (sysAfter m (y.get r) x) else sysReg y m := by
  have hb : ∀ b, r = .bankFmt b → b < 0x100 := fun b hb => sregOf_bankFmt (hb ▸ hr)
  rw [sysReg_eq, sysReg_eq]
  by_cases hm : m = n
  · subst hm
    rw [if_pos rfl, hr, Option.map_some, Sys.get_put, if_pos rfl, ← sysAfter_num hb, sregOf_num hr]
  · rw [if_neg hm]
    cases hq : sregOf m with
    | none => rfl
    | some q =>
      have : q ≠ r := fun e => hm (by rw [← sregOf_num hq, ← sregOf_num hr, e])
      rw [Option.map_some, Option.map_some, Sys.get_put, if_neg this]

/-- A write of a system register leaves the device's own registers behind R129 alone. -/
theorem Sys.put_rest (y : Sys) (x : Word) (r : SReg) :
    (y.put x r).sd = y.sd ∧ (y.put x r).creg = y.creg ∧ (y.put x r).atticCache = y.atticCache := by
  cases r <;> exact ⟨rfl, rfl, rfl⟩

theorem sysOnly_written (s : State) (f : Sys → Sys) (g : Front → Front) : SysOnly s ((s.sys f).unblock.progress.fe g) :=
  ⟨rfl, rfl, rfl, rfl, ⟨fun _ => rfl, fun _ => rfl, fun _ => rfl, fun _ => rfl, fun _ => rfl, fun _ => rfl⟩, by constructor <;> rfl⟩

theorem immOf_eq (s : State) (i : BitVec 32) : s.imm i = immOf s i := by
  unfold State.imm immOf
  cases s.core.fe.cur.ximm with
  | none => exact extend_none i (by decide)
  | some v => exact extend_some i v (by decide)

theorem frontOnly_issued (s : State) (f g : Front → Front) : FrontOnly s ((s.fe f).progress.fe g) := by constructor <;> rfl

/-- ICINV takes the line of its address out of the instruction cache (R128). -/
theorem execIcinv_eq {s : State} {a : GReg} (i : BitVec 32) (h : s.CanIssue [a] []) :
    execIcinv a i s = done (s.fe fun f => { f with icache := f.icache.filter fun l => l.1 % 2 ^ 50 != (s.g a + s.imm i).toNat / 64 % 2 ^ 50 }) :=
  State.aIssue_of_canIssue h _

/-- Settles O17: the registers are named by `SReg`, whose numbers, values, RSVD bits and access are those of R129. -/
theorem systemRegisters : Obligations.SystemRegisters := by
  unfold Obligations.SystemRegisters
  intro s d a n i
  dsimp only
  refine ⟨fun v h hv hf => ?_, fun h ht hn => ?_, fun v h hx hk hv hb hs => ?_, fun v h hx hk ht hn => ?_, fun h => ?_⟩
  · rw [sysReg_eq] at hv
    obtain ⟨r, hr, rfl⟩ := Option.map_eq_some_iff.1 hv
    rw [← sysRead_eq]
    refine execRdsr_read h hr fun e => ?_
    obtain ⟨hm, hd⟩ := hf (by rw [← sregOf_num hr, e]; rfl)
    exact fly_le_flagMark hm hd
  · rw [sysReg_eq, Option.map_eq_none_iff] at hn
    obtain ⟨t, h1, h2⟩ := aTrapFree_took ht .illegalOperand
    exact ⟨t, (execRdsr_unassigned h hn).trans h1, h2⟩
  · rw [sysReg_eq] at hv
    obtain ⟨r, hr, rfl⟩ := Option.map_eq_some_iff.1 hv
    have hw := execWrsr_assigned h hx hk hr
    simp only [(srBad_iff s hr (s.g a)).not.2 hb, fmtBlocked_num hr hs, if_false, Bool.false_eq_true] at hw
    exact ⟨_, hw, sysOnly_written s _ _, fun m => sysReg_put s.core.sys hr _ m, (Sys.put_rest _ _ r).1, (Sys.put_rest _ _ r).2.1,
      (Sys.put_rest _ _ r).2.2, rfl⟩
  · have hw : execWrsr a n s = s.aTrapFree .illegalOperand := by
      rcases hn with hn | ⟨hv, hb⟩
      · rw [sysReg_eq, Option.map_eq_none_iff] at hn
        exact execWrsr_unassigned h hx hk hn
      · rw [sysReg_eq] at hv
        obtain ⟨r, hr, -⟩ := Option.map_eq_some_iff.1 hv
        rw [execWrsr_assigned h hx hk hr, if_pos ((srBad_iff s hr (s.g a)).2 hb)]
    obtain ⟨t, h1, h2⟩ := aTrapFree_took ht .illegalOperand
    exact ⟨t, hw.trans h1, h2⟩
  · refine ⟨_, execIcinv_eq i h, frontOnly_issued s _ _, rfl, rfl, rfl, rfl, fun l => ?_⟩
    rw [← immOf_eq]
    simp only [State.fe_core_fe, State.progress_eq, List.mem_filter, bne_iff_ne]

end Sys2Proof.Machine
end

section
/-! PROOFS. The job ring: its doorbell and its entries (O43). -/

namespace Sys2Proof.Machine

/-- An operation of the device whose condition holds happens. -/
theorem answers_event {i : Instr} {s t : State} {P : State → Prop} {name : String} {o : Option State} (hi : exec i s = event name o)
    (ho : o = some t) (hp : P t) : Answers i s P :=
  ⟨t, by rw [hi, ho]; rfl, hp⟩

/-! ### Passing an entry (R352) -/

/-- An entry is passed in a state that has the ring, the memory and the cores of s. -/
theorem ringDone_ringDone {s u : State} (hr : u.pkg.ring = s.pkg.ring) (hm : u.mem = s.mem) (hc : u.core = s.core) (ho : u.others = s.others)
    (status ctr : Nat) : RingDone s status ctr (u.ringDone status ctr) := by
  refine ⟨?_, fun a => ?_, hc, ho⟩
  · show { u.pkg.ring with head := u.pkg.ring.head + 1 } = _
    rw [hr]
  · show Memory.read (u.mem.write (keyHost ((u.pkg.ring.entry + 56) % 2 ^ 52)) (leBytes 8 _)) a = _
    rw [Memory.read_write, leBytes_length, hr, hm]
    by_cases h : keyHost ((s.pkg.ring.entry + 56) % 2 ^ 52) ≤ a ∧ a < keyHost ((s.pkg.ring.entry + 56) % 2 ^ 52) + 8
    · rw [if_pos h, if_pos h, leBytes_getD _ _ _ (by omega)]
    · rw [if_neg h, if_neg h]

theorem ringDone_self (s : State) (status ctr : Nat) : RingDone s status ctr (s.ringDone status ctr) := ringDone_ringDone rfl rfl rfl rfl _ _

/-- A refusal passes the entry and does nothing else. -/
theorem ringRefused_ringDone (s : State) (status : Nat) : RingRefused s status (s.ringDone status 0) := ⟨ringDone_self s status 0, rfl⟩

theorem ringReady_of {s : State} (hb : s.pkg.booted = true) (hf : s.pkg.fatal = false) (hr : s.pkg.ring.head.toNat < s.pkg.ring.tail.toNat) :
    s.ringReady = true := by
  simp [State.ringReady, State.hearthUp, hb, hf, hr]

/-! ### JOB (R353) -/

theorem bitAt_zero (w : Nat) : bitAt w 0 = w.testBit 0 := by
  simp [bitAt, fld, Nat.testBit_zero]
  rfl

/-- The device table of a descriptor (R353). -/
theorem devTable_eq (d : List Byte) : devTable d = (List.range (leNat ((d.drop 152).take 8) % 512)).map fun i =>
    (leNat ((d.drop (1024 + 8 * i)).take 8) / 2 ^ 32 % 256, leNat ((d.drop (1024 + 8 * i)).take 8) / 2 ^ 52 % 16) := by
  have : devCount d = leNat ((d.drop 152).take 8) % 512 := by simp [devCount, fld, dle]
  rw [devTable, this]
  rfl

/-- The descriptor's pads are low where a Strict job's pad is below its class's floor (R38). -/
theorem padsLow_iff (d : List Byte) : padsLow d = true ↔ (leNat (d.take 8)).testBit 0 = true ∧
    ∃ i ∈ List.range 11, leNat ((d.drop (8 + 8 * i)).take 8) < [12, 164, 644, 1244, 1400, 4000, 6000, 1, 1, 1, 1].getD i 0 := by
  have hb : bitAt (dle d 0 8) 0 = (leNat (d.take 8)).testBit 0 := bitAt_zero _
  unfold padsLow
  rw [Bool.and_eq_true, hb, List.any_eq_true]
  simp only [decide_eq_true_eq]
  rfl

/-- An entry whose OP names nothing. -/
theorem readJob_badOp {s : State} (hr : s.ringReady = true) (h : s.ringOp = 0 ∨ 5 ≤ s.ringOp) : s.readJob = some (s.ringDone 1 0) := by
  unfold State.readJob
  rw [if_neg (by simp [hr]; omega), if_pos (by simp; omega)]
  rfl

/-- What a JOB entry that the Hearth reads ends with. -/
theorem readJob_job {s : State} (hr : s.ringReady = true) (h : s.ringOp = 1) :
    s.readJob = if (s.ringRsvd || s.ringWord 3 != dle (s.hostBytes (s.ringWord 2) 4096) 160 8 ||
        s.descBad (s.hostBytes (s.ringWord 2) 4096) (fld (s.ringWord 0) 52 4)) = true then some (s.ringDone 4 0)
      else if padsLow (s.hostBytes (s.ringWord 2) 4096) = true then some (s.ringDone 3 0)
      else if (!s.entryRoom 1) = true then none
      else (s.freeEntry).map fun k =>
        ({ s with pkg := { s.pkg.allocAt k 1 5 0 none k with
            jobs := s.pkg.jobs ++ [jobOf k (fld (s.ringWord 0) 52 4) (fld (s.ringWord 0) 49 3) (s.hostBytes (s.ringWord 2) 4096)] } } : State).ringDone 0 k := by
  unfold State.readJob
  rw [if_neg (by simp [hr, h]), if_neg (by simp [h])]
  rfl

/-- The job that a JOB entry makes takes its counter entry, and every other entry stays (R26, R353). -/
theorem tookEntry_job (s : State) (k : Nat) (t : State) (ht : t.pkg.counters = (s.pkg.allocAt k 1 5 0 none k).counters) :
    TookEntry s k 1 5 0 none k t ∧ ∀ i, i ≠ k → t.pkg.counter i = s.pkg.counter i := by
  have hc (i : Nat) : t.pkg.counter i = if i = k then ⟨true, ((s.pkg.counter k).gen + 1) % 4096, 1, 5, 0, 0, none, k, 0⟩ else s.pkg.counter i := by
    rw [Package.counter, ht]
    exact look_put _ _ _ _ _
  exact ⟨(hc k).trans (if_pos rfl), fun i hi => (hc i).trans (if_neg hi)⟩

/-! ### PHASE_END and JOB_END (R352) -/

theorem closePhase_eq (p : Package) (j : Nat) :
    p.closePhase j = { p with phases := p.phases.map fun f => if f.job = j then { f with closed := true } else f } := by
  simp [Package.closePhase]

theorem readPhaseEnd_refused {s : State} (hr : s.ringReady = true) (h : s.ringOp = 3) (hj : s.ringJob = none ∨ s.ringRsvd = true) :
    s.readPhaseEnd = some (s.ringDone 4 0) := by
  unfold State.readPhaseEnd
  rw [if_neg (by simp [hr, h])]
  rcases hj with hj | hj
  · rw [hj]; rfl
  · cases s.ringJob with
    | none => rfl
    | some j => exact if_pos hj

theorem readPhaseEnd_ok {s : State} {j : Job} (hr : s.ringReady = true) (h : s.ringOp = 3) (hj : s.ringJob = some j) (hv : s.ringRsvd = false) :
    s.readPhaseEnd =
      some ((s.pkgd fun p => { p with phases := p.phases.map fun f => if f.job = j.ctr then { f with closed := true } else f }).ringDone 0 0) := by
  unfold State.readPhaseEnd
  rw [if_neg (by simp [hr, h]), hj]
  simp only [hv, closePhase_eq]
  rfl

/-- The package after JOB_END: the job takes no more entries, and ends when no phase is left. -/
def Package.endJobEntries (p : Package) (j : Nat) : Package :=
  Package.jobDone { p.closePhase j with jobs := p.jobs.map fun x => if x.ctr == j then { x with closed := true } else x } j

theorem readJobEnd_refused {s : State} (hr : s.ringReady = true) (h : s.ringOp = 4) (hj : s.ringJob = none ∨ s.ringRsvd = true) :
    s.readJobEnd = some (s.ringDone 4 0) := by
  unfold State.readJobEnd
  rw [if_neg (by simp [hr, h])]
  rcases hj with hj | hj
  · rw [hj]; rfl
  · cases s.ringJob with
    | none => rfl
    | some j => exact if_pos hj

theorem readJobEnd_ok {s : State} {j : Job} (hr : s.ringReady = true) (h : s.ringOp = 4) (hj : s.ringJob = some j) (hv : s.ringRsvd = false) :
    s.readJobEnd = some ((s.pkgd fun p => p.endJobEntries j.ctr).ringDone 0 0) := by
  unfold State.readJobEnd
  rw [if_neg (by simp [hr, h]), hj]
  exact if_neg (by simp [hv])

/-- The job of an entry runs, and is the first of its counter in the table. -/
theorem ringJob_some {s : State} {j : Job} (h : s.ringJob = some j) : (s.pkg.counter j.ctr).live = true ∧ (s.pkg.counter j.ctr).level = 5 ∧
    (s.pkg.counter j.ctr).state = 1 ∧ (s.pkg.jobs.find? fun x => x.ctr == j.ctr) = some j := by
  unfold State.ringJob at h
  dsimp only at h
  split at h
  · next hc =>
    obtain ⟨hf, -⟩ := Option.filter_eq_some_iff.1 h
    have hk : j.ctr = fld (s.ringWord 1) 52 12 := by simpa using List.find?_some hf
    simp only [Bool.and_eq_true, beq_iff_eq] at hc
    rw [hk]
    exact ⟨hc.1.1, hc.1.2, hc.2, hf⟩
  · cases h

/-- A job with a phase left goes on (R27). -/
theorem jobDone_of_phase {p : Package} {j : Nat} (h : ∃ f ∈ p.phases, f.job = j) : p.jobDone j = p := by
  obtain ⟨f, hf, rfl⟩ := h
  have : (p.phases.any fun g => g.job == f.job) = true := List.any_eq_true.2 ⟨f, hf, by simp⟩
  unfold Package.jobDone
  simp [this]

/-- A closed job that runs and has no phase left takes its final state (R27). -/
theorem jobDone_last {p : Package} {j : Nat} {x : Job} (hl : (p.counter j).live = true) (hv : (p.counter j).level = 5) (hs : (p.counter j).state = 1)
    (hx : (p.jobs.find? fun x => x.ctr == j) = some x) (hc : x.closed = true) (hp : ¬ ∃ f ∈ p.phases, f.job = j)
    (hn : ∀ y ∈ p.jobs, y.ctr = j → y.service = false) :
    p.jobDone j = p.setCounter j { p.counter j with state := if (p.counter j).failed = 0 then 2 else 5, outstanding := 0 } := by
  have h1 : (p.phases.any fun f => f.job == j) = false := by
    rw [List.any_eq_false]
    exact fun f hf => by simpa using fun e => hp ⟨f, hf, e⟩
  have h2 : (p.jobs.any fun x => x.ctr == j && x.service) = false := by
    rw [List.any_eq_false]
    intro y hy
    by_cases e : y.ctr = j
    · simp [hn y hy e]
    · simp [e]
  unfold Package.jobDone Package.endJob
  simp [hl, hv, hs, hx, hc, h1, h2, stFinal, stComplete, stCancelled, stFaulted]

theorem endJobEntries_ring (p : Package) (j : Nat) : (p.endJobEntries j).ring = p.ring := by
  unfold Package.endJobEntries Package.jobDone Package.endJob
  dsimp only
  split
  · split <;> rfl
  · rfl

/-- JOB_END closes the job's entry in the table and its phase, and takes its counter to a final state where no phase is left. -/
theorem endJobEntries_spec {p : Package} {j : Job} (hl : (p.counter j.ctr).live = true) (hv : (p.counter j.ctr).level = 5) (hs : (p.counter j.ctr).state = 1)
    (hx : (p.jobs.find? fun x => x.ctr == j.ctr) = some j) (hn : ∀ y ∈ p.jobs, y.ctr = j.ctr → y.service = false) :
    let q := p.endJobEntries j.ctr
    q.phases = p.phases.map (fun f => if f.job = j.ctr then { f with closed := true } else f) ∧
    q.jobs = p.jobs.map (fun x => if x.ctr = j.ctr then { x with closed := true } else x) ∧
    (∀ i, i ≠ j.ctr → q.counter i = p.counter i) ∧
    q.counter j.ctr = if (∃ f ∈ p.phases, f.job = j.ctr) then p.counter j.ctr
      else { p.counter j.ctr with state := if (p.counter j.ctr).failed = 0 then 2 else 5, outstanding := 0 } := by
  intro q
  -- the table before the job's end is looked at
  let u : Package := { p.closePhase j.ctr with jobs := p.jobs.map fun x => if x.ctr == j.ctr then { x with closed := true } else x }
  have hq : q = u.jobDone j.ctr := rfl
  have hph : u.phases = p.phases.map (fun f => if f.job = j.ctr then { f with closed := true } else f) := by
    simp [u, Package.closePhase]
  have hjb : u.jobs = p.jobs.map (fun x => if x.ctr = j.ctr then { x with closed := true } else x) := by simp [u]
  have hct : u.counter = p.counter := rfl
  have hopen : (∃ f ∈ u.phases, f.job = j.ctr) ↔ ∃ f ∈ p.phases, f.job = j.ctr := by
    rw [hph]
    simp only [List.mem_map, exists_exists_and_eq_and]
    exact exists_congr fun f => and_congr_right fun _ => by split <;> rfl
  by_cases hf : ∃ f ∈ p.phases, f.job = j.ctr
  · rw [hq, jobDone_of_phase (hopen.2 hf), if_pos hf]
    exact ⟨hph, hjb, fun i _ => rfl, rfl⟩
  · have hfind : (u.jobs.find? fun x => x.ctr == j.ctr) = some { j with closed := true } := by
      rw [hjb, List.find?_map]
      have : ((fun x : Job => x.ctr == j.ctr) ∘ fun x => if x.ctr = j.ctr then { x with closed := true } else x) = fun x => x.ctr == j.ctr := by
        funext x
        simp only [Function.comp_apply]
        split <;> rfl
      rw [this, hx]
      simp
    have hser : ∀ y ∈ u.jobs, y.ctr = j.ctr → y.service = false := by
      rw [hjb]
      simp only [List.mem_map, forall_exists_index, and_imp, forall_apply_eq_imp_iff₂]
      intro y hy
      split
      · exact hn y hy
      · exact hn y hy
    rw [hq, jobDone_last (p := u) hl hv hs hfind rfl (hopen.not.2 hf) hser, if_neg hf]
    refine ⟨hph, hjb, fun i hi => ?_, ?_⟩
    · rw [Package.counter_setCounter, if_neg hi]; rfl
    · rw [Package.counter_setCounter, if_pos rfl]; rfl

/-- Settles O43: each entry by the equation of what the Hearth reads. -/
theorem jobRingEntries : Obligations.JobRingEntries := by
  unfold Obligations.JobRingEntries
  intro s tail k j
  dsimp only
  refine ⟨fun hf => ?_, fun hb hf hht => ?_⟩
  · refine answers_event (i := .jobringTail tail) rfl (if_neg (by simp [hf])) ?_
    unfold State.ringTail
    rfl
  have hr := ringReady_of hb hf hht
  refine ⟨fun h => answers_event rfl (readJob_badOp hr h) (ringRefused_ringDone s 1), ⟨fun h hbad => ?_, fun h hbad hlow => ?_, fun h hbad hlow hroom hk => ?_⟩,
    fun h hj => answers_event rfl (readPhaseEnd_refused hr h hj) (ringRefused_ringDone s 4), fun h hj hv => ?_,
    fun h hj => answers_event rfl (readJobEnd_refused hr h hj) (ringRefused_ringDone s 4), fun h hj hv hn => ?_⟩
  · refine answers_event rfl ((readJob_job hr h).trans (if_pos ?_)) (ringRefused_ringDone s 4)
    simpa [dle, or_assoc] using hbad
  · refine answers_event rfl ((readJob_job hr h).trans ((if_neg ?_).trans (if_pos ((padsLow_iff _).2 hlow)))) (ringRefused_ringDone s 3)
    simpa [dle, or_assoc] using hbad
  · refine answers_event rfl ((readJob_job hr h).trans ((if_neg ?_).trans ((if_neg ((padsLow_iff _).not.2 hlow)).trans ((if_neg (by simp [hroom])).trans
      (by rw [hk]; rfl))))) ?_
    · simpa [dle, or_assoc] using hbad
    · refine ⟨ringDone_ringDone rfl rfl rfl rfl _ _, (tookEntry_job s k _ rfl).1, (tookEntry_job s k _ rfl).2, _, rfl, rfl, rfl, rfl, rfl, rfl, ?_,
        rfl, rfl, rfl, rfl, rfl, ?_⟩
      · exact bitAt_zero _
      · exact devTable_eq _
  · refine answers_event rfl (readPhaseEnd_ok hr h hj hv) ?_
    exact ⟨ringDone_ringDone rfl rfl rfl rfl _ _, rfl⟩
  · obtain ⟨hl, hv', hs, hx⟩ := ringJob_some hj
    obtain ⟨h1, h2, h3, h4⟩ := endJobEntries_spec hl hv' hs hx hn
    refine answers_event rfl (readJobEnd_ok hr h hj hv) ?_
    exact ⟨ringDone_ringDone (u := s.pkgd fun p => p.endJobEntries j.ctr) (endJobEntries_ring s.pkg j.ctr) rfl rfl rfl _ _, h1, h2, h3, h4⟩

end Sys2Proof.Machine
end

section
/-! SUPPORT. What the black box, the error logs, the links and an act on another core change, said once. -/

namespace Sys2Proof.Machine

/-! ### The black box (R362) -/

/-- An event of the black box changes the box and the count of free values only. -/
structure State.BbOf (s t : State) : Prop where
  core : t.core = s.core
  others : t.others = s.others
  mem : t.mem = s.mem
  agenda : t.agenda = s.agenda
  pkg : t.pkg = { s.pkg with bbox := t.pkg.bbox }

theorem bbOf_bb (s : State) (k : BbKind) : s.BbOf (s.bb k) := by
  unfold State.bb
  dsimp only
  split
  all_goals exact ⟨rfl, rfl, rfl, rfl, rfl⟩

/-! ### Error logs (R361) -/

/-- The log of a level takes an entry. -/
def Package.logged (p : Package) (level : Fin 8) (kind entry : Nat) : Package :=
  { p with levels := p.levels.set level.val (p.levels[level].add kind entry) }

/-- An error is logged at its level: the log takes the entry, with a free value as its time, and levels 5 and 7 enter the black box. -/
theorem elog_eq (s : State) (level : Fin 8) (kind src core addr : Nat) :
    let u : State := { s with pkg := s.pkg.logged level kind (elogEntry kind src core addr (Config.freeWord s.free).toNat), free := s.free + 1 }
    s.elog level.val kind src core addr = if level.val = 5 || level.val = 7 then u.bb (.log level.val kind) else u := by
  unfold State.elog State.fresh State.pkgd Package.logged
  simp only [vmap_at]

/-- The log that an error enters has its entry; beside it only the black box and the count of free values change. -/
theorem elog_pkg (s : State) (level : Fin 8) (kind src core addr : Nat) :
    (s.elog level.val kind src core addr).pkg =
      { s.pkg.logged level kind (elogEntry kind src core addr (Config.freeWord s.free).toNat) with
        bbox := (s.elog level.val kind src core addr).pkg.bbox } := by
  rw [elog_eq]
  dsimp only
  split
  · exact (bbOf_bb _ _).pkg
  · rfl

theorem elog_stays (s : State) (level kind src core addr : Nat) : CoresStay s (s.elog level kind src core addr) ∧
    (s.elog level kind src core addr).mem = s.mem := by
  unfold State.elog State.fresh
  dsimp only
  split
  · exact ⟨⟨(bbOf_bb _ _).core, (bbOf_bb _ _).others⟩, (bbOf_bb _ _).mem⟩
  · exact ⟨⟨rfl, rfl⟩, rfl⟩

/-- The entry of a log is its fields (R361), its time a free value. -/
theorem loggedAt_elog {s u : State} (hu : u.pkg.levels = s.pkg.levels) (level : Fin 8) {kind src : Nat} (core addr : Nat) (hk : kind < 16) (hs : src < 16) :
    LoggedAt s level kind src core addr (u.elog level.val kind src core addr) := by
  have h := congrArg Package.levels (elog_pkg u level kind src core addr)
  simp only [Package.logged] at h
  refine ⟨fun i hi => ?_, (Config.freeWord u.free).toNat % 2 ^ 48, Nat.mod_lt _ (by decide), ?_⟩
  · rw [h, Vector.getElem_set_fin, if_neg hi, hu]
  · rw [h, Vector.getElem_set_fin, if_pos rfl, hu, Level.add, elogEntry, Nat.mod_eq_of_lt hk, Nat.mod_eq_of_lt hs]
    simp only [Bool.or_eq_true, decide_eq_true_eq]
    rfl

/-! ### Links (R358) -/

theorem link_eq (p : Package) (k : Fin 24) : p.link k.val = some p.links[k] := Vector.toList_getElem? p.links k

theorem setLink_eq (s : State) (k : Fin 24) (l : Link) : s.setLink k.val l = s.pkgd fun p => { p with links := p.links.set k.val l } := by
  unfold State.setLink
  simp only [vmap_at]

@[simp] theorem setLink_links (s : State) (k : Fin 24) (l : Link) (i : Fin 24) :
    (s.setLink k.val l).pkg.links[i] = if i = k then l else s.pkg.links[i] := by
  rw [setLink_eq]
  exact Vector.getElem_set_fin _ _ _ _

/-- A flit that a port takes, by the model's checks (R358). -/
theorem goodFlit_iff (l : Link) (b : List Byte) : GoodFlit l b ↔ flitOk b = true ∧ flitSeq b = l.rcv := by
  unfold GoodFlit flitOk
  simp only [Bool.and_eq_true, decide_eq_true_eq, beq_iff_eq, and_assoc]
  rfl

/-- The port after it has taken a good flit. -/
def Link.taken (l : Link) (b : List Byte) : Link := { l.ack (flitAck b) with rcv := (l.rcv + 1) % 4096 }

theorem acked_taken (l : Link) (b : List Byte) : Acked l b (l.taken b) := by
  have hc : (fun x : Flit => !ackCovers (flitAck b) x.seq) = fun x => !decide ((fld (leNat (b.take 8)) 40 12 + 4096 - x.seq) % 4096 < 2048) := rfl
  unfold Acked Link.taken Link.ack
  simp only [hc, Bool.or_eq_true, decide_eq_true_eq, List.isEmpty_iff]

/-- A flit that leaves has the port's next SEQ in its header, and is else as it was (R358). -/
theorem send_spec (l : Link) (b : List Byte) (use : FlitFor) : ∃ x,
    l.send b use = { l with buf := l.buf ++ [⟨l.snd, x, use⟩], snd := (l.snd + 1) % 4096 } ∧ x.drop 8 = b.drop 8 ∧
      fld (leNat (x.take 8)) 52 12 = l.snd % 4096 ∧ leNat (x.take 8) % 2 ^ 52 = leNat (b.take 8) % 2 ^ 52 := by
  let head := leNat (b.take 8) % 2 ^ 52 + l.snd % 4096 * 2 ^ 52
  have hlen : (leBytes 8 head).length = 8 := leBytes_length 8 head
  have htake : leNat ((leBytes 8 head ++ b.drop 8).take 8) = head := by
    rw [List.take_append_of_le_length (by omega), List.take_of_length_le (by omega), leNat_leBytes, Nat.mod_eq_of_lt]
    show leNat (b.take 8) % 2 ^ 52 + l.snd % 4096 * 2 ^ 52 < 2 ^ 64
    omega
  refine ⟨leBytes 8 head ++ b.drop 8, rfl, ?_, ?_, ?_⟩
  · rw [List.drop_append_of_le_length (by omega), List.drop_of_length_le (by omega), List.nil_append]
  · rw [htake]; show (leNat (b.take 8) % 2 ^ 52 + l.snd % 4096 * 2 ^ 52) / 2 ^ 52 % 2 ^ 12 = _; omega
  · rw [htake]; show (leNat (b.take 8) % 2 ^ 52 + l.snd % 4096 * 2 ^ 52) % 2 ^ 52 = _; omega

/-! ### An act on another core -/

/-- What leaves a unit stopped leaves everything else but the black box: the core's other parts, the other cores, and memory. -/
structure State.StopOf (s t : State) : Prop where
  core : t.core = { s.core with fe := { s.core.fe with unit := t.core.fe.unit } }
  mem : t.mem = s.mem
  pkg : t.pkg = { s.pkg with bbox := t.pkg.bbox }

theorem State.StopOf.refl (s : State) : s.StopOf s := ⟨rfl, rfl, rfl⟩

theorem State.StopOf.trans {a b c : State} (h : a.StopOf b) (k : b.StopOf c) : a.StopOf c :=
  ⟨by rw [k.core, h.core], k.mem.trans h.mem, by rw [k.pkg, h.pkg]⟩

theorem State.BbOf.stopOf {s t : State} (h : s.BbOf t) : s.StopOf t := ⟨by rw [h.core], h.mem, h.pkg⟩

/-- The unit of a machine check stops, unless nothing of it runs any more (R127, R228). -/
theorem machineStop_unit (s : State) (fab : Option Nat) (pipe : Nat) :
    (s.machineStop fab pipe).core.fe.unit = if s.core.fe.stopped then s.core.fe.unit else .checked fab pipe := by
  have h := ((bbOf_bb s (.trap .machineCheck)).core).trans rfl
  have h' : ((s.bb (.trap .machineCheck)).bb .machineCheck).core = s.core := (bbOf_bb _ _).core.trans h
  unfold State.machineStop
  dsimp only
  rw [h']
  split
  · rw [h']
  · rfl

theorem stopOf_machineStop (s : State) (fab : Option Nat) (pipe : Nat) : s.StopOf (s.machineStop fab pipe) := by
  refine (bbOf_bb s (.trap .machineCheck)).stopOf.trans ((bbOf_bb _ .machineCheck).stopOf.trans ?_)
  unfold State.machineStop
  dsimp only
  split
  · exact .refl _
  · exact ⟨rfl, rfl, rfl⟩

theorem machineStop_others (s : State) (fab : Option Nat) (pipe : Nat) : (s.machineStop fab pipe).others = s.others := (logOf_machineStop s fab pipe).others

/-- A core that takes its place among the others is found there by its index. -/
theorem find_insertCore (c : Core) (l : List Core) : (insertCore c l).find? (fun d => d.idx == c.idx) = some c := by
  have h : (l.filter (·.idx < c.idx)).find? (fun d => d.idx == c.idx) = none :=
    List.find?_eq_none.2 fun d hd => by have := of_decide_eq_true (List.mem_filter.1 hd).2; simp; omega
  rw [insertCore, List.find?_append, h]
  simp

/-- An act on the core that moves is the act itself. -/
theorem onCore_self {s : State} {f : State → State} (hf : (f s).core.idx = s.core.idx) : s.onCore s.core.idx f = f s := by
  simp [State.onCore, State.toCore, hf]

/-- An act on another core, which leaves its index and the other cores as they are, brings the core that moved back as it was. -/
theorem onCore_other {s : State} {f : State → State} {k : Nat} (hk : k ≠ s.core.idx) (hi : ∀ t : State, (f t).core.idx = t.core.idx)
    (ho : ∀ t : State, (f t).others = t.others) : (s.onCore k f).core = s.core := by
  unfold State.onCore
  cases h : s.toCore k with
  | none => rfl
  | some t =>
    unfold State.toCore at h
    rw [if_neg hk, Option.map_eq_some_iff] at h
    obtain ⟨c, hc, rfl⟩ := h
    have hck : c.idx = k := by simpa using List.find?_some hc
    have hne : s.core.idx ≠ (f { s with core := c, others := insertCore s.core (s.others.filter fun d => d.idx != k) }).core.idx := by
      rw [hi]; exact fun e => hk (hck ▸ e.symm)
    simp only [State.toCore, if_neg hne, ho, find_insertCore, Option.map_some, Option.getD_some]

/-- What an act on a core leaves of memory and of the package it leaves wherever the core stands. -/
theorem onCore_pkg {s : State} {f : State → State} (k : Nat) (h : ∀ t : State, t.StopOf (f t)) :
    (s.onCore k f).mem = s.mem ∧ (s.onCore k f).pkg = { s.pkg with bbox := (s.onCore k f).pkg.bbox } := by
  have hto : ∀ {u v : State} {j : Nat}, u.toCore j = some v → v.mem = u.mem ∧ v.pkg = u.pkg := by
    intro u v j hv
    unfold State.toCore at hv
    split at hv
    · cases hv; exact ⟨rfl, rfl⟩
    · obtain ⟨c, -, rfl⟩ := Option.map_eq_some_iff.1 hv
      exact ⟨rfl, rfl⟩
  unfold State.onCore
  cases hs : s.toCore k with
  | none => exact ⟨rfl, rfl⟩
  | some t =>
    obtain ⟨h1, h2⟩ := hto hs
    dsimp only
    cases hb : (f t).toCore s.core.idx with
    | none => exact ⟨rfl, rfl⟩
    | some v =>
      obtain ⟨h3, h4⟩ := hto hb
      exact ⟨(h3.trans (h t).mem).trans h1, by rw [Option.getD_some, h4, (h t).pkg, h2]⟩

/-- An act that only stops a unit, on one core, leaves the core that moves but for its unit. -/
theorem stopOf_onCore {s : State} {f : State → State} (k : Nat) (h : ∀ t : State, t.StopOf (f t)) (ho : ∀ t : State, (f t).others = t.others) :
    s.StopOf (s.onCore k f) := by
  have hi (t : State) : (f t).core.idx = t.core.idx := by rw [(h t).core]
  refine ⟨?_, (onCore_pkg k h).1, (onCore_pkg k h).2⟩
  by_cases hk : k = s.core.idx
  · subst hk
    rw [onCore_self (hi s)]
    exact (h s).core
  · rw [onCore_other hk hi ho]

end Sys2Proof.Machine
end

section
/-! PROOFS. The links, scrubbing, detected errors, power, boot and reset (O54). -/

namespace Sys2Proof.Machine

/-! ### A flit arrives (R358) -/

theorem port_links (p : Package) (v : Vector Link 24) (d : Nat) : ({ p with links := v } : Package).port d = p.port d := rfl

theorem setLink_port (s : State) (k : Nat) (l : Link) (d : Nat) : (s.setLink k l).pkg.port d = s.pkg.port d := port_links _ _ d

section
variable {s : State} {k : Fin 24} {b : List Byte} (hf : s.pkg.fatal = false) (hu : s.pkg.links[k].up = true)
include hf hu

theorem flit_bad (h : ¬ GoodFlit s.pkg.links[k] b) : s.flit k.val b = some s := by
  rw [goodFlit_iff] at h
  unfold State.flit
  rw [link_eq]
  simp only [hf, hu]
  rw [if_neg (by simp), if_pos]
  rw [Classical.not_and_iff_not_or_not] at h
  simpa using h

variable (h : GoodFlit s.pkg.links[k] b)
include h

/-- A good flit of no payload ends at the port (R358). -/
theorem flit_ends (hk : flitKind b = 0 ∨ flitKind b = 4) : s.flit k.val b = some (s.setLink k.val (s.pkg.links[k].taken b)) := by
  obtain ⟨h1, h2⟩ := (goodFlit_iff _ _).1 h
  unfold State.flit
  rw [link_eq]
  dsimp only
  rw [if_neg (by rw [hf, hu]; decide), if_neg (by simp [h1, h2]), if_pos (by simpa using hk)]
  rfl

variable (hk : ¬ (flitKind b = 0 ∨ flitKind b = 4))
include hk

/-- One for this device is delivered (R355). -/
theorem flit_delivered (hd : flitDest b = s.pkg.fabric.toNat % 256) :
    s.flit k.val b = some (s.setLink k.val { s.pkg.links[k].taken b with inbox := s.pkg.links[k].inbox ++ [(b.drop 8).take 240] }) := by
  obtain ⟨h1, h2⟩ := (goodFlit_iff _ _).1 h
  unfold State.flit
  rw [link_eq]
  dsimp only
  rw [if_neg (by rw [hf, hu]; decide), if_neg (by simp [h1, h2]), if_neg (by simpa using hk), if_pos hd]
  rfl

variable (hd : flitDest b ≠ s.pkg.fabric.toNat % 256)
include hd

/-- One for another device without a route fails (R355). -/
theorem flit_unrouted (hp : s.pkg.port (flitDest b) = none) : s.flit k.val b = some (s.setLink k.val (s.pkg.links[k].taken b)) := by
  obtain ⟨h1, h2⟩ := (goodFlit_iff _ _).1 h
  unfold State.flit
  rw [link_eq]
  dsimp only
  rw [if_neg (by rw [hf, hu]; decide), if_neg (by simp [h1, h2]), if_neg (by simpa using hk), if_neg hd, setLink_port, hp]
  rfl

/-- One for another device leaves on the port of its route (R355). -/
theorem flit_forwarded {i : Fin 24} (hp : s.pkg.port (flitDest b) = some i.val) (hi : i ≠ k) (hiu : s.pkg.links[i].up = true)
    (hb : s.pkg.links[i].buf.length < 256) :
    s.flit k.val b = some ((s.setLink k.val (s.pkg.links[k].taken b)).setLink i.val (s.pkg.links[i].send b .forwarded)) := by
  obtain ⟨h1, h2⟩ := (goodFlit_iff _ _).1 h
  have hl (l : Link) : (s.setLink k.val l).pkg.link i.val = some s.pkg.links[i] := by rw [link_eq, setLink_links, if_neg hi]
  unfold State.flit
  rw [link_eq]
  dsimp only
  rw [if_neg (by rw [hf, hu]; decide), if_neg (by simp [h1, h2]), if_neg (by simpa using hk), if_neg hd, setLink_port, hp]
  dsimp only
  rw [hl]
  dsimp only
  rw [if_neg (by rw [hiu]; decide), if_neg (by omega)]
  rfl

end

theorem setLink_only (s : State) (k : Nat) (l : Link) : s.setLink k l = { s with pkg := { s.pkg with links := (s.setLink k l).pkg.links } } := rfl

/-! ### A link goes down (R358, R359) -/

theorem stopOf_checkLost (buf : List Flit) (s : State) : s.StopOf (State.checkLost buf s) := by
  unfold State.checkLost
  split
  · split
    · exact stopOf_machineStop _ _ _
    · exact .refl s
  · exact .refl s

theorem checkLost_others (buf : List Flit) (s : State) : (State.checkLost buf s).others = s.others := by
  unfold State.checkLost
  split
  · split
    · exact machineStop_others _ _ _
    · rfl
  · rfl

/-- The machine checks of a failed link on the cores of these indices. -/
def State.checkCores (buf : List Flit) (is : List Nat) (s : State) : State := is.foldl (fun s i => s.onCore i (State.checkLost buf)) s

theorem stopOf_checkCores (buf : List Flit) (is : List Nat) (s : State) : s.StopOf (s.checkCores buf is) := by
  induction is generalizing s with
  | nil => exact .refl s
  | cons i is ih => exact (stopOf_onCore i (stopOf_checkLost buf) (checkLost_others buf)).trans (ih _)

/-- Whether a flit carries a request of a core depends on nothing that the stop of its unit changes. -/
theorem State.StopOf.carried {s t : State} (h : s.StopOf t) : t.core.carried = s.core.carried := by rw [h.core]; rfl

theorem checkLost_of_none {s : State} {buf : List Flit} (h : ∀ x ∈ buf, s.core.carried x = none) : State.checkLost buf s = s := by
  have : (buf.find? fun x => (s.core.carried x).isSome) = none := List.find?_eq_none.2 fun x hx => by simp [h x hx]
  unfold State.checkLost
  rw [this]

/-- A core no request of which is carried stays as it is. -/
theorem checkCores_of_none {buf : List Flit} (is : List Nat) {s : State} (h : ∀ x ∈ buf, s.core.carried x = none) : (s.checkCores buf is).core = s.core := by
  induction is generalizing s with
  | nil => rfl
  | cons i is ih =>
    have hs := stopOf_onCore i (stopOf_checkLost buf) (checkLost_others buf) (s := s)
    have hc : (s.onCore i (State.checkLost buf)).core = s.core := by
      by_cases hi : i = s.core.idx
      · subst hi
        rw [onCore_self (by rw [checkLost_of_none h]), checkLost_of_none h]
      · exact onCore_other hi (fun t => by rw [(stopOf_checkLost buf t).core]) (checkLost_others buf)
    exact (ih (by rw [hs.carried]; exact h)).trans hc

/-- A unit that a machine check has stopped stays stopped by it. -/
theorem checkLost_checked {s : State} (buf : List Flit) {fab : Option Nat} {pipe : Nat} (h : s.core.fe.unit = .checked fab pipe) :
    (State.checkLost buf s).core.fe.unit = .checked fab pipe := by
  unfold State.checkLost
  split
  · split
    · rw [machineStop_unit, if_pos (by simp [Front.stopped, h]), h]
    · exact h
  · exact h

theorem checkCores_checked {buf : List Flit} (is : List Nat) {s : State} {fab : Option Nat} {pipe : Nat} (h : s.core.fe.unit = .checked fab pipe) :
    (s.checkCores buf is).core.fe.unit = .checked fab pipe := by
  induction is generalizing s with
  | nil => exact h
  | cons i is ih =>
    refine ih ?_
    by_cases hi : i = s.core.idx
    · subst hi
      have := onCore_self (f := State.checkLost buf) (s := s) (by rw [(stopOf_checkLost buf s).core])
      dsimp only
      rw [this]
      exact checkLost_checked buf h
    · dsimp only
      rw [onCore_other hi (fun t => by rw [(stopOf_checkLost buf t).core]) (checkLost_others buf), h]

/-- A running unit with a request among the flits takes a machine check that names the device of one. -/
theorem checkCores_running {buf : List Flit} (is : List Nat) {s : State} (hr : s.core.fe.unit = .running) (h : ∃ x ∈ buf, (s.core.carried x).isSome = true) :
    ∃ x ∈ buf, (s.core.carried x).isSome = true ∧ (s.checkCores buf (s.core.idx :: is)).core.fe.unit = .checked (some (flitDest x.bytes)) 1 := by
  obtain ⟨x, hx⟩ := Option.isSome_iff_exists.1 (List.find?_isSome.2 h)
  refine ⟨x, List.mem_of_find?_eq_some hx, List.find?_some (p := fun x => (s.core.carried x).isSome) hx, checkCores_checked is ?_⟩
  dsimp only
  rw [onCore_self (by rw [(stopOf_checkLost buf s).core])]
  unfold State.checkLost
  rw [hx]
  dsimp only
  rw [if_pos (by simp [Core.busy, hr]), machineStop_unit, if_neg (by simp [Front.stopped, hr])]

/-- The request that a flit carries, if it is one of the core's that is not complete (R358). -/
theorem carried_eq_some (c : Core) (x : Flit) (seq : Nat) : c.carried x = some seq ↔ x.use = .access c.idx seq ∧ c.awaits seq = true := by
  unfold Core.carried
  split
  · next k n hu =>
    rw [hu]
    simp only [Bool.and_eq_true, decide_eq_true_eq, FlitFor.access.injEq, ite_eq_iff, Option.some.injEq, reduceCtorEq, and_false, or_false]
    constructor
    · rintro ⟨⟨rfl, h⟩, rfl⟩; exact ⟨⟨rfl, rfl⟩, h⟩
    · rintro ⟨⟨rfl, rfl⟩, h⟩; exact ⟨⟨rfl, h⟩, rfl⟩
  · next hu => simpa using fun h => absurd h (hu _ _)

theorem carried_isSome (c : Core) (x : Flit) : (c.carried x).isSome = true ↔ ∃ seq, x.use = .access c.idx seq ∧ c.awaits seq = true := by
  simp only [Option.isSome_iff_exists, carried_eq_some]

/-- Of the writes of a core those stay in flight whose request no flit of the failed link carries (R358). -/
theorem linkLost_ms (c : Core) (buf : List Flit) (fly : List RsSend) (w : MsWrite) :
    w ∈ (c.linkLost buf fly).lsu.ms ↔ w ∈ c.lsu.ms ∧ ∀ x ∈ buf, x.use ≠ .access c.idx w.seq := by
  have hm : w ∈ (c.linkLost buf fly).lsu.ms ↔ w ∈ c.lsu.ms ∧ ∀ x ∈ buf, c.carried x ≠ some w.seq := by
    show w ∈ c.lsu.ms.filter (fun w => !(buf.filterMap c.carried).contains w.seq) ↔ _
    simp [List.mem_filter]
  rw [hm]
  refine and_congr_right fun hw => forall₂_congr fun x _ => not_congr ?_
  have ha : c.awaits w.seq = true := by
    have : (c.lsu.ms.any fun y => y.seq == w.seq) = true := List.any_eq_true.2 ⟨w, hw, by simp⟩
    simp [Core.awaits, this]
  rw [carried_eq_some]
  exact and_iff_left ha

theorem linkLost_resh (c : Core) (buf : List Flit) (fly : List RsSend) : (c.linkLost buf fly).resh =
    match fly.find? fun f => f.core == c.idx && buf.any (·.carriesSub f) with
    | some f => c.resh.map fun r => { r with fail := some f.dev }
    | none => c.resh := by
  unfold Core.linkLost
  dsimp only
  cases fly.find? fun f => f.core == c.idx && buf.any (·.carriesSub f) with
  | none => simp
  | some f => rfl

end Sys2Proof.Machine
end

section
/-! PROOFS. The links' own events, scrubbing, detected errors, power, boot and reset (O54). -/

namespace Sys2Proof.Machine

/-- An error that a step logs after it has changed the package alone leaves of the package what the entry does not hold. -/
theorem elog_links (s : State) (level : Fin 8) (kind src core addr : Nat) : (s.elog level.val kind src core addr).pkg.links = s.pkg.links :=
  (congrArg Package.links (elog_pkg s level kind src core addr)).trans rfl

theorem elog_poison (s : State) (level : Fin 8) (kind src core addr : Nat) : (s.elog level.val kind src core addr).pkg.poison = s.pkg.poison :=
  (congrArg Package.poison (elog_pkg s level kind src core addr)).trans rfl

theorem elog_rsFly (s : State) (level : Fin 8) (kind src core addr : Nat) : (s.elog level.val kind src core addr).pkg.rsFly = s.pkg.rsFly :=
  (congrArg Package.rsFly (elog_pkg s level kind src core addr)).trans rfl

theorem setLink_levels (s : State) (k : Nat) (l : Link) : (s.setLink k l).pkg.levels = s.pkg.levels := by rw [setLink_only]

theorem setLink_stays (s : State) (k : Nat) (l : Link) : CoresStay s (s.setLink k l) ∧ (s.setLink k l).mem = s.mem := by
  rw [setLink_only]
  exact ⟨⟨rfl, rfl⟩, rfl⟩

theorem CoresStay.trans {a b c : State} (h : CoresStay a b) (k : CoresStay b c) : CoresStay a c := ⟨k.1.trans h.1, k.2.trans h.2⟩

/-- An error logged at level 7 after a port has changed: the port has, no core or memory has, and the log has taken the entry. -/
theorem portLogged {s u : State} {k : Fin 24} {l : Link} {kind src core addr : Nat} (hc : CoresStay s u) (hm : u.mem = s.mem) (hv : u.pkg.levels = s.pkg.levels)
    (hl : ∀ i, u.pkg.links[i] = if i = k then l else s.pkg.links[i]) (hk : kind < 16) (hs : src < 16) {t : State} (ht : u.elog 7 kind src core addr = t) :
    CoresStay s t ∧ t.mem = s.mem ∧ (∀ i, i ≠ k → t.pkg.links[i] = s.pkg.links[i]) ∧ t.pkg.links[k] = l ∧ LoggedAt s 7 kind src core addr t := by
  subst ht
  have hlinks : (u.elog 7 kind src core addr).pkg.links = u.pkg.links := elog_links u 7 kind src core addr
  refine ⟨hc.trans (elog_stays u 7 kind src core addr).1, (elog_stays u 7 kind src core addr).2.trans hm, fun i hi => ?_, ?_, loggedAt_elog hv 7 core addr hk hs⟩
  · rw [hlinks, hl, if_neg hi]
  · rw [hlinks, hl, if_pos rfl]

section
variable {s : State} {k : Fin 24}

/-- A port's own event: the port changes, the error log of level 7 takes the entry, and no core or memory changes. -/
theorem setLink_elog (l : Link) {kind src core addr : Nat} (hk : kind < 16) (hs : src < 16) {t : State} (ht : (s.setLink k.val l).elog 7 kind src core addr = t) :
    CoresStay s t ∧ t.mem = s.mem ∧ (∀ i, i ≠ k → t.pkg.links[i] = s.pkg.links[i]) ∧ t.pkg.links[k] = l ∧ LoggedAt s 7 kind src core addr t :=
  portLogged (setLink_stays s k.val l).1 (setLink_stays s k.val l).2 (setLink_levels s k.val l) (setLink_links s k l) hk hs ht

theorem linkReplay_eq (hu : s.pkg.links[k].up = true) (hb : s.pkg.links[k].buf ≠ []) (ht : s.pkg.links[k].tries < 8) :
    s.linkReplay k.val = some ((s.setLink k.val { s.pkg.links[k] with tries := s.pkg.links[k].tries + 1 }).elog 7 kLinkReplay 0 0xFF k.val) := by
  unfold State.linkReplay
  rw [link_eq]
  dsimp only
  rw [if_neg (by simp only [hu, Bool.not_true, Bool.false_or, Bool.or_eq_true, List.isEmpty_iff, hb, decide_eq_true_eq, false_or]; omega)]

/-- A link that comes up with no exchange running on any core: the port alone, and the log. -/
theorem linkTraining_eq (hu : s.pkg.links[k].up = false) (hf : s.pkg.fatal = false) (hp : k.val < s.pkg.form.ports)
    (hx : ∀ c ∈ s.core :: s.others, c.exchanging = []) :
    s.linkTraining k.val = some ((s.setLink k.val { s.pkg.links[k] with up := true, snd := 0, rcv := 0, buf := [], tries := 0 }).elog 7 kLinkUp 0 0xFF k.val) := by
  have hn (l : Link) : (s.setLink k.val l).allCores.filter (fun c => !c.exchanging.isEmpty) = [] := by
    rw [setLink_only]
    exact List.filter_eq_nil_iff.2 fun c hc => by rw [hx c hc]; simp
  unfold State.linkTraining
  rw [link_eq]
  dsimp only
  rw [if_neg (by simp only [hu, hf, Bool.false_or, decide_eq_true_eq]; omega), hn]
  rfl

theorem exchanging_eq_nil {c : Core} (h : ∀ q : Fin 5, ∀ e ∈ c.eng.q[q], e.isBin = true → e.st ≠ .running) : c.exchanging = [] := by
  refine List.filter_eq_nil_iff.2 fun e he => ?_
  obtain ⟨l, hl, he⟩ := List.mem_flatMap.1 he
  obtain ⟨i, hi, rfl⟩ := List.mem_iff_getElem.1 hl
  have := h ⟨i, by simpa using hi⟩ e (by simpa using he)
  simp only [Bool.and_eq_true, beq_iff_eq, not_and]
  exact fun hr hb => this hb hr

end

/-! ### A link goes down (R358, R359) -/

/-- The state of a link that goes down, before anything of it has reached a core. -/
def State.downed (s : State) (k : Fin 24) : State :=
  s.setLink k.val { s.pkg.links[k] with up := false, downs := (s.pkg.links[k].downs + 1) % 2 ^ 32, buf := [], tries := 0 }

/-- The state after the machine checks, before the cores' transfers fail. -/
def State.cut (s : State) (k : Fin 24) : State := (s.downed k).checkCores s.pkg.links[k].buf ((s.downed k).allCores.map (·.idx))

/-- The state after them. -/
def State.severed (s : State) (k : Fin 24) : State :=
  ((s.cut k).mapCores fun c => c.linkLost s.pkg.links[k].buf (s.cut k).pkg.rsFly).pkgd fun p =>
    { p with rsFly := p.rsFly.filter fun f => !s.pkg.links[k].buf.any (·.carriesSub f) }

section
variable {s : State} {k : Fin 24}

theorem linkDown_eq (hu : s.pkg.links[k].up = true) (ht : 8 ≤ s.pkg.links[k].tries) :
    s.linkDown k.val = some ((s.severed k).elog 7 kLinkDown 0 0xFF k.val) := by
  unfold State.linkDown
  rw [link_eq]
  dsimp only
  rw [if_neg (by simp only [hu, Bool.not_true, Bool.false_or, decide_eq_true_eq]; omega)]
  rfl

theorem downed_stays (s : State) (k : Fin 24) : CoresStay s (s.downed k) ∧ (s.downed k).mem = s.mem := by
  unfold State.downed
  exact setLink_stays _ _ _

theorem downed_only (s : State) (k : Fin 24) : s.downed k = { s with pkg := { s.pkg with links := (s.downed k).pkg.links } } := by
  unfold State.downed
  exact setLink_only _ _ _

theorem downed_pkg (s : State) (k : Fin 24) : (s.downed k).pkg = { s.pkg with links := (s.downed k).pkg.links } := by
  rw [downed_only]

theorem downed_links (s : State) (k i : Fin 24) : (s.downed k).pkg.links[i] = if i = k then
    { s.pkg.links[k] with up := false, downs := (s.pkg.links[k].downs + 1) % 2 ^ 32, buf := [], tries := 0 } else s.pkg.links[i] := by
  unfold State.downed
  exact setLink_links _ _ _ _

theorem stopOf_cut (s : State) (k : Fin 24) : (s.downed k).StopOf (s.cut k) := stopOf_checkCores _ _ _

theorem cut_core (s : State) (k : Fin 24) : (s.cut k).core = { s.core with fe := { s.core.fe with unit := (s.cut k).core.fe.unit } } := by
  rw [(stopOf_cut s k).core, (downed_stays s k).1.1]

theorem severed_core (s : State) (k : Fin 24) : (s.severed k).core = (s.cut k).core.linkLost s.pkg.links[k].buf (s.cut k).pkg.rsFly := by
  rw [State.severed, State.pkgd_core, State.mapCores]

theorem severed_mem (s : State) (k : Fin 24) : (s.severed k).mem = s.mem := by
  rw [State.severed, State.pkgd_mem, State.mapCores, (stopOf_cut s k).mem, (downed_stays s k).2]

/-- Of the package the links, the transfers in flight and the black box may have changed. -/
theorem severed_pkg (s : State) (k : Fin 24) : (s.severed k).pkg = { s.pkg with
    links := (s.downed k).pkg.links, bbox := (s.cut k).pkg.bbox, rsFly := s.pkg.rsFly.filter fun f => !s.pkg.links[k].buf.any (·.carriesSub f) } := by
  rw [State.severed, State.pkgd_pkg, State.mapCores, (stopOf_cut s k).pkg, downed_pkg]

theorem cut_rsFly (s : State) (k : Fin 24) : (s.cut k).pkg.rsFly = s.pkg.rsFly := by
  rw [(stopOf_cut s k).pkg, downed_pkg]

/-- Of the core that moves a link that goes down changes the unit, the RESHARD command and the writes in flight. -/
theorem severed_core_eq (s : State) (k : Fin 24) : (s.severed k).core = { s.core with
    fe := { s.core.fe with unit := (s.cut k).core.fe.unit }
    resh := (s.core.linkLost s.pkg.links[k].buf s.pkg.rsFly).resh
    lsu := { s.core.lsu with ms := (s.core.linkLost s.pkg.links[k].buf s.pkg.rsFly).lsu.ms } } := by
  rw [severed_core, cut_rsFly, cut_core]
  rfl

theorem cut_eq (s : State) (k : Fin 24) :
    s.cut k = (s.downed k).checkCores s.pkg.links[k].buf ((s.downed k).core.idx :: (s.downed k).others.map (·.idx)) := rfl

/-- A running unit with a request in the failed link's buffer takes a machine check that names the device of one. -/
theorem cut_running (hr : s.core.fe.unit = .running) (h : ∃ x ∈ s.pkg.links[k].buf, (s.core.carried x).isSome = true) :
    ∃ x ∈ s.pkg.links[k].buf, (s.core.carried x).isSome = true ∧ (s.cut k).core.fe.unit = .checked (some (flitDest x.bytes)) 1 := by
  have hc := (downed_stays s k).1.1
  have := checkCores_running (s := s.downed k) (buf := s.pkg.links[k].buf) ((s.downed k).others.map (·.idx)) (by rw [hc, hr]) (by rw [hc]; exact h)
  rw [← cut_eq, hc] at this
  exact this

theorem cut_idle (h : ∀ x ∈ s.pkg.links[k].buf, s.core.carried x = none) : (s.cut k).core = s.core := by
  have hc := (downed_stays s k).1.1
  rw [cut_eq, checkCores_of_none _ (by rw [hc]; exact h), hc]

end

end Sys2Proof.Machine
end

section
/-! PROOFS. What a link's own events, scrubbing, detected errors, power, boot and reset answer, and O54. -/

namespace Sys2Proof.Machine

section
variable {s : State} {k : Fin 24}

theorem linkReplay_answers (hu : s.pkg.links[k].up = true) (hb : s.pkg.links[k].buf ≠ []) (ht : s.pkg.links[k].tries < 8) :
    Answers (.linkReplay k.val) s fun t => CoresStay s t ∧ t.mem = s.mem ∧ (∀ i, i ≠ k → t.pkg.links[i] = s.pkg.links[i]) ∧
      t.pkg.links[k] = { s.pkg.links[k] with tries := s.pkg.links[k].tries + 1 } ∧ LoggedAt s 7 5 0 0xFF k.val t :=
  answers_event rfl (linkReplay_eq hu hb ht) (setLink_elog _ (by decide) (by decide) rfl)

/-- What a link that goes down leaves of the machine, and what it changes of the core that moves. -/
theorem linkDown_answers (hu : s.pkg.links[k].up = true) (ht : 8 ≤ s.pkg.links[k].tries) :
    Answers (.linkDown k.val) s fun t => t.mem = s.mem ∧ t.core = (s.severed k).core ∧ (∀ i, i ≠ k → t.pkg.links[i] = s.pkg.links[i]) ∧
      t.pkg.links[k] = { s.pkg.links[k] with up := false, downs := (s.pkg.links[k].downs + 1) % 2 ^ 32, buf := [], tries := 0 } ∧
      LoggedAt s 7 6 0 0xFF k.val t ∧ t.pkg.rsFly = s.pkg.rsFly.filter fun f => !s.pkg.links[k].buf.any (·.carriesSub f) := by
  refine answers_event rfl (linkDown_eq hu ht) ?_
  obtain ⟨⟨hc, -⟩, hm⟩ := elog_stays (s.severed k) 7 kLinkDown 0 0xFF k.val
  have hl : ((s.severed k).elog 7 kLinkDown 0 0xFF k.val).pkg.links = (s.downed k).pkg.links :=
    (elog_links (s.severed k) 7 kLinkDown 0 0xFF k.val).trans (by rw [severed_pkg])
  have hf : ((s.severed k).elog 7 kLinkDown 0 0xFF k.val).pkg.rsFly = (s.severed k).pkg.rsFly := elog_rsFly (s.severed k) 7 kLinkDown 0 0xFF k.val
  refine ⟨hm.trans (severed_mem s k), hc, fun i hi => ?_, ?_, loggedAt_elog (by rw [severed_pkg]) 7 0xFF k.val (by decide) (by decide), ?_⟩
  · rw [hl, downed_links, if_neg hi]
  · rw [hl, downed_links, if_pos rfl]
  · rw [hf, severed_pkg]

theorem linkTraining_answers (hu : s.pkg.links[k].up = false) (hf : s.pkg.fatal = false) (hp : k.val < s.pkg.form.ports)
    (hx : ∀ c ∈ s.core :: s.others, ∀ q : Fin 5, ∀ e ∈ c.eng.q[q], e.isBin = true → e.st ≠ .running) :
    Answers (.linkTraining k.val) s fun t => CoresStay s t ∧ t.mem = s.mem ∧ (∀ i, i ≠ k → t.pkg.links[i] = s.pkg.links[i]) ∧
      t.pkg.links[k] = { s.pkg.links[k] with up := true, snd := 0, rcv := 0, buf := [], tries := 0 } ∧ LoggedAt s 7 7 0 0xFF k.val t :=
  answers_event rfl (linkTraining_eq hu hf hp fun c hc => exchanging_eq_nil (hx c hc)) (setLink_elog _ (by decide) (by decide) rfl)

end

/-! ### Scrubbing (R360) -/

/-- The bytes of a level's memory that are scrubbed. -/
def Package.scrubbed (p : Package) (level : Fin 8) : Nat := if level.val = 6 then p.form.cellar else levelSize level.val

section
variable {s : State} {level : Fin 8} {core addr : Nat} (hf : s.pkg.fatal = false) (hr : wfld s.pkg.levels[level].scrub 0 32 ≠ 0) (ha : addr % 8 = 0)
  (hb : addr < s.pkg.scrubbed level)
  (hc : if level.val = 6 then core = 255 else ∃ c ∈ s.core :: s.others, c.idx = core ∧ (s.pkg.levels[level].scrub.getLsbD 32 = true → c.busy = false))
include hf hr ha hb hc

/-- A word of a level that is scrubbed has been read: by what was found (R360). -/
theorem scrub_eq (found : Nat) : s.scrub level.val core addr found = some (if found = 0 then s
    else if found = 1 then s.elog level.val kCorrected 1 core addr
    else (s.elog level.val kUncorrectable 1 core addr).pkgd fun p =>
      { p with poison := ⟨level.val, core, addr⟩ :: p.poison.filter (· != ⟨level.val, core, addr⟩) }) := by
  have hb' : ¬ (if level.val = 6 then s.pkg.form.cellar else levelSize level.val) ≤ addr := Nat.not_le.2 hb
  have hhere : if level.val = 6 then core = 255
      else (s.allCores.any fun c => c.idx == core && (!wbit s.pkg.levels[level].scrub 32 || !c.busy)) = true := by
    split at hc
    · next h => rw [if_pos h, hc]
    · next h =>
      obtain ⟨c, hm, hi, hidle⟩ := hc
      have hwait : (!wbit s.pkg.levels[level].scrub 32 || !c.busy) = true := by
        show (!s.pkg.levels[level].scrub.getLsbD 32 || !c.busy) = true
        cases hl : s.pkg.levels[level].scrub.getLsbD 32 with
        | false => rfl
        | true => rw [hidle hl]; rfl
      rw [if_neg h, List.any_eq_true]
      exact ⟨c, hm, by rw [hi, hwait, beq_self_eq_true, Bool.and_self]⟩
  unfold State.scrub
  rw [Vector.toList_getElem?]
  dsimp only
  rw [if_neg (by rw [hf, decide_eq_true hhere]; simp only [hr, ha, hb', decide_false, bne_self_eq_false, Bool.or_false, Bool.not_true, Bool.false_eq_true, not_false_eq_true])]
  split_ifs <;> rfl

theorem scrub_good : Answers (.scrub level.val core addr 0) s fun t => t = s := answers_event rfl (scrub_eq hf hr ha hb hc 0) rfl

theorem scrub_corrected : Answers (.scrub level.val core addr 1) s fun t =>
    CoresStay s t ∧ t.mem = s.mem ∧ t.pkg.poison = s.pkg.poison ∧ LoggedAt s level 1 1 core addr t :=
  answers_event rfl (scrub_eq hf hr ha hb hc 1) ⟨(elog_stays _ _ _ _ _ _).1, (elog_stays _ _ _ _ _ _).2, elog_poison _ _ _ _ _ _,
    loggedAt_elog rfl level core addr (by decide) (by decide)⟩

/-- An uncorrectable word is marked (R360). -/
theorem scrub_uncorrectable : Answers (.scrub level.val core addr 2) s fun t => CoresStay s t ∧ t.mem = s.mem ∧ ⟨level.val, core, addr⟩ ∈ t.pkg.poison ∧
    (∀ p, p ≠ ⟨level.val, core, addr⟩ → (p ∈ t.pkg.poison ↔ p ∈ s.pkg.poison)) ∧ LoggedAt s level 2 1 core addr t := by
  refine answers_event rfl (scrub_eq hf hr ha hb hc 2) ⟨(elog_stays _ _ _ _ _ _).1, (elog_stays _ _ _ _ _ _).2, List.mem_cons_self, fun p hp => ?_,
    loggedAt_elog rfl level core addr (by decide) (by decide)⟩
  rw [← elog_poison s level kUncorrectable 1 core addr]
  simp [hp]

end

/-! ### Detected errors (R127, R228) -/

/-- The sequence number of the next instruction of a pipe. -/
def Core.nextSeq (c : Core) (xp : Bool) : Option Nat :=
  if xp = true then (match c.fe.kernel with | some k => some k.seq | none => c.fe.xq.head?.map (·.seq)) else c.fe.aq.head?.map (·.seq)

/-- An error at the issue of the instruction n of a pipe: the first one at a point replays, a second one is a machine check (R127, R228). -/
def State.errorAt (s : State) (xp : Bool) (n : Nat) : State :=
  if s.core.replayAt.contains (xp, n, s.core.sys.loopState) then
    (s.fresh.2.elog 5 kSecond 0 s.core.idx s.fresh.1.toNat).machineStop none (if xp then 2 else 1)
  else (s.fresh.2.withCore { s.core with replayAt := (xp, n, s.core.sys.loopState) :: s.core.replayAt.filter fun x => x.1 != xp }).elog 5 kReplay 0 s.core.idx
    s.fresh.1.toNat

/-- An error logged at level 5 by a core that has changed itself alone. -/
theorem coreLogged {s u t : State} {kind core addr : Nat} (ht : u.elog 5 kind 0 core addr = t) (hk : kind < 16) (ho : u.others = s.others) (hm : u.mem = s.mem)
    (hl : u.pkg.levels = s.pkg.levels) : t.core = u.core ∧ t.others = s.others ∧ t.mem = s.mem ∧ LoggedAt s 5 kind 0 core addr t := by
  subst ht
  obtain ⟨⟨hc, ho'⟩, hm'⟩ := elog_stays u 5 kind 0 core addr
  exact ⟨hc, ho'.trans ho, hm'.trans hm, loggedAt_elog hl 5 core addr hk (by decide)⟩

section
variable {s : State} {xp : Bool} {n : Nat}

variable (hr : s.core.fe.unit = .running ∨ s.core.fe.unit = .ending)
include hr

theorem softError_eq (hn : s.core.nextSeq xp = some n) : s.softError xp = some (s.errorAt xp n) := by
  have hrun : (!(s.core.fe.unit == .running || s.core.fe.unit == .ending)) = false := by
    rcases hr with h | h <;> rw [h] <;> rfl
  unfold State.softError
  dsimp only
  split
  · next h => exact absurd (h.symm.trans hn) (by simp)
  · next m h =>
    have hm : some m = some n := h.symm.trans hn
    rw [hrun, if_neg (by decide), Option.some.inj hm]
    by_cases hp : s.core.replayAt.contains (xp, n, s.core.sys.loopState) = true
    · rw [State.errorAt, if_pos hp]
      exact if_pos hp
    · rw [State.errorAt, if_neg hp]
      exact if_neg hp

/-- A first error at a point replays from there and is logged (R127). -/
theorem softError_first (hn : s.core.nextSeq xp = some n) (hp : (xp, n, s.core.sys.loopState) ∉ s.core.replayAt) :
    Answers (.softErrorReplay xp) s fun t =>
      t.core = { s.core with replayAt := (xp, n, s.core.sys.loopState) :: s.core.replayAt.filter fun x => x.1 != xp } ∧ t.others = s.others ∧ t.mem = s.mem ∧
        ∃ a, LoggedAt s 5 3 0 s.core.idx a t := by
  refine answers_event rfl (softError_eq hr hn) ?_
  generalize ht : s.errorAt xp n = t
  rw [State.errorAt, if_neg (by simpa using hp)] at ht
  obtain ⟨hc, ho, hm, hlog⟩ := coreLogged (s := s) ht (by decide) rfl rfl rfl
  exact ⟨hc, ho, hm, _, hlog⟩

/-- A second one there is a machine check of the pipe (R127, R228). -/
theorem softError_second (hn : s.core.nextSeq xp = some n) (hp : (xp, n, s.core.sys.loopState) ∈ s.core.replayAt) :
    Answers (.softErrorReplay xp) s fun t =>
      t.core = { s.core with fe := { s.core.fe with unit := .checked none (if xp then 2 else 1) } } ∧ t.others = s.others ∧ t.mem = s.mem ∧
        ∃ a, LoggedAt s 5 4 0 s.core.idx a t := by
  refine answers_event rfl (softError_eq hr hn) ?_
  rw [State.errorAt, if_pos (by simpa using hp)]
  generalize hu : s.fresh.2.elog 5 kSecond 0 s.core.idx s.fresh.1.toNat = u
  obtain ⟨hc, ho, hm, hlog⟩ := coreLogged (s := s) hu (by decide) rfl rfl rfl
  have hc : u.core = s.core := hc
  have hrun : u.core.fe.stopped = false := by rcases hr with h | h <;> simp [Front.stopped, hc, h]
  generalize (if xp = true then 2 else 1 : Nat) = pipe
  have hunit : (u.machineStop none pipe).core.fe.unit = .checked none pipe := by rw [machineStop_unit, hrun]; rfl
  have hstop := stopOf_machineStop u none pipe
  refine ⟨by rw [hstop.core, hunit, hc], (machineStop_others ..).trans ho, hstop.mem.trans hm, s.fresh.1.toNat, ?_⟩
  unfold LoggedAt at hlog ⊢
  rw [hstop.pkg]
  exact hlog

end

/-! ### Power, the fatal error and boot (R362, R363, R365) -/

section
variable {s : State}

theorem throttle_answers (hh : s.hearthUp = true) (ht : s.pkg.throttled = false) : Answers .thermalThrottle s fun t =>
    CoresStay s t ∧ t.mem = s.mem ∧ t.pkg = { s.pkg with throttled := true, bbox := t.pkg.bbox } := by
  have h := bbOf_bb (s.pkgd fun p => { p with throttled := true }) (.throttle true)
  exact answers_event rfl (if_neg (by rw [hh, ht]; decide)) ⟨⟨h.core, h.others⟩, h.mem, h.pkg⟩

theorem restore_answers (hh : s.hearthUp = true) (ht : s.pkg.throttled = true) : Answers .throttleRestore s fun t =>
    CoresStay s t ∧ t.mem = s.mem ∧ t.pkg = { s.pkg with throttled := false, bbox := t.pkg.bbox } := by
  have h := bbOf_bb (s.pkgd fun p => { p with throttled := false }) (.throttle false)
  exact answers_event rfl (if_pos (by rw [hh, ht]; decide)) ⟨⟨h.core, h.others⟩, h.mem, h.pkg⟩

theorem fatal_answers (hf : s.pkg.fatal = false) : Answers .fatalError s fun t =>
    t.mem = s.mem ∧ t.pkg = { s.pkg with fatal := true, bbox := { s.pkg.bbox with frozen := true } } ∧ t.others.length = s.others.length ∧
      ∀ (i : Nat) (c d : Core), (s.core :: s.others)[i]? = some c → (t.core :: t.others)[i]? = some d → d = c.halt := by
  refine answers_event rfl (if_neg (by rw [hf]; decide)) ⟨rfl, rfl, List.length_map _, fun i c d hc hd => ?_⟩
  have hd : ((s.core :: s.others).map Core.halt)[i]? = some d := hd
  rw [List.getElem?_map, hc] at hd
  exact (Option.some.inj hd).symm

/-- An image whose hash, signature and security version pass runs; any other leaves the device in boot state (R363). -/
theorem boot_answers (image dig sig : List Byte) (svn : Nat) (hb : s.pkg.booted = false) (hx : s.pkg.bootFailed = false) (hf : s.pkg.fatal = false) :
    Answers (.boot image dig sig svn) s fun t => CoresStay s t ∧ t.mem = s.mem ∧
      if dig = leBytes 32 (Config.sm3 image) ∧ Config.sm2Verify Config.releaseKey dig sig = true ∧ s.pkg.svn ≤ svn then
        t.pkg = { s.pkg with booted := true, firmware := image }
      else t.pkg = { s.pkg with bootFailed := true, mboxStat := t.pkg.mboxStat, mbox := none } ∧ MailedCode s 3 t := by
  have heq : (dig == digest image && Config.sm2Verify Config.releaseKey dig sig && decide (s.pkg.svn ≤ svn)) =
      decide (dig = leBytes 32 (Config.sm3 image) ∧ Config.sm2Verify Config.releaseKey dig sig = true ∧ s.pkg.svn ≤ svn) := by
    simp [digest, Bool.and_assoc, Bool.decide_and, beq_eq_decide]
  have hrun : s.boot image dig sig svn = if dig = leBytes 32 (Config.sm3 image) ∧ Config.sm2Verify Config.releaseKey dig sig = true ∧ s.pkg.svn ≤ svn then
      some (s.pkgd fun p => { p with booted := true, firmware := image }) else some ((s.pkgd fun p => { p with bootFailed := true }).setCode mbDenied) := by
    unfold State.boot
    rw [if_neg (by rw [hb, hx, hf]; decide), heq]
    simp only [decide_eq_true_eq]
  by_cases h : dig = leBytes 32 (Config.sm3 image) ∧ Config.sm2Verify Config.releaseKey dig sig = true ∧ s.pkg.svn ≤ svn
  · rw [if_pos h] at hrun
    refine answers_event rfl hrun ⟨⟨rfl, rfl⟩, rfl, ?_⟩
    rw [if_pos h]; rfl
  · rw [if_neg h] at hrun
    refine answers_event rfl hrun ⟨⟨rfl, rfl⟩, rfl, ?_⟩
    rw [if_neg h]; exact ⟨rfl, rfl, rfl⟩

end

/-! ### Reset (R8, R355, R362) -/

/-- What a memory holds after the bytes that `p` does not name have gone. -/
theorem Memory.read_filter (m : Memory) (p : Nat → Bool) (a : Nat) :
    Memory.read (m.filter fun c => p c.1) a = if p a = true then m.read a else 0 := by
  unfold Memory.read
  by_cases hp : p a = true
  · rw [if_pos hp, find_filter_of]
    rintro c - rfl
    exact hp
  · rw [if_neg hp, List.find?_eq_none.2]
    · rfl
    · intro c hc
      have := (List.mem_filter.1 hc).2
      simp only [beq_iff_eq]
      rintro rfl
      exact hp this

theorem outOfReset_step {s : State} {cold : Bool} {rest : List Turn} (h : s.agenda = .outOfReset cold :: rest) :
    step s = .next (State.outOfReset { s with agenda := rest } cold) := by
  unfold step
  rw [h]
  rfl

/-- Which bytes of memory a reset keeps: all that do not belong to the device, and after a warm one the Cellar. -/
theorem outOfReset_read (s : State) (cold : Bool) (a : Nat) :
    (s.outOfReset cold).mem.read a = if 2 ^ 53 ≤ a ∨ (cold = false ∧ a < 2 ^ 52) then s.mem.read a else 0 := by
  refine (Memory.read_filter s.mem (fun a => decide (2 ^ 53 ≤ a) || (!cold && decide (a < 2 ^ 52))) a).trans ?_
  simp only [Bool.or_eq_true, Bool.and_eq_true, Bool.not_eq_true', decide_eq_true_eq]

/-! ### O54 -/

theorem linksOnly_trans {s u t : State} (h : u = { s with pkg := { s.pkg with links := u.pkg.links } })
    (k : t = { u with pkg := { u.pkg with links := t.pkg.links } }) : t = { s with pkg := { s.pkg with links := t.pkg.links } } :=
  k.trans (by rw [h])

theorem scrubbed_eq (p : Package) (level : Fin 8) :
    [2 ^ 22, 2 ^ 16, 2 ^ 23, 2 ^ 25, 0, 0, if p.form = .die then 3 * 2 ^ 38 else 3 * 2 ^ 39].getD level.val 0 = p.scrubbed level := by
  obtain ⟨n, hn⟩ := level
  have hc : p.form.cellar = if p.form = .die then 3 * 2 ^ 38 else 3 * 2 ^ 39 := by
    cases p.form <;> norm_num [Form.cellar, Config.cellar]
  unfold Package.scrubbed
  rw [hc]
  interval_cases n <;> simp [levelSize]

/-- Settles O54: an equation of the model for each event, under the conditions of its clause; what an entry of the error log and of the black box leaves, once. -/
theorem linksErrorsAndPower : Obligations.LinksErrorsAndPower := by
  intro s k b l dest kind linksOnly others
  have hothers (m : Link) : others (s.setLink k.val m) := fun i hi => by rw [setLink_links, if_neg hi]
  have hself (m : Link) : (s.setLink k.val m).pkg.links[k] = m := by rw [setLink_links, if_pos rfl]
  refine ⟨fun hf hu => ⟨fun h => ?_, fun h hk => ?_, fun h h0 h4 hd => ?_, fun i h h0 h4 hd hp hi hiu hb => ?_, fun h h0 h4 hd hp => ?_⟩,
    fun hu hb ht => linkReplay_answers hu hb ht, fun hu ht => ?_, fun hu hf hp hx => linkTraining_answers hu hf hp hx,
    fun level core addr hf hlev hr ha hb hc => ?_, fun xp n hr hn => ⟨fun hp => softError_first hr hn hp, fun hp => softError_second hr hn hp⟩,
    throttle_answers, restore_answers, fatal_answers, fun image dig sig svn => boot_answers image dig sig svn, fun cold rest h => ?_⟩
  · exact answers_event rfl (flit_bad hf hu h) rfl
  · exact answers_event rfl (flit_ends hf hu h hk) ⟨setLink_only .., hothers _, by rw [hself]; exact acked_taken l b⟩
  · exact answers_event rfl (flit_delivered hf hu h (not_or.2 ⟨h0, h4⟩) hd) ⟨setLink_only .., hothers _, _, acked_taken l b, hself _⟩
  · obtain ⟨x, hx, hbody, hseq, hhead⟩ := send_spec s.pkg.links[i] b .forwarded
    refine answers_event rfl (flit_forwarded hf hu h (not_or.2 ⟨h0, h4⟩) hd hp hi hiu hb)
      ⟨linksOnly_trans (setLink_only ..) (setLink_only ..), ?_, fun n hnk hni => ?_, x, ?_, hbody, hseq, hhead⟩
    · rw [setLink_links, if_neg hi.symm, setLink_links, if_pos rfl]
      exact acked_taken l b
    · rw [setLink_links, if_neg hni, setLink_links, if_neg hnk]
    · rw [setLink_links, if_pos rfl, hx]
  · exact answers_event rfl (flit_unrouted hf hu h (not_or.2 ⟨h0, h4⟩) hd hp) ⟨setLink_only .., hothers _, by rw [hself]; exact acked_taken l b⟩
  · obtain ⟨t, ht, hm, hc, ho, hl, hlog, hfly⟩ := linkDown_answers hu ht
    have hcarried (x : Flit) : (∃ seq, x.use = .access s.core.idx seq ∧ s.core.awaits seq = true) ↔ (s.core.carried x).isSome = true :=
      (carried_isSome s.core x).symm
    have hfe : t.core.fe = { s.core.fe with unit := (s.cut k).core.fe.unit } := by rw [hc, severed_core_eq]
    refine ⟨t, ht, hm, ho, hl, hlog, by rw [hc, severed_core_eq], by rw [hc, severed_core_eq], by rw [hc, severed_core_eq], hfly, ?_, fun w => ?_, fun hr h => ?_,
      fun h => ?_⟩
    · rw [hc, severed_core_eq]
      exact linkLost_resh _ _ _
    · rw [hc, severed_core_eq]
      exact linkLost_ms _ _ s.pkg.rsFly _
    · simp only [hcarried] at h ⊢
      rw [hfe]
      exact cut_running hr h
    · rw [hfe, cut_idle fun x hx => ?_]
      exact Option.not_isSome_iff_eq_none.1 fun hs => h x hx ((hcarried x).2 hs)
  · rw [scrubbed_eq] at hb
    exact ⟨scrub_good hf hr ha hb hc, scrub_corrected hf hr ha hb hc, scrub_uncorrectable hf hr ha hb hc⟩
  · exact ⟨_, outOfReset_step h, rfl, idx_resetOf s.pkg.form, rfl, rfl, rfl, rfl, outOfReset_read { s with agenda := rest } cold⟩

end Sys2Proof.Machine
end

section
/-! PROOFS. A walk that the fetch has asked for is recorded as one of .CL, whatever its request names (O52). -/

namespace Sys2Proof.Machine

/-- A partition whose tables are empty. -/
def emptyPart : Partition := ⟨0, [0], 0x10000, 0x20000, 0, 0, none⟩

/-- A request of the fetch for a walk of .HS. No run makes one, for the fetch asks for walks of .CL only; O52 does not shut it out. -/
def fetchOfHs : WalkReq := ⟨.hs, 2 ^ 40, false, true⟩

/-- The machine after reset, with a running unit of that partition, whose walk waits. -/
def hsFetched : State :=
  ((State.reset.fe fun f => { f with unit := .running }).lsu fun l => { l with walks := [fetchOfHs] }).pkgd fun p => { p with parts := [emptyPart] }

/-- Where the ring takes its next record (R91). -/
def Notify.place (n : Notify) : Nat := wfld n.base 12 40 * 2 ^ 12 + 16 * (n.head.toNat % n.size)

theorem hsFetched_waits : hsFetched.core.lsu.walks[0]? = some fetchOfHs ∧ hsFetched.part = some emptyPart ∧
    walk hsFetched.mem 0 .hs emptyPart.rootHs fetchOfHs.va false = .error .notValid ∧ hsFetched.core.fe.unit = .running ∧ hsFetched.pkg.notify.full = false := by
  decide +kernel

/-- The space that a step's answer names in the record at a place of the ring. -/
def recordSpace (o : Out) (place : Nat) : Option Nat :=
  match o with
  | .next t => some (fld (t.mem.le place 16) 28 4)
  | _ => none

/-- The record that its walk leaves names .CL (R71, R91). -/
theorem hsFetched_record : recordSpace (exec (.translationWalk 0) hsFetched) hsFetched.pkg.notify.place = some Space.cl.code := by
  decide +kernel

/-- The record that O52 asks for names the space of the request, .HS. -/
theorem noteRec_hs (va count unit part core kind wrap : Nat) (h : wrap < 2) : fld (noteRec va count unit part core Space.hs.code kind + wrap) 28 4 = Space.hs.code := by
  unfold fld noteRec
  simp only [Space.code]
  omega

/-- Refutes O52: its clause of a walk that fails says that the record names the space of the request; of a walk that the fetch has asked for the model writes
.CL there, and no premise of the clause says that the fetch asks for nothing else. -/
theorem not_translationsAndOutside : ¬ Obligations.TranslationsAndOutside := by
  intro h
  obtain ⟨hw, hp, hr, hrun, hfull⟩ := hsFetched_waits
  obtain ⟨⟨-, houtside⟩, -⟩ := h
  obtain ⟨hwalk, -⟩ := houtside hsFetched 0 fetchOfHs emptyPart 0 0 0 0 0 0 0 .cl (.load 0) []
  obtain ⟨t, ht, -, -, -, -, -, hrec⟩ := (hwalk hw hp).2 .notValid hr hrun hfull
  have hcl : some (fld (t.mem.le hsFetched.pkg.notify.place 16) 28 4) = some Space.cl.code := by
    have hcl := hsFetched_record
    rw [ht] at hcl
    exact hcl
  have hhs : fld (t.mem.le hsFetched.pkg.notify.place 16) 28 4 = Space.hs.code :=
    (congrArg (fld · 28 4) hrec).trans (noteRec_hs _ _ _ _ _ _ _ (Nat.mod_lt _ (by decide)))
  rw [hhs] at hcl
  exact absurd hcl (by decide)

end Sys2Proof.Machine
end

section
/-! SUPPORT. What the levels of work do, said once: a child that ends, a graph that follows its launches, a phase that starts, and a unit's end. -/

namespace Sys2Proof.Machine

/-- What every step of a fold keeps the fold keeps. -/
theorem foldl_keeps {α β γ : Type} (F : β → γ) {f : β → α → β} (h : ∀ b a, F (f b a) = F b) (l : List α) (b : β) : F (l.foldl f b) = F b := by
  induction l generalizing b with
  | nil => rfl
  | cons a l ih => exact (ih _).trans (h b a)

/-! ### A child ends (R26, R27) -/

/-- A counter entry with one child less outstanding, and one more failed where the child did not complete. -/
def Counter.less (c : Counter) (bad : Prop) [Decidable bad] : Counter :=
  { c with outstanding := c.outstanding - 1, failed := if bad then min (c.failed + 1) 0xFFFFFF else c.failed }

@[simp] theorem Counter.less_bne (c : Counter) (m n : Nat) : c.less ((m != n) = true) = c.less (m ≠ n) := by
  simp only [Counter.less, bne_iff_ne]

/-- The state in which a counter entry ends when its last child has ended. -/
def Counter.fin (c : Counter) : Nat := if c.state = 3 then 4 else if c.failed = 0 then 2 else 5

theorem stFinal_eq_false {n : Nat} (h : n ≠ 2 ∧ n ≠ 4 ∧ n ≠ 5) : stFinal n = false := by
  simp [stFinal, stComplete, stCancelled, stFaulted, h]

/-- While another child is outstanding the entry goes on. -/
theorem childEnded_goesOn {bad : Bool} {fuel k : Nat} {p : Package} (h : 2 ≤ (p.counter k).outstanding) :
    childEnded bad (fuel + 1) k p = p.setCounter k ((p.counter k).less bad) := by
  have : ¬ (p.counter k).outstanding - 1 = 0 := by omega
  unfold childEnded
  simp [this, Counter.less]

/-- An entry of a level above the graphs goes on in any case: phases end at their boundary. -/
theorem childEnded_above {bad : Bool} {fuel k : Nat} {p : Package} (h2 : (p.counter k).level ≠ 2) (h3 : (p.counter k).level ≠ 3) :
    childEnded bad (fuel + 1) k p = p.setCounter k ((p.counter k).less bad) := by
  unfold childEnded
  simp [h2, h3, Counter.less]

/-- The last child ends a launch or a graph, and its parent follows. -/
theorem childEnded_last {bad : Bool} {fuel k up : Nat} {p : Package} (ho : (p.counter k).outstanding = 1) (hl : (p.counter k).level = 2 ∨ (p.counter k).level = 3)
    (hs : stFinal (p.counter k).state = false) (hp : (p.counter k).parent = some up) :
    let d := (p.counter k).less bad
    childEnded bad (fuel + 1) k p = childEnded (d.fin != 2) fuel up (p.setCounter k { d with state := d.fin, live := false }) := by
  have hl : ((p.counter k).level == 2 || (p.counter k).level == 3) = true := by simpa using hl
  simp only [childEnded, ho, hs, hp, hl, Counter.less, Counter.fin, stCancelling, stCancelled, stComplete, stFaulted, beq_iff_eq]
  rfl

/-! ### Graphs follow their launches (R28) -/

/-- Where every launch has started none is given up. -/
theorem skipLaunches_started (es : List (Nat × Nat)) {ls : List Launch} (h : ∀ x ∈ ls, x.st ≠ 0) : skipLaunches es ls = ls := by
  unfold skipLaunches
  rw [List.map_congr_left (g := Prod.fst), List.map_fst_zip (by simp)]
  intro x hx
  simp [h x.1 (List.of_mem_zip hx).1]

theorem skipAll_started (es : List (Nat × Nat)) (n : Nat) {ls : List Launch} (h : ∀ x ∈ ls, x.st ≠ 0) : skipAll es n ls = ls := by
  induction n with
  | zero => rfl
  | succ n ih => rw [skipAll, skipLaunches_started es h, ih]

theorem Launch.ended_started (p : Package) {l : Launch} (h : l.st ≠ 0) : (l.ended p).st ≠ 0 := by
  unfold Launch.ended
  dsimp only
  split
  · exact h
  · split
    · dsimp only; split <;> decide
    · exact h

/-- A graph whose launches have all started changes no counter. -/
theorem settleGraph_counters (p : Package) {g : Graph} (h : ∀ x ∈ g.launches, x.st ≠ 0) : (settleGraph p g).counters = p.counters := by
  have hs : ∀ x ∈ g.launches.map (Launch.ended p), x.st ≠ 0 := by
    intro x hx
    obtain ⟨l, hl, rfl⟩ := List.mem_map.1 hx
    exact Launch.ended_started p (h l hl)
  unfold settleGraph
  dsimp only
  rw [skipAll_started _ _ hs, Nat.sub_self]
  rfl

theorem settle_counters {p : Package} (h : ∀ g ∈ p.graphs, ∀ x ∈ g.launches, x.st ≠ 0) : p.settle.counters = p.counters := by
  have hf : ∀ (gs : List Graph) (q : Package), (∀ g ∈ gs, ∀ x ∈ g.launches, x.st ≠ 0) → (gs.foldl settleGraph q).counters = q.counters := by
    intro gs
    induction gs with
    | nil => exact fun _ _ => rfl
    | cons g gs ih =>
      intro q hq
      exact (ih _ fun g hg => hq g (List.mem_cons_of_mem _ hg)).trans (settleGraph_counters q (hq g List.mem_cons_self))
  exact hf p.graphs p h

/-- A child's end changes counters only. -/
theorem childEnded_frame (bad : Bool) (fuel k : Nat) (p : Package) : childEnded bad fuel k p = { p with counters := (childEnded bad fuel k p).counters } := by
  induction fuel generalizing bad k p with
  | zero => rfl
  | succ fuel ih =>
    unfold childEnded
    dsimp only
    split
    · split
      · rw [ih]; rfl
      · rfl
    · rfl

/-- A unit's entry with its final state, before its launch follows: it is parked no more, and has left the barriers. -/
def Package.unitOver (p : Package) (k fin : Nat) : Package :=
  { p.setCounter k { p.counter k with state := fin, outstanding := 0, live := false } with
    parked := p.parked.filter fun x => fld x.bind 40 12 != k
    bars := p.bars.map fun b => (b.1, b.2.leave k) }

@[simp] theorem Package.counter_unitOver (p : Package) (k fin j : Nat) :
    (p.unitOver k fin).counter j = if j = k then { p.counter k with state := fin, outstanding := 0, live := false } else p.counter j :=
  Package.counter_setCounter p k j _

/-- An open unit ends, and its launch has one child less. -/
theorem endUnit_open {p : Package} {k l fin : Nat} (hl : (p.counter k).live = true) (hs : stFinal (p.counter k).state = false)
    (hp : (p.counter k).parent = some l) : p.endUnit k fin = (childEnded (fin != 2) 3 l (p.unitOver k fin)).settle := by
  refine (if_pos (by simp [hl, hs])).trans ?_
  show (match (p.counter k).parent with | some up => (childEnded (fin != 2) 3 up (p.unitOver k fin)).settle | none => p.unitOver k fin) = _
  rw [hp]

/-- Where every launch has started, the counters after a unit's end are those after the last child's end. -/
theorem endUnit_counters {p : Package} {k l fin : Nat} (hl : (p.counter k).live = true) (hs : stFinal (p.counter k).state = false)
    (hp : (p.counter k).parent = some l) (hst : ∀ g ∈ p.graphs, ∀ x ∈ g.launches, x.st ≠ 0) :
    (p.endUnit k fin).counter = (childEnded (fin != 2) 3 l (p.unitOver k fin)).counter := by
  have hg : (childEnded (fin != 2) 3 l (p.unitOver k fin)).graphs = p.graphs := by rw [childEnded_frame]; rfl
  have h : (p.endUnit k fin).counters = (childEnded (fin != 2) 3 l (p.unitOver k fin)).counters := by
    rw [endUnit_open hl hs hp, settle_counters]
    rw [hg]; exact hst
  funext j
  rw [Package.counter, h]; rfl

/-! ### The end of a phase (R27 to R29) -/

/-- The counters after later phases have been dropped, and the job's phases with them. -/
theorem dropPhases_counter {p : Package} (f : Phase → Bool) (hg : p.graphs = []) {i : Nat} (hi : ∀ x ∈ p.phases, f x = true → x.ctr ≠ i) :
    (p.dropPhases f).counter i = p.counter i := by
  have hf : ∀ (gone : List Phase) (q : Package), q.graphs = [] → (∀ x ∈ gone, x.ctr ≠ i) →
      (gone.foldl (fun p x => (p.graphs.filter fun g => g.phase == x.ctr).foldl (fun p g =>
        if (p.counter g.ctr).live then p.release g.ctr stCancelled else p) (p.release x.ctr stCancelled)) q).counter i = q.counter i := by
    intro gone
    induction gone with
    | nil => exact fun _ _ _ => rfl
    | cons x gone ih =>
      intro q hq hx
      rw [List.foldl_cons, hq, List.filter_nil, List.foldl_nil, ih (q.release x.ctr stCancelled) hq fun y hy => hx y (List.mem_cons_of_mem _ hy)]
      exact (Package.counter_setCounter ..).trans (if_neg (Ne.symm (hx x List.mem_cons_self)))
  exact hf _ p hg fun x hx => hi x (List.mem_filter.1 hx).1 (List.mem_filter.1 hx).2

end Sys2Proof.Machine
end

section
/-! PROOFS. The end of a counter goes up through launch, graph, phase and job (O42). -/

namespace Sys2Proof.Machine

/-! ### A unit's end (R26 to R28) -/

section
variable {p : Package} {k l fin : Nat} (hl : (p.counter k).live = true) (hs : stFinal (p.counter k).state = false) (hp : (p.counter k).parent = some l) (hkl : k ≠ l)
  (hst : ∀ g ∈ p.graphs, ∀ x ∈ g.launches, x.st ≠ 0)
include hl hs hp hkl hst

/-- The launch of an ended unit goes on while another unit of it is outstanding. -/
theorem endUnit_goesOn (ho : 2 ≤ (p.counter l).outstanding) (j : Nat) : (p.endUnit k fin).counter j =
    if j = l then (p.counter l).less (fin ≠ 2) else if j = k then { p.counter k with state := fin, outstanding := 0, live := false } else p.counter j := by
  have hu : (p.unitOver k fin).counter l = p.counter l := by simp [hkl.symm]
  rw [endUnit_counters hl hs hp hst, childEnded_goesOn (by rwa [hu]), Package.counter_setCounter, hu, Counter.less_bne, Package.counter_unitOver]

/-- The last unit ends its launch, and the launch's graph goes on. -/
theorem endUnit_last {g : Nat} (ho : (p.counter l).outstanding = 1) (hv : (p.counter l).level = 2) (hd : stFinal (p.counter l).state = false)
    (hg : (p.counter l).parent = some g) (hgk : g ≠ k) (hgl : g ≠ l) (hog : 2 ≤ (p.counter g).outstanding) (j : Nat) :
    let d := (p.counter l).less (fin ≠ 2)
    (p.endUnit k fin).counter j = if j = g then (p.counter g).less (d.fin ≠ 2) else if j = l then { d with state := d.fin, live := false }
      else if j = k then { p.counter k with state := fin, outstanding := 0, live := false } else p.counter j := by
  have hu : (p.unitOver k fin).counter l = p.counter l := by simp [hkl.symm]
  intro d
  have hw (x : Counter) : ((p.unitOver k fin).setCounter l x).counter g = p.counter g := by simp [hgl, hgk]
  rw [endUnit_counters hl hs hp hst, childEnded_last (by rw [hu, ho]) (by rw [hu]; exact .inl hv) (by rw [hu, hd]) (by rw [hu, hg]), hu, Counter.less_bne,
    childEnded_goesOn (by rwa [hw]), hw, Counter.less_bne, Package.counter_setCounter, Package.counter_setCounter, Package.counter_unitOver]

end

/-! ### A phase's end (R27 to R29) -/

/-- The phase has ended, and its job has one child less; what the job does then is left to say. -/
def Package.phaseOver (p : Package) (k j fin : Nat) : Package :=
  childEnded (fin != 2) 1 j { p.release k fin with phases := p.phases.filter fun f => f.ctr != k, graphs := p.graphs.filter fun g => g.phase != k }

/-- What the end of a phase does is decided by its state and its job's. -/
theorem phaseEnded_eq (p : Package) (k j fin : Nat) : p.phaseEnded k j fin =
    let q := p.phaseOver k j fin
    if (q.counter j).state == 3 || fin == 5 then (q.dropPhases fun f => f.job == j).endJob j (if (q.counter j).state == 3 then 4 else 5)
    else match q.phases.find? fun f => f.job == j with
      | some f => q.startPhase f.ctr
      | none => q.jobDone j := rfl

theorem endJob_of_host {p : Package} {j fin : Nat} (h : ∀ y ∈ p.jobs, y.ctr = j → y.service = false) :
    p.endJob j fin = p.setCounter j { p.counter j with state := fin, outstanding := 0 } := by
  refine if_neg ?_
  rw [List.any_eq_true]
  rintro ⟨y, hy, hs⟩
  simp only [Bool.and_eq_true, beq_iff_eq] at hs
  rw [h y hy hs.1] at hs
  exact absurd hs.2 (by decide)

theorem dropPhases_rest (p : Package) (f : Phase → Bool) :
    (p.dropPhases f).jobs = p.jobs ∧ (p.dropPhases f).phases = p.phases.filter fun x => !f x := by
  have h := foldl_keeps (f := fun (p : Package) (x : Phase) => (p.graphs.filter fun g => g.phase == x.ctr).foldl (fun p g =>
    if (p.counter g.ctr).live then p.release g.ctr stCancelled else p) (p.release x.ctr stCancelled)) (fun q => (q.jobs, q.phases))
    (fun q x => (foldl_keeps (fun q : Package => (q.jobs, q.phases)) (fun q g => by split <;> rfl) _ (q.release x.ctr stCancelled)).trans rfl) (p.phases.filter f) p
  exact ⟨congrArg Prod.fst h, congrArg (fun x => x.2.filter fun y => !f y) h⟩

theorem setCounter_phases (p : Package) (k : Nat) (c : Counter) : (p.setCounter k c).phases = p.phases := rfl

/-- A phase that starts, before its graphs do: its counter runs where it has waited, and the phase is marked. -/
def Package.phaseBegun (p : Package) (k : Nat) : Package :=
  { (if (p.counter k).state = 0 then p.setState k 1 else p) with phases := p.phases.map fun f => if f.ctr == k then { f with started := true } else f }

theorem phaseBegun_counter (p : Package) (k i : Nat) :
    (p.phaseBegun k).counter i = if (p.counter k).state = 0 ∧ i = k then { p.counter k with state := 1 } else p.counter i := by
  have h : (p.phaseBegun k).counter i = (if (p.counter k).state = 0 then p.setState k 1 else p).counter i := rfl
  rw [h]
  by_cases hs : (p.counter k).state = 0
  · rw [if_pos hs, Package.setState, Package.counter_setCounter]
    simp only [hs, true_and]
  · rw [if_neg hs, if_neg fun x => hs x.1]

theorem startPhase_of_empty {p : Package} (hg : p.graphs = []) (k : Nat) : p.startPhase k = (p.phaseBegun k).readied := by
  have hgr : (p.phaseBegun k).graphs = [] := by
    show (if (p.counter k).state = 0 then p.setState k 1 else p).graphs = []
    rw [apply_ite Package.graphs]
    exact (if_congr Iff.rfl hg hg).trans (ite_self _)
  have hph : p.phases = (if (p.counter k).state = 0 then p.setState k 1 else p).phases := by split <;> rfl
  have h : p.startPhase k = (((p.phaseBegun k).graphs.filter fun g => g.phase == k && ((p.phaseBegun k).counter g.ctr).state == stWaiting).foldl
      (fun p g => p.startGraph g.ctr) (p.phaseBegun k)).readied := by
    unfold Package.phaseBegun
    rw [hph]
    rfl
  rw [h, hgr]
  rfl

/-- A job's end changes no counter but its own. -/
theorem jobDone_counter_of_ne {p : Package} {j i : Nat} (hn : ∀ y ∈ p.jobs, y.ctr = j → y.service = false) (hi : i ≠ j) : (p.jobDone j).counter i = p.counter i := by
  unfold Package.jobDone
  dsimp only
  rw [endJob_of_host hn]
  split
  · exact (Package.counter_setCounter ..).trans (if_neg hi)
  · rfl

section
variable {p : Package} {k j fin : Nat} {ph : Phase} {later : List Phase} (hkj : k ≠ j) (hv : (p.counter j).level = 5) (hph : p.phases = ph :: later) (hk : ph.ctr = k)
  (hlater : ∀ f ∈ later, f.ctr ≠ k ∧ f.ctr ≠ j ∧ f.job = j) (hg : p.graphs = [])

include hkj hv in
theorem phaseOver_counter (i : Nat) : (p.phaseOver k j fin).counter i = if i = j then (p.counter j).less (fin ≠ 2)
    else if i = k then { p.counter k with state := fin, outstanding := 0, live := false } else p.counter i := by
  let q : Package := { p.release k fin with phases := p.phases.filter fun f => f.ctr != k, graphs := p.graphs.filter fun g => g.phase != k }
  have hq (i : Nat) : q.counter i = if i = k then { p.counter k with state := fin, outstanding := 0, live := false } else p.counter i := Package.counter_setCounter p k i _
  have hj : q.counter j = p.counter j := (hq j).trans (if_neg hkj.symm)
  show (childEnded (fin != 2) 1 j q).counter i = _
  rw [childEnded_above (by rw [hj, hv]; decide) (by rw [hj, hv]; decide), Package.counter_setCounter, hj, hq, Counter.less_bne]

include hph hk hlater in
theorem phaseOver_phases : (p.phaseOver k j fin).phases = later := by
  unfold Package.phaseOver
  rw [childEnded_frame]
  show p.phases.filter (fun f => f.ctr != k) = later
  rw [hph, List.filter_cons_of_neg (by simp [hk]), List.filter_eq_self.2 fun f hf => by simpa using (hlater f hf).1]

include hg in
theorem phaseOver_rest : (p.phaseOver k j fin).graphs = [] ∧ (p.phaseOver k j fin).jobs = p.jobs := by
  unfold Package.phaseOver
  rw [childEnded_frame]
  exact ⟨by rw [hg]; rfl, rfl⟩

variable (hn : ∀ y ∈ p.jobs, y.ctr = j → y.service = false)
include hkj hv hph hk hlater hg hn

/-- A phase that ends FAULTED, or whose job is being cancelled, ends the job and drops its later phases. -/
theorem phaseEnded_stops (h : (p.counter j).state = 3 ∨ fin = 5) : let q := p.phaseEnded k j fin
    q.phases = [] ∧ q.counter j = { (p.counter j).less (fin ≠ 2) with state := if (p.counter j).state = 3 then 4 else 5, outstanding := 0 } := by
  have hc := phaseOver_counter (fin := fin) hkj hv
  have hphs := phaseOver_phases (j := j) (fin := fin) hph hk hlater
  obtain ⟨hgr, hjb⟩ := phaseOver_rest (p := p) (k := k) (j := j) (fin := fin) hg
  have hcj : (p.phaseOver k j fin).counter j = (p.counter j).less (fin ≠ 2) := (hc j).trans (if_pos rfl)
  have hdrop (i : Nat) (hi : ∀ x ∈ later, x.ctr ≠ i) : ((p.phaseOver k j fin).dropPhases fun f => f.job == j).counter i = (p.phaseOver k j fin).counter i :=
    dropPhases_counter _ hgr fun x hx _ => hi x (by rwa [hphs] at hx)
  have hjobs : ((p.phaseOver k j fin).dropPhases fun f => f.job == j).jobs = p.jobs := by rw [(dropPhases_rest ..).1, hjb]
  intro q
  have hq : q = ((p.phaseOver k j fin).dropPhases fun f => f.job == j).setCounter j
      { (p.counter j).less (fin ≠ 2) with state := if (p.counter j).state = 3 then 4 else 5, outstanding := 0 } := by
    show p.phaseEnded k j fin = _
    rw [phaseEnded_eq]
    dsimp only
    rw [if_pos (by rw [hcj]; simpa [Counter.less] using h), endJob_of_host (by rwa [hjobs]), hdrop j fun x hx => (hlater x hx).2.1, hcj]
    simp only [beq_iff_eq]
    rfl
  rw [hq]
  refine ⟨?_, (Package.counter_setCounter ..).trans (if_pos rfl)⟩
  · rw [setCounter_phases, (dropPhases_rest ..).2, hphs, List.filter_eq_nil_iff]
    intro f hf
    simp [(hlater f hf).2.2]

/-- The last phase of a closed job that runs ends it. -/
theorem phaseEnded_last {x : Job} (hl : (p.counter j).live = true) (hs : (p.counter j).state = 1) (hf : fin ≠ 5) (hx : (p.jobs.find? fun y => y.ctr == j) = some x)
    (hc : x.closed = true) (he : later = []) : let q := p.phaseEnded k j fin
    let d := (p.counter j).less (fin ≠ 2)
    q.phases = [] ∧ q.counter j = { d with state := if d.failed = 0 then 2 else 5, outstanding := 0 } := by
  have hcn := phaseOver_counter (fin := fin) hkj hv
  have hcj : (p.phaseOver k j fin).counter j = (p.counter j).less (fin ≠ 2) := (hcn j).trans (if_pos rfl)
  have hphs : (p.phaseOver k j fin).phases = [] := (phaseOver_phases (j := j) (fin := fin) hph hk hlater).trans he
  obtain ⟨-, hjb⟩ := phaseOver_rest (p := p) (k := k) (j := j) (fin := fin) hg
  intro q d
  have hq : q = (p.phaseOver k j fin).setCounter j { d with state := if d.failed = 0 then 2 else 5, outstanding := 0 } := by
    show p.phaseEnded k j fin = _
    rw [phaseEnded_eq]
    dsimp only
    rw [if_neg (by rw [hcj]; simp [Counter.less, hs, hf]), hphs, List.find?_nil]
    dsimp only
    rw [jobDone_last (x := x) (by rw [hcj]; exact hl) (by rw [hcj]; exact hv) (by rw [hcj]; exact hs) (by rw [hjb]; exact hx) hc (by simp [hphs])
      (by rwa [hjb]), hcj]
  rw [hq]
  exact ⟨hphs, (Package.counter_setCounter ..).trans (if_pos rfl)⟩

omit hn in
/-- The next phase of a job that runs starts after one that has ended COMPLETE. -/
theorem phaseEnded_next {f : Phase} {rest : List Phase} (hs : (p.counter j).state = 1) (hf : fin = 2) (he : later = f :: rest)
    (hw : (p.counter f.ctr).state = 0) (hr : ∀ y ∈ rest, y.ctr ≠ f.ctr) : let q := p.phaseEnded k j fin
    q.counter j = { p.counter j with outstanding := (p.counter j).outstanding - 1 } ∧ q.counter f.ctr = { p.counter f.ctr with state := 1 } ∧
      q.phases = { f with started := true } :: rest := by
  have hc := phaseOver_counter (fin := fin) hkj hv
  have hcj : (p.phaseOver k j fin).counter j = (p.counter j).less (fin ≠ 2) := (hc j).trans (if_pos rfl)
  obtain ⟨hfk, hfj, hjob⟩ := hlater f (by simp [he])
  have hcf : (p.phaseOver k j fin).counter f.ctr = p.counter f.ctr := by rw [hc, if_neg hfj, if_neg hfk]
  have hphs : (p.phaseOver k j fin).phases = f :: rest := (phaseOver_phases (j := j) (fin := fin) hph hk hlater).trans he
  obtain ⟨hgr, -⟩ := phaseOver_rest (p := p) (k := k) (j := j) (fin := fin) hg
  intro q
  have hq : q = (p.phaseOver k j fin).startPhase f.ctr := by
    show p.phaseEnded k j fin = _
    rw [phaseEnded_eq]
    dsimp only
    rw [if_neg (by rw [hcj]; simp [Counter.less, hs, hf]), hphs, List.find?_cons_of_pos (by simp [hjob])]
  have hb (i : Nat) : q.counter i = if i = f.ctr then { p.counter f.ctr with state := 1 } else (p.phaseOver k j fin).counter i := by
    rw [hq, startPhase_of_empty hgr]
    exact (phaseBegun_counter ..).trans (by simp only [hcf, hw, true_and])
  refine ⟨?_, (hb _).trans (if_pos rfl), ?_⟩
  · rw [hb, if_neg hfj.symm, hcj, hf]
    rfl
  · rw [hq, startPhase_of_empty hgr]
    show (p.phaseOver k j fin).phases.map (fun x => if x.ctr == f.ctr then { x with started := true } else x) = _
    rw [hphs, List.map_cons, List.map_congr_left (g := id) fun y hy => by simp [hr y hy], List.map_id]
    simp

/-- The phase's own counter is final in every case. -/
theorem phaseEnded_self : (p.phaseEnded k j fin).counter k = { p.counter k with state := fin, outstanding := 0, live := false } := by
  have hc : (p.phaseOver k j fin).counter k = { p.counter k with state := fin, outstanding := 0, live := false } := by
    rw [phaseOver_counter hkj hv, if_neg hkj, if_pos rfl]
  have hphs := phaseOver_phases (j := j) (fin := fin) hph hk hlater
  obtain ⟨hgr, hjb⟩ := phaseOver_rest (p := p) (k := k) (j := j) (fin := fin) hg
  rw [phaseEnded_eq, ← hc]
  dsimp only
  split
  · rw [endJob_of_host (by rwa [(dropPhases_rest ..).1, hjb]), Package.counter_setCounter, if_neg hkj]
    exact dropPhases_counter _ hgr fun x hx _ => (hlater x (by rwa [hphs] at hx)).1
  · split
    · next f hf =>
      rw [startPhase_of_empty hgr]
      exact (phaseBegun_counter ..).trans (if_neg fun h => (hlater f (hphs ▸ List.mem_of_find?_eq_some hf)).1 h.2.symm)
    · exact jobDone_counter_of_ne (by rwa [hjb]) hkj

end

/-- Settles O42: a unit's end by the two cases of its launch's outstanding units, a phase's by its state and its job's. -/
theorem countersFollow : Obligations.CountersFollow := by
  unfold Obligations.CountersFollow
  refine ⟨?_, ?_⟩
  · intro p k l fin c d q less open' hl hs hp hkl hv hd hst
    refine ⟨fun ho => ?_, fun g ho hg hgk hgl hvg hog => ?_⟩
    · have h := endUnit_goesOn (fin := fin) hl (stFinal_eq_false hs) hp hkl hst ho
      refine ⟨(h k).trans (by rw [if_neg hkl, if_pos rfl]), (h l).trans (if_pos rfl), fun j hjk hjl => (h j).trans ?_⟩
      rw [if_neg hjl, if_neg hjk]
    · have h := endUnit_last (fin := fin) hl (stFinal_eq_false hs) hp hkl hst ho hv (stFinal_eq_false hd) hg hgk hgl hog
      refine ⟨(h k).trans ?_, (h l).trans ?_, (h g).trans (if_pos rfl), fun j hjk hjl hjg => (h j).trans ?_⟩
      · rw [if_neg hgk.symm, if_neg hkl, if_pos rfl]
      · rw [if_neg hgl.symm, if_pos rfl]; rfl
      · rw [if_neg hjg, if_neg hjl, if_neg hjk]
  · intro p k j fin x ph later c q failed hkj hl hv _ hph hk hlater _ hg hx hcl hn
    refine ⟨phaseEnded_self hkj hv hph hk hlater hg hn, fun he hs hf => ?_, fun hs hf => ?_, fun hs => ?_, fun f rest he hs hf hw hr => ?_⟩
    · obtain ⟨h1, h2⟩ := phaseEnded_last hkj hv hph hk hlater hg hn hl hs hf hx hcl he
      exact ⟨h2, h1⟩
    · obtain ⟨h1, h2⟩ := phaseEnded_stops hkj hv hph hk hlater hg hn (.inr hf)
      exact ⟨h2.trans (by rw [if_neg (hs.trans_ne (by decide))]; rfl), h1⟩
    · obtain ⟨h1, h2⟩ := phaseEnded_stops (fin := fin) hkj hv hph hk hlater hg hn (.inl hs)
      exact ⟨h2.trans (by rw [if_pos hs]; rfl), h1⟩
    · exact phaseEnded_next hkj hv hph hk hlater hg hs hf he hw hr

end Sys2Proof.Machine
end

section
/-! SUPPORT. Free entries of the counter table, the entries that a phase and a graph take, and the start of a launch, said once. -/

namespace Sys2Proof.Machine

/-! ### Free entries (R26) -/

/-- An entry of the counter table is free. -/
def State.freeAt (s : State) (k : Nat) : Prop := (s.pkg.counter k).live = false ∧ s.watched k = false

/-- The entry that is taken is the lowest free one. -/
theorem freeEntry_iff (s : State) (k : Nat) : s.freeEntry = some k ↔ k < 4096 ∧ s.freeAt k ∧ ∀ i < k, ¬ s.freeAt i := by
  unfold State.freeEntry State.freeAt
  rw [List.find?_range_eq_some]
  simp only [Bool.and_eq_true, Bool.not_eq_true', Bool.not_and, Bool.not_not, Bool.or_eq_true, List.mem_range, not_and, Bool.not_eq_false]
  rw [and_left_comm]
  refine and_congr_right fun _ => and_congr_right fun _ => forall₂_congr fun i _ => ?_
  cases (s.pkg.counter i).live <;> simp

/-- What the taking of an entry leaves of the counters. -/
theorem allocAt_counter (p : Package) (k state level outstanding : Nat) (parent : Option Nat) (job i : Nat) :
    (p.allocAt k state level outstanding parent job).counter i =
      if i = k then ⟨true, ((p.counter k).gen + 1) % 4096, state, level, 0, outstanding, parent, job, 0⟩ else p.counter i :=
  Package.counter_setCounter p k i _

/-- A parent with one child more outstanding. -/
def Counter.more (c : Counter) : Counter := { c with outstanding := c.outstanding + 1 }

/-! ### GRAPH (R21, R22, R352) -/

/-- A phase has taken an entry for its job; the first of a job runs at once. -/
def Package.phaseAdded (p : Package) (j k : Nat) : Package :=
  let first := !p.phases.any fun f => f.job == j
  let q := p.allocAt k (if first then stRunning else stWaiting) 4 0 (some j) j
  { q.setCounter j (q.counter j).more with phases := p.phases ++ [⟨k, j, false, first, false⟩] }

theorem addPhase_eq {s : State} {j k : Nat} (h : s.freeEntry = some k) : s.addPhase j = some (s.pkgd fun p => p.phaseAdded j k) := by
  unfold State.addPhase
  rw [h]
  rfl

theorem phaseAdded_counter {p : Package} {j k : Nat} (hjk : j ≠ k) (i : Nat) : (p.phaseAdded j k).counter i =
    if i = j then (p.counter j).more
    else if i = k then ⟨true, ((p.counter k).gen + 1) % 4096, if !p.phases.any fun f => f.job == j then 1 else 0, 4, 0, 0, some j, j, 0⟩ else p.counter i := by
  have h : (p.phaseAdded j k).counter i = ((p.allocAt k (if !p.phases.any fun f => f.job == j then stRunning else stWaiting) 4 0 (some j) j).setCounter j
      ((p.allocAt k (if !p.phases.any fun f => f.job == j then stRunning else stWaiting) 4 0 (some j) j).counter j).more).counter i := rfl
  rw [h, Package.counter_setCounter, allocAt_counter, allocAt_counter, if_neg hjk]
  rfl

/-- After a phase has taken its entry every other one is as free as before. -/
theorem freeAt_phaseAdded {s : State} {j k : Nat} (hl : (s.pkg.counter j).live = true) (hjk : j ≠ k) (i : Nat) :
    (s.pkgd fun p => p.phaseAdded j k).freeAt i ↔ s.freeAt i ∧ i ≠ k := by
  show (((s.pkg.phaseAdded j k).counter i).live = false ∧ s.watched i = false) ↔ ((s.pkg.counter i).live = false ∧ s.watched i = false) ∧ i ≠ k
  rw [phaseAdded_counter hjk]
  by_cases hij : i = j
  · rw [if_pos hij, hij, Counter.more, hl]
    simp
  · rw [if_neg hij]
    by_cases hik : i = k
    · rw [if_pos hik]
      simp [hik]
    · rw [if_neg hik]
      simp [hik]

/-- A graph has taken an entry in its phase, and is still to start. -/
def Package.graphPlaced (p : Package) (f : Phase) (ls : List Launch) (es : List (Nat × Nat)) (k : Nat) : Package :=
  let q := p.allocAt k stWaiting 3 ls.length (some f.ctr) f.job
  { q.setCounter f.ctr (q.counter f.ctr).more with graphs := p.graphs ++ [⟨k, f.job, f.ctr, ls.map (Launch.withLoft (p.unitsOf f.job)), es⟩] }

/-- A graph has joined its phase, and runs where that does. -/
def Package.graphAdded (p : Package) (f : Phase) (ls : List Launch) (es : List (Nat × Nat)) (k : Nat) : Package :=
  if f.started then ((p.graphPlaced f ls es k).startGraph k).readied else p.graphPlaced f ls es k

theorem addGraph_eq {s : State} {k : Nat} (h : s.freeEntry = some k) (f : Phase) (ls : List Launch) (es : List (Nat × Nat)) :
    s.addGraph f ls es = some (k, s.pkgd fun p => p.graphAdded f ls es k) := by
  unfold State.addGraph
  rw [h]
  rfl

theorem graphPlaced_counter {p : Package} {f : Phase} {k : Nat} (hk : f.ctr ≠ k) (ls : List Launch) (es : List (Nat × Nat)) (i : Nat) :
    (p.graphPlaced f ls es k).counter i = if i = f.ctr then (p.counter f.ctr).more
      else if i = k then ⟨true, ((p.counter k).gen + 1) % 4096, 0, 3, 0, ls.length, some f.ctr, f.job, 0⟩ else p.counter i := by
  have h : (p.graphPlaced f ls es k).counter i = ((p.allocAt k stWaiting 3 ls.length (some f.ctr) f.job).setCounter f.ctr
      ((p.allocAt k stWaiting 3 ls.length (some f.ctr) f.job).counter f.ctr).more).counter i := rfl
  rw [h, Package.counter_setCounter, allocAt_counter, allocAt_counter, if_neg hk]
  rfl

theorem startGraph_of_launches {p : Package} {k : Nat} (h : (p.counter k).outstanding ≠ 0) : p.startGraph k = p.setState k 1 := by
  have : ((p.setState k stRunning).counter k).outstanding = (p.counter k).outstanding := by
    rw [Package.setState, Package.counter_setCounter, if_pos rfl]
  exact if_neg (by rw [this]; exact h)

/-- A graph with launches joins its phase: its entry, its phase's count, and its place among the graphs. -/
theorem graphAdded_spec {p : Package} {f : Phase} {k : Nat} (hk : f.ctr ≠ k) {ls : List Launch} (hls : ls ≠ []) (es : List (Nat × Nat)) :
    let q := p.graphAdded f ls es k
    (∀ i, q.counter i = if i = f.ctr then (p.counter f.ctr).more
      else if i = k then ⟨true, ((p.counter k).gen + 1) % 4096, if f.started then 1 else 0, 3, 0, ls.length, some f.ctr, f.job, 0⟩ else p.counter i) ∧
    q.graphs = p.graphs ++ [⟨k, f.job, f.ctr, ls.map (Launch.withLoft (p.unitsOf f.job)), es⟩] ∧ q.phases = p.phases ∧ q.jobs = p.jobs ∧ q.ring = p.ring := by
  have hc := graphPlaced_counter (p := p) hk ls es
  intro q
  by_cases hf : f.started = true
  · have hq : q = ((p.graphPlaced f ls es k).setState k 1).readied := by
      show p.graphAdded f ls es k = _
      rw [Package.graphAdded, if_pos hf, startGraph_of_launches]
      rw [hc, if_neg hk.symm, if_pos rfl]
      exact fun h => hls (List.length_eq_zero_iff.1 h)
    have hq' (i : Nat) : q.counter i = ((p.graphPlaced f ls es k).setState k 1).counter i := by rw [hq]; rfl
    refine ⟨fun i => ?_, by rw [hq]; rfl, by rw [hq]; rfl, by rw [hq]; rfl, by rw [hq]; rfl⟩
    rw [hq', Package.setState, Package.counter_setCounter, hc, hc, if_neg hk.symm, if_pos rfl]
    by_cases hi : i = k
    · rw [if_pos hi, if_neg (hi ▸ hk.symm), if_pos hi, if_pos hf]
    · rw [if_neg hi, if_neg hi, if_neg hi]
  · have hq : q = p.graphPlaced f ls es k := if_neg hf
    rw [hq]
    exact ⟨fun i => (hc i).trans (by rw [if_neg hf]), rfl, rfl, rfl, rfl⟩

/-- A launch of a unit with a Loft image names it (R336). -/
theorem withLoft_eq (us : List UnitImg) (l : Launch) : l.withLoft us = match us.find? fun u => u.entry == wfld (l.words.getD 0 0) 0 56 with
    | some u => (match u.loft with | some x => { l with words := l.words.take 3 ++ BitVec.ofNat 64 x.addr :: l.words.drop 4 } | none => l)
    | none => l := by
  have h : (us.find? fun u => u.entry == wfld (l.words.getD 0 0) 0 56) = us.find? fun u => u.entry == fld (l.word 0) 0 56 := rfl
  unfold Launch.withLoft
  rw [← h]
  cases us.find? fun u => u.entry == wfld (l.words.getD 0 0) 0 56 <;> rfl

/-! ### LAUNCH_START (R22, R26, R318) -/

/-- One place of a list has been replaced, written as an update of every place. -/
theorem map_zip_range_set {α : Type} (l : List α) (i : Nat) (y : α) : ((l.zip (List.range l.length)).map fun x => if x.2 == i then y else x.1) = l.set i y := by
  refine List.ext_getElem (by simp) fun n h1 h2 => ?_
  simp only [List.getElem_map, List.getElem_zip, List.getElem_range, List.getElem_set, beq_iff_eq]
  exact if_congr eq_comm rfl rfl

/-- The start of a launch that is ready: its entry, its record, and its place in its graph. -/
theorem launchStart_eq {s : State} {gctr i k : Nat} {g : Graph} {l : Launch} (hu : s.hearthUp = true) (hg : (s.pkg.graphs.find? fun g => g.ctr == gctr) = some g)
    (hl : g.launches[i]? = some l) (hm : s.pkg.mayStart g i = true) (he : s.pkg.entryFor gctr i = true) (hk : s.freeEntry = some k) :
    let p := s.pkg.allocAt k (if l.gang then (if l.units ≤ (s.jobCores g.job).length then 0 else 6) else 1) 2 l.units (some gctr) g.job
    s.launchStart gctr i = some { s with pkg := { p with
      graphs := p.graphs.map fun x => if x.ctr = gctr then { g with launches := g.launches.set i { l with st := 1, ref := some (p.ref k % 2 ^ 24) } } else x
      launches := put p.launches k l.words } } := by
  unfold State.launchStart
  rw [hg]
  dsimp only
  rw [hl, hk]
  dsimp only
  rw [if_neg (by rw [hu, hm, he]; decide)]
  simp only [map_zip_range_set]
  simp only [beq_iff_eq]
  rfl

end Sys2Proof.Machine
end

section
/-! PROOFS. Graphs and their launches start (O44). -/

namespace Sys2Proof.Machine

/-- The launches of a descriptor fit their partition: of a gang every unit has a core of its own. -/
theorem gangs_fit_iff (ls : List Launch) (n : Nat) : (ls.any fun l => l.gang && n < l.units) = false ↔ ∀ l ∈ ls, l.gang = true → l.units ≤ n := by
  simp

section
variable {s : State} {j : Job} (hr : s.ringReady = true) (hop : s.ringOp = 2)
include hr hop

theorem readGraph_noJob (hj : s.ringJob = none) : s.readGraph = some (s.ringDone 4 0) := by
  unfold State.readGraph
  rw [if_neg (by simp [hr, hop]), hj]
  rfl

variable (hj : s.ringJob = some j)
include hj

/-- What a GRAPH entry of a job that takes entries ends with. -/
theorem readGraph_some : s.readGraph =
    let ls := s.descLaunches (s.ringWord 2)
    let es := s.descEdges (s.ringWord 2)
    let ph := s.pkg.openPhase j.ctr
    let full := ph.any fun f => 256 ≤ (s.pkg.graphs.filter fun g => g.phase == f.ctr).length || (s.pkg.counter f.ctr).state == 3
    if s.ringRsvd || graphBad ls es || full then some (s.ringDone 4 0)
    else if ls.any fun l => l.gang && (s.jobCores j.ctr).length < l.units then some (s.ringDone 2 0)
    else if !s.entryRoom (if ph.isSome then 1 else 2) then none
    else (if ph.isSome then some s else s.addPhase j.ctr).bind fun u =>
      ((u.pkg.openPhase j.ctr).bind fun f => u.addGraph f ls es).map fun x => x.2.ringDone 0 x.1 := by
  unfold State.readGraph
  rw [if_neg (by simp [hr, hop]), hj]
  dsimp only
  cases hph : s.pkg.openPhase j.ctr with
  | none => cases hs : s.addPhase j.ctr <;> rfl
  | some f => rfl

end

section
variable {s : State} {j : Job} {k : Nat} (hr : s.ringReady = true) (hop : s.ringOp = 2) (hj : s.ringJob = some j) (hv : s.ringRsvd = false)
  (hb : graphBad (s.descLaunches (s.ringWord 2)) (s.descEdges (s.ringWord 2)) = false)
include hr hop hj hv hb

/-- A gang that the partition cannot hold parks its graph. -/
theorem readGraph_parked (hfull : ∀ f, s.pkg.openPhase j.ctr = some f →
      (256 ≤ (s.pkg.graphs.filter fun g => g.phase == f.ctr).length || (s.pkg.counter f.ctr).state == 3) = false)
    (hf : ¬ ∀ l ∈ s.descLaunches (s.ringWord 2), l.gang = true → l.units ≤ (s.jobCores j.ctr).length) : s.readGraph = some (s.ringDone 2 0) := by
  rw [readGraph_some hr hop hj]
  dsimp only
  rw [if_neg, if_pos]
  · rw [← gangs_fit_iff] at hf
    simpa using hf
  · rw [hv, hb]
    cases hph : s.pkg.openPhase j.ctr with
    | none => simp
    | some f => simp [hfull f hph]

variable (hfit : ∀ l ∈ s.descLaunches (s.ringWord 2), l.gang = true → l.units ≤ (s.jobCores j.ctr).length)
include hfit

/-- A graph joins the open phase of its job. -/
theorem readGraph_joins {f : Phase} (hph : s.pkg.openPhase j.ctr = some f) (hst : (s.pkg.counter f.ctr).state ≠ 3)
    (hn : (s.pkg.graphs.filter fun g => g.phase = f.ctr).length < 256) (hroom : s.entryRoom 1 = true) (hk : s.freeEntry = some k) :
    s.readGraph = some ((s.pkgd fun p => p.graphAdded f (s.descLaunches (s.ringWord 2)) (s.descEdges (s.ringWord 2)) k).ringDone 0 k) := by
  have hlen : ¬ 256 ≤ (s.pkg.graphs.filter fun g => g.phase == f.ctr).length := Nat.not_le.2 hn
  rw [readGraph_some hr hop hj]
  simp only [hv, hb, hph, (gangs_fit_iff _ _).2 hfit, hroom, addGraph_eq hk, Option.any_some, hlen, hst, beq_iff_eq, decide_false, Bool.or_self, Bool.false_or,
    Bool.false_eq_true, if_false, Option.isSome_some, if_true, Bool.not_true, Option.bind_some, Option.map_some]

/-- A graph opens a phase of its job. -/
theorem readGraph_opens {n : Nat} (hph : s.pkg.openPhase j.ctr = none) (hroom : s.entryRoom 2 = true) (hk : s.freeEntry = some k)
    {f : Phase} (hf : (s.pkg.phaseAdded j.ctr k).openPhase j.ctr = some f) (hn : (s.pkgd fun p => p.phaseAdded j.ctr k).freeEntry = some n) :
    s.readGraph = some ((s.pkgd fun p => (p.phaseAdded j.ctr k).graphAdded f (s.descLaunches (s.ringWord 2)) (s.descEdges (s.ringWord 2)) n).ringDone 0 n) := by
  have hf : (s.pkgd fun p => p.phaseAdded j.ctr k).pkg.openPhase j.ctr = some f := hf
  rw [readGraph_some hr hop hj]
  simp only [hv, hb, hph, (gangs_fit_iff _ _).2 hfit, hroom, addPhase_eq hk, Option.any_none, Bool.or_self, Bool.false_eq_true, if_false, Option.isSome_none,
    Bool.not_true, Option.bind_some, Option.map_some, hf, addGraph_eq hn]
  rfl

end

/-- The new phase of a job is its open one where every other is closed. -/
theorem openPhase_phaseAdded {p : Package} {j k : Nat} (h : ∀ f ∈ p.phases, f.job = j → f.closed = true) :
    (p.phaseAdded j k).openPhase j = some ⟨k, j, false, !p.phases.any fun f => f.job == j, false⟩ := by
  show (p.phases ++ ([⟨k, j, false, !p.phases.any fun f => f.job == j, false⟩] : List Phase)).find? (fun f => f.job == j && !f.closed) = _
  rw [List.find?_append, List.find?_eq_none.2]
  · simp
  · intro f hf
    by_cases e : f.job = j
    · simp [h f hf e]
    · simp [e]

theorem openPhase_none {p : Package} {j : Nat} (h : ∀ f ∈ p.phases, f.job = j → f.closed = true) : p.openPhase j = none := by
  refine List.find?_eq_none.2 fun f hf => ?_
  by_cases e : f.job = j
  · simp [h f hf e]
  · simp [e]

/-- Settles O44: a graph by the entries that it and its phase take, a launch by the equation of its start. -/
theorem graphsAndLaunches : Obligations.GraphsAndLaunches := by
  unfold Obligations.GraphsAndLaunches
  intro s j k n ls es units loft free fits one
  refine ⟨fun hu hh hop => ?_, ?_⟩
  · have hr : s.ringReady = true := by simp [State.ringReady, hu, hh]
    have hloft (p : Package) (hp : p.loaded = s.pkg.loaded) : Launch.withLoft (p.unitsOf j.ctr) = loft := by
      funext l
      rw [withLoft_eq, Package.unitsOf, hp]
      rfl
    refine ⟨fun hj => answers_event rfl (readGraph_noJob hr hop hj) (ringRefused_ringDone s 4), fun hj hbad => ?_, fun hj hv hb hls => ⟨fun f hph hst hn => ?_, ?_⟩⟩
    · refine answers_event rfl ((readGraph_some hr hop hj).trans (if_pos ?_)) (ringRefused_ringDone s 4)
      rcases hbad with h | h
      · simp [h]
      · rw [show graphBad (s.descLaunches (s.ringWord 2)) (s.descEdges (s.ringWord 2)) = true from h]; simp
    · have hfj : f.job = j.ctr := by have := List.find?_some hph; simp at this; exact this.1
      refine ⟨fun hfit => ?_, fun hfit hroom hk hfk => ?_⟩
      · refine answers_event rfl (readGraph_parked hr hop hj hv hb (fun f' hf' => ?_) hfit) (ringRefused_ringDone s 2)
        cases Option.some.inj (hph.symm.trans hf')
        simpa using ⟨hn, hst⟩
      · obtain ⟨hc, hg, hp, hjb, hring⟩ := graphAdded_spec (p := s.pkg) hfk hls es
        refine answers_event rfl (readGraph_joins hr hop hj hv hb hfit hph hst hn hroom hk) ?_
        refine ⟨ringDone_ringDone (u := s.pkgd fun p => p.graphAdded f ls es k) hring rfl rfl rfl _ _, ?_, ?_, ?_, ?_, hp, hjb⟩
        · exact (hc k).trans (by rw [if_neg hfk.symm, if_pos rfl])
        · exact (hc f.ctr).trans (if_pos rfl)
        · exact fun i hik hif => (hc i).trans (by rw [if_neg hif, if_neg hik])
        · exact hg.trans (by rw [hfj, hloft _ rfl])
    · intro hclosed hfit hroom hk hn hkn hn4 hfirst
      let first : Bool := !s.pkg.phases.any fun f => f.job == j.ctr
      obtain ⟨hkl, -, -⟩ := (freeEntry_iff s k).1 hk
      obtain ⟨hjl, -, -, -⟩ := ringJob_some hj
      have hjk : j.ctr ≠ k := fun e => by rw [e, ((freeEntry_iff s k).1 hk).2.1.1] at hjl; exact absurd hjl (by decide)
      have hjn : j.ctr ≠ n := fun e => by rw [e, hn.1] at hjl; exact absurd hjl (by decide)
      have hpc := phaseAdded_counter (p := s.pkg) hjk
      have hfree := freeAt_phaseAdded hjl hjk
      have hnext : (s.pkgd fun p => p.phaseAdded j.ctr k).freeEntry = some n :=
        (freeEntry_iff _ n).2 ⟨hn4, (hfree n).2 ⟨hn, hkn.ne'⟩, fun i hi h => hfirst i hi ((hfree i).1 h).2 ((hfree i).1 h).1⟩
      obtain ⟨hc, hg, hp, hjb, hring⟩ := graphAdded_spec (p := s.pkg.phaseAdded j.ctr k) (f := ⟨k, j.ctr, false, first, false⟩) (k := n) hkn.ne hls es
      refine answers_event rfl (readGraph_opens hr hop hj hv hb hfit (openPhase_none hclosed) hroom hk (openPhase_phaseAdded hclosed) hnext) ?_
      refine ⟨ringDone_ringDone (u := s.pkgd fun p => (p.phaseAdded j.ctr k).graphAdded ⟨k, j.ctr, false, first, false⟩ ls es n) hring rfl rfl rfl _ _, hp,
        ?_, ?_, ?_, hg.trans (by rw [← hloft (s.pkg.phaseAdded j.ctr k) rfl]; rfl)⟩
      · exact (hc k).trans (by rw [if_pos rfl, hpc, if_neg hjk.symm, if_pos rfl]; rfl)
      · exact (hc n).trans (by rw [if_neg hkn.ne', if_pos rfl, hpc, if_neg hjn.symm, if_neg hkn.ne'])
      · exact (hc j.ctr).trans (by rw [if_neg hjk, if_neg hjn, hpc, if_pos rfl]; rfl)
  · intro gctr i g l hu hg hl hst hrun hedges hroom hready hk
    have hgc : g.ctr = gctr := by simpa using List.find?_some hg
    have hm : s.pkg.mayStart g i = true := by
      have hrdy : g.ready i = true := by
        unfold Graph.ready
        rw [List.all_eq_true]
        intro e he
        by_cases h : e.2 = i
        · obtain ⟨x, hx, hx2⟩ := hedges e he h
          simp [hx, hx2]
        · simp [h]
      simp [Package.mayStart, hgc, hrun, hl, hst, hrdy, stRunning]
    have he : s.pkg.entryFor gctr i = true := by
      have hro : s.pkg.readied.liveOthers = s.pkg.liveOthers := rfl
      simpa [Package.entryFor, hroom] using hready
    refine answers_event rfl (launchStart_eq hu hg hl hm he hk) ⟨?_, fun i hi => ?_, ?_, rfl, rfl, rfl, rfl⟩
    · exact (allocAt_counter ..).trans (if_pos rfl)
    · exact (allocAt_counter ..).trans (if_neg hi)
    · exact (look_put ..).trans (if_pos rfl)

end Sys2Proof.Machine
end

section
/-! PROOFS. Requests for pre-emption reach bound units, and waiting units age (O49). -/

namespace Sys2Proof.Machine

/-! ### Requests (R117, R322) -/

/-- What an update of every core makes of the cores by their places. -/
theorem mapCores_get {s : State} {f : Core → Core} {k : Nat} {c d : Core} (hc : (s.core :: s.others)[k]? = some c)
    (hd : ((s.mapCores f).core :: (s.mapCores f).others)[k]? = some d) : d = f c := by
  have hd : ((s.core :: s.others).map f)[k]? = some d := hd
  rw [List.getElem?_map, hc] at hd
  exact (Option.some.inj hd).symm

/-- A request reaches the unit where it can take one. -/
theorem requested_requestPre (c : Core) : Requested c c.requestPre := by
  unfold Requested Core.requestPre
  rcases hu : c.fe.unit with - | - | (- | -) | - | - | - | - | - | - <;> cases hp : c.fe.preReq <;> simp

theorem gangMate_iff (b : Nat) (c : Core) :
    GangMate b c ↔ (c.busy && bindGang c.slot.act.toNat && bindLctr c.slot.act.toNat == bindLctr b) = true := by
  simp [GangMate, and_assoc]

/-- A request to the core that moves reaches its unit and that unit's gang. -/
theorem requestReaches_requestPre (s : State) : RequestReaches s s.requestPre := by
  unfold RequestReaches State.requestPre
  dsimp only
  cases hg : bindGang s.core.slot.act.toNat with
  | false => exact ⟨rfl, rfl, rfl, fun _ => ⟨requested_requestPre s.core, rfl⟩, fun h => absurd h (by decide)⟩
  | true =>
    refine ⟨rfl, rfl, List.length_map _, fun h => absurd h (by decide), fun _ k c d hc hd => ?_⟩
    rw [if_pos rfl] at hd
    have hd := mapCores_get hc hd
    rw [gangMate_iff]
    exact ⟨fun h => by rw [hd, if_pos h]; exact requested_requestPre c, fun h => by rw [hd, if_neg h]⟩

/-! ### Ageing (R320) -/

/-- The classes by which a waiting unit has risen. -/
def ageIn (aged : List (Nat × Nat × Nat)) (lctr i : Nat) : Nat := ((aged.find? fun a => a.1 == lctr && a.2.1 == i).map (·.2.2)).getD 0

theorem classOf_eq (s : State) (lctr i : Nat) :
    s.classOf lctr i = ((s.jobAt (s.pkg.counter lctr).job).map (·.cls)).getD 7 - ageIn s.pkg.aged lctr i := rfl

/-- What a unit's new age leaves of the ages of all. -/
theorem ageIn_raised (aged : List (Nat × Nat × Nat)) (l i n x y : Nat) :
    ageIn ((l, i, n) :: aged.filter fun a => !(a.1 == l && a.2.1 == i)) x y = if x = l ∧ y = i then n else ageIn aged x y := by
  unfold ageIn
  by_cases h : x = l ∧ y = i
  · obtain ⟨rfl, rfl⟩ := h
    simp
  · rw [if_neg h, List.find?_cons_of_neg (by simpa [eq_comm (a := l), eq_comm (a := i)] using h), List.find?_filter]
    congr 2
    apply List.find?_congr
    intro a _
    by_cases ha : a.1 = x ∧ a.2.1 = y
    · rw [ha.1, ha.2]
      simpa using not_and_or.1 h
    · have : (a.1 == x && a.2.1 == y) = false := by simpa using ha
      simp [this]

/-- A waiting unit rises one class, and no other does. -/
theorem aging_eq {s : State} {l i : Nat} {j : Job} (hu : s.hearthUp = true) (hj : s.jobAt (s.pkg.counter l).job = some j) (hi : (l, i) ∈ s.waitingUnits j.part) :
    s.aging l i = some (s.pkgd fun p => { p with
      aged := (l, i, min j.cls (ageIn p.aged l i + 1)) :: p.aged.filter fun a => !(a.1 == l && a.2.1 == i) }) := by
  unfold State.aging
  rw [hj]
  exact if_neg (by simp [hu, hi])

/-! ### The Hearth's own requests (R320, R329) -/

theorem quantumExpiry_eq {s : State} (hu : s.hearthUp = true) (hb : s.core.busy = true) : s.quantumExpiry =
    if (s.awaiting (bindPart s.core.slot.act.toNat)).any fun x => s.classOf x.1 x.2 ≤ bindPrio s.core.slot.act.toNat then some s.requestPre else some s :=
  if_neg (by simp [hu, hb])

theorem ckptInterval_eq {s : State} {l : Nat} {j : Job} (hu : s.hearthUp = true) (hj : s.jobAt l = some j) (hc : j.ckptMs ≠ 0) : s.ckptInterval l =
    some (s.mapCores fun c => if c.busy && (s.pkg.counter (bindUctr c.slot.act.toNat)).job == l then c.requestPre else c) := by
  unfold State.ckptInterval
  rw [hj]
  exact if_neg (by simp [hu, hc])

/-- The core's unit is the lowest active one of its partition, and one of a higher class waits. -/
theorem higherClass_eq {s : State} (hu : s.hearthUp = true) (hrun : s.core.fe.unit = .running) (hreq : s.core.fe.preReq = none)
    (ho : ∀ c ∈ s.others, c.idx ∈ ((s.partAt (bindPart s.core.slot.act.toNat)).map (·.cores)).getD [] → c.busy = true ∧ c.fe.preReq = none ∧
      (bindPrio c.slot.act.toNat < bindPrio s.core.slot.act.toNat ∨ (bindPrio c.slot.act.toNat = bindPrio s.core.slot.act.toNat ∧ c.idx < s.core.idx)))
    (hx : ∃ x ∈ s.waitingUnits (bindPart s.core.slot.act.toNat), s.classOf x.1 x.2 < bindPrio s.core.slot.act.toNat) : s.higherClass = some s.requestPre := by
  refine if_pos ?_
  simp only [Bool.and_eq_true, beq_iff_eq, Option.isNone_iff_eq_none, Bool.not_eq_true', List.any_eq_false, List.all_eq_true, List.mem_filter,
    List.contains_iff_mem, List.any_eq_true, List.mem_append, decide_eq_true_eq, and_imp]
  obtain ⟨x, hm, hlt⟩ := hx
  refine ⟨⟨⟨⟨⟨⟨hu, hrun⟩, hreq⟩, fun c hc hi => ?_⟩, fun c hc hi => ?_⟩, fun c hc hi => (ho c hc hi).2.1⟩, x, .inl hm, hlt⟩
  · simp [Core.slotFree, (ho c hc hi).1]
  · simpa [Core.outranks] using .inr (ho c hc hi).2.2

/-- Settles O49: every request is the one that `requestReaches_requestPre` describes, or its form over all cores; an age is one entry of the list of ages. -/
theorem requestsReachUnits : Obligations.RequestsReachUnits := by
  unfold Obligations.RequestsReachUnits
  intro s l i j b hu
  refine ⟨fun hb => ?_, fun hb => ?_, fun hb hx => ?_, fun hb hx => ?_, fun ha ht hrun hreq ho hx => ?_, fun hj hc => ?_, fun hj hi => ?_⟩
  · exact answers_event rfl (by rw [hu, hb]; rfl) (requestReaches_requestPre s)
  · exact answers_event rfl (by rw [hu, hb]; rfl) rfl
  · refine answers_event rfl ((quantumExpiry_eq hu hb).trans (if_pos ?_)) (requestReaches_requestPre s)
    simpa using hx
  · refine answers_event rfl ((quantumExpiry_eq hu hb).trans (if_neg ?_)) rfl
    simpa using hx
  · refine ⟨s.requestPre, ?_, requestReaches_requestPre s⟩
    have hd : s.device = some s.requestPre := by
      unfold State.device
      rw [if_neg (by simp [ht]), higherClass_eq hu hrun hreq ho hx]
    unfold step State.auto
    rw [ha, hd]
  · refine answers_event rfl (ckptInterval_eq hu hj hc) ⟨rfl, rfl, List.length_map _, fun n c d hn hd => ?_⟩
    have hd := mapCores_get hn hd
    simp only [Bool.and_eq_true, beq_iff_eq] at hd
    exact ⟨fun h => by rw [hd, if_pos h]; exact requested_requestPre c, fun h => by rw [hd, if_neg h]⟩
  · refine answers_event rfl (aging_eq hu hj hi) ⟨⟨rfl, rfl⟩, rfl, rfl, ?_, fun x y hxy => ?_⟩
    · rw [classOf_eq, classOf_eq]
      show ((s.jobAt (s.pkg.counter l).job).map (·.cls)).getD 7 - ageIn (_ :: _) l i = _
      rw [ageIn_raised, if_pos ⟨rfl, rfl⟩, hj]
      show j.cls - min j.cls _ = j.cls - _ - 1
      omega
    · rw [classOf_eq, classOf_eq]
      show ((s.jobAt (s.pkg.counter x).job).map (·.cls)).getD 7 - ageIn (_ :: _) x y = _
      rw [ageIn_raised, if_neg fun h => hxy (by rw [h.1, h.2])]

end Sys2Proof.Machine
end

section
/-! SUPPORT. What the unit switch leaves of the other cores and of the slot registers of its own core. -/

namespace Sys2Proof.Machine

/-- The core that moves keeps its place and its slot registers, and the other cores are as they were. -/
structure State.Seated (s t : State) : Prop where
  others : t.others = s.others
  idx : t.core.idx = s.core.idx
  slot : t.core.slot = s.core.slot

theorem State.Seated.refl (s : State) : s.Seated s := ⟨rfl, rfl, rfl⟩

theorem State.Seated.trans {a b c : State} (h : a.Seated b) (k : b.Seated c) : a.Seated c :=
  ⟨k.others.trans h.others, k.idx.trans h.idx, k.slot.trans h.slot⟩

theorem State.LogOf.seated {s t : State} (h : s.LogOf t) : s.Seated t := ⟨h.others, by rw [h.core], by rw [h.core]⟩
theorem State.ReadOf.seated {s t : State} (h : s.ReadOf t) : s.Seated t := ⟨h.others, by rw [h.core], by rw [h.core]⟩
theorem State.OnlyPkg.seated {s t : State} (h : s.OnlyPkg t) : s.Seated t := ⟨h.others, by rw [h.core], by rw [h.core]⟩

theorem seated_fe (s : State) (f : Front → Front) : s.Seated (s.fe f) := ⟨rfl, rfl, rfl⟩
theorem seated_regs (s : State) (f : Regs → Regs) : s.Seated (s.regs f) := ⟨rfl, rfl, rfl⟩
theorem seated_withCore (s : State) (c : Core) (hi : c.idx = s.core.idx) (hs : c.slot = s.core.slot) : s.Seated (s.withCore c) := ⟨rfl, hi, hs⟩
theorem seated_sys (s : State) (f : Sys → Sys) : s.Seated (s.sys f) := ⟨rfl, rfl, rfl⟩

theorem seated_foldl {α : Type} {f : State → α → State} (h : ∀ s a, State.Seated s (f s a)) (l : List α) (s : State) : s.Seated (l.foldl f s) := by
  induction l generalizing s with
  | nil => exact .refl s
  | cons a l ih => exact (h s a).trans (ih _)

/-! ### Reading the memories (R204, R283) -/

theorem seated_fillWalks (s : State) (spc : Space) (a n : Nat) : s.Seated (s.fillWalks spc a n) := by
  unfold State.fillWalks
  split
  · refine seated_foldl (fun s va => ?_) _ s
    repeat' split
    all_goals exact ⟨rfl, rfl, rfl⟩
  · exact .refl s

theorem seated_engRead {s t : State} {spc : Space} {a n : Nat} {bs : List Byte} (h : s.engRead spc a n = .ok (bs, t)) : s.Seated t := by
  unfold State.engRead at h
  split at h
  · split at h
    · cases h
    · cases h
      exact (logOf_correct s _).seated
  · dsimp only at h
    split at h
    · next ks hk =>
      split at h
      · cases h
      · cases h
        refine (seated_fillWalks s spc a n).trans ((logOf_correct _ fun p => p.under ks).seated.trans ?_)
        split
        · exact seated_foldl (fun s k => (onlyPkg_countHs s _).seated) _ _
        · exact .refl _
    all_goals cases h

theorem seated_objParts {reg : Word} {l : List (Nat × Nat)} {s t : State} {bs : List (List Byte)} (h : State.objParts s reg l = .ok (bs, t)) :
    s.Seated t := by
  induction l generalizing s bs with
  | nil => cases h; exact .refl _
  | cons x l ih =>
    obtain ⟨off, n⟩ := x
    rw [State.objParts] at h
    cases hu : s.engRead (regSpace reg) (regBase reg + off) n with
    | error e => rw [hu] at h; cases h
    | ok r =>
      obtain ⟨b, u⟩ := r
      rw [hu] at h
      dsimp only at h
      cases hr : State.objParts u reg l with
      | error e => rw [hr] at h; cases h
      | ok r =>
        rw [hr] at h
        cases h
        exact (seated_engRead hu).trans (ih hr)

/-- The state that the reading of a circuit object ends in. -/
def Loaded.Seats (s : State) : Loaded → Prop
  | .ok t _ _ _ _ _ => s.Seated t
  | .bad t _ _ => s.Seated t
  | .halt _ => True

theorem seated_readObject (s : State) (reg : Word) : (s.readObject reg).Seats s := by
  unfold State.readObject
  dsimp only
  split
  · exact .refl s
  · split
    · trivial
    · next hb u hu =>
      have su := seated_objParts hu
      split
      · exact su
      · exact su
      · split
        · trivial
        · next bs w hw =>
          have sw := su.trans (seated_objParts hw)
          split <;> exact sw

/-! ### A unit goes on where it was parked (R283, R326, R370) -/

theorem seated_reloadCirc {s t : State} (h : s.reloadCirc = .ok t) : s.Seated t := by
  unfold State.reloadCirc at h
  have k := seated_readObject s s.core.circ.reg
  split at h
  · next e => cases h; rw [e] at k; exact k.trans ⟨rfl, rfl, rfl⟩
  · next e => cases h; rw [e] at k; exact k.trans ⟨rfl, rfl, rfl⟩
  · cases h

theorem seated_pageFaultAt (s : State) (t : TrapRec) (spc : Space) (va : Nat) (f : WalkFail) : s.Seated (s.pageFaultAt t spc va f) := by
  unfold State.pageFaultAt
  exact (seated_fe s _).trans ((logOf_bb _ (.trap .pageFault)).seated.trans (onlyPkg_note _ _ true).seated)

theorem seated_restoreCirc (s : State) (b : Nat) : s.Seated (s.restoreCirc b) := by
  have h : s.Seated (s.withCore { s.core with circ := savedCirc s.mem b }) := ⟨rfl, rfl, rfl⟩
  unfold State.restoreCirc
  dsimp only
  split
  · exact h
  · split
    · next hr => exact h.trans (seated_reloadCirc hr)
    · exact h.trans (seated_pageFaultAt _ _ _ _ _)
    · exact h.trans (readOf_meetPoison _ _ _).seated
    · exact h

theorem seated_eretMacro (s : State) (r : Resume) (v : EretView) : s.Seated (s.eretMacro r v) := by
  unfold State.eretMacro
  split
  · split
    · exact (seated_sys s _).trans (seated_fe _ _)
    · exact seated_fe s _
  · split
    · exact (seated_sys s _).trans (seated_fe _ _)
    · exact (seated_sys s _).trans (seated_fe _ _)

theorem seated_loadStages (s : State) : s.Seated s.loadStages := by
  unfold State.loadStages State.setStages
  exact seated_regs s _

theorem seated_eretLoop (s : State) (r : Resume) (v : EretView) : s.Seated (s.eretLoop r v) := by
  unfold State.eretLoop
  split
  · exact (seated_loadStages s).trans (seated_fe _ _)
  · split
    · exact (seated_sys s _).trans (seated_fe _ _)
    · exact seated_fe s _

theorem seated_eretSkipA (s : State) (lo hi : Nat) : s.Seated (s.eretSkipA lo hi) := by
  rcases hk : skipHeadA lo hi s.core.fe.aq with ⟨aq, ended, cut⟩
  have leaves {u : State} (su : s.Seated u) : s.Seated (match u.core.fe.mac with
      | some m =>
        if lo ≤ m.layer.pc.toNat && m.layer.pc.toNat < hi then
          (u.sys fun y => { y with mloopStk := Vector.replicate 4 0 }).fe fun f => { f with mac := none, pc := m.layer.next }
        else u
      | none => u) := by
    split
    · split
      · exact su.trans ((seated_sys u _).trans (seated_fe _ _))
      · exact su
    · exact su
  unfold State.eretSkipA
  rw [hk]
  cases cut with
  | none => exact leaves (seated_fe s _)
  | some c => exact leaves ((seated_fe s _).trans (seated_fe _ _))

theorem seated_eretSkipX (s : State) (lo hi : Nat) : s.Seated (s.eretSkipX lo hi) := by
  unfold State.eretSkipX
  exact seated_fe s _

theorem seated_eretRedirect (s : State) (a : Word) : s.Seated (s.eretRedirect a) := by
  unfold State.eretRedirect
  exact (seated_sys s _).trans (seated_fe _ _)

theorem seated_eretSkip (s : State) (v : EretView) : s.Seated (s.eretSkip v) := by
  have h : s.Seated (if v.newA == v.recA then s else s.eretSkipA v.recA.toNat v.newA.toNat) := by
    split
    · exact .refl s
    · exact seated_eretSkipA s _ _
  unfold State.eretSkip
  dsimp only
  split
  · exact h
  · exact h.trans (seated_eretSkipX _ _ _)

theorem seated_resumeAt (s : State) (f : Front) (w : Nat → Nat) : s.Seated (s.resumeAt f w) := by
  unfold State.resumeAt
  refine .trans ?_ (seated_fe _ _)
  split
  · exact seated_eretRedirect s _
  · refine .trans ?_ (seated_eretSkip _ _)
    refine .trans ?_ (seated_eretLoop _ _ _)
    exact seated_eretMacro s _ _

theorem seated_replay (s : State) : s.Seated s.replay := by
  unfold State.replay
  exact (seated_regs s _).trans (seated_fe _ _)

theorem seated_pkgd (s : State) (f : Package → Package) : s.Seated (s.pkgd f) := ⟨rfl, rfl, rfl⟩

theorem seated_restoreUnit {s t : State} {b : Nat} (h : s.restoreUnit b = some t) : s.Seated t := by
  unfold State.restoreUnit at h
  split at h
  · cases h
  · dsimp only at h
    split at h
    · cases h
    · replace h := Option.some.inj h
      rw [← h]
      refine .trans ?_ (seated_restoreCirc _ _)
      refine .trans ?_ (seated_pkgd _ _)
      refine .trans ?_ (seated_replay _)
      refine .trans ?_ (seated_resumeAt _ _ _)
      exact seated_withCore _ _ rfl rfl

/-! ### A fresh unit, and the switch (R34, R35, R122) -/

/-- The records of a Loft image change the memories only. -/
theorem seated_loftImage (s : State) (l : List (Nat × Nat × List Byte)) : s.Seated (s.withCore (s.core.loftImage l)) := by
  have h : ((s.core.loftImage l).idx, (s.core.loftImage l).slot) = (s.core.idx, s.core.slot) := by
    unfold Core.loftImage
    apply foldl_keeps (fun d : Core => (d.idx, d.slot))
    intro _ _
    rfl
  exact seated_withCore s _ (congrArg Prod.fst h) (congrArg Prod.snd h)

theorem seated_mems (s : State) (f : Mems → Mems) : s.Seated (s.mems f) := ⟨rfl, rfl, rfl⟩

theorem seated_freshUnit {s t : State} {b : Nat} {ws : List Word} (h : s.freshUnit b ws = some t) : s.Seated t := by
  have wiped : s.Seated (s.withCore (if s.core.prevJob == some s.jobRef then s.core else s.core.wipe)) := by
    split
    · exact seated_withCore _ _ rfl rfl
    · exact seated_withCore _ _ rfl rfl
  unfold State.freshUnit at h
  dsimp only at h
  split at h
  · cases h
  · next u hu =>
    have su : s.Seated u := by
      refine .trans ?_ (seated_engRead hu)
      exact seated_withCore _ _ wiped.idx wiped.slot
    split at h
    · cases h
      exact su.trans (seated_mems _ _)
    · split at h
      · cases h
      · next v hv =>
        cases h
        exact su.trans ((seated_mems _ _).trans ((seated_engRead hv).trans (seated_loftImage v _)))

theorem seated_loadPlane (s : State) : s.Seated s.loadPlane := by
  unfold State.loadPlane
  dsimp only
  split
  · exact ⟨rfl, rfl, rfl⟩
  · exact ⟨rfl, rfl, rfl⟩

theorem seated_flip {s t : State} {g : Nat} (h : s.flip g = some t) : s.Seated t := by
  unfold State.flip at h
  split at h
  · cases h; exact seated_loadPlane s
  · split at h
    · cases h
      refine .trans ?_ (seated_loadPlane _)
      exact seated_withCore _ _ rfl rfl
    · cases h

/-- The standby record of the core that switches is the active one, and no other core has changed (R34, R319). -/
theorem switchIn_slot {s t : State} (h : s.switchIn = some t) :
    t.others = s.others ∧ t.core.idx = s.core.idx ∧ t.core.slot.act = s.core.slot.stby ∧ t.core.slot.stby = 0 := by
  have cleared {r : State} (hr : r = if s.core.fe.unit == .ended then s.withCore (s.core.clearUnit s.core.prevJob) else s) :
      r.others = s.others ∧ r.core.idx = s.core.idx ∧ r.core.slot.stby = s.core.slot.stby := by
    subst hr
    split
    · exact ⟨rfl, rfl, rfl⟩
    · exact ⟨rfl, rfl, rfl⟩
  unfold State.switchIn at h
  dsimp only at h
  generalize hr : (if s.core.fe.unit == .ended then s.withCore (s.core.clearUnit s.core.prevJob) else s) = r at h
  obtain ⟨ho, hi, hb⟩ := cleared hr.symm
  split at h
  · cases h
  · next u hu =>
    have su := seated_flip hu
    split at h
    · cases h
    · split at h
      · cases h
      · next v hv =>
        cases h
        have sv : u.Seated v := by
          split at hv
          · exact seated_restoreUnit hv
          · exact seated_freshUnit hv
        have sw := su.trans (sv.trans ((logOf_bb v .bind).seated.trans (seated_pkgd _ fun p => p.firstBind s.core.slot.stby.toNat)))
        exact ⟨sw.others.trans ho, sw.idx.trans hi, (congrArg SlotRegs.act sw.slot).trans hb, congrArg SlotRegs.stby sw.slot⟩

/-! ### The switch of a gang (R31) -/

/-- The slot registers of the core of an index, wherever it stands. -/
def State.slotAt (s : State) (k : Nat) : Option SlotRegs := (s.allCores.find? fun c => c.idx == k).map (·.slot)

theorem slotAt_cons (s : State) (j : Nat) : s.slotAt j = if j = s.core.idx then some s.core.slot else (s.others.find? fun c => c.idx == j).map (·.slot) := by
  unfold State.slotAt State.allCores
  by_cases h : j = s.core.idx
  · simp [h]
  · rw [if_neg h, List.find?_cons_of_neg (by simpa using Ne.symm h)]

theorem slotAt_of_mem {s : State} {c : Core} (hn : ((s.core :: s.others).map (·.idx)).Nodup) (hc : c ∈ s.core :: s.others) :
    s.slotAt c.idx = some c.slot := by
  have hs : ((s.core :: s.others).find? fun d => d.idx == c.idx).isSome := List.find?_isSome.2 ⟨c, hc, by simp⟩
  obtain ⟨d, hd⟩ := Option.isSome_iff_exists.1 hs
  have hdc : d = c := List.inj_on_of_nodup_map hn (List.mem_of_find?_eq_some hd) hc (by simpa using List.find?_some hd)
  show ((s.core :: s.others).find? _).map _ = _
  rw [hd, hdc, Option.map_some]

theorem exists_core_of_slotAt {s : State} {k : Nat} {r : SlotRegs} (h : s.slotAt k = some r) : ∃ c ∈ s.core :: s.others, c.idx = k ∧ c.slot = r := by
  obtain ⟨c, hc, hr⟩ := Option.map_eq_some_iff.1 h
  exact ⟨c, List.mem_of_find?_eq_some hc, by simpa using List.find?_some hc, hr⟩

/-- The cores of other indices are found as before when a core takes its place among them. -/
theorem find_insertCore_of_ne {c : Core} {j : Nat} (hj : j ≠ c.idx) (l : List Core) :
    (insertCore c l).find? (fun d => d.idx == j) = l.find? fun d => d.idx == j := by
  unfold insertCore
  rw [List.find?_append, List.find?_cons_of_neg (by simpa using Ne.symm hj)]
  induction l with
  | nil => rfl
  | cons d l ih =>
    by_cases hd : d.idx = j
    · rcases Nat.lt_or_gt_of_ne hj with h | h
      · simp [List.filter_cons, hd, h]
      · have hl : (l.filter fun e => decide (e.idx < c.idx)).find? (fun e => e.idx == j) = none :=
          List.find?_eq_none.2 fun e he => by have := of_decide_eq_true (List.mem_filter.1 he).2; simp; omega
        simp [hd, h, Nat.lt_asymm h, hl]
    · rw [List.find?_cons_of_neg (by simpa using hd), ← ih]
      simp only [List.filter_cons]
      split <;> split <;> simp [hd]

theorem find_filter_idx_of_ne {j k : Nat} (hj : j ≠ k) (l : List Core) :
    (l.filter fun d => d.idx != k).find? (fun d => d.idx == j) = l.find? fun d => d.idx == j := by
  rw [List.find?_filter]
  congr 1
  funext d
  by_cases hd : d.idx = j <;> simp [hd, hj]

/-- The core that comes to move is the one named, and every core keeps its slot registers. -/
theorem toCore_slots {s t : State} {k : Nat} (h : s.toCore k = some t) : t.core.idx = k ∧ ∀ j, t.slotAt j = s.slotAt j := by
  unfold State.toCore at h
  split at h
  · next hk => cases h; exact ⟨hk.symm, fun _ => rfl⟩
  · next hk =>
    obtain ⟨c, hc, rfl⟩ := Option.map_eq_some_iff.1 h
    have hck : c.idx = k := by simpa using List.find?_some hc
    refine ⟨hck, fun j => ?_⟩
    rw [slotAt_cons, slotAt_cons]
    dsimp only
    by_cases hjc : j = c.idx
    · rw [if_pos hjc, if_neg (fun e => hk (by rw [← hck, ← hjc, e])), hjc, hck, hc, Option.map_some]
    · rw [if_neg hjc]
      by_cases hjs : j = s.core.idx
      · rw [if_pos hjs, hjs, find_insertCore, Option.map_some]
      · rw [if_neg hjs, find_insertCore_of_ne hjs, find_filter_idx_of_ne (fun e => hjc (e.trans hck.symm))]

theorem switchIn_slots {s t : State} (h : s.switchIn = some t) :
    (∀ j, j ≠ s.core.idx → t.slotAt j = s.slotAt j) ∧ ∃ r, t.slotAt s.core.idx = some r ∧ r.act = s.core.slot.stby ∧ r.stby = 0 := by
  obtain ⟨ho, hi, ha, hb⟩ := switchIn_slot h
  refine ⟨fun j hj => ?_, t.core.slot, ?_, ha, hb⟩
  · rw [slotAt_cons, slotAt_cons, if_neg hj, if_neg (by rwa [hi]), ho]
  · rw [slotAt_cons, if_pos hi.symm]

/-- Every core that is listed has switched its standby record in, and the others keep their slot registers. -/
theorem switchAll_slots {home : Nat} {ks : List Nat} (hn : ks.Nodup) {s t : State} (h : State.switchAll home ks s = some t) :
    (∀ j, j ∉ ks → t.slotAt j = s.slotAt j) ∧
      ∀ j r, j ∈ ks → s.slotAt j = some r → ∃ d, t.slotAt j = some d ∧ d.act = r.stby ∧ d.stby = 0 := by
  induction ks generalizing s with
  | nil => exact ⟨fun j _ => (toCore_slots h).2 j, fun _ _ hj => absurd hj (by simp)⟩
  | cons k ks ih =>
    rw [State.switchAll] at h
    obtain ⟨u, hu, h⟩ := Option.bind_eq_some_iff.1 h
    obtain ⟨v, hv, h⟩ := Option.bind_eq_some_iff.1 h
    obtain ⟨hk, hus⟩ := toCore_slots hu
    obtain ⟨hvo, d, hvd, hd⟩ := switchIn_slots hv
    obtain ⟨hnk, hn⟩ := List.nodup_cons.1 hn
    obtain ⟨hto, hts⟩ := ih hn h
    have keep (j : Nat) (hj : j ≠ k) : v.slotAt j = s.slotAt j := (hvo j (by rwa [hk])).trans (hus j)
    refine ⟨fun j hj => ?_, fun j r hj hr => ?_⟩
    · obtain ⟨hjk, hj⟩ := not_or.1 fun e => hj (List.mem_cons.2 e)
      exact (hto j hj).trans (keep j hjk)
    · rcases List.mem_cons.1 hj with rfl | hj
      · have hur : u.core.slot = r := Option.some.inj ((by rw [slotAt_cons, if_pos hk.symm] : u.slotAt j = some u.core.slot).symm.trans ((hus j).trans hr))
        exact ⟨d, (hto j hnk).trans (by rw [← hk]; exact hvd), by rw [← hur]; exact hd.1, hd.2⟩
      · exact hts j r hj ((keep j (fun e => hnk (e ▸ hj))).trans hr)

end Sys2Proof.Machine
end

section
/-! PROOFS. Units are bound, and difference records make a new generation of a plane (O46). -/

namespace Sys2Proof.Machine

/-! ### A standby record is written (R316, R320, R321) -/

/-- A unit's turn is taken in the package: it is aged and cut off no longer, and its launch was the last to be bound (R320, R329). -/
def Package.claimed (p : Package) (cls r : Nat) : Package :=
  { (p.unage (bindLctr r) (bindUidx r)).tookTurn (bindPart r) cls (bindLctr r) with cutOff := p.cutOff.filter fun x => bindUctr x.1 != bindUctr r }

/-- The unit in the way of a gang is asked to stop, and no other. -/
def State.cleared (s : State) (l : Launch) : State := if l.gang && s.core.busy then s.requestPre else s

theorem requestPre_pkgd (s : State) (f : Package → Package) : (s.pkgd f).requestPre = s.requestPre.pkgd f := by
  unfold State.requestPre
  dsimp only [State.pkgd]
  split
  · rfl
  · rfl

theorem claim_eq (s : State) (r : Nat) (l : Launch) :
    s.claim r l = (s.cleared l).pkgd fun p => p.claimed (s.classOf (bindLctr r) (bindUidx r)) r := by
  unfold State.claim State.cleared
  dsimp only
  split
  · next h => rw [requestPre_pkgd]; exact congrArg (State.pkgd · _) (if_pos h).symm
  · next h => exact congrArg (State.pkgd · _) (if_neg h).symm

theorem cleared_reaches (s : State) (l : Launch) : if l.gang = true ∧ s.core.busy = true then RequestReaches s (s.cleared l) else s.cleared l = s := by
  unfold State.cleared
  by_cases h : l.gang = true ∧ s.core.busy = true
  · rw [if_pos h, if_pos (by simp [h])]
    exact requestReaches_requestPre s
  · rw [if_neg h, if_neg (by simpa using h)]

/-- A request changes neither memory nor the package. -/
theorem cleared_keeps (s : State) (l : Launch) : (s.cleared l).pkg = s.pkg ∧ (s.cleared l).mem = s.mem := by
  unfold State.cleared State.requestPre
  dsimp only
  split
  · split
    · exact ⟨rfl, rfl⟩
    · exact ⟨rfl, rfl⟩
  · exact ⟨rfl, rfl⟩

/-- The standby record of a claimed unit stands in the slot. -/
def State.standing (s : State) (b : BitVec 128) (l : Launch) : State := (s.claim b.toNat l).setStby b

theorem standing_core (s : State) (b : BitVec 128) (l : Launch) :
    (s.standing b l).core = { (s.cleared l).core with slot := { (s.cleared l).core.slot with stby := b } } := by
  show ((s.claim b.toNat l).setStby b).core = _
  rw [claim_eq]
  rfl

theorem standing_others (s : State) (b : BitVec 128) (l : Launch) : (s.standing b l).others = (s.cleared l).others := by
  show (s.claim b.toNat l).others = _
  rw [claim_eq]
  rfl

theorem standing_pkg (s : State) (b : BitVec 128) (l : Launch) :
    (s.standing b l).pkg = s.pkg.claimed (s.classOf (bindLctr b.toNat) (bindUidx b.toNat)) b.toNat := by
  show (s.claim b.toNat l).pkg = _
  rw [claim_eq]
  exact congrArg (Package.claimed · _ _) (cleared_keeps s l).1

theorem standing_mem (s : State) (b : BitVec 128) (l : Launch) : (s.standing b l).mem = s.mem := by
  show (s.claim b.toNat l).mem = _
  rw [claim_eq]
  exact (cleared_keeps s l).2

/-- The resume record heads the register region of a checkpoint (R324). -/
theorem regAt_zero (r : Nat) : regAt r 0 = regRegion (bindCkpt r) := Nat.add_zero _

theorem standing_counter (s : State) (b : BitVec 128) (l : Launch) (i : Nat) : (s.standing b l).pkg.counter i = s.pkg.counter i := by
  rw [standing_pkg]
  rfl

/-- A fresh unit takes its counter entry, its index is marked as bound, and its checkpoint block is cleared. -/
def State.boundFresh (s t : State) (r : Nat) (l : Launch) : State :=
  { t with
    pkg := { t.pkg.allocAt (bindUctr r) stWaiting 1 1 (some (bindLctr r)) (s.pkg.counter (bindLctr r)).job with
      graphs := t.pkg.graphs.map fun g => { g with launches := g.launches.map fun x =>
        if x.ref == l.ref && x.st == 1 then x.bindUnit (bindUidx r) else x } }
    mem := t.mem.putLe (regRegion (bindCkpt r)) 8 0 }

theorem bindUnit_fresh {s : State} {b : BitVec 128} {l : Launch} (hg : l.gang = bindGang b.toNat) (hm : s.mayBind b.toNat l = true)
    (hs : (s.pkg.counter (bindLctr b.toNat)).state = 0 ∨ (s.pkg.counter (bindLctr b.toNat)).state = 1)
    (hu : (s.pkg.counter (bindUctr b.toNat)).live = false) (hr : bindResume b.toNat = false) (hw : s.watched (bindUctr b.toNat) = false)
    (hl : s.pkg.liveUnits < 288) (hi : bindUidx b.toNat < l.units) (hb : bindUidx b.toNat ∉ l.bound) :
    s.bindUnit b l = some (s.boundFresh (s.standing b l) b.toNat l) := by
  have hopen : (l.gang != bindGang b.toNat || !((s.pkg.counter (bindLctr b.toNat)).state == stRunning ||
      (s.pkg.counter (bindLctr b.toNat)).state == stWaiting) || !s.mayBind b.toNat l) = false := by
    rcases hs with h | h <;> simp [hg, hm, h, stRunning, stWaiting]
  have hfree : (bindResume b.toNat || s.watched (bindUctr b.toNat) || decide (288 ≤ s.pkg.liveUnits) || decide (l.units ≤ bindUidx b.toNat) ||
      l.bound.contains (bindUidx b.toNat)) = false := by
    simp [hr, hw, hb, hl, hi]
  unfold State.bindUnit
  dsimp only
  rw [hopen, hu, hfree, if_neg Bool.false_ne_true, if_neg Bool.false_ne_true, if_neg Bool.false_ne_true]
  rfl

theorem bindUnit_again {s : State} {b : BitVec 128} {l : Launch} (hg : l.gang = bindGang b.toNat) (hm : s.mayBind b.toNat l = true)
    (hs : (s.pkg.counter (bindLctr b.toNat)).state = 0 ∨ (s.pkg.counter (bindLctr b.toNat)).state = 1)
    (hu : (s.pkg.counter (bindUctr b.toNat)).live = true) (hv : (s.pkg.counter (bindUctr b.toNat)).level = 1)
    (hp : (s.pkg.counter (bindUctr b.toNat)).parent = some (bindLctr b.toNat)) (hb : s.bound (bindUctr b.toNat) = false)
    (hr : bindResume b.toNat = s.resumeOk b.toNat) : s.bindUnit b l = some (s.standing b l) := by
  have hopen : (l.gang != bindGang b.toNat || !((s.pkg.counter (bindLctr b.toNat)).state == stRunning ||
      (s.pkg.counter (bindLctr b.toNat)).state == stWaiting) || !s.mayBind b.toNat l) = false := by
    rcases hs with h | h <;> simp [hg, hm, h, stRunning, stWaiting]
  have hmine : ((s.pkg.counter (bindUctr b.toNat)).level == 1 && (s.pkg.counter (bindUctr b.toNat)).parent == some (bindLctr b.toNat) &&
      !s.bound (bindUctr b.toNat) && (bindResume b.toNat == s.resumeOk b.toNat)) = true := by
    simp [hv, hp, hb, hr]
  unfold State.bindUnit
  dsimp only
  rw [hopen, hu, hmine]
  rfl

theorem stbyWrite_held {s : State} {b : BitVec 128} (hu : s.hearthUp = true) (hv : bindV s.core.slot.stby.toNat = true) :
    s.stbyWrite b = some s.berr := by
  unfold State.stbyWrite
  dsimp only
  rw [hu, hv]
  rfl

/-- A record without V, or of no launch that is there, is written as it is. -/
theorem stbyWrite_plain {s : State} {b : BitVec 128} (hu : s.hearthUp = true) (hv : bindV s.core.slot.stby.toNat = false)
    (h : bindV b.toNat = false ∨ (s.pkg.counter (bindLctr b.toNat)).gen % 4096 ≠ bindLgen b.toNat ∨ s.launchOf (bindLctr b.toNat) = none) :
    s.stbyWrite b = some (s.setStby b) := by
  have hn (hb : bindV b.toNat = true) : (if (s.pkg.counter (bindLctr b.toNat)).gen % 4096 == bindLgen b.toNat then s.launchOf (bindLctr b.toNat)
      else none) = none := by
    rcases h with h | h | h
    · rw [h] at hb; cases hb
    · exact if_neg (by simpa using h)
    · rw [h, ite_self]
  unfold State.stbyWrite
  dsimp only
  rw [hu, hv]
  cases hb : bindV b.toNat with
  | false => rfl
  | true => rw [hn hb]; rfl

theorem stbyWrite_bound {s t : State} {b : BitVec 128} {l : Launch} (hu : s.hearthUp = true) (hv : bindV s.core.slot.stby.toNat = false)
    (hb : bindV b.toNat = true) (hg : (s.pkg.counter (bindLctr b.toNat)).gen % 4096 = bindLgen b.toNat)
    (hl : s.launchOf (bindLctr b.toNat) = some l) (ht : s.bindUnit b l = some t) : s.stbyWrite b = some t := by
  unfold State.stbyWrite
  dsimp only
  rw [hu, hv, hb, hg, hl, if_pos (c := (bindLgen b.toNat == bindLgen b.toNat) = true) (by simp)]
  dsimp only
  rw [ht]
  rfl

/-! ### The unit switch refuses, and switches a gang whole (R31, R319) -/

theorem fatal_of_hearthUp {s : State} (hu : s.hearthUp = true) : s.pkg.fatal = false := by
  unfold State.hearthUp at hu
  simpa using (Bool.and_eq_true_iff.1 hu).2

theorem unitSwitch_bad {s : State} (hu : s.hearthUp = true) (hv : bindV s.core.slot.stby.toNat = true) (hf : s.core.slotFree = true)
    (hb : s.bindBad s.core.slot.stby.toNat = true) : s.unitSwitch = some (s.setStby 0).berr := by
  unfold State.unitSwitch
  dsimp only
  rw [hv, hf, fatal_of_hearthUp hu, hb]
  rfl

theorem unitSwitch_gang {s : State} (hu : s.hearthUp = true) (hv : bindV s.core.slot.stby.toNat = true) (hf : s.core.slotFree = true)
    (hb : s.bindBad s.core.slot.stby.toNat = false) (hg : bindGang s.core.slot.stby.toNat = true) : s.unitSwitch =
      if s.gangTogether s.core.slot.stby.toNat then State.switchAll s.core.idx (s.gangCores (bindLctr s.core.slot.stby.toNat)) s else none := by
  unfold State.unitSwitch
  dsimp only
  rw [hv, hf, fatal_of_hearthUp hu, hb, hg]
  cases s.gangTogether s.core.slot.stby.toNat <;> rfl

/-- The cores of a gang are listed once each. -/
theorem gangCores_nodup {s : State} (hn : ((s.core :: s.others).map (·.idx)).Nodup) (k : Nat) : (s.gangCores k).Nodup :=
  hn.sublist (List.filter_sublist.map _)

/-! ### Difference records (R122, R123) -/

/-- The plane that a difference record makes of the shadow plane. -/
def Plane.differed (p : Plane) (ws : List Word) : Plane := { applyPairs (diffPairs (ws.drop 1)) p with gen := wfld (ws.headD 0) 32 16 }

theorem applyPairs_cons (x : Word × Word) (ps : List (Word × Word)) (p : Plane) :
    applyPairs (x :: ps) p = applyPairs ps { p with words := if x.2 = 0 then del p.words (wfld x.1 0 9) else put p.words (wfld x.1 0 9) x.2 } := rfl

/-- A pair sets its own word. -/
theorem word_pair (p : Plane) (k i : Nat) (w : Word) :
    ({ p with words := if w = 0 then del p.words k else put p.words k w } : Plane).word i = if i = k then w else p.word i := by
  unfold Plane.word
  dsimp only
  split
  · next h => rw [look_del, h]
  · rw [look_put]

/-- A word that no pair names stays. -/
theorem applyPairs_word_of_not {ps : List (Word × Word)} {i : Nat} (h : ∀ x ∈ ps, wfld x.1 0 9 ≠ i) (p : Plane) :
    (applyPairs ps p).word i = p.word i := by
  induction ps generalizing p with
  | nil => rfl
  | cons x ps ih =>
    rw [applyPairs_cons, ih fun y hy => h y (List.mem_cons_of_mem _ hy), word_pair, if_neg (h x List.mem_cons_self).symm]

/-- The last pair of a word decides it. -/
theorem applyPairs_word_last {front post : List (Word × Word)} {x : Word × Word} (h : ∀ y ∈ post, wfld y.1 0 9 ≠ wfld x.1 0 9) (p : Plane) :
    (applyPairs (front ++ x :: post) p).word (wfld x.1 0 9) = x.2 := by
  induction front generalizing p with
  | nil => rw [List.nil_append, applyPairs_cons, applyPairs_word_of_not h, word_pair, if_pos rfl]
  | cons y front ih => rw [List.cons_append, applyPairs_cons, ih]

theorem difference_eq {s : State} {ws : List Word} (hu : s.hearthUp = true) (hl : ws.length = 2 * wfld (ws.headD 0) 48 16 + 1)
    (hn : wfld (ws.headD 0) 48 16 ≤ 512) : s.difference ws = some (
      if crc32c (s.core.shadow.differed ws).bytes = wfld (ws.headD 0) 0 32 ∧
        ∀ x ∈ diffPairs (ws.drop 1), wfld x.1 9 55 = 0 ∧ planeBad (wfld x.1 0 9) x.2 = false
      then s.withCore { s.core with shadow := s.core.shadow.differed ws }
      else (s.withCore { s.core with shadow := s.core.resident, planeLog := s.core.planeLog ++ [ws.headD 0] }).pkgd fun p =>
        { p with rollbacks := p.rollbacks ++ [(s.core.idx, ws.headD 0)] }) := by
  unfold State.difference
  dsimp only
  rw [if_neg (by simpa [hu, hl] using hn)]
  congr 1
  exact if_congr (by simp only [Bool.and_eq_true, beq_iff_eq, List.all_eq_true, decide_eq_true_eq, Bool.not_eq_true']; rfl) rfl rfl

/-- Settles O46: a standby record is written by the cases of R316 and R319, the switch of a gang core by core, and a difference record word by word. -/
theorem unitsAreBound : Obligations.UnitsAreBound := by
  unfold Obligations.UnitsAreBound
  refine ⟨fun s b l => ?_, fun s ws => ?_⟩
  · dsimp only
    intro hu
    refine ⟨fun hv => answers_event rfl (stbyWrite_held hu hv) rfl, fun hv h => answers_event rfl (stbyWrite_plain hu hv h) rfl, ?_, ?_, ?_⟩
    · intro hv hb hg hl hgang hm hs
      refine ⟨fun h1 h2 h3 h4 h5 h6 => ?_, fun h1 h2 h3 h4 h5 => ?_⟩
      · refine answers_event rfl (stbyWrite_bound hu hv hb hg hl (bindUnit_fresh hgang hm hs h1 h2 h3 h4 h5 h6)) ?_
        refine ⟨⟨s.cleared l, cleared_reaches s l, standing_core s b l, standing_others s b l, ?_, ?_⟩, ?_, fun i hi => ?_, ?_, ?_⟩
        · exact congrArg Package.aged (standing_pkg s b l)
        · exact congrArg Package.cutOff (standing_pkg s b l)
        · refine ((allocAt_counter ..).trans (if_pos rfl)).trans ?_
          rw [standing_counter]
          rfl
        · exact ((allocAt_counter ..).trans (if_neg hi)).trans (standing_counter s b l i)
        · have hgr : (s.standing b l).pkg.graphs = s.pkg.graphs := (congrArg Package.graphs (standing_pkg s b l)).trans rfl
          show (s.standing b l).pkg.graphs.map _ = _
          rw [hgr]
          simp only [Launch.bindUnit, Bool.and_eq_true, beq_iff_eq]
        · show (s.standing b l).mem.putLe _ 8 0 = _
          rw [standing_mem, regAt_zero]
      · refine answers_event rfl (stbyWrite_bound hu hv hb hg hl (bindUnit_again hgang hm hs h1 h2 h3 h4 h5)) ?_
        refine ⟨⟨s.cleared l, cleared_reaches s l, standing_core s b l, standing_others s b l, ?_, ?_⟩, ?_, ?_, standing_mem s b l⟩
        · exact congrArg Package.aged (standing_pkg s b l)
        · exact congrArg Package.cutOff (standing_pkg s b l)
        · exact (congrArg Package.counters (standing_pkg s b l)).trans rfl
        · exact (congrArg Package.graphs (standing_pkg s b l)).trans rfl
    · exact fun hv hf hb => answers_event rfl (unitSwitch_bad hu hv hf hb) rfl
    · intro hv hf hb hg
      have hs := unitSwitch_gang hu hv hf hb hg
      refine ⟨fun ht => ?_, fun t ht hn hall => ⟨?_, fun c hc hk => ?_⟩⟩
      · rw [ht] at hs
        show event "UNIT_SWITCH" s.unitSwitch = _
        rw [hs]
        rfl
      · rw [ht, if_pos rfl, hall] at hs
        show event "UNIT_SWITCH" s.unitSwitch = _
        rw [hs]
        rfl
      · obtain ⟨r, hr, hact, hstby⟩ := (switchAll_slots (gangCores_nodup hn _) hall).2 c.idx c.slot hk (slotAt_of_mem hn hc)
        obtain ⟨d, hd, hdi, rfl⟩ := exists_core_of_slotAt hr
        exact ⟨d, hd, hdi, hact, hstby⟩
  · dsimp only
    intro hu hl hn
    refine answers_event rfl (difference_eq hu hl hn) ?_
    have stays (i : Nat) (_ : i < 512) (hi : ∀ x ∈ diffPairs (ws.drop 1), wfld x.1 0 9 ≠ i) := applyPairs_word_of_not hi s.core.shadow
    have last (front : List (Word × Word)) (x : Word × Word) (post : List (Word × Word)) (hps : diffPairs (ws.drop 1) = front ++ x :: post)
        (hx : ∀ y ∈ post, wfld y.1 0 9 ≠ wfld x.1 0 9) : (s.core.shadow.differed ws).word (wfld x.1 0 9) = x.2 :=
      (congrArg (fun ps => (applyPairs ps s.core.shadow).word _) hps).trans (applyPairs_word_last hx _)
    split
    · next hgood =>
      exact ⟨rfl, rfl, rfl, rfl, rfl, rfl, rfl, s.core.shadow.differed ws, rfl, stays, last, fun _ => ⟨rfl, rfl, rfl⟩, fun h => absurd hgood h⟩
    · next hbad =>
      exact ⟨rfl, rfl, rfl, rfl, rfl, rfl, rfl, s.core.shadow.differed ws, rfl, stays, last, fun h => absurd h hbad, fun _ => ⟨rfl, rfl, rfl⟩⟩

end Sys2Proof.Machine
end

section
/-! PROOFS. CANCEL, EVICT, RELEASE, and a machine check (O51). -/

namespace Sys2Proof.Machine

/-! ### A unit stops early (R29, R90, R124) -/

/-- What a failed walk has stopped is backed out in the engines alone. -/
theorem backOut_eq (s : State) : ∃ e c, s.backOut = s.withCore { s.core with eng := e, circ := c } := by
  unfold State.backOut
  dsimp only
  split
  · exact ⟨s.core.eng, s.core.circ, rfl⟩
  · split
    · exact ⟨s.core.eng, s.core.circ, rfl⟩
    · split
      · exact ⟨_, _, rfl⟩
      · exact ⟨_, s.core.circ, rfl⟩

theorem backOut_of_sound {s : State} (h : s.core.fe.fault = none) : s.backOut = s := by
  unfold State.backOut
  rw [h]

/-- A unit that stops early: what it leaves, with every other core and its own core's place as they were. -/
structure State.Stopped (s : State) (fin : Nat) (t : State) : Prop extends StoppedEarly s fin t where
  others : t.others = s.others
  idx : t.core.idx = s.core.idx

/-- The front end of a unit that stops early: nothing is dispatched, issued or waited for any more. -/
def Front.halted (f : Front) : Front :=
  { f with unit := .ended, aq := [], xq := [], mac := none, kernel := none, handler := false, resume := none, causes := [],
           block := true, cur := { f.cur with dead := true }, skip := [], waitOn := none, mark := none, barrier := none, preReq := none }

theorem endUnit_shape (s : State) (fin : Nat) (drop : Bool) : ∃ e c, (s.core.fe.fault = none → e = s.core.eng) ∧ s.endUnit fin drop =
    (s.withCore { s.core with
      fe := { s.core.fe.halted with fault := none }
      eng := e.dropWaiting
      circ := c
      regs := { s.core.regs with fly := [], rpl := [] }
      qs := { s.core.qs with lin := Vector.replicate 8 [], taker := Vector.replicate 4 [] }
      prevJob := some s.jobRef
      resh := none
      lsu := if drop then { s.core.lsu with porch := s.core.lsu.porch.filter fun e => !s.ownEntry e } else s.core.lsu }).pkgd fun p =>
        (p.orphan s.core.idx).endUnit s.uctr fin := by
  obtain ⟨e, c, h⟩ := backOut_eq (s.fe Front.halted)
  refine ⟨e, c, fun hf => ?_, ?_⟩
  · rw [backOut_of_sound (s := s.fe Front.halted) hf] at h
    exact (congrArg (fun t : State => t.core.eng) h).symm
  · unfold State.endUnit
    delta Front.halted at h
    dsimp only at h ⊢
    rw [h]
    cases drop with
    | false => rfl
    | true => rfl

theorem stopped_endUnit (s : State) (fin : Nat) (drop : Bool) : s.Stopped fin (s.endUnit fin drop) := by
  obtain ⟨e, c, he, h⟩ := endUnit_shape s fin drop
  rw [h]
  refine { unit := rfl, aq := rfl, xq := rfl, handler := rfl, fly := rfl, rpl := rfl, takers := ?_, streams := ?_, eng := fun hf q => ?_, resh := rfl,
           pkg := ⟨s.pkg.bbox, rfl⟩, g := rfl, mems := rfl, mem := rfl, others := rfl, idx := rfl }
  · exact fun q => Vector.getElem_replicate ..
  · exact fun q => Vector.getElem_replicate ..
  · show (e.dropWaiting).q[q] = _
    rw [he hf]
    exact vmap_get ..

theorem endUnit_porch (s : State) (fin : Nat) : (s.endUnit fin true).core.lsu.porch = s.core.lsu.porch.filter fun e => !s.ownEntry e := by
  obtain ⟨e, c, -, h⟩ := endUnit_shape s fin true
  rw [h]
  rfl

/-- What a unit that stops leaves of the package. -/
theorem endUnit_pkg (s : State) (fin : Nat) (drop : Bool) : (s.endUnit fin drop).pkg = (s.pkg.orphan s.core.idx).endUnit s.uctr fin := by
  obtain ⟨e, c, -, h⟩ := endUnit_shape s fin drop
  rw [h]
  rfl

/-- A state with other black box and free values. -/
def State.noted (s : State) (box : BlackBox) (free : Nat) : State := { s with pkg := { s.pkg with bbox := box }, free := free }

/-- An event changes the black box and the free values alone (R362). -/
theorem bb_eq (s : State) (k : BbKind) : ∃ box free, s.bb k = s.noted box free := by
  unfold State.bb
  dsimp only
  split
  · exact ⟨s.pkg.bbox, s.free, rfl⟩
  · exact ⟨_, _, rfl⟩

/-! ### CANCEL of a unit (R29, R30, R322) -/

/-- The unit in the active slot stops in its own core. -/
theorem stopUnit_here {s : State} {k : Nat} (hb : s.core.busy = true) (hk : bindUctr s.core.slot.act.toNat = k) :
    s.stopUnit k = ((s.discardCkpt s.bind).bb .cancel).endUnit 4 true := by
  have hfind : (s.allCores.find? fun c => c.busy && bindUctr c.slot.act.toNat == k) = some s.core :=
    List.find?_cons_of_pos (by simp [hb, hk])
  unfold State.stopUnit
  rw [hfind]
  have hidx (t : State) : ((t.bb .cancel).endUnit 4 true).core.idx = t.core.idx :=
    (stopped_endUnit _ 4 true).idx.trans (by rw [(bbOf_bb t .cancel).core])
  exact onCore_self (s := s.discardCkpt s.core.slot.act.toNat) (hidx _)

/-- What CANCEL of the unit in the active slot leaves. -/
theorem stopUnit_here_stopped {s : State} {k : Nat} (hb : s.core.busy = true) (hk : bindUctr s.core.slot.act.toNat = k) :
    ({ s with mem := s.mem.putLe (regRegion (bindCkpt s.bind)) 8 0 } : State).Stopped 4 (s.stopUnit k) ∧
      (s.stopUnit k).core.lsu.porch = (s.core.lsu.porch.filter fun e => !s.ownEntry e) := by
  obtain ⟨box, free, hbb⟩ := bb_eq (s.discardCkpt s.bind) .cancel
  rw [stopUnit_here hb hk, hbb]
  have h := stopped_endUnit ((s.discardCkpt s.bind).noted box free) 4 true
  refine ⟨{ h with eng := h.eng, pkg := ⟨box, endUnit_pkg _ _ _⟩ }, endUnit_porch _ _⟩

/-- A core in whose standby slot unit k no longer stands. -/
def Core.unstood (k : Nat) (c : Core) : Core :=
  if bindV c.slot.stby.toNat && bindUctr c.slot.stby.toNat == k then { c with slot := { c.slot with stby := 0 } } else c

/-- A unit that is bound nowhere ends where it waits: its checkpoint is discarded, and its standby slot cleared. -/
theorem stopUnit_away {s : State} {k : Nat} (h : (s.core :: s.others).any (fun c => c.busy && bindUctr c.slot.act.toNat == k) = false) :
    ∃ box free, s.stopUnit k =
      { s.mapCores (Core.unstood k) with
        mem := (match s.pkg.parked.find? fun y => bindUctr y.bind == k with
          | some y => s.mem.putLe (regRegion (bindCkpt y.bind)) 8 0
          | none => s.mem)
        pkg := ({ s.pkg with bbox := box } : Package).endUnit k 4
        free := free } := by
  have hfind : (s.allCores.find? fun c => c.busy && bindUctr c.slot.act.toNat == k) = none :=
    List.find?_eq_none.2 fun c hc => by simpa using List.any_eq_false.1 h c hc
  unfold State.stopUnit
  rw [hfind]
  cases s.pkg.parked.find? fun x => bindUctr x.bind == k with
  | none =>
    obtain ⟨box, free, hbb⟩ := bb_eq _ .cancel
    dsimp only
    rw [hbb]
    exact ⟨box, free, rfl⟩
  | some x =>
    obtain ⟨box, free, hbb⟩ := bb_eq _ .cancel
    dsimp only
    rw [hbb]
    exact ⟨box, free, rfl⟩

/-! ### The mailbox (R354) -/

theorem mboxFor_of_free {s : State} {op : Nat} {buf : Option Nat} (h : MailFree s op buf) : s.mboxFor op buf = true := by
  unfold State.mboxFor
  split
  · rfl
  · next w hw =>
    rcases h with h | h | ⟨w', h, hop, hb⟩
    · rw [hw] at h
      cases h
    · rw [h]
      rfl
    · rw [hw] at h
      cases h
      cases buf with
      | none => simp [hop]
      | some b => simp [hop, hb b rfl]

theorem mbox_eq {s t : State} {op code : Nat} {f : State → Nat × State} (h : f (s.bb (.mailbox op)) = (code, t)) : s.mbox op f = t.setCode code := by
  unfold State.mbox
  rw [h]

theorem mailedCode_setCode {s t : State} {code : Nat} (hc : code < 256) (h : t.pkg.mboxStat = s.pkg.mboxStat) : MailedCode s code (t.setCode code) := by
  refine ⟨?_, rfl⟩
  show (t.pkg.mboxStat &&& 0x200) ||| BitVec.ofNat 64 (code % 256) = _
  rw [h, Nat.mod_eq_of_lt hc]

theorem pkg_setCode (t : State) (code : Nat) : (t.setCode code).pkg = { t.pkg with mboxStat := (t.setCode code).pkg.mboxStat, mbox := none } := rfl

/-- What follows the end of a child keeps the mailbox. -/
theorem settle_mboxStat (p : Package) : p.settle.mboxStat = p.mboxStat := by
  unfold Package.settle
  refine Eq.trans rfl (foldl_keeps (fun p : Package => p.mboxStat) (fun q g => ?_) _ _)
  unfold settleGraph
  refine (foldl_keeps (fun p : Package => p.mboxStat) (fun q _ => ?_) _ _).trans rfl
  rw [childEnded_frame]

theorem childEnded_mboxStat (bad : Bool) (fuel k : Nat) (p : Package) : (childEnded bad fuel k p).mboxStat = p.mboxStat := by
  rw [childEnded_frame]

theorem endUnit_mboxStat (p : Package) (k fin : Nat) : (p.endUnit k fin).mboxStat = p.mboxStat := by
  unfold Package.endUnit
  dsimp only
  split
  · split
    · rw [settle_mboxStat, childEnded_mboxStat]
      rfl
    · rfl
  · rfl

/-! ### Copies, and values read back -/

theorem Memory.read_of_find {m n : Memory} {x y : Nat} (h : (m.find? fun c => c.1 == x).map (·.2) = (n.find? fun c => c.1 == y).map (·.2)) :
    m.read x = n.read y := congrArg (Option.getD · memDefault) h

/-- Cells that move by a distance are found at their new places. -/
theorem read_shift {m : Memory} {a b : Nat} (h : ∀ c ∈ m, a ≤ c.1) (i : Nat) :
    Memory.read (m.map fun c => (c.1 - a + b, c.2)) (b + i) = Memory.read m (a + i) := by
  apply Memory.read_of_find
  rw [List.find?_map, Option.map_map]
  have hp : m.find? ((fun c : Host.Cell => c.1 == b + i) ∘ fun c => (c.1 - a + b, c.2)) = m.find? fun c => c.1 == a + i := by
    apply List.find?_congr
    intro c hc
    have := h c hc
    simp only [Function.comp_apply, beq_eq_beq]
    omega
  rw [hp]
  rfl

/-- A copied range reads as its source, every other byte as before. -/
theorem Memory.read_copyIn (m src : Memory) (a n b x : Nat) :
    (m.copyIn src a n b).read x = if b ≤ x ∧ x < b + n then src.read (x - b + a) else m.read x := by
  have lo (c) (hc : c ∈ m.filter fun c : Host.Cell => decide (c.1 < b)) : c.1 < b := by simpa using (List.mem_filter.1 hc).2
  have hi (c) (hc : c ∈ m.filter fun c : Host.Cell => decide (b + n ≤ c.1)) : b + n ≤ c.1 := by simpa using (List.mem_filter.1 hc).2
  have src' (c) (hc : c ∈ src.filter fun c : Host.Cell => decide (a ≤ c.1) && decide (c.1 < a + n)) : a ≤ c.1 ∧ c.1 < a + n := by
    simpa using (List.mem_filter.1 hc).2
  have mid (c) (hc : c ∈ (src.filter fun c : Host.Cell => decide (a ≤ c.1) && decide (c.1 < a + n)).map fun c => (c.1 - a + b, c.2)) :
      b ≤ c.1 ∧ c.1 < b + n := by
    obtain ⟨d, hd, rfl⟩ := List.mem_map.1 hc
    have := src' d hd
    constructor <;> dsimp only <;> omega
  unfold Memory.copyIn
  by_cases h : b ≤ x ∧ x < b + n
  · rw [if_pos h]
    obtain ⟨i, rfl⟩ := Nat.exists_eq_add_of_le h.1
    rw [show b + i - b + a = a + i by omega]
    refine Eq.trans (Memory.read_of_find ?_) ((read_shift (b := b) (fun c hc => (src' c hc).1) i).trans (Memory.read_of_find ?_))
    · rw [find_append_of_not_right fun c hc => by have := hi c hc; omega, find_append_of_not fun c hc => by have := lo c hc; omega]
    · rw [find_filter_of]
      intro c _ hc
      simp only [hc, Bool.and_eq_true, decide_eq_true_eq]
      omega
  · rw [if_neg h]
    apply Memory.read_of_find
    congr 1
    by_cases hx : x < b
    · rw [find_append_of_not_right fun c hc => by have := hi c hc; omega, find_append_of_not_right fun c hc => by have := mid c hc; omega,
        find_filter_of]
      intro c _ hc
      simpa [hc] using hx
    · rw [find_append_of_not, find_filter_of]
      · intro c _ hc
        simp only [hc, decide_eq_true_eq]
        omega
      · intro c hc
        rcases List.mem_append.1 hc with hc | hc
        · have := lo c hc; omega
        · have := mid c hc; omega

theorem Memory.bytes_write {m : Memory} (hm : m.wf = true) (a : Nat) (bs : List Byte) : (m.write a bs).bytes a bs.length = bs := by
  rw [Memory.bytes_eq (Memory.wf_write hm a bs)]
  apply List.ext_getElem (by simp)
  intro i hi hi'
  simpa using Memory.read_write_of_mem m a bs i hi'

theorem Memory.le_putLe {m : Memory} (hm : m.wf = true) (a n x : Nat) : (m.putLe a n x).le a n = x % 2 ^ (8 * n) := by
  unfold Memory.le Memory.putLe
  rw [← leNat_leBytes]
  congr 1
  simpa [leBytes_length] using Memory.bytes_write hm a (leBytes n x)

theorem Memory.read_putLe_of_not (m : Memory) (a n v : Nat) {x : Nat} (hx : x < a ∨ a + n ≤ x) : (m.putLe a n v).read x = m.read x :=
  Memory.read_write_of_not m a _ x (by rwa [leBytes_length])

/-! ### EVICT (R325) -/

theorem regAt_eq (r i : Nat) : regAt r i = regRegion (bindCkpt r) + i := rfl

theorem evict_none {s : State} (h : ∀ y ∈ s.pkg.parked, ¬ (y.held = true ∧ y.loc = s.core.idx)) : s.evict = s := by
  unfold State.evict
  rw [List.find?_eq_none.2 fun y hy => by simpa using h y hy]

theorem evict_some {s : State} {x : Parked} (h : (s.pkg.parked.find? fun y => y.held && y.loc == s.core.idx) = some x) : s.evict =
    { s with
      mem := (s.mem.copyIn s.mem (keyVault s.core.idx 0x1800000) (7 * 2 ^ 20) (keyCl (bindCkpt x.bind + 8 * 2 ^ 20))).putLe
        (regRegion (bindCkpt x.bind) + 40) 8 0xFF
      pkg := { s.pkg with parked := s.pkg.parked.map fun y => if y == x then { x with loc := 255, held := false } else y } } := by
  unfold State.evict
  rw [h]

/-! ### RELEASE (R26, R354) -/

/-- The entry of a finished job is free again, its job is gone, and the objects loaded for it are no job's. -/
def Package.released (p : Package) (k : Nat) : Package :=
  { p.setCounter k { p.counter k with live := false } with
    jobs := p.jobs.filter fun j => j.ctr != k
    loaded := p.loaded.map fun o => if o.job == k then { o with job := 4096 } else o }

theorem mbRelease_eq (s : State) (k : Nat) : s.mbRelease k =
    if (s.pkg.counter k).live = false ∨ (s.pkg.counter k).level ≠ 5 then (4, s)
    else if (s.pkg.counter k).state ≠ 2 ∧ (s.pkg.counter k).state ≠ 4 ∧ (s.pkg.counter k).state ≠ 5 then (3, s)
    else (0, s.pkgd fun p => p.released k) := by
  unfold State.mbRelease
  dsimp only
  refine if_congr (by simp) rfl (if_congr ?_ rfl rfl)
  simp [stFinal, stComplete, stCancelled, stFaulted, and_assoc]

/-! ### CANCEL of a launch that has no unit left (R29) -/

/-- The launch ends CANCELLED, and what it still counted as outstanding counts as failed. -/
def Package.launchOver (p : Package) (k g : Nat) : Package :=
  let c := p.counter k
  (childEnded true 2 g ((p.setCounter k { c with state := 3, outstanding := 0, failed := min 0xFFFFFF (c.failed + c.outstanding) }).release k 4)).settle

theorem cancelLaunch_over {s : State} {k g : Nat} (hl : (s.pkg.counter k).live = true) (hs : stFinal (s.pkg.counter k).state = false)
    (hg : (s.pkg.counter k).parent = some g) (hu : s.pkg.openUnits k = []) : s.cancelLaunch k = s.pkgd fun p => p.launchOver k g := by
  unfold State.cancelLaunch
  dsimp only [State.pkgd]
  rw [if_neg (by simp [hl, hs]), if_pos (by simp [hu]), hu]
  split
  · next up h =>
    cases hg.symm.trans h
    rfl
  · next h => cases hg.symm.trans h

theorem launchOver_counter {p : Package} {k g : Nat} (hgk : g ≠ k) (ho : 2 ≤ (p.counter g).outstanding)
    (hst : ∀ g ∈ p.graphs, ∀ y ∈ g.launches, y.st ≠ 0) :
    (p.launchOver k g).counter k = { p.counter k with
      state := 4, outstanding := 0, failed := min 0xFFFFFF ((p.counter k).failed + (p.counter k).outstanding), live := false } ∧
    (p.launchOver k g).counter g = { p.counter g with
      outstanding := (p.counter g).outstanding - 1, failed := min ((p.counter g).failed + 1) 0xFFFFFF } := by
  let c := p.counter k
  let q := (p.setCounter k { c with state := 3, outstanding := 0, failed := min 0xFFFFFF (c.failed + c.outstanding) }).release k 4
  have hq (j : Nat) : q.counter j =
      if j = k then { c with state := 4, outstanding := 0, failed := min 0xFFFFFF (c.failed + c.outstanding), live := false } else p.counter j := by
    refine (Package.counter_setCounter ..).trans ?_
    split
    · rw [Package.counter_setCounter, if_pos rfl]
    · next hj => rw [Package.counter_setCounter, if_neg hj]
  have hqg : q.counter g = p.counter g := (hq g).trans (if_neg hgk)
  have hover : p.launchOver k g = (q.setCounter g ((p.counter g).less true)).settle := by
    rw [← hqg]
    exact congrArg Package.settle (childEnded_goesOn (p := q) (by rwa [hqg]))
  have hcount (j : Nat) : (p.launchOver k g).counter j = if j = g then (p.counter g).less true else q.counter j := by
    rw [hover, ← Package.counter_setCounter q g j]
    exact congrArg (look _ · j) (settle_counters (p := q.setCounter g _) hst)
  refine ⟨?_, ?_⟩
  · rw [hcount, if_neg (Ne.symm hgk), hq, if_pos rfl]
  · rw [hcount, if_pos rfl]
    rfl

/-! ### MACHINE_CHECK (R31, R329) -/

/-- What a machine check leaves of a unit whose started work has landed. -/
structure State.Discarded (s : State) (fab : Option Nat) (t : State) : Prop where
  unit : t.core.fe.unit = .empty
  slot : t.core.slot = { s.core.slot with act := 0 }
  qs : t.core.qs = Queues.reset
  eng : ∀ q : Fin 5, t.core.eng.q[q] = []
  porch : t.core.lsu.porch = s.core.lsu.porch.filter fun e => !s.ownEntry e
  pkg : t.pkg = { s.pkg.orphan s.core.idx with
    parked := s.pkg.parked.map fun y => if bindUctr y.bind = s.uctr then { y with parked := true } else y
    cutOff := (s.bind, fab) :: s.pkg.cutOff.filter fun y => bindUctr y.1 != s.uctr }
  mem : t.mem = s.mem
  alone : bindGang s.bind = false → t.others = s.others
  gang : bindGang s.bind = true → t.others.length = s.others.length ∧ ∀ (n : Nat) (d e : Core), s.others[n]? = some d → t.others[n]? = some e →
    (GangMate s.bind d → Requested d e) ∧ (¬ GangMate s.bind d → e = d)

theorem Core.requestPre_eq (c : Core) : ∃ f, c.requestPre = { c with fe := f } := by
  have asked : ∃ f, (if c.fe.preReq.isSome then c else { c with fe := { c.fe with preReq := some c.fe.cycle, bndSeen := false } }) = { c with fe := f } := by
    split
    · exact ⟨c.fe, rfl⟩
    · exact ⟨_, rfl⟩
  unfold Core.requestPre
  split
  · exact asked
  · exact asked
  · exact asked
  · exact asked
  · exact ⟨c.fe, rfl⟩

/-- The other units of a gang are asked to stop; of the core that moves only its front end may change. -/
theorem gangAlerted (s : State) : ∃ f os, (if bindGang s.bind then s.requestPre else s) = { s with core := { s.core with fe := f }, others := os } ∧
    (bindGang s.bind = false → os = s.others) ∧
    (bindGang s.bind = true → os.length = s.others.length ∧ ∀ (n : Nat) (d e : Core), s.others[n]? = some d → os[n]? = some e →
      (GangMate s.bind d → Requested d e) ∧ (¬ GangMate s.bind d → e = d)) := by
  cases hg : bindGang s.bind with
  | false => exact ⟨s.core.fe, s.others, rfl, fun _ => rfl, fun h => absurd h (by decide)⟩
  | true =>
    have hr := (requestReaches_requestPre s).2.2.2.2 hg
    let ask (c : Core) : Core := if c.busy && bindGang c.slot.act.toNat && bindLctr c.slot.act.toNat == bindLctr s.core.slot.act.toNat then c.requestPre else c
    have hs : s.requestPre = s.mapCores ask := if_pos hg
    obtain ⟨f, hf⟩ : ∃ f, ask s.core = { s.core with fe := f } := by
      dsimp only [ask]
      split
      · exact s.core.requestPre_eq
      · exact ⟨s.core.fe, rfl⟩
    refine ⟨f, s.others.map ask, ?_, fun h => absurd h (by decide), fun _ => ⟨List.length_map _, fun n d e hd he => ?_⟩⟩
    · rw [if_pos rfl, hs]
      unfold State.mapCores
      rw [hf]
    · exact hr (n + 1) d e (by simpa using hd) (by rw [hs]; simpa [State.mapCores] using he)

theorem discardUnit_spec (s : State) (fab : Option Nat) : s.Discarded fab (s.discardUnit fab) := by
  obtain ⟨f, os, hu, halone, hgang⟩ := gangAlerted s
  unfold State.discardUnit
  dsimp only
  rw [hu]
  refine { unit := rfl, slot := rfl, qs := rfl, eng := fun q => ?_, porch := rfl, pkg := ?_, mem := rfl, alone := halone, gang := hgang }
  · exact Vector.getElem_replicate ..
  · simp only [beq_iff_eq]
    rfl

/-- The unit that a machine check stops, which is not stopped already. -/
theorem machineStop_eq {s : State} (fab : Option Nat) (pipe : Nat) (h : s.core.fe.stopped = false) : ∃ box free, s.machineStop fab pipe =
    { s with core := { s.core with fe := { s.core.fe with unit := .checked fab pipe } }, pkg := { s.pkg with bbox := box }, free := free } := by
  obtain ⟨b1, f1, h1⟩ := bb_eq s (.trap .machineCheck)
  obtain ⟨b2, f2, h2⟩ := bb_eq (s.bb (.trap .machineCheck)) .machineCheck
  refine ⟨b2, f2, ?_⟩
  unfold State.machineStop
  rw [h2, h1]
  exact if_neg (by rw [show ((s.noted b1 f1).noted b2 f2).core = s.core from rfl, h]; decide)

theorem stopped_eq_false {c : Core} (hb : c.busy = true) (h : ∀ g p, c.fe.unit ≠ .checked g p) : c.fe.stopped = false := by
  unfold Front.stopped
  split
  · next hu => rw [Core.busy, hu] at hb; cases hb
  · next hu => exact absurd hu (h _ _)
  · rfl

theorem machineCheck_stop {s : State} {fab : Option Nat} (hu : s.hearthUp = true) (hb : s.core.busy = true) (h : ∀ g p, s.core.fe.unit ≠ .checked g p) :
    s.machineCheck fab = some (if (s.machineStop fab 1).landed then (s.machineStop fab 1).discardUnit fab else s.machineStop fab 1) := by
  unfold State.machineCheck
  rw [hu, hb, if_neg (by decide)]
  split
  · next hc => exact absurd hc (h _ _)
  · rfl

theorem machineCheck_checked {s : State} {fab : Option Nat} {p : Nat} (hu : s.hearthUp = true) (hb : s.core.busy = true)
    (h : s.core.fe.unit = .checked fab p) (hl : s.landed = true) : s.machineCheck fab = some (s.discardUnit fab) := by
  unfold State.machineCheck
  rw [hu, hb, if_neg (by decide), h]
  exact if_pos (by simp [hl])

/-- Once what has started has landed, the core's state is discarded, whether the unit had stopped already or stops now. -/
theorem machineCheck_landed {s : State} {fab : Option Nat} (hu : s.hearthUp = true) (hb : s.core.busy = true)
    (hc : ∀ g p, s.core.fe.unit = .checked g p → g = fab) (hl : s.landed = true) :
    ∃ t, s.machineCheck fab = some t ∧ ∃ box, ({ s with pkg := { s.pkg with bbox := box } } : State).Discarded fab t := by
  by_cases h : ∃ g p, s.core.fe.unit = .checked g p
  · obtain ⟨g, p, h⟩ := h
    cases hc g p h
    exact ⟨_, machineCheck_checked hu hb h hl, s.pkg.bbox, discardUnit_spec s fab⟩
  · have h (g : Option Nat) (p : Nat) : s.core.fe.unit ≠ .checked g p := fun e => h ⟨g, p, e⟩
    obtain ⟨box, free, hs⟩ := machineStop_eq fab 1 (stopped_eq_false hb h)
    have hl' : (s.machineStop fab 1).landed = true := by rw [hs]; exact hl
    refine ⟨_, (machineCheck_stop hu hb h).trans (congrArg some (if_pos hl')), box, ?_⟩
    rw [hs]
    exact { discardUnit_spec _ fab with }

/-! ### The statement -/

theorem slotCtlCancel_settled {s : State} (hu : s.hearthUp = true) :
    (s.core.busy = true → Answers .slotCtlCancel s fun t =>
      StoppedEarly { s with mem := s.mem.putLe (regAt s.bind 0) 8 0 } 4 t ∧ t.others = s.others ∧
      t.core.lsu.porch = s.core.lsu.porch.filter fun e => !s.ownEntry e) ∧
    (s.core.busy = false → Answers .slotCtlCancel s fun t => t = s) := by
  refine ⟨fun hb => ?_, fun hb => ?_⟩
  · obtain ⟨hs, hp⟩ := stopUnit_here_stopped (k := bindUctr s.core.slot.act.toNat) hb rfl
    rw [regAt_zero]
    refine answers_event rfl ?_ ⟨hs.toStoppedEarly, hs.others, hp⟩
    rw [hu, hb]
    rfl
  · refine answers_event rfl ?_ rfl
    rw [hu, hb]
    rfl

theorem answers_mailed {i : Instr} {s t : State} {P : State → Prop} {name : String} {op code : Nat} {f : State → Nat × State} {buf : Option Nat}
    (hi : exec i s = event name (if s.hearthUp && s.mboxFor op buf then some (s.mbox op f) else none)) (hu : s.hearthUp = true) (hm : MailFree s op buf)
    (h : f (s.bb (.mailbox op)) = (code, t)) (hp : P (t.setCode code)) : Answers i s P := by
  refine answers_event hi ?_ hp
  rw [hu, mboxFor_of_free hm, mbox_eq h]
  rfl

/-! ### CANCEL through the mailbox -/

theorem mbCancel_unknown {s : State} {k : Nat} (h : (s.pkg.counter k).level = 0) : s.mbCancel k = (4, s) := if_pos h

theorem mbCancel_final {s : State} {k : Nat} (hl : (s.pkg.counter k).level ≠ 0)
    (h : ¬ ((s.pkg.counter k).live = true ∧ (s.pkg.counter k).state ≠ 2 ∧ (s.pkg.counter k).state ≠ 4 ∧ (s.pkg.counter k).state ≠ 5)) :
    s.mbCancel k = (2, s) := by
  refine (if_neg hl).trans (if_pos ?_)
  rw [← Bool.not_eq_false]
  intro hn
  have hn : (s.pkg.counter k).live = true ∧ stFinal (s.pkg.counter k).state = false := by simpa using hn
  exact h ⟨hn.1, by simpa [stFinal, stComplete, stCancelled, stFaulted, and_assoc] using hn.2⟩

theorem mbCancel_open {s : State} {k : Nat} (hl : (s.pkg.counter k).level ≠ 0)
    (h : (s.pkg.counter k).live = true ∧ (s.pkg.counter k).state ≠ 2 ∧ (s.pkg.counter k).state ≠ 4 ∧ (s.pkg.counter k).state ≠ 5) :
    s.mbCancel k = (0, s.cancel k) :=
  (if_neg hl).trans (if_neg (by simp [h.1, stFinal_eq_false h.2]))

theorem mbCancel_unit {s : State} {k : Nat} (hl : (s.pkg.counter k).level = 1)
    (h : (s.pkg.counter k).live = true ∧ (s.pkg.counter k).state ≠ 2 ∧ (s.pkg.counter k).state ≠ 4 ∧ (s.pkg.counter k).state ≠ 5) :
    s.mbCancel k = (0, s.stopUnit k) := by
  rw [mbCancel_open (by rw [hl]; decide) h, State.cancel, hl]
  rfl

theorem mbCancel_launch {s : State} {k : Nat} (hl : (s.pkg.counter k).level = 2)
    (h : (s.pkg.counter k).live = true ∧ (s.pkg.counter k).state ≠ 2 ∧ (s.pkg.counter k).state ≠ 4 ∧ (s.pkg.counter k).state ≠ 5) :
    s.mbCancel k = (0, s.cancelLaunch k) := by
  rw [mbCancel_open (by rw [hl]; decide) h, State.cancel, hl]
  rfl

/-- CANCEL of the unit that is bound here. -/
theorem cancel_here {s : State} {k : Nat} (hu : s.hearthUp = true) (hm : MailFree s 2 none)
    (ho : (s.pkg.counter k).live = true ∧ (s.pkg.counter k).state ≠ 2 ∧ (s.pkg.counter k).state ≠ 4 ∧ (s.pkg.counter k).state ≠ 5)
    (hl : (s.pkg.counter k).level = 1) (hh : (s.core.busy && bindUctr s.core.slot.act.toNat == k) = true) :
    Answers (.cancel k) s fun t => MailedCode s 0 t ∧ t.core.fe.unit = .ended ∧ t.others = s.others ∧ t.mem = s.mem.putLe (regAt s.bind 0) 8 0 ∧
      ∃ box st, t.pkg = { ((({ s.pkg with bbox := box } : Package).orphan s.core.idx).endUnit k 4) with mboxStat := st, mbox := none } := by
  obtain ⟨hb, hk⟩ := Bool.and_eq_true_iff.1 hh
  have hk : bindUctr s.core.slot.act.toNat = k := by simpa using hk
  obtain ⟨box, free, hbox⟩ := bb_eq s (.mailbox 2)
  obtain ⟨hs, -⟩ := stopUnit_here_stopped (s := s.noted box free) (k := k) hb hk
  refine answers_mailed (s := s) (t := (s.noted box free).stopUnit k) (code := 0) rfl hu hm ?_ ?_
  · rw [hbox]
    exact mbCancel_unit (s := s.noted box free) hl ho
  · obtain ⟨b, hp⟩ := hs.pkg
    have hp : ((s.noted box free).stopUnit k).pkg = (({ s.pkg with bbox := b } : Package).orphan s.core.idx).endUnit k 4 := by rw [hp, ← hk]; rfl
    rw [regAt_zero]
    refine ⟨mailedCode_setCode (by decide) ?_, hs.unit, hs.others, hs.mem, b, (((s.noted box free).stopUnit k).setCode 0).pkg.mboxStat, ?_⟩
    · rw [hp, endUnit_mboxStat]
      rfl
    · exact (pkg_setCode _ 0).trans (by rw [hp])

/-- CANCEL of a unit that waits. -/
theorem cancel_away {s : State} {k : Nat} (hu : s.hearthUp = true) (hm : MailFree s 2 none)
    (ho : (s.pkg.counter k).live = true ∧ (s.pkg.counter k).state ≠ 2 ∧ (s.pkg.counter k).state ≠ 4 ∧ (s.pkg.counter k).state ≠ 5)
    (hl : (s.pkg.counter k).level = 1) (hh : (s.core :: s.others).any (fun c => c.busy && bindUctr c.slot.act.toNat == k) = false) :
    Answers (.cancel k) s fun t => MailedCode s 0 t ∧
      t.mem = (match s.pkg.parked.find? fun y => bindUctr y.bind == k with | some y => s.mem.putLe (regAt y.bind 0) 8 0 | none => s.mem) ∧
      (∃ box st, t.pkg = { ({ s.pkg with bbox := box } : Package).endUnit k 4 with mboxStat := st, mbox := none }) ∧
      ∀ (n : Nat) (d e : Core), (s.core :: s.others)[n]? = some d → (t.core :: t.others)[n]? = some e →
        e = if bindV d.slot.stby.toNat = true ∧ bindUctr d.slot.stby.toNat = k then { d with slot := { d.slot with stby := 0 } } else d := by
  obtain ⟨box, free, hbox⟩ := bb_eq s (.mailbox 2)
  obtain ⟨b, f, hs⟩ := stopUnit_away (s := s.noted box free) (k := k) hh
  refine answers_mailed (s := s) (t := (s.noted box free).stopUnit k) (code := 0) rfl hu hm ?_ ?_
  · rw [hbox]
    exact mbCancel_unit (s := s.noted box free) hl ho
  · rw [hs]
    refine ⟨mailedCode_setCode (by decide) ?_, ?_, ⟨b, _, rfl⟩, fun n d e hd he => ?_⟩
    · exact endUnit_mboxStat ..
    · simp only [regAt_zero]
      rfl
    · rw [mapCores_get (f := Core.unstood k) hd he]
      simp only [Core.unstood, Bool.and_eq_true, beq_iff_eq]

/-- CANCEL of a launch without a unit left. -/
theorem cancel_launch_over {s : State} {k g : Nat} (hu : s.hearthUp = true) (hm : MailFree s 2 none)
    (ho : (s.pkg.counter k).live = true ∧ (s.pkg.counter k).state ≠ 2 ∧ (s.pkg.counter k).state ≠ 4 ∧ (s.pkg.counter k).state ≠ 5)
    (hl : (s.pkg.counter k).level = 2) (hg : (s.pkg.counter k).parent = some g) (hn : s.pkg.openUnits k = []) :
    Answers (.cancel k) s fun t => MailedCode s 0 t ∧ CoresStay s t ∧ t.mem = s.mem ∧
      ∃ box, t.pkg.counter = (({ s.pkg with bbox := box } : Package).launchOver k g).counter := by
  obtain ⟨box, free, hbox⟩ := bb_eq s (.mailbox 2)
  refine answers_mailed (s := s) (t := (s.noted box free).pkgd fun p => p.launchOver k g) (code := 0) rfl hu hm ?_
    ⟨mailedCode_setCode (by decide) ?_, ⟨rfl, rfl⟩, rfl, box, rfl⟩
  · rw [hbox]
    rw [mbCancel_launch (s := s.noted box free) hl ho, cancelLaunch_over (s := s.noted box free) ho.1 (stFinal_eq_false ho.2) hg hn]
  · exact (settle_mboxStat _).trans ((childEnded_mboxStat ..).trans rfl)

/-- A command that finds nothing to do: its code, and nothing else. -/
theorem answers_refused {i : Instr} {s : State} {name : String} {op code : Nat} {f : State → Nat × State} {buf : Option Nat}
    (hi : exec i s = event name (if s.hearthUp && s.mboxFor op buf then some (s.mbox op f) else none)) (hu : s.hearthUp = true) (hm : MailFree s op buf)
    (hc : code < 256) (h : ∀ box free, f (s.noted box free) = (code, s.noted box free)) :
    Answers i s fun t => MailedCode s code t ∧ CoresStay s t ∧ t.mem = s.mem ∧ t.pkg.counters = s.pkg.counters ∧ t.pkg.jobs = s.pkg.jobs := by
  obtain ⟨box, free, hbox⟩ := bb_eq s (.mailbox op)
  exact answers_mailed hi hu hm ((congrArg f hbox).trans (h box free)) ⟨mailedCode_setCode hc rfl, ⟨rfl, rfl⟩, rfl, rfl, rfl⟩

theorem Answers.mono {i : Instr} {s : State} {P Q : State → Prop} (h : Answers i s P) (hpq : ∀ t, P t → Q t) : Answers i s Q := by
  obtain ⟨t, ht, hp⟩ := h
  exact ⟨t, ht, hpq t hp⟩

/-- RELEASE of a finished job. -/
theorem release_finished {s : State} {k : Nat} (hu : s.hearthUp = true) (hm : MailFree s 9 none) (h : ∀ box free, (s.noted box free).mbRelease k =
    (0, (s.noted box free).pkgd fun p => p.released k)) : Answers (.release k) s fun t => MailedCode s 0 t ∧ CoresStay s t ∧ t.mem = s.mem ∧
      t.pkg.counter k = { s.pkg.counter k with live := false } ∧ (∀ i, i ≠ k → t.pkg.counter i = s.pkg.counter i) ∧
      t.pkg.jobs = s.pkg.jobs.filter fun j => j.ctr != k := by
  obtain ⟨box, free, hbox⟩ := bb_eq s (.mailbox 9)
  refine answers_mailed (s := s) rfl hu hm ((congrArg (State.mbRelease · k) hbox).trans (h box free)) ?_
  refine ⟨mailedCode_setCode (by decide) rfl, ⟨rfl, rfl⟩, rfl, ?_, fun i hi => ?_, rfl⟩
  · exact (Package.counter_setCounter ..).trans (if_pos rfl)
  · exact (Package.counter_setCounter ..).trans (if_neg hi)

/-- Settles O51: a unit that is cancelled stops where it is bound or waits; the mailbox commands answer by the counter; a machine check discards what has landed. -/
theorem cancelEvictRelease : Obligations.CancelEvictRelease := by
  unfold Obligations.CancelEvictRelease
  intro s k x
  dsimp only
  intro hu
  obtain ⟨h1, h2⟩ := slotCtlCancel_settled hu
  refine ⟨h1, h2, fun hm hl => ?_, fun hm hl ho => ?_, ?_, ?_, ?_, ?_, ?_, ?_, ?_⟩
  · exact (answers_refused rfl hu hm (code := 4) (by decide) fun box free => mbCancel_unknown (s := s.noted box free) hl).mono fun t ⟨a, b, _, c, _⟩ => ⟨a, b, c⟩
  · exact (answers_refused rfl hu hm (code := 2) (by decide) fun box free => mbCancel_final (s := s.noted box free) hl ho).mono fun t ⟨a, b, _, c, _⟩ => ⟨a, b, c⟩
  · exact fun hm ho hl hh => (cancel_here hu hm ho hl hh).mono fun t ⟨a, b, c, d, box, st, e⟩ => ⟨a, b, c, d, box, st, e⟩
  · exact fun hm ho hl hh => (cancel_away hu hm ho hl hh).mono fun t ⟨a, b, ⟨box, st, c⟩, d⟩ => ⟨a, b, ⟨box, st, c⟩, d⟩
  · intro g hm ho hl hg hgk h2 hn hst
    refine (cancel_launch_over hu hm ho hl hg hn).mono fun t ⟨a, b, c, box, d⟩ => ⟨a, b, c, ?_⟩
    rw [d]
    exact launchOver_counter (p := { s.pkg with bbox := box }) hgk h2 hst
  · intro hn
    refine answers_event rfl ?_ rfl
    rw [hu, evict_none hn]
    rfl
  · intro hx hwf
    refine answers_event (t := s.evict) rfl (by rw [hu]; rfl) ?_
    have hm := Memory.wf_copyIn hwf hwf (keyVault s.core.idx 0x1800000) (7 * 2 ^ 20) (keyCl (bindCkpt x.bind + 8 * 2 ^ 20))
    rw [evict_some hx]
    refine ⟨⟨rfl, rfl⟩, fun o ho => ?_, ?_, ?_⟩
    · dsimp only
      rw [Memory.read_putLe_of_not, Memory.read_copyIn, if_pos]
      · rw [Nat.add_sub_cancel_left, Nat.add_comm]
      · omega
      · unfold regRegion keyCl
        omega
    · rw [regAt_eq]
      exact (Memory.le_putLe hm _ 8 0xFF).trans (by norm_num)
    · simp only [beq_iff_eq]
  · intro hm
    have hr (box : BlackBox) (free : Nat) := mbRelease_eq (s.noted box free) k
    by_cases hn : (s.pkg.counter k).live = false ∨ (s.pkg.counter k).level ≠ 5
    · simp only [if_pos hn]
      exact (answers_refused rfl hu hm (code := 4) (by decide) fun box free => (hr box free).trans (if_pos hn)).mono
        fun t ⟨a, b, c, d, e⟩ => ⟨b, c, a, d, e⟩
    · have hr (box : BlackBox) (free : Nat) := (hr box free).trans (if_neg hn)
      by_cases hs : (s.pkg.counter k).state ≠ 2 ∧ (s.pkg.counter k).state ≠ 4 ∧ (s.pkg.counter k).state ≠ 5
      · simp only [if_neg hn, if_pos hs]
        exact (answers_refused rfl hu hm (code := 3) (by decide) fun box free => (hr box free).trans (if_pos hs)).mono
          fun t ⟨a, b, c, d, e⟩ => ⟨b, c, a, d, e⟩
      · simp only [if_neg hn, if_neg hs]
        exact (release_finished hu hm fun box free => (hr box free).trans (if_neg hs)).mono fun t ⟨a, b, c, d⟩ => ⟨b, c, a, d⟩
  · intro fab hb hc
    refine ⟨fun hl hn => ?_, fun hl => ?_⟩
    · obtain ⟨box, free, hs⟩ := machineStop_eq fab 1 (stopped_eq_false hb hn)
      refine answers_event rfl ((machineCheck_stop hu hb hn).trans (congrArg some (if_neg ?_))) ?_
      · rw [hs]
        exact Bool.not_eq_true _ ▸ hl
      · rw [hs]
        exact ⟨rfl, rfl, rfl, rfl⟩
    · obtain ⟨t, ht, box, hd⟩ := machineCheck_landed hu hb hc hl
      exact answers_event rfl ht ⟨hd.unit, hd.slot, hd.qs, hd.eng, hd.porch, ⟨box, hd.pkg⟩, hd.mem, hd.alone, hd.gang⟩

end Sys2Proof.Machine
end

section
/-! PROOFS. The unit switch of a fresh unit (O47). -/

namespace Sys2Proof.Machine

/-! ### What an engine's walks read and change (R89) -/

/-- Two states in which an engine's walks go alike: the same memory, package and micro-TLB, and the same unit on the same core. -/
structure State.WalksAs (s t : State) : Prop where
  mem : t.mem = s.mem
  pkg : t.pkg = s.pkg
  idx : t.core.idx = s.core.idx
  act : t.core.slot.act = s.core.slot.act
  utlb : t.core.lsu.utlb = s.core.lsu.utlb

/-- What a walk of s meets, in the other parts of t. -/
def State.graft (s t : State) : State :=
  { t with
    core := { t.core with idx := s.core.idx, slot := { t.core.slot with act := s.core.slot.act }, lsu := { t.core.lsu with utlb := s.core.lsu.utlb } }
    mem := s.mem
    pkg := s.pkg }

theorem State.WalksAs.eq {s t : State} (h : s.WalksAs t) : t = s.graft t := by
  unfold State.graft
  rw [← h.mem, ← h.pkg, ← h.idx, ← h.act, ← h.utlb]

theorem State.WalksAs.keysWalk {s t : State} (h : s.WalksAs t) (a n : Nat) : t.keysWalk .cl a n false = s.keysWalk .cl a n false := by
  have hx (b : Nat) : t.xlateWalk .cl b false = s.xlateWalk .cl b false := by
    rw [h.eq]
    rfl
  unfold State.keysWalk
  simp only [hx]

/-- The leaf that the caches take for a page of a transfer, if no cache holds it and its walk does not fail. -/
def State.pageLeaf (s : State) (va : Nat) : Option TlbEntry :=
  match s.cached .cl va, s.part with
  | none, some p =>
    match walk s.mem 0 .cl (p.root .cl) va false with
    | .ok (ea, e, size) => some (leafEntry s.partId .cl va ea e size)
    | .error _ => none
  | _, _ => none

/-- One page of a transfer is walked. -/
def State.fillPage (s : State) (va : Nat) : State := match s.pageLeaf va with | some e => s.fillTlb e | none => s

theorem fillWalks_cl (s : State) (a n : Nat) : s.fillWalks .cl a n =
    ((List.range ((a + n - 1) / 2 ^ 16 - a / 2 ^ 16 + 1)).map fun k => max a ((a / 2 ^ 16 + k) * 2 ^ 16)).foldl State.fillPage s := by
  refine (if_pos rfl).trans (congrArg (List.foldl · s _) ?_)
  funext s va
  unfold State.fillPage State.pageLeaf
  cases s.cached .cl va with
  | some e => rfl
  | none =>
    cases s.part with
    | none => rfl
    | some p =>
      dsimp only
      cases walk s.mem 0 .cl (p.root .cl) va false <;> rfl

theorem State.WalksAs.fillTlb {s t : State} (h : s.WalksAs t) (e : TlbEntry) : (s.fillTlb e).WalksAs (t.fillTlb e) := by
  rw [h.eq]
  exact ⟨rfl, rfl, rfl, rfl, rfl⟩

theorem State.WalksAs.fillPage {s t : State} (h : s.WalksAs t) (va : Nat) : (s.fillPage va).WalksAs (t.fillPage va) := by
  have hl : t.pageLeaf va = s.pageLeaf va := by
    rw [h.eq]
    rfl
  unfold State.fillPage
  rw [hl]
  split
  · exact h.fillTlb _
  · exact h

theorem State.WalksAs.fillWalks {s t : State} (h : s.WalksAs t) (a n : Nat) : (s.fillWalks .cl a n).WalksAs (t.fillWalks .cl a n) := by
  rw [fillWalks_cl, fillWalks_cl]
  generalize (List.range ((a + n - 1) / 2 ^ 16 - a / 2 ^ 16 + 1)).map (fun k => max a ((a / 2 ^ 16 + k) * 2 ^ 16)) = l
  induction l generalizing s t with
  | nil => exact h
  | cons va l ih => exact ih (h.fillPage va)

/-- What walks change: memory, where access counts are written back, and the caches of translations. -/
structure State.Walked (s t : State) : Prop where
  core : t.core = { s.core with lsu := { s.core.lsu with utlb := t.core.lsu.utlb } }
  others : t.others = s.others
  pkg : t.pkg = { s.pkg with dieTlb := t.pkg.dieTlb }

theorem State.Walked.refl (s : State) : s.Walked s := ⟨rfl, rfl, rfl⟩

theorem State.Walked.trans {a b c : State} (h : a.Walked b) (k : b.Walked c) : a.Walked c :=
  ⟨by rw [k.core, h.core], k.others.trans h.others, by rw [k.pkg, h.pkg]⟩

theorem walked_fillPage (s : State) (va : Nat) : s.Walked (s.fillPage va) := by
  unfold State.fillPage
  split
  · exact ⟨rfl, rfl, rfl⟩
  · exact .refl s

theorem walked_fillWalks (s : State) (a n : Nat) : s.Walked (s.fillWalks .cl a n) := by
  rw [fillWalks_cl]
  generalize (List.range ((a + n - 1) / 2 ^ 16 - a / 2 ^ 16 + 1)).map (fun k => max a ((a / 2 ^ 16 + k) * 2 ^ 16)) = l
  induction l generalizing s with
  | nil => exact .refl s
  | cons va l ih => exact (walked_fillPage s va).trans (ih _)

/-- Where no word has an error, an engine's read of the Cellar takes the bytes where the walks find them. -/
theorem engRead_cl {s : State} {a n : Nat} {ks : List Nat} (hp : s.pkg.poison = []) (hw : s.pkg.weak = [])
    (hk : (s.fillWalks .cl a n).keysWalk .cl a n false = .ok ks) :
    s.engRead .cl a n = .ok (ks.map (s.fillWalks .cl a n).mem.read, s.fillWalks .cl a n) := by
  have hpkg := (walked_fillWalks s a n).pkg
  have hp' : (s.fillWalks .cl a n).pkg.poison = [] := (congrArg Package.poison hpkg).trans hp
  have hw' : (s.fillWalks .cl a n).pkg.weak = [] := (congrArg Package.weak hpkg).trans hw
  unfold State.engRead
  rw [if_neg (by decide)]
  dsimp only
  rw [hk]
  dsimp only
  rw [hp']
  dsimp only [List.find?_nil]
  rw [correct_of_weak hw']
  rfl

/-! ### The plane (R35, R121, R122) -/

/-- The system registers that a plane loads. -/
def Sys.loaded (p : Plane) (y : Sys) : Sys :=
  { y with
    bankFmt := (List.range 256).filterMap fun b => if p.word b = 13 then none else some (b, p.word b)
    sd := vmap (fun i _ => p.word (272 + i.val)) y.sd
    timingCtl := p.word 280
    timingPad := vmap (fun i _ => p.word (281 + i.val)) y.timingPad
    atticCache := p.word 297
    creg := vmap (fun i _ => p.word (298 + i.val)) y.creg
    trapVec := p.word 314 }

/-- The hatch bindings that a plane loads. -/
def Queues.bound (p : Plane) (q : Queues) : Queues := { q with h := vmap (fun i _ => ⟨(p.word (256 + i.val)).setWidth 8, []⟩) q.h }

/-- A sparse table of a function's values that differ from the default reads as the function. -/
theorem look_filterMap_range {α : Type} [DecidableEq α] (d : α) (f : Nat → α) {n k : Nat} (hk : k < n) :
    look d ((List.range n).filterMap fun b => if f b = d then none else some (b, f b)) k = f k := by
  unfold look
  rw [List.find?_filterMap]
  have hsome (b : Nat) : Option.any (fun c : Nat × α => c.1 == k) (if f b = d then none else some (b, f b)) = true ↔ f b ≠ d ∧ b = k := by
    by_cases h : f b = d <;> simp [h]
  cases hf : (List.range n).find? fun b => Option.any (fun c : Nat × α => c.1 == k) (if f b = d then none else some (b, f b)) with
  | none =>
    have := List.find?_eq_none.1 hf k (List.mem_range.2 hk)
    rw [hsome] at this
    exact (not_not.1 fun h => this ⟨h, rfl⟩).symm
  | some b =>
    have := List.find?_some hf
    rw [hsome] at this
    obtain ⟨hb, rfl⟩ := this
    simp [hb]

theorem bankFmt_loaded {p : Plane} {y : Sys} {k : Nat} (hk : k < 256) : look 13 (y.loaded p).bankFmt k = p.word k :=
  look_filterMap_range 13 p.word hk

/-- A plane that keeps the size of the Attic cache loads registers and bindings alone. -/
theorem loadPlane_eq {s : State} (h : wfld (s.core.resident.word 297) 0 2 = wfld s.core.sys.atticCache 0 2) : s.loadPlane =
    s.withCore { s.core with sys := s.core.sys.loaded s.core.resident, qs := s.core.qs.bound s.core.resident } := by
  unfold State.loadPlane
  refine (if_pos ?_).trans rfl
  unfold State.atticSize
  rw [← h]
  rfl

theorem flip_eq {s : State} {g : Nat} {p : Plane} (hp : PlaneFor s.core g p) (h : wfld (p.word 297) 0 2 = wfld s.core.sys.atticCache 0 2) :
    s.flip g = some (s.withCore { s.core with resident := p, sys := s.core.sys.loaded p, qs := s.core.qs.bound p }) := by
  unfold State.flip
  rcases hp with ⟨hg, rfl⟩ | ⟨hr, hg, rfl⟩
  · rw [if_pos hg, loadPlane_eq h]
  · rw [if_neg hr, if_pos hg, loadPlane_eq (s := s.withCore { s.core with resident := s.core.shadow }) h]
    rfl

/-! ### A fresh unit's core (R35) -/

/-- The core of a fresh unit before its parameters and its Loft image are read. -/
def State.freshCore (s : State) (b entry shape : Nat) : Core :=
  let c := if s.core.prevJob == some s.jobRef then s.core else s.core.wipe
  { c with
    regs := freshRegs b shape
    qs := { Queues.reset with h := c.qs.h }
    lsu := { c.lsu with acc := [], heldSt := [], ms := [], walks := [] }
    eng := Eng.reset
    circ := if s.core.prevJob == some s.jobRef then c.circ else Circuit.reset
    resh := none
    rsLast := 0
    vuse := false
    sys := { c.sys with rmode := 0, fpFlags := 0, frame := 0, timingLate := 0, loopState := 0, mloopStk := Vector.replicate 4 0, trapCause := 0,
                        trapPc := 0, trapOpc := 0, trapMpc := 0, trapUpc := 0, trapCpc := 0, trapFoot := Vector.replicate 4 0,
                        trapQpos := 0, trapInfo := 0 }
    fe := { Front.reset with unit := .switching, hold := 64, pc := BitVec.ofNat 64 (fld entry 0 56), cycle := c.fe.cycle,
                             icache := c.fe.icache, cstore := c.fe.cstore } }

/-- The parameters lie in the Cupboard below 256 (R35). -/
def State.withParams (s : State) (ps : List Byte) : State := s.mems fun m => { m with cup := (m.cup.clear 0 256).write 0 ps }

theorem freshUnit_eq {s : State} {b : Nat} {ws : List Word} {ks ls : List Nat} (hp : s.pkg.poison = []) (hw : s.pkg.weak = []) :
    let w (i : Nat) : Nat := (ws.getD i 0).toNat
    let la := fld (w 3) 0 56
    let u := s.withCore (s.freshCore b (w 0) (w 2))
    let v := u.fillWalks .cl (fld (w 1) 0 56) (fld (w 2) 52 9)
    let v' := v.withParams (ks.map v.mem.read)
    let z := if la = 0 then v' else v'.fillWalks .cl la (v'.loftSize la)
    v.keysWalk .cl (fld (w 1) 0 56) (fld (w 2) 52 9) false = .ok ks → (la ≠ 0 → z.keysWalk .cl la (v'.loftSize la) false = .ok ls) →
    s.freshUnit b ws = some (z.withCore (z.core.loftImage (if la = 0 then [] else loftRecords (v'.loftSize la) (ls.map z.mem.read)))) := by
  intro w la u v v' z hks hls
  have hv := engRead_cl (s := u) hp hw hks
  unfold State.freshUnit
  show (match u.engRead .cl (fld (w 1) 0 56) (fld (w 2) 52 9) with | .error _ => none | .ok (ps, s) => _) = _
  rw [hv]
  have hv' := (walked_fillWalks u (fld (w 1) 0 56) (fld (w 2) 52 9)).pkg
  show (if la = 0 then some v' else match v'.engRead .cl la (v'.loftSize la) with | .error _ => none | .ok (bs, s) => _) = _
  by_cases hla : la = 0
  · have hz : z = v' := if_pos hla
    rw [if_pos hla, if_pos hla, hz]
    rfl
  · have hz : z = v'.fillWalks .cl la (v'.loftSize la) := if_neg hla
    have hl := engRead_cl (s := v') ((congrArg Package.poison hv').trans hp) ((congrArg Package.weak hv').trans hw) (by rw [← hz]; exact hls hla)
    rw [if_neg hla, if_neg hla, hl, hz]
    rfl

/-! ### The switch (R34, R319) -/

/-- What an ended unit has left on its core is gone (R36). -/
def State.vacated (s : State) : State := if s.core.fe.unit == .ended then s.withCore (s.core.clearUnit s.core.prevJob) else s

/-- What stays of a core when the unit before has gone. -/
structure State.Vacated (s t : State) : Prop where
  idx : t.core.idx = s.core.idx
  sys : t.core.sys = s.core.sys
  mems : t.core.mems = s.core.mems
  lhwm : t.core.lhwm = s.core.lhwm
  circ : t.core.circ = s.core.circ
  prevJob : t.core.prevJob = s.core.prevJob
  resident : t.core.resident = s.core.resident
  shadow : t.core.shadow = s.core.shadow
  porch : t.core.lsu.porch = s.core.lsu.porch
  utlb : t.core.lsu.utlb = s.core.lsu.utlb
  cycle : t.core.fe.cycle = s.core.fe.cycle
  stby : t.core.slot.stby = s.core.slot.stby
  others : t.others = s.others
  mem : t.mem = s.mem
  pkg : t.pkg = s.pkg

theorem vacated_spec (s : State) : s.Vacated s.vacated := by
  unfold State.vacated
  split
  · constructor <;> rfl
  · constructor <;> rfl

/-- The live state comes from the plane. -/
def State.planed (s : State) (p : Plane) : State := s.withCore { s.core with resident := p, sys := s.core.sys.loaded p, qs := s.core.qs.bound p }

/-- The state in which a fresh unit's core is made. -/
def State.seatFor (s : State) (p : Plane) : State := s.vacated.slotMoved.planed p

theorem walksAs_seatFor (s : State) (p : Plane) : s.slotMoved.WalksAs (s.seatFor p) := by
  have h := vacated_spec s
  exact ⟨h.mem, h.pkg, h.idx, h.stby, h.utlb⟩

theorem switchIn_fresh {s t : State} {p : Plane} (hp : PlaneFor s.core (bindGen s.core.slot.stby.toNat) p)
    (ha : wfld (p.word 297) 0 2 = wfld s.core.sys.atticCache 0 2) (hc : s.slotMoved.job.any p.carries = true)
    (hr : bindResume s.core.slot.stby.toNat = false)
    (ht : (s.seatFor p).freshUnit s.core.slot.stby.toNat (look [] s.pkg.launches (bindLctr s.core.slot.stby.toNat)) = some t) :
    s.switchIn = some ((t.bb .bind).pkgd fun q => q.firstBind s.core.slot.stby.toNat) := by
  have h := vacated_spec s
  have hp' : PlaneFor s.vacated.slotMoved.core (bindGen s.core.slot.stby.toNat) p := by
    unfold PlaneFor
    show (s.vacated.core.resident.gen = _ ∧ p = s.vacated.core.resident) ∨ (s.vacated.core.resident.gen ≠ _ ∧ s.vacated.core.shadow.gen = _ ∧ p = s.vacated.core.shadow)
    rw [h.resident, h.shadow]
    exact hp
  have hf : s.vacated.slotMoved.flip (bindGen s.core.slot.stby.toNat) = some (s.seatFor p) :=
    flip_eq hp' (ha.trans (congrArg (fun y : Sys => wfld y.atticCache 0 2) h.sys.symm))
  have hj : (s.seatFor p).job = s.slotMoved.job := by
    rw [(walksAs_seatFor s p).eq]
    rfl
  have hl : (s.seatFor p).job.any (s.seatFor p).core.resident.carries = true := by rw [hj]; exact hc
  unfold State.switchIn
  show (match s.vacated.slotMoved.flip (bindGen s.core.slot.stby.toNat) with | none => none | some s' => _) = _
  rw [hf]
  dsimp only
  rw [hl, hr, show (if (s.core.fe.unit == .ended) = true then s.withCore (s.core.clearUnit s.core.prevJob) else s).pkg = s.pkg from h.pkg, ht]
  rfl

/-- A unit that is switched alone: its own core switches. -/
theorem unitSwitch_alone {s t : State} {p : Plane} (h : s.CanSwitch p) (ht : s.switchIn = some t) : s.unitSwitch = some t := by
  have hgo : s.gangTogether s.core.slot.stby.toNat = true := by
    by_cases hg : bindGang s.core.slot.stby.toNat = true
    · exact (h.gang hg).1
    · unfold State.gangTogether
      simp [hg]
  unfold State.unitSwitch
  dsimp only
  rw [h.valid, h.slot, h.up, h.good, hgo]
  by_cases hg : bindGang s.core.slot.stby.toNat = true
  · have hall : State.switchAll s.core.idx [s.core.idx] s = some t := by
      have hidx := (switchIn_slot ht).2.1
      have hself : t.toCore s.core.idx = some t := if_pos hidx.symm
      have hhere : s.toCore s.core.idx = some s := if_pos rfl
      rw [State.switchAll, hhere, Option.bind_some, ht, Option.bind_some, State.switchAll, hself]
    rw [(h.gang hg).2, hg, hall]
    rfl
  · rw [if_neg (c := bindGang _ = true) hg]
    exact ht

/-- The Loft takes an image's records in their order (R245, R336). -/
theorem loftImage_eq (c : Core) (rs : List (Nat × Nat × List Byte)) : c.loftImage rs =
    { c with mems := { c.mems with loft := rs.foldl (fun m r => m.write (r.1 * 2 ^ 16 + r.2.1) r.2.2) c.mems.loft }
             lhwm := rs.foldl (fun h r => max h (r.2.1 + r.2.2.length)) c.lhwm } := by
  unfold Core.loftImage
  induction rs generalizing c with
  | nil => rfl
  | cons r rs ih => exact ih _

/-- A Loft byte holds what the last record over it has written. -/
theorem read_loftWrites (rs : List (Nat × Nat × List Byte)) (m : Memory) (a : Nat) :
    (rs.foldl (fun m r => m.write (r.1 * 2 ^ 16 + r.2.1) r.2.2) m).read a = rs.foldl (fun (y : Byte) (r : Nat × Nat × List Byte) =>
      let lo := r.1 * 2 ^ 16 + r.2.1
      if lo ≤ a ∧ a < lo + r.2.2.length then r.2.2.getD (a - lo) 0 else y) (m.read a) := by
  induction rs generalizing m with
  | nil => rfl
  | cons r rs ih => rw [List.foldl_cons, List.foldl_cons, ih, Memory.read_write]

theorem State.Walked.loftSize {s t : State} (h : s.Walked t) (la : Nat) : t.loftSize la = s.loftSize la := by
  unfold State.loftSize State.uctr State.bind
  rw [h.core, h.pkg]
  rfl

theorem State.WalksAs.loftSize {s t : State} (h : s.WalksAs t) (la : Nat) : t.loftSize la = s.loftSize la := by
  rw [h.eq]
  rfl

/-- The Cupboard of a fresh unit: its parameters below 256, what stays of the memory above. -/
theorem read_params (m : Memory) {ps : List Byte} (hn : ps.length ≤ 256) (a : Nat) :
    ((m.clear 0 256).write 0 ps).read a = if a < 256 then (if a < ps.length then ps.getD a 0 else 0) else m.read a := by
  have hclear : (m.clear 0 256).read a = if 256 ≤ a then m.read a else 0 := by
    refine (Memory.read_filter m (fun x => decide (x < 0) || decide (0 + 256 ≤ x)) a).trans ?_
    simp
  rw [Memory.read_write, hclear]
  by_cases h : a < ps.length
  · rw [if_pos (by omega), if_pos (by omega), if_pos h, Nat.sub_zero]
  · rw [if_neg (by omega), if_neg h]
    by_cases h2 : a < 256
    · rw [if_pos h2, if_neg (by omega)]
    · rw [if_neg h2, if_pos (by omega)]

/-- The job is the one whose unit the core ran before. -/
def State.sameJob (s : State) : Prop := s.core.prevJob = some s.slotMoved.jobRef

theorem prevJob_seatFor (s : State) (p : Plane) : ((s.seatFor p).core.prevJob == some (s.seatFor p).jobRef) = true ↔ s.sameJob := by
  have hj : (s.seatFor p).jobRef = s.slotMoved.jobRef := by
    rw [(walksAs_seatFor s p).eq]
    rfl
  rw [beq_iff_eq, hj, show (s.seatFor p).core.prevJob = s.core.prevJob from (vacated_spec s).prevJob]
  rfl

/-- What a fresh unit's core has of the core before (R35, R268). -/
structure Core.FreshFrom (s : State) (p : Plane) (d : Core) : Prop where
  resident : d.resident = p
  shadow : d.shadow = s.core.shadow
  porch : d.lsu.porch = s.core.lsu.porch
  cycle : d.fe.cycle = s.core.fe.cycle
  act : d.slot.act = s.core.slot.stby
  stby : d.slot.stby = 0
  loaded : ∃ y : Sys, d.sys = { y.loaded p with
    rmode := 0, fpFlags := 0, frame := 0, timingLate := 0, loopState := 0, mloopStk := Vector.replicate 4 0, trapCause := 0, trapPc := 0, trapOpc := 0,
    trapMpc := 0, trapUpc := 0, trapCpc := 0, trapFoot := Vector.replicate 4 0, trapQpos := 0, trapInfo := 0 }
  hatches : ∃ q : Queues, d.qs = { Queues.reset with h := (q.bound p).h }
  kept : s.sameJob → d.mems = s.core.mems ∧ d.lhwm = s.core.lhwm ∧ d.circ = s.core.circ
  wiped : ¬ s.sameJob → d.mems = Mems.reset ∧ d.lhwm = 0 ∧ d.circ = Circuit.reset

theorem freshCore_spec (s : State) (p : Plane) (b entry shape : Nat) : Core.FreshFrom s p ((s.seatFor p).freshCore b entry shape) := by
  have h := vacated_spec s
  unfold State.freshCore
  dsimp only
  by_cases hj : s.sameJob
  · rw [if_pos ((prevJob_seatFor s p).2 hj), if_pos ((prevJob_seatFor s p).2 hj)]
    exact ⟨rfl, h.shadow, h.porch, h.cycle, h.stby, rfl, ⟨_, rfl⟩, ⟨_, rfl⟩, fun _ => ⟨h.mems, h.lhwm, h.circ⟩, fun hn => absurd hj hn⟩
  · rw [if_neg (fun e => hj ((prevJob_seatFor s p).1 e)), if_neg (fun e => hj ((prevJob_seatFor s p).1 e))]
    exact ⟨rfl, h.shadow, h.porch, h.cycle, h.stby, rfl, ⟨_, rfl⟩, ⟨_, rfl⟩, fun e => absurd e hj, fun _ => ⟨rfl, rfl, rfl⟩⟩

/-- A fresh unit's core is the same core, with the same slot registers and cached translations. -/
theorem freshCore_seat (s : State) (b entry shape : Nat) : (s.freshCore b entry shape).idx = s.core.idx ∧
    (s.freshCore b entry shape).slot = s.core.slot ∧ (s.freshCore b entry shape).lsu.utlb = s.core.lsu.utlb := by
  unfold State.freshCore
  dsimp only
  split
  · exact ⟨rfl, rfl, rfl⟩
  · exact ⟨rfl, rfl, rfl⟩

theorem freshRegs_g (b shape : Nat) (r : Fin 32) : (freshRegs b shape).g[r] =
    if r.val = 1 then BitVec.ofNat 64 (bindUidx b)
    else if r.val = 2 then BitVec.ofNat 64 (bindUidx b % shapeX shape + bindUidx b / shapeX shape % shapeY shape * 2 ^ 16 +
      bindUidx b / shapeX shape / shapeY shape * 2 ^ 32)
    else if r.val = 3 then BitVec.ofNat 64 (shape % 2 ^ 50)
    else if r.val = 4 then BitVec.ofNat 64 (bindLctr b + bindLgen b * 2 ^ 12) else 0 := by
  unfold freshRegs
  dsimp only
  rw [vmap_get]
  unfold freshG
  obtain ⟨n, hn⟩ := r
  match n with
  | 0 => rfl
  | 1 => rfl
  | 2 => rfl
  | 3 => rfl
  | 4 => rfl
  | n + 5 => simp

/-- The core of the switched unit, from the core as it was made: its parameters, and its Loft image. -/
def Core.started (d : Core) (utlb : List TlbEntry) (ps : List Byte) (image : List (Nat × Nat × List Byte)) : Core :=
  { d with
    lsu := { d.lsu with utlb := utlb }
    mems := { d.mems with
      cup := (d.mems.cup.clear 0 256).write 0 ps
      loft := image.foldl (fun m r => m.write (r.1 * 2 ^ 16 + r.2.1) r.2.2) d.mems.loft }
    lhwm := image.foldl (fun h r => max h (r.2.1 + r.2.2.length)) d.lhwm }

/-- Walks aside, the core takes its parameters, and then its Loft image. -/
theorem loftImage_started {s v t : State} {d : Core} (hd : s.core = d) (hv : s.Walked v) {ps : List Byte} (ht : (v.withParams ps).Walked t)
    (image : List (Nat × Nat × List Byte)) : t.core.loftImage image = d.started t.core.lsu.utlb ps image := by
  obtain ⟨x, hx⟩ : ∃ x, v.core = { d with lsu := { d.lsu with utlb := x } } := ⟨_, hd ▸ hv.core⟩
  obtain ⟨y, hy⟩ : ∃ y, y = t.core.lsu.utlb := ⟨_, rfl⟩
  have hc : (v.withParams ps).core = { v.core with mems := { v.core.mems with cup := (v.core.mems.cup.clear 0 256).write 0 ps } } := rfl
  have htc := ht.core
  rw [← hy, hc, hx] at htc
  rw [loftImage_eq, htc]
  rfl

/-- The switch of a fresh unit: the core that it leaves, and what the walks have left of memory and the package. -/
theorem unitSwitch_fresh {s : State} {p : Plane} {ks ls : List Nat} (h : s.CanSwitch p) (hr : bindResume s.core.slot.stby.toNat = false)
    (hp : s.pkg.poison = []) (hw : s.pkg.weak = []) :
    let b := s.core.slot.stby.toNat
    let u := s.slotMoved
    let w (i : Nat) : Nat := (((look [] s.pkg.launches (bindLctr b)).getD i 0)).toNat
    let pa := fld (w 1) 0 56
    let la := fld (w 3) 0 56
    let v := u.fillWalks .cl pa (fld (w 2) 52 9)
    let z := if la = 0 then v else v.fillWalks .cl la (u.loftSize la)
    v.keysWalk .cl pa (fld (w 2) 52 9) false = .ok ks → (la ≠ 0 → z.keysWalk .cl la (u.loftSize la) false = .ok ls) →
    ∃ t utlb, s.unitSwitch = some t ∧ t.mem = z.mem ∧ t.others = s.others ∧ (∃ box, t.pkg = ({ z.pkg with bbox := box } : Package).firstBind b) ∧
      t.core = ((s.seatFor p).freshCore b (w 0) (w 2)).started utlb (ks.map v.mem.read)
        (if la = 0 then [] else loftRecords (u.loftSize la) (ls.map z.mem.read)) := by
  intro b u w pa la v z hks hls
  let d := (s.seatFor p).freshCore b (w 0) (w 2)
  let W := (s.seatFor p).withCore d
  let V := W.fillWalks .cl pa (fld (w 2) 52 9)
  let V' := V.withParams (ks.map V.mem.read)
  let Z := if la = 0 then V' else V'.fillWalks .cl la (V'.loftSize la)
  have hW : u.WalksAs W := by
    have hs := walksAs_seatFor s p
    obtain ⟨hi, hsl, ht⟩ := freshCore_seat (s.seatFor p) b (w 0) (w 2)
    exact ⟨hs.mem, hs.pkg, hi.trans hs.idx, (congrArg SlotRegs.act hsl).trans hs.act, ht.trans hs.utlb⟩
  have hV : v.WalksAs V := hW.fillWalks _ _
  have hV' : v.WalksAs V' := ⟨hV.mem, hV.pkg, hV.idx, hV.act, hV.utlb⟩
  have hsize : V'.loftSize la = u.loftSize la := (hV'.loftSize la).trans ((walked_fillWalks u _ _).loftSize la)
  have hZ : z.WalksAs Z := by
    by_cases hla : la = 0
    · rw [show z = v from if_pos hla, show Z = V' from if_pos hla]
      exact hV'
    · rw [show z = v.fillWalks .cl la (u.loftSize la) from if_neg hla, show Z = V'.fillWalks .cl la (V'.loftSize la) from if_neg hla, hsize]
      exact hV'.fillWalks _ _
  have hZw : V'.Walked Z := by
    by_cases hla : la = 0
    · rw [show Z = V' from if_pos hla]
      exact .refl V'
    · rw [show Z = V'.fillWalks .cl la (V'.loftSize la) from if_neg hla]
      exact walked_fillWalks _ _ _
  have hfresh := freshUnit_eq (s := s.seatFor p) (b := b) (ws := look [] s.pkg.launches (bindLctr b)) (ks := ks) (ls := ls)
    ((congrArg Package.poison (walksAs_seatFor s p).pkg).trans hp) ((congrArg Package.weak (walksAs_seatFor s p).pkg).trans hw)
    ((hV.keysWalk _ _).trans hks) fun hla => by
      show Z.keysWalk .cl la (V'.loftSize la) false = _
      rw [hsize, hZ.keysWalk]
      exact hls hla
  have hswitch := unitSwitch_alone h (switchIn_fresh h.plane h.attic h.carries hr hfresh)
  obtain ⟨box, free, hbox⟩ := bb_eq (Z.withCore (Z.core.loftImage (if la = 0 then [] else loftRecords (V'.loftSize la) (ls.map Z.mem.read)))) .bind
  rw [hbox] at hswitch
  have hothers : Z.others = s.others := hZw.others.trans ((walked_fillWalks W pa (fld (w 2) 52 9)).others.trans (vacated_spec s).others)
  refine ⟨_, Z.core.lsu.utlb, hswitch, hZ.mem, hothers, ⟨box, ?_⟩, ?_⟩
  · show ({ Z.pkg with bbox := box } : Package).firstBind b = _
    rw [hZ.pkg]
  · have hps : ks.map V.mem.read = ks.map v.mem.read := by rw [hV.mem]
    have hread : ls.map Z.mem.read = ls.map z.mem.read := by rw [hZ.mem]
    refine (loftImage_started (d := d) rfl (walked_fillWalks W pa (fld (w 2) 52 9)) hZw _).trans ?_
    rw [hsize, hread, ← hps]

/-- A byte of a memory of a fresh unit's core: what the unit of the same job left, or zero. -/
theorem Core.FreshFrom.read {s : State} {p : Plane} {d : Core} (h : d.FreshFrom s p) (f : Mems → Memory) (hf : f Mems.reset = []) (a : Nat) :
    (f d.mems).read a = if s.core.prevJob = some s.slotMoved.jobRef then (f s.core.mems).read a else 0 := by
  by_cases hj : s.sameJob
  · rw [(h.kept hj).1]
    exact (if_pos hj).symm
  · rw [(h.wiped hj).1, hf]
    exact (if_neg hj).symm

theorem bound_h (p : Plane) (q : Queues) (k : Fin 16) : (q.bound p).h[k] = ⟨(p.word (256 + k.val)).setWidth 8, []⟩ := by
  unfold Queues.bound
  dsimp only
  rw [vmap_get]

theorem loaded_creg (p : Plane) (y : Sys) (k : Fin 16) : (y.loaded p).creg[k] = p.word (298 + k.val) := by
  unfold Sys.loaded
  dsimp only
  rw [vmap_get]

theorem loaded_sd (p : Plane) (y : Sys) (k : Fin 8) : (y.loaded p).sd[k] = p.word (272 + k.val) := by
  unfold Sys.loaded
  dsimp only
  rw [vmap_get]

theorem loaded_pads (p : Plane) (y : Sys) (k : Fin 16) : (y.loaded p).timingPad[k] = p.word (281 + k.val) := by
  unfold Sys.loaded
  dsimp only
  rw [vmap_get]

theorem freshRegs_p (b shape : Nat) (r : Fin 16) : (freshRegs b shape).p[r] = if r = 0 then allTrue else 0 := by
  unfold freshRegs Regs.reset
  simp only [Fin.getElem_fin, Vector.getElem_set, Vector.getElem_replicate, Fin.ext_iff, Fin.val_zero, eq_comm (a := 0)]

/-- The parts of a fresh unit's core that no core before it has: registers, queues and the place of fetch (R35). -/
structure Core.Unused (d : Core) (b entry shape : Nat) : Prop where
  g : d.regs.g = (freshRegs b shape).g
  s : ∀ r : Fin 32, d.regs.s[r] = 0
  v : ∀ r : Fin 64, d.regs.v[r] = 0
  p : ∀ r : Fin 16, d.regs.p[r] = if r = 0 then allTrue else 0
  dirty : d.regs.gDirty = BitVec.allOnes 32 ∧ d.regs.sDirty = BitVec.allOnes 32 ∧ d.regs.vDirty = BitVec.allOnes 64 ∧ d.regs.pDirty = BitVec.allOnes 16
  fly : d.regs.fly = []
  rpl : d.regs.rpl = []
  unit : d.fe.unit = .switching
  hold : d.fe.hold = 64
  pc : d.fe.pc = BitVec.ofNat 64 (fld entry 0 56)
  idle : d.fe.handler = false ∧ d.fe.mac = none ∧ d.fe.aq = [] ∧ d.fe.xq = []
  eng : ∀ q : Fin 5, d.eng.q[q] = []

theorem freshCore_unused (s : State) (b entry shape : Nat) : (s.freshCore b entry shape).Unused b entry shape where
  g := rfl
  s := fun _ => Vector.getElem_replicate ..
  v := fun _ => Vector.getElem_replicate ..
  p := freshRegs_p b shape
  dirty := ⟨rfl, rfl, rfl, rfl⟩
  fly := rfl
  rpl := rfl
  unit := rfl
  hold := rfl
  pc := rfl
  idle := ⟨rfl, rfl, rfl, rfl⟩
  eng := fun _ => Vector.getElem_replicate ..

theorem Core.FreshFrom.queues {s : State} {p : Plane} {d : Core} (h : d.FreshFrom s p) :
    (∀ k : Fin 16, d.qs.h[k] = ⟨(p.word (256 + k.val)).setWidth 8, []⟩) ∧ (∀ q : Fin 8, d.qs.lq[q] = []) ∧ (∀ q : Fin 4, d.qs.sq[q] = []) ∧
      d.qs.scale = [] := by
  obtain ⟨q, hq⟩ := h.hatches
  rw [hq]
  exact ⟨bound_h p q, fun _ => Vector.getElem_replicate .., fun _ => Vector.getElem_replicate .., rfl⟩

theorem Core.FreshFrom.planeLoaded {s : State} {p : Plane} {d : Core} (h : d.FreshFrom s p) : PlaneLoaded p d.sys := by
  obtain ⟨y, hy⟩ := h.loaded
  rw [hy]
  exact ⟨loaded_creg p y, rfl⟩

theorem Core.FreshFrom.live {s : State} {p : Plane} {d : Core} (h : d.FreshFrom s p) :
    (∀ k < 256, look 13 d.sys.bankFmt k = p.word k) ∧ (∀ k : Fin 8, d.sys.sd[k] = p.word (272 + k.val)) ∧
      d.sys.timingCtl = p.word 280 ∧ (∀ k : Fin 16, d.sys.timingPad[k] = p.word (281 + k.val)) ∧ d.sys.trapVec = p.word 314 := by
  obtain ⟨y, hy⟩ := h.loaded
  rw [hy]
  exact ⟨fun k hk => bankFmt_loaded (y := y) hk, loaded_sd p y, rfl, loaded_pads p y, rfl⟩

theorem Core.FreshFrom.zeroed {s : State} {p : Plane} {d : Core} (h : d.FreshFrom s p) :
    d.sys.rmode = 0 ∧ d.sys.fpFlags = 0 ∧ d.sys.frame = 0 ∧ d.sys.timingLate = 0 ∧ d.sys.loopState = 0 ∧ d.sys.trapCause = 0 := by
  obtain ⟨y, hy⟩ := h.loaded
  rw [hy]
  exact ⟨rfl, rfl, rfl, rfl, rfl, rfl⟩

/-- What stays for a unit of the same job, in the words of the statement. -/
theorem Core.FreshFrom.lhwm {s : State} {p : Plane} {d : Core} (h : d.FreshFrom s p) :
    d.lhwm = if s.core.prevJob = some s.slotMoved.jobRef then s.core.lhwm else 0 := by
  by_cases hj : s.sameJob
  · exact (h.kept hj).2.1.trans (if_pos hj).symm
  · exact (h.wiped hj).2.1.trans (if_neg hj).symm

theorem Core.FreshFrom.circ {s : State} {p : Plane} {d : Core} (h : d.FreshFrom s p) :
    d.circ = if s.core.prevJob = some s.slotMoved.jobRef then s.core.circ else Circuit.reset := by
  by_cases hj : s.sameJob
  · exact (h.kept hj).2.2.trans (if_pos hj).symm
  · exact (h.wiped hj).2.2.trans (if_neg hj).symm

/-- Settles O47: the switch's core is the one that R35 makes, and every register, queue and memory byte is read off it. -/
theorem freshUnitsStart : Obligations.FreshUnitsStart := by
  unfold Obligations.FreshUnitsStart
  intro s p ks ls b u w n pa la size v z h hr hp hw hn hks hls
  obtain ⟨t, utlb, ht, hmem, hothers, hpkg, hcore⟩ := unitSwitch_fresh h hr hp hw hks hls
  refine answers_event rfl ht ?_
  intro i x y same old image
  replace hmem : t.mem = z.mem := hmem
  replace hpkg : ∃ box, t.pkg = ({ z.pkg with bbox := box } : Package).firstBind b := hpkg
  obtain ⟨d, hd⟩ : ∃ d, d = (s.seatFor p).freshCore b (w 0) (w 2) := ⟨_, rfl⟩
  have hf : d.FreshFrom s p := hd ▸ freshCore_spec s p b (w 0) (w 2)
  have hu : d.Unused b (w 0) (w 2) := hd ▸ freshCore_unused _ b (w 0) (w 2)
  replace hcore : t.core = d.started utlb (ks.map v.mem.read) image := by rw [hd]; exact hcore
  have hlen : (ks.map v.mem.read).length = n := by rw [List.length_map, keysVia_length hks, addrs, List.length_map, List.length_range]
  have hbank (k : Nat) : t.bankFmt k = look 13 d.sys.bankFmt k := by unfold State.bankFmt; rw [hcore]; rfl
  clear hd hks hls ht
  clear_value v z image
  obtain ⟨dg, ds, dv, dp⟩ := hu.dirty
  obtain ⟨ih, im, ia, ix⟩ := hu.idle
  obtain ⟨qh, ql, qs, qc⟩ := hf.queues
  obtain ⟨lb, ls, lt, lp, lv⟩ := hf.live
  obtain ⟨z1, z2, z3, z4, z5, z6⟩ := hf.zeroed
  rw [hcore]
  refine ⟨hu.unit, hu.hold, hu.pc, ih, im, ia, ix, hf.cycle, hf.act, hf.stby, fun r => ?_, hu.s, hu.v, hu.p, dg, ds, dv, dp, hu.fly, hu.rpl,
    hf.planeLoaded, fun k hk => (hbank k).trans (lb k hk), ls, lt, lp, lv, z1, z2, z3, z4, z5, z6, qh, ql, qs, qc, hu.eng, fun a => ?_,
    hf.read Mems.sp rfl, hf.read Mems.acc rfl, fun a => ?_, ?_, hf.circ, hf.porch, hmem, hf.resident, hf.shadow, hothers, hpkg⟩
  · show d.regs.g[r] = _
    rw [hu.g]
    exact freshRegs_g b (w 2) r
  · refine (read_params _ (by rw [hlen]; exact hn) a).trans ?_
    rw [hlen, hf.read Mems.cup rfl]
    refine if_congr Iff.rfl (ite_congr rfl (fun ha => ?_) fun _ => rfl) rfl
    rw [List.getD_eq_getElem _ _ (hlen.symm ▸ ha), List.getElem_map, List.getD_eq_getElem _ _ (by rw [← List.length_map (f := v.mem.read), hlen]; exact ha)]
  · refine (read_loftWrites image _ a).trans ?_
    rw [hf.read Mems.loft rfl]
  · show image.foldl _ d.lhwm = _
    rw [hf.lhwm]

end Sys2Proof.Machine
end

section
/-! PROOFS. DONE ends the stream of a unit, and ERET returns from the handler (O19). -/

namespace Sys2Proof.Machine

/-! ### Loop state (R169) -/

/-- Clearing V of LOOP.STATE leaves the 63 bits below it. -/
theorem setFld_top (w : Word) : (setFld w 63 1 0).toNat = w.toNat % 2 ^ 63 := by
  unfold setFld fld
  rw [BitVec.toNat_ofNat]
  have := w.isLt
  omega

theorem wbit_setFld_top (w : Word) : wbit (setFld w 63 1 0) 63 = false := by
  unfold wbit
  rw [BitVec.getLsbD, setFld_top]
  exact Nat.testBit_lt_two_pow (Nat.mod_lt _ (by positivity))

theorem wfld_setFld_top (w : Word) : wfld (setFld w 63 1 0) 49 5 = wfld w 49 5 := by
  unfold wfld fld
  rw [setFld_top]
  omega

/-! ### DONE (R36, R128) -/

/-- The unit's counter shows how many of its queues still hold commands (R25). -/
theorem syncCounter_ending {s : State} (h : s.core.fe.unit = .ending) :
    s.syncCounter = s.pkgd fun p => p.setCounter s.uctr { p.counter s.uctr with outstanding := s.core.eng.waitingQueues } :=
  if_pos (by rw [h]; rfl)

theorem execDone_eq {s : State} (hi : s.CanIssue [] []) : execDone s =
    if s.core.fe.handler && !s.core.eng.side.isEmpty then .next s.wait
    else done (((if s.core.fe.handler then s.leaveByDone else s).fe fun f => { f with unit := .ending, block := true }).syncCounter) :=
  State.aIssue_of_canIssue hi _

theorem wait_aPipe {s : State} (h : s.core.fe.cur.instr.isX = false) : WaitsA s s.wait := by
  unfold WaitsA State.wait
  dsimp only
  rw [h]
  rfl

theorem sameBytes_of {s t : State} (hm : t.mem = s.mem) (hc : t.core.mems = s.core.mems) : s.SameBytes t := by
  constructor
  · intro a; rw [hm]
  all_goals intro a; rw [hc]

/-- What the handler's DONE leaves, where no cause is held and no command. -/
structure State.HandlerLeft (s t : State) : Prop where
  handler : t.core.fe.handler = false
  resume : t.core.fe.resume = none
  regs : t.core.regs = { s.core.regs with
    fly := sortFly (s.core.regs.fly ++ s.core.regs.rpl.map fun x => { x with due := x.due + s.core.fe.xnow }), rpl := [] }
  sys : t.core.sys = s.core.sys
  lsu : t.core.lsu = s.core.lsu
  eng : t.core.eng = s.core.eng
  mems : t.core.mems = s.core.mems
  mem : t.mem = s.mem

theorem handlerLeft_leaveByDone {s : State} (hc : s.core.fe.causes = []) (hh : ∀ r, s.core.fe.resume = some r → r.held = none) :
    s.HandlerLeft s.leaveByDone := by
  have hnone : s.core.fe.resume.bind (·.held) = none := by
    cases hr : s.core.fe.resume with
    | none => rfl
    | some r => exact hh r hr
  unfold State.leaveByDone
  dsimp only
  rw [hnone, hc]
  exact ⟨rfl, rfl, rfl, rfl, rfl, rfl, rfl, rfl⟩

/-! ### ERET (R128, R370) -/

/-- The end of an ERET: what the handler left in flight finds its place, the replay registers land again, and handler mode ends. -/
def State.handlerOver (s : State) (seq0 : Nat) : State :=
  ((s.afterHandler seq0).replay).fe fun f =>
    { f with handler := false, resume := none, hold := 0, slot := 0, part := 0, block := f.aq.any fun c => blocks c.instr }

/-- The handler may return: nothing of it is left to issue or to land (R128). -/
structure State.MayReturn (s : State) (r : Resume) : Prop where
  handler : s.core.fe.handler = true
  resume : s.core.fe.resume = some r
  side : s.core.eng.side = []
  xq : s.core.fe.xq = []
  kernel : s.core.fe.kernel = none
  fly : s.core.regs.fly = []
  held : r.held = none

theorem execEret_eq {s : State} {r : Resume} (hi : s.CanIssue [] []) (h : s.MayReturn r) (hb : s.eretBad r (s.eretView r) = false) : execEret s =
    done ((if (s.eretView r).redirect then s.eretRedirect (s.eretView r).newA
      else ((s.eretMacro r (s.eretView r)).eretLoop r (s.eretView r)).eretSkip (s.eretView r)).handlerOver r.seq0) := by
  refine (State.aIssue_of_canIssue hi _).trans ?_
  rw [h.resume]
  dsimp only
  rw [h.handler, h.side, h.xq, h.kernel, h.fly, hb, h.held]
  rfl

theorem execEret_outside {s : State} (hi : s.CanIssue [] []) (h : s.core.fe.resume = none) : execEret s = s.aTrapFree .illegalOperand := by
  refine (State.aIssue_of_canIssue hi _).trans ?_
  rw [h]

/-- The trap registers as an ERET outside a microprogram and a kernel reads them, after a trap of another pipe than the X-pipe. -/
structure EretView.Plain (v : EretView) (r : Resume) (y : Sys) : Prop where
  recA : v.recA = r.pc
  recX : v.recX = r.opc
  newA : v.newA = y.trapPc
  newX : v.newX = y.trapOpc
  inmac : v.inmac = false
  inloop : v.inloop = false

theorem eretView_plain {s : State} {r : Resume} (hp : r.pipe ≠ 2) (h31 : s.core.sys.trapCause.getLsbD 31 = false)
    (h33 : s.core.sys.trapCause.getLsbD 33 = false) : (s.eretView r).Plain r s.core.sys := by
  have hx : (r.pipe == 2) = false := by simpa using hp
  unfold State.eretView
  rw [hx]
  exact ⟨rfl, rfl, rfl, rfl, h33, h31⟩

theorem eretBad_plain {s : State} {r : Resume} {v : EretView} (hm : v.inmac = false) (hl : v.inloop = false)
    (h : v.redirect = true ∨ (v.newA = v.recA ∧ v.newX = v.recX)) : s.eretBad r v = false := by
  unfold State.eretBad
  rcases h with h | ⟨ha, hx⟩
  · simp [h, hm, hl]
  · simp [ha, hx, hm, hl]

/-- Where nothing was written, each pipe has the words kept for it, and fetch stands where it stood. -/
theorem eret_recorded {s : State} {r : Resume} {v : EretView} (hm : v.inmac = false) (hl : v.inloop = false) (hu : r.upc = none) (hk : r.kernel = none)
    (ha : v.newA = v.recA) (hx : v.newX = v.recX) : ((s.eretMacro r v).eretLoop r v).eretSkip v =
      ((s.sys fun y => { y with mloopStk := r.stk }).fe fun f =>
        { f with aq := r.aq, xq := r.xq, mac := r.utop.map fun m => ⟨m.1, m.2⟩, pc := r.fetch }).fe fun f => { f with kernel := none } := by
  have hmac : s.eretMacro r v = (s.sys fun y => { y with mloopStk := r.stk }).fe fun f =>
      { f with aq := r.aq, xq := r.xq, mac := r.utop.map fun m => ⟨m.1, m.2⟩, pc := r.fetch } := by
    unfold State.eretMacro
    rw [hm, hu]
    rfl
  have hloop (u : State) : u.eretLoop r v = u.fe fun f => { f with kernel := none } := by
    unfold State.eretLoop
    rw [hl, hk]
    rfl
  have hskip (u : State) : u.eretSkip v = u := by
    unfold State.eretSkip
    simp [ha, hx]
  rw [hskip, hloop, hmac]

/-- What the end of an ERET leaves of the state in which the pipes resume. -/
structure State.Returned (s t : State) : Prop where
  handler : t.core.fe.handler = false
  resume : t.core.fe.resume = none
  aq : t.core.fe.aq = s.core.fe.aq
  xq : t.core.fe.xq = s.core.fe.xq
  pc : t.core.fe.pc = s.core.fe.pc
  mac : t.core.fe.mac = s.core.fe.mac
  kernel : t.core.fe.kernel = s.core.fe.kernel
  regs : t.core.regs = { s.core.regs with
    fly := sortFly (s.core.regs.fly ++ s.core.regs.rpl.map fun x => { x with due := x.due + s.core.fe.xnow }), rpl := [] }
  sys : t.core.sys = s.core.sys
  mems : t.core.mems = s.core.mems
  mem : t.mem = s.mem
  pkg : t.pkg = s.pkg

/-- The new places in program order stand in the queues, the accesses and the engines alone. -/
theorem afterHandler_eq (s : State) (seq0 : Nat) : ∃ l q a b e, s.afterHandler seq0 =
    s.withCore { s.core with lsu := l, qs := q, fe := { s.core.fe with sq0 := a, hpushes := b }, eng := e } := by
  unfold State.afterHandler
  exact ⟨_, _, _, _, _, rfl⟩

theorem returned_handlerOver (s : State) (seq0 : Nat) : s.Returned ((s.handlerOver seq0).progress.fe fun f => { f with adone := true }) := by
  obtain ⟨l, q, a, b, e, h⟩ := afterHandler_eq s seq0
  unfold State.handlerOver State.replay State.progress
  rw [h]
  constructor <;> simp [State.withCore]

/-- A change of system registers and of the front end leaves the rest of the state. -/
theorem sys_fe_keeps (s : State) (f : Sys → Sys) (g : Front → Front) : ((s.sys f).fe g).core.regs = s.core.regs ∧ ((s.sys f).fe g).core.mems = s.core.mems ∧
    ((s.sys f).fe g).mem = s.mem ∧ ((s.sys f).fe g).pkg = s.pkg := ⟨rfl, rfl, rfl, rfl⟩

theorem eretRedirect_xnow (s : State) (a : Word) : (s.eretRedirect a).core.fe.xnow = s.core.fe.xnow := by
  have h (f : Sys → Sys) (g : Front → Front) (hg : ∀ e, (g e).xnow = e.xnow) : ((s.sys f).fe g).core.fe.xnow = s.core.fe.xnow := hg _
  unfold State.eretRedirect
  exact h _ _ fun _ => rfl

theorem eretRedirect_keeps (s : State) (a : Word) : (s.eretRedirect a).core.regs = s.core.regs ∧ (s.eretRedirect a).core.mems = s.core.mems ∧
    (s.eretRedirect a).mem = s.mem ∧ (s.eretRedirect a).pkg = s.pkg := by
  unfold State.eretRedirect
  exact sys_fe_keeps s _ _

/-- After a redirect nothing dispatched is left, and fetch goes to the new place. -/
theorem redirected {s t : State} {a : Word} (h : (s.eretRedirect a).Returned t) : t.core.fe.handler = false ∧ t.core.fe.resume = none ∧
    t.core.fe.aq = [] ∧ t.core.fe.xq = [] ∧ t.core.fe.pc = a ∧ t.core.fe.mac = none ∧
    t.core.regs = { s.core.regs with
      fly := sortFly (s.core.regs.fly ++ s.core.regs.rpl.map fun x => { x with due := x.due + s.core.fe.xnow }), rpl := [] } ∧
    t.core.sys.mloopStk = Vector.replicate 4 0 ∧ wbit t.core.sys.loopState 63 = false ∧
    wfld t.core.sys.loopState 49 5 = wfld s.core.sys.loopState 49 5 ∧ s.SameBytes t ∧ t.pkg = s.pkg := by
  have hl : t.core.sys.loopState = setFld s.core.sys.loopState 63 1 0 := congrArg Sys.loopState h.sys
  rw [hl]
  obtain ⟨kr, kc, km, kp⟩ := eretRedirect_keeps s a
  refine ⟨h.handler, h.resume, h.aq, h.xq, h.pc, h.mac, ?_, congrArg Sys.mloopStk h.sys, wbit_setFld_top _, wfld_setFld_top _,
    sameBytes_of (h.mem.trans km) (h.mems.trans kc), h.pkg.trans kp⟩
  rw [h.regs, kr, eretRedirect_xnow]

/-- Settles O19: DONE and ERET issue, and what they do to the core is read off the states that they leave. -/
theorem doneAndEret : Obligations.DoneAndEret := by
  unfold Obligations.DoneAndEret
  intro s hi
  dsimp only
  refine ⟨fun hh => ?_, fun hh hside hc hheld => ?_, fun hh hside hx => ?_, fun hr ht => ?_, fun r hh hr hp hside hxq hker hfly hheld hupc hk h31 h33 => ⟨fun ha hx => ?_, fun hax hne => ?_⟩⟩
  · refine ⟨_, (execDone_eq hi).trans (if_neg (by simp [hh])), ?_⟩
    rw [hh, if_neg Bool.false_ne_true, syncCounter_ending rfl]
    exact ⟨rfl, rfl, rfl, rfl, rfl, rfl, rfl, rfl, sameBytes_of rfl rfl, rfl⟩
  · refine ⟨_, (execDone_eq hi).trans (if_neg (by simp [hside])), ?_⟩
    have hl := handlerLeft_leaveByDone hc hheld
    rw [hh, if_pos rfl, syncCounter_ending rfl]
    refine ⟨rfl, rfl, hl.handler, hl.resume, hl.regs, hl.sys, hl.lsu, hl.eng, sameBytes_of hl.mem hl.mems⟩
  · exact ⟨_, (execDone_eq hi).trans (if_pos (by simp [hh, hside])), wait_aPipe hx⟩
  · obtain ⟨t, h1, h2⟩ := aTrapFree_took ht .illegalOperand
    exact ⟨t, (execEret_outside hi hr).trans h1, h2⟩
  · have hv := eretView_plain hp h31 h33
    have hA : (s.eretView r).newA = (s.eretView r).recA := by rw [hv.newA, hv.recA, ha]
    have hX : (s.eretView r).newX = (s.eretView r).recX := by rw [hv.newX, hv.recX, hx]
    have hred : (s.eretView r).redirect = false := by simp [EretView.redirect, hA, hX]
    refine ⟨_, execEret_eq hi ⟨hh, hr, hside, hxq, hker, hfly, hheld⟩ (eretBad_plain hv.inmac hv.inloop (.inr ⟨hA, hX⟩)), ?_⟩
    rw [hred, if_neg Bool.false_ne_true, eret_recorded hv.inmac hv.inloop hupc hk hA hX]
    have h := returned_handlerOver (((s.sys fun y => { y with mloopStk := r.stk }).fe fun f =>
      { f with aq := r.aq, xq := r.xq, mac := r.utop.map fun m => ⟨m.1, m.2⟩, pc := r.fetch }).fe fun f => { f with kernel := none }) r.seq0
    exact ⟨h.handler, h.resume, h.aq, h.xq, h.pc, h.mac, h.kernel, h.regs, h.sys, sameBytes_of h.mem h.mems, h.pkg⟩
  · have hv := eretView_plain hp h31 h33
    have hred : (s.eretView r).redirect = true := by
      simp only [EretView.redirect, hv.newA, hv.newX, hv.recA, hv.recX, Bool.and_eq_true, Bool.or_eq_true, beq_iff_eq, bne_iff_ne]
      exact ⟨hax, hne⟩
    refine ⟨_, execEret_eq hi ⟨hh, hr, hside, hxq, hker, hfly, hheld⟩ (eretBad_plain hv.inmac hv.inloop (.inl hred)), ?_⟩
    rw [hred, if_pos rfl, hv.newA]
    exact redirected (returned_handlerOver (s.eretRedirect s.core.sys.trapPc) r.seq0)

end Sys2Proof.Machine
end

section
/-! PROOFS. Engine commands retire, and REDUCE and RESHARD exchange data with other cores and devices (O39). -/

namespace Sys2Proof.Machine

/-! ### Retirement (R40, R156, R203) -/

/-- The hatches after a command's push, if it has one. -/
def State.pushed (s : State) (c : EngCmd) (cls : Nat) : Queues :=
  { s.core.qs with h := match c.push with
    | none => s.core.qs.h
    | some h => s.core.qs.h.set h.val ⟨s.core.qs.h[h].bind, s.core.qs.h[h].toks ++ [if s.strict = true then some (c.cycle + s.pad cls) else none]⟩ }

theorem engActive_running {s : State} (h : s.core.fe.unit = .running) : s.engActive = true := by
  unfold State.engActive
  rw [h]
  rfl

theorem syncCounter_running {s : State} (h : s.core.fe.unit = .running) : s.syncCounter = s := if_neg (by rw [h]; decide)

theorem pushCmd_eq (s : State) (q : Fin 5) (c : EngCmd) : s.pushCmd q c = s.qs fun _ => s.pushed c (engClass q) := by
  unfold State.pushCmd State.pushed
  cases c.push with
  | none => rfl
  | some h => rfl

theorem pushCmd_settled {s : State} {q : Fin 5} {c : EngCmd} (hu : s.core.fe.unit = .running) :
    (s.pushCmd q c).syncCounter.progress = (s.qs fun _ => s.pushed c (engClass q)).progress := by
  rw [pushCmd_eq, syncCounter_running (s := s.qs fun _ => s.pushed c (engClass q)) hu]

/-- The head of a queue leaves it, and its push is made. -/
theorem retireHead_eq {s : State} {q : Fin 5} {c : EngCmd} {rest : List EngCmd} (hq : s.core.eng.q[q] = c :: rest) (hc : c.st = .done)
    (hu : s.core.fe.unit = .running) (hp : ∀ h, c.push = some h → (s.core.qs.h[h].toks).length < 16) :
    s.retireHead q = some ((s.eng fun e => { e with q := e.q.set q.val rest }).qs fun _ => s.pushed c (engClass q)).progress := by
  have hroom : (c.st == .done && (match c.push with | some h => !s.hatchFull h | none => true)) = true := by
    rw [hc]
    cases hpush : c.push with
    | none => rfl
    | some h => simpa [State.hatchFull] using hp h hpush
  unfold State.retireHead
  rw [hq]
  refine (if_pos hroom).trans ?_
  exact congrArg some (pushCmd_settled (s := s.eng fun e => { e with q := e.q.set q.val rest }) hu)

/-- What a retirement leaves, in the words of the statement. -/
theorem retired_spec {s : State} {q : Fin 5} {c : EngCmd} {rest : List EngCmd} {cls : Nat} (hcls : engClass q = cls) :
    let t := ((s.eng fun e => { e with q := e.q.set q.val rest }).qs fun _ => s.pushed c (engClass q)).progress
    Worked s q rest t ∧ t.core.sys = s.core.sys ∧ t.core.mems = s.core.mems ∧ t.pkg = s.pkg ∧ t.core.qs = s.pushed c cls := by
  subst hcls
  exact ⟨⟨rfl, rfl, rfl, rfl, rfl⟩, rfl, rfl, rfl, rfl⟩

/-- The Butterfly queue retires its head too, where none of its commands runs (R229). -/
theorem butterflyComplete_eq {s : State} {c : EngCmd} {rest : List EngCmd} (hq : s.core.eng.q[(2 : Fin 5)] = c :: rest) (hc : c.st = .done)
    (hr : ∀ d ∈ rest, d.st ≠ .running) (hu : s.core.fe.unit = .running) : s.butterflyComplete = s.retireHead 2 := by
  unfold State.butterflyComplete
  rw [engActive_running hu, if_neg (by decide)]
  split
  · next d hd =>
    have hmem := List.mem_of_find?_eq_some hd
    rw [hq] at hmem
    rw [if_neg]
    rcases List.mem_cons.1 hmem with rfl | hmem
    · rw [hc]; decide
    · simpa using hr d hmem
  · rfl

/-! ### The side path (R224, R244) -/

theorem correct_never (s : State) : s.correct (fun _ => false) = s := by
  have hw : s.pkg.weak.filter (fun _ => false) = [] := List.filter_eq_nil_iff.2 fun _ _ => by decide
  unfold State.correct
  rw [hw]
  obtain ⟨c, o, m, p, a, n⟩ := s
  obtain ⟨⟩ := p
  simp [State.pkgd]

/-- No word is read: nothing is checked, and nothing corrected. -/
theorem dataCheck_nil (s : State) : s.dataCheck [] = .ok s := by
  have hf : s.pkg.poison.find? (fun _ => false) = none := List.find?_eq_none.2 fun _ _ => by decide
  unfold State.dataCheck
  simp only [List.any_nil]
  rw [hf, correct_never]

theorem sideComplete_sdset {s : State} {c : EngCmd} {rest : List EngCmd} {x : GReg} {sd : Fin 8} {hk : Hatching} (hs : s.core.eng.side = c :: rest)
    (hi : c.instr = .sdset x sd hk) (hpop : c.pop = none) (hpush : c.push = none) (he : s.edgesMet c = true)
    (hq : ∀ d ∈ s.core.eng.q[(2 : Fin 5)], d.st ≠ .running) (hu : s.core.fe.unit = .running) :
    s.sideComplete = some ((s.sys fun y => { y with sd := y.sd.set sd.val (c.ops.getD 0 0) }).eng fun e => { e with side := rest }).progress := by
  have hstop : s.arrayStopped = true := by
    unfold State.arrayStopped
    rw [Bool.not_eq_true', List.any_eq_false]
    exact fun d hd => by simpa using hq d hd
  have hready : s.popReady c = true := by
    unfold State.popReady
    rw [hpop]
    exact Bool.or_true _
  have htake : s.takePop c = s := by
    unfold State.takePop
    rw [hpop]
    exact ite_self _
  have hfin : s.bfFinish c = .ok (s.sdsetFinish sd (c.ops.getD 0 0)) := by
    unfold State.bfFinish State.bfReads State.bfEffect
    simp only [hi, dataCheck_nil]
  have hstart : s.bfStart c = .ok () := by
    unfold State.bfStart
    rw [hi]
  unfold State.sideComplete
  rw [hs]
  dsimp only
  have hclass : isCopyClass c.instr = false := by rw [hi]; rfl
  rw [engActive_running hu, hready, he, hclass, hstop, hpush, htake, hstart]
  dsimp only
  rw [hfin]
  have hretire (u : State) (hu : u.core.fe.unit = .running) : u.sideRetire c = (u.eng fun e => { e with side := e.side.drop 1 }).progress := by
    unfold State.sideRetire State.pushCmd
    rw [hpush]
    exact congrArg State.progress (syncCounter_running (s := u.eng fun e => { e with side := e.side.drop 1 }) hu)
  refine congrArg some ((hretire (s.sdsetFinish sd (c.ops.getD 0 0)) hu).trans ?_)
  simp only [State.eng, State.sdsetFinish, State.sys, hs, List.drop_succ_cons, List.drop_zero]

/-! ### Pages (R277, R278) -/

theorem fillWalks_at (s : State) (a n : Nat) : s.fillWalks .at a n = s := rfl

theorem engRead_at {s : State} {a n : Nat} {ks : List Nat} (hp : s.pkg.poison = []) (hw : s.pkg.weak = []) (hk : s.keysWalk .at a n false = .ok ks) :
    s.engRead .at a n = .ok (ks.map s.mem.read, s) := by
  unfold State.engRead
  rw [if_neg (by decide)]
  dsimp only
  rw [fillWalks_at, hk]
  dsimp only
  rw [hp]
  dsimp only [List.find?_nil]
  rw [correct_of_weak hw]
  rfl

/-- A page arrives: it stands in a frame, and the vault counts as used where it came from there. -/
theorem pageFetch_eq {s u : State} {p : Nat} {bs : List Byte} (hu : s.core.fe.unit = .running) (hp : p ∈ s.core.circ.flight)
    (hr : s.engRead (regSpace s.core.circ.reg) (regBase s.core.circ.reg + s.core.circ.offPages + 16384 * p)
      (min 16384 (16 * s.core.circ.nrec - 16384 * p)) = .ok (bs, u))
    (hq : ∀ d ∈ u.core.eng.q[(3 : Fin 5)], d.st ≠ .running) : s.pageFetch p = some
      ((if regSpace s.core.circ.reg == .at then u.withCore { u.core with vuse := true } else u).circ fun e => e.arrive p bs).progress := by
  unfold State.pageFetch
  dsimp only
  rw [engActive_running hu, if_neg (by simpa using hp), hr]
  dsimp only
  have hev (v : State) (hv : v.core.eng = u.core.eng) : v.evalRuns = none := by
    unfold State.evalRuns
    rw [hv]
    exact List.find?_eq_none.2 fun d hd => by simpa using hq d hd
  rw [hev _ (by split <;> rfl)]

/-! ### Packed elements (R6, R221) -/

/-- An element of a packed list. -/
theorem lane_pack {w : Nat} {l : List Nat} {i : Nat} (hi : i < l.length) : lane w (pack w l) i = l[i] % 2 ^ w := by
  induction l generalizing i with
  | nil => simp at hi
  | cons x l ih =>
    have hpos : 0 < 2 ^ w := by positivity
    cases i with
    | zero => simp [lane, pack, Nat.add_mul_mod_self_left]
    | succ i =>
      have hdiv : (x % 2 ^ w + 2 ^ w * pack w l) / 2 ^ w = pack w l := by
        rw [Nat.add_mul_div_left _ _ hpos, Nat.div_eq_of_lt (Nat.mod_lt _ hpos), Nat.zero_add]
      rw [List.getElem_cons_succ, ← ih (by simpa using hi)]
      unfold lane
      rw [pack, Nat.mul_succ, Nat.add_comm (w * i) w, Nat.pow_add, ← Nat.div_div_eq_div_mul, hdiv]

/-- An element that lies in the low bits of a number is an element of those bits. -/
theorem lane_mod {w m i : Nat} (h : w * (i + 1) ≤ m) (x : Nat) : lane w (x % 2 ^ m) i = lane w x i := by
  unfold lane
  obtain ⟨k, rfl⟩ := Nat.exists_eq_add_of_le h
  rw [Nat.mul_succ, Nat.add_assoc, Nat.pow_add, Nat.mod_mul_right_div_self, Nat.pow_add, Nat.mod_mul_right_mod]

theorem blocks32_flatten_length (f : List (List Nat) → List Nat) (hf : ∀ l, (f l).length = l.length) {n : Nat} {l : List (List Nat)} (h : l.length ≤ n) :
    ((blocks32 n l).map f).flatten.length = l.length := by
  induction n generalizing l with
  | zero => rw [List.length_eq_zero_iff.1 (Nat.le_zero.1 h)]; rfl
  | succ n ih =>
    unfold blocks32
    cases l with
    | nil => rfl
    | cons x l =>
      have hd : ((x :: l).drop 32).length ≤ n := by simp at h ⊢; omega
      rw [if_neg (by simp), List.map_cons, List.flatten_cons, List.length_append, hf, ih hd, List.length_take, List.length_drop]
      omega

theorem binBlock_length (t : ElemTy) (rm : RM) (cols : List (List Nat)) : (binBlock t rm cols).length = cols.length := by
  unfold binBlock
  exact List.length_map _

/-- There is a sum for every element (R221). -/
theorem binSums_length (t : ElemTy) (rm : RM) (ps : List (List Nat)) (n : Nat) : (binSums t rm ps n).length = n := by
  unfold binSums
  rw [blocks32_flatten_length _ (binBlock_length t rm) (by simp)]
  simp

/-! ### REDUCE.BIN (R220, R221) -/

theorem filter_bne (l : List Nat) (m : Nat) : l.filter (· != m) = l.filter (· ≠ m) :=
  List.filter_congr fun p _ => (decide_not.trans (congrArg _ (Bool.beq_eq_decide_eq p m).symm)).symm

/-- Group words that agree in every bit but those of PARTY (R220). -/
theorem sameGroup_of_bits {x z : Word} (h : ∀ b < 64, b < 24 ∨ 36 ≤ b → x.getLsbD b = z.getLsbD b) : sameGroup x z = true := by
  have hbit (b : Nat) (hb : b < 24 ∨ 36 ≤ b) : x.toNat.testBit b = z.toNat.testBit b := by
    by_cases h64 : b < 64
    · exact h b h64 hb
    · rw [Nat.testBit_lt_two_pow (lt_of_lt_of_le x.isLt (Nat.pow_le_pow_right (by decide) (by omega))),
        Nat.testBit_lt_two_pow (lt_of_lt_of_le z.isLt (Nat.pow_le_pow_right (by decide) (by omega)))]
  have hlo : x.toNat % 2 ^ 24 = z.toNat % 2 ^ 24 := Nat.eq_of_testBit_eq fun b => by
    rw [Nat.testBit_mod_two_pow, Nat.testBit_mod_two_pow]
    by_cases hb : b < 24
    · rw [hbit b (.inl hb)]
    · simp [hb]
  have hhi : x.toNat / 2 ^ 36 = z.toNat / 2 ^ 36 := Nat.eq_of_testBit_eq fun b => by
    rw [Nat.testBit_div_two_pow, Nat.testBit_div_two_pow, hbit _ (.inr (by omega))]
  have hset : setFld x 24 12 0 = setFld z 24 12 0 := by
    unfold setFld fld
    congr 1
    omega
  unfold sameGroup
  rw [hset]
  exact beq_self_eq_true _

theorem takePop_eq (s : State) (c : EngCmd) : ∃ q, s.takePop c = s.qs fun _ => q := by
  unfold State.takePop
  split
  · exact ⟨s.core.qs, rfl⟩
  · split
    · exact ⟨_, rfl⟩
    · exact ⟨s.core.qs, rfl⟩

/-- A command of one piece that nothing stops completes. -/
theorem runCmd_one {s u : State} {q : Fin 5} {c : EngCmd} {piece : State → Nat → Except Halt (State × Nat)} (ho : c.out = [])
    (h : piece (s.takePop c) 0 = .ok (u, 1)) : s.runCmd q c 1 piece = some (u.setCmd q { c with popped := true, st := .done, out := [] }) := by
  have hx : runXfer 1 piece 1 (s.takePop c) 0 = (u, 1, none) := by
    rw [runXfer, if_neg (by decide), h]
    rfl
  unfold State.runCmd
  rw [ho]
  dsimp only
  rw [hx]

/-- The command that an exchange belongs to: the one of its tag at the head of its queue, or one that is its group's only party. -/
theorem binCmd_head {s : State} {c : EngCmd} {rest : List EngCmd} {e : ECmd} {others : List PartyData} (hq : s.core.eng.q[(0 : Fin 5)] = c :: rest)
    (hi : c.instr = .reduceBin e) (hr : c.st = .running) (ho : ∀ o ∈ others, groupTag o.2.1 = groupTag (c.ops.getD 3 0))
    (hn : others = [] → wfld (c.ops.getD 3 0) 36 12 = 0) : s.binCmd others = some (0, c) := by
  have hbin : c.isBin = true := by unfold EngCmd.isBin; rw [hi]
  cases others with
  | nil =>
    unfold State.binCmd
    dsimp only
    rw [hq, List.find?_cons_of_pos (by rw [hr, hbin, hn rfl]; rfl)]
    rfl
  | cons o others =>
    have hmine : binRunning (groupTag o.2.1) c = true := by
      unfold binRunning
      rw [hr, hbin, ho o List.mem_cons_self]
      simp
    unfold State.binCmd
    dsimp only
    rw [hq, List.find?_cons_of_pos hmine]
    rfl

/-- A group of which this party waits for no other has one party. -/
theorem parties_nil {z : Word} (h : (List.range (wfld z 36 12 + 1)).filter (· != wfld z 24 12) = []) : wfld z 36 12 = 0 := by
  by_contra hne
  have h0 := List.filter_eq_nil_iff.1 h 0 (List.mem_range.2 (by omega))
  have h1 := List.filter_eq_nil_iff.1 h 1 (List.mem_range.2 (by omega))
  simp only [bne_iff_ne, not_not] at h0 h1
  omega

theorem engRead_sp {s : State} {a n : Nat} (hp : s.pkg.poison = []) (hw : s.pkg.weak = []) : s.engRead .sp a n = .ok (s.core.mems.sp.bytes a n, s) := by
  unfold State.engRead
  rw [if_pos (by decide), hp, correct_of_weak hw]
  rfl

/-- REDUCE.BIN between scratchpad ranges: the sums of this party's elements and of the others'. -/
def State.binSummed (s : State) (c : EngCmd) (all : List PartyData) (t : ElemTy) : Nat :=
  let len := wfld (c.ops.getD 2 0) 0 16 + 1
  let n := len / (t.width / 8)
  pack t.width (binSums t c.rm ((List.range n).map (lane t.width (leNat (s.core.mems.sp.bytes (c.ops.getD 0 0).toNat len))) :: all.map (·.2.2)) n)

theorem exchange_eq {s : State} {c : EngCmd} {others : List PartyData} {t : ElemTy} (hp : s.pkg.poison = []) (hw : s.pkg.weak = []) (ho : c.out = [])
    (ht : c.fmts.getD 0 .fp32 = t) (hs : wfld (c.ops.getD 2 0) 61 3 = 0) (hd : wfld (c.ops.getD 2 0) 58 3 = 0)
    (hall : ∀ o ∈ partyData (c.ops.getD 3 0) others, ∃ d, o = some d ∧ s.pkg.cutDev s.devs d.1 = none ∧ sameGroup d.2.1 (c.ops.getD 3 0) = true ∧
      d.2.2.length = (wfld (c.ops.getD 2 0) 0 16 + 1) / (t.width / 8)) : s.exchange 0 c others = some
      (((s.takePop c).mems fun m => { m with sp := m.sp.write (c.ops.getD 1 0).toNat (leBytes (wfld (c.ops.getD 2 0) 0 16 + 1)
        (s.binSummed c ((partyData (c.ops.getD 3 0) others).filterMap id) t)) }).setCmd 0 { c with popped := true, st := .done, out := [] }) := by
  obtain ⟨q, hq⟩ := takePop_eq s c
  have hsome (d) (h : d ∈ (partyData (c.ops.getD 3 0) others).filterMap id) : s.pkg.cutDev s.devs d.1 = none ∧ sameGroup d.2.1 (c.ops.getD 3 0) = true ∧
      d.2.2.length = (wfld (c.ops.getD 2 0) 0 16 + 1) / (t.width / 8) := by
    obtain ⟨o, hmem, hod⟩ := List.mem_filterMap.1 h
    obtain ⟨d', rfl, hd'⟩ := hall o hmem
    cases hod
    exact hd'
  have hthere : ((partyData (c.ops.getD 3 0) others).any Option.isNone ||
      ((partyData (c.ops.getD 3 0) others).filterMap id).any fun o => (s.pkg.cutDev s.devs o.1).isSome) = false := by
    rw [Bool.or_eq_false_iff, List.any_eq_false, List.any_eq_false]
    refine ⟨fun o h => ?_, fun d h => by simp [(hsome d h).1]⟩
    obtain ⟨d, rfl, -⟩ := hall o h
    simp
  have hgood : (((partyData (c.ops.getD 3 0) others).filterMap id).any fun o =>
      !sameGroup o.2.1 (c.ops.getD 3 0) || o.2.2.length != (wfld (c.ops.getD 2 0) 0 16 + 1) / (t.width / 8)) = false := by
    rw [List.any_eq_false]
    intro d h
    rw [(hsome d h).2.1, (hsome d h).2.2]
    simp
  unfold State.exchange
  dsimp only [boxOf]
  rw [ht, hthere, hgood, hs, hd]
  rw [if_neg Bool.false_ne_true, if_neg Bool.false_ne_true]
  refine runCmd_one ho ?_
  rw [hq]
  have hread (n : Nat) : (s.qs fun _ => q).engRead (spaceOf 0) (c.ops.getD 0 0).toNat n = .ok (s.core.mems.sp.bytes (c.ops.getD 0 0).toNat n, s.qs fun _ => q) :=
    engRead_sp hp hw
  rw [hread]
  rfl

/-- A command at the head of its queue has changed; the others there are not it. -/
theorem setCmd_head {e : Eng} {q : Fin 5} {c d : EngCmd} {rest : List EngCmd} (hq : e.q[q] = c :: rest) (hh : d.handler = false) (hd : d.seq = c.seq)
    (hr : ∀ x ∈ rest, x.seq ≠ c.seq) : setCmd q d e = { e with q := e.q.set q.val (d :: rest) } := by
  have hrest : (rest.map fun x => if x.seq == d.seq then d else x) = rest :=
    (List.map_congr_left fun x hx => if_neg (by rw [hd]; simpa using hr x hx)).trans (List.map_id _)
  unfold setCmd
  rw [hh, hq, List.map_cons, hrest, hd, beq_self_eq_true]
  rfl

/-- The elements of the other parties' data. -/
theorem partyData_elems (z : Word) (others : List PartyData) :
    ((partyData z others).filterMap id).map (·.2.2) = ((List.range (wfld z 36 12 + 1)).filter (· ≠ wfld z 24 12)).filterMap fun p =>
      (others.find? fun o => o.1 == p && wfld o.2.1 48 16 == wfld z 48 16).map (·.2.2) := by
  unfold partyData groupTag
  rw [List.filterMap_map, List.map_filterMap, filter_bne]
  rfl

/-- The element i of a range of n bytes whose value is packed there. -/
theorem lane_leNat_leBytes {w n k i : Nat} {l : List Nat} (hw : w * k = 8 * n) (hl : l.length = k) (hi : i < l.length) :
    lane w (leNat (leBytes n (pack w l))) i = l[i] % 2 ^ w := by
  rw [leNat_leBytes, lane_mod (by rw [← hw]; exact Nat.mul_le_mul_left _ (by omega)), lane_pack hi]

theorem Memory.range_write {m : Memory} {a n : Nat} {bs : List Byte} (h : bs.length = n) :
    ((List.range n).map fun j => (m.write a bs).read (a + j)) = bs := by
  subst h
  refine List.ext_getElem (by simp) fun i hi _ => ?_
  have hlt : i < bs.length := by simpa using hi
  rw [List.getElem_map, List.getElem_range, Memory.read_write, if_pos ⟨by omega, by omega⟩, Nat.add_sub_cancel_left, List.getD_eq_getElem _ _ hlt]

/-- O39's clause of REDUCE.BIN. -/
theorem reduceBin_answers {s : State} {c : EngCmd} {rest : List EngCmd} {e : ECmd} {z x y sh : Word} {ty : ElemTy} {others : List PartyData}
    (hq : s.core.eng.q[(0 : Fin 5)] = c :: rest) (hi : c.instr = .reduceBin e) (hr : c.st = .running) (hh : c.handler = false) (ho : c.out = [])
    (hu : s.core.fe.unit = .running) (hp : s.pkg.poison = []) (hw : s.pkg.weak = []) (hops : c.ops = [x, y, sh, z]) (hf : c.fmts = [ty])
    (hrest : ∀ d ∈ rest, d.seq ≠ c.seq) (hss : wfld sh 61 3 = 0) (hds : wfld sh 58 3 = 0) (hty : ty ∈ [ElemTy.h16, .bf16, .fp32])
    (hlen : (wfld sh 0 16 + 1) % (ty.width / 8) = 0) (hwf : s.core.mems.sp.wf = true) (htag : ∀ o ∈ others, wfld o.2.1 48 16 = wfld z 48 16)
    (hall : ∀ p ∈ (List.range (wfld z 36 12 + 1)).filter (· ≠ wfld z 24 12),
      ∃ o, (others.find? fun o => o.1 == p && wfld o.2.1 48 16 == wfld z 48 16) = some o ∧ o.2.2.length = (wfld sh 0 16 + 1) / (ty.width / 8) ∧
        (∀ b < 64, b < 24 ∨ 36 ≤ b → o.2.1.getLsbD b = z.getLsbD b) ∧ s.pkg.cutDev s.devs p = none) :
    let n := (wfld sh 0 16 + 1) / (ty.width / 8)
    let mine := (List.range n).map fun i => lane ty.width (leNat ((List.range (wfld sh 0 16 + 1)).map fun j => s.core.mems.sp.read (x.toNat + j))) i
    Answers (.reduceBinExchange others) s fun t =>
      Worked s 0 ({ c with popped := true, st := .done } :: rest) t ∧ t.pkg = s.pkg ∧ t.core.sys = s.core.sys ∧
      (∀ a, a < y.toNat ∨ y.toNat + (wfld sh 0 16 + 1) ≤ a → t.core.mems.sp.read a = s.core.mems.sp.read a) ∧
      ∀ i < n, ∃ r, (binSums ty c.rm (mine :: ((List.range (wfld z 36 12 + 1)).filter (· ≠ wfld z 24 12)).filterMap fun p =>
          (others.find? fun o => o.1 == p && wfld o.2.1 48 16 == wfld z 48 16).map (·.2.2)) n)[i]? = some r ∧
        lane ty.width (leNat ((List.range (wfld sh 0 16 + 1)).map fun j => t.core.mems.sp.read (y.toNat + j))) i = r % 2 ^ ty.width := by
  intro n mine
  have hz : c.ops.getD 3 0 = z := by rw [hops]; rfl
  have hsh : c.ops.getD 2 0 = sh := by rw [hops]; rfl
  have hy : c.ops.getD 1 0 = y := by rw [hops]; rfl
  have hx : c.ops.getD 0 0 = x := by rw [hops]; rfl
  have hbits : ty.width = 8 * (ty.width / 8) := by
    simp only [List.mem_cons, List.not_mem_nil, or_false] at hty
    obtain rfl | rfl | rfl := hty <;> rfl
  have hn : ty.width * n = 8 * (wfld sh 0 16 + 1) := by
    rw [hbits, Nat.mul_assoc, Nat.mul_div_cancel' (Nat.dvd_of_mod_eq_zero (by simpa using hlen))]
  have hfound (o) (hm : o ∈ partyData z others) : ∃ d, o = some d ∧ s.pkg.cutDev s.devs d.1 = none ∧ sameGroup d.2.1 z = true ∧ d.2.2.length = n := by
    unfold partyData at hm
    rw [filter_bne] at hm
    obtain ⟨p, hparty, rfl⟩ := List.mem_map.1 hm
    obtain ⟨d, hd, hdl, hdg, hdc⟩ := hall p hparty
    have hdp : d.1 = p := by
      have := List.find?_some hd
      simp only [Bool.and_eq_true, beq_iff_eq] at this
      exact this.1
    exact ⟨d, hd, hdp ▸ hdc, sameGroup_of_bits hdg, hdl⟩
  have hcmd : s.binCmd others = some (0, c) := by
    refine binCmd_head hq hi hr (fun o h => by rw [hz]; exact htag o h) fun hnil => ?_
    rw [hz]
    refine parties_nil (List.eq_nil_iff_forall_not_mem.2 fun p hparty => ?_)
    rw [filter_bne] at hparty
    obtain ⟨d, hd, -⟩ := hall p hparty
    rw [hnil] at hd
    cases hd
  have hx' := exchange_eq (s := s) (c := c) (others := others) (t := ty) hp hw ho (by rw [hf]; rfl) (by rw [hsh]; exact hss) (by rw [hsh]; exact hds)
    (by rw [hz, hsh]; exact hfound)
  have hrun : s.binExchange others = s.exchange 0 c others := by
    unfold State.binExchange
    rw [engActive_running hu, hcmd]
    rfl
  obtain ⟨q, hpop⟩ := takePop_eq s c
  rw [hpop] at hx'
  have hset := setCmd_head (e := s.core.eng) (q := 0) (d := { c with popped := true, st := .done }) hq hh rfl hrest
  have hout : ({ c with popped := true, st := .done, out := [] } : EngCmd) = { c with popped := true, st := .done } := by rw [← ho]
  obtain ⟨sums, hsums⟩ : ∃ l, l = binSums ty c.rm (mine :: ((List.range (wfld z 36 12 + 1)).filter (· ≠ wfld z 24 12)).filterMap fun p =>
      (others.find? fun o => o.1 == p && wfld o.2.1 48 16 == wfld z 48 16).map (·.2.2)) n := ⟨_, rfl⟩
  have hcount : sums.length = n := by rw [hsums, binSums_length]
  have hsum : s.binSummed c ((partyData z others).filterMap id) ty = pack ty.width sums := by
    unfold State.binSummed
    dsimp only
    rw [partyData_elems, hsh, hx, Memory.bytes_eq hwf, hsums]
  rw [hz, hsh, hy, hsum, hout] at hx'
  rw [← hsums]
  refine answers_event rfl (hrun.trans hx') ⟨⟨hset, rfl, rfl, rfl, rfl⟩, rfl, rfl, fun a ha => ?_, fun i hi => ?_⟩
  · refine (Memory.read_write _ _ _ _).trans (if_neg ?_)
    rw [leBytes_length]
    omega
  · have hlt : i < sums.length := by rw [hcount]; exact hi
    refine ⟨_, List.getElem?_eq_getElem hlt, ?_⟩
    have hback := Memory.range_write (m := s.core.mems.sp) (a := y.toNat) (leBytes_length (wfld sh 0 16 + 1) (pack ty.width sums))
    exact (congrArg (fun bs => lane ty.width (leNat bs) i) hback).trans (lane_leNat_leBytes hn hcount hlt)

/-! ### RESHARD (R305, R306) -/

theorem advance_of_not_acked {r : Resh} (h : r.old ∉ r.acked) (n : Nat) : Resh.advance n r = r := by
  cases n with
  | zero => rfl
  | succ n =>
    rw [Resh.advance, if_neg]
    simpa using h

/-- The acknowledgement of a sub-transfer that is not the oldest. -/
theorem subAck_eq {s : State} {ix : Nat} {r : Resh} {f : RsSend} {c : EngCmd} {rest : List EngCmd} (hr : s.core.resh = some r)
    (hq : s.core.eng.q[(4 : Fin 5)] = c :: rest) (hc : c.st = .running) (hf : s.pkg.rsFly = [f]) (hcore : f.core = s.core.idx) (hix : f.ix = ix)
    (hl : f.landed = true) (hu : s.core.fe.unit = .running) (hne : ix ≠ r.old) (ho : r.old ∉ r.acked) :
    s.subAck ix = some ((s.pkgd fun p => { p with rsFly := [] }).withCore { s.core with resh := some { r with acked := ix :: r.acked } }).progress := by
  have hopen : firstOpen s.core.eng.q[(4 : Fin 5)] = some c := by
    unfold firstOpen
    rw [hq]
    exact List.find?_cons_of_pos (by rw [hc]; rfl)
  have hfly : s.inFlight = [f] := by
    unfold State.inFlight
    rw [hf]
    exact List.filter_cons_of_pos (by simp [hcore])
  have hfind : (s.inFlight.find? fun f => f.ix == ix) = some f := by
    rw [hfly]
    exact List.find?_cons_of_pos (by simp [hix])
  have hgone : (s.pkg.rsFly.filter fun x => !(x.core == f.core && x.ix == ix)) = [] := by
    rw [hf]
    exact List.filter_cons_of_neg (by simp [hix])
  have hpk : (s.pkgd fun p => { p with rsFly := p.rsFly.filter fun x => !(x.core == f.core && x.ix == ix) }) = s.pkgd fun p => { p with rsFly := [] } :=
    congrArg (fun l => s.pkgd fun p => { p with rsFly := l }) hgone
  have hadv := advance_of_not_acked (r := { r with acked := ix :: r.acked }) (by simpa using ⟨Ne.symm hne, ho⟩) 8
  unfold State.subAck
  rw [hr, hopen, hfind]
  dsimp only
  rw [engActive_running hu, hl, hadv, Bool.not_true, Bool.and_false, Bool.or_false, if_neg Bool.false_ne_true, if_pos (beq_self_eq_true _), hpk]
  rfl

/-- The index, front end and registers of a core. -/
def Core.face (c : Core) : Nat × Front × Regs := (c.idx, c.fe, c.regs)

/-- A write in a partition's space: of the cores it changes cached lines alone, of the package's record the caches of the dies. -/
structure State.Parted (s t : State) : Prop where
  core : t.core = { s.core with lsu := t.core.lsu }
  others : t.others.map Core.face = s.others.map Core.face
  pkg : t.pkg = { s.pkg with dieTlb := t.pkg.dieTlb }

theorem State.Parted.refl (s : State) : s.Parted s := ⟨rfl, rfl, rfl⟩

theorem State.Parted.trans {s t u : State} (h : s.Parted t) (k : t.Parted u) : s.Parted u :=
  ⟨k.core.trans (by rw [h.core]), k.others.trans h.others, k.pkg.trans (by rw [h.pkg])⟩

theorem parted_landKeys (s : State) (ks : List Nat) (bs : List Byte) : s.Parted (s.landKeys ks bs) :=
  ⟨rfl, List.map_map, rfl⟩

theorem parted_dieXlate (s : State) (die : Nat) (p : Partition) (spc : Space) (va : Nat) (w : Bool) : s.Parted (s.dieXlate die p spc va w).2 := by
  unfold State.dieXlate
  split
  · exact .refl s
  · split
    · exact .refl s
    · exact ⟨rfl, rfl, rfl⟩

theorem parted_dieKeys (die : Nat) (p : Partition) (spc : Space) (w : Bool) (as : List Nat) (s : State) : s.Parted (State.dieKeys die p spc w as s).2 := by
  induction as generalizing s with
  | nil => exact .refl s
  | cons a as ih =>
    have hx := parted_dieXlate s die p spc a w
    unfold State.dieKeys
    split
    · next k t ht =>
      rw [ht] at hx
      have hrest := hx.trans (ih t)
      split
      · next ht' => rw [ht'] at hrest; exact hrest
      · exact hrest
    · next ht => rw [ht] at hx; exact hx

theorem parted_partKeys {s t : State} {part a n : Nat} {w : Bool} {ks : List Nat} (h : s.partKeys part a n w = some (ks, t)) : s.Parted t := by
  unfold State.partKeys at h
  split at h
  · cases h
  · next p _ =>
    have hk := parted_dieKeys 0 p .cl w (addrs a n) s
    split at h
    · next hd => rw [hd] at hk; cases h; exact hk
    · cases h

theorem parted_partPut {s t : State} {part a : Nat} {bs : List Byte} (h : s.partPut part a bs = some t) : s.Parted t := by
  obtain ⟨r, hr, rfl⟩ := Option.map_eq_some_iff.1 h
  exact (parted_partKeys hr).trans (parted_landKeys _ _ _)

theorem parted_putCells {s t : State} {part : Nat} {l : List (Nat × Byte)} (h : s.putCells part l = some t) : s.Parted t := by
  induction l generalizing s with
  | nil => cases h; exact .refl _
  | cons x l ih =>
    unfold State.putCells at h
    split at h
    · next hp => exact (parted_partPut hp).trans (ih h)
    · cases h

/-- The ordinal that is expected, with none ahead of it, leaves the next one expected. -/
theorem entryAfter_next {e : Nat} (h : e < 2 ^ 60) : entryAfter e (e % 2 ^ 60) = e % 2 ^ 60 + 1 := by
  have h0 : e / 2 ^ 60 = 0 := Nat.div_eq_of_lt h
  unfold entryAfter
  rw [h0, if_pos rfl]
  unfold countOrd
  rw [if_neg (by decide)]
  exact Nat.zero_add _

theorem rsFly_empty {t : State} {keep : RsSend → Bool} {mark : RsSend → RsSend} (hf : t.pkg.rsFly = []) :
    (t.pkgd fun p => { p with rsFly := (p.rsFly.filter keep).map mark }) = t :=
  congrArg (fun l => t.pkgd fun p => { p with rsFly := l }) (by rw [hf]; rfl : (t.pkg.rsFly.filter keep).map mark = t.pkg.rsFly)

/-- Nothing of this device's own is in flight: what arrives comes from elsewhere. -/
theorem subTransfer_eq {s t : State} {key gen sender ord : Nat} {cells : List (Nat × Byte)} (h : s.receive key gen sender ord cells = some t)
    (hf : t.pkg.rsFly = []) : s.subTransfer (key, gen, sender, ord, cells) = some t := by
  unfold State.subTransfer
  dsimp only
  rw [h]
  exact congrArg some (rsFly_empty hf)

section
variable {s u : State} {key gen sender ord e rcv ex : Nat} {cells : List (Nat × Byte)} {d : RsSide}
  (hd : (s.pkg.rsSides.find? fun x => x.key == key && x.gen == gen) = some d) (he : s.partWord d.part (d.record + 64 + 8 * sender) = some e)
  (hr : s.partWord d.part (d.record + 16) = some rcv) (hx : s.partWord d.part (d.record + 8) = some ex) (hu : s.putCells d.part cells = some u)
include hd he hr hx hu

/-- A sub-transfer that has come before is written again and not counted. -/
theorem receive_again (ho : ord < e % 2 ^ 60) : s.receive key gen sender ord cells = some u := by
  unfold State.receive
  rw [hd]
  dsimp only
  rw [he, hr, hx]
  dsimp only
  rw [hu]
  dsimp only
  rw [if_pos (by rw [decide_eq_true ho]; rfl)]

/-- The sub-transfer that is expected is written and counted. -/
theorem receive_next {v w : State} (ho : ord = e % 2 ^ 60) (hlt : e < 2 ^ 60)
    (hv : u.partPut d.part (d.record + 64 + 8 * sender) (leBytes 8 (ord + 1)) = some v)
    (hw : v.partPut d.part (d.record + 16) (leBytes 8 (rcv + cells.length)) = some w) : s.receive key gen sender ord cells = some
      (if rcv + cells.length = ex then w.pkgd fun p => { p with rsSides := p.rsSides.map fun x => if x == d then { x with ended := true } else x } else w) := by
  subst ho
  rw [← entryAfter_next hlt] at hv
  unfold State.receive
  rw [hd]
  dsimp only
  rw [he, hr, hx]
  dsimp only
  rw [hu]
  dsimp only
  rw [if_neg (by simp), hv]
  dsimp only
  rw [hw]

end

/-- A receive side whose last byte has come has ended. -/
theorem rsSides_ended {w : State} {d : RsSide} {l : List RsSide} {n ex : Nat} (hl : w.pkg.rsSides = l) :
    (if n = ex then w.pkgd fun p => { p with rsSides := p.rsSides.map fun x => if x == d then { x with ended := true } else x } else w).pkg.rsSides =
      l.map fun x => if x = d ∧ n = ex then { x with ended := true } else x := by
  subst hl
  by_cases h : n = ex
  · rw [if_pos h]
    exact List.map_congr_left fun x _ => by simp [h]
  · rw [if_neg h]
    simp [h]

/-- O39's clause of a sub-transfer that arrives. -/
theorem subTransfer_answers {s u : State} {key gen sender ord e rcv ex : Nat} {cells : List (Nat × Byte)} {d : RsSide}
    (hd : (s.pkg.rsSides.find? fun x => x.key == key && x.gen == gen) = some d) (he : s.partWord d.part (d.record + 64 + 8 * sender) = some e)
    (hr : s.partWord d.part (d.record + 16) = some rcv) (hx : s.partWord d.part (d.record + 8) = some ex) (hu : s.putCells d.part cells = some u)
    (hf : s.pkg.rsFly = []) :
    (ord < e % 2 ^ 60 → Answers (.subTransfer key gen sender ord cells) s fun t => t.mem = u.mem ∧ t.pkg = u.pkg ∧ t.core.regs = s.core.regs) ∧
    (∀ v w, ord = e % 2 ^ 60 → e < 2 ^ 60 → u.partPut d.part (d.record + 64 + 8 * sender) (leBytes 8 (ord + 1)) = some v →
      v.partPut d.part (d.record + 16) (leBytes 8 (rcv + cells.length)) = some w → Answers (.subTransfer key gen sender ord cells) s fun t =>
        t.mem = w.mem ∧ t.core.regs = s.core.regs ∧
        t.pkg.rsSides = s.pkg.rsSides.map fun x => if x = d ∧ rcv + cells.length = ex then { x with ended := true } else x) := by
  have hup := parted_putCells hu
  refine ⟨fun ho => ?_, fun v w ho hlt hv hw => ?_⟩
  · exact answers_event rfl (subTransfer_eq (receive_again hd he hr hx hu ho) (by rw [hup.pkg]; exact hf)) ⟨rfl, rfl, by rw [hup.core]⟩
  · have hwp := (hup.trans (parted_partPut hv)).trans (parted_partPut hw)
    have hside : w.pkg.rsSides = s.pkg.rsSides := by rw [hwp.pkg]
    have hfly : w.pkg.rsFly = [] := by rw [hwp.pkg]; exact hf
    have hregs : w.core.regs = s.core.regs := by rw [hwp.core]
    refine answers_event rfl (subTransfer_eq (receive_next hd he hr hx hu ho hlt hv hw) ?_) ⟨?_, ?_, rsSides_ended hside⟩
    · split <;> exact hfly
    · split <;> rfl
    · split <;> exact hregs

/-- What the arrival of a page changes. -/
theorem arrived_spec (u : State) (c : Prop) [Decidable c] (p : Nat) (bs : List Byte) :
    let t := ((if c then u.withCore { u.core with vuse := true } else u).circ fun e => e.arrive p bs).progress
    t.core.circ = u.core.circ.arrive p bs ∧ t.core.eng = u.core.eng ∧ t.core.regs = u.core.regs ∧ t.core.mems = u.core.mems ∧ t.mem = u.mem ∧
      t.pkg = u.pkg := by
  by_cases h : c
  · rw [if_pos h]
    exact ⟨rfl, rfl, rfl, rfl, rfl, rfl⟩
  · rw [if_neg h]
    exact ⟨rfl, rfl, rfl, rfl, rfl, rfl⟩

theorem arrive_eq (r : Circuit) (p : Nat) (bs : List Byte) : r.arrive p bs = { r with
    frames := (if r.frames.length < 8 then r.frames else r.frames.take 7) ++ [(p, bs)], flight := r.flight.filter (fun x => x ≠ p) } := by
  rw [← filter_bne]
  rfl

/-- The page of a registration is read from the space that its bit 62 names; its walks change translation caches alone. -/
theorem engRead_reg {s : State} {b : Bool} {a n : Nat} {ks : List Nat} (hp : s.pkg.poison = []) (hw : s.pkg.weak = []) :
    let spc : Space := if b then .cl else .at
    let u := s.fillWalks spc a n
    u.keysWalk spc a n false = .ok ks → s.engRead spc a n = .ok (ks.map u.mem.read, u) ∧ s.Walked u := by
  cases b with
  | false => exact fun hk => ⟨engRead_at hp hw hk, .refl s⟩
  | true => exact fun hk => ⟨engRead_cl hp hw hk, walked_fillWalks s a n⟩

/-- O39's clause of a page that arrives. -/
theorem pageFetch_answers {s : State} {p : Nat} {ks : List Nat} :
    let r := s.core.circ
    let n := min 16384 (16 * r.nrec - 16384 * p)
    let spc : Space := if r.reg.getLsbD 62 then .cl else .at
    let a := wfld r.reg 0 40 * 2 ^ 16 + r.offPages + 16384 * p
    let u := s.fillWalks spc a n
    s.core.fe.unit = .running → p ∈ r.flight → s.pkg.poison = [] → s.pkg.weak = [] → (∀ d ∈ s.core.eng.q[(3 : Fin 5)], d.st ≠ .running) →
    u.keysWalk spc a n false = .ok ks → Answers (.pageFetch p) s fun t => t.core.circ = { r with
        frames := (if r.frames.length < 8 then r.frames else r.frames.take 7) ++ [(p, ks.map u.mem.read)], flight := r.flight.filter (fun x => x ≠ p) } ∧
      t.core.eng = s.core.eng ∧ t.core.regs = s.core.regs ∧ t.core.mems = s.core.mems ∧ t.mem = u.mem ∧ t.pkg = u.pkg := by
  intro r n spc a u hu hp hpoison hweak hq hk
  obtain ⟨hread, hwalked⟩ := engRead_reg hpoison hweak hk
  have hcore : u.core.circ = r ∧ u.core.eng = s.core.eng ∧ u.core.regs = s.core.regs ∧ u.core.mems = s.core.mems := by
    rw [hwalked.core]
    exact ⟨rfl, rfl, rfl, rfl⟩
  obtain ⟨hcirc, heng, hregs, hmems⟩ := hcore
  have hstep := pageFetch_eq (u := u) (bs := ks.map u.mem.read) hu hp hread (by rw [heng]; exact hq)
  clear_value u
  obtain ⟨h1, h2, h3, h4, h5, h6⟩ := arrived_spec u (regSpace s.core.circ.reg == .at) p (ks.map u.mem.read)
  rw [hcirc, arrive_eq] at h1
  exact answers_event rfl hstep ⟨h1, h2.trans heng, h3.trans hregs, h4.trans hmems, h5, h6⟩

/-- Settles O39: a retirement is `retireHead`, and the other operations have an equation each for the state that they leave. -/
theorem enginesRetireAndExchange : Obligations.EnginesRetireAndExchange := by
  unfold Obligations.EnginesRetireAndExchange
  intro s c rest retires
  have hretires {i : Instr} {q : Fin 5} {cls : Nat} {name : String} {o : Option State} (hi : exec i s = event name o)
      (ho : s.core.eng.q[q] = c :: rest → c.st = .done → s.core.fe.unit = .running → o = s.retireHead q) (hcls : engClass q = cls) : retires i q cls :=
    fun hq hc hu hp => answers_event hi ((ho hq hc hu).trans (retireHead_eq hq hc hu hp)) (retired_spec hcls)
  refine ⟨hretires rfl (fun _ _ _ => rfl) rfl, hretires rfl (fun _ _ _ => rfl) rfl, hretires rfl (fun _ _ _ => rfl) rfl,
    hretires rfl (fun _ _ _ => rfl) rfl, fun hr => hretires rfl (fun hq hc hu => butterflyComplete_eq hq hc hr hu) rfl, ?_, ?_, ?_, ?_, ?_⟩
  case refine_1 =>
    intro x sd hk hs hi hpop hpush he hq hu
    exact answers_event rfl (sideComplete_sdset hs hi hpop hpush he hq hu) ⟨rfl, rfl, rfl, rfl, rfl, rfl⟩
  case refine_2 =>
    intro p ks
    exact pageFetch_answers
  case refine_3 =>
    intro e z x y sh ty others hq hi hr hh ho hu hp hw hops hf hrest hss hds hty hlen hwf n me parties data htag hall
    exact reduceBin_answers hq hi hr hh ho hu hp hw hops hf hrest hss hds hty hlen hwf htag hall
  case refine_4 =>
    intro key gen sender ord e rcv ex cells d u hd he hr hx hu hf
    exact subTransfer_answers hd he hr hx hu hf
  case refine_5 =>
    intro ix r f hr hq hc hf hcore hix hl hu hne ho
    exact answers_event rfl (subAck_eq hr hq hc hf hcore hix hl hu hne ho) ⟨rfl, rfl, rfl, rfl, rfl⟩

end Sys2Proof.Machine
end

section
/-! PROOFS. The commands of the mailbox that write their buffer: what stands there afterwards (O53). -/

namespace Sys2Proof.Machine

/-! ### Buffers -/

/-- The bytes of one element's part of a list of parts of one length. -/
theorem take_drop_flatMap {α β : Type} {f : α → List β} {l : List α} {k i j n : Nat} {x : α} (hf : ∀ y ∈ l, (f y).length = k) (hi : l[i]? = some x)
    (hn : j + n ≤ k) : ((l.flatMap f).drop (k * i + j)).take n = ((f x).drop j).take n := by
  induction l generalizing i with
  | nil => simp at hi
  | cons y l ih =>
    have hy := hf y List.mem_cons_self
    cases i with
    | zero =>
      obtain rfl : y = x := by simpa using hi
      rw [Nat.mul_zero, Nat.zero_add, List.flatMap_cons, List.drop_append_of_le_length (by omega), List.take_append_of_le_length (by simp; omega)]
    | succ i =>
      have hk : k * (i + 1) + j = (f y).length + (k * i + j) := by rw [hy, Nat.mul_succ]; omega
      rw [hk, List.flatMap_cons, ← List.drop_drop, List.drop_left]
      exact ih (fun z hz => hf z (List.mem_cons_of_mem _ hz)) (by simpa using hi)

theorem getElem?_flatMap {α β : Type} {f : α → List β} {l : List α} {k i j : Nat} {x : α} (hf : ∀ y ∈ l, (f y).length = k) (hi : l[i]? = some x)
    (hj : j < k) : (l.flatMap f)[k * i + j]? = (f x)[j]? := by
  have h := congrArg (·[0]?) (take_drop_flatMap (n := 1) hf hi hj)
  simpa using h

theorem length_flatMap {α β : Type} {f : α → List β} {l : List α} {k : Nat} (hf : ∀ y ∈ l, (f y).length = k) : (l.flatMap f).length = k * l.length := by
  rw [List.length_flatMap, List.map_congr_left hf]
  simp [Nat.mul_comm]

/-- A part of the bytes that have been written. -/
theorem bytesAt_write {m : Memory} {a i n : Nat} {bs : List Byte} (h : i + n ≤ bs.length) : bytesAt (m.write a bs) (a + i) n = (bs.drop i).take n := by
  unfold bytesAt
  refine List.ext_getElem (by simp; omega) fun j hj _ => ?_
  have hj' : j < n := by simpa using hj
  rw [List.getElem_map, List.getElem_range, Nat.add_assoc, Memory.read_write_of_mem m a bs (i + j) (by omega), List.getElem_take, List.getElem_drop]

/-- The words of a buffer. -/
theorem word_write {m : Memory} {a i w : Nat} {ws : List Nat} (h : ws[i]? = some w) :
    leNat (bytesAt (m.write a (ws.flatMap (leBytes 8))) (a + 8 * i) 8) = w % 2 ^ 64 := by
  have hlen (y) (_ : y ∈ ws) : (leBytes 8 y).length = 8 := leBytes_length 8 y
  have hi : i < ws.length := (List.getElem?_eq_some_iff.1 h).1
  rw [bytesAt_write (by rw [length_flatMap hlen]; omega), ← Nat.add_zero (8 * i), take_drop_flatMap hlen h (by decide), List.drop_zero,
    List.take_of_length_le (by rw [leBytes_length]), leNat_leBytes]

theorem bytesAt_eq {m : Memory} (hm : m.wf = true) (a n : Nat) : m.bytes a n = bytesAt m a n := Memory.bytes_eq hm a n

/-- A buffer's address is one of the host (R354). -/
theorem keyHost_bufAt (buf : Nat) : keyHost (bufAt buf % 2 ^ 52) = keyHost (buf % 2 ^ 46 * 64) := by
  unfold bufAt
  rw [Nat.mod_eq_of_lt (by omega : buf % 2 ^ 46 * 64 < 2 ^ 52)]

theorem hostPut_buf (s : State) (buf : Nat) (bs : List Byte) : s.hostPut (bufAt buf) bs = { s with mem := s.mem.write (keyHost (buf % 2 ^ 46 * 64)) bs } := by
  unfold State.hostPut
  rw [keyHost_bufAt]

theorem hostBytes_buf {s : State} (hm : s.mem.wf = true) (buf n : Nat) : s.hostBytes (bufAt buf) n = bytesAt s.mem (keyHost (buf % 2 ^ 46 * 64)) n := by
  unfold State.hostBytes
  rw [keyHost_bufAt, bytesAt_eq hm]

/-- A command whose event is noted, and which then only writes its buffer. -/
theorem answers_buffer {i : Instr} {s u : State} {P : State → Prop} {name : String} {op code buf : Nat} {f : State → Nat × State} {bs : List Byte}
    (hi : exec i s = event name (if s.hearthUp && s.mboxFor op buf then some (s.mbox op f) else none)) (hu : s.hearthUp = true) (hm : MailFree s op buf)
    (h : f (s.bb (.mailbox op)) = (code, u.hostPut (bufAt buf) bs))
    (hp : P ({ u with mem := u.mem.write (keyHost (buf % 2 ^ 46 * 64)) bs }.setCode code)) : Answers i s P :=
  answers_mailed hi hu hm (h.trans (congrArg (code, ·) (hostPut_buf u buf bs))) hp

/-! ### SVN_BUMP and ATTEST (R339, R364) -/

theorem svnBump_answers {s : State} {msg sig : List Byte} (hu : s.hearthUp = true) (hm : MailFree s 5 none) : Answers (.svnBump msg sig) s fun t =>
    CoresStay s t ∧ t.mem = s.mem ∧ if Config.sm2Verify Config.releaseKey msg sig = true then MailedCode s 0 t ∧ t.pkg.svn = min 64 (s.pkg.svn + 1)
      else MailedCode s 3 t ∧ t.pkg.svn = s.pkg.svn := by
  obtain ⟨box, free, hbox⟩ := bb_eq s (.mailbox 5)
  by_cases hs : Config.sm2Verify Config.releaseKey msg sig = true
  · refine answers_mailed (s := s) rfl hu hm ((congrArg (State.mbSvnBump · msg sig) hbox).trans (if_pos hs)) ⟨⟨rfl, rfl⟩, rfl, ?_⟩
    rw [if_pos hs]
    exact ⟨mailedCode_setCode (by decide) rfl, rfl⟩
  · refine answers_mailed (s := s) rfl hu hm ((congrArg (State.mbSvnBump · msg sig) hbox).trans (if_neg hs)) ⟨⟨rfl, rfl⟩, rfl, ?_⟩
    rw [if_neg hs]
    exact ⟨mailedCode_setCode (by decide) rfl, rfl⟩

/-- What a quote states, before its signature. -/
def State.quoteBody (s : State) (nonce : List Byte) : List Byte :=
  nonce ++ digest s.pkg.firmware ++ digest (s.inOrder.flatMap Core.cstoreBytes) ++ leBytes 8 (s.pkg.svn % 2 ^ 7 + Config.stepping % 2 ^ 16 * 2 ^ 16) ++
    digest Config.deviceKey ++ List.replicate 56 0

theorem quote_eq (s : State) (nonce : List Byte) :
    s.quote nonce = s.quoteBody nonce ++ (Config.sm2Sign Config.deviceKey (s.quoteBody nonce) ++ List.replicate 64 0).take 64 := rfl

theorem digest_length (bs : List Byte) : (digest bs).length = 32 := leBytes_length 32 _

theorem quoteBody_length {s : State} {nonce : List Byte} (h : nonce.length = 32) : (s.quoteBody nonce).length = 192 := by
  unfold State.quoteBody
  simp only [List.length_append, digest_length, leBytes_length, List.length_replicate, h]

/-- A field of 64 bytes that a shorter string does not fill. -/
theorem field64_length (bs : List Byte) : ((bs ++ List.replicate 64 0).take 64).length = 64 := by simp

theorem attest_answers {s : State} {buf : Nat} (hu : s.hearthUp = true) (hwf : s.mem.wf = true) (hm : MailFree s 4 buf) : Answers (.attest buf) s fun t =>
    CoresStay s t ∧ MailedCode s 0 t ∧
    (∀ a, a < keyHost (buf % 2 ^ 46 * 64) ∨ keyHost (buf % 2 ^ 46 * 64) + 256 ≤ a → t.mem.read a = s.mem.read a) ∧
    let body := s.quoteBody (bytesAt s.mem (keyHost (buf % 2 ^ 46 * 64)) 32)
    bytesAt t.mem (keyHost (buf % 2 ^ 46 * 64)) 192 = body ∧
      bytesAt t.mem (keyHost (buf % 2 ^ 46 * 64) + 192) 64 = (Config.sm2Sign Config.deviceKey body ++ List.replicate 64 0).take 64 := by
  obtain ⟨box, free, hbox⟩ := bb_eq s (.mailbox 4)
  have hnonce : (s.noted box free).hostBytes (bufAt buf) 32 = bytesAt s.mem (keyHost (buf % 2 ^ 46 * 64)) 32 := hostBytes_buf (s := s.noted box free) hwf buf 32
  have hbody : (s.quoteBody (bytesAt s.mem (keyHost (buf % 2 ^ 46 * 64)) 32)).length = 192 := quoteBody_length (by simp [bytesAt])
  have hact : (s.bb (.mailbox 4)).mbAttest buf = (0, (s.noted box free).hostPut (bufAt buf) (s.quote (bytesAt s.mem (keyHost (buf % 2 ^ 46 * 64)) 32))) := by
    rw [hbox, ← hnonce]
    rfl
  have hlen : (s.quote (bytesAt s.mem (keyHost (buf % 2 ^ 46 * 64)) 32)).length = 256 := by
    rw [quote_eq, List.length_append, hbody, field64_length]
  refine answers_buffer (s := s) rfl hu hm hact ⟨⟨rfl, rfl⟩, mailedCode_setCode (by decide) rfl, fun a ha => ?_, ?_, ?_⟩
  · exact Memory.read_write_of_not _ _ _ a (by rwa [hlen])
  · refine (bytesAt_write (i := 0) (by rw [hlen]; decide)).trans ?_
    rw [List.drop_zero, quote_eq, List.take_left' hbody]
  · refine (bytesAt_write (by rw [hlen])).trans ?_
    rw [quote_eq, List.drop_left' hbody, List.take_of_length_le (by rw [field64_length])]

/-! ### RESYNC (R357) -/

/-- The first words of the summary record. -/
def State.resyncHead (s : State) : List Nat :=
  [0x5253 * 2 ^ 48 + 2 ^ 32 + (Config.resyncBase + s.pkg.resyncs) % 2 ^ 32,
    s.pkg.parts.length * 2 ^ 48 + (s.pkg.counters.filter fun c => c.2.live).length * 2 ^ 32 + (s.allCores.flatMap Core.flightRows).length * 2 ^ 16 + 8,
    s.pkg.bbox.head + Bool.bit s.pkg.bbox.frozen * 2 ^ 63, 0, 0, 0, 0, 0]

/-- The words of the summary record. -/
def State.resyncWords (s : State) : List Nat :=
  s.resyncHead ++ s.pkg.parts.flatMap s.partRow ++
  ((s.pkg.counters.filter fun c => c.2.live).flatMap fun c => [s.pkg.ref c.1 % 2 ^ 24, c.2.word.toNat]) ++
  (s.allCores.flatMap Core.flightRows).flatten ++
  s.pkg.levels.toList.flatMap fun l => [l.ce.toNat, l.ue.toNat]

theorem summary_eq (s : State) : s.summary = (s.resyncWords.flatMap (leBytes 8), s.pkgd fun p => { p with resyncs := p.resyncs + 1 }) := rfl

theorem getElem?_segment {p l r : List Nat} {n i w : Nat} (hp : p.length = n) (hw : l[i]? = some w) : (p ++ l ++ r)[n + i]? = some w := by
  subst hp
  rw [List.append_assoc, List.getElem?_append_right (Nat.le_add_right _ _), Nat.add_sub_cancel_left,
    List.getElem?_append_left (List.getElem?_eq_some_iff.1 hw).1, hw]

/-- A command in flight is told by four words. -/
theorem flightRows_length {c : Core} {r : List Nat} (h : r ∈ c.flightRows) : r.length = 4 := by
  unfold Core.flightRows at h
  simp only [List.mem_append, List.mem_flatMap, List.mem_map] at h
  obtain ⟨q, -, e, -, rfl⟩ | ⟨e, -, rfl⟩ := h <;> rfl

theorem rows_length {s : State} (r : List Nat) (h : r ∈ s.allCores.flatMap Core.flightRows) : r.length = 4 := by
  obtain ⟨c, -, hr⟩ := List.mem_flatMap.1 h
  exact flightRows_length hr

/-- The rows of the partitions stand behind the first eight words of the summary. -/
theorem resyncWords_part {s : State} {i j w : Nat} {q : Partition} (hq : s.pkg.parts[i]? = some q) (hj : j < 2) (hw : (s.partRow q)[j]? = some w) :
    s.resyncWords[8 + 2 * i + j]? = some w := by
  have hrow (y) (_ : y ∈ s.pkg.parts) : (s.partRow y).length = 2 := rfl
  rw [Nat.add_assoc]
  unfold State.resyncWords
  rw [List.append_assoc, List.append_assoc]
  exact getElem?_segment rfl ((getElem?_flatMap hrow hq hj).trans hw)

/-- The rows of the counters stand behind those of the partitions. -/
theorem resyncWords_counter {s : State} {i j w : Nat} {c : Nat × Counter} (hc : (s.pkg.counters.filter fun c => c.2.live)[i]? = some c) (hj : j < 2)
    (hw : [s.pkg.ref c.1 % 2 ^ 24, c.2.word.toNat][j]? = some w) : s.resyncWords[8 + 2 * s.pkg.parts.length + 2 * i + j]? = some w := by
  have hrow (y) (_ : y ∈ s.pkg.parts) : (s.partRow y).length = 2 := rfl
  rw [Nat.add_assoc]
  unfold State.resyncWords
  rw [List.append_assoc]
  refine getElem?_segment ?_ ((getElem?_flatMap (k := 2) (fun _ _ => rfl) hc hj).trans hw)
  rw [List.length_append, length_flatMap hrow]
  rfl

/-- The rows of the commands in flight stand behind those of the counters. -/
theorem resyncWords_row {s : State} {i j : Nat} {r : List Nat} (hr : (s.allCores.flatMap Core.flightRows)[i]? = some r) (hj : j < 4) :
    s.resyncWords[8 + 2 * s.pkg.parts.length + 2 * (s.pkg.counters.filter fun c => c.2.live).length + 4 * i + j]? = some (r.getD j 0) := by
  have hrow (y) (_ : y ∈ s.pkg.parts) : (s.partRow y).length = 2 := rfl
  have hlen := rows_length r (List.mem_of_getElem? hr)
  rw [Nat.add_assoc]
  unfold State.resyncWords
  refine getElem?_segment ?_ ?_
  · rw [List.length_append, List.length_append, length_flatMap hrow, length_flatMap (k := 2) fun _ _ => rfl]
    rfl
  · rw [← List.flatMap_id, getElem?_flatMap (f := id) rows_length hr hj, id, List.getElem?_eq_getElem (by omega), List.getD_eq_getElem _ _ (by omega)]

/-- The error counts stand last. -/
theorem resyncWords_level {s : State} {i : Fin 8} {j w : Nat} (hj : j < 2)
    (hw : [(s.pkg.levels[i]).ce.toNat, (s.pkg.levels[i]).ue.toNat][j]? = some w) :
    s.resyncWords[8 + 2 * s.pkg.parts.length + 2 * (s.pkg.counters.filter fun c => c.2.live).length + 4 * (s.allCores.flatMap Core.flightRows).length +
      2 * i.val + j]? = some w := by
  have hrow (y) (_ : y ∈ s.pkg.parts) : (s.partRow y).length = 2 := rfl
  have hlevel : s.pkg.levels.toList[i.val]? = some s.pkg.levels[i] := by simp
  rw [Nat.add_assoc]
  unfold State.resyncWords
  refine (List.append_nil (_ ++ _)) ▸ getElem?_segment (r := []) ?_ ((getElem?_flatMap (k := 2) (fun _ _ => rfl) hlevel hj).trans hw)
  have hflat : (s.allCores.flatMap Core.flightRows).flatten.length = 4 * (s.allCores.flatMap Core.flightRows).length := by
    rw [← List.flatMap_id, length_flatMap (f := id) rows_length]
  rw [List.length_append, List.length_append, List.length_append, length_flatMap hrow, length_flatMap (k := 2) fun _ _ => rfl, hflat]
  rfl

theorem resync_answers {s : State} {buf : Nat} (hu : s.hearthUp = true) (hm : MailFree s 3 buf) : Answers (.resync buf) s fun t =>
    CoresStay s t ∧ MailedCode s 0 t ∧ t.pkg.resyncs = s.pkg.resyncs + 1 ∧ ∃ box free,
      t.mem = s.mem.write (keyHost (buf % 2 ^ 46 * 64)) ((s.noted box free).resyncWords.flatMap (leBytes 8)) := by
  obtain ⟨box, free, hbox⟩ := bb_eq s (.mailbox 3)
  have hact : (s.bb (.mailbox 3)).mbResync buf = (0, ((s.noted box free).pkgd fun p => { p with resyncs := p.resyncs + 1 }).hostPut (bufAt buf)
      ((s.noted box free).resyncWords.flatMap (leBytes 8))) := by
    rw [hbox]
    unfold State.mbResync
    rw [summary_eq]
    rfl
  exact answers_buffer (s := s) rfl hu hm hact ⟨⟨rfl, rfl⟩, mailedCode_setCode (by decide) rfl, rfl, box, free, rfl⟩

/-- O53's clause of RESYNC. -/
theorem resync_summary {s : State} {buf : Nat} (hu : s.hearthUp = true) (hm : MailFree s 3 buf) :
    let at' := keyHost (buf % 2 ^ 46 * 64)
    let live := s.pkg.counters.filter fun c => c.2.live
    let rows := (s.core :: s.others).flatMap Core.flightRows
    let n := s.pkg.parts.length
    let word (t : State) (i : Nat) : Nat := leNat (bytesAt t.mem (at' + 8 * i) 8)
    n < 2 ^ 16 → live.length < 2 ^ 16 → rows.length < 2 ^ 16 → Answers (.resync buf) s fun t =>
      CoresStay s t ∧ MailedCode s 0 t ∧ t.pkg.resyncs = s.pkg.resyncs + 1 ∧
      word t 0 = 0x5253 * 2 ^ 48 + 2 ^ 32 + (Config.resyncBase + s.pkg.resyncs) % 2 ^ 32 ∧ word t 1 = n * 2 ^ 48 + live.length * 2 ^ 32 + rows.length * 2 ^ 16 + 8 ∧
      (∀ i q, s.pkg.parts[i]? = some q →
        let job := s.pkg.jobs.find? fun j => j.part == q.id && !stFinal (s.pkg.counter j.ctr).state
        word t (8 + 2 * i) = (q.cores.headD 0 + q.cores.getLastD 0 * 2 ^ 8 + (job.map (·.ctr)).getD 0 * 2 ^ 16 + q.quantum * 2 ^ 32) % 2 ^ 64 ∧ word t (8 + 2 * i + 1) = 0) ∧
      (∀ i c, live[i]? = some c → word t (8 + 2 * n + 2 * i) = s.pkg.ref c.1 % 2 ^ 24 ∧ word t (8 + 2 * n + 2 * i + 1) = c.2.word.toNat) ∧
      (∀ i r, rows[i]? = some r → ∀ j < 4, word t (8 + 2 * n + 2 * live.length + 4 * i + j) = r.getD j 0 % 2 ^ 64) ∧
      (∀ i : Fin 8, word t (8 + 2 * n + 2 * live.length + 4 * rows.length + 2 * i.val) = (s.pkg.levels[i]).ce.toNat ∧
        word t (8 + 2 * n + 2 * live.length + 4 * rows.length + 2 * i.val + 1) = (s.pkg.levels[i]).ue.toNat) := by
  intro at' live rows n word hn hl hr
  refine (resync_answers hu hm).mono fun t ⟨hcores, hcode, hcount, box, free, hmem⟩ => ?_
  have hword (i w : Nat) (hw : (s.noted box free).resyncWords[i]? = some w) : word t i = w % 2 ^ 64 := by
    show leNat (bytesAt t.mem _ _) = _
    rw [hmem]
    exact word_write hw
  refine ⟨hcores, hcode, hcount, ?_, ?_, fun i q hq => ⟨?_, ?_⟩, fun i c hc => ⟨?_, ?_⟩, fun i r hr j hj => ?_, fun i => ⟨?_, ?_⟩⟩
  · exact (hword 0 _ rfl).trans (Nat.mod_eq_of_lt (by omega))
  · exact (hword 1 _ rfl).trans (Nat.mod_eq_of_lt (by change n * 2 ^ 48 + live.length * 2 ^ 32 + rows.length * 2 ^ 16 + 8 < _; omega))
  · exact hword _ _ (resyncWords_part (s := s.noted box free) (j := 0) hq (by decide) rfl)
  · exact hword _ _ (resyncWords_part (s := s.noted box free) (j := 1) hq (by decide) rfl)
  · exact (hword _ _ (resyncWords_counter (s := s.noted box free) (j := 0) hc (by decide) rfl)).trans (Nat.mod_eq_of_lt (by omega))
  · exact (hword _ _ (resyncWords_counter (s := s.noted box free) (j := 1) hc (by decide) rfl)).trans (Nat.mod_eq_of_lt (BitVec.isLt _))
  · exact hword _ _ (resyncWords_row (s := s.noted box free) hr hj)
  · exact (hword _ _ (resyncWords_level (s := s.noted box free) (j := 0) (by decide) rfl)).trans (Nat.mod_eq_of_lt (BitVec.isLt _))
  · exact (hword _ _ (resyncWords_level (s := s.noted box free) (j := 1) (by decide) rfl)).trans (Nat.mod_eq_of_lt (BitVec.isLt _))

/-! ### The black box (R362) -/

theorem bb_frozen {s : State} (h : s.pkg.bbox.frozen = true) (k : BbKind) : s.bb k = s := if_pos h

theorem bb_open {s : State} (h : s.pkg.bbox.frozen = false) (k : BbKind) : s.bb k =
    s.noted ⟨put s.pkg.bbox.events (s.pkg.bbox.head % 4096) ⟨k, s.core.idx, s.free⟩, s.pkg.bbox.head + 1, false⟩ (s.free + 4) :=
  if_neg (by rw [h]; exact Bool.false_ne_true)

theorem eventBytes_length (b : BlackBox) (i : Nat) : (b.bytesAt i).length = 32 := by
  unfold BlackBox.bytesAt
  split
  · exact length_flatMap (k := 8) fun k _ => leBytes_length 8 _
  · rfl

/-- The words of an event, or of a place that holds none. -/
def BlackBox.eventWord (b : BlackBox) (i k : Nat) : Nat :=
  match b.events.find? fun e => e.1 == i with
  | some e => (Config.freeWord (e.2.val + k)).toNat
  | none => 0

theorem eventBytes_word (b : BlackBox) (i : Nat) {k : Nat} (hk : k < 4) : leNat (((b.bytesAt i).drop (8 * k)).take 8) = b.eventWord i k := by
  have hword (w : Word) : leNat (leBytes 8 w.toNat) = w.toNat := (leNat_leBytes 8 _).trans (Nat.mod_eq_of_lt w.isLt)
  unfold BlackBox.bytesAt BlackBox.eventWord
  generalize (b.events.find? fun e => e.1 == i) = found
  cases found with
  | some e =>
    have hrange : (List.range 4)[k]? = some k := by rw [List.getElem?_eq_getElem (by simpa using hk), List.getElem_range]
    refine (congrArg leNat (take_drop_flatMap (j := 0) (n := 8) (fun k _ => leBytes_length 8 (Config.freeWord (e.2.val + k)).toNat) hrange (by decide))).trans ?_
    rw [List.drop_zero, List.take_of_length_le (by rw [leBytes_length]), hword]
  | none =>
    dsimp only
    rw [List.drop_replicate, List.take_replicate, Nat.min_eq_left (by omega)]
    rfl

/-- The bytes that BBREAD writes. -/
def BlackBox.ring (b : BlackBox) : List Byte := (List.range 4096).flatMap b.bytesAt ++ leBytes 8 b.head ++ leBytes 8 (Bool.bit b.frozen)

theorem events_length (b : BlackBox) : ((List.range 4096).flatMap b.bytesAt).length = 131072 := by
  rw [length_flatMap fun i _ => eventBytes_length b i, List.length_range]

theorem ring_length (b : BlackBox) : b.ring.length = 131088 := by
  unfold BlackBox.ring
  rw [List.length_append, List.length_append, events_length, leBytes_length, leBytes_length]

/-- The ring as BBREAD has written it from key a on. -/
structure RingAt (b : BlackBox) (m : Memory) (a : Nat) : Prop where
  events : ∀ i < 4096, ∀ k < 4, leNat (bytesAt m (a + 8 * (4 * i + k)) 8) = b.eventWord i k
  head : bytesAt m (a + 131072) 8 = leBytes 8 b.head
  frozen : leNat (bytesAt m (a + 8 * 16385) 8) = if b.frozen then 1 else 0

theorem ring_read (b : BlackBox) (m : Memory) (a : Nat) : RingAt b (m.write a b.ring) a := by
  refine ⟨fun i hi k hk => ?_, ?_, ?_⟩
  · have hrange : (List.range 4096)[i]? = some i := by rw [List.getElem?_eq_getElem (by simpa using hi), List.getElem_range]
    rw [bytesAt_write (by rw [ring_length]; omega), BlackBox.ring, List.append_assoc, List.drop_append_of_le_length (by rw [events_length]; omega),
      List.take_append_of_le_length (by rw [List.length_drop, events_length]; omega), show 8 * (4 * i + k) = 32 * i + 8 * k by omega,
      take_drop_flatMap (fun i _ => eventBytes_length b i) hrange (by omega), eventBytes_word b i hk]
  · rw [bytesAt_write (by rw [ring_length]; omega), BlackBox.ring, List.append_assoc, List.drop_left' (events_length b),
      List.take_left' (leBytes_length 8 _)]
  · have hpre : ((List.range 4096).flatMap b.bytesAt ++ leBytes 8 b.head).length = 8 * 16385 := by rw [List.length_append, events_length, leBytes_length]
    rw [bytesAt_write (by rw [ring_length]), BlackBox.ring, List.drop_left' hpre, List.take_of_length_le (by rw [leBytes_length])]
    cases b.frozen <;> rfl

theorem bbread_state {s u : State} {buf : Nat} (hb : s.pkg.booted = true) (hm : MailFree s 6 buf) (hu : s.bb (.mailbox 6) = u) : exec (.bbread buf) s = .next
    (({ u with mem := u.mem.write (keyHost (buf % 2 ^ 46 * 64)) u.pkg.bbox.ring } : State).setCode 0) := by
  show execBbread buf s = _
  unfold execBbread
  rw [hb, mboxFor_of_free hm, mbox_eq (t := u.hostPut (bufAt buf) u.pkg.bbox.ring) (code := 0) (by rw [hu]; rfl), hostPut_buf]
  rfl

/-- O53's clause of BBREAD. -/
theorem bbread_answers {s : State} {buf : Nat} (hb : s.pkg.booted = true) (hm : MailFree s 6 buf) :
    let at' := keyHost (buf % 2 ^ 46 * 64)
    let word (t : State) (i : Nat) : Nat := leNat (bytesAt t.mem (at' + 8 * i) 8)
    Answers (.bbread buf) s fun t => CoresStay s t ∧ MailedCode s 0 t ∧ (∀ a, a < at' ∨ at' + 8 * 16386 ≤ a → t.mem.read a = s.mem.read a) ∧
      t.free = s.free + (if s.pkg.bbox.frozen then 0 else 4) ∧ (∀ i < 4096, ∀ k < 4, word t (4 * i + k) = t.pkg.bbox.eventWord i k) ∧
      bytesAt t.mem (at' + 131072) 8 = leBytes 8 t.pkg.bbox.head ∧ word t 16385 = (if t.pkg.bbox.frozen then 1 else 0) ∧
      (s.pkg.bbox.frozen = true → t.pkg.bbox = s.pkg.bbox) ∧
      (s.pkg.bbox.frozen = false → t.pkg.bbox = ⟨put s.pkg.bbox.events (s.pkg.bbox.head % 4096) ⟨.mailbox 6, s.core.idx, s.free⟩, s.pkg.bbox.head + 1, false⟩) := by
  intro at' word
  have hout (u : State) (hmem : u.mem = s.mem) (a : Nat) (ha : a < at' ∨ at' + 8 * 16386 ≤ a) : (u.mem.write at' u.pkg.bbox.ring).read a = s.mem.read a := by
    rw [Memory.read_write_of_not _ _ _ a (by rw [ring_length]; exact ha), hmem]
  cases hf : s.pkg.bbox.frozen with
  | true =>
    obtain ⟨hevents, hhead, hfrozen⟩ := ring_read s.pkg.bbox s.mem at'
    refine ⟨_, bbread_state hb hm (bb_frozen hf _), ⟨rfl, rfl⟩, mailedCode_setCode (by decide) rfl, hout s rfl, rfl, hevents, hhead, hfrozen, fun _ => rfl, ?_⟩
    exact fun h => absurd h (by decide)
  | false =>
    have hu := bb_open hf (.mailbox 6)
    obtain ⟨hevents, hhead, hfrozen⟩ := ring_read (s.bb (.mailbox 6)).pkg.bbox s.mem at'
    rw [hu] at hevents hhead hfrozen
    refine ⟨_, bbread_state hb hm hu, ⟨rfl, rfl⟩, mailedCode_setCode (by decide) rfl, hout _ rfl, rfl, hevents, hhead, hfrozen, ?_, fun _ => rfl⟩
    exact fun h => absurd h (by decide)

theorem bbclear_answers {s : State} (hb : s.pkg.booted = true) (hm : MailFree s 7 none) : Answers .bbclear s fun t =>
    CoresStay s t ∧ MailedCode s 0 t ∧ t.mem = s.mem ∧ t.pkg.bbox = ⟨[], 0, false⟩ := by
  obtain ⟨box, free, hbox⟩ := bb_eq s (.mailbox 7)
  refine answers_event (t := (((s.noted box free).pkgd fun p => { p with bbox := ⟨[], 0, false⟩ }).setCode 0)) rfl ?_
    ⟨⟨rfl, rfl⟩, mailedCode_setCode (by decide) rfl, rfl, rfl⟩
  rw [hb, mboxFor_of_free hm, mbox_eq (congrArg State.mbBbclear hbox)]
  rfl

end Sys2Proof.Machine
end

section
/-! PROOFS. PARTITION: a partition is refused, created, deleted, or loses its last core (O53). -/

namespace Sys2Proof.Machine

/-! ### The command and its reply (R356) -/

/-- What a done command leaves, where it has made of s the state u: its code, and the core count of partition id as the reply in its buffer. -/
structure PartDone (s : State) (buf code id : Nat) (u t : State) : Prop where
  code : MailedCode s code t
  core : t.core = u.core
  others : t.others = u.others
  parts : t.pkg.parts = u.pkg.parts
  out : ∀ a, a < keyHost (buf % 2 ^ 46 * 64) ∨ keyHost (buf % 2 ^ 46 * 64) + 8 ≤ a → t.mem.read a = u.mem.read a
  count : bytesAt t.mem (keyHost (buf % 2 ^ 46 * 64)) 8 = leBytes 8 (((u.partAt id).map (·.cores.length)).getD 0)

theorem partDone_setCode {s u : State} {buf code id : Nat} (hc : code < 256) (hmb : u.pkg.mboxStat = s.pkg.mboxStat) :
    PartDone s buf code id u ((u.partReply buf id).setCode code) := by
  have hmem : ((u.partReply buf id).setCode code).mem = u.mem.write (keyHost (buf % 2 ^ 46 * 64)) (leBytes 8 (((u.partAt id).map (·.cores.length)).getD 0)) :=
    congrArg State.mem (hostPut_buf u buf _)
  refine ⟨mailedCode_setCode hc hmb, rfl, rfl, rfl, fun a ha => ?_, ?_⟩
  · rw [hmem]
    exact Memory.read_write_of_not _ _ _ a (by rwa [leBytes_length])
  · rw [hmem]
    refine (bytesAt_write (i := 0) (by rw [leBytes_length])).trans ?_
    rw [List.drop_zero, List.take_of_length_le (by rw [leBytes_length])]

/-- A request that is refused, or finds the units of its partition suspended. -/
theorem answers_partition {s : State} {buf : Nat} {P : State → Prop} (hu : s.hearthUp = true) (hm : MailFree s 8 buf)
    (hq : s.partQuiet (s.hostBytes (bufAt buf) 64) = true) (h : ∀ box free, ∃ code < 256, ∃ u : State, u.pkg.mboxStat = s.pkg.mboxStat ∧
      (s.noted box free).mbPartition buf = (code, u.partReply buf (partReq (s.hostBytes (bufAt buf) 64)).id) ∧
      ∀ t, PartDone s buf code (partReq (s.hostBytes (bufAt buf) 64)).id u t → P t) : Answers (.partition buf) s P := by
  obtain ⟨box, free, hbox⟩ := bb_eq s (.mailbox 8)
  obtain ⟨code, hc, u, hmb, hdo, hp⟩ := h box free
  refine answers_event (i := .partition buf) (t := (u.partReply buf (partReq (s.hostBytes (bufAt buf) 64)).id).setCode code) rfl ?_
    (hp _ (partDone_setCode hc hmb))
  rw [hu, mboxFor_of_free hm, hq, mbox_eq ((congrArg (State.mbPartition · buf) hbox).trans hdo)]
  rfl

/-- A request that is not refused takes its effect. -/
theorem mbPartition_allowed {s u : State} {box : BlackBox} {free buf : Nat} (hb : s.partDenied (s.hostBytes (bufAt buf) 64) = false)
    (h : (s.noted box free).partDo (partReq (s.hostBytes (bufAt buf) 64)) = u) :
    (s.noted box free).mbPartition buf = (0, u.partReply buf (partReq (s.hostBytes (bufAt buf) 64)).id) := by
  have hb' : (s.noted box free).partDenied (s.hostBytes (bufAt buf) 64) = false := hb
  subst h
  exact if_neg (by rw [Bool.not_eq_true]; exact hb')

/-- The units of a partition are suspended. -/
theorem partQuiet_suspended {s : State} {q : Partition} {b : List Byte} (hq : s.partAt (partReq b).id = some q)
    (h : ∀ c ∈ s.core :: s.others, c.idx ∈ q.cores → c.slotFree = true ∧ bindV c.slot.stby.toNat = false) : s.partQuiet b = true := by
  have hall : (s.allCores.all fun c => !q.cores.contains c.idx || (c.slotFree && !bindV c.slot.stby.toNat)) = true := by
    refine List.all_eq_true.2 fun c hc => ?_
    by_cases hin : c.idx ∈ q.cores
    · obtain ⟨hf, hv⟩ := h c hc hin
      rw [hf, hv]
      exact Bool.or_true _
    · simp [hin]
  unfold State.partQuiet
  dsimp only
  rw [hq]
  dsimp only
  rw [hall, Bool.or_true]

section
variable {s : State} {buf : Nat} (hu : s.hearthUp = true) (hm : MailFree s 8 buf)
include hu hm

theorem partition_denied (hb : s.partDenied (s.hostBytes (bufAt buf) 64) = true) : Answers (.partition buf) s fun t => CoresStay s t ∧ MailedCode s 3 t ∧
    t.pkg.parts = s.pkg.parts ∧ (∀ a, a < keyHost (buf % 2 ^ 46 * 64) ∨ keyHost (buf % 2 ^ 46 * 64) + 8 ≤ a → t.mem.read a = s.mem.read a) ∧
    bytesAt t.mem (keyHost (buf % 2 ^ 46 * 64)) 8 = leBytes 8 (((s.partAt (partReq (s.hostBytes (bufAt buf) 64)).id).map (·.cores.length)).getD 0) := by
  refine answers_partition hu hm ?_ fun box free => ⟨3, by decide, s.noted box free, rfl, if_pos hb, fun t d => ?_⟩
  · unfold State.partQuiet
    dsimp only
    rw [hb]
    split <;> rfl
  · exact ⟨⟨d.core, d.others⟩, d.code, d.parts, d.out, d.count⟩

/-- The state of a request that creates a partition. -/
def State.withPart (s : State) (r : PartReq) : State :=
  s.pkgd fun p => { p with parts := p.parts ++ [⟨r.id, r.cores, r.rootCl, r.rootHs, r.quantum, r.ovf, none⟩] }

theorem partition_created (hb : s.partDenied (s.hostBytes (bufAt buf) 64) = false) (hn : s.partAt (partReq (s.hostBytes (bufAt buf) 64)).id = none)
    (hc : (partReq (s.hostBytes (bufAt buf) 64)).cores ≠ []) :
    let r := partReq (s.hostBytes (bufAt buf) 64)
    Answers (.partition buf) s fun t => CoresStay s t ∧ MailedCode s 0 t ∧
      (∀ a, a < keyHost (buf % 2 ^ 46 * 64) ∨ keyHost (buf % 2 ^ 46 * 64) + 8 ≤ a → t.mem.read a = s.mem.read a) ∧
      t.pkg.parts = s.pkg.parts ++ [⟨r.id, r.cores, r.rootCl, r.rootHs, r.quantum, r.ovf, none⟩] ∧
      bytesAt t.mem (keyHost (buf % 2 ^ 46 * 64)) 8 = leBytes 8 r.cores.length := by
  intro r
  have hdo (box : BlackBox) (free : Nat) : (s.noted box free).partDo r = (s.noted box free).withPart r := by
    have hnone : (s.noted box free).partAt r.id = none := hn
    unfold State.partDo
    rw [hnone]
    exact if_neg (by simpa using hc)
  have hfound (box : BlackBox) (free : Nat) : ((s.noted box free).withPart r).partAt r.id = some ⟨r.id, r.cores, r.rootCl, r.rootHs, r.quantum, r.ovf, none⟩ := by
    have hnone : (s.pkg.parts.find? fun p => p.id == r.id) = none := hn
    refine (List.find?_append (xs := s.pkg.parts)).trans ?_
    rw [hnone]
    simp
  refine answers_partition hu hm ?_ fun box free => ⟨0, by decide, (s.noted box free).withPart r, rfl, ?_, fun t d => ?_⟩
  · unfold State.partQuiet
    dsimp only
    rw [hn]
  · exact mbPartition_allowed hb (hdo box free)
  · refine ⟨⟨d.core, d.others⟩, d.code, d.out, d.parts, ?_⟩
    rw [d.count, hfound]
    rfl

/-- The state of a request that deletes a partition. -/
def State.withoutPart (s : State) (id : Nat) : State := s.pkgd fun p => { p with parts := p.parts.filter fun x => x.id != id }

theorem partition_deleted {q : Partition} (hb : s.partDenied (s.hostBytes (bufAt buf) 64) = false) (hq : s.partAt (partReq (s.hostBytes (bufAt buf) 64)).id = some q)
    (hs : ∀ c ∈ s.core :: s.others, c.idx ∈ q.cores → c.slotFree = true ∧ bindV c.slot.stby.toNat = false)
    (hc : (partReq (s.hostBytes (bufAt buf) 64)).cores = []) :
    let r := partReq (s.hostBytes (bufAt buf) 64)
    Answers (.partition buf) s fun t => CoresStay s t ∧ MailedCode s 0 t ∧
      (∀ a, a < keyHost (buf % 2 ^ 46 * 64) ∨ keyHost (buf % 2 ^ 46 * 64) + 8 ≤ a → t.mem.read a = s.mem.read a) ∧
      t.pkg.parts = s.pkg.parts.filter (fun x => x.id != r.id) ∧ bytesAt t.mem (keyHost (buf % 2 ^ 46 * 64)) 8 = leBytes 8 0 := by
  intro r
  have hdo (box : BlackBox) (free : Nat) : (s.noted box free).partDo r = (s.noted box free).withoutPart r.id := by
    have hsome : (s.noted box free).partAt r.id = some q := hq
    unfold State.partDo
    rw [hsome]
    exact if_pos (by rw [hc]; rfl)
  have hgone (box : BlackBox) (free : Nat) : ((s.noted box free).withoutPart r.id).partAt r.id = none :=
    List.find?_eq_none.2 fun x hx => by simpa using (List.mem_filter.1 hx).2
  refine answers_partition hu hm (partQuiet_suspended hq hs) fun box free => ⟨0, by decide, (s.noted box free).withoutPart r.id, rfl,
    mbPartition_allowed hb (hdo box free), fun t d => ?_⟩
  refine ⟨⟨d.core, d.others⟩, d.code, d.out, d.parts, ?_⟩
  rw [d.count, hgone]
  rfl

end

/-! ### A core leaves (R331) -/

/-- Of the package's record, what the moves of vaults change: the accesses of parked units, which stay held where they are. -/
structure State.Shifted (s t : State) : Prop where
  pkg : t.pkg = { s.pkg with parked := t.pkg.parked }
  held : t.pkg.parked.map (fun x => (x.held, x.loc)) = s.pkg.parked.map fun x => (x.held, x.loc)

theorem State.Shifted.trans {s t u : State} (h : s.Shifted t) (k : t.Shifted u) : s.Shifted u :=
  ⟨k.pkg.trans (by rw [h.pkg]), k.held.trans h.held⟩

theorem State.Shifted.of_pkg {s t : State} (h : t.pkg = s.pkg) : s.Shifted t := ⟨by rw [h], by rw [h]⟩

/-- A unit that is held nowhere is so after the moves. -/
theorem State.Shifted.not_held {s t : State} (h : s.Shifted t) {k : Nat} (hk : ∀ x ∈ s.pkg.parked, ¬ (x.held = true ∧ x.loc = k)) :
    ∀ x ∈ t.pkg.parked, ¬ (x.held = true ∧ x.loc = k) := by
  intro x hx hheld
  have hmem : (x.held, x.loc) ∈ s.pkg.parked.map fun x => (x.held, x.loc) := by
    rw [← h.held]
    exact List.mem_map_of_mem hx
  obtain ⟨y, hy, he⟩ := List.mem_map.1 hmem
  obtain ⟨hh, hl⟩ := Prod.mk.inj he
  exact hk y hy ⟨hh.trans hheld.1, hl.trans hheld.2⟩

theorem shifted_moveVaults (s : State) (moves : List (Nat × Nat)) : s.Shifted (s.moveVaults moves) := by
  refine ⟨rfl, ?_⟩
  unfold State.moveVaults State.mapKeys
  dsimp only
  rw [List.map_map]
  rfl

theorem shifted_retagParked (s : State) (part : Nat) (f : Nat → Nat) : s.Shifted (s.retagParked part f) := by
  refine ⟨rfl, ?_⟩
  unfold State.retagParked State.pkgd
  dsimp only
  rw [List.map_map]
  refine List.map_congr_left fun x _ => ?_
  rw [Function.comp_apply]
  split <;> rfl

theorem shifted_mapCores (s : State) (f : Core → Core) : s.Shifted (s.mapCores f) := .of_pkg rfl

theorem shifted_retag (s : State) (cores : List Nat) (f : Nat → Nat) : s.Shifted (s.retag cores f) := .of_pkg rfl

theorem shifted_renumber (s : State) (p : Partition) (cores : List Nat) (m : List (Nat × Nat)) : s.Shifted (s.renumber p cores m) := by
  unfold State.renumber
  dsimp only
  exact (((shifted_mapCores _ _).trans (shifted_moveVaults _ _)).trans (shifted_retag _ _ _)).trans (shifted_retagParked _ _ _)

theorem toCore_keeps {s t : State} {k : Nat} (h : s.toCore k = some t) : t.mem = s.mem ∧ t.pkg = s.pkg := by
  unfold State.toCore at h
  split at h
  · cases h
    exact ⟨rfl, rfl⟩
  · obtain ⟨c, -, rfl⟩ := Option.map_eq_some_iff.1 h
    exact ⟨rfl, rfl⟩

/-- The save area of a core that holds none is evicted. -/
theorem onCore_evict {s : State} {k : Nat} (h : ∀ x ∈ s.pkg.parked, ¬ (x.held = true ∧ x.loc = k)) :
    (s.onCore k State.evict).mem = s.mem ∧ (s.onCore k State.evict).pkg = s.pkg := by
  unfold State.onCore
  cases ht : s.toCore k with
  | none => exact ⟨rfl, rfl⟩
  | some t =>
    obtain ⟨hmem, hpkg⟩ := toCore_keeps ht
    have hid : t.evict = t := evict_none (by rw [hpkg, (toCore_slots ht).1]; exact h)
    dsimp only
    rw [hid]
    cases hb : t.toCore s.core.idx with
    | none => exact ⟨rfl, rfl⟩
    | some v =>
      obtain ⟨hmem', hpkg'⟩ := toCore_keeps hb
      exact ⟨hmem'.trans hmem, hpkg'.trans hpkg⟩

/-- The Porch entries of core r go to the first of the cores that remain. -/
def State.porchOver (s : State) (rest : List Nat) (r : Nat) : State :=
  match rest with
  | k :: _ => s.movePorch r k
  | [] => s

theorem porchOver_keeps (s : State) (rest : List Nat) (r : Nat) : (s.porchOver rest r).mem = s.mem ∧ (s.porchOver rest r).pkg = s.pkg := by
  cases rest <;> exact ⟨rfl, rfl⟩

/-- A core that leaves a partition and holds no save area. -/
theorem removeCore_spec {s : State} {id r : Nat} {p : Partition} (hp : s.partAt id = some p) (h : ∀ x ∈ s.pkg.parked, ¬ (x.held = true ∧ x.loc = r)) :
    let rest := p.cores.filter fun c => c != r
    let v := s.renumber p p.cores (p.cores.zip (rest ++ [ovfTag]))
    (s.removeCore id r).mem = v.mem ∧ ∃ l, (s.removeCore id r).pkg = { s.pkg with
      parked := l, parts := s.pkg.parts.map fun q => if q.id == p.id then { p with cores := rest, spilled := some (p.cores.length - 1) } else q } := by
  intro rest v
  have hv : s.Shifted v := shifted_renumber s p p.cores _
  obtain ⟨hmem, hpkg⟩ := onCore_evict (hv.not_held h)
  obtain ⟨hmem', hpkg'⟩ := porchOver_keeps (v.onCore r State.evict) rest r
  have hrem : s.removeCore id r = ((v.onCore r State.evict).porchOver rest r).setPart { p with cores := rest, spilled := some (p.cores.length - 1) } := by
    unfold State.removeCore
    rw [hp]
    rfl
  refine ⟨?_, v.pkg.parked, ?_⟩
  · rw [hrem]
    exact hmem'.trans hmem
  · rw [hrem]
    unfold State.setPart State.pkgd
    dsimp only
    rw [hpkg', hpkg, hv.pkg]

/-! ### A partition without its last core -/

/-- Cores before the last keep their vaults, and the last one's goes to the overflow block. -/
theorem moved_last {cores : List Nat} {last : Nat} (h : last ≠ ovfTag) :
    ((cores ++ [last]).zip (cores ++ [ovfTag])).filter (fun x => x.1 != x.2) = [(last, ovfTag)] := by
  have hself : (cores.zip cores).filter (fun x => x.1 != x.2) = [] := List.filter_eq_nil_iff.2 fun x hx => by
    obtain ⟨i, hi, rfl⟩ := List.getElem_of_mem hx
    simp
  rw [List.zip_append rfl, List.filter_append, hself]
  simpa using h

theorem filter_ne_last {cores : List Nat} {last : Nat} (h : last ∉ cores) : (cores ++ [last]).filter (fun c => c != last) = cores := by
  rw [List.filter_append, List.filter_eq_self.2 fun c hc => by simpa using fun he : c = last => h (he ▸ hc)]
  simp

theorem partAt_setPart {s : State} {p q : Partition} (h : s.partAt p.id = some q) : (s.setPart p).partAt p.id = some p := by
  have hkeep : ((fun x : Partition => x.id == p.id) ∘ fun x => if x.id == p.id then p else x) = fun x => x.id == p.id := by
    funext x
    rw [Function.comp_apply]
    split
    · next hx => rw [hx, beq_self_eq_true]
    · rfl
  have hq : (q.id == p.id) = true := by simpa using List.find?_some (p := fun x : Partition => x.id == p.id) h
  refine (List.find?_map (l := s.pkg.parts)).trans ?_
  rw [hkeep]
  exact (congrArg (Option.map _) h).trans (congrArg some (if_pos hq))

/-- No launch of the partition has to be parked or to wait again. -/
theorem refitAll_none {s : State} {id : Nat} (h : ∀ g ∈ s.pkg.graphs, ∀ j, s.jobAt g.job = some j → j.part ≠ id) : s.refitAll id = s := by
  have hnone : (s.pkg.graphs.filter fun g => (s.jobAt g.job).any fun j => j.part == id) = [] := List.filter_eq_nil_iff.2 fun g hg => by
    cases hj : s.jobAt g.job with
    | none => simp
    | some j => simpa using h g hg j hj
  unfold State.refitAll
  split
  · rfl
  · dsimp only
    rw [hnone]
    rfl

/-- The partition after its last core has left it. -/
def Partition.shrunk (q : Partition) (r : PartReq) : Partition := { q with cores := r.cores, quantum := r.quantum, ovf := r.ovf, spilled := some r.cores.length }

theorem renumber_mem (s : State) (p : Partition) (cores : List Nat) (m : List (Nat × Nat)) : (s.renumber p cores m).mem =
    ((m.filter fun x => x.1 != x.2).map fun x => (rangeKey p.ovf x.1, rangeKey p.ovf x.2)).foldl (fun (n : Memory) x => n.copyIn s.mem x.1 0x1800000 x.2) s.mem := rfl

section
variable {s : State} {r : PartReq} {q : Partition} {last : Nat} (hq : s.partAt r.id = some q) (hcores : q.cores = r.cores ++ [last])
  (hnodup : q.cores.Nodup) (hne : r.cores ≠ []) (hlast : last ≠ ovfTag) (hcl : q.rootCl = r.rootCl) (hhs : q.rootHs = r.rootHs)
  (hheld : ∀ x ∈ s.pkg.parked, ¬ (x.held = true ∧ x.loc = last)) (hgraphs : ∀ g ∈ s.pkg.graphs, ∀ j, s.jobAt g.job = some j → j.part ≠ r.id)
include hq hcores hnodup hne hlast hcl hhs hheld hgraphs

theorem partDo_shrink : (s.partDo r).mem = s.mem.copyIn s.mem (keyVault last 0) 0x1800000 (keyCl r.ovf) ∧
    (s.partDo r).pkg.mboxStat = s.pkg.mboxStat ∧ (s.partDo r).pkg.parts = s.pkg.parts.map (fun x => if x.id = r.id then q.shrunk r else x) ∧
    (s.partDo r).partAt r.id = some (q.shrunk r) := by
  have hid : q.id = r.id := by simpa using List.find?_some hq
  have hnot : last ∉ r.cores := by
    rw [hcores] at hnodup
    exact fun h => (List.nodup_append.1 hnodup).2.2 last h last (by simp) rfl
  let q1 : Partition := { q with rootCl := r.rootCl, rootHs := r.rootHs, quantum := r.quantum, ovf := r.ovf }
  have hq1 : (s.setPart q1).partAt r.id = some q1 := by
    rw [← hid]
    exact partAt_setPart (p := q1) (hid ▸ hq)
  have hgone : (q.cores.filter fun c => !r.cores.contains c).reverse = [last] := by
    rw [hcores, List.filter_append, List.filter_eq_nil_iff.2 fun c hc => by simpa using hc]
    simp [hnot]
  have hnew : (r.cores.filter fun c => !q.cores.contains c) = [] := List.filter_eq_nil_iff.2 fun c hc => by simp [hcores, hc]
  have hrest : (q1.cores.filter fun c => c != last) = r.cores := by
    show (q.cores.filter fun c => c != last) = _
    rw [hcores]
    exact filter_ne_last hnot
  obtain ⟨hmem, l, hpkg⟩ := removeCore_spec hq1 (r := last) hheld
  rw [hrest] at hmem hpkg
  have hgraphs' : ((s.setPart q1).removeCore r.id last).refitAll r.id = (s.setPart q1).removeCore r.id last := by
    refine refitAll_none fun g hg j hj => ?_
    unfold State.jobAt at hj
    rw [hpkg] at hg hj
    exact hgraphs g hg j hj
  have hdo : s.partDo r = (s.setPart q1).removeCore r.id last := by
    unfold State.partDo
    rw [hq]
    dsimp only
    rw [if_neg (by simpa using hne), if_pos (by simp [hcl, hhs]), hgone, hnew]
    exact hgraphs'
  have hshrunk : ({ q1 with cores := r.cores, spilled := some (q1.cores.length - 1) } : Partition) = q.shrunk r := by
    show Partition.mk q.id r.cores r.rootCl r.rootHs r.quantum r.ovf (some (q.cores.length - 1)) = Partition.mk q.id r.cores q.rootCl q.rootHs r.quantum r.ovf _
    rw [hcl, hhs, hcores, List.length_append]
    rfl
  have hparts : ((s.setPart q1).pkg.parts.map fun x => if x.id == q1.id then { q1 with cores := r.cores, spilled := some (q1.cores.length - 1) } else x) =
      (s.setPart (q.shrunk r)).pkg.parts := by
    rw [hshrunk]
    refine (List.map_map (l := s.pkg.parts)).trans (List.map_congr_left fun x _ => ?_)
    show (if (if x.id == q.id then q1 else x).id == q.id then _ else _) = if x.id == q.id then _ else _
    by_cases hx : (x.id == q.id) = true
    · rw [if_pos hx, if_pos hx, if_pos (beq_self_eq_true q.id)]
    · rw [if_neg hx, if_neg hx]
  have hovf : (((s.setPart q1).renumber q1 q1.cores (q1.cores.zip (r.cores ++ [ovfTag])))).mem =
      s.mem.copyIn s.mem (keyVault last 0) 0x1800000 (keyCl r.ovf) := by
    rw [renumber_mem, show q1.cores = r.cores ++ [last] from hcores, moved_last hlast]
    show s.mem.copyIn s.mem (rangeKey r.ovf last) _ (rangeKey r.ovf ovfTag) = _
    unfold rangeKey
    rw [if_neg hlast, if_pos rfl]
  rw [hdo]
  refine ⟨hmem.trans hovf, ?_, ?_, ?_⟩
  · rw [hpkg]
    rfl
  · rw [hpkg]
    refine hparts.trans (List.map_congr_left fun x _ => ?_)
    show (if x.id == q.id then _ else _) = _
    rw [hid]
    simp only [beq_iff_eq]
  · unfold State.partAt
    rw [hpkg]
    dsimp only
    rw [hparts, ← hid]
    exact partAt_setPart (p := q.shrunk r) (hid ▸ hq)

end

/-- The overflow block of a request that is not refused lies in the Cellar. -/
theorem ovf_le_of_allowed {s : State} {b : List Byte} (h : s.partDenied b = false) : (partReq b).ovf + 0x1800000 ≤ 2 ^ 52 := by
  unfold State.partDenied partReqBad at h
  simp only [Bool.or_eq_false_iff, decide_eq_false_iff_not] at h
  have hc : Config.cellar < 2 ^ 52 := by decide
  omega

/-- O53's clause of a partition that loses its last core. -/
theorem partition_shrunk {s : State} {buf : Nat} {q : Partition} {last : Nat} (hu : s.hearthUp = true) (hm : MailFree s 8 buf)
    (hb : s.partDenied (s.hostBytes (bufAt buf) 64) = false) (hq : s.partAt (partReq (s.hostBytes (bufAt buf) 64)).id = some q)
    (hs : ∀ c ∈ s.core :: s.others, c.idx ∈ q.cores → c.slotFree = true ∧ bindV c.slot.stby.toNat = false) :
    let r := partReq (s.hostBytes (bufAt buf) 64)
    q.cores = r.cores ++ [last] → q.cores.Nodup → r.cores ≠ [] → (∀ c ∈ q.cores, c < 144) → q.rootCl = r.rootCl → q.rootHs = r.rootHs →
    (∀ x ∈ s.pkg.parked, ¬ (x.held = true ∧ x.loc = last)) → (∀ g ∈ s.pkg.graphs, ∀ j, s.jobAt g.job = some j → j.part ≠ r.id) →
    Answers (.partition buf) s fun t => MailedCode s 0 t ∧ bytesAt t.mem (keyHost (buf % 2 ^ 46 * 64)) 8 = leBytes 8 r.cores.length ∧
      t.pkg.parts = s.pkg.parts.map (fun x => if x.id = r.id then q.shrunk r else x) ∧
      (∀ o < 0x1800000, t.mem.read (keyCl r.ovf + o) = s.mem.read (keyVault last o)) ∧
      (∀ c ∈ r.cores, ∀ o < 0x1800000, t.mem.read (keyVault c o) = s.mem.read (keyVault c o)) := by
  intro r hcores hnodup hne hlt hcl hhs hheld hgraphs
  have hlast : last ≠ ovfTag := Nat.ne_of_lt (hlt last (by rw [hcores]; simp))
  have hovf : r.ovf + 0x1800000 ≤ 2 ^ 52 := ovf_le_of_allowed hb
  refine answers_partition hu hm (partQuiet_suspended hq hs) fun box free => ?_
  obtain ⟨hmem, hmb, hparts, hfound⟩ := partDo_shrink (s := s.noted box free) hq hcores hnodup hne hlast hcl hhs hheld hgraphs
  have hread (k : Nat) : ((s.noted box free).partDo r).mem.read k =
      if keyCl r.ovf ≤ k ∧ k < keyCl r.ovf + 0x1800000 then s.mem.read (k - keyCl r.ovf + keyVault last 0) else s.mem.read k := by
    rw [hmem]
    exact Memory.read_copyIn ..
  refine ⟨0, by decide, (s.noted box free).partDo r, hmb, mbPartition_allowed hb rfl, fun t d => ⟨d.code, ?_, d.parts.trans hparts, fun o ho => ?_, fun c hc o ho => ?_⟩⟩
  · rw [d.count, hfound]
    rfl
  · rw [d.out _ (.inl (by unfold keyCl keyHost; omega)), hread, if_pos ⟨Nat.le_add_right _ _, by omega⟩, Nat.add_sub_cancel_left]
    congr 1
    unfold keyVault
    omega
  · have hc' := hlt c (by rw [hcores]; exact List.mem_append_left _ hc)
    rw [d.out _ (.inl (by unfold keyVault keyHost; omega)), hread, if_neg (by unfold keyCl keyVault; omega)]

end Sys2Proof.Machine
end

section
/-! PROOFS. LOAD: a refused load and its report, and what a load that no check refuses leaves (O53). -/

namespace Sys2Proof.Machine

/-! ### The reply (R343) -/

/-- A LOAD that has made of s the state u writes its report and is done. -/
structure LoadDone (s : State) (buf : Nat) (b : List Byte) (u t : State) : Prop where
  code : MailedCode s 0 t
  core : t.core = u.core
  others : t.others = u.others
  pkg : ∃ box, t.pkg = { u.pkg with bbox := box, mboxStat := t.pkg.mboxStat, mbox := none }
  mem : t.mem = u.mem.write (keyHost (buf % 2 ^ 46 * 64)) b

theorem LoadDone.report {s u t : State} {buf : Nat} {b : List Byte} (h : LoadDone s buf b u t) : bytesAt t.mem (keyHost (buf % 2 ^ 46 * 64)) b.length = b := by
  rw [h.mem]
  refine (bytesAt_write (i := 0) (by simp)).trans ?_
  rw [List.drop_zero, List.take_length]

theorem loadDone_mbox {s u : State} {buf : Nat} {b : List Byte} (h : u.pkg.mboxStat = s.pkg.mboxStat) :
    LoadDone s buf b u (u.mbox 1 fun s => (mbOk, s.hostPut (bufAt buf) b)) := by
  obtain ⟨box, free, hbox⟩ := bb_eq u (.mailbox 1)
  have hput := hostPut_buf (u.noted box free) buf b
  have hact : (fun s : State => (mbOk, s.hostPut (bufAt buf) b)) (u.bb (.mailbox 1)) = (0, { u.noted box free with mem := u.mem.write (keyHost (buf % 2 ^ 46 * 64)) b }) := by
    rw [hbox]
    exact congrArg (mbOk, ·) hput
  rw [mbox_eq hact]
  exact ⟨mailedCode_setCode (by decide) h, rfl, rfl, ⟨box, rfl⟩, rfl⟩

/-- A LOAD whose command has its buffer. -/
theorem answers_load {s t : State} {r : LoadReq} {P : State → Prop} (hu : s.hearthUp = true) (hm : MailFree s 1 r.buf) (h : s.load r = some t) (hp : P t) :
    Answers (.load r) s P := by
  refine answers_event (i := .load r) rfl ?_ hp
  rw [hu, mboxFor_of_free hm]
  exact h

/-! ### Refused loads -/

section
variable {s : State} {r : LoadReq} (hu : s.hearthUp = true) (hm : MailFree s 1 r.buf)
include hu hm

theorem load_noJob (h : s.jobAt r.job = none) : Answers (.load r) s fun t => MailedCode s 4 t ∧ CoresStay s t ∧ t.mem = s.mem ∧ t.pkg.loaded = s.pkg.loaded := by
  obtain ⟨box, free, hbox⟩ := bb_eq s (.mailbox 1)
  refine answers_load hu hm (t := (s.noted box free).setCode 4) ?_ ⟨mailedCode_setCode (by decide) rfl, ⟨rfl, rfl⟩, rfl, rfl⟩
  unfold State.load
  rw [h]
  exact congrArg some (mbox_eq (congrArg (mbNotFound, ·) hbox))

/-- A refused load changes nothing but its buffer and the cache of a revoked object. -/
theorem load_refused {j : Job} {status sect detail : Nat} {skip : List Nat} (hj : s.jobAt r.job = some j)
    (h : s.checkLoad j (s.objectAt r.obj) r = .error (.report status sect detail skip)) : Answers (.load r) s fun t =>
      MailedCode s 0 t ∧ CoresStay s t ∧ bytesAt t.mem (keyHost (r.buf % 2 ^ 46 * 64)) (report status sect detail skip).length = report status sect detail skip ∧
      t.pkg.loaded = s.pkg.loaded ∧ t.pkg.cache = if status = 7 then
        s.pkg.cache.filter (fun e => (s.mem.bytes (keyCl e.addr) e.size).take 32 != objHash (s.objectAt r.obj)) else s.pkg.cache := by
  have hload : s.load r = some ((if status = ldSvnRevoked then s.dropHash (objHash (s.objectAt r.obj)) else s).mbox 1 fun s =>
      (mbOk, s.hostPut (bufAt r.buf) (report status sect detail skip))) := by
    unfold State.load
    rw [hj]
    dsimp only
    rw [h]
  by_cases h7 : status = 7
  · rw [if_pos (show status = ldSvnRevoked from h7)] at hload
    have hd := loadDone_mbox (s := s) (u := s.dropHash (objHash (s.objectAt r.obj))) (buf := r.buf) (b := report status sect detail skip) rfl
    obtain ⟨box, hpkg⟩ := hd.pkg
    refine answers_load hu hm hload ⟨hd.code, ⟨hd.core, hd.others⟩, hd.report, by rw [hpkg]; rfl, ?_⟩
    rw [hpkg, if_pos h7]
    rfl
  · rw [if_neg (show ¬ status = ldSvnRevoked from h7)] at hload
    have hd := loadDone_mbox (s := s) (u := s) (buf := r.buf) (b := report status sect detail skip) rfl
    obtain ⟨box, hpkg⟩ := hd.pkg
    refine answers_load hu hm hload ⟨hd.code, ⟨hd.core, hd.others⟩, hd.report, by rw [hpkg], ?_⟩
    rw [hpkg, if_neg h7]

end

/-! ### The control store's image (R115) -/

theorem leNat_lt (l : List Byte) : leNat l < 2 ^ (8 * l.length) := by
  induction l with
  | nil => exact Nat.one_pos
  | cons b l ih =>
    have hb := b.isLt
    rw [leNat, List.length_cons, Nat.mul_succ, Nat.pow_add]
    omega

theorem dle8_lt (b : List Byte) (k : Nat) : dle b k 8 < 2 ^ 64 :=
  lt_of_lt_of_le (leNat_lt _) (Nat.pow_le_pow_right (by decide) (by have := List.length_take_le 8 (b.drop k); omega))

/-- The words of an image read back. -/
theorem look_cstoreWords (b : List Byte) {k : Nat} (hk : k < 8192) : look 0 (cstoreWords b) k = BitVec.ofNat 64 (dle b (8 * k) 8) := by
  have hzero (k : Nat) : dle b (8 * k) 8 = 0 ↔ BitVec.ofNat 64 (dle b (8 * k) 8) = 0 := by
    rw [← BitVec.toNat_inj, BitVec.toNat_ofNat, Nat.mod_eq_of_lt (dle8_lt b _)]
    rfl
  have hwords : cstoreWords b = (List.range 8192).filterMap fun k =>
      if BitVec.ofNat 64 (dle b (8 * k) 8) = 0 then none else some (k, BitVec.ofNat 64 (dle b (8 * k) 8)) := by
    unfold cstoreWords
    exact List.filterMap_congr fun k _ => if_congr (hzero k) rfl rfl
  rw [hwords]
  exact look_filterMap_range 0 (fun k => BitVec.ofNat 64 (dle b (8 * k) 8)) hk

/-! ### The stages of a load (R343) -/

/-- The sections that are placed, by index. -/
def placedOf (o : List Byte) (r : LoadReq) (im : Images) : List (Nat × Placed) :=
  (List.range (sectCount o)).filterMap fun i => (placedAt o r im i).map fun x => (i, x)

/-- The planes of an object, with the words of the job (R353). -/
def planesOf (j : Job) (o : List Byte) (im : Images) : List (Nat × List Word) :=
  (List.range (sectCount o)).filterMap fun i => if (sectAt o i).ty = 8 then some (i, jobPlane j (symPlane o i (planeWords (im.getD i [])))) else none

/-- The sections stand in the partition's space. -/
def State.sectsPut (s : State) (j : Job) (o : List Byte) (r : LoadReq) (im : Images) : State :=
  (placedOf o r im).foldl (fun (s : State) x => (s.partPut j.part x.2.addr (im.getD x.1 [])).getD s) s

/-- The core's control store after a load of the object for partition cores. -/
def loadedStore (o : List Byte) (im : Images) (cores : List Nat) (c : Core) : Core :=
  match (List.range (sectCount o)).find? fun i => (sectAt o i).ty = 6 with
  | some i => if cores.contains c.idx then { c with fe := { c.fe with cstore := cstoreWords (im.getD i []) } } else c
  | none => c

/-- The package's record of the load. -/
def Package.loadedWith (p : Package) (j : Job) (o : List Byte) (r : LoadReq) (im : Images) : Package :=
  Package.loftLaunches { p with loaded := p.loaded ++ [⟨j.ctr, j.part, r, o, placedOf o r im, planesOf j o im, unitImgs o r im⟩] } j.ctr

/-- The state of a load before the translation cache. -/
def State.loadStored (s : State) (j : Job) (o : List Byte) (r : LoadReq) (im : Images) : State :=
  ((s.sectsPut j o r im).mapCores (loadedStore o im ((((s.sectsPut j o r im).partAt j.part).map (·.cores)).getD []))).pkgd fun p => p.loadedWith j o r im

theorem loadDo_eq (s : State) (j : Job) (o : List Byte) (r : LoadReq) (im : Images) : s.loadDo j o r im =
    if hasIxius o then (s.loadStored j o r im).cacheLoad j.part o r.consts (nativeOf o im false) r.cacheAt else some (s.loadStored j o r im) := by
  have hstore : (match (List.range (sectCount o)).find? fun i => (sectAt o i).ty = 6 with
      | some i =>
        let cores := (((s.sectsPut j o r im).partAt j.part).map (·.cores)).getD []
        (s.sectsPut j o r im).mapCores fun c => if cores.contains c.idx then { c with fe := { c.fe with cstore := cstoreWords (im.getD i []) } } else c
      | none => s.sectsPut j o r im) =
      (s.sectsPut j o r im).mapCores (loadedStore o im ((((s.sectsPut j o r im).partAt j.part).map (·.cores)).getD [])) := by
    unfold loadedStore
    split
    · rfl
    · unfold State.mapCores
      rw [List.map_id']
  unfold State.loadStored
  rw [← hstore]
  rfl

/-! ### What the stages keep -/

theorem parted_sectsPut (s : State) (j : Job) (o : List Byte) (r : LoadReq) (im : Images) : s.Parted (s.sectsPut j o r im) := by
  unfold State.sectsPut
  generalize placedOf o r im = l
  induction l generalizing s with
  | nil => exact .refl s
  | cons x l ih =>
    rw [List.foldl_cons]
    refine State.Parted.trans ?_ (ih _)
    cases h : s.partPut j.part x.2.addr (im.getD x.1 []) with
    | none => exact .refl s
    | some t => exact parted_partPut h

theorem State.Parted.faces {s t : State} (h : s.Parted t) : (t.core :: t.others).map Core.face = (s.core :: s.others).map Core.face := by
  rw [List.map_cons, List.map_cons, h.others, h.core]
  rfl

/-- The cache entry of a load stands at its cell and above. -/
structure State.Cached (s : State) (cell : Nat) (t : State) : Prop where
  faces : (t.core :: t.others).map Core.face = (s.core :: s.others).map Core.face
  loaded : t.pkg.loaded = s.pkg.loaded
  stat : t.pkg.mboxStat = s.pkg.mboxStat
  mem : ∀ k < keyCl cell, t.mem.read k = s.mem.read k

theorem cached_cacheLoad {s t : State} {part cell : Nat} {o code : List Byte} {consts : List Word} (h : s.cacheLoad part o consts code cell = some t) :
    s.Cached cell t := by
  unfold State.cacheLoad at h
  dsimp only at h
  generalize s.pkg.cache.filter _ = kept at h
  generalize entryBytes _ _ _ _ = b at h
  split at h
  · obtain rfl := Option.some.inj h
    exact ⟨rfl, rfl, rfl, fun _ _ => rfl⟩
  · split at h
    · obtain rfl := Option.some.inj h
      refine ⟨(parted_landKeys (s.pkgd fun p => { p with cache := kept }) _ b).faces, rfl, rfl, fun k hk => read_putKeys_of_not _ _ _ k fun hin => ?_⟩
      obtain ⟨i, -, rfl⟩ := List.mem_map.1 hin
      unfold keyCl at hk
      omega
    · cases h

/-- The record of a load. -/
def loadRecord (j : Job) (o : List Byte) (r : LoadReq) (im : Images) : LoadedObj := ⟨j.ctr, j.part, r, o, placedOf o r im, planesOf j o im, unitImgs o r im⟩

/-- What a load that has taken its effect leaves: its record, the control stores, and the bytes below its cache entry. -/
structure State.LoadedTo (s : State) (j : Job) (o : List Byte) (r : LoadReq) (im : Images) (t : State) : Prop where
  loaded : t.pkg.loaded = s.pkg.loaded ++ [loadRecord j o r im]
  stat : t.pkg.mboxStat = s.pkg.mboxStat
  faces : (t.core :: t.others).map Core.face =
    ((s.sectsPut j o r im).core :: (s.sectsPut j o r im).others).map (Core.face ∘ loadedStore o im (((s.partAt j.part).map (·.cores)).getD []))
  mem : ∀ k, (hasIxius o = true → k < keyCl r.cacheAt) → t.mem.read k = (s.sectsPut j o r im).mem.read k

theorem loadedTo_loadStored (s : State) (j : Job) (o : List Byte) (r : LoadReq) (im : Images) : s.LoadedTo j o r im (s.loadStored j o r im) := by
  have hp := parted_sectsPut s j o r im
  have hpart : (s.sectsPut j o r im).partAt j.part = s.partAt j.part := by
    unfold State.partAt
    rw [hp.pkg]
  refine ⟨?_, ?_, ?_, fun _ _ => rfl⟩
  · show (s.sectsPut j o r im).pkg.loaded ++ _ = _
    rw [hp.pkg]
    rfl
  · show (s.sectsPut j o r im).pkg.mboxStat = _
    rw [hp.pkg]
  · rw [← List.map_map, ← hpart]
    rfl

theorem loadedTo_loadDo {s t : State} {j : Job} {o : List Byte} {r : LoadReq} {im : Images} (h : s.loadDo j o r im = some t) : s.LoadedTo j o r im t := by
  rw [loadDo_eq] at h
  have hs := loadedTo_loadStored s j o r im
  cases hx : hasIxius o with
  | false =>
    rw [hx, if_neg Bool.false_ne_true] at h
    obtain rfl := Option.some.inj h
    exact hs
  | true =>
    rw [hx, if_pos rfl] at h
    have hc := cached_cacheLoad h
    exact ⟨hc.loaded.trans hs.loaded, hc.stat.trans hs.stat, hc.faces.trans hs.faces, fun k hk => (hc.mem k (hk hx)).trans (hs.mem k hk)⟩

/-! ### The record of a load -/

/-- A section that takes an address has been given one. -/
def OwnsPlace (o : List Byte) (r : LoadReq) (i : Nat) : Prop := (placedTy (sectAt o i).ty = true ∨ (sectAt o i).ty = 1) ∧ (addrOf r i).isSome = true

theorem placedAt_of_owns {o : List Byte} {r : LoadReq} {im : Images} {i a : Nat} (h : OwnsPlace o r i) (ha : addrOf r i = some a) :
    placedAt o r im i = some ⟨(sectAt o i).ty, a, (im.getD i []).length⟩ := by
  unfold placedAt
  rw [if_pos (by simpa using h.1), ha]
  rfl

theorem placedAt_of_not {o : List Byte} {r : LoadReq} {im : Images} {i : Nat} (h : ¬ OwnsPlace o r i) : placedAt o r im i = none := by
  unfold placedAt
  split
  · next ht =>
    cases ha : addrOf r i with
    | none => rfl
    | some a => exact absurd ⟨by simpa using ht, by rw [ha]; rfl⟩ h
  · rfl

theorem mem_placedOf {o : List Byte} {r : LoadReq} {im : Images} {i : Nat} {p : Placed} : (i, p) ∈ placedOf o r im ↔
    i < sectCount o ∧ OwnsPlace o r i ∧ addrOf r i = some p.addr ∧ p.ty = (sectAt o i).ty ∧ p.size = (im.getD i []).length := by
  have hmem : (i, p) ∈ placedOf o r im ↔ i < sectCount o ∧ placedAt o r im i = some p := by
    refine ⟨fun h => ?_, fun ⟨hi, hp⟩ => List.mem_filterMap.2 ⟨i, List.mem_range.2 hi, by rw [hp]; rfl⟩⟩
    obtain ⟨a, ha, hplaced⟩ := List.mem_filterMap.1 h
    obtain ⟨x, hx, he⟩ := Option.map_eq_some_iff.1 hplaced
    obtain ⟨rfl, rfl⟩ := Prod.mk.inj he
    exact ⟨List.mem_range.1 ha, hx⟩
  rw [hmem]
  refine and_congr_right fun _ => ⟨fun h => ?_, fun ⟨hown, ha, ht, hs⟩ => ?_⟩
  · by_cases hown : OwnsPlace o r i
    · obtain ⟨a, ha⟩ := Option.isSome_iff_exists.1 hown.2
      rw [placedAt_of_owns hown ha] at h
      obtain rfl := Option.some.inj h
      exact ⟨hown, ha, rfl, rfl⟩
    · rw [placedAt_of_not hown] at h
      cases h
  · rw [placedAt_of_owns hown ha, ← ht, ← hs]

theorem mem_planesOf {j : Job} {o : List Byte} {im : Images} {i : Nat} {ws : List Word} : (i, ws) ∈ planesOf j o im ↔
    i < sectCount o ∧ (sectAt o i).ty = 8 ∧ ws = jobPlane j (symPlane o i (planeWords (im.getD i []))) := by
  unfold planesOf
  simp only [List.mem_filterMap, List.mem_range]
  constructor
  · rintro ⟨a, ha, h⟩
    split at h
    · next ht =>
      cases h
      exact ⟨ha, ht, rfl⟩
    · cases h
  · rintro ⟨hi, ht, rfl⟩
    exact ⟨i, hi, if_pos ht⟩

theorem unitImgs_length (o : List Byte) (r : LoadReq) (im : Images) : (unitImgs o r im).length = (unitEntries o).length := by
  unfold unitImgs
  simp

theorem unitImgs_get {o : List Byte} {r : LoadReq} {im : Images} {n : Nat} {z : Nat × Nat} (hz : (unitEntries o)[n]? = some z) :
    (unitImgs o r im)[n]? = some (unitImg o r im n z) := by
  have hn : n < (unitEntries o).length := (List.getElem?_eq_some_iff.1 hz).1
  have hr : (List.range (unitEntries o).length)[n]? = some n := by rw [List.getElem?_eq_getElem (by simpa using hn), List.getElem_range]
  unfold unitImgs
  rw [List.getElem?_map, (List.getElem?_zip_eq_some (z := (z, n))).2 ⟨hz, hr⟩]
  rfl

/-! ### Bytes of the section that is placed alone -/

/-- One index of a range is kept. -/
theorem filterMap_range_single {α : Type} {f : Nat → Option α} {n i : Nat} {y : α} (hi : i < n) (hy : f i = some y) (h : ∀ k < n, k ≠ i → f k = none) :
    (List.range n).filterMap f = [y] := by
  induction n with
  | zero => omega
  | succ n ih =>
    rw [List.range_succ, List.filterMap_append]
    by_cases hn : i = n
    · subst hn
      rw [List.filterMap_eq_nil_iff.2 fun k hk => h k (by have := List.mem_range.1 hk; omega) (Nat.ne_of_lt (List.mem_range.1 hk))]
      simp [hy]
    · rw [ih (by omega) fun k hk => h k (by omega)]
      simp [h n (by omega) (Ne.symm hn)]

theorem dieKeys_length {die : Nat} {p : Partition} {spc : Space} {w : Bool} {as ks : List Nat} {s t : State}
    (h : State.dieKeys die p spc w as s = (.ok ks, t)) : ks.length = as.length := by
  induction as generalizing s t ks with
  | nil => cases h; rfl
  | cons a as ih =>
    unfold State.dieKeys at h
    split at h
    · split at h
      · next hr =>
        cases h
        rw [List.length_cons, List.length_cons, ih hr]
      · next hne => exact absurd h (hne _ _)
    · cases h

theorem partKeys_length {s t : State} {part a n : Nat} {w : Bool} {ks : List Nat} (h : s.partKeys part a n w = some (ks, t)) : ks.length = n := by
  unfold State.partKeys at h
  split at h
  · cases h
  · split at h
    · next hd =>
      cases h
      rw [dieKeys_length hd]
      unfold addrs
      simp
    · cases h

/-- The bytes of the only section that is placed stand at its keys. -/
theorem sectsPut_single {s u : State} {j : Job} {o : List Byte} {r : LoadReq} {im : Images} {i a : Nat} {ks : List Nat} (hi : i < sectCount o)
    (hown : OwnsPlace o r i) (hone : ∀ k < sectCount o, OwnsPlace o r k → k = i) (ha : addrOf r i = some a)
    (hk : s.partKeys j.part a (im.getD i []).length true = some (ks, u)) (hd : ks.Nodup) : ks.map (s.sectsPut j o r im).mem.read = im.getD i [] := by
  have hplaced : placedOf o r im = [(i, ⟨(sectAt o i).ty, a, (im.getD i []).length⟩)] :=
    filterMap_range_single hi (by rw [placedAt_of_owns hown ha]; rfl) fun k hk hne => by rw [placedAt_of_not fun h => hne (hone k hk h)]; rfl
  have hput : s.sectsPut j o r im = u.landKeys ks (im.getD i []) := by
    unfold State.sectsPut State.partPut
    rw [hplaced, List.foldl_cons, hk]
    rfl
  have hlen := partKeys_length hk
  rw [hput]
  refine List.ext_getElem (by rw [List.length_map, hlen]) fun n hn hn' => ?_
  rw [List.getElem_map]
  exact read_putKeys_of_mem u.mem ks _ hd n (by simpa using hn) hn'

/-! ### Control stores (R115) -/

/-- What a load makes of a core's front end: the control store of a core of the partition, where the object has an image of one. -/
structure Stored (o : List Byte) (im : Images) (cores : List Nat) (c d : Core) : Prop where
  image : (∃ i < sectCount o, (sectAt o i).ty = 6) → c.idx ∈ cores → ∃ i < sectCount o, (sectAt o i).ty = 6 ∧
    ∀ k < 8192, look 0 d.fe.cstore k = BitVec.ofNat 64 (dle (im.getD i []) (8 * k) 8)
  kept : (∀ i < sectCount o, (sectAt o i).ty ≠ 6) ∨ c.idx ∉ cores → d.fe = c.fe
  regs : d.regs = c.regs

theorem stored_loadedStore (o : List Byte) (im : Images) (cores : List Nat) (c : Core) : Stored o im cores c (loadedStore o im cores c) := by
  unfold loadedStore
  cases hf : (List.range (sectCount o)).find? fun i => decide ((sectAt o i).ty = 6) with
  | none =>
    have hno (i : Nat) (hi : i < sectCount o) : (sectAt o i).ty ≠ 6 := by simpa using List.find?_eq_none.1 hf i (List.mem_range.2 hi)
    exact ⟨fun ⟨i, hi, ht⟩ => absurd ht (hno i hi), fun _ => rfl, rfl⟩
  | some i =>
    have hi : i < sectCount o := List.mem_range.1 (List.mem_of_find?_eq_some hf)
    have ht : (sectAt o i).ty = 6 := by simpa using List.find?_some hf
    have himage (k : Nat) (hk : k < 8192) := look_cstoreWords (im.getD i []) hk
    dsimp only
    by_cases hc : c.idx ∈ cores
    · rw [if_pos (by simpa using hc)]
      refine ⟨fun _ _ => ⟨i, hi, ht, fun k hk => by rw [← himage k hk]⟩, fun h => ?_, rfl⟩
      exact h.elim (fun h => absurd ht (h i hi)) fun h => absurd hc h
    · rw [if_neg (by simpa using hc)]
      exact ⟨fun _ h => absurd h hc, fun _ => rfl, rfl⟩

/-- The same of cores that show the same. -/
theorem Stored.of_face {o : List Byte} {im : Images} {cores : List Nat} {c c' d d' : Core} (h : Stored o im cores c' d') (hc : c'.face = c.face)
    (hd : d.face = d'.face) : Stored o im cores c d := by
  obtain ⟨hidx, hfe, hregs⟩ : c'.idx = c.idx ∧ c'.fe = c.fe ∧ c'.regs = c.regs := by simpa [Core.face] using hc
  obtain ⟨-, hfe', hregs'⟩ : d.idx = d'.idx ∧ d.fe = d'.fe ∧ d.regs = d'.regs := by simpa [Core.face] using hd
  obtain ⟨himage, hkept, hr⟩ := h
  rw [hidx] at himage hkept
  exact ⟨by rw [hfe']; exact himage, fun h => hfe'.trans ((hkept h).trans hfe), hregs'.trans (hr.trans hregs)⟩

theorem State.LoadedTo.stored {s t : State} {j : Job} {o : List Byte} {r : LoadReq} {im : Images} (h : s.LoadedTo j o r im t) {n : Nat} {c d : Core}
    (hc : (s.core :: s.others)[n]? = some c) (hd : (t.core :: t.others)[n]? = some d) : Stored o im (((s.partAt j.part).map (·.cores)).getD []) c d := by
  have hface := congrArg (·[n]?) h.faces
  have hface' := congrArg (·[n]?) (parted_sectsPut s j o r im).faces
  simp only [List.getElem?_map, hc, hd, Option.map_some] at hface hface'
  obtain ⟨c', hc', hcc⟩ := Option.map_eq_some_iff.1 hface'
  rw [hc'] at hface
  exact (stored_loadedStore o im _ c').of_face hcc (Option.some.inj hface)

/-! ### A load that no check refuses -/

theorem load_accepted {s u : State} {r : LoadReq} {j : Job} {im : Images} {skip : List Nat} {P : State → Prop} (hu : s.hearthUp = true) (hm : MailFree s 1 r.buf)
    (hj : s.jobAt r.job = some j) (hc : s.checkLoad j (s.objectAt r.obj) r = .ok (im, skip)) (hf : s.storeFree j (s.objectAt r.obj) = true)
    (hd : s.loadDo j (s.objectAt r.obj) r im = some u) (hp : ∀ t, LoadDone s r.buf (report 0 0xFFFF 0 skip) u t → P t) : Answers (.load r) s P := by
  have hload : s.load r = some (u.mbox 1 fun s => (mbOk, s.hostPut (bufAt r.buf) (report 0 0xFFFF 0 skip))) := by
    unfold State.load
    rw [hj]
    dsimp only
    rw [hc]
    dsimp only
    rw [if_pos hf, hd]
    rfl
  exact answers_load hu hm hload (hp _ (loadDone_mbox (loadedTo_loadDo hd).stat))

/-- The state after the reply of a load: its record, its sections and its control stores. -/
structure Accepted (s : State) (j : Job) (o : List Byte) (r : LoadReq) (im : Images) (t : State) : Prop where
  loaded : t.pkg.loaded = s.pkg.loaded ++ [loadRecord j o r im]
  bytes : ∀ i a ks u, i < sectCount o → OwnsPlace o r i → (∀ k < sectCount o, OwnsPlace o r k → k = i) → addrOf r i = some a →
    s.partKeys j.part a (im.getD i []).length true = some (ks, u) → ks.Nodup → (∀ k ∈ ks, k < 2 ^ 53) →
    (hasIxius o = true → ∀ k ∈ ks, k < keyCl r.cacheAt) → ks.map t.mem.read = im.getD i []
  stored : ∀ (n : Nat) (c d : Core), (s.core :: s.others)[n]? = some c → (t.core :: t.others)[n]? = some d →
    Stored o im (((s.partAt j.part).map (·.cores)).getD []) c d

theorem accepted_of_done {s u t : State} {j : Job} {o b : List Byte} {r : LoadReq} {im : Images} (hl : s.LoadedTo j o r im u) (hd : LoadDone s r.buf b u t) :
    Accepted s j o r im t := by
  obtain ⟨box, hpkg⟩ := hd.pkg
  refine ⟨by rw [hpkg]; exact hl.loaded, fun i a ks v hi hown hone ha hk hnodup hhost hcell => ?_, fun n c d hc hdn => ?_⟩
  · rw [← sectsPut_single hi hown hone ha hk hnodup]
    refine List.map_congr_left fun k hkin => ?_
    have hlow := hhost k hkin
    rw [hd.mem, Memory.read_write_of_not _ _ _ k (.inl (by unfold keyHost; omega)), hl.mem k fun hx => hcell hx k hkin]
  · rw [hd.core, hd.others] at hdn
    exact hl.stored hc hdn

/-- Settles O53: each command's equation says what it writes into its buffer; a load is followed through its placed sections, its control stores and its record. -/
theorem mailboxCommands : Obligations.MailboxCommands := by
  unfold Obligations.MailboxCommands
  refine ⟨fun s buf msg sig => ?_, fun s r => ?_⟩
  · intro at' wrote dig live rows n word nonce req bad count hwf
    refine ⟨fun hu => ⟨fun hm => svnBump_answers hu hm, fun hm => attest_answers hu hwf hm, fun hm => resync_summary hu hm,
      fun hm hb => partition_denied hu hm hb, fun hm hb hn hc => ?_, fun q hm hb hq hs => ⟨fun hc => ?_, fun last => ?_⟩⟩,
      fun hb => ⟨fun hm => ?_, fun hm => bbclear_answers hb hm⟩⟩
    · exact (partition_created hu hm hb hn hc).mono fun t ⟨a, b, c, d, e⟩ => ⟨a, b, c, d, e⟩
    · exact (partition_deleted hu hm hb hq hs hc).mono fun t ⟨a, b, c, d, e⟩ => ⟨a, b, c, d, e⟩
    · exact partition_shrunk hu hm hb hq hs
    · exact bbread_answers hb hm
  · intro at' o rep hu hm
    refine ⟨fun hn => load_noJob hu hm hn, fun j hj => ⟨fun status sect detail skip hc => ?_, fun im skip hc hf hd => ?_⟩⟩
    · have hc' : s.checkLoad j o r = .error (.report status sect detail skip) := by
        split at hc
        · next hx =>
          cases hc
          exact hx
        · exact hc.elim
      exact (load_refused hu hm hj hc').mono fun t ⟨a, b, c, d, e⟩ => ⟨a, b, c, d, e⟩
    · have hc' : s.checkLoad j o r = .ok (im, skip) := by
        split at hc
        · next hx =>
          cases hc
          exact hx
        · exact hc.elim
      obtain ⟨u, hu'⟩ := Option.isSome_iff_exists.1 hd
      refine load_accepted hu hm hj hc' hf hu' fun t done => ⟨done.code, done.report, ?_⟩
      intro own
      obtain ⟨hloaded, hbytes, hstored⟩ := accepted_of_done (loadedTo_loadDo hu') done
      refine ⟨⟨loadRecord j o r im, hloaded, rfl, rfl, rfl, rfl, fun i p => mem_placedOf, fun i ws => mem_planesOf, unitImgs_length o r im,
        fun n z y hz hy => ?_⟩, fun i a ks hi hown hone ha ⟨v, hk⟩ hnodup hhost hcell => ?_, fun n c d hc hd => ?_⟩
      · obtain rfl := Option.some.inj ((unitImgs_get hz).symm.trans hy)
        exact ⟨rfl, rfl⟩
      · exact hbytes i a ks v hi hown hone ha hk hnodup hhost hcell
      · obtain ⟨himage, hkept, hregs⟩ := hstored n c d hc hd
        exact ⟨himage, hkept, hregs⟩

end Sys2Proof.Machine
end

section
/-! SUPPORT. Exact values, and rounding where nothing is discarded: fields, integers and whole numbers of quanta (R42, R50, R53). -/

namespace Sys2Proof.Machine

/-! ### Bit fields and two's complement -/

/-- A pattern is its sign, exponent field and fraction put together (R42). -/
theorem Fmt.enc_fld (f : Fmt) {x : Nat} (hx : x < 2 ^ (f.eb + f.fb + 1)) :
    f.enc (fld x (f.eb + f.fb) 1 == 1) (fld x f.fb f.eb) (fld x 0 f.fb) = x := by
  have hdiv : x / 2 ^ (f.eb + f.fb) = x / 2 ^ f.fb / 2 ^ f.eb := by rw [add_comm, pow_add, Nat.div_div_eq_div_mul]
  have hlt : x / 2 ^ f.fb / 2 ^ f.eb < 2 := by
    rw [← hdiv]
    exact Nat.div_lt_of_lt_mul (by rwa [pow_succ] at hx)
  have hsign : (if fld x (f.eb + f.fb) 1 == 1 then 2 ^ (f.eb + f.fb) else 0) = x / 2 ^ f.fb / 2 ^ f.eb * 2 ^ f.eb * 2 ^ f.fb := by
    rw [fld, hdiv, pow_one, Nat.mod_eq_of_lt hlt]
    obtain h | h := Nat.le_one_iff_eq_zero_or_eq_one.1 (Nat.lt_succ_iff.1 hlt)
    · rw [h, zero_mul, zero_mul]
      rfl
    · rw [h, one_mul, pow_add]
      rfl
  calc f.enc _ _ _ = (x / 2 ^ f.fb / 2 ^ f.eb * 2 ^ f.eb + x / 2 ^ f.fb % 2 ^ f.eb) * 2 ^ f.fb + x % 2 ^ f.fb := by
        rw [Fmt.enc, hsign, fld, fld, pow_zero, Nat.div_one, add_mul]
    _ = x := by rw [Nat.div_add_mod', Nat.div_add_mod']

theorem wrap_natCast {n x : Nat} (hx : x < 2 ^ n) : wrap n (x : Int) = x := by
  rw [wrap, ← Int.natCast_mod, Int.toNat_natCast, Nat.mod_eq_of_lt hx]

/-- The pattern of the signed reading of a pattern is that pattern (R41). -/
theorem wrap_sint {n x : Nat} (hx : x < 2 ^ n) : wrap n (sint n x) = x := by
  rw [sint, Nat.mod_eq_of_lt hx]
  split
  · exact wrap_natCast hx
  · rw [wrap, show (x : Int) - 2 ^ n = x - (2 ^ n : Nat) by norm_cast, Int.sub_emod_right]
    exact wrap_natCast hx

/-! ### Exact values -/

/-- A value and its negation sum to zero. -/
theorem Ex.add_negate_num (x : Ex) : (x.add x.negate).num = 0 := by
  by_cases h : x.num = 0
  · simp [Ex.add, Ex.negate, h]
  · cases hn : x.neg <;> simp [Ex.add, Ex.negate, Ex.over, h, hn]

theorem Ex.cmp_self (x : Ex) : x.cmp x = 0 := by
  rw [Ex.cmp]
  exact if_pos x.add_negate_num

theorem ilog2_one {n : Nat} (h : n ≠ 0) : ilog2 n 1 = Nat.log2 n := by
  have hone : Nat.log2 1 = 0 := by decide
  simp [ilog2, hone, Nat.log2_self_le h]

/-- The exponent of a whole number of quanta. -/
theorem Ex.mag_k {x : Ex} (hd : x.den = 1) (h : x.num ≠ 0) : x.mag.k = Nat.log2 x.num + x.e := by
  rw [Ex.mag, hd, ilog2_one h]

/-- A whole number of quanta, scaled to a grid that is no coarser, is whole. -/
theorem Ex.mag_scaled {x : Ex} (hd : x.den = 1) {s : Int} {n : Nat} (hs : x.e + s = n) : x.mag.scaled s = (x.num * 2 ^ n, false) := by
  simp [Ex.mag, hd, hs, Nat.mod_one]

/-! ### Rounding of whole numbers of quanta -/

/-- With nothing discarded no mode rounds up: the random bits alone do not carry (R50, R53). -/
theorem roundUp_exact (rm : RM) (neg : Bool) (n : Nat) {rho r : Nat} (h : rho < 2 ^ r) : roundUp rm neg n 0 false rho r = false := by
  cases rm with
  | sr => simp [roundUp, h]
  | _ => rfl

/-- An integer below the limit of the grid is rounded to itself (R50). -/
theorem roundInt_ofInt (rm : RM) {rho r : Nat} {z : Int} (h0 : z ≠ 0) (hz : z.natAbs < 2 ^ 80) (h : rho < 2 ^ r) :
    roundInt rm (Ex.ofInt z).neg rho r (Ex.ofInt z).mag = (z, false) := by
  have hk : ¬ (Ex.ofInt z).mag.k > 80 := by
    have hlog : Nat.log2 z.natAbs < 80 := (Nat.log2_lt (Int.natAbs_ne_zero.2 h0)).2 hz
    rw [Ex.mag_k rfl (Int.natAbs_ne_zero.2 h0)]
    show ¬ ((Nat.log2 z.natAbs : Int) + 0 > 80)
    omega
  have hs : (Ex.ofInt z).mag.scaled 17 = (z.natAbs * 2 ^ 17, false) := Ex.mag_scaled rfl rfl
  simp only [roundInt, hk, if_false, hs, Nat.mul_mod_left, Nat.mul_div_left _ (by decide : 0 < 2 ^ 17), roundUp_exact rm _ _ h]
  by_cases hneg : z < 0
  · simp [Ex.ofInt, hneg, abs_of_neg hneg]
  · simp [Ex.ofInt, hneg, abs_of_nonneg (not_lt.1 hneg)]

/-- A whole number of quanta within the range of a floating-point format is encoded as it is, in every mode and with no flag (R50). -/
theorem roundMag_exact {ty : ElemTy} (hf : isFloat ty = true) {m : Mag} {n : Nat} {k : Int} (hk : max m.k (fmtOf ty).emin = k)
    (hs : m.scaled (17 - (k - (fmtOf ty).fb)) = (n * 2 ^ 17, false)) (hn : n < 2 ^ ((fmtOf ty).fb + 1))
    (htop : k < (topOf ty).1 ∨ k = (topOf ty).1 ∧ n ≤ (topOf ty).2) (rm : RM) (sat neg : Bool) {rho r : Nat} (hrho : rho < 2 ^ r) :
    roundMag ty rm sat neg rho r m =
      ⟨if n < 2 ^ (fmtOf ty).fb then (fmtOf ty).enc neg 0 n else (fmtOf ty).enc neg (k + (fmtOf ty).bias).toNat (n - 2 ^ (fmtOf ty).fb), 0, false, false⟩ := by
  have hover : ¬ ((decide (k > (topOf ty).1) || (k == (topOf ty).1 && decide (n > (topOf ty).2))) = true) := by
    simp only [Bool.or_eq_true, Bool.and_eq_true, decide_eq_true_eq, beq_iff_eq]
    omega
  have h17 : 0 < 2 ^ 17 := by decide
  have hwhole : ((0 : Nat) != 0 || false) = false := rfl
  cases ty with
  | fp32 | bf16 | h16 | e5m2 | e4m3 | e2m1 =>
    simp only [roundMag, hk, hs, Nat.mul_mod_left, Nat.mul_div_left _ h17, roundUp_exact rm neg _ hrho, Bool.false_eq_true, if_false, if_neg hn.ne]
    rw [if_neg hover]
    simp only [hwhole, Bool.false_and, Bool.false_eq_true, if_false]
    split <;> rfl
  | _ => cases hf

end Sys2Proof.Machine
end

section
/-! PROOFS. A value that a format holds is converted to it exactly (O34). -/

namespace Sys2Proof.Machine

/-! ### Finite values (R56) -/

theorem convert_zero {ty : ElemTy} {rm : RM} {sat : Bool} {rho r : Nat} {x : Ex} (h : x.num = 0) :
    convert ty rm sat rho r (.num x) = ⟨zeroBits ty x.neg, 0, false, false⟩ := if_pos h

theorem convert_nonzero {ty : ElemTy} {rm : RM} {sat : Bool} {rho r : Nat} {x : Ex} (hint : ty.isInt = false) (h : x.num ≠ 0) :
    convert ty rm sat rho r (.num x) = roundMag ty rm sat x.neg rho r x.mag := by
  simp only [convert, if_neg h, hint, Bool.false_eq_true, if_false]

/-! ### Integers (R41, R56) -/

/-- The value of a pattern of an integer format. -/
theorem decodeElem_int {ty : ElemTy} (h : ty.isInt = true) (x : Nat) : decodeElem ty x = .num (Ex.ofInt (intVal ty x)) := by
  cases ty with
  | i4 | i8 | i16 | i32 | n8 | n16 | n32 => rfl
  | _ => cases h

/-- A format holds the integers of its patterns. -/
theorem clampInt_intVal {ty : ElemTy} (h : ty.isInt = true) (x : Nat) : clampInt ty (intVal ty x) = intVal ty x := by
  cases ty with
  | i4 | i8 | i16 | i32 =>
    simp only [clampInt, intRange, intVal, ElemTy.isSigned, if_true, sint, ElemTy.width]
    omega
  | n8 | n16 | n32 =>
    simp only [clampInt, intRange, intVal, ElemTy.isSigned, ElemTy.width, Bool.false_eq_true, if_false]
    omega
  | _ => cases h

theorem intVal_natAbs_lt {ty : ElemTy} (h : ty.isInt = true) (x : Nat) : (intVal ty x).natAbs < 2 ^ 80 := by
  cases ty with
  | i4 | i8 | i16 | i32 =>
    simp only [intVal, ElemTy.isSigned, if_true, sint, ElemTy.width]
    omega
  | n8 | n16 | n32 =>
    simp only [intVal, ElemTy.isSigned, ElemTy.width, Bool.false_eq_true, if_false, Int.natAbs_natCast]
    omega
  | _ => cases h

theorem wrap_intVal {ty : ElemTy} {x : Nat} (hx : x < 2 ^ ty.width) : wrap ty.width (intVal ty x) = x := by
  rw [intVal]
  split
  · exact wrap_sint hx
  · rw [Nat.mod_eq_of_lt hx]
    exact wrap_natCast hx

/-- An integer of the format is converted to its own pattern. -/
theorem convert_intVal {ty : ElemTy} (h : ty.isInt = true) {x : Nat} (hx : x < 2 ^ ty.width) (rm : RM) (sat : Bool) {rho r : Nat} (hrho : rho < 2 ^ r) :
    convert ty rm sat rho r (.num (Ex.ofInt (intVal ty x))) = ⟨x, 0, false, false⟩ := by
  by_cases h0 : (Ex.ofInt (intVal ty x)).num = 0
  · have hz : intVal ty x = 0 := Int.natAbs_eq_zero.1 h0
    have hx0 : x = 0 := by
      rw [← wrap_intVal hx, hz]
      exact wrap_natCast (by positivity)
    rw [convert_zero h0]
    cases ty with
    | i4 | i8 | i16 | i32 | n8 | n16 | n32 => rw [hx0]; rfl
    | _ => cases h
  · simp only [convert, if_neg h0, h, if_true, roundInt_ofInt rm (Int.natAbs_ne_zero.1 h0) (intVal_natAbs_lt h x) hrho, clampInt_intVal h x, wrap_intVal hx]
    simp

/-! ### Floating point (R42, R43, R56) -/

/-- A value with the sign, the quanta and the exponent that the fields of a pattern give, within the range of the format (R42, R43). -/
structure FieldsOf (ty : ElemTy) (x : Nat) (v : Ex) : Prop where
  neg : v.neg = (fld x ((fmtOf ty).eb + (fmtOf ty).fb) 1 == 1)
  den : v.den = 1
  small : fld x (fmtOf ty).fb (fmtOf ty).eb = 0 → v.num = fld x 0 (fmtOf ty).fb ∧ v.e = (fmtOf ty).emin - (fmtOf ty).fb
  normal : fld x (fmtOf ty).fb (fmtOf ty).eb ≠ 0 → v.num = 2 ^ (fmtOf ty).fb + fld x 0 (fmtOf ty).fb ∧
    v.e = fld x (fmtOf ty).fb (fmtOf ty).eb - (fmtOf ty).bias - (fmtOf ty).fb ∧
    ((fld x (fmtOf ty).fb (fmtOf ty).eb : Int) - (fmtOf ty).bias < (topOf ty).1 ∨
      (fld x (fmtOf ty).fb (fmtOf ty).eb : Int) - (fmtOf ty).bias = (topOf ty).1 ∧ 2 ^ (fmtOf ty).fb + fld x 0 (fmtOf ty).fb ≤ (topOf ty).2)

theorem isInt_of_isFloat {ty : ElemTy} (hf : isFloat ty = true) : ty.isInt = false := by
  cases ty with
  | fp32 | bf16 | h16 | e5m2 | e4m3 | e2m1 => rfl
  | _ => cases hf

theorem zeroBits_float {ty : ElemTy} (hf : isFloat ty = true) (neg : Bool) : zeroBits ty neg = (fmtOf ty).enc neg 0 0 := by
  cases ty with
  | fp32 | bf16 | h16 | e5m2 | e4m3 | e2m1 => rfl
  | _ => cases hf

theorem emin_lt_top {ty : ElemTy} (hf : isFloat ty = true) : (fmtOf ty).emin < (topOf ty).1 := by
  cases ty with
  | fp32 | bf16 | h16 | e5m2 | e4m3 | e2m1 => decide
  | _ => cases hf

/-- The exponent field and the fraction of a pattern that is neither an infinity nor a NaN are within the range of the format (R42). -/
theorem fields_le_top {ty : ElemTy} (hf : isFloat ty = true) {ef fr : Nat} (hef : ef < 2 ^ (fmtOf ty).eb) (hfr : fr < 2 ^ (fmtOf ty).fb)
    (hinf : ¬ (hasInf ty && ef == 2 ^ (fmtOf ty).eb - 1) = true) (hnan : ¬ (ty == .e4m3 && ef == 15 && fr == 7) = true) :
    (ef : Int) - (fmtOf ty).bias < (topOf ty).1 ∨ (ef : Int) - (fmtOf ty).bias = (topOf ty).1 ∧ 2 ^ (fmtOf ty).fb + fr ≤ (topOf ty).2 := by
  cases ty with
  | fp32 | bf16 | h16 | e5m2 | e4m3 | e2m1 =>
    simp [fmtOf, topOf, hasInf] at hef hfr hinf hnan ⊢
    omega
  | _ => cases hf

/-- What a floating-point pattern says (R43). -/
theorem decodeElem_float {ty : ElemTy} (hf : isFloat ty = true) (x : Nat) :
    decodeElem ty x =
      if hasInf ty && fld x (fmtOf ty).fb (fmtOf ty).eb == 2 ^ (fmtOf ty).eb - 1 then
        if fld x 0 (fmtOf ty).fb = 0 then .inf (fld x ((fmtOf ty).eb + (fmtOf ty).fb) 1 == 1)
        else .nan (fld (fld x 0 (fmtOf ty).fb) ((fmtOf ty).fb - 1) 1 == 0)
      else if ty == .e4m3 && fld x (fmtOf ty).fb (fmtOf ty).eb == 15 && fld x 0 (fmtOf ty).fb == 7 then .nan false
      else if fld x (fmtOf ty).fb (fmtOf ty).eb = 0 then
        .num ⟨fld x ((fmtOf ty).eb + (fmtOf ty).fb) 1 == 1, fld x 0 (fmtOf ty).fb, 1, (fmtOf ty).emin - (fmtOf ty).fb⟩
      else .num ⟨fld x ((fmtOf ty).eb + (fmtOf ty).fb) 1 == 1, 2 ^ (fmtOf ty).fb + fld x 0 (fmtOf ty).fb, 1,
        (fld x (fmtOf ty).fb (fmtOf ty).eb : Int) - (fmtOf ty).bias - (fmtOf ty).fb⟩ := by
  cases ty with
  | fp32 | bf16 | h16 | e5m2 | e4m3 | e2m1 => rfl
  | _ => cases hf

theorem fieldsOf_decodeElem {ty : ElemTy} (hf : isFloat ty = true) {x : Nat} {v : Ex} (h : decodeElem ty x = .num v) : FieldsOf ty x v := by
  rw [decodeElem_float hf] at h
  split at h
  · split at h <;> cases h
  next hinf =>
  split at h
  · cases h
  next hnan =>
  split at h
  next h0 =>
    cases h
    exact ⟨rfl, rfl, fun _ => ⟨rfl, rfl⟩, fun hn => absurd h0 hn⟩
  next hn =>
    cases h
    exact ⟨rfl, rfl, fun h0 => absurd h0 hn, fun _ => ⟨rfl, rfl,
      fields_le_top hf (Nat.mod_lt _ (by positivity)) (Nat.mod_lt _ (by positivity)) hinf hnan⟩⟩

/-- A number of a floating-point format is converted to its own pattern. -/
theorem convert_float {ty : ElemTy} (hf : isFloat ty = true) {x : Nat} {v : Ex} (hx : x < 2 ^ ((fmtOf ty).eb + (fmtOf ty).fb + 1))
    (h : decodeElem ty x = .num v) (rm : RM) (sat : Bool) {rho r : Nat} (hrho : rho < 2 ^ r) :
    convert ty rm sat rho r (.num v) = ⟨x, 0, false, false⟩ := by
  obtain ⟨hneg, hden, hsmall, hnormal⟩ := fieldsOf_decodeElem hf h
  have henc := (fmtOf ty).enc_fld hx
  have hfr : fld x 0 (fmtOf ty).fb < 2 ^ (fmtOf ty).fb := Nat.mod_lt _ (by positivity)
  rw [← hneg] at henc
  by_cases hef : fld x (fmtOf ty).fb (fmtOf ty).eb = 0
  · obtain ⟨hnum, he⟩ := hsmall hef
    rw [hef, ← hnum] at henc
    by_cases h0 : v.num = 0
    · rw [convert_zero h0, zeroBits_float hf, ← henc, h0]
    · have hlog : Nat.log2 v.num < (fmtOf ty).fb := (Nat.log2_lt h0).2 (hnum ▸ hfr)
      have hk : max v.mag.k (fmtOf ty).emin = (fmtOf ty).emin := by
        rw [Ex.mag_k hden h0]
        omega
      rw [convert_nonzero (isInt_of_isFloat hf) h0,
        roundMag_exact hf hk (Ex.mag_scaled (n := 17) hden (by omega)) (by omega) (.inl (emin_lt_top hf)) rm sat v.neg hrho,
        if_pos (hnum ▸ hfr), henc]
  · obtain ⟨hnum, he, htop⟩ := hnormal hef
    have hpos : 0 < 2 ^ (fmtOf ty).fb := by positivity
    have h0 : v.num ≠ 0 := by omega
    have hlt : v.num < 2 ^ ((fmtOf ty).fb + 1) := by omega
    have hlog : Nat.log2 v.num = (fmtOf ty).fb := (Nat.log2_eq_iff h0).2 ⟨by omega, hlt⟩
    have hk : max v.mag.k (fmtOf ty).emin = (fld x (fmtOf ty).fb (fmtOf ty).eb : Int) - (fmtOf ty).bias := by
      rw [Ex.mag_k hden h0, hlog, Fmt.emin]
      omega
    rw [convert_nonzero (isInt_of_isFloat hf) h0,
      roundMag_exact hf hk (Ex.mag_scaled (n := 17) hden (by omega)) hlt (hnum ▸ htop) rm sat v.neg hrho, if_neg (by omega)]
    have hexp : ((fld x (fmtOf ty).fb (fmtOf ty).eb : Int) - (fmtOf ty).bias + (fmtOf ty).bias).toNat = fld x (fmtOf ty).fb (fmtOf ty).eb := by omega
    rw [hexp, hnum, Nat.add_sub_cancel_left, henc]

/-! ### SP2 (R44, R51) -/

/-- The value of a pattern, in units of 2^−6. -/
def sp2Ex (x : Nat) : Ex := ⟨decide (sp2Units x < 0), (sp2Units x).natAbs, 1, -6⟩

theorem sp2Ex_den (x : Nat) : (sp2Ex x).den = 1 := rfl

theorem decodeElem_sp2 (x : Nat) : decodeElem .sp2 x = .num (sp2Ex x) := rfl

theorem roundMag_sp2 (rm : RM) (sat neg : Bool) (rho r : Nat) (m : Mag) : roundMag .sp2 rm sat neg rho r m = roundSp2 rm neg m rho r := rfl

/-- Every pattern has one of the listed magnitudes. -/
theorem sp2Units_mem : ∀ x < 256, (sp2Units x).natAbs ∈ sp2Mags := by decide +kernel

/-- The canonical pattern of a listed magnitude has that magnitude and the sign that it is given. -/
theorem sp2Units_sp2Enc : ∀ u ∈ sp2Mags, ∀ neg : Bool, sp2Units (sp2Enc neg u) = if neg then -(u : Int) else u := by decide +kernel

theorem sp2Mags_le : ∀ u ∈ sp2Mags, u ≤ 128 := by decide

/-- A listed magnitude is the greatest listed one that is not above it. -/
theorem sp2Mags_floor : ∀ u ∈ sp2Mags, (sp2Mags.filter fun y => y * 2 ^ 22 ≤ u * 2 ^ 22).getLastD 0 = u := by decide +kernel

/-- A listed magnitude is encoded as it is, in every mode and with no flag (R51). -/
theorem roundSp2_exact (rm : RM) (neg : Bool) {m : Mag} {u : Nat} (hu : u ∈ sp2Mags) (hk : m.k < 2) (hs : m.scaled 28 = (u * 2 ^ 22, false)) (rho r : Nat) :
    roundSp2 rm neg m rho r = ⟨sp2Enc neg u, 0, false, false⟩ := by
  have hle := sp2Mags_le u hu
  have hmax : (decide (m.k ≥ 2) || decide (u * 2 ^ 22 > 128 * 2 ^ 22) || (u * 2 ^ 22 == 128 * 2 ^ 22 && false)) = false := by
    simp only [Bool.and_false, Bool.or_false, Bool.or_eq_false_iff, decide_eq_false_iff_not]
    omega
  simp only [roundSp2, hs, hmax, sp2Mags_floor u hu, Nat.sub_self]
  rfl

/-- A value of a pattern of SP2 is converted to the canonical pattern of its magnitude and sign. -/
theorem convert_sp2 {x : Nat} (hx : x < 256) (rm : RM) (sat : Bool) (rho r : Nat) :
    convert .sp2 rm sat rho r (.num (sp2Ex x)) = ⟨sp2Enc (sp2Ex x).neg (sp2Ex x).num, 0, false, false⟩ := by
  have hmem : (sp2Ex x).num ∈ sp2Mags := sp2Units_mem x hx
  by_cases h0 : (sp2Ex x).num = 0
  · rw [convert_zero h0, h0]
    rfl
  · have hlog : Nat.log2 (sp2Ex x).num < 8 := (Nat.log2_lt h0).2 ((sp2Mags_le _ hmem).trans_lt (by decide))
    have hk : (sp2Ex x).mag.k < 2 := by
      rw [Ex.mag_k (sp2Ex_den x) h0]
      show (Nat.log2 (sp2Ex x).num : Int) + -6 < 2
      omega
    have hs : (sp2Ex x).mag.scaled 28 = ((sp2Ex x).num * 2 ^ 22, false) := Ex.mag_scaled (sp2Ex_den x) (by decide : (-6 : Int) + 28 = (22 : Nat))
    rw [convert_nonzero rfl h0, roundMag_sp2, roundSp2_exact rm _ hmem hk hs]

/-- The canonical pattern of a value of SP2 has that value. -/
theorem decodeElem_sp2Enc {x : Nat} (hx : x < 256) : decodeElem .sp2 (sp2Enc (sp2Ex x).neg (sp2Ex x).num) = .num (sp2Ex x) := by
  have henc : sp2Units (sp2Enc (decide (sp2Units x < 0)) (sp2Units x).natAbs) = sp2Units x := by
    rw [sp2Units_sp2Enc _ (sp2Units_mem x hx)]
    by_cases hneg : sp2Units x < 0
    · simp [hneg, abs_of_neg hneg]
    · simp [hneg, abs_of_nonneg (not_lt.1 hneg)]
  rw [decodeElem_sp2, sp2Ex, sp2Ex, henc]

/-! ### The statement -/

/-- Outside SP2 a value is converted to the pattern that holds it. -/
theorem convert_held {ty : ElemTy} (hty : ty ∈ [ElemTy.i4, .i8, .n8, .e2m1, .e4m3, .e5m2]) {x : Nat} {v : Ex} (hx : x < 2 ^ ty.width)
    (h : decodeElem ty x = .num v) (rm : RM) (sat : Bool) {rho r : Nat} (hrho : rho < 2 ^ r) :
    convert ty rm sat rho r (.num v) = ⟨x, 0, false, false⟩ := by
  cases ty with
  | i4 | i8 | n8 =>
    rw [decodeElem_int rfl] at h
    cases h
    exact convert_intVal rfl hx rm sat hrho
  | e2m1 | e4m3 | e5m2 => exact convert_float rfl hx h rm sat hrho
  | _ => simp at hty

/-- Settles O34: an integer and a floating-point number come back as their own pattern, a value of SP2 as its canonical one. -/
theorem heldValuesAreExact : Obligations.HeldValuesAreExact := by
  unfold Obligations.HeldValuesAreExact
  intro ty rm sat rho r x v hty hx h _ hrho
  by_cases hsp : ty = .sp2
  · subst hsp
    obtain rfl := Val.num.inj ((decodeElem_sp2 x).symm.trans h)
    rw [convert_sp2 hx]
    exact ⟨rfl, ⟨_, decodeElem_sp2Enc hx, Ex.cmp_self _⟩, fun hne => absurd rfl hne⟩
  · have hty' : ty ∈ [ElemTy.i4, .i8, .n8, .e2m1, .e4m3, .e5m2] := by
      simp only [List.mem_cons, List.not_mem_nil, hsp, or_false] at hty ⊢
      exact hty
    rw [convert_held hty' hx h rm sat hrho]
    exact ⟨rfl, ⟨v, h, v.cmp_self⟩, fun _ => rfl⟩

end Sys2Proof.Machine
end

section
/-! PROOFS. The values of the floating-point operations on one element (O33). -/

namespace Sys2Proof.Machine

/-! ### .SAT (R174) -/

/-- A pattern that is no infinity of the format is left as it is. -/
theorem satFix_of_ne {ty : ElemTy} {sat : Bool} {x : Rd} (hp : x.bits ≠ infBits ty false) (hn : x.bits ≠ infBits ty true) : satFix ty sat x = x := by
  simp [satFix, hp, hn]

/-- The types of vector arithmetic have NaN, zeros and two infinities of different patterns (R42). -/
structure SpecialPatterns (ty : ElemTy) : Prop where
  infs : infBits ty false ≠ infBits ty true
  nan : ∀ n, nanBits ty ≠ infBits ty n
  zero : ∀ z n, zeroBits ty z ≠ infBits ty n

theorem specialPatterns {ty : ElemTy} (h : ty ∈ [ElemTy.h16, .bf16, .fp32]) : SpecialPatterns ty := by
  cases ty with
  | h16 | bf16 | fp32 => exact ⟨by decide, by decide, by decide⟩
  | _ => simp at h

/-- An infinite result of sign n: with .SAT it is the largest finite value with OF. -/
def infRd (ty : ElemTy) (sat n : Bool) (fl : Flags) : Rd := if sat then ⟨maxBits ty n, fl ||| 4, false, false⟩ else ⟨infBits ty n, fl, false, false⟩

theorem satFix_inf {ty : ElemTy} (h : SpecialPatterns ty) (sat n : Bool) (fl : Flags) : satFix ty sat ⟨infBits ty n, fl, false, false⟩ = infRd ty sat n fl := by
  have hne : (infBits ty false == infBits ty true) = false := beq_eq_false_iff_ne.2 h.infs
  cases sat with
  | false => rfl
  | true => cases n <;> simp [satFix, infRd, hne, fOF]

section
variable {op : FpOp} {ty : ElemTy} {rm : RM} {sat : Bool} {rho r a b c : Nat} {n : Bool} {fl : Flags}

theorem fpElem_of_nan (hS : SpecialPatterns ty) (h : fpElem0 op ty rm sat rho r a b c = nanRes ty n) : fpElem op ty rm sat rho r a b c = nanRes ty n := by
  rw [fpElem, h]
  exact satFix_of_ne (hS.nan false) (hS.nan true)

theorem fpElem_of_zero (hS : SpecialPatterns ty) (h : fpElem0 op ty rm sat rho r a b c = ⟨zeroBits ty n, fl, false, false⟩) :
    fpElem op ty rm sat rho r a b c = ⟨zeroBits ty n, fl, false, false⟩ := by
  rw [fpElem, h]
  exact satFix_of_ne (hS.zero n false) (hS.zero n true)

theorem fpElem_of_inf (hS : SpecialPatterns ty) (h : fpElem0 op ty rm sat rho r a b c = ⟨infBits ty n, fl, false, false⟩) :
    fpElem op ty rm sat rho r a b c = infRd ty sat n fl := by
  rw [fpElem, h, satFix_inf hS]

theorem fpElem_unsat (h : sat = false) : fpElem op ty rm sat rho r a b c = fpElem0 op ty rm sat rho r a b c := by
  rw [h]
  rfl

theorem fpElem_of_round {x : Ex} (h : fpElem0 op ty rm sat rho r a b c = roundEx ty rm sat rho r x n) :
    fpElem op ty rm sat rho r a b c = satFix ty sat (roundEx ty rm sat rho r x n) := congrArg (satFix ty sat) h

end

/-! ### Sums (R59, R178) -/

theorem sumElem_nan {ty : ElemTy} {rm : RM} {sat : Bool} {rho r : Nat} {vs : List Val} (h : vs.any Val.isNan = true) :
    sumElem ty rm sat rho r vs = nanRes ty (vs.any Val.isSig) := if_pos h

theorem sumElem_inf_inf (ty : ElemTy) (rm : RM) (sat : Bool) (rho r : Nat) (m n : Bool) :
    sumElem ty rm sat rho r [.inf m, .inf n] = if m = n then ⟨infBits ty m, 0, false, false⟩ else nanRes ty true := by
  cases m <;> cases n <;> rfl

theorem sumElem_inf_num (ty : ElemTy) (rm : RM) (sat : Bool) (rho r : Nat) (n : Bool) (y : Ex) :
    sumElem ty rm sat rho r [.inf n, .num y] = ⟨infBits ty n, 0, false, false⟩ := by
  cases n <;> rfl

theorem sumElem_num_inf (ty : ElemTy) (rm : RM) (sat : Bool) (rho r : Nat) (x : Ex) (n : Bool) :
    sumElem ty rm sat rho r [.num x, .inf n] = ⟨infBits ty n, 0, false, false⟩ := by
  cases n <;> rfl

theorem roundEx_congr_zero {ty : ElemTy} {rm : RM} {sat : Bool} {rho r : Nat} {x y : Ex} {zneg : Bool} (hx : x.num = 0) (hy : y.num = 0) :
    roundEx ty rm sat rho r x zneg = roundEx ty rm sat rho r y zneg := by
  rw [roundEx, roundEx, if_pos hx, if_pos hy]

/-- A zero is neutral in a sum with a value that is none. -/
theorem Ex.zero_add {z x : Ex} (hz : z.num = 0) (hx : x.num ≠ 0) : z.add x = x := by
  rw [Ex.add, if_pos hz, if_neg hx]

theorem Ex.zero_add_zero_num {z x : Ex} (hz : z.num = 0) (hx : x.num = 0) : (z.add x).num = 0 := by
  rw [Ex.add, if_pos hz, if_pos hx]

/-- The sign that a zero sum of two exact values takes (R59). -/
theorem zeroSign_num_num (rm : RM) (x y : Ex) :
    (if [Val.num x, .num y].all Val.isZero && ([Val.num x, .num y].all Val.sign || [Val.num x, .num y].all fun v => !v.sign)
      then [Val.num x, .num y].all Val.sign else rm == .rdn) = if x.num = 0 ∧ y.num = 0 ∧ x.neg = y.neg then x.neg else decide (rm = .rdn) := by
  by_cases hx : x.num = 0
  · by_cases hy : y.num = 0
    · cases hxn : x.neg <;> cases hyn : y.neg <;> simp [Val.isZero, Val.sign, hx, hy, hxn, hyn, beq_eq_decide]
    · simp [Val.isZero, hy, beq_eq_decide]
  · simp [Val.isZero, hx, beq_eq_decide]

/-- A sum of two exact values is rounded once; its zero takes the sign of R59. -/
theorem sumElem_num_num (ty : ElemTy) (rm : RM) (sat : Bool) (rho r : Nat) (x y : Ex) :
    sumElem ty rm sat rho r [.num x, .num y] =
      roundEx ty rm sat rho r (x.add y) (if x.num = 0 ∧ y.num = 0 ∧ x.neg = y.neg then x.neg else decide (rm = .rdn)) := by
  show roundEx ty rm sat rho r (((⟨[Val.num x, .num y].all Val.sign, 0, 1, 0⟩ : Ex).add x).add y) _ = _
  rw [zeroSign_num_num]
  by_cases hx : x.num = 0
  · by_cases hy : y.num = 0
    · exact roundEx_congr_zero (Ex.zero_add_zero_num (Ex.zero_add_zero_num rfl hx) hy) (Ex.zero_add_zero_num hx hy)
    · rw [Ex.zero_add (Ex.zero_add_zero_num rfl hx) hy, Ex.zero_add hx hy]
  · rw [Ex.zero_add rfl hx]

/-! ### The operations by the values of their operands (R177, R178) -/

@[simp] theorem Val.negate_isNan (v : Val) : v.negate.isNan = v.isNan := by cases v <;> rfl
@[simp] theorem Val.negate_isSig (v : Val) : v.negate.isSig = v.isSig := by cases v <;> rfl
@[simp] theorem badProduct_negate (v w : Val) : badProduct v.negate w = badProduct v w := by cases v <;> cases w <;> rfl

theorem badProduct_iff (v w : Val) : badProduct v w = true ↔
    ((∃ x, v = .num x ∧ x.num = 0) ∧ ∃ n, w = .inf n) ∨ ((∃ n, v = .inf n) ∧ ∃ y, w = .num y ∧ y.num = 0) := by
  cases v <;> cases w <;> simp [badProduct]

theorem badProduct_of_nan {v w : Val} (h : (v.isNan || w.isNan) = true) : badProduct v w = false := by
  cases v with
  | nan => rfl
  | inf | num =>
    cases w with
    | nan => rfl
    | inf | num => cases h

theorem Val.mul_of_nan {v w : Val} (h : (v.isNan || w.isNan) = true) : ∃ g, v.mul w = .nan g := by
  cases v with
  | nan g => exact ⟨g, by cases w <;> rfl⟩
  | inf | num =>
    cases w with
    | nan g => exact ⟨g, rfl⟩
    | inf | num => cases h

/-- A fused multiply-add of three values. -/
def fusedElem (ty : ElemTy) (rm : RM) (sat : Bool) (rho r : Nat) (a b c : Val) : Rd :=
  if badProduct a b then nanRes ty true
  else if a.isNan || b.isNan || c.isNan then nanRes ty (a.isSig || b.isSig || c.isSig)
  else sumElem ty rm sat rho r [a.mul b, c]

theorem fusedElem_nan {ty : ElemTy} {rm : RM} {sat : Bool} {rho r : Nat} {a b c : Val} (hbad : badProduct a b = false)
    (h : (a.isNan || b.isNan || c.isNan) = true) : fusedElem ty rm sat rho r a b c = nanRes ty (a.isSig || b.isSig || c.isSig) := by
  rw [fusedElem, hbad, if_neg Bool.false_ne_true, if_pos h]

theorem fusedElem_num {ty : ElemTy} {rm : RM} {sat : Bool} {rho r : Nat} {x y z : Ex} (hz : z.num ≠ 0) :
    fusedElem ty rm sat rho r (.num x) (.num y) (.num z) = roundEx ty rm sat rho r ((x.mul y).add z) (decide (rm = .rdn)) := by
  have h := sumElem_num_num ty rm sat rho r (x.mul y) z
  rwa [if_neg fun hzero => hz hzero.2.1] at h

section
variable {ty : ElemTy} {rm : RM} {sat : Bool} {rho r a b c : Nat}

theorem fpElem0_add : fpElem0 .add ty rm sat rho r a b c = sumElem ty rm sat rho r [decodeElem ty a, decodeElem ty b] := rfl
theorem fpElem0_sub : fpElem0 .sub ty rm sat rho r a b c = sumElem ty rm sat rho r [decodeElem ty a, (decodeElem ty b).negate] := rfl
theorem fpElem0_fma : fpElem0 .fma ty rm sat rho r a b c = fusedElem ty rm sat rho r (decodeElem ty a) (decodeElem ty b) (decodeElem ty c) := rfl
theorem fpElem0_fms : fpElem0 .fms ty rm sat rho r a b c = fusedElem ty rm sat rho r (decodeElem ty a) (decodeElem ty b) (decodeElem ty c).negate := rfl
theorem fpElem0_fnma : fpElem0 .fnma ty rm sat rho r a b c = fusedElem ty rm sat rho r (decodeElem ty a).negate (decodeElem ty b) (decodeElem ty c) := rfl

theorem fpElem0_add_infs {m n : Bool} (ha : decodeElem ty a = .inf m) (hb : decodeElem ty b = .inf n) :
    fpElem0 .add ty rm sat rho r a b c = if m = n then ⟨infBits ty m, 0, false, false⟩ else nanRes ty true := by
  rw [fpElem0_add, ha, hb, sumElem_inf_inf]

theorem fpElem0_sub_infs {m n : Bool} (ha : decodeElem ty a = .inf m) (hb : decodeElem ty b = .inf n) :
    fpElem0 .sub ty rm sat rho r a b c = if m = !n then ⟨infBits ty m, 0, false, false⟩ else nanRes ty true := by
  rw [fpElem0_sub, ha, hb, Val.negate, sumElem_inf_inf]

theorem fpElem0_add_num_inf {x : Ex} {n : Bool} (ha : decodeElem ty a = .num x) (hb : decodeElem ty b = .inf n) :
    fpElem0 .add ty rm sat rho r a b c = ⟨infBits ty n, 0, false, false⟩ := by
  rw [fpElem0_add, ha, hb, sumElem_num_inf]

theorem fpElem0_sub_num_inf {x : Ex} {n : Bool} (ha : decodeElem ty a = .num x) (hb : decodeElem ty b = .inf n) :
    fpElem0 .sub ty rm sat rho r a b c = ⟨infBits ty !n, 0, false, false⟩ := by
  rw [fpElem0_sub, ha, hb, Val.negate, sumElem_num_inf]

theorem fpElem0_add_inf_num {m : Bool} {y : Ex} (ha : decodeElem ty a = .inf m) (hb : decodeElem ty b = .num y) :
    fpElem0 .add ty rm sat rho r a b c = ⟨infBits ty m, 0, false, false⟩ := by
  rw [fpElem0_add, ha, hb, sumElem_inf_num]

theorem fpElem0_sub_inf_num {m : Bool} {y : Ex} (ha : decodeElem ty a = .inf m) (hb : decodeElem ty b = .num y) :
    fpElem0 .sub ty rm sat rho r a b c = ⟨infBits ty m, 0, false, false⟩ := by
  rw [fpElem0_sub, ha, hb, Val.negate, sumElem_inf_num]

theorem fpElem0_add_num {x y : Ex} (ha : decodeElem ty a = .num x) (hb : decodeElem ty b = .num y) :
    fpElem0 .add ty rm sat rho r a b c =
      roundEx ty rm sat rho r (x.add y) (if x.num = 0 ∧ y.num = 0 ∧ x.neg = y.neg then x.neg else decide (rm = .rdn)) := by
  rw [fpElem0_add, ha, hb, sumElem_num_num]

theorem fpElem0_sub_num {x y : Ex} (ha : decodeElem ty a = .num x) (hb : decodeElem ty b = .num y) :
    fpElem0 .sub ty rm sat rho r a b c =
      roundEx ty rm sat rho r (x.add y.negate) (if x.num = 0 ∧ y.num = 0 ∧ x.neg = !y.neg then x.neg else decide (rm = .rdn)) := by
  rw [fpElem0_sub, ha, hb, Val.negate, sumElem_num_num]
  rfl

/-- 0·∞ is invalid in a product and in a fused form. -/
theorem fpElem0_badProduct (h : badProduct (decodeElem ty a) (decodeElem ty b) = true) {op : FpOp} (hop : op ∈ [FpOp.mul, .fma, .fms, .fnma]) :
    fpElem0 op ty rm sat rho r a b c = nanRes ty true := by
  cases op with
  | mul => exact if_pos h
  | fma | fms => exact if_pos h
  | fnma => exact if_pos ((badProduct_negate _ _).trans h)
  | _ => simp at hop

theorem fpElem0_mul_num {x y : Ex} (ha : decodeElem ty a = .num x) (hb : decodeElem ty b = .num y) :
    fpElem0 .mul ty rm sat rho r a b c = roundEx ty rm sat rho r (x.mul y) (x.neg ^^ y.neg) := by
  simp only [fpElem0, ha, hb]
  rfl

theorem fpElem0_mul_infs {m n : Bool} (ha : decodeElem ty a = .inf m) (hb : decodeElem ty b = .inf n) :
    fpElem0 .mul ty rm sat rho r a b c = ⟨infBits ty (m ^^ n), 0, false, false⟩ := by
  simp only [fpElem0, ha, hb]
  rfl

theorem fpElem0_mul_inf_num {m : Bool} {y : Ex} (ha : decodeElem ty a = .inf m) (hb : decodeElem ty b = .num y) (hy : y.num ≠ 0) :
    fpElem0 .mul ty rm sat rho r a b c = ⟨infBits ty (m ^^ y.neg), 0, false, false⟩ := by
  have hbad : badProduct (.inf m) (.num y) = false := beq_eq_false_iff_ne.2 hy
  simp only [fpElem0, ha, hb, hbad, Bool.false_eq_true, if_false]
  rfl

theorem fpElem0_mul_num_inf {x : Ex} {n : Bool} (ha : decodeElem ty a = .num x) (hb : decodeElem ty b = .inf n) (hx : x.num ≠ 0) :
    fpElem0 .mul ty rm sat rho r a b c = ⟨infBits ty (x.neg ^^ n), 0, false, false⟩ := by
  have hbad : badProduct (.num x) (.inf n) = false := beq_eq_false_iff_ne.2 hx
  simp only [fpElem0, ha, hb, hbad, Bool.false_eq_true, if_false]
  rfl

theorem fpElem0_fma_num {x y z : Ex} (ha : decodeElem ty a = .num x) (hb : decodeElem ty b = .num y) (hc : decodeElem ty c = .num z) (hz : z.num ≠ 0) :
    fpElem0 .fma ty rm sat rho r a b c = roundEx ty rm sat rho r ((x.mul y).add z) (decide (rm = .rdn)) := by
  rw [fpElem0_fma, ha, hb, hc, fusedElem_num hz]

theorem fpElem0_fms_num {x y z : Ex} (ha : decodeElem ty a = .num x) (hb : decodeElem ty b = .num y) (hc : decodeElem ty c = .num z) (hz : z.num ≠ 0) :
    fpElem0 .fms ty rm sat rho r a b c = roundEx ty rm sat rho r ((x.mul y).add z.negate) (decide (rm = .rdn)) := by
  rw [fpElem0_fms, ha, hb, hc, Val.negate, fusedElem_num (z := z.negate) hz]

theorem fpElem0_fnma_num {x y z : Ex} (ha : decodeElem ty a = .num x) (hb : decodeElem ty b = .num y) (hc : decodeElem ty c = .num z) (hz : z.num ≠ 0) :
    fpElem0 .fnma ty rm sat rho r a b c = roundEx ty rm sat rho r ((x.negate.mul y).add z) (decide (rm = .rdn)) := by
  rw [fpElem0_fnma, ha, hb, hc, Val.negate, fusedElem_num hz]

theorem fpElem0_div_inf_inf {m n : Bool} (ha : decodeElem ty a = .inf m) (hb : decodeElem ty b = .inf n) :
    fpElem0 .div ty rm sat rho r a b c = nanRes ty true := by
  simp only [fpElem0, ha, hb]
  rfl

theorem fpElem0_div_inf_num {m : Bool} {y : Ex} (ha : decodeElem ty a = .inf m) (hb : decodeElem ty b = .num y) :
    fpElem0 .div ty rm sat rho r a b c = ⟨infBits ty (m ^^ y.neg), 0, false, false⟩ := by
  simp only [fpElem0, ha, hb]
  rfl

theorem fpElem0_div_num_inf {x : Ex} {n : Bool} (ha : decodeElem ty a = .num x) (hb : decodeElem ty b = .inf n) :
    fpElem0 .div ty rm sat rho r a b c = ⟨zeroBits ty (x.neg ^^ n), 0, false, false⟩ := by
  simp only [fpElem0, ha, hb]
  rfl

/-- The quotient of two exact values: by zero it is invalid or infinite, by any other it is rounded once. -/
theorem fpElem0_div_num {x y : Ex} (ha : decodeElem ty a = .num x) (hb : decodeElem ty b = .num y) :
    fpElem0 .div ty rm sat rho r a b c =
      if y.num = 0 then (if x.num = 0 then nanRes ty true else ⟨infBits ty (x.neg ^^ y.neg), 8, false, false⟩)
      else roundEx ty rm sat rho r (x.div y) (x.neg ^^ y.neg) := by
  simp only [fpElem0, ha, hb]
  rfl

theorem fpElem0_sqrt_inf {n : Bool} (ha : decodeElem ty a = .inf n) :
    fpElem0 .sqrt ty rm sat rho r a b c = if n then nanRes ty true else ⟨infBits ty false, 0, false, false⟩ := by
  simp only [fpElem0, ha]

theorem fpElem0_sqrt_num {x : Ex} (ha : decodeElem ty a = .num x) :
    fpElem0 .sqrt ty rm sat rho r a b c = if x.num = 0 then ⟨zeroBits ty x.neg, 0, false, false⟩ else if x.neg then nanRes ty true
      else roundMag ty rm sat false rho r x.sqrtMag := by
  simp only [fpElem0, ha]

/-! ### NaN operands (R43, R178) -/

theorem Val.isNan_iff (v : Val) : v.isNan = true ↔ ∃ g, v = .nan g := by
  cases v <;> simp [Val.isNan]

theorem Val.isSig_iff (v : Val) : v.isSig = true ↔ v = .nan true := by
  cases v <;> simp [Val.isSig]

/-- An operation that answers a NaN of its operands zs with the canonical one gives it quietly, with NV for a signalling operand. -/
theorem quiet_flags {op : FpOp} {zs : List Nat} (hS : SpecialPatterns ty) (hnan : ∃ z ∈ zs, ∃ g, decodeElem ty z = .nan g)
    [Decidable (∃ z ∈ zs, decodeElem ty z = .nan true)]
    (h : (zs.any fun z => (decodeElem ty z).isNan) = true → fpElem0 op ty rm sat rho r a b c = nanRes ty (zs.any fun z => (decodeElem ty z).isSig)) :
    (fpElem op ty rm sat rho r a b c).bits = nanBits ty ∧
    (fpElem op ty rm sat rho r a b c).fl = if ∃ z ∈ zs, decodeElem ty z = .nan true then 16 else 0 := by
  have hany : (zs.any fun z => (decodeElem ty z).isNan) = true := by simpa [List.any_eq_true, Val.isNan_iff] using hnan
  have hsig : (zs.any fun z => (decodeElem ty z).isSig) = true ↔ ∃ z ∈ zs, decodeElem ty z = .nan true := by simp [List.any_eq_true, Val.isSig_iff]
  rw [fpElem_of_nan hS (h hany)]
  exact ⟨rfl, if_congr hsig rfl rfl⟩

/-- The operations of two operands. -/
theorem fpElem0_nan_two {op : FpOp} (hop : op ∈ [FpOp.add, .sub, .div, .min, .max, .mul]) (h : ([a, b].any fun z => (decodeElem ty z).isNan) = true) :
    fpElem0 op ty rm sat rho r a b c = nanRes ty ([a, b].any fun z => (decodeElem ty z).isSig) := by
  simp only [List.any_cons, List.any_nil, Bool.or_false] at h ⊢
  cases op with
  | add =>
    rw [fpElem0_add, sumElem_nan (by simpa using h)]
    simp
  | sub =>
    rw [fpElem0_sub, sumElem_nan (by simpa using h)]
    simp
  | div | min | max => simp only [fpElem0, h, if_true]
  | mul =>
    obtain ⟨g, hg⟩ := Val.mul_of_nan h
    simp only [fpElem0, badProduct_of_nan h, hg, Bool.false_eq_true, if_false]
  | _ => simp at hop

theorem fpElem0_nan_one {op : FpOp} (hop : op ∈ [FpOp.abs, .neg, .sqrt]) (h : ([a].any fun z => (decodeElem ty z).isNan) = true) :
    fpElem0 op ty rm sat rho r a b c = nanRes ty ([a].any fun z => (decodeElem ty z).isSig) := by
  simp only [List.any_cons, List.any_nil, Bool.or_false] at h ⊢
  cases op with
  | abs | neg => simp only [fpElem0, h, if_true]
  | sqrt =>
    obtain ⟨g, hg⟩ := (Val.isNan_iff _).1 h
    simp only [fpElem0, hg, Val.isSig]
  | _ => simp at hop

/-- The fused forms, where the product is not 0·∞. -/
theorem fpElem0_nan_three {op : FpOp} (hop : op ∈ [FpOp.fma, .fms, .fnma]) (hbad : badProduct (decodeElem ty a) (decodeElem ty b) = false)
    (h : ([a, b, c].any fun z => (decodeElem ty z).isNan) = true) :
    fpElem0 op ty rm sat rho r a b c = nanRes ty ([a, b, c].any fun z => (decodeElem ty z).isSig) := by
  simp only [List.any_cons, List.any_nil, Bool.or_false, ← Bool.or_assoc] at h ⊢
  cases op with
  | fma => rw [fpElem0_fma, fusedElem_nan hbad h]
  | fms =>
    rw [fpElem0_fms, fusedElem_nan hbad (by simpa using h), Val.negate_isSig]
  | fnma =>
    rw [fpElem0_fnma, fusedElem_nan (by simpa using hbad) (by simpa using h), Val.negate_isSig]
  | _ => simp at hop

/-! ### The order of VMIN and VMAX (R177) -/

/-- A zero is equal to the zeros alone. -/
theorem Ex.cmp_of_zero {x : Ex} (hx : x.num = 0) (y : Ex) : x.cmp y = 0 ↔ y.num = 0 := by
  by_cases hy : y.num = 0
  · simp [Ex.cmp, Ex.add, Ex.negate, hx, hy]
  · cases hn : y.neg <;> simp [Ex.cmp, Ex.add, Ex.negate, hx, hy, hn]

theorem valLt_num (x y : Ex) : valLt (.num x) (.num y) = true ↔ x.cmp y < 0 ∨ (x.num = 0 ∧ y.num = 0 ∧ x.neg = true ∧ y.neg = false) := by
  simp only [valLt, Bool.or_eq_true, Bool.and_eq_true, decide_eq_true_eq, beq_iff_eq, Bool.not_eq_true']
  by_cases hx : x.num = 0
  · simp only [Ex.cmp_of_zero hx, hx, true_and, and_true, and_assoc]
  · simp only [hx, false_and, and_false]

theorem fpElem0_min_num {x y : Ex} (ha : decodeElem ty a = .num x) (hb : decodeElem ty b = .num y) :
    fpElem0 .min ty rm sat rho r a b c = ⟨if y.cmp x < 0 ∨ (x.num = 0 ∧ y.num = 0 ∧ y.neg = true ∧ x.neg = false) then b else a, 0, false, false⟩ := by
  have h : valLt (.num y) (.num x) = true ↔ y.cmp x < 0 ∨ (x.num = 0 ∧ y.num = 0 ∧ y.neg = true ∧ x.neg = false) := by
    rw [valLt_num, and_left_comm]
  simp only [fpElem0, ha, hb, Val.isNan, Bool.or_self, Bool.false_eq_true, if_false, h]

theorem fpElem0_max_num {x y : Ex} (ha : decodeElem ty a = .num x) (hb : decodeElem ty b = .num y) :
    fpElem0 .max ty rm sat rho r a b c = ⟨if x.cmp y < 0 ∨ (x.num = 0 ∧ y.num = 0 ∧ x.neg = true ∧ y.neg = false) then b else a, 0, false, false⟩ := by
  simp only [fpElem0, ha, hb, Val.isNan, Bool.or_self, Bool.false_eq_true, if_false, valLt_num]

/-! ### VABS and VNEG (R177) -/

theorem fpElem0_abs (h : ¬ ∃ g, decodeElem ty a = .nan g) : fpElem0 .abs ty rm sat rho r a b c = ⟨a % 2 ^ (ty.width - 1), 0, false, false⟩ := by
  simp only [fpElem0, mt (Val.isNan_iff _).1 h, Bool.false_eq_true, if_false]

theorem fpElem0_neg (h : ¬ ∃ g, decodeElem ty a = .nan g) : fpElem0 .neg ty rm sat rho r a b c = ⟨a ^^^ 2 ^ (ty.width - 1), 0, false, false⟩ := by
  simp only [fpElem0, mt (Val.isNan_iff _).1 h, Bool.false_eq_true, if_false]
  rfl

end

/-! ### The statement -/

/-- Settles O33: each clause is the operation's equation for the values it names, with .SAT put on by the kind of its result. -/
theorem floatElements : Obligations.FloatElements := by
  unfold Obligations.FloatElements
  intro ty rm sat rho r a b c hty _ _ _ el v nan sig inf zero invalid quiet flags infinite rounds
  have hS := specialPatterns hty
  have two : ∀ op ∈ [FpOp.add, .sub, .div, .min, .max, .mul], quiet op [a, b] ∧ flags op [a, b] := fun op hop =>
    ⟨fun hz => (quiet_flags hS hz (fpElem0_nan_two hop)).1, fun hz => (quiet_flags hS hz (fpElem0_nan_two hop)).2⟩
  have one : ∀ op ∈ [FpOp.abs, .neg, .sqrt], quiet op [a] ∧ flags op [a] := fun op hop =>
    ⟨fun hz => (quiet_flags hS hz (fpElem0_nan_one hop)).1, fun hz => (quiet_flags hS hz (fpElem0_nan_one hop)).2⟩
  have bad : badProduct (v a) (v b) = true ↔ (zero a ∧ ∃ n, inf b n) ∨ (∃ n, inf a n) ∧ zero b := badProduct_iff _ _
  have invalidProduct : badProduct (v a) (v b) = true → ∀ op ∈ [FpOp.mul, .fma, .fms, .fnma], invalid op := fun h op hop =>
    fpElem_of_nan hS (fpElem0_badProduct h hop)
  have three : ∀ op ∈ [FpOp.fma, .fms, .fnma], quiet op [a, b, c] ∧
      (¬ (zero a ∧ ∃ n, inf b n) → ¬ ((∃ n, inf a n) ∧ zero b) → flags op [a, b, c]) := fun op hop => by
    refine ⟨fun hz => ?_, fun hzi hiz hz => ?_⟩
    · by_cases hbad : badProduct (v a) (v b) = true
      · exact congrArg Rd.bits (invalidProduct hbad op (List.mem_cons_of_mem _ hop))
      · exact (quiet_flags hS hz (fpElem0_nan_three hop (Bool.eq_false_of_not_eq_true hbad))).1
    · have hbad : ¬ badProduct (v a) (v b) = true := fun h => (bad.1 h).elim hzi hiz
      exact (quiet_flags hS hz (fpElem0_nan_three hop (Bool.eq_false_of_not_eq_true hbad))).2
  refine ⟨fun op hop => two op ?_, (two .mul ?_).1, (two .mul ?_).2, one, three, fun m n ha hb => ⟨fun hne => ?_, fun he => ⟨?_, ?_⟩, fun hne => ?_, ?_, ?_⟩,
    fun h => invalidProduct (bad.2 h), fun ⟨x, ha, hx⟩ ⟨y, hb, hy⟩ => ?_, fun x y ha hb hx hy => ?_, fun x n ha hb => ⟨?_, ?_, ?_⟩,
    fun m y ha hb => ⟨?_, ?_, ?_, fun hy => ?_⟩, fun x n ha hb hx => ?_, fun x ha hx hneg => ?_, fun ha => ?_, fun ha => ?_, fun x ha hx => ?_,
    fun x y ha hb => ⟨?_, ?_, ?_, fun hy => ?_, fun z hc hz => ⟨?_, ?_, ?_⟩⟩, fun hsat x y ha hb => ?_, fun hnan hsat => ?_⟩
  · exact List.mem_append_left [FpOp.mul] hop
  · decide
  · decide
  · exact fpElem_of_nan hS ((fpElem0_add_infs ha hb).trans (if_neg hne))
  · exact fpElem_of_nan hS ((fpElem0_sub_infs ha hb).trans (if_neg (by simp [he])))
  · exact fpElem_of_inf hS ((fpElem0_add_infs ha hb).trans (if_pos he))
  · exact fpElem_of_inf hS ((fpElem0_sub_infs ha hb).trans (if_pos (Bool.eq_not.2 hne)))
  · exact fpElem_of_nan hS (fpElem0_div_inf_inf ha hb)
  · exact fpElem_of_inf hS (fpElem0_mul_infs ha hb)
  · exact fpElem_of_nan hS ((fpElem0_div_num ha hb).trans ((if_pos hy).trans (if_pos hx)))
  · exact fpElem_of_inf hS ((fpElem0_div_num ha hb).trans ((if_pos hy).trans (if_neg hx)))
  · exact fpElem_of_zero hS (fpElem0_div_num_inf ha hb)
  · exact fpElem_of_inf hS (fpElem0_add_num_inf ha hb)
  · exact fpElem_of_inf hS (fpElem0_sub_num_inf ha hb)
  · exact fpElem_of_inf hS (fpElem0_div_inf_num ha hb)
  · exact fpElem_of_inf hS (fpElem0_add_inf_num ha hb)
  · exact fpElem_of_inf hS (fpElem0_sub_inf_num ha hb)
  · exact fpElem_of_inf hS (fpElem0_mul_inf_num ha hb hy)
  · exact fpElem_of_inf hS (fpElem0_mul_num_inf ha hb hx)
  · exact fpElem_of_nan hS ((fpElem0_sqrt_num ha).trans ((if_neg hx).trans (if_pos hneg)))
  · exact fpElem_of_nan hS (fpElem0_sqrt_inf ha)
  · exact fpElem_of_inf hS (fpElem0_sqrt_inf ha)
  · exact fpElem_of_zero hS ((fpElem0_sqrt_num ha).trans (if_pos hx))
  · exact fpElem_of_round (fpElem0_add_num ha hb)
  · exact fpElem_of_round (fpElem0_sub_num ha hb)
  · exact fpElem_of_round (fpElem0_mul_num ha hb)
  · exact fpElem_of_round ((fpElem0_div_num ha hb).trans (if_neg hy))
  · exact fpElem_of_round (fpElem0_fma_num ha hb hc hz)
  · exact fpElem_of_round (fpElem0_fms_num ha hb hc hz)
  · exact fpElem_of_round (fpElem0_fnma_num ha hb hc hz)
  · have hmin : el .min = _ := (fpElem_unsat hsat).trans (fpElem0_min_num ha hb)
    have hmax : el .max = _ := (fpElem_unsat hsat).trans (fpElem0_max_num ha hb)
    exact ⟨congrArg Rd.bits hmin, congrArg Rd.bits hmax, congrArg Rd.fl hmin, congrArg Rd.fl hmax⟩
  · exact ⟨congrArg Rd.bits ((fpElem_unsat hsat).trans (fpElem0_abs hnan)), congrArg Rd.bits ((fpElem_unsat hsat).trans (fpElem0_neg hnan))⟩

end Sys2Proof.Machine
end

section
/-! SUPPORT. Fields and codes of the instruction words (R62, R64, R66): where each format puts its fields, and that the code of a value names that value. -/

namespace Sys2Proof

/-! ### Fields -/

/-- A field inside a field. -/
theorem fld_fld (w : Nat) {lo n lo' n' : Nat} (h : lo' + n' ≤ n) : fld (fld w lo n) lo' n' = fld w (lo + lo') n' := by
  unfold fld
  rw [← Nat.sub_add_cancel (Nat.le_trans (Nat.le_add_right lo' n') h), Nat.add_comm, pow_add, Nat.mod_mul_right_div_self, Nat.div_div_eq_div_mul, ← pow_add]
  exact Nat.mod_mod_of_dvd _ (pow_dvd_pow 2 (by omega))

/-- The lowest bits of a word, by the field that they begin. -/
theorem fld_of_low {w n x lo' n' : Nat} (hx : fld w 0 n = x) (h : lo' + n' ≤ n) : fld w lo' n' = fld x lo' n' := by
  rw [← hx, fld_fld w h, Nat.zero_add]

theorem fld_of_lt {x n : Nat} (h : x < 2 ^ n) : fld x 0 n = x := by
  rw [fld, pow_zero, Nat.div_one, Nat.mod_eq_of_lt h]

/-- A value that fits a narrower field is read by it. -/
theorem fld_narrow {w lo n x : Nat} (n' : Nat) (h : fld w lo n = x) (hn : n' ≤ n) (hx : x < 2 ^ n') : fld w lo n' = x := by
  rw [← Nat.add_zero lo, ← fld_fld w (n := n) (by omega), h, fld_of_lt hx]

theorem Bool.bit_lt (b : Bool) : Bool.bit b < 2 ^ 1 := by cases b <;> decide

theorem Bool.bit_true : Bool.bit true = 1 := rfl
theorem Bool.bit_false : Bool.bit false = 0 := rfl

/-- A flag of a field value, by its place. -/
theorem bitAt_of_fld {w i : Nat} {b : Bool} (h : fld w i 1 = Bool.bit b) : bitAt w i = b := by
  rw [bitAt, h]; cases b <;> rfl

/-! ### Codes -/

@[simp] theorem ElemTy.code_lt (t : ElemTy) : t.code < 16 := by cases t <;> decide
@[simp] theorem ElemTy.ofCode_code (t : ElemTy) : ElemTy.ofCode t.code = t := by cases t <;> rfl
@[simp] theorem RM.code_lt (m : RM) : m.code < 8 := by cases m <;> decide
@[simp] theorem RM.ofCode_code (m : RM) : RM.ofCode m.code = m := by cases m <;> rfl
@[simp] theorem Space.code_lt (s : Space) : s.code < 6 := by cases s <;> decide
@[simp] theorem ISize.code_lt (s : ISize) : s.code < 8 := by cases s <;> decide
@[simp] theorem ISize.ofCode_code (s : ISize) : ISize.ofCode s.code = some s := by cases s <;> rfl
@[simp] theorem Cond.code_lt (c : Cond) : c.code < 8 := by cases c <;> decide
@[simp] theorem Cond.ofCode_code (c : Cond) : Cond.ofCode c.code = some c := by cases c <;> rfl
@[simp] theorem BCond.code_lt (c : BCond) : c.code < 16 := by
  cases c with
  | always => decide
  | cmp c => exact Nat.lt_of_lt_of_le (Nat.succ_lt_succ (Cond.code_lt c)) (by decide)
@[simp] theorem BCond.ofCode_code (c : BCond) : BCond.ofCode c.code = some c := by
  cases c with
  | always => rfl
  | cmp c => simp [BCond.code, BCond.ofCode]
@[simp] theorem LdSize.code_lt (s : LdSize) : s.code < 256 := by cases s <;> decide
@[simp] theorem LdSize.ofCode_code (s : LdSize) : LdSize.ofCode s.code = some s := by cases s <;> rfl
@[simp] theorem StSize.code_lt (s : StSize) : s.code < 256 := by cases s <;> decide
@[simp] theorem StSize.ofCode_code (s : StSize) : StSize.ofCode s.code = some s := by cases s <;> rfl
@[simp] theorem VCond.code_lt (c : VCond) : c.code < 8 := by cases c <;> decide
@[simp] theorem VCond.ofCode_code (c : VCond) : VCond.ofCode c.code = some c := by cases c <;> rfl
@[simp] theorem Scope.code_lt (s : Scope) : s.code < 4 := by cases s <;> decide
@[simp] theorem Scope.ofCode_code (s : Scope) : Scope.ofCode s.code = s := by cases s <;> rfl

@[simp] theorem FenceFlags.code_lt (f : FenceFlags) : f.code < 64 := by
  rcases f with ⟨v, h, cl, hs, pr, e⟩
  have := Bool.bit_lt v; have := Bool.bit_lt h; have := Bool.bit_lt cl; have := Bool.bit_lt hs; have := Bool.bit_lt pr; have := Bool.bit_lt e
  simp only [FenceFlags.code]
  omega
@[simp] theorem FenceFlags.ofCode_code (f : FenceFlags) : FenceFlags.ofCode f.code = f := by
  rcases f with ⟨v, h, cl, hs, pr, e⟩
  revert v h cl hs pr e
  decide

@[simp] theorem XOp.code_lt (a : XOp) : a.code < 256 := by
  cases a <;> simp only [XOp.code] <;> omega
@[simp] theorem XOp.ofCode_code (a : XOp) : XOp.ofCode a.code = some a := by
  cases a with
  | v n => rw [XOp.code, XOp.ofCode, if_pos n.isLt, Fin.ofNat_val_eq_self]
  | pop q => rw [XOp.code, XOp.ofCode, if_neg (by omega), if_pos (by omega), Nat.add_sub_cancel_left, Fin.ofNat_val_eq_self]
  | peek q => rw [XOp.code, XOp.ofCode, if_neg (by omega), if_neg (by omega), if_pos (by omega), Nat.add_sub_cancel_left, Fin.ofNat_val_eq_self]
  | s n =>
    rw [XOp.code, XOp.ofCode, if_neg (by omega), if_neg (by omega), if_neg (by omega), if_neg (by omega), if_pos (by omega), Nat.add_sub_cancel_left,
      Fin.ofNat_val_eq_self]
  | k n =>
    rw [XOp.code, XOp.ofCode, if_neg (by omega), if_neg (by omega), if_neg (by omega), if_neg (by omega), if_neg (by omega), if_pos (by omega),
      Nat.add_sub_cancel_left, Fin.ofNat_val_eq_self]

@[simp] theorem XDst.code_lt (d : XDst) : d.code < 256 := by
  cases d <;> simp only [XDst.code] <;> omega
@[simp] theorem XDst.ofCode_code (d : XDst) : XDst.ofCode d.code = some d := by
  cases d with
  | v n => rw [XDst.code, XDst.ofCode, if_pos n.isLt, Fin.ofNat_val_eq_self]
  | sq q => rw [XDst.code, XDst.ofCode, if_neg (by omega), if_neg (by omega), if_pos (by omega), Nat.add_sub_cancel_left, Fin.ofNat_val_eq_self]
  | s n =>
    rw [XDst.code, XDst.ofCode, if_neg (by omega), if_neg (by omega), if_neg (by omega), if_neg (by omega), if_pos (by omega), Nat.add_sub_cancel_left,
      Fin.ofNat_val_eq_self]

theorem Hatching.code_le (h : Hatching) : h.code < 2 ^ 16 ∧ h.code % 2 ^ 6 = 0 := by
  rcases h with ⟨_ | n, _ | m⟩ <;> simp only [Hatching.code] <;> omega

theorem hatching_of_fld {w : Nat} {h : Hatching} (hw : fld w 6 10 = h.code / 2 ^ 6) : hatching w = h := by
  have h15 : fld w 15 1 = fld (h.code / 2 ^ 6) 9 1 := by rw [← hw, fld_fld w (by omega)]
  have h11 : fld w 11 4 = fld (h.code / 2 ^ 6) 5 4 := by rw [← hw, fld_fld w (by omega)]
  have h10 : fld w 10 1 = fld (h.code / 2 ^ 6) 4 1 := by rw [← hw, fld_fld w (by omega)]
  have h6 : fld w 6 4 = fld (h.code / 2 ^ 6) 0 4 := by rw [← hw, fld_fld w (by omega)]
  simp only [hatching, bitAt, h15, h11, h10, h6]
  clear h15 h11 h10 h6 hw
  rcases h with ⟨_ | n, _ | m⟩
  · decide
  · revert m; decide
  · revert n; decide
  · revert n m; decide

/-! ### The formats of R64 -/

/-- The opcode of a word: it has 64 bits, and MAJ and MIN are these (R62). -/
structure HasOpc (w maj min : Nat) : Prop where
  lt : w < 2 ^ 64
  maj : fld w 58 6 = maj
  min : fld w 50 8 = min

/-- A word with these fields in format A3. -/
structure HasA3 (w maj min d a b sz imm : Nat) : Prop extends HasOpc w maj min where
  d : fld w 45 5 = d
  a : fld w 40 5 = a
  b : fld w 35 5 = b
  sz : fld w 32 3 = sz
  imm : fld w 0 32 = imm

/-- A word with these fields in format AM. -/
structure HasAM (w maj min d base idx sc md disp : Nat) : Prop extends HasOpc w maj min where
  d : fld w 45 5 = d
  base : fld w 40 5 = base
  idx : fld w 35 5 = idx
  sc : fld w 33 2 = sc
  md : fld w 28 5 = md
  disp : fld w 0 28 = disp

/-- A word with these fields in format AB. -/
structure HasAB (w maj min a b cond off : Nat) : Prop extends HasOpc w maj min where
  a : fld w 45 5 = a
  b : fld w 40 5 = b
  cond : fld w 36 4 = cond
  off : fld w 0 36 = off

/-- A word with these fields in format XV. -/
structure HasXV (w maj min g ty rm d a b c xmod : Nat) : Prop extends HasOpc w maj min where
  g : fld w 46 4 = g
  ty : fld w 42 4 = ty
  rm : fld w 39 3 = rm
  d : fld w 31 8 = d
  a : fld w 23 8 = a
  b : fld w 15 8 = b
  c : fld w 7 8 = c
  xmod : fld w 0 7 = xmod

/-- A word with these fields in format XI. -/
structure HasXI (w maj min g ty d a imm : Nat) : Prop extends HasOpc w maj min where
  g : fld w 46 4 = g
  ty : fld w 42 4 = ty
  d : fld w 34 8 = d
  a : fld w 26 8 = a
  imm : fld w 0 26 = imm

/-- A word with these fields in format E. -/
structure HasE (w maj min x y r z n m sd acc : Nat) (hk : Hatching) (flags : Nat) : Prop extends HasOpc w maj min where
  x : fld w 45 5 = x
  y : fld w 40 5 = y
  r : fld w 35 5 = r
  z : fld w 30 5 = z
  n : fld w 24 6 = n
  m : fld w 22 2 = m
  sd : fld w 19 3 = sd
  acc : fld w 16 3 = acc
  hk : hatching w = hk
  flags : fld w 0 6 = flags

/-- A word with this payload in format P. -/
structure HasP (w maj min payload : Nat) : Prop extends HasOpc w maj min where
  payload : fld w 0 50 = payload

section
variable {maj min : Nat} (hmaj : maj < 64) (hmin : min < 256)
include hmaj hmin

theorem fmtA3_fields {d a b sz imm : Nat} (hf : d < 32 ∧ a < 32 ∧ b < 32 ∧ sz < 8 ∧ imm < 2 ^ 32) :
    HasA3 (fmtA3 maj min d a b sz imm) maj min d a b sz imm := by
  constructor
  · constructor <;> simp only [fmtA3, opc, fld] <;> omega
  all_goals simp only [fmtA3, opc, fld]; omega

theorem fmtAM_fields {d base idx sc md disp : Nat} (hf : d < 32 ∧ base < 32 ∧ idx < 32 ∧ sc < 4 ∧ md < 32 ∧ disp < 2 ^ 28) :
    HasAM (fmtAM maj min d base idx sc md disp) maj min d base idx sc md disp := by
  constructor
  · constructor <;> simp only [fmtAM, opc, fld] <;> omega
  all_goals simp only [fmtAM, opc, fld]; omega

theorem fmtAB_fields {a b cond off : Nat} (hf : a < 32 ∧ b < 32 ∧ cond < 16 ∧ off < 2 ^ 36) : HasAB (fmtAB maj min a b cond off) maj min a b cond off := by
  constructor
  · constructor <;> simp only [fmtAB, opc, fld] <;> omega
  all_goals simp only [fmtAB, opc, fld]; omega

theorem fmtXV_fields {g ty rm d a b c xmod : Nat} (hf : g < 16 ∧ ty < 16 ∧ rm < 8 ∧ d < 256 ∧ a < 256 ∧ b < 256 ∧ c < 256 ∧ xmod < 128) :
    HasXV (fmtXV maj min g ty rm d a b c xmod) maj min g ty rm d a b c xmod := by
  constructor
  · constructor <;> simp only [fmtXV, opc, fld] <;> omega
  all_goals simp only [fmtXV, opc, fld]; omega

theorem fmtXI_fields {g ty d a imm : Nat} (hf : g < 16 ∧ ty < 16 ∧ d < 256 ∧ a < 256 ∧ imm < 2 ^ 26) :
    HasXI (fmtXI maj min g ty d a imm) maj min g ty d a imm := by
  constructor
  · constructor <;> simp only [fmtXI, opc, fld] <;> omega
  all_goals simp only [fmtXI, opc, fld]; omega

theorem fmtE_fields {x y r z n m sd acc flags : Nat} (hk : Hatching)
    (hf : x < 32 ∧ y < 32 ∧ r < 32 ∧ z < 32 ∧ n < 64 ∧ m < 4 ∧ sd < 8 ∧ acc < 8 ∧ flags < 64) :
    HasE (fmtE maj min x y r z n m sd acc hk flags) maj min x y r z n m sd acc hk flags := by
  obtain ⟨hlt, hmod⟩ := hk.code_le
  constructor
  case hk => exact hatching_of_fld (by simp only [fmtE, opc, fld]; omega)
  · constructor <;> simp only [fmtE, opc, fld] <;> omega
  all_goals simp only [fmtE, opc, fld]; omega

theorem fmtP_fields {payload : Nat} (hp : payload < 2 ^ 50) : HasP (fmtP maj min payload) maj min payload := by
  constructor
  · constructor <;> simp only [fmtP, opc, fld] <;> omega
  · simp only [fmtP, opc, fld]; omega

end

end Sys2Proof
end

section
/-! SUPPORT. The opcode map read as equations (R75), and the word of every instruction read back by the parser of its opcode. -/

namespace Sys2Proof

/-! ### The opcode map (R75) -/

/-- A word of 64 bits whose fields are those of the instruction. -/
def Reads (w : Nat) (i : Instr) : Prop := w < 2 ^ 64 ∧ parse w = .ok i

/-- The words with this MAJ and MIN are parsed by p. -/
structure Opcode (maj min : Nat) (p : Nat → Except DecodeErr Instr) : Prop where
  maj_lt : maj < 64
  min_lt : min < 256
  parse : ∀ {w}, HasOpc w maj min → parse w = p w

/-! One row for each MAJ. `delta` opens the table as it stands, whose equation lemmas would be one for each of its 49 rows. -/

section
variable {min : Nat} (hmin : min < 256)
include hmin

theorem opcode_01 : Opcode 0x01 min (parse01 · min) := ⟨by decide, hmin, fun h => by delta parse; rw [h.maj, h.min]; rfl⟩
theorem opcode_02 : Opcode 0x02 min (parse02 · min) := ⟨by decide, hmin, fun h => by delta parse; rw [h.maj, h.min]; rfl⟩
theorem opcode_03 : Opcode 0x03 min (parse03 · min) := ⟨by decide, hmin, fun h => by delta parse; rw [h.maj, h.min]; rfl⟩
theorem opcode_04 : Opcode 0x04 min (parse04 · min) := ⟨by decide, hmin, fun h => by delta parse; rw [h.maj, h.min]; rfl⟩
theorem opcode_05 : Opcode 0x05 min (parseLd · min fun sz _ d m => .ldSp sz d m) := ⟨by decide, hmin, fun h => by delta parse; rw [h.maj, h.min]; rfl⟩
theorem opcode_06 : Opcode 0x06 min (parseSt · min fun sz _ d m => .stSp sz d m) := ⟨by decide, hmin, fun h => by delta parse; rw [h.maj, h.min]; rfl⟩
theorem opcode_07 : Opcode 0x07 min (parseLd · min .ldAt) := ⟨by decide, hmin, fun h => by delta parse; rw [h.maj, h.min]; rfl⟩
theorem opcode_08 : Opcode 0x08 min (parseSt · min .stAt) := ⟨by decide, hmin, fun h => by delta parse; rw [h.maj, h.min]; rfl⟩
theorem opcode_09 : Opcode 0x09 min (parseLd · min .ldRa) := ⟨by decide, hmin, fun h => by delta parse; rw [h.maj, h.min]; rfl⟩
theorem opcode_0a : Opcode 0x0a min (parseSt · min .stRa) := ⟨by decide, hmin, fun h => by delta parse; rw [h.maj, h.min]; rfl⟩
theorem opcode_0b : Opcode 0x0b min (parseLd · min .ldCl) := ⟨by decide, hmin, fun h => by delta parse; rw [h.maj, h.min]; rfl⟩
theorem opcode_0c : Opcode 0x0c min (parseSt · min .stCl) := ⟨by decide, hmin, fun h => by delta parse; rw [h.maj, h.min]; rfl⟩
theorem opcode_0d : Opcode 0x0d min (parseLd · min .ldHs) := ⟨by decide, hmin, fun h => by delta parse; rw [h.maj, h.min]; rfl⟩
theorem opcode_0e : Opcode 0x0e min (parseSt · min .stHs) := ⟨by decide, hmin, fun h => by delta parse; rw [h.maj, h.min]; rfl⟩
theorem opcode_0f : Opcode 0x0f min (parseLd · min .ldPr) := ⟨by decide, hmin, fun h => by delta parse; rw [h.maj, h.min]; rfl⟩
theorem opcode_10 : Opcode 0x10 min (parseSt · min .stPr) := ⟨by decide, hmin, fun h => by delta parse; rw [h.maj, h.min]; rfl⟩
theorem opcode_11 : Opcode 0x11 min (parseAmo · min) := ⟨by decide, hmin, fun h => by delta parse; rw [h.maj, h.min]; rfl⟩
theorem opcode_12 : Opcode 0x12 min (parse12 · min) := ⟨by decide, hmin, fun h => by delta parse; rw [h.maj, h.min]; rfl⟩
theorem opcode_13 : Opcode 0x13 min (parse13 · min) := ⟨by decide, hmin, fun h => by delta parse; rw [h.maj, h.min]; rfl⟩
theorem opcode_14 : Opcode 0x14 min (parse14 · min) := ⟨by decide, hmin, fun h => by delta parse; rw [h.maj, h.min]; rfl⟩
theorem opcode_15 : Opcode 0x15 min (parse15 · min) := ⟨by decide, hmin, fun h => by delta parse; rw [h.maj, h.min]; rfl⟩
theorem opcode_16 : Opcode 0x16 min (parse16 · min) := ⟨by decide, hmin, fun h => by delta parse; rw [h.maj, h.min]; rfl⟩
theorem opcode_17 : Opcode 0x17 min (parse17 · min) := ⟨by decide, hmin, fun h => by delta parse; rw [h.maj, h.min]; rfl⟩
theorem opcode_20 : Opcode 0x20 min (parse20 · min) := ⟨by decide, hmin, fun h => by delta parse; rw [h.maj, h.min]; rfl⟩
theorem opcode_21 : Opcode 0x21 min (parse21 · min) := ⟨by decide, hmin, fun h => by delta parse; rw [h.maj, h.min]; rfl⟩
theorem opcode_22 : Opcode 0x22 min (parse22 · min) := ⟨by decide, hmin, fun h => by delta parse; rw [h.maj, h.min]; rfl⟩
theorem opcode_23 : Opcode 0x23 min (parse23 · min) := ⟨by decide, hmin, fun h => by delta parse; rw [h.maj, h.min]; rfl⟩
theorem opcode_24 : Opcode 0x24 min (parse24 · min) := ⟨by decide, hmin, fun h => by delta parse; rw [h.maj, h.min]; rfl⟩
theorem opcode_25 : Opcode 0x25 min (parse25 · min) := ⟨by decide, hmin, fun h => by delta parse; rw [h.maj, h.min]; rfl⟩
theorem opcode_26 : Opcode 0x26 min (parse26 · min) := ⟨by decide, hmin, fun h => by delta parse; rw [h.maj, h.min]; rfl⟩
theorem opcode_27 : Opcode 0x27 min (parse27 · min) := ⟨by decide, hmin, fun h => by delta parse; rw [h.maj, h.min]; rfl⟩
theorem opcode_28 : Opcode 0x28 min (parse28 · min) := ⟨by decide, hmin, fun h => by delta parse; rw [h.maj, h.min]; rfl⟩
theorem opcode_29 : Opcode 0x29 min (parse29 · min) := ⟨by decide, hmin, fun h => by delta parse; rw [h.maj, h.min]; rfl⟩
theorem opcode_2a : Opcode 0x2a min (parse2A · min) := ⟨by decide, hmin, fun h => by delta parse; rw [h.maj, h.min]; rfl⟩
theorem opcode_2b : Opcode 0x2b min (parse2B · min) := ⟨by decide, hmin, fun h => by delta parse; rw [h.maj, h.min]; rfl⟩
theorem opcode_30 : Opcode 0x30 min (parse30 · min) := ⟨by decide, hmin, fun h => by delta parse; rw [h.maj, h.min]; rfl⟩
theorem opcode_31 : Opcode 0x31 min (parse31 · min) := ⟨by decide, hmin, fun h => by delta parse; rw [h.maj, h.min]; rfl⟩
theorem opcode_32 : Opcode 0x32 min (parse32 · min) := ⟨by decide, hmin, fun h => by delta parse; rw [h.maj, h.min]; rfl⟩
theorem opcode_33 : Opcode 0x33 min (parse33 · min) := ⟨by decide, hmin, fun h => by delta parse; rw [h.maj, h.min]; rfl⟩
theorem opcode_34 : Opcode 0x34 min (parse34 · min) := ⟨by decide, hmin, fun h => by delta parse; rw [h.maj, h.min]; rfl⟩
theorem opcode_35 : Opcode 0x35 min (parse35 · min) := ⟨by decide, hmin, fun h => by delta parse; rw [h.maj, h.min]; rfl⟩
theorem opcode_36 : Opcode 0x36 min (parse36 · min) := ⟨by decide, hmin, fun h => by delta parse; rw [h.maj, h.min]; rfl⟩
theorem opcode_37 : Opcode 0x37 min (parse37 · min) := ⟨by decide, hmin, fun h => by delta parse; rw [h.maj, h.min]; rfl⟩
theorem opcode_38 : Opcode 0x38 min (parse38 · min) := ⟨by decide, hmin, fun h => by delta parse; rw [h.maj, h.min]; rfl⟩
theorem opcode_39 : Opcode 0x39 min (parse39 · min) := ⟨by decide, hmin, fun h => by delta parse; rw [h.maj, h.min]; rfl⟩
theorem opcode_3a : Opcode 0x3a min (parse3A · min) := ⟨by decide, hmin, fun h => by delta parse; rw [h.maj, h.min]; rfl⟩
theorem opcode_3b : Opcode 0x3b min (parse3B · min) := ⟨by decide, hmin, fun h => by delta parse; rw [h.maj, h.min]; rfl⟩
theorem opcode_3c : Opcode 0x3c min (parse3C · min) := ⟨by decide, hmin, fun h => by delta parse; rw [h.maj, h.min]; rfl⟩
theorem opcode_3d : Opcode 0x3d min (parse3D · min) := ⟨by decide, hmin, fun h => by delta parse; rw [h.maj, h.min]; rfl⟩

end

/-! ### A word of each format -/

section
variable {maj min : Nat} {p : Nat → Except DecodeErr Instr} {i : Instr}

theorem Opcode.reads {w : Nat} (op : Opcode maj min p) (h : HasOpc w maj min) (hp : p w = .ok i) : Reads w i :=
  ⟨h.lt, (op.parse h).trans hp⟩

theorem Opcode.readsA3 {d a b sz imm : Nat} (op : Opcode maj min p) (hf : d < 32 ∧ a < 32 ∧ b < 32 ∧ sz < 8 ∧ imm < 2 ^ 32)
    (hp : ∀ w, HasA3 w maj min d a b sz imm → p w = .ok i) : Reads (fmtA3 maj min d a b sz imm) i :=
  let h := fmtA3_fields op.maj_lt op.min_lt hf
  op.reads h.toHasOpc (hp _ h)

theorem Opcode.readsAM {d base idx sc md disp : Nat} (op : Opcode maj min p) (hf : d < 32 ∧ base < 32 ∧ idx < 32 ∧ sc < 4 ∧ md < 32 ∧ disp < 2 ^ 28)
    (hp : ∀ w, HasAM w maj min d base idx sc md disp → p w = .ok i) : Reads (fmtAM maj min d base idx sc md disp) i :=
  let h := fmtAM_fields op.maj_lt op.min_lt hf
  op.reads h.toHasOpc (hp _ h)

theorem Opcode.readsAB {a b cond off : Nat} (op : Opcode maj min p) (hf : a < 32 ∧ b < 32 ∧ cond < 16 ∧ off < 2 ^ 36)
    (hp : ∀ w, HasAB w maj min a b cond off → p w = .ok i) : Reads (fmtAB maj min a b cond off) i :=
  let h := fmtAB_fields op.maj_lt op.min_lt hf
  op.reads h.toHasOpc (hp _ h)

theorem Opcode.readsXV {g ty rm d a b c xmod : Nat} (op : Opcode maj min p)
    (hf : g < 16 ∧ ty < 16 ∧ rm < 8 ∧ d < 256 ∧ a < 256 ∧ b < 256 ∧ c < 256 ∧ xmod < 128)
    (hp : ∀ w, HasXV w maj min g ty rm d a b c xmod → p w = .ok i) : Reads (fmtXV maj min g ty rm d a b c xmod) i :=
  let h := fmtXV_fields op.maj_lt op.min_lt hf
  op.reads h.toHasOpc (hp _ h)

theorem Opcode.readsXI {g ty d a imm : Nat} (op : Opcode maj min p) (hf : g < 16 ∧ ty < 16 ∧ d < 256 ∧ a < 256 ∧ imm < 2 ^ 26)
    (hp : ∀ w, HasXI w maj min g ty d a imm → p w = .ok i) : Reads (fmtXI maj min g ty d a imm) i :=
  let h := fmtXI_fields op.maj_lt op.min_lt hf
  op.reads h.toHasOpc (hp _ h)

theorem Opcode.readsE {x y r z n m sd acc flags : Nat} {hk : Hatching} (op : Opcode maj min p)
    (hf : x < 32 ∧ y < 32 ∧ r < 32 ∧ z < 32 ∧ n < 64 ∧ m < 4 ∧ sd < 8 ∧ acc < 8 ∧ flags < 64)
    (hp : ∀ w, HasE w maj min x y r z n m sd acc hk flags → p w = .ok i) : Reads (fmtE maj min x y r z n m sd acc hk flags) i :=
  let h := fmtE_fields op.maj_lt op.min_lt hk hf
  op.reads h.toHasOpc (hp _ h)

theorem Opcode.readsP {payload : Nat} (op : Opcode maj min p) (hf : payload < 2 ^ 50)
    (hp : ∀ w, HasP w maj min payload → p w = .ok i) : Reads (fmtP maj min payload) i :=
  let h := fmtP_fields op.maj_lt op.min_lt hf
  op.reads h.toHasOpc (hp _ h)

end

/-! ### Fields as the operands that they name -/

theorem reg_of_fld {w lo : Nat} {x : GReg} (h : fld w lo 5 = x.val) : reg w lo = x := by rw [reg, h, Fin.ofNat_val_eq_self]

theorem HasAM.memOp {w maj min d md : Nat} {m : MemOp} (h : HasAM w maj min d m.base.val m.idx.val m.sc.val md m.disp.toNat) : memOp w = m := by
  rw [Sys2Proof.memOp, reg_of_fld h.base, reg_of_fld h.idx, h.sc, h.disp, Fin.ofNat_val_eq_self, BitVec.ofNat_toNat, BitVec.setWidth_eq]

theorem HasE.eCmd {w maj min n m sd acc flags : Nat} {c : ECmd} (h : HasE w maj min c.x.val c.y.val c.w.val c.z.val n m sd acc c.hk flags) : eCmd w = c := by
  rw [Sys2Proof.eCmd, reg_of_fld h.x, reg_of_fld h.y, reg_of_fld h.r, reg_of_fld h.z, h.hk]

/-! ### The A-pipe's shapes -/

section
variable {maj min : Nat}

theorem reads_reg3 {k : ISize → GReg → GReg → GReg → Instr} (op : Opcode maj min (parseReg3 · k)) (sz : ISize) (d a b : GReg) :
    Reads (fmtA3 maj min d.val a.val b.val sz.code 0) (k sz d a b) :=
  op.readsA3 (by have := sz.code_lt; omega) fun w h => by simp only [parseReg3, h.sz, ISize.ofCode_code, need, reg_of_fld h.d, reg_of_fld h.a, reg_of_fld h.b]

theorem reads_imm {k : ISize → GReg → GReg → BitVec 32 → Instr} (op : Opcode maj min (parseImm · k)) (sz : ISize) (d a : GReg) (imm : BitVec 32) :
    Reads (fmtA3 maj min d.val a.val 0 sz.code imm.toNat) (k sz d a imm) :=
  op.readsA3 (by have := sz.code_lt; omega) fun w h => by simp [parseImm, imm32, h.sz, h.imm, need, reg_of_fld h.d, reg_of_fld h.a]

theorem reads_shift {k : ISize → GReg → GReg → Fin 64 → Instr} (op : Opcode maj min (parseShift · k)) (sz : ISize) (d a : GReg) (sh : Fin 64) :
    Reads (fmtA3 maj min d.val a.val 0 sz.code sh.val) (k sz d a sh) :=
  op.readsA3 (by have := sz.code_lt; omega) fun w h => by
    have hsh : fld w 0 6 = sh.val := fld_narrow 6 h.imm (by decide) sh.isLt
    simp [parseShift, h.sz, hsh, need, reg_of_fld h.d, reg_of_fld h.a]

/-- The bit of a load, a store, an AMO or a queue form at [28], below a field at [31:29]. -/
theorem HasAM.low_md {w d base idx sc disp : Nat} {b : Bool} {x : Nat} (h : HasAM w maj min d base idx sc (Bool.bit b + 2 * x) disp) : bitAt w 28 = b :=
  bitAt_of_fld (by
    have hb := Bool.bit_lt b
    rw [← fld_fld w (lo := 28) (n := 5) (lo' := 0) (by decide), h.md, fld]
    omega)

theorem HasAM.high_md {w d base idx sc disp : Nat} {b : Bool} {x n : Nat} (h : HasAM w maj min d base idx sc (Bool.bit b + 2 * x) disp) (hx : x < 2 ^ n)
    (hn : 1 + n ≤ 5) : fld w 29 n = x := by
  have hb := Bool.bit_lt b
  rw [← fld_fld w (lo := 28) hn, h.md, fld, pow_one, show (Bool.bit b + 2 * x) / 2 = x by omega, Nat.mod_eq_of_lt hx]

theorem reads_ld {k : LdSize → Bool → GReg → MemOp → Instr} {sz : LdSize} (op : Opcode maj sz.code (parseLd · sz.code k)) (acq : Bool) (d : GReg) (m : MemOp) :
    Reads (m.am maj sz.code d.val (Bool.bit acq)) (k sz acq d m) :=
  op.readsAM (by have := Bool.bit_lt acq; omega) fun w h => by
    have hacq : bitAt w 28 = acq := HasAM.low_md (x := 0) h
    simp only [parseLd, LdSize.ofCode_code, hacq, reg_of_fld h.d, h.memOp]

theorem reads_st {k : StSize → Bool → GReg → MemOp → Instr} {sz : StSize} (op : Opcode maj sz.code (parseSt · sz.code k)) (ms : Bool) (d : GReg) (m : MemOp) :
    Reads (m.am maj sz.code d.val (Bool.bit ms)) (k sz ms d m) :=
  op.readsAM (by have := Bool.bit_lt ms; omega) fun w h => by
    have hms : bitAt w 28 = ms := HasAM.low_md (x := 0) h
    simp only [parseSt, StSize.ofCode_code, hms, reg_of_fld h.d, h.memOp]

end

/-- The ten operations of MAJ 0x11, in each space but the scratchpad (R141). -/
structure AmoRows (spc : Space) : Prop where
  add : ∀ w, parseAmo w (16 * spc.code + 0) = .ok (.amoAdd spc (bitAt w 29) (bitAt w 28) (reg w 45) (memOp w))
  and : ∀ w, parseAmo w (16 * spc.code + 1) = .ok (.amoAnd spc (bitAt w 29) (bitAt w 28) (reg w 45) (memOp w))
  or : ∀ w, parseAmo w (16 * spc.code + 2) = .ok (.amoOr spc (bitAt w 29) (bitAt w 28) (reg w 45) (memOp w))
  xor : ∀ w, parseAmo w (16 * spc.code + 3) = .ok (.amoXor spc (bitAt w 29) (bitAt w 28) (reg w 45) (memOp w))
  min : ∀ w, parseAmo w (16 * spc.code + 4) = .ok (.amoMin spc (bitAt w 29) (bitAt w 28) (reg w 45) (memOp w))
  max : ∀ w, parseAmo w (16 * spc.code + 5) = .ok (.amoMax spc (bitAt w 29) (bitAt w 28) (reg w 45) (memOp w))
  minu : ∀ w, parseAmo w (16 * spc.code + 6) = .ok (.amoMinu spc (bitAt w 29) (bitAt w 28) (reg w 45) (memOp w))
  maxu : ∀ w, parseAmo w (16 * spc.code + 7) = .ok (.amoMaxu spc (bitAt w 29) (bitAt w 28) (reg w 45) (memOp w))
  swap : ∀ w, parseAmo w (16 * spc.code + 8) = .ok (.amoSwap spc (bitAt w 29) (bitAt w 28) (reg w 45) (memOp w))
  cas : ∀ w, parseAmo w (16 * spc.code + 9) =
    .ok (.amoCas spc (bitAt w 29) (bitAt w 28) (reg w 45) (reg w 35) (reg w 40) (BitVec.ofNat 28 (fld w 0 28)))

theorem amoRows {spc : Space} (h : spc ≠ .sp) : AmoRows spc := by
  cases spc with
  | sp => exact absurd rfl h
  | _ => constructor <;> exact fun _ => rfl

theorem reads_amo {spc : Space} {n : Nat} {k : Space → Bool → Bool → GReg → MemOp → Instr} (hn : n < 16)
    (hk : ∀ w, parseAmo w (16 * spc.code + n) = .ok (k spc (bitAt w 29) (bitAt w 28) (reg w 45) (memOp w))) (wd acq : Bool) (d : GReg) (m : MemOp) :
    Reads (m.am 0x11 (16 * spc.code + n) d.val (Bool.bit acq + 2 * Bool.bit wd)) (k spc wd acq d m) :=
  (opcode_11 (by have := spc.code_lt; omega)).readsAM (by have := Bool.bit_lt acq; have := Bool.bit_lt wd; omega) fun w h => by
    rw [hk, bitAt_of_fld (h.high_md (n := 1) (Bool.bit_lt wd) (by decide)), h.low_md, reg_of_fld h.d, h.memOp]

/-! ### Fields of format XV -/

section
variable {w : Nat}

theorem need3_of {β : Type} {f : XDst → XOp → XOp → β} {d : XDst} {a b : XOp} (hd : fld w 31 8 = d.code) (ha : fld w 23 8 = a.code)
    (hb : fld w 15 8 = b.code) : need3 w f = .ok (f d a b) := by
  simp only [need3, hd, ha, hb, XDst.ofCode_code, XOp.ofCode_code]

theorem need4_of {β : Type} {f : XDst → XOp → XOp → XOp → β} {d : XDst} {a b c : XOp} (hd : fld w 31 8 = d.code) (ha : fld w 23 8 = a.code)
    (hb : fld w 15 8 = b.code) (hc : fld w 7 8 = c.code) : need4 w f = .ok (f d a b c) := by
  simp only [need4, hc, XOp.ofCode_code, need3_of hd ha hb]

theorem guard_of_fld {g : Fin 16} (h : fld w 46 4 = g.val) : guard w = g := by rw [guard, h, Fin.ofNat_val_eq_self]
theorem etype_of_fld {t : ElemTy} (h : fld w 42 4 = t.code) : etype w = t := by rw [etype, h, ElemTy.ofCode_code]
theorem srcType_of_fld {t : ElemTy} (h : fld w 0 4 = t.code) : srcType w = t := by rw [srcType, h, ElemTy.ofCode_code]
theorem rmode_of_fld {m : RM} (h : fld w 39 3 = m.code) : rmode w = m := by rw [rmode, h, RM.ofCode_code]
theorem sreg_of_fld {lo : Nat} {r : Fin 32} (h : fld w lo 5 = r.val) : sreg w lo = r := by rw [sreg, h, Fin.ofNat_val_eq_self]
theorem predAt_of_fld {lo : Nat} {p : Fin 16} (h : fld w lo 8 = p.val) : predAt w lo = p := by
  rw [predAt, fld_narrow 4 h (by decide) p.isLt, Fin.ofNat_val_eq_self]

variable {maj min g ty rm d a b c : Nat}

/-- XMOD: the flag .SAT above a field of two bits and one of four. -/
theorem HasXV.mods {xmod y t : Nat} {s : Bool} (h : HasXV w maj min g ty rm d a b c xmod) (hx : xmod = Bool.bit s * 64 + y * 16 + t) (hy : y < 4)
    (ht : t < 16) : bitAt w 6 = s ∧ fld w 4 2 = y ∧ fld w 0 4 = t := by
  have hs := Bool.bit_lt s
  refine ⟨bitAt_of_fld ((fld_of_low h.xmod (by decide)).trans ?_), (fld_of_low h.xmod (by decide)).trans ?_, (fld_of_low h.xmod (by decide)).trans ?_⟩ <;>
    simp only [fld] <;> omega

theorem HasXV.sat {s : Bool} (h : HasXV w maj min g ty rm d a b c (Bool.bit s * 64)) : bitAt w 6 = s :=
  (h.mods (y := 0) (t := 0) (by omega) (by decide) (by decide)).1

@[simp] theorem sat_lt (s : Bool) : Bool.bit s * 64 < 128 := Nat.mul_lt_mul_of_pos_right (Bool.bit_lt s) (by decide)

end

/-! ### The X-pipe's shapes -/

section
variable {maj min : Nat}

theorem reads_fpBin {k : FpBin → Instr} (op : Opcode maj min (parseFpBin · k)) (f : FpBin) :
    Reads (fmtXV maj min f.g.val f.ty.code f.rnd.rm.code f.d.code f.a.code f.b.code f.rnd.src.code (Bool.bit f.sat * 64)) (k f) :=
  op.readsXV (by simp) fun w h => by
    rw [parseFpBin, need4_of h.d h.a h.b h.c, guard_of_fld h.g, etype_of_fld h.ty, rmode_of_fld h.rm, h.sat]

theorem reads_fpFma {k : FpFma → Instr} (op : Opcode maj min (parseFpFma · k)) (f : FpFma) :
    Reads (fmtXV maj min f.g.val f.ty.code f.rm.code f.d.code f.a.code f.b.code f.c.code (Bool.bit f.sat * 64)) (k f) :=
  op.readsXV (by simp) fun w h => by
    rw [parseFpFma, need4_of h.d h.a h.b h.c, guard_of_fld h.g, etype_of_fld h.ty, rmode_of_fld h.rm, h.sat]

theorem reads_two {k : XTwo → Instr} (op : Opcode maj min (parseTwo · k)) (f : XTwo) :
    Reads (fmtXV maj min f.g.val f.ty.code 0 f.d.code f.a.code f.b.code 0 0) (k f) :=
  op.readsXV (by simp) fun w h => by rw [parseTwo, need3_of h.d h.a h.b, guard_of_fld h.g, etype_of_fld h.ty]

theorem reads_one {k : XOne → Instr} (op : Opcode maj min (parseOne · k)) (f : XOne) :
    Reads (fmtXV maj min f.g.val f.ty.code 0 f.d.code f.a.code 0 0 0) (k f) :=
  op.readsXV (by simp) fun w h => by rw [parseOne, need3_of (b := .v 0) h.d h.a h.b, guard_of_fld h.g, etype_of_fld h.ty]

theorem reads_un {k : FpUn → Instr} (op : Opcode maj min (parseUn · k)) (f : FpUn) :
    Reads (fmtXV maj min f.g.val f.ty.code f.rnd.rm.code f.d.code f.a.code 0 f.rnd.src.code (Bool.bit f.sat * 64)) (k f) :=
  op.readsXV (by simp) fun w h => by
    rw [parseUn, need4_of (b := .v 0) h.d h.a h.b h.c, guard_of_fld h.g, etype_of_fld h.ty, rmode_of_fld h.rm, h.sat]

theorem reads_intBin {k : IntBin → Instr} (op : Opcode maj min (parseIntBin · k)) (f : IntBin) :
    Reads (fmtXV maj min f.g.val f.ty.code 0 f.d.code f.a.code f.b.code 0 (Bool.bit f.sat * 64 + Bool.bit f.wide)) (k f) :=
  have hw : Bool.bit f.wide < 16 := Nat.lt_of_lt_of_le (Bool.bit_lt f.wide) (by decide)
  op.readsXV (by have := Bool.bit_lt f.sat; simp; omega) fun w h => by
    obtain ⟨hs, -, ht⟩ := h.mods (s := f.sat) (y := 0) (by omega) (by decide) hw
    have hwide : bitAt w 0 = f.wide := bitAt_of_fld (fld_narrow 1 ht (by decide) (Bool.bit_lt f.wide))
    rw [parseIntBin, need3_of h.d h.a h.b, guard_of_fld h.g, etype_of_fld h.ty, hs, hwide]

theorem reads_cvt {k : CvtArgs → Instr} (op : Opcode maj min (parseCvt · k)) (f : CvtArgs) :
    Reads (fmtXV maj min f.g.val f.ty.code f.rnd.rm.code f.d.code f.a.code 0 f.rnd.src.code (Bool.bit f.sat * 64 + Bool.bit f.log * 16 + f.src.code)) (k f) :=
  have hl : Bool.bit f.log < 4 := Nat.lt_of_lt_of_le (Bool.bit_lt f.log) (by decide)
  op.readsXV (by have := Bool.bit_lt f.sat; have := f.src.code_lt; simp; omega) fun w h => by
    obtain ⟨hs, hy, ht⟩ := h.mods rfl hl f.src.code_lt
    have hlog : bitAt w 4 = f.log := bitAt_of_fld (fld_narrow 1 hy (by decide) (Bool.bit_lt f.log))
    rw [parseCvt, need4_of (b := .v 0) h.d h.a h.b h.c, guard_of_fld h.g, etype_of_fld h.ty, srcType_of_fld ht, rmode_of_fld h.rm, hs, hlog]

theorem reads_blk {k : BlkArgs → Instr} (op : Opcode maj min (parseBlk · k)) (f : BlkArgs) :
    Reads (fmtXV maj min f.g.val f.ty.code f.rnd.rm.code f.d.code f.a.code f.b.code f.rnd.src.code (Bool.bit f.sat * 64 + f.blk.val * 16 + f.src.code)) (k f) :=
  op.readsXV (by have := Bool.bit_lt f.sat; have := f.src.code_lt; simp; omega) fun w h => by
    obtain ⟨hs, hblk, ht⟩ := h.mods rfl f.blk.isLt f.src.code_lt
    rw [parseBlk, need4_of h.d h.a h.b h.c, guard_of_fld h.g, etype_of_fld h.ty, srcType_of_fld ht, rmode_of_fld h.rm, hs, hblk, Fin.ofNat_val_eq_self]

theorem reads_perm {k : Perm3 → Instr} (op : Opcode maj min (parsePerm · k)) (f : Perm3) :
    Reads (fmtXV maj min f.g.val f.ty.code 0 f.d.code f.a.code f.b.code f.c.code 0) (k f) :=
  op.readsXV (by simp) fun w h => by rw [parsePerm, need4_of h.d h.a h.b h.c, guard_of_fld h.g, etype_of_fld h.ty]

theorem reads_sel {k : PermSel → Instr} (op : Opcode maj min (parseSel · k)) (f : PermSel) :
    Reads (fmtXV maj min f.g.val f.ty.code 0 f.d.code f.a.code f.b.code 0 (Bool.bit f.sel)) (k f) :=
  op.readsXV (by have := Bool.bit_lt f.sel; simp; omega) fun w h => by
    have hsel : bitAt w 0 = f.sel := bitAt_of_fld (fld_narrow 1 h.xmod (by decide) (Bool.bit_lt f.sel))
    rw [parseSel, need3_of h.d h.a h.b, guard_of_fld h.g, etype_of_fld h.ty, hsel]

theorem reads_red {k : RedArgs → Instr} (op : Opcode maj min (parseRed · k)) (f : RedArgs) :
    Reads (fmtXV maj min f.g.val f.ty.code f.rm.code f.d.code f.a.code f.b.code 0 (Bool.bit f.sat * 64)) (k f) :=
  op.readsXV (by simp) fun w h => by
    rw [parseRed, need3_of h.d h.a h.b, guard_of_fld h.g, etype_of_fld h.ty, rmode_of_fld h.rm, h.sat]

theorem reads_pred {k : Fin 16 → Fin 16 → Fin 16 → Fin 16 → Instr}
    (op : Opcode maj min fun w => .ok (k (guard w) (predAt w 31) (predAt w 23) (predAt w 15))) (g d a b : Fin 16) :
    Reads (fmtXV maj min g.val 0 0 d.val a.val b.val 0 0) (k g d a b) :=
  op.readsXV (by simp; omega) fun w h => by rw [guard_of_fld h.g, predAt_of_fld h.d, predAt_of_fld h.a, predAt_of_fld h.b]

end

/-! ### The A-pipe's own words -/

theorem imm32_of_fld {w : Nat} {x : BitVec 32} (h : fld w 0 32 = x.toNat) : imm32 w = x := by rw [imm32, h, BitVec.ofNat_toNat, BitVec.setWidth_eq]

theorem off36_of_fld {w : Nat} {x : BitVec 36} (h : fld w 0 36 = x.toNat) : off36 w = x := by rw [off36, h, BitVec.ofNat_toNat, BitVec.setWidth_eq]

theorem ofNat_of_fld {w lo n : Nat} {x : BitVec n} (h : fld w lo n = x.toNat) : BitVec.ofNat n (fld w lo n) = x := by
  rw [h, BitVec.ofNat_toNat, BitVec.setWidth_eq]

theorem reads_cmp (c : Cond) (d a b : GReg) : Reads (Instr.cmp c d a b).word (.cmp c d a b) :=
  (opcode_01 (by decide)).readsA3 (by have := c.code_lt; omega) fun w h => by
    simp only [parse01, h.sz, Cond.ofCode_code, need, reg_of_fld h.d, reg_of_fld h.a, reg_of_fld h.b]

theorem reads_cmpi (c : Cond) (d a : GReg) (imm : BitVec 32) : Reads (Instr.cmpi c d a imm).word (.cmpi c d a imm) :=
  (opcode_02 (by decide)).readsA3 (by have := c.code_lt; omega) fun w h => by
    simp only [parse02, h.sz, Cond.ofCode_code, need, reg_of_fld h.d, reg_of_fld h.a, imm32_of_fld h.imm]

theorem reads_li (d : GReg) (imm : BitVec 32) : Reads (Instr.li d imm).word (.li d imm) :=
  (opcode_02 (by decide)).readsA3 (by omega) fun w h => by simp only [parse02, reg_of_fld h.d, imm32_of_fld h.imm]

theorem reads_br (c : BCond) (a b : GReg) (off : BitVec 36) : Reads (Instr.br c a b off).word (.br c a b off) :=
  (opcode_03 (by decide)).readsAB (by have := c.code_lt; omega) fun w h => by
    simp only [parse03, h.cond, BCond.ofCode_code, need, reg_of_fld h.a, reg_of_fld h.b, off36_of_fld h.off]

theorem reads_call (a : GReg) (off : BitVec 36) : Reads (Instr.call a off).word (.call a off) :=
  (opcode_04 (by decide)).readsAB (by omega) fun w h => by simp only [parse04, reg_of_fld h.a, off36_of_fld h.off]

theorem reads_jr (a : GReg) (imm : BitVec 32) : Reads (Instr.jr a imm).word (.jr a imm) :=
  (opcode_04 (by decide)).readsA3 (by omega) fun w h => by simp only [parse04, reg_of_fld h.a, imm32_of_fld h.imm]

theorem reads_callr (d a : GReg) (imm : BitVec 32) : Reads (Instr.callr d a imm).word (.callr d a imm) :=
  (opcode_04 (by decide)).readsA3 (by omega) fun w h => by simp only [parse04, reg_of_fld h.d, reg_of_fld h.a, imm32_of_fld h.imm]

theorem reads_amoCas {spc : Space} (h : spc ≠ .sp) (wd acq : Bool) (d n base : GReg) (disp : BitVec 28) :
    Reads (Instr.amoCas spc wd acq d n base disp).word (.amoCas spc wd acq d n base disp) :=
  (opcode_11 (by have := spc.code_lt; omega)).readsAM (by have := Bool.bit_lt acq; have := Bool.bit_lt wd; omega) fun w hw => by
    rw [(amoRows h).cas, bitAt_of_fld (hw.high_md (n := 1) (Bool.bit_lt wd) (by decide)), hw.low_md, reg_of_fld hw.d, reg_of_fld hw.idx, reg_of_fld hw.base,
      ofNat_of_fld hw.disp]

theorem reads_waitRd (d a : GReg) : Reads (Instr.waitRd d a).word (.waitRd d a) :=
  (opcode_14 (by decide)).readsA3 (by omega) fun w h => by
    simp only [parse14, fld_narrow 2 h.imm (by decide) (by decide), reg_of_fld h.d, reg_of_fld h.a]

theorem reads_waitFin (d a : GReg) : Reads (Instr.waitFin d a).word (.waitFin d a) :=
  (opcode_14 (by decide)).readsA3 (by omega) fun w h => by
    simp only [parse14, fld_narrow 2 h.imm (by decide) (by decide), reg_of_fld h.d, reg_of_fld h.a]

theorem reads_waitLe (d a b : GReg) : Reads (Instr.waitLe d a b).word (.waitLe d a b) :=
  (opcode_14 (by decide)).readsA3 (by omega) fun w h => by
    simp only [parse14, fld_narrow 2 h.imm (by decide) (by decide), reg_of_fld h.d, reg_of_fld h.a, reg_of_fld h.b]

theorem reads_rdsr (d : GReg) (n : BitVec 16) : Reads (Instr.rdsr d n).word (.rdsr d n) :=
  (opcode_15 (by decide)).readsA3 (by omega) fun w h => by simp only [parse15, reg_of_fld h.d, ofNat_of_fld (fld_narrow 16 h.imm (by decide) n.isLt)]

theorem reads_wrsr (a : GReg) (n : BitVec 16) : Reads (Instr.wrsr a n).word (.wrsr a n) :=
  (opcode_15 (by decide)).readsA3 (by omega) fun w h => by simp only [parse15, reg_of_fld h.a, ofNat_of_fld (fld_narrow 16 h.imm (by decide) n.isLt)]

theorem reads_icinv (a : GReg) (imm : BitVec 32) : Reads (Instr.icinv a imm).word (.icinv a imm) :=
  (opcode_15 (by decide)).readsA3 (by omega) fun w h => by simp only [parse15, reg_of_fld h.a, imm32_of_fld h.imm]

theorem reads_trap (code : BitVec 32) : Reads (Instr.trap code).word (.trap code) :=
  (opcode_15 (by decide)).readsA3 (by omega) fun w h => by simp only [parse15, imm32_of_fld h.imm]

theorem reads_mbr (c : Cond) (a b : GReg) (target : BitVec 13) : Reads (Instr.mbr c a b target).word (.mbr c a b target) :=
  (opcode_16 (by decide)).readsA3 (by have := c.code_lt; omega) fun w h => by
    simp only [parse16, h.sz, Cond.ofCode_code, need, reg_of_fld h.a, reg_of_fld h.b, ofNat_of_fld (fld_narrow 13 h.imm (by decide) target.isLt)]

theorem reads_mloop (a : GReg) (uend : BitVec 13) : Reads (Instr.mloop a uend).word (.mloop a uend) :=
  (opcode_16 (by decide)).readsA3 (by omega) fun w h => by simp only [parse16, reg_of_fld h.a, ofNat_of_fld (fld_narrow 13 h.imm (by decide) uend.isLt)]

theorem reads_ximm (value : BitVec 50) : Reads (Instr.ximm value).word (.ximm value) :=
  (opcode_17 (by decide)).readsP (by omega) fun w h => by simp only [parse17, ofNat_of_fld h.payload]

theorem parse12_in (w : Nat) (spc : Space) : parse12 w spc.code =
    .ok (.strmIn spc (Fin.ofNat 8 (fld w 45 3)) (reg w 35) (reg w 40) (BitVec.ofNat 28 (fld w 0 28))) := by cases spc <;> rfl

theorem parse12_out (w : Nat) (spc : Space) : parse12 w (8 + spc.code) =
    .ok (.strmOut spc (bitAt w 28) (Fin.ofNat 4 (fld w 45 2)) (reg w 35) (reg w 40) (BitVec.ofNat 28 (fld w 0 28))) := by cases spc <;> rfl

theorem parse13_ldq (w : Nat) (spc : Space) : parse13 w spc.code =
    .ok (.ldq spc (Fin.ofNat 8 (fld w 45 3)) (Fin.ofNat 8 (fld w 29 3)) (bitAt w 28) (memOp w)) := by cases spc <;> rfl

theorem parse13_stq (w : Nat) (spc : Space) : parse13 w (8 + spc.code) =
    .ok (.stq spc (Fin.ofNat 4 (fld w 45 2)) (Fin.ofNat 8 (fld w 29 3)) (bitAt w 28) (memOp w)) := by cases spc <;> rfl

theorem reads_strmIn (spc : Space) (q : Fin 8) (gi base : GReg) (disp : BitVec 28) :
    Reads (Instr.strmIn spc q gi base disp).word (.strmIn spc q gi base disp) :=
  (opcode_12 (by have := spc.code_lt; omega)).readsAM (by omega) fun w h => by
    rw [parse12_in, fld_narrow 3 h.d (by decide) q.isLt, Fin.ofNat_val_eq_self, reg_of_fld h.idx, reg_of_fld h.base, ofNat_of_fld h.disp]

theorem reads_strmOut (spc : Space) (ms : Bool) (q : Fin 4) (gi base : GReg) (disp : BitVec 28) :
    Reads (Instr.strmOut spc ms q gi base disp).word (.strmOut spc ms q gi base disp) :=
  (opcode_12 (by have := spc.code_lt; omega)).readsAM (by have := Bool.bit_lt ms; omega) fun w h => by
    have hms : bitAt w 28 = ms := bitAt_of_fld (fld_narrow 1 h.md (by decide) (Bool.bit_lt ms))
    rw [parse12_out, fld_narrow 2 h.d (by decide) q.isLt, Fin.ofNat_val_eq_self, reg_of_fld h.idx, reg_of_fld h.base, ofNat_of_fld h.disp, hms]

theorem reads_strmStop (out : Bool) (q : Fin 8) : Reads (Instr.strmStop out q).word (.strmStop out q) :=
  (opcode_12 (by decide)).readsAM (by have := Bool.bit_lt out; omega) fun w h => by
    have hout : bitAt w 28 = out := bitAt_of_fld (fld_narrow 1 h.md (by decide) (Bool.bit_lt out))
    simp [parse12, fld_narrow 3 h.d (by decide) q.isLt, hout]

theorem reads_ldq (spc : Space) (q len : Fin 8) (acq : Bool) (m : MemOp) : Reads (Instr.ldq spc q len acq m).word (.ldq spc q len acq m) :=
  (opcode_13 (by have := spc.code_lt; omega)).readsAM (by have := Bool.bit_lt acq; omega) fun w h => by
    rw [parse13_ldq, fld_narrow 3 h.d (by decide) q.isLt, h.high_md (n := 3) len.isLt (by decide), h.low_md, h.memOp, Fin.ofNat_val_eq_self,
      Fin.ofNat_val_eq_self]

theorem reads_stq (spc : Space) (q : Fin 4) (len : Fin 8) (ms : Bool) (m : MemOp) : Reads (Instr.stq spc q len ms m).word (.stq spc q len ms m) :=
  (opcode_13 (by have := spc.code_lt; omega)).readsAM (by have := Bool.bit_lt ms; omega) fun w h => by
    rw [parse13_stq, fld_narrow 2 h.d (by decide) q.isLt, h.high_md (n := 3) len.isLt (by decide), h.low_md, h.memOp, Fin.ofNat_val_eq_self,
      Fin.ofNat_val_eq_self]

theorem reads_ldsc {spc : Space} (hspc : spc = .sp ∨ spc = .at ∨ spc = .cl) (cnt : Fin 16) (m : MemOp) :
    Reads (Instr.ldsc spc cnt m).word (.ldsc spc cnt m) :=
  (opcode_13 (by have := spc.code_lt; omega)).readsAM (by omega) fun w h => by
    have hp : parse13 w (16 + spc.code) = .ok (.ldsc spc (Fin.ofNat 16 (fld w 45 4)) (memOp w)) := by rcases hspc with rfl | rfl | rfl <;> rfl
    rw [hp, fld_narrow 4 h.d (by decide) cnt.isLt, Fin.ofNat_val_eq_self, h.memOp]

theorem reads_fence (f : FenceFlags) (sc : Scope) : Reads (Instr.fence f sc).word (.fence f sc) := by
  have hf := f.code_lt
  have hs := sc.code_lt
  refine (opcode_14 (by decide)).readsA3 (by omega) fun w h => ?_
  have hlow : fld w 0 6 = f.code := (fld_of_low h.imm (by decide)).trans (by simp only [fld]; omega)
  have hhigh : fld w 8 2 = sc.code := (fld_of_low h.imm (by decide)).trans (by simp only [fld]; omega)
  simp only [parse14, hlow, hhigh, FenceFlags.ofCode_code, Scope.ofCode_code]

theorem reads_hbind (hn : Fin 16) (b : BitVec 8) : Reads (Instr.hbind hn b).word (.hbind hn b) := by
  refine (opcode_14 (by decide)).readsA3 (by omega) fun w h => ?_
  have hlow : fld w 0 8 = b.toNat := (fld_of_low h.imm (by decide)).trans (by simp only [fld]; omega)
  have hhigh : fld w 12 4 = hn.val := (fld_of_low h.imm (by decide)).trans (by simp only [fld]; omega)
  simp only [parse14, ofNat_of_fld hlow, hhigh, Fin.ofNat_val_eq_self]

/-- imm32 of HPUSH and HPOP: the hatch, and above it the queue with its enabling bit (R157, R158). -/
theorem hatchImm {w i : Nat} {b : Bool} {hn : Fin 16} (hi : i < 8) (h : fld w 0 32 = hn.val + (Bool.bit b * 2 ^ 8 + i * 2 ^ 4)) :
    fld w 0 4 = hn.val ∧ bitAt w 8 = b ∧ fld w 4 3 = i := by
  have hb := Bool.bit_lt b
  refine ⟨(fld_of_low h (by decide)).trans ?_, bitAt_of_fld ((fld_of_low h (by decide)).trans ?_), (fld_of_low h (by decide)).trans ?_⟩ <;>
    simp only [fld] <;> omega

theorem reads_hpush (hn : Fin 16) (q : Option (Fin 4)) : Reads (Instr.hpush hn q).word (.hpush hn q) := by
  refine (opcode_14 (by decide)).readsA3 (by cases q <;> dsimp only <;> omega) fun w h => ?_
  cases q with
  | none =>
    obtain ⟨hh, hb, -⟩ := hatchImm (b := false) (i := 0) (by decide) h.imm
    simp [parse14, hh, hb]
  | some i =>
    obtain ⟨hh, hb, hq⟩ := hatchImm (b := true) (i := i.val) (by omega) h.imm
    simp [parse14, hh, hb, fld_narrow 2 hq (by decide) i.isLt]

theorem reads_hpop (hn : Fin 16) (q : Option (Fin 8)) : Reads (Instr.hpop hn q).word (.hpop hn q) := by
  refine (opcode_14 (by decide)).readsA3 (by cases q <;> dsimp only <;> omega) fun w h => ?_
  cases q with
  | none =>
    obtain ⟨hh, hb, -⟩ := hatchImm (b := false) (i := 0) (by decide) h.imm
    simp [parse14, hh, hb]
  | some i =>
    obtain ⟨hh, hb, hq⟩ := hatchImm (b := true) i.isLt h.imm
    simp [parse14, hh, hb, hq]

theorem reads_layer (kind : Fin 4) (entry : Fin 128) : Reads (Instr.layer kind entry).word (.layer kind entry) :=
  (opcode_16 (by decide)).readsA3 (by omega) fun w h => by
    simp only [parse16, h.sz, kind.isLt, if_true, fld_narrow 7 h.imm (by decide) entry.isLt, Fin.ofNat_val_eq_self]

theorem reads_mbnd (fin : Bool) : Reads (Instr.mbnd fin).word (.mbnd fin) :=
  (opcode_16 (by decide)).readsA3 (by have := Bool.bit_lt fin; omega) fun w h => by simp only [parse16, bitAt_of_fld (fld_narrow 1 h.imm (by decide) (Bool.bit_lt fin))]

theorem reads_stamp (c : BitVec 32) : Reads (Instr.stamp c).word (.stamp c) :=
  (opcode_17 (by decide)).readsP (by omega) fun w h => by
    have hc : fld w 18 32 = c.toNat := (fld_of_low h.payload (by decide)).trans (by simp only [fld]; omega)
    simp only [parse17, ofNat_of_fld hc]

/-! ### The X-pipe's own words -/

theorem reads_vimad (f : IntMad) : Reads (Instr.vimad f).word (.vimad f) :=
  (opcode_21 (by decide)).readsXV (by simp) fun w h => by
    simp only [parse21, need4_of h.d h.a h.b h.c, guard_of_fld h.g, etype_of_fld h.ty, h.sat]

theorem reads_viabs (f : IntUn) : Reads (Instr.viabs f).word (.viabs f) :=
  (opcode_21 (by decide)).readsXV (by simp) fun w h => by
    simp only [parse21, need3_of (b := .v 0) h.d h.a h.b, guard_of_fld h.g, etype_of_fld h.ty, h.sat]

theorem reads_vcmp (g : Fin 16) (ty : ElemTy) (c : VCond) (d : Fin 16) (a b : XOp) : Reads (Instr.vcmp g ty c d a b).word (.vcmp g ty c d a b) :=
  (opcode_22 (by decide)).readsXV (by have := c.code_lt; simp; omega) fun w h => by
    simp only [parse22, fld_narrow 3 h.xmod (by decide) c.code_lt, h.a, h.b, VCond.ofCode_code, XOp.ofCode_code, guard_of_fld h.g, etype_of_fld h.ty,
      predAt_of_fld h.d]

theorem reads_vsel (g : Fin 16) (ty : ElemTy) (d : XDst) (a b : XOp) (p : Fin 16) : Reads (Instr.vsel g ty d a b p).word (.vsel g ty d a b p) :=
  (opcode_22 (by decide)).readsXV (by simp; omega) fun w h => by
    simp only [parse22, need3_of h.d h.a h.b, guard_of_fld h.g, etype_of_fld h.ty, predAt_of_fld h.c]

theorem reads_pnot (g d a : Fin 16) : Reads (Instr.pnot g d a).word (.pnot g d a) :=
  (opcode_22 (by decide)).readsXV (by simp; omega) fun w h => by simp only [parse22, guard_of_fld h.g, predAt_of_fld h.d, predAt_of_fld h.a]

theorem reads_srnd (f : SrndArgs) : Reads (Instr.srnd f).word (.srnd f) :=
  (opcode_23 (by decide)).readsXV (by have := Bool.bit_lt f.sat; have := f.grid.code_lt; simp; omega) fun w h => by
    obtain ⟨hs, hrw, ht⟩ := h.mods rfl f.rw.isLt f.grid.code_lt
    simp only [parse23, need3_of h.d h.a h.b, guard_of_fld h.g, etype_of_fld h.ty, srcType_of_fld ht, hs, hrw, Fin.ofNat_val_eq_self]

theorem reads_scvt (f : ScvtArgs) : Reads (Instr.scvt f).word (.scvt f) :=
  (opcode_27 (by decide)).readsXV (by have := Bool.bit_lt f.sat; have := f.src.code_lt; simp; omega) fun w h => by
    obtain ⟨hs, -, ht⟩ := h.mods (s := f.sat) (y := 0) (t := f.src.code) (by omega) (by decide) f.src.code_lt
    simp only [parse27, need4_of (b := .v 0) h.d h.a h.b h.c, guard_of_fld h.g, etype_of_fld h.ty, srcType_of_fld ht, rmode_of_fld h.rm, hs]

/-- An s code in a field of eight bits: 3 above the register's number (R66). -/
theorem sCode_of_fld {w lo : Nat} {r : Fin 32} (h : fld w lo 8 = 96 + r.val) : fld w (lo + 5) 3 = 3 ∧ sreg w lo = r := by
  have hhigh : fld w (lo + 5) 3 = 3 := (fld_fld w (lo := lo) (n := 8) (lo' := 5) (n' := 3) (by decide)).symm.trans (by rw [h, fld]; omega)
  have hlow : fld w (lo + 0) 5 = r.val := (fld_fld w (lo := lo) (n := 8) (lo' := 0) (n' := 5) (by decide)).symm.trans (by rw [h, fld]; omega)
  exact ⟨hhigh, sreg_of_fld hlow⟩

/-- The code of a load queue in a field of eight bits: 8 above the queue's number (R66). -/
theorem qCode_of_fld {w lo : Nat} {q : Fin 8} (h : fld w lo 8 = 64 + q.val) : fld w (lo + 3) 5 = 8 ∧ fld w lo 3 = q.val := by
  have hhigh : fld w (lo + 3) 5 = 8 := (fld_fld w (lo := lo) (n := 8) (lo' := 3) (n' := 5) (by decide)).symm.trans (by rw [h, fld]; omega)
  have hlow : fld w (lo + 0) 3 = q.val := (fld_fld w (lo := lo) (n := 8) (lo' := 0) (n' := 3) (by decide)).symm.trans (by rw [h, fld]; omega)
  exact ⟨hhigh, hlow⟩

theorem reads_sli (g : Fin 16) (d : Fin 32) (imm : BitVec 26) : Reads (Instr.sli g d imm).word (.sli g d imm) :=
  (opcode_27 (by decide)).readsXI (by omega) fun w h => by
    obtain ⟨hs, hd⟩ := sCode_of_fld h.d
    simp only [parse27, hs, hd, if_true, guard_of_fld h.g, ofNat_of_fld h.imm]

theorem reads_loop (count : LoopCount) (st : Fin 8) (k : Fin 64) : Reads (Instr.loop count st k).word (.loop count st k) := by
  cases count with
  | imm n =>
    refine (opcode_28 (by decide)).readsXI (by omega) fun w h => ?_
    have hbit : bitAt w 22 = false := bitAt_of_fld ((fld_of_low h.imm (by decide)).trans (by simp only [fld, Bool.bit_false]; omega))
    have hst : fld w 23 3 = st.val := (fld_of_low h.imm (by decide)).trans (by simp only [fld]; omega)
    have hk : fld w 16 6 = k.val := (fld_of_low h.imm (by decide)).trans (by simp only [fld]; omega)
    have hn : fld w 0 16 = n.toNat := (fld_of_low h.imm (by decide)).trans (by simp only [fld]; omega)
    simp [parse28, hbit, hst, hk, ofNat_of_fld hn]
  | reg r =>
    refine (opcode_28 (by decide)).readsXI (by omega) fun w h => ?_
    have hbit : bitAt w 22 = true := bitAt_of_fld ((fld_of_low h.imm (by decide)).trans (by simp only [fld, Bool.bit_true]; omega))
    have hst : fld w 23 3 = st.val := (fld_of_low h.imm (by decide)).trans (by simp only [fld]; omega)
    have hk : fld w 16 6 = k.val := (fld_of_low h.imm (by decide)).trans (by simp only [fld]; omega)
    obtain ⟨hs, hr⟩ := sCode_of_fld h.a
    simp [parse28, hbit, hst, hk, hs, hr]

theorem reads_rbset (b : Fin 32) : Reads (Instr.rbset b).word (.rbset b) :=
  (opcode_28 (by decide)).readsXI (by omega) fun w h => by simp only [parse28, sreg_of_fld (fld_narrow 5 h.imm (by decide) b.isLt)]

theorem reads_rbadv (d : Fin 32) : Reads (Instr.rbadv d).word (.rbadv d) :=
  (opcode_28 (by decide)).readsXI (by omega) fun w h => by simp only [parse28, sreg_of_fld (fld_narrow 5 h.imm (by decide) d.isLt)]

theorem reads_pstage (mask : BitVec 8) : Reads (Instr.pstage mask).word (.pstage mask) :=
  (opcode_28 (by decide)).readsXI (by omega) fun w h => by simp only [parse28, ofNat_of_fld (fld_narrow 8 h.imm (by decide) mask.isLt)]

theorem reads_cbstV (g : Fin 16) (ty : ElemTy) (a : XOp) (off : BitVec 16) : Reads (Instr.cbstV g ty a off).word (.cbstV g ty a off) :=
  (opcode_29 (by decide)).readsXI (by have := ty.code_lt; have := a.code_lt; omega) fun w h => by
    simp only [parse29, h.a, XOp.ofCode_code, need, guard_of_fld h.g, etype_of_fld h.ty, ofNat_of_fld (fld_narrow 16 h.imm (by decide) off.isLt)]

theorem reads_cbldV (g : Fin 16) (ty : ElemTy) (d : Fin 64) (off : BitVec 16) : Reads (Instr.cbldV g ty d off).word (.cbldV g ty d off) :=
  (opcode_29 (by decide)).readsXI (by have := ty.code_lt; omega) fun w h => by
    simp only [parse29, guard_of_fld h.g, etype_of_fld h.ty, fld_narrow 6 h.d (by decide) d.isLt, Fin.ofNat_val_eq_self,
      ofNat_of_fld (fld_narrow 16 h.imm (by decide) off.isLt)]

theorem reads_cbstS (g : Fin 16) (a : Fin 32) (off : BitVec 16) : Reads (Instr.cbstS g a off).word (.cbstS g a off) :=
  (opcode_29 (by decide)).readsXI (by omega) fun w h => by
    obtain ⟨hs, ha⟩ := sCode_of_fld h.a
    simp only [parse29, hs, ha, if_true, guard_of_fld h.g, ofNat_of_fld (fld_narrow 16 h.imm (by decide) off.isLt)]

theorem reads_cbldS (g : Fin 16) (d : Fin 32) (off : BitVec 16) : Reads (Instr.cbldS g d off).word (.cbldS g d off) :=
  (opcode_29 (by decide)).readsXI (by omega) fun w h => by
    obtain ⟨hs, hd⟩ := sCode_of_fld h.d
    simp only [parse29, hs, hd, if_true, guard_of_fld h.g, ofNat_of_fld (fld_narrow 16 h.imm (by decide) off.isLt)]

theorem reads_qskip (g : Fin 16) (q : Fin 8) (c : XOp) : Reads (Instr.qskip g q c).word (.qskip g q c) :=
  (opcode_2a (by decide)).readsXV (by simp; omega) fun w h => by
    obtain ⟨h8, hq⟩ := qCode_of_fld h.a
    simp only [parse2A, h8, hq, if_true, h.b, XOp.ofCode_code, need, guard_of_fld h.g, Fin.ofNat_val_eq_self]

theorem reads_qcount (g : Fin 16) (d : Fin 32) (q : Fin 12) : Reads (Instr.qcount g d q).word (.qcount g d q) :=
  (opcode_2a (by decide)).readsXV (by simp; omega) fun w h => by
    obtain ⟨hs, hd⟩ := sCode_of_fld h.d
    simp only [parse2A, hs, hd, h.b, q.isLt, and_self, if_true, guard_of_fld h.g, Fin.ofNat_val_eq_self]

theorem reads_qflush (g : Fin 16) (d : Option (Fin 32)) (q : Fin 8) : Reads (Instr.qflush g d q).word (.qflush g d q) := by
  refine (opcode_2a (by decide)).readsXV (by cases d <;> simp <;> omega) fun w h => ?_
  obtain ⟨h8, hq⟩ := qCode_of_fld h.a
  cases d with
  | none =>
    have hd : fld w 31 8 = 0 := h.d
    simp only [parse2A, h8, hq, hd, if_true, guard_of_fld h.g, Fin.ofNat_val_eq_self]
  | some r =>
    have hd : fld w 31 8 = 96 + r.val := h.d
    have hne : fld w 31 8 ≠ 0 := by omega
    obtain ⟨hs, hr⟩ := sCode_of_fld hd
    simp only [parse2A, h8, hq, hne, hs, hr, if_true, if_false, guard_of_fld h.g, Fin.ofNat_val_eq_self]

theorem reads_vli (g : Fin 16) (ty : ElemTy) (d : Fin 64) (imm : BitVec 26) : Reads (Instr.vli g ty d imm).word (.vli g ty d imm) :=
  (opcode_2b (by decide)).readsXI (by have := ty.code_lt; omega) fun w h => by
    simp only [parse2B, guard_of_fld h.g, etype_of_fld h.ty, fld_narrow 6 h.d (by decide) d.isLt, Fin.ofNat_val_eq_self, ofNat_of_fld h.imm]

theorem reads_vlix (g : Fin 16) (ty : ElemTy) (d : Fin 64) (base step : BitVec 13) : Reads (Instr.vlix g ty d base step).word (.vlix g ty d base step) :=
  (opcode_2b (by decide)).readsXI (by have := ty.code_lt; omega) fun w h => by
    have hbase : fld w 0 13 = base.toNat := (fld_of_low h.imm (by decide)).trans (by simp only [fld]; omega)
    have hstep : fld w 13 13 = step.toNat := (fld_of_low h.imm (by decide)).trans (by simp only [fld]; omega)
    simp only [parse2B, guard_of_fld h.g, etype_of_fld h.ty, fld_narrow 6 h.d (by decide) d.isLt, Fin.ofNat_val_eq_self, ofNat_of_fld hbase, ofNat_of_fld hstep]

/-! ### The engine commands' own words -/

section
variable {w maj min x y r z n m sd acc flags : Nat} {hk : Hatching}

theorem HasE.tileN {n : Fin 64} (h : HasE w maj min x y r z n.val m sd acc hk flags) : tileN w = n := by rw [Sys2Proof.tileN, h.n, Fin.ofNat_val_eq_self]
theorem HasE.tileM {m : Fin 4} (h : HasE w maj min x y r z n m.val sd acc hk flags) : tileM w = m := by rw [Sys2Proof.tileM, h.m, Fin.ofNat_val_eq_self]
theorem HasE.sdOf {sd : Fin 8} (h : HasE w maj min x y r z n m sd.val acc hk flags) : sdOf w = sd := by rw [Sys2Proof.sdOf, h.sd, Fin.ofNat_val_eq_self]
theorem HasE.accOf {acc : Fin 8} (h : HasE w maj min x y r z n m sd acc.val hk flags) : accOf w = acc := by
  rw [Sys2Proof.accOf, h.acc, Fin.ofNat_val_eq_self]

/-- A part of FLAGS. -/
theorem HasE.flag (h : HasE w maj min x y r z n m sd acc hk flags) {lo k v : Nat} (hlo : lo + k ≤ 6) (hv : fld flags lo k = v) : fld w lo k = v :=
  (fld_of_low h.flags hlo).trans hv

end

/-- The commands of four registers, the hatch fields and no flag. -/
theorem reads_eCmd {maj min : Nat} {k : ECmd → Instr} (op : Opcode maj min fun w => .ok (k (eCmd w))) (c : ECmd) : Reads (c.e maj min 0) (k c) :=
  op.readsE (by omega) fun w h => by rw [h.eCmd]

theorem reads_copy (c : ECmd) : Reads (Instr.copy c).word (.copy c) :=
  (opcode_30 (by decide)).readsE (by omega) fun w h => by simp [parse30, bitAt_of_fld (b := false) (h.flag (lo := 5) (k := 1) (by decide) rfl), h.eCmd]

theorem reads_copyF (c : ECmd) : Reads (Instr.copyF c).word (.copyF c) :=
  (opcode_30 (by decide)).readsE (by omega) fun w h => by simp [parse30, bitAt_of_fld (b := true) (h.flag (lo := 5) (k := 1) (by decide) rfl), h.eCmd]

theorem reads_fill (c : ECmd) (wc : Fin 4) : Reads (Instr.fill c wc).word (.fill c wc) :=
  (opcode_30 (by decide)).readsE (by omega) fun w h => by simp only [parse30, fld_narrow 2 h.flags (by decide) wc.isLt, h.eCmd, Fin.ofNat_val_eq_self]

theorem reads_migrate (x y wr : GReg) (hk : Hatching) : Reads (Instr.migrate x y wr hk).word (.migrate x y wr hk) :=
  (opcode_34 (by decide)).readsE (by omega) fun w h => by simp only [parse34, reg_of_fld h.x, reg_of_fld h.y, reg_of_fld h.r, h.hk]

theorem reads_bfs (a : BfsArgs) : Reads (Instr.bfs a).word (.bfs a) := by
  have ht := Bool.bit_lt a.t
  have hm := a.rm.code_lt
  refine (opcode_35 (by decide)).readsE (by omega) fun w h => ?_
  have h5 : bitAt w 5 = a.t := bitAt_of_fld (h.flag (by decide) (by simp only [fld]; omega))
  have h3 : fld w 3 2 = a.role.val := h.flag (by decide) (by simp only [fld]; omega)
  have h0 : fld w 0 3 = a.rm.code := h.flag (by decide) (by simp only [fld]; omega)
  simp only [parse35, h.eCmd, h.tileN, h.tileM, h.sdOf, h5, h3, h0, Fin.ofNat_val_eq_self, RM.ofCode_code]

theorem reads_bfa (a : BfaArgs) : Reads (Instr.bfa a).word (.bfa a) := by
  have ht := Bool.bit_lt a.t
  refine (opcode_36 (by decide)).readsE (by omega) fun w h => ?_
  have h5 : bitAt w 5 = a.t := bitAt_of_fld (h.flag (by decide) (by simp only [fld]; omega))
  simp only [parse36, reg_of_fld h.x, reg_of_fld h.y, reg_of_fld h.z, h.hk, h.tileN, h.tileM, h.accOf, h5]

theorem reads_adrain (a : AdrainArgs) : Reads (Instr.adrain a).word (.adrain a) := by
  have hr := Bool.bit_lt a.raw
  have hs := Bool.bit_lt a.sat
  have hm := a.rm.code_lt
  refine (opcode_37 (by decide)).readsE (by omega) fun w h => ?_
  have h5 : bitAt w 5 = a.raw := bitAt_of_fld (h.flag (by decide) (by simp only [fld]; omega))
  have h4 : bitAt w 4 = a.sat := bitAt_of_fld (h.flag (by decide) (by simp only [fld]; omega))
  have h0 : fld w 0 3 = a.rm.code := h.flag (by decide) (by simp only [fld]; omega)
  simp only [parse37, reg_of_fld h.y, h.hk, h.tileN, h.tileM, h.accOf, h5, h4, h0, RM.ofCode_code]

theorem reads_aclr (x : GReg) (acc : Fin 8) (hk : Hatching) : Reads (Instr.aclr x acc hk).word (.aclr x acc hk) :=
  (opcode_37 (by decide)).readsE (by omega) fun w h => by simp only [parse37, reg_of_fld h.x, h.accOf, h.hk]

theorem reads_anorm (x : GReg) (acc : Fin 8) (hk : Hatching) : Reads (Instr.anorm x acc hk).word (.anorm x acc hk) :=
  (opcode_37 (by decide)).readsE (by omega) fun w h => by simp only [parse37, reg_of_fld h.x, h.accOf, h.hk]

theorem reads_aload (x : GReg) (n : Fin 64) (m : Fin 4) (acc : Fin 8) (hk : Hatching) : Reads (Instr.aload x n m acc hk).word (.aload x n m acc hk) :=
  (opcode_37 (by decide)).readsE (by omega) fun w h => by simp only [parse37, reg_of_fld h.x, h.tileN, h.tileM, h.accOf, h.hk]

theorem reads_sdset (x : GReg) (sd : Fin 8) (hk : Hatching) : Reads (Instr.sdset x sd hk).word (.sdset x sd hk) :=
  (opcode_38 (by decide)).readsE (by omega) fun w h => by simp only [parse38, reg_of_fld h.x, h.sdOf, h.hk]

theorem reads_chdrain (y : GReg) (hk : Hatching) : Reads (Instr.chdrain y hk).word (.chdrain y hk) :=
  (opcode_38 (by decide)).readsE (by omega) fun w h => by simp only [parse38, reg_of_fld h.y, h.hk]

theorem reads_chload (x : GReg) (hk : Hatching) : Reads (Instr.chload x hk).word (.chload x hk) :=
  (opcode_38 (by decide)).readsE (by omega) fun w h => by simp only [parse38, reg_of_fld h.x, h.hk]

theorem reads_scdrain (y : GReg) (hk : Hatching) : Reads (Instr.scdrain y hk).word (.scdrain y hk) :=
  (opcode_39 (by decide)).readsE (by omega) fun w h => by simp only [parse39, reg_of_fld h.y, h.hk]

theorem reads_scload (x : GReg) (hk : Hatching) : Reads (Instr.scload x hk).word (.scload x hk) :=
  (opcode_39 (by decide)).readsE (by omega) fun w h => by simp only [parse39, reg_of_fld h.x, h.hk]

theorem reads_scclr (hk : Hatching) : Reads (Instr.scclr hk).word (.scclr hk) :=
  (opcode_39 (by decide)).readsE (by omega) fun w h => by simp only [parse39, h.hk]

theorem reads_cload (rn : Fin 16) (hk : Hatching) : Reads (Instr.cload rn hk).word (.cload rn hk) :=
  (opcode_3b (by decide)).readsE (by omega) fun w h => by simp only [parse3B, fld_narrow 4 h.flags (by decide) rn.isLt, Fin.ofNat_val_eq_self, h.hk]

theorem reads_eval (x y : GReg) (rn : Fin 16) (hk : Hatching) : Reads (Instr.eval x y rn hk).word (.eval x y rn hk) :=
  (opcode_3b (by decide)).readsE (by omega) fun w h => by
    simp only [parse3B, reg_of_fld h.x, reg_of_fld h.y, fld_narrow 4 h.flags (by decide) rn.isLt, Fin.ofNat_val_eq_self, h.hk]

theorem reads_pupd (x y : GReg) (hk : Hatching) : Reads (Instr.pupd x y hk).word (.pupd x y hk) :=
  (opcode_3b (by decide)).readsE (by omega) fun w h => by simp only [parse3B, reg_of_fld h.x, reg_of_fld h.y, h.hk]

theorem reads_mgen (x y : GReg) (hk : Hatching) (n : Fin 64) (g : Fin 2) (kc : Fin 4) : Reads (Instr.mgen x y hk n g kc).word (.mgen x y hk n g kc) :=
  (opcode_3a (by decide)).readsE (by omega) fun w h => by
    have h0 : fld w 0 1 = g.val := h.flag (by decide) (by simp only [fld]; omega)
    have h1 : fld w 1 2 = kc.val := h.flag (by decide) (by simp only [fld]; omega)
    simp only [parse3A, reg_of_fld h.x, reg_of_fld h.y, h.hk, h.tileN, h0, h1, Fin.ofNat_val_eq_self]

theorem reads_cewait (x : GReg) (clr : Bool) : Reads (Instr.cewait x clr).word (.cewait x clr) :=
  (opcode_3b (by decide)).readsE (by have := Bool.bit_lt clr; omega) fun w h => by
    simp only [parse3B, reg_of_fld h.x, bitAt_of_fld (fld_narrow 1 h.flags (by decide) (Bool.bit_lt clr))]

theorem reads_ceout (x y : GReg) (rn : Fin 16) (mode : Fin 4) (hk : Hatching) : Reads (Instr.ceout x y rn mode hk).word (.ceout x y rn mode hk) :=
  (opcode_3b (by decide)).readsE (by omega) fun w h => by
    have h0 : fld w 0 4 = rn.val := h.flag (by decide) (by simp only [fld]; omega)
    have h4 : fld w 4 2 = mode.val := h.flag (by decide) (by simp only [fld]; omega)
    simp only [parse3B, reg_of_fld h.x, reg_of_fld h.y, h.hk, h0, h4, Fin.ofNat_val_eq_self]

theorem reads_rswait (x : GReg) : Reads (Instr.rswait x).word (.rswait x) :=
  (opcode_3d (by decide)).readsE (by omega) fun w h => by
    simp [parse3D, bitAt_of_fld (b := false) (h.flag (lo := 0) (k := 1) (by decide) rfl), reg_of_fld h.x]

theorem reads_rswaitRecv (x y : GReg) : Reads (Instr.rswaitRecv x y).word (.rswaitRecv x y) :=
  (opcode_3d (by decide)).readsE (by omega) fun w h => by
    simp [parse3D, bitAt_of_fld (b := true) (h.flag (lo := 0) (k := 1) (by decide) rfl), reg_of_fld h.x, reg_of_fld h.y]

/-! ### Every word -/

theorem not_one_le_major {i : Instr} (h : i.word = 0) : ¬ 1 ≤ i.major := by rw [Instr.major, h]; decide

/-- The word of every well-formed instruction is parsed as that instruction; an event of the device has no word. -/
theorem Instr.reads_word (i : Instr) (hwf : i.wf = true) (hm : 1 ≤ i.major) : Reads i.word i := by
  cases i with
  | add sz d a b => exact reads_reg3 (opcode_01 (by decide)) sz d a b
  | sub sz d a b => exact reads_reg3 (opcode_01 (by decide)) sz d a b
  | mul sz d a b => exact reads_reg3 (opcode_01 (by decide)) sz d a b
  | mulh sz d a b => exact reads_reg3 (opcode_01 (by decide)) sz d a b
  | and sz d a b => exact reads_reg3 (opcode_01 (by decide)) sz d a b
  | or sz d a b => exact reads_reg3 (opcode_01 (by decide)) sz d a b
  | xor sz d a b => exact reads_reg3 (opcode_01 (by decide)) sz d a b
  | shl sz d a b => exact reads_reg3 (opcode_01 (by decide)) sz d a b
  | shr sz d a b => exact reads_reg3 (opcode_01 (by decide)) sz d a b
  | sra sz d a b => exact reads_reg3 (opcode_01 (by decide)) sz d a b
  | min sz d a b => exact reads_reg3 (opcode_01 (by decide)) sz d a b
  | max sz d a b => exact reads_reg3 (opcode_01 (by decide)) sz d a b
  | cmp c d a b => exact reads_cmp c d a b
  | addi sz d a imm => exact reads_imm (opcode_02 (by decide)) sz d a imm
  | andi sz d a imm => exact reads_imm (opcode_02 (by decide)) sz d a imm
  | ori sz d a imm => exact reads_imm (opcode_02 (by decide)) sz d a imm
  | xori sz d a imm => exact reads_imm (opcode_02 (by decide)) sz d a imm
  | shli sz d a sh => exact reads_shift (opcode_02 (by decide)) sz d a sh
  | shri sz d a sh => exact reads_shift (opcode_02 (by decide)) sz d a sh
  | srai sz d a sh => exact reads_shift (opcode_02 (by decide)) sz d a sh
  | cmpi c d a imm => exact reads_cmpi c d a imm
  | li d imm => exact reads_li d imm
  | br c a b off => exact reads_br c a b off
  | call a off => exact reads_call a off
  | jr a imm => exact reads_jr a imm
  | callr d a imm => exact reads_callr d a imm
  | ldSp sz d m => exact reads_ld (k := fun sz _ d m => .ldSp sz d m) (opcode_05 sz.code_lt) false d m
  | ldAt sz acq d m => exact reads_ld (opcode_07 sz.code_lt) acq d m
  | ldRa sz acq d m => exact reads_ld (opcode_09 sz.code_lt) acq d m
  | ldCl sz acq d m => exact reads_ld (opcode_0b sz.code_lt) acq d m
  | ldHs sz acq d m => exact reads_ld (opcode_0d sz.code_lt) acq d m
  | ldPr sz acq d m => exact reads_ld (opcode_0f sz.code_lt) acq d m
  | stSp sz d m => exact reads_st (k := fun sz _ d m => .stSp sz d m) (opcode_06 sz.code_lt) false d m
  | stAt sz ms d m => exact reads_st (opcode_08 sz.code_lt) ms d m
  | stRa sz ms d m => exact reads_st (opcode_0a sz.code_lt) ms d m
  | stCl sz ms d m => exact reads_st (opcode_0c sz.code_lt) ms d m
  | stHs sz ms d m => exact reads_st (opcode_0e sz.code_lt) ms d m
  | stPr sz ms d m => exact reads_st (opcode_10 sz.code_lt) ms d m
  | amoAdd spc wd acq d m => exact reads_amo (by decide) (amoRows (bne_iff_ne.1 hwf)).add wd acq d m
  | amoAnd spc wd acq d m => exact reads_amo (by decide) (amoRows (bne_iff_ne.1 hwf)).and wd acq d m
  | amoOr spc wd acq d m => exact reads_amo (by decide) (amoRows (bne_iff_ne.1 hwf)).or wd acq d m
  | amoXor spc wd acq d m => exact reads_amo (by decide) (amoRows (bne_iff_ne.1 hwf)).xor wd acq d m
  | amoMin spc wd acq d m => exact reads_amo (by decide) (amoRows (bne_iff_ne.1 hwf)).min wd acq d m
  | amoMax spc wd acq d m => exact reads_amo (by decide) (amoRows (bne_iff_ne.1 hwf)).max wd acq d m
  | amoMinu spc wd acq d m => exact reads_amo (by decide) (amoRows (bne_iff_ne.1 hwf)).minu wd acq d m
  | amoMaxu spc wd acq d m => exact reads_amo (by decide) (amoRows (bne_iff_ne.1 hwf)).maxu wd acq d m
  | amoSwap spc wd acq d m => exact reads_amo (by decide) (amoRows (bne_iff_ne.1 hwf)).swap wd acq d m
  | amoCas spc wd acq d n base disp => exact reads_amoCas (bne_iff_ne.1 hwf) wd acq d n base disp
  | strmIn spc q gi base disp => exact reads_strmIn spc q gi base disp
  | strmOut spc ms q gi base disp => exact reads_strmOut spc ms q gi base disp
  | strmStop out q => exact reads_strmStop out q
  | ldq spc q len acq m => exact reads_ldq spc q len acq m
  | stq spc q len ms m => exact reads_stq spc q len ms m
  | ldsc spc cnt m => exact reads_ldsc (by simpa [Instr.wf, or_assoc] using hwf) cnt m
  | fence f sc => exact reads_fence f sc
  | hbind h w => exact reads_hbind h w
  | hpush h q => exact reads_hpush h q
  | hpop h q => exact reads_hpop h q
  | waitRd d a => exact reads_waitRd d a
  | waitFin d a => exact reads_waitFin d a
  | waitLe d a b => exact reads_waitLe d a b
  | rdsr d n => exact reads_rdsr d n
  | wrsr a n => exact reads_wrsr a n
  | icinv a imm => exact reads_icinv a imm
  | trap code => exact reads_trap code
  | layer kind entry => exact reads_layer kind entry
  | mbr c a b target => exact reads_mbr c a b target
  | mloop a uend => exact reads_mloop a uend
  | mbnd fin => exact reads_mbnd fin
  | ximm value => exact reads_ximm value
  | stamp cycle => exact reads_stamp cycle
  | afence => exact (opcode_14 (by decide)).readsA3 (by omega) fun _ _ => rfl
  | bar => exact (opcode_14 (by decide)).readsA3 (by omega) fun _ _ => rfl
  | done => exact (opcode_15 (by decide)).readsA3 (by omega) fun _ _ => rfl
  | eret => exact (opcode_15 (by decide)).readsA3 (by omega) fun _ _ => rfl
  | vadd f => exact reads_fpBin (opcode_20 (by decide)) f
  | vsub f => exact reads_fpBin (opcode_20 (by decide)) f
  | vmul f => exact reads_fpBin (opcode_20 (by decide)) f
  | vdiv f => exact reads_fpBin (opcode_20 (by decide)) f
  | vfma f => exact reads_fpFma (opcode_20 (by decide)) f
  | vfms f => exact reads_fpFma (opcode_20 (by decide)) f
  | vfnma f => exact reads_fpFma (opcode_20 (by decide)) f
  | vmin f => exact reads_two (opcode_20 (by decide)) f
  | vmax f => exact reads_two (opcode_20 (by decide)) f
  | vabs f => exact reads_one (opcode_20 (by decide)) f
  | vneg f => exact reads_one (opcode_20 (by decide)) f
  | vsqrt f => exact reads_un (opcode_20 (by decide)) f
  | viadd f => exact reads_intBin (opcode_21 (by decide)) f
  | visub f => exact reads_intBin (opcode_21 (by decide)) f
  | vimul f => exact reads_intBin (opcode_21 (by decide)) f
  | vimulh f => exact reads_intBin (opcode_21 (by decide)) f
  | vimad f => exact reads_vimad f
  | vand f => exact reads_two (opcode_21 (by decide)) f
  | vor f => exact reads_two (opcode_21 (by decide)) f
  | vxor f => exact reads_two (opcode_21 (by decide)) f
  | vshl f => exact reads_two (opcode_21 (by decide)) f
  | vshr f => exact reads_two (opcode_21 (by decide)) f
  | vsra f => exact reads_two (opcode_21 (by decide)) f
  | vimin f => exact reads_two (opcode_21 (by decide)) f
  | vimax f => exact reads_two (opcode_21 (by decide)) f
  | viabs f => exact reads_viabs f
  | vcmp g ty c d a b => exact reads_vcmp g ty c d a b
  | vsel g ty d a b p => exact reads_vsel g ty d a b p
  | pand g d a b => exact reads_pred (opcode_22 (by decide)) g d a b
  | por g d a b => exact reads_pred (opcode_22 (by decide)) g d a b
  | pxor g d a b => exact reads_pred (opcode_22 (by decide)) g d a b
  | pnot g d a => exact reads_pnot g d a
  | vcvt f => exact reads_cvt (opcode_23 (by decide)) f
  | vcvtw f => exact reads_cvt (opcode_23 (by decide)) f
  | vcvtn f => exact reads_cvt (opcode_23 (by decide)) f
  | vdq f => exact reads_blk (opcode_23 (by decide)) f
  | vq f => exact reads_blk (opcode_23 (by decide)) f
  | srnd f => exact reads_srnd f
  | vperm f => exact reads_perm (opcode_24 (by decide)) f
  | vslide f => exact reads_perm (opcode_24 (by decide)) f
  | vrot f => exact reads_two (opcode_24 (by decide)) f
  | vbcast f => exact reads_two (opcode_24 (by decide)) f
  | vzip f => exact reads_sel (opcode_24 (by decide)) f
  | vunzip f => exact reads_sel (opcode_24 (by decide)) f
  | vrsum f => exact reads_red (opcode_25 (by decide)) f
  | vrmax f => exact reads_red (opcode_25 (by decide)) f
  | vrmin f => exact reads_red (opcode_25 (by decide)) f
  | vriadd f => exact reads_red (opcode_25 (by decide)) f
  | vexp2 f => exact reads_un (opcode_26 (by decide)) f
  | vlog2 f => exact reads_un (opcode_26 (by decide)) f
  | vrcp f => exact reads_un (opcode_26 (by decide)) f
  | vrsqrt f => exact reads_un (opcode_26 (by decide)) f
  | vsin f => exact reads_un (opcode_26 (by decide)) f
  | vcos f => exact reads_un (opcode_26 (by decide)) f
  | vtanh f => exact reads_un (opcode_26 (by decide)) f
  | vsigm f => exact reads_un (opcode_26 (by decide)) f
  | sadd f => exact reads_fpBin (opcode_27 (by decide)) f
  | ssub f => exact reads_fpBin (opcode_27 (by decide)) f
  | smul f => exact reads_fpBin (opcode_27 (by decide)) f
  | sfma f => exact reads_fpFma (opcode_27 (by decide)) f
  | smov f => exact reads_one (opcode_27 (by decide)) f
  | scvt f => exact reads_scvt f
  | sli g d imm => exact reads_sli g d imm
  | loop count st k => exact reads_loop count st k
  | rbset b => exact reads_rbset b
  | rbadv d => exact reads_rbadv d
  | pstage mask => exact reads_pstage mask
  | cbstV g ty a off => exact reads_cbstV g ty a off
  | cbldV g ty d off => exact reads_cbldV g ty d off
  | cbstS g a off => exact reads_cbstS g a off
  | cbldS g d off => exact reads_cbldS g d off
  | qskip g q c => exact reads_qskip g q c
  | qcount g d q => exact reads_qcount g d q
  | qflush g d q => exact reads_qflush g d q
  | vli g ty d imm => exact reads_vli g ty d imm
  | vlix g ty d base step => exact reads_vlix g ty d base step
  | copy c => exact reads_copy c
  | copyF c => exact reads_copyF c
  | fill c w => exact reads_fill c w
  | gather c => exact reads_eCmd (opcode_31 (by decide)) c
  | scatter c => exact reads_eCmd (opcode_31 (by decide)) c
  | loft c => exact reads_eCmd (opcode_32 (by decide)) c
  | reduce c => exact reads_eCmd (opcode_33 (by decide)) c
  | reduceBin c => exact reads_eCmd (opcode_33 (by decide)) c
  | mpack c => exact reads_eCmd (opcode_3a (by decide)) c
  | reshard c => exact reads_eCmd (opcode_3c (by decide)) c
  | migrate x y w hk => exact reads_migrate x y w hk
  | bfs a => exact reads_bfs a
  | bfa a => exact reads_bfa a
  | adrain a => exact reads_adrain a
  | mgen x y hk n g kc => exact reads_mgen x y hk n g kc
  | cewait x clr => exact reads_cewait x clr
  | ceout x y reg mode hk => exact reads_ceout x y reg mode hk
  | rswait x => exact reads_rswait x
  | rswaitRecv x y => exact reads_rswaitRecv x y
  | aclr x acc hk => exact reads_aclr x acc hk
  | anorm x acc hk => exact reads_anorm x acc hk
  | aload x n m acc hk => exact reads_aload x n m acc hk
  | sdset x sd hk => exact reads_sdset x sd hk
  | chdrain y hk => exact reads_chdrain y hk
  | chload x hk => exact reads_chload x hk
  | scdrain y hk => exact reads_scdrain y hk
  | scload x hk => exact reads_scload x hk
  | scclr hk => exact reads_scclr hk
  | cload rn hk => exact reads_cload rn hk
  | eval x y rn hk => exact reads_eval x y rn hk
  | pupd x y hk => exact reads_pupd x y hk
  | _ => exact absurd hm (not_one_le_major rfl)

end Sys2Proof
end

section
/-! PROOFS. Words and bytes (O55, O56, O57, O58; R62, R79). -/

namespace Sys2Proof

/-! ### Bytes -/

/-- Eight bytes are the bytes of the number that they make. -/
theorem leBytes_leNat (bs : List Byte) : leBytes bs.length (leNat bs) = bs := by
  induction bs with
  | nil => rfl
  | cons b bs ih =>
    have hb : BitVec.ofNat 8 (b.toNat + 256 * leNat bs) = b := BitVec.eq_of_toNat_eq (by rw [BitVec.toNat_ofNat]; omega)
    rw [List.length_cons, leNat, leBytes, hb, show (b.toNat + 256 * leNat bs) / 256 = leNat bs by omega, ih]

theorem decodeWord_eq_ok {w : Nat} {i : Instr} : decodeWord w = .ok i ↔ parse w = .ok i ∧ i.wf = true ∧ i.word = w := by
  unfold decodeWord
  constructor
  · intro h
    split at h
    · cases h
    · split_ifs at h
      simp_all
  · rintro ⟨hp, hwf, hw⟩
    simp only [hp, hwf, hw, if_true]

theorem decode_eq_ok {bs rest : List Byte} {i : Instr} :
    decode bs = .ok (i, rest) ↔ 8 ≤ bs.length ∧ decodeWord (leNat (bs.take 8)) = .ok i ∧ bs.drop 8 = rest := by
  unfold decode
  constructor
  · intro h
    split_ifs at h with hl
    split at h
    · simp_all
    · cases h
  · rintro ⟨hl, hd, hr⟩
    simp only [hd, hr, if_neg (Nat.not_lt.2 hl)]

theorem decode_encode {i : Instr} (rest : List Byte) (hwf : i.wf = true) (hm : 1 ≤ i.major) : decode (encode i ++ rest) = .ok (i, rest) := by
  obtain ⟨hlt, hp⟩ := i.reads_word hwf hm
  have hlen : (encode i).length = 8 := Machine.leBytes_length 8 _
  have hword : leNat (encode i) = i.word := (Machine.leNat_leBytes 8 _).trans (Nat.mod_eq_of_lt hlt)
  refine decode_eq_ok.2 ⟨?_, ?_, List.drop_left' hlen⟩
  · rw [List.length_append, hlen]; omega
  · rw [List.take_left' hlen, hword]
    exact decodeWord_eq_ok.2 ⟨hp, hwf, rfl⟩

theorem encode_of_decode {bs rest : List Byte} {i : Instr} (h : decode bs = .ok (i, rest)) : i.wf = true ∧ bs = encode i ++ rest := by
  obtain ⟨hlen, hd, hrest⟩ := decode_eq_ok.1 h
  obtain ⟨-, hwf, hword⟩ := decodeWord_eq_ok.1 hd
  have hbytes : encode i = bs.take 8 := by
    rw [encode, hword]
    simpa [hlen] using leBytes_leNat (bs.take 8)
  exact ⟨hwf, by rw [hbytes, ← hrest, List.take_append_drop]⟩

/-! ### The statements -/

/-- Settles O56: a case split over the instructions, each word read by the parser of its opcode. -/
theorem aPipeRoundTrip : Obligations.APipeRoundTrip := fun _ rest hwf hm _ => decode_encode rest hwf hm

/-- Settles O57: as O56, of the majors from 0x20. -/
theorem xPipeRoundTrip : Obligations.XPipeRoundTrip := fun i rest hwf hx => by
  have hm : 0x20 ≤ i.major := by simp_all [Instr.isX]
  exact decode_encode rest hwf (Nat.le_trans (by decide) hm)

/-- Settles O58: as O56, of the majors from 0x30. -/
theorem engineRoundTrip : Obligations.EngineRoundTrip := fun _ rest hwf hm => decode_encode rest hwf (Nat.le_trans (by decide) hm)

/-- Settles O55: each word of the manual is parsed and encoded again by evaluation; of any other word, the check that `decodeWord` makes last. -/
theorem wordsDecode : Obligations.WordsDecode :=
  ⟨by decide, fun _ _ _ h => encode_of_decode h⟩

end Sys2Proof
end

section
/-! PROOFS. Branches and jumps (O3; R63, R113, R135, R136). -/

namespace Sys2Proof.Machine

/-! ### Targets and conditions -/

/-- The target that the model computes is the one of R135. -/
theorem abTarget_next (next : Word) (off : BitVec 36) : abTarget (next - 8) off = next - 8 + 8 * off.signExtend 64 := by
  rw [abTarget, BitVec.shiftLeft_eq_mul_twoPow, BitVec.mul_comm]
  rfl

theorem State.abTarget_wordPc (s : State) (off : BitVec 36) : abTarget s.wordPc off = branchTo s off := abTarget_next _ off

theorem branchTo_aligned {s : State} (off : BitVec 36) (h : s.core.fe.cur.next.toNat % 8 = 0) : (branchTo s off).toNat % 8 = 0 := by
  unfold branchTo
  generalize off.signExtend 64 = x
  bv_omega

theorem condHolds_eq_condTrue (c : Cond) (x y : Word) : condHolds c x y = condTrue c x y := by
  cases c <;> rfl

theorem wfld_low3 (x : Word) : wfld x 0 3 = x.toNat % 8 := by simp [wfld, fld]

/-! ### What each form does once it issues -/

section
variable {s : State}

theorem State.dispatchMem_br (s : State) (c : Slot) (off : BitVec 36) (n : Nat) :
    (s.dispatchMem { c with instr := .br .always 0 0 off } n).core.fe.pc = abTarget (c.next - 8) off := rfl

theorem State.dispatchMem_call (s : State) (c : Slot) (a : GReg) (off : BitVec 36) (n : Nat) :
    (s.dispatchMem { c with instr := .call a off } n).core.fe.pc = abTarget (c.next - 8) off := rfl

/-- A branch that was resolved at its dispatch only completes; another one redirects fetch. -/
theorem execBr_always (a b : GReg) (off : BitVec 36) (h : s.CanIssue [] []) :
    execBr .always a b off s = done (if s.core.fe.cur.redirected then s else s.redirect (branchTo s off) 2) := by
  rw [execBr, State.aIssue_of_canIssue h, State.abTarget_wordPc]

theorem execBr_cmp (c : Cond) (a b : GReg) (off : BitVec 36) (h : s.CanIssue [a, b] []) :
    execBr (.cmp c) a b off s = done (s.redirect (if condTrue c (s.g a) (s.g b) then branchTo s off else s.core.fe.cur.next) 4) := by
  rw [execBr, State.aIssue_of_canIssue h, State.abTarget_wordPc, condHolds_eq_condTrue]

theorem execCall_eq (a : GReg) (off : BitVec 36) (h : s.CanIssue [] [a]) :
    execCall a off s = done (if s.core.fe.cur.redirected then s.setLate a s.core.fe.cur.next 1
      else (s.redirect (branchTo s off) 2).setLate a s.core.fe.cur.next 1) := by
  rw [execCall, State.aIssue_of_canIssue h, State.abTarget_wordPc]
  dsimp only
  rw [State.setLate_core_fe]
  split
  · rfl
  · rw [State.redirect, State.redirect, State.setLate_fe _ _ rfl]

theorem State.jumpTo_aligned {t : Word} (k : State → Out) (h : t.toNat % 8 = 0) : s.jumpTo t k = k (s.redirect t 4) := by
  rw [State.jumpTo, wfld_low3, h]
  rfl

theorem State.jumpTo_misaligned {t : Word} (k : State → Out) (h : t.toNat % 8 ≠ 0) : s.jumpTo t k = s.aTrapFree .illegalOperand := by
  rw [State.jumpTo, wfld_low3, if_pos (bne_iff_ne.2 h)]

theorem execJr_eq (a : GReg) (i : BitVec 32) (h : s.CanIssue [a] []) : execJr a i s = s.jumpTo (s.g a + immOf s i) done := by
  rw [execJr, State.aIssue_of_canIssue h, immOf_eq]

theorem execCallr_eq (d a : GReg) (i : BitVec 32) (h : s.CanIssue [a] [d]) :
    execCallr d a i s = s.jumpTo (s.g a + immOf s i) fun t => done (t.setLate d s.core.fe.cur.next 1) := by
  rw [execCallr, State.aIssue_of_canIssue h, immOf_eq]

/-- An instruction that writes its link register and jumps. -/
theorem done_redirect_setLate (s : State) (p : Word) (n : Nat) (d : GReg) (x : Word) (k : Nat) :
    ∃ t, done ((s.redirect p n).setLate d x k) = .next t ∧ s.WroteG d x k t ∧ s.Jumped p n t := by
  refine ⟨_, rfl, ?_, ?_⟩
  · rw [State.redirect, State.setLate_fe _ _ rfl]
    exact (((s.setLate_wrote d x k).fe _).fe _).fe _
  · simp [State.Jumped, State.progress, State.redirect]

end

/-- Settles O3: each form by what it does once it issues; the targets are those of R135 and R136. -/
theorem branchesAndJumps : Obligations.BranchesAndJumps := by
  unfold Obligations.BranchesAndJumps
  intro s d a b off i c f tgt
  refine ⟨branchTo_aligned off, fun n => ⟨?_, ?_⟩, fun h => ?_, fun h => ?_, fun h => ?_, fun h hal => ?_, fun h hal => ?_, fun ht hmis => ⟨fun h => ?_, fun h => ?_⟩⟩
  · rw [State.dispatchMem_br, abTarget_next]; rfl
  · rw [State.dispatchMem_call, abTarget_next]; rfl
  · show ∃ t, execBr .always a b off s = .next t ∧ _
    rw [execBr_always a b off h]
    split
    · exact done_self s
    · exact done_redirect s _ 2
  · show ∃ t, execBr (.cmp c) a b off s = .next t ∧ _
    rw [execBr_cmp c a b off h]
    exact done_redirect s _ 4
  · show ∃ t, execCall a off s = .next t ∧ _
    rw [execCall_eq a off h]
    split
    · exact done_setLate s a f.next 1
    · exact done_redirect_setLate s _ 2 a f.next 1
  · show ∃ t, execJr a i s = .next t ∧ _
    rw [execJr_eq a i h, State.jumpTo_aligned done hal]
    exact done_redirect s tgt 4
  · show ∃ t, execCallr d a i s = .next t ∧ _
    rw [execCallr_eq d a i h, State.jumpTo_aligned _ hal]
    exact done_redirect_setLate s tgt 4 d f.next 1
  · show ∃ t, execJr a i s = .next t ∧ _
    rw [execJr_eq a i h, State.jumpTo_misaligned done hmis]
    exact aTrapFree_took ht .illegalOperand
  · show ∃ t, execCallr d a i s = .next t ∧ _
    rw [execCallr_eq d a i h, State.jumpTo_misaligned _ hmis]
    exact aTrapFree_took ht .illegalOperand

end Sys2Proof.Machine
end

section
/-! PROOFS. The operands of the X-pipe (O21; R66, R67, R168, R173). -/

namespace Sys2Proof.Machine

section
variable {u : State} {srcs : List XOp} {k : Nat}

/-! ### Reading at issue -/

/-- Source k is read after the sources before it. -/
theorem State.readAll_getElem? (u : State) (srcs before : List XOp) (k : Nat) :
    (u.readAll before srcs)[k]? = (srcs[k]?).map (u.readX ((srcs.take k).reverse ++ before)) := by
  induction srcs generalizing before k with
  | nil => simp [State.readAll]
  | cons o os ih =>
    cases k with
    | zero => simp [State.readAll]
    | succ k => simp [State.readAll, ih]

/-- What an operand is read as, of the source at its place. -/
theorem State.readAll_getD {o : XOp} (h : srcs[k]? = some o) : (u.readAll [] srcs).getD k (.scal 0) = u.readX (srcs.take k).reverse o := by
  rw [List.getD_eq_getElem?_getD, State.readAll_getElem?, h, List.append_nil]
  rfl

theorem popCount_reverse (os : List XOp) (q : Fin 8) : popCount os.reverse q = (os.filter fun o => o = .pop q).length := by
  rw [popCount, List.filter_reverse, List.length_reverse]
  simp only [beq_eq_decide]

theorem elemOf_eq {o : XOp} (h : srcs[k]? = some o) (ty : ElemTy) (i : Nat) : elemOf u srcs k ty i = (u.readX (srcs.take k).reverse o).lane ty i := by
  rw [elemOf, State.readAll_getD h]

theorem scalOf_eq {o : XOp} (h : srcs[k]? = some o) (ty : ElemTy) : scalOf u srcs k ty = (u.readX (srcs.take k).reverse o).sc ty := by
  rw [scalOf, State.readAll_getD h]

/-! ### The values of an operand -/

theorem Opd.lane_full (ty : ElemTy) (x : Vec) (i : Nat) : (Opd.full x.toNat).lane ty i = (x >>> (ty.width * i)).toNat % 2 ^ ty.width := by
  rw [BitVec.toNat_ushiftRight, Nat.shiftRight_eq_div_pow]
  rfl

/-- The item that a pop reads: the one after those that the sources before it take. -/
theorem State.readX_pop {q : Fin 8} {os : List XOp} {y : LqItem} {x : Vec} (hy : u.core.qs.lq[q][(os.filter fun o => o = .pop q).length]? = some y)
    (hx : y.data = some x) : u.readX os.reverse (.pop q) = .full x.toNat := by
  rw [State.readX, popCount_reverse, hy]
  simp [hx]

theorem State.readX_peek {q : Fin 8} {os : List XOp} {y : LqItem} {x : Vec} (hy : u.core.qs.lq[q][0]? = some y) (hx : y.data = some x) :
    u.readX os (.peek q) = .full x.toNat := by
  rw [State.readX, hy]
  simp [hx]

end

/-- Settles O21: source k is `readX` of its code after the sources before it, case by case of the code. -/
theorem operandsRead : Obligations.OperandsRead := by
  unfold Obligations.OperandsRead
  intro u srcs k ty i earlier item
  refine ⟨fun n h => ?_, fun n h => ?_, fun n h => ?_, fun q x h hx => ?_, fun q x h hx => ?_⟩
  · rw [elemOf_eq h, State.readX, Opd.lane_full, State.v, State.phys, State.rb]
    split <;> rfl
  · exact ⟨elemOf_eq h ty i, scalOf_eq h ty⟩
  · exact ⟨elemOf_eq h ty i, scalOf_eq h ty⟩
  · obtain ⟨y, hy, hd⟩ := hx
    rw [elemOf_eq h, scalOf_eq h, State.readX_pop hy hd]
    exact ⟨Opd.lane_full ty x i, rfl⟩
  · obtain ⟨y, hy, hd⟩ := hx
    rw [elemOf_eq h, scalOf_eq h, State.readX_peek hy hd]
    exact ⟨Opd.lane_full ty x i, rfl⟩

end Sys2Proof.Machine
end

section
/-! PROOFS. XIMM, STAMP and TRAP (O18; R73, R74, R125, R126, R128). -/

namespace Sys2Proof.Machine

/-! ### Where a trap ends (R126) -/

/-- What entering the handler leaves: the trap registers record the trap, the results in flight are set aside, what was dispatched is kept for
ERET, and nothing else of the core, the memories and the package has changed. -/
structure State.EnteredHandler (s : State) (r : TrapRec) (t : State) : Prop where
  sys : t.core.sys = s.core.sys.record r s.core.fe.kernel.isSome s.core.eng.qpos
  regs : t.core.regs = { s.core.regs with rpl := flyToRpl s.core.fe.xnow s.core.regs.fly, fly := [] }
  resume : t.core.fe.resume = some ⟨r.pipe, r.pc, r.opc, s.core.fe.aq, s.core.fe.xq, s.core.fe.pc, s.core.fe.kernel,
    s.core.fe.mac.map fun m => (m.layer, m.upc), r.held, s.core.sys.mloopStk, s.core.fe.seq, r.upc⟩
  qs : t.core.qs = s.core.qs
  eng : t.core.eng = s.core.eng
  lsu : t.core.lsu = s.core.lsu
  mems : t.core.mems = s.core.mems
  mem : t.mem = s.mem
  pkg : t.pkg = s.pkg

section
variable {s : State} {r : TrapRec}

/-- With no X-cycle due, the state that a trap finds is the state as it stands. -/
theorem takeTrap_enteredHandler (h : s.CanTrap) (hx : s.core.fe.xdone = false) : s.EnteredHandler r (s.takeTrap r) := by
  unfold State.takeTrap
  rw [hx, Bool.and_false, Bool.false_and, if_neg Bool.false_ne_true]
  dsimp only
  rw [if_neg (by rw [h.user]; exact Bool.false_ne_true),
    if_neg (by rw [show wbit (s.sys fun y => y.record r s.core.fe.kernel.isSome s.core.eng.qpos).core.sys.trapVec 0 = true from h.vec]; exact Bool.false_ne_true)]
  exact ⟨rfl, rfl, rfl, rfl, rfl, rfl, rfl, rfl, rfl⟩

/-- The state that a trap finds: results due at the next X-cycle have landed. -/
theorem landed_trapFinds (s : State) (b : Bool) : s.Landed (if b then s.openX else s) := by
  cases b with
  | false => exact .refl s
  | true => exact landed_openX s

theorem endUnit_core (s : State) (fin : Nat) (drop : Bool) : (s.endUnit fin drop).core.fe.unit = .ended ∧ (s.endUnit fin drop).core.sys = s.core.sys ∧
    (s.endUnit fin drop).core.regs.g = s.core.regs.g := by
  obtain ⟨e, c, -, h⟩ := endUnit_shape s fin drop
  rw [h]
  exact ⟨rfl, rfl, rfl⟩

/-- Without a handler the unit ends with the trap in its trap registers. -/
theorem takeTrap_noHandler (hu : s.core.fe.handler = false) (hv : wbit s.core.sys.trapVec 0 = false) :
    ∃ (inloop : Bool) (qpos : Word) (y : Sys), (s.takeTrap r).core.fe.unit = .ended ∧ (s.takeTrap r).core.sys = y.record r inloop qpos ∧
      (s.takeTrap r).core.regs.g = s.core.regs.g := by
  have h0 := landed_trapFinds s (r.pipe != 2 && s.core.fe.xdone && !s.xBlocked)
  unfold State.takeTrap
  generalize (if (r.pipe != 2 && s.core.fe.xdone && !s.xBlocked) = true then s.openX else s) = u at h0 ⊢
  have hvec : u.core.sys.trapVec = s.core.sys.trapVec := by rw [h0.sys]
  dsimp only
  rw [if_neg (by rw [h0.fe]; exact ne_true_of_eq_false hu),
    if_pos (by rw [show (u.sys fun y => y.record r u.core.fe.kernel.isSome u.core.eng.qpos).core.sys.trapVec = s.core.sys.trapVec from hvec, hv]; rfl)]
  obtain ⟨hunit, hsys, hg⟩ := endUnit_core (u.sys fun y => y.record r u.core.fe.kernel.isSome u.core.eng.qpos) stFaulted false
  exact ⟨_, _, u.core.sys, hunit, hsys, hg.trans h0.g⟩

/-- A synchronous trap in the handler ends the unit: TRAP.CAUSE has the code of DOUBLE_TRAP, the other trap registers stay. -/
theorem takeTrap_doubleTrap (hh : s.core.fe.handler = true) : (s.takeTrap r).core.fe.unit = .ended ∧
    (∃ w, (s.takeTrap r).core.sys.trapCause = setFld w 0 8 Cause.doubleTrap.code) ∧ (s.takeTrap r).core.sys.trapPc = s.core.sys.trapPc ∧
      (s.takeTrap r).core.regs.g = s.core.regs.g := by
  have h0 := landed_trapFinds s (r.pipe != 2 && s.core.fe.xdone && !s.xBlocked)
  unfold State.takeTrap
  generalize (if (r.pipe != 2 && s.core.fe.xdone && !s.xBlocked) = true then s.openX else s) = u at h0 ⊢
  dsimp only
  rw [if_pos (by rw [h0.fe]; exact hh)]
  generalize hd : (u.sys fun y => { y with trapCause := setFld y.trapCause 0 8 Cause.doubleTrap.code }) = v
  obtain ⟨hunit, hsys, hg⟩ := endUnit_core (v.bb (.trap .doubleTrap)) stFaulted false
  have hv := (bbOf_bb v (.trap .doubleTrap)).core
  subst hd
  refine ⟨hunit, ⟨u.core.sys.trapCause, ?_⟩, ?_, ?_⟩
  · rw [hsys, hv]; rfl
  · rw [hsys, hv]
    show u.core.sys.trapPc = _
    rw [h0.sys]
  · rw [hg, hv]
    exact h0.g

end

/-! ### TRAP.CAUSE (R125) -/

theorem causeWord_flags {code : Nat} (hc : code < 64) (pipe : Nat) (m p l : Bool) :
    wfld (causeWord pipe m p l code) 33 1 = Bool.bit m ∧ wfld (causeWord pipe m p l code) 31 1 = Bool.bit l := by
  unfold wfld causeWord fld
  simp only [BitVec.toNat_ofNat, Bool.bit]
  cases m <;> cases p <;> cases l <;> simp <;> omega

theorem wfld_setFld_low (w : Word) {x : Nat} (hx : x < 256) : wfld (setFld w 0 8 x) 0 8 = x := by
  unfold wfld setFld fld
  rw [BitVec.toNat_ofNat]
  omega

theorem bit_isSome {α : Type} (o : Option α) : Bool.bit o.isSome = if o = none then 0 else 1 := by cases o <;> rfl

/-! ### TRAP -/

section
variable {s : State}

/-- The record of a trap of the A-pipe at the current group. -/
def State.aTrapRec (s : State) (cause : Cause) (info : Word) : TrapRec :=
  ⟨1, cause, info, s.core.fe.cur.pc, s.core.fe.xPc?.getD s.core.fe.cur.pc, s.core.fe.cur.upc, s.core.fe.cur.stk, s.core.fe.cur.paired, 0, [], none⟩

theorem aTrap_eq (s : State) (cause : Cause) (info : Word) :
    s.aTrap cause info = .next ((s.fe fun f => { f with aq := f.cur :: f.aq }).takeTrap (s.aTrapRec cause info)) := rfl

theorem execTrap_eq (h : s.CanIssue [] []) (c : BitVec 32) : execTrap c s = s.aTrap .software (c.setWidth 64) := by
  rw [execTrap, State.aIssue_of_canIssue h]

/-- The resumption PC of the X-pipe, the current group's where the X-pipe holds nothing. -/
theorem xPc?_getD (f : Front) (pc : Word) :
    f.xPc?.getD pc = (match f.kernel, f.xq with | some k, _ => k.pc | none, u :: _ => u.pc | none, [] => pc) := by
  unfold Front.xPc?
  rcases f.kernel with _ | k
  · rcases f.xq with _ | ⟨u, us⟩ <;> rfl
  · rfl

end

/-- Settles O18: XIMM and STAMP by their definitions; a TRAP enters the handler, ends the unit that has none, or ends it with DOUBLE_TRAP. -/
theorem prefixesAndTrap : Obligations.PrefixesAndTrap := by
  unfold Obligations.PrefixesAndTrap
  intro s v c t32 f
  refine ⟨⟨_, rfl, rfl⟩, ⟨_, rfl, rfl⟩, fun h ht hx => ?_, fun h hu hv => ?_, fun h hh _ => ?_⟩
  · obtain ⟨t, hn, hta⟩ := aTrap_took ht .software (c.setWidth 64)
    refine ⟨t, (execTrap_eq h c).trans hn, hta, ?_⟩
    rw [aTrap_eq] at hn
    have he := takeTrap_enteredHandler (s := s.fe fun f => { f with aq := f.cur :: f.aq }) (r := s.aTrapRec .software (c.setWidth 64)) ⟨ht.user, ht.vec⟩ hx
    rw [Host.Outcome.next.inj hn] at he
    have hflags := causeWord_flags (code := Cause.software.code) (by decide) 1 f.cur.upc.isSome f.cur.paired f.kernel.isSome
    rw [he.sys, he.regs]
    refine ⟨rfl, xPc?_getD f f.cur.pc, hflags.1.trans (bit_isSome _), hflags.2.trans (bit_isSome _), ?_, rfl, rfl, rfl, rfl, he.qs, he.eng, he.lsu, ?_, he.pkg, he.resume⟩
    · show (if f.cur.upc.isSome then f.cur.pc else 0) = _
      cases f.cur.upc <;> rfl
    · exact ⟨fun a => by rw [he.mem]; rfl, fun a => by rw [he.mems]; rfl, fun a => by rw [he.mems]; rfl, fun a => by rw [he.mems]; rfl,
        fun a => by rw [he.mems]; rfl, fun a => by rw [he.mems]; rfl⟩
  · obtain ⟨inloop, qpos, y, hunit, hsys, hg⟩ :=
      takeTrap_noHandler (s := s.fe fun f => { f with aq := f.cur :: f.aq }) (r := s.aTrapRec .software (c.setWidth 64)) hu hv
    refine ⟨_, (execTrap_eq h c).trans (aTrap_eq ..), hunit, ?_, ?_, hg⟩
    · rw [hsys]
      exact (causeWord_fields 1 (by decide) f.cur.upc.isSome f.cur.paired inloop .software).1
    · rw [hsys]
      rfl
  · obtain ⟨hunit, ⟨w, hcause⟩, hpc, hg⟩ :=
      takeTrap_doubleTrap (s := s.fe fun f => { f with aq := f.cur :: f.aq }) (r := s.aTrapRec .software (c.setWidth 64)) hh
    refine ⟨_, (execTrap_eq h c).trans (aTrap_eq ..), hunit, ?_, hpc, hg⟩
    rw [hcause]
    exact wfld_setFld_low w (by decide)

end Sys2Proof.Machine
end
